-- ==== Sys2Proof/Word.lean ====
section
/-! DEFINITION. The word types of the AZ9 and their plainest arithmetic: bytes, 32-bit lanes, 64-byte blocks seen as
16 lanes or 64 bytes (R6), and the one sparse table in which memory and every site-indexed structure is held. -/

namespace Sys2Proof

/-- One byte of memory, scratchpad or payload. -/
abbrev Byte := BitVec 8

/-- One 32-bit lane value, scalar payload or register. -/
abbrev Word := BitVec 32

/-- One 64-byte block: a vector token's payload, a stage register or an accumulator over its 16 lanes (R6, R64). -/
abbrev Block := BitVec 512

/-- A site index (R15). -/
abbrev Site := BitVec 12

/-- Bits `[lo+n-1:lo]` of a value, as an `n`-bit vector (R5). -/
def bits {w : Nat} (x : BitVec w) (lo n : Nat) : BitVec n := x.extractLsb' lo n

/-- Bit `i` of a value (R5). -/
def bitAt {w : Nat} (x : BitVec w) (i : Nat) : Bool := x.getLsbD i

/-- `x` with bits `[lo+n-1:lo]` replaced by `v` (R5). -/
def setBits {w n : Nat} (x : BitVec w) (lo : Nat) (v : BitVec n) : BitVec w :=
  (x &&& ~~~(BitVec.ofNat w ((2 ^ n - 1) * 2 ^ lo))) ||| (v.setWidth w <<< lo)

/-- Lane `l` of a block occupies payload bits `[32l+31:32l]` (R6). -/
def lane (b : Block) (l : Nat) : Word := b.extractLsb' (32 * l) 32

/-- The value of the first `n` lanes given by `f`, lane 0 lowest. -/
def lanesNat (f : Nat → Word) : Nat → Nat
  | 0 => 0
  | n + 1 => lanesNat f n + (f n).toNat * 2 ^ (32 * n)

/-- The block whose lane `l` is `f l` (R6). -/
def ofLanes (f : Nat → Word) : Block := BitVec.ofNat 512 (lanesNat f 16)

/-- The block that holds one word in every lane. -/
def splat (w : Word) : Block := ofLanes fun _ => w

/-- Byte `i` of a block is payload bits `[8i+7:8i]` (R6). -/
def blockByte (b : Block) (i : Nat) : Byte := b.extractLsb' (8 * i) 8

/-- The value of the first `n` bytes given by `f`, byte 0 lowest. -/
def bytesNat (f : Nat → Byte) : Nat → Nat
  | 0 => 0
  | n + 1 => bytesNat f n + (f n).toNat * 2 ^ (8 * n)

/-- The block whose byte `i` is `f i` (R6). -/
def ofBytes (f : Nat → Byte) : Block := BitVec.ofNat 512 (bytesNat f 64)

/-- A 16-bit mask whose bit `l` is `f l`. -/
def maskNat (f : Nat → Bool) : Nat → Nat
  | 0 => 0
  | n + 1 => maskNat f n + (if f n then 2 ^ n else 0)

/-- The lane mask of the lanes for which `f` holds. -/
def ofMask (f : Nat → Bool) : BitVec 16 := BitVec.ofNat 16 (maskNat f 16)

/-- The byte mask of the bytes for which `f` holds. -/
def ofMask64 (f : Nat → Bool) : BitVec 64 := BitVec.ofNat 64 (maskNat f 64)

/-- The two's-complement value of `n` low bits of a natural number. -/
def signed (n : Nat) (x : Nat) : Int :=
  if x % 2 ^ n < 2 ^ (n - 1) then (x % 2 ^ n : Nat) else ((x % 2 ^ n : Nat) : Int) - 2 ^ n

/-- A sparse table keyed by a number: keys strictly rising, and no entry equal to the table's default value, so that
equal tables are equal lists. -/
abbrev Table (α : Type) := List (Nat × α)

/-- What the table holds at `k`: the listed value, or the default `d`. -/
def Table.get {α : Type} (d : α) : Table α → Nat → α
  | [], _ => d
  | (k', v) :: t, k => if k' = k then v else Table.get d t k

/-- The table without what it lists at `k`. -/
def Table.erase {α : Type} : Table α → Nat → Table α
  | [], _ => []
  | (k', v) :: t, k => if k' = k then Table.erase t k else (k', v) :: Table.erase t k

/-- The table with `v` listed at `k`, in key order. -/
def Table.insert {α : Type} : Table α → Nat → α → Table α
  | [], k, v => [(k, v)]
  | (k', v') :: t, k, v =>
    if k < k' then (k, v) :: (k', v') :: t
    else if k' = k then (k, v) :: t
    else (k', v') :: Table.insert t k v

/-- Write `v` at `k`; writing the default removes the entry, so the canonical form is kept. -/
def Table.set {α : Type} [DecidableEq α] (d : α) (t : Table α) (k : Nat) (v : α) : Table α :=
  if v = d then Table.erase t k else Table.insert t k v

/-- The keys of the table rise strictly, all above `lo`. -/
def Table.sortedFrom {α : Type} : Nat → Table α → Bool
  | _, [] => true
  | lo, (k, _) :: t => decide (lo ≤ k) && Table.sortedFrom (k + 1) t

/-- The canonical form: keys strictly rising and no entry equal to the default. -/
def Table.wf {α : Type} [DecidableEq α] (d : α) (t : Table α) : Bool :=
  Table.sortedFrom 0 t && t.all fun e => decide (e.2 ≠ d)

end Sys2Proof
end

