-- ==== Sys2Proof/Machine/Float.lean ====
section
/-! DEFINITION. Exact dyadic arithmetic and the IEEE 754 formats of R113 with the rounding modes of R114, the sticky flags
of R115, and the fp32 operations that the CE, the engines and the collectives share. Every result is formed exactly and
rounded once. -/

namespace Sys2Proof.Machine

/-- Sticky flag bits in the order of AFLAGS (R115). -/
abbrev Flags := BitVec 6

/-- NV, invalid operation (R115). -/
def fNV : Flags := 1#6

/-- OF, overflow (R115). -/
def fOF : Flags := 2#6

/-- UF, underflow (R115). -/
def fUF : Flags := 4#6

/-- NX, inexact (R115). -/
def fNX : Flags := 8#6

/-- SAT, saturated (R115). -/
def fSAT : Flags := 16#6

/-- BD, bad descriptor (R115). -/
def fBD : Flags := 32#6

/-- No flag. -/
def fNone : Flags := 0#6

/-- `f` when the condition holds, else no flag. -/
def flagIf (c : Bool) (f : Flags) : Flags := if c then f else fNone

/-- A wide format: exponent width, fraction width, bias and canonical NaN (R113). -/
structure Fmt where
  eb : Nat
  mb : Nat
  bias : Nat
  nan : Nat
  deriving DecidableEq, Repr

/-- binary32 (R113). -/
def fp32 : Fmt := ⟨8, 23, 127, 0x7FC00000⟩

/-- binary16 (R113). -/
def fp16 : Fmt := ⟨5, 10, 15, 0x7E00⟩

/-- bf16 (R113). -/
def bf16 : Fmt := ⟨8, 7, 127, 0x7FC0⟩

/-- The weight of the sign bit. -/
def Fmt.signBit (f : Fmt) : Nat := 2 ^ (f.eb + f.mb)

/-- The all-ones exponent field. -/
def Fmt.expMax (f : Fmt) : Nat := 2 ^ f.eb - 1

/-- The magnitude bits of infinity. -/
def Fmt.infMag (f : Fmt) : Nat := f.expMax * 2 ^ f.mb

/-- The exponent of the least normal number. -/
def Fmt.emin (f : Fmt) : Int := 1 - (f.bias : Int)

/-- An exact dyadic number m × 2^e. -/
structure Dy where
  m : Int
  e : Int
  deriving DecidableEq, Repr

/-- m × 2^e brought to exponent `e0 ≤ e`: the mantissa. -/
def Dy.mantAt (x : Dy) (e0 : Int) : Int := x.m * (2 ^ (x.e - e0).toNat : Nat)

/-- Exact sum. -/
def Dy.add (x y : Dy) : Dy :=
  let e0 := min x.e y.e
  ⟨x.mantAt e0 + y.mantAt e0, e0⟩

/-- Exact product. -/
def Dy.mul (x y : Dy) : Dy := ⟨x.m * y.m, x.e + y.e⟩

/-- Exact negation. -/
def Dy.neg (x : Dy) : Dy := ⟨-x.m, x.e⟩

/-- The integer n. -/
def Dy.ofInt (n : Int) : Dy := ⟨n, 0⟩

/-- Exact comparison x < y. -/
def Dy.lt (x y : Dy) : Bool :=
  let e0 := min x.e y.e
  decide (x.mantAt e0 < y.mantAt e0)

/-- Exact sum of a list. -/
def Dy.sum (xs : List Dy) : Dy := xs.foldl Dy.add ⟨0, 0⟩

/-- What a bit pattern of a wide format stands for. -/
inductive FVal where
  /-- a NaN; `true` when signalling -/
  | nan (signalling : Bool)
  /-- an infinity with its sign -/
  | inf (neg : Bool)
  /-- a finite number: its sign and its magnitude m × 2^e (m = 0 for a zero) -/
  | fin (neg : Bool) (m : Nat) (e : Int)
  deriving DecidableEq, Repr

/-- Read a bit pattern (R113); subnormals are kept (R114). -/
def Fmt.unpack (f : Fmt) (b : Nat) : FVal :=
  let neg := decide (b / f.signBit % 2 = 1)
  let ex := b / 2 ^ f.mb % 2 ^ f.eb
  let fr := b % 2 ^ f.mb
  if ex = f.expMax then
    if fr = 0 then .inf neg else .nan (decide (fr < 2 ^ (f.mb - 1)))
  else if ex = 0 then .fin neg fr (f.emin - f.mb)
  else .fin neg (fr + 2 ^ f.mb) ((ex : Int) - f.bias - f.mb)

/-- The exact number of a finite value. -/
def FVal.dy : FVal → Dy
  | .fin neg m e => ⟨if neg then -(m : Int) else m, e⟩
  | _ => ⟨0, 0⟩

/-- The value is a NaN. -/
def FVal.isNaN : FVal → Bool
  | .nan _ => true
  | _ => false

/-- The value is a signalling NaN. -/
def FVal.isSNaN : FVal → Bool
  | .nan s => s
  | _ => false

/-- The value is an infinity. -/
def FVal.isInf : FVal → Bool
  | .inf _ => true
  | _ => false

/-- The value is a zero of either sign. -/
def FVal.isZero : FVal → Bool
  | .fin _ m _ => m == 0
  | _ => false

/-- The sign of a number that is not a NaN. -/
def FVal.isNeg : FVal → Bool
  | .nan _ => false
  | .inf n => n
  | .fin n _ _ => n

/-- Floor of log2 of num / den, for num, den > 0. -/
def log2Ratio (num den : Nat) : Int :=
  let lg : Int := (Nat.log2 num : Int) - Nat.log2 den
  if num * 2 ^ (-lg).toNat < den * 2 ^ lg.toNat then lg - 1 else lg

/-- Does an inexact magnitude with integer part `q` and remainder `r` of `den` round up under the mode (R114)? -/
def roundsUp (mode : BitVec 2) (neg : Bool) (q r den : Nat) : Bool :=
  match mode.toNat with
  | 0 => decide (2 * r > den) || (decide (2 * r = den) && decide (q % 2 = 1))
  | 1 => false
  | 2 => neg
  | _ => !neg

/-- num / den × 2^k rounded to an integer magnitude under the mode, and whether it was inexact. -/
def roundScaled (mode : BitVec 2) (neg : Bool) (num den : Nat) (k : Int) : Nat × Bool :=
  let n := num * 2 ^ k.toNat
  let d := den * 2 ^ (-k).toNat
  let q := n / d
  let r := n % d
  (if r ≠ 0 ∧ roundsUp mode neg q r d then q + 1 else q, decide (r ≠ 0))

/-- The IEEE result of an overflow under the mode (R125, column POLICY 1). -/
def Fmt.overflow (f : Fmt) (mode : BitVec 2) (neg : Bool) : Nat :=
  let s := if neg then f.signBit else 0
  match mode.toNat with
  | 0 => s + f.infMag
  | 1 => s + (f.infMag - 1)
  | 2 => if neg then s + f.infMag else s + (f.infMag - 1)
  | _ => if neg then s + (f.infMag - 1) else s + f.infMag

/-- Round the exact magnitude num / den × 2^e, with its sign, once into the format (R114), with OF, UF and NX (R115):
tininess is judged after rounding to the format's precision with an unbounded exponent (DEDUCED, log 19). -/
def Fmt.round (f : Fmt) (mode : BitVec 2) (neg : Bool) (num den : Nat) (e : Int) : Nat × Flags :=
  let s := if neg then f.signBit else 0
  if num = 0 then (s, fNone)
  else
    let lg := log2Ratio num den + e
    let q := max lg f.emin - f.mb
    let r := roundScaled mode neg num den (e - q)
    -- mantissa r.1 in units of 2^q; a carry out of the top only raises the exponent
    let bitsMag : Int := if r.1 < 2 ^ f.mb then r.1 else ((q + f.mb + f.bias) : Int) * (2 ^ f.mb : Nat) + ((r.1 : Int) - (2 ^ f.mb : Nat))
    if bitsMag ≥ f.infMag then (f.overflow mode neg, fOF ||| fNX)
    else
      let unb := roundScaled mode neg num den (e - (lg - f.mb))
      let tiny := decide (lg < f.emin) && !(decide (unb.1 ≥ 2 ^ (f.mb + 1)) && decide (lg + 1 ≥ f.emin))
      (s + bitsMag.toNat, flagIf r.2 fNX ||| flagIf (r.2 && tiny) fUF)

/-- Round an exact dyadic number into the format; `zneg` is the sign an exact zero takes. -/
def Fmt.roundDy (f : Fmt) (mode : BitVec 2) (zneg : Bool) (x : Dy) : Nat × Flags :=
  if x.m = 0 then ((if zneg then f.signBit else 0), fNone)
  else f.round mode (decide (x.m < 0)) x.m.natAbs 1 x.e

/-- Round to nearest, ties to even (mode code of R29). -/
def rne : BitVec 2 := 0#2

/-- A × B + C with one rounding, and the special cases of R267. -/
def Fmt.fma (f : Fmt) (mode : BitVec 2) (va vb vc : FVal) : Nat × Flags :=
  let zeroInf := (va.isZero && vb.isInf) || (va.isInf && vb.isZero)
  if va.isNaN || vb.isNaN || vc.isNaN || zeroInf then
    (f.nan, flagIf (va.isSNaN || vb.isSNaN || vc.isSNaN || zeroInf) fNV)
  else
    let ps := va.isNeg != vb.isNeg
    let infOf (n : Bool) : Nat := (if n then f.signBit else 0) + f.infMag
    if va.isInf || vb.isInf then
      if vc.isInf && (vc.isNeg != ps) then (f.nan, fNV) else (infOf ps, fNone)
    else if vc.isInf then (infOf vc.isNeg, fNone)
    else
      let zneg := if ps == vc.isNeg then ps else decide (mode.toNat = 2)
      f.roundDy mode zneg ((va.dy.mul vb.dy).add vc.dy)

/-- The value 1. -/
def vOne : FVal := .fin false 1 0

/-- The value with its sign inverted. -/
def FVal.negate : FVal → FVal
  | .nan s => .nan s
  | .inf n => .inf !n
  | .fin n m e => .fin (!n) m e

/-- A + B (R267). -/
def Fmt.add (f : Fmt) (mode : BitVec 2) (a b : FVal) : Nat × Flags := f.fma mode a vOne b

/-- A × B (R267): an exact zero takes the product's sign. -/
def Fmt.mul (f : Fmt) (mode : BitVec 2) (a b : FVal) : Nat × Flags :=
  f.fma mode a b (.fin (a.isNeg != b.isNeg) 0 0)

/-- A lane's fp32 value. -/
def v32 (x : Word) : FVal := fp32.unpack x.toNat

/-- A result of 32 bits. -/
def w32 (r : Nat × Flags) : Word × Flags := (BitVec.ofNat 32 r.1, r.2)

/-- FADD with a mode (R267). -/
def fadd (mode : BitVec 2) (a b : Word) : Word × Flags := w32 (fp32.add mode (v32 a) (v32 b))

/-- FSUB (R267): A + (−B). -/
def fsub (mode : BitVec 2) (a b : Word) : Word × Flags := w32 (fp32.add mode (v32 a) (v32 b).negate)

/-- FMUL (R267). -/
def fmul (mode : BitVec 2) (a b : Word) : Word × Flags := w32 (fp32.mul mode (v32 a) (v32 b))

/-- FMA (R267). -/
def ffma (mode : BitVec 2) (a b c : Word) : Word × Flags := w32 (fp32.fma mode (v32 a) (v32 b) (v32 c))

/-- FMS (R267): A × B − C. -/
def ffms (mode : BitVec 2) (a b c : Word) : Word × Flags := w32 (fp32.fma mode (v32 a) (v32 b) (v32 c).negate)

/-- FNMA (R267): −(A × B) + C. -/
def ffnma (mode : BitVec 2) (a b c : Word) : Word × Flags := w32 (fp32.fma mode (v32 a).negate (v32 b) (v32 c))

/-- FSCALE (R267): A × 2^B for any 32-bit B, taken as two's complement. A B beyond ±600 gives the result that ±600 gives,
because fp32 spans fewer than 300 binades. -/
def fscale (mode : BitVec 2) (a b : Word) : Word × Flags :=
  match v32 a with
  | .nan s => (0x7FC00000#32, flagIf s fNV)
  | .inf _ => (a, fNone)
  | .fin neg m e =>
    if m = 0 then (a, fNone)
    else w32 (fp32.round mode neg m 1 (e + max (-600) (min 600 b.toInt)))

/-- The key that orders numbers of a format, with −0 below +0 (R268). -/
def Fmt.ordKey (f : Fmt) (b : Nat) : Int :=
  let mag := b % f.signBit
  if b / f.signBit % 2 = 1 then -(mag : Int) - 1 else mag

/-- The lesser (`wantMax = false`) or greater operand (R268). -/
def Fmt.minmax (f : Fmt) (wantMax : Bool) (a b : Nat) : Nat × Flags :=
  let va := f.unpack a
  let vb := f.unpack b
  let fl := flagIf (va.isSNaN || vb.isSNaN) fNV
  if va.isNaN && vb.isNaN then (f.nan, fl)
  else if va.isNaN then (b, fl)
  else if vb.isNaN then (a, fl)
  else
    let aLess := decide (f.ordKey a ≤ f.ordKey b)
    (if aLess != wantMax then a else b, fl)

/-- FMIN or FMAX on a lane (R268). -/
def fminmax (wantMax : Bool) (a b : Word) : Word × Flags := w32 (fp32.minmax wantMax a.toNat b.toNat)

/-- The order of two numbers that are not NaNs: A < B, with the zeros equal. -/
def FVal.ltv (a b : FVal) : Bool :=
  match a, b with
  | .inf n, .inf n' => n && !n'
  | .inf n, _ => n
  | _, .inf n' => !n'
  | x, y => x.dy.lt y.dy

/-- A = B, with +0 = −0 (R270). -/
def FVal.eqv (a b : FVal) : Bool := !(a.ltv b) && !(b.ltv a)

/-- FCEQ, FCLT, FCLE, FCUN by code 0 to 3: the relation and NV (R270). -/
def fcompare (rel : Nat) (a b : Word) : Bool × Flags :=
  let va := v32 a
  let vb := v32 b
  let un := va.isNaN || vb.isNaN
  let sn := va.isSNaN || vb.isSNaN
  match rel with
  | 0 => (!un && va.eqv vb, flagIf sn fNV)
  | 1 => (!un && va.ltv vb, flagIf un fNV)
  | 2 => (!un && !(vb.ltv va), flagIf un fNV)
  | _ => (un, flagIf sn fNV)

/-- FCLASS: the one-hot class mask (R270). -/
def fclass (a : Word) : Word :=
  match v32 a with
  | .nan s => if s then 0x100#32 else 0x200#32
  | .inf n => if n then 1#32 else 0x80#32
  | .fin n m _ =>
    let sub := decide (m < 2 ^ 23)
    if m = 0 then (if n then 8#32 else 16#32)
    else if sub then (if n then 4#32 else 32#32)
    else (if n then 2#32 else 64#32)

/-- FRND: A rounded to an integral fp32 value (R272). -/
def frnd (mode : BitVec 2) (a : Word) : Word × Flags :=
  match v32 a with
  | .nan s => (0x7FC00000#32, flagIf s fNV)
  | .inf _ => (a, fNone)
  | .fin neg m e =>
    let r := roundScaled mode neg m 1 e
    (BitVec.ofNat 32 (fp32.round rne neg r.1 1 0).1, flagIf r.2 fNX)

/-- F2I (`sgn = true`) and F2U: A rounded to an integer and saturated (R272). -/
def f2int (sgn : Bool) (mode : BitVec 2) (a : Word) : Word × Flags :=
  let lo : Int := if sgn then -(2 ^ 31) else 0
  let hi : Int := if sgn then 2 ^ 31 - 1 else 2 ^ 32 - 1
  match v32 a with
  | .nan _ => (0#32, fNV)
  | .inf n => (BitVec.ofInt 32 (if n then lo else hi), fSAT)
  | .fin neg m e =>
    let r := roundScaled mode neg m 1 e
    let x : Int := if neg then -(r.1 : Int) else r.1
    if x > hi then (BitVec.ofInt 32 hi, fSAT ||| fNX)
    else if x < lo then (BitVec.ofInt 32 lo, fSAT ||| flagIf (sgn || r.2) fNX)
    else (BitVec.ofInt 32 x, flagIf r.2 fNX)

/-- I2F and U2F: an integer rounded to fp32 (R272). -/
def int2f (mode : BitVec 2) (x : Int) : Word × Flags := w32 (fp32.roundDy mode false ⟨x, 0⟩)

/-- Widen or round a value of one format into another (R274). -/
def Fmt.convert (src dst : Fmt) (mode : BitVec 2) (b : Nat) : Nat × Flags :=
  match src.unpack b with
  | .nan s => (dst.nan, flagIf s fNV)
  | .inf n => ((if n then dst.signBit else 0) + dst.infMag, fNone)
  | .fin n m e => dst.round mode n m 1 e

/-- The integer square root, bit by bit from bit `k`. -/
def isqrtFrom (n : Nat) : Nat → Nat → Nat
  | 0, r => r
  | k + 1, r =>
    let r' := r + 2 ^ k
    isqrtFrom n k (if r' * r' ≤ n then r' else r)

/-- sqrt_rn: the correctly rounded square root of the STE (R137). -/
def sqrtRn (a : Word) : Word × Flags :=
  match v32 a with
  | .nan s => (0x7FC00000#32, flagIf s fNV)
  | .inf n => if n then (0x7FC00000#32, fNV) else (a, fNone)
  | .fin n m e =>
    if m = 0 then (a, fNone)
    else if n then (0x7FC00000#32, fNV)
    else
      -- an even exponent, and 64 more bits of magnitude, so that the root has over 26 bits and a sticky bit decides
      let m1 := if e % 2 = 0 then m else 2 * m
      let e1 := if e % 2 = 0 then e else e - 1
      let big := m1 * 2 ^ 64
      let r := isqrtFrom big 48 0
      let sticky := if r * r = big then 0 else 1
      w32 (fp32.round rne false (2 * r + sticky) 1 (e1 / 2 - 33))

/-- rcp_rn: the correctly rounded reciprocal of the STE (R137). -/
def rcpRn (a : Word) : Word × Flags :=
  match v32 a with
  | .nan s => (0x7FC00000#32, flagIf s fNV)
  | .inf n => (if n then 0x80000000#32 else 0#32, fNone)
  | .fin n m e =>
    if m = 0 then (if n then 0xFF800000#32 else 0x7F800000#32, fNone)
    else w32 (fp32.round rne n 1 m (-e))

/-- f32(n): the unsigned integer n in fp32 (R137). -/
def f32OfNat (n : Nat) : Word := BitVec.ofNat 32 (fp32.roundDy rne false ⟨n, 0⟩).1

end Sys2Proof.Machine
end

