-- ==== Sys2Proof/Machine/IntOps.lean ====
section
/-! DEFINITION. The lane functions of the CE operations that do not round: moves, integer arithmetic, logic, bit fields and
compares (R254 to R264). Each gives the 32-bit result, the flag and the AFLAGS bits of one active lane. -/

namespace Sys2Proof.Machine

/-- What one active lane of a stage computes: the result for p_k, the flag for f_k, the AFLAGS bits it sets. -/
structure LaneRes where
  val : Word
  flg : Bool
  fl : Flags
  deriving DecidableEq, Repr

/-- A result under the nonzero rule of R251, with no AFLAGS bit. -/
def nz (x : Word) : LaneRes := ⟨x, decide (x ≠ 0#32), fNone⟩

/-- A result under the nonzero rule that sets SAT when `sat` (R253). -/
def nzSat (r : Word × Bool) : LaneRes := ⟨r.1, decide (r.1 ≠ 0#32), flagIf r.2 fSAT⟩

/-- A compare: 1 or 0, and the same bit as the flag (R264). -/
def relRes (c : Bool) : LaneRes := ⟨if c then 1#32 else 0#32, c, fNone⟩

/-- sats(x, n): the exact integer clamped to n signed bits, and whether the clamp changed it (R253). -/
def satS (n : Nat) (x : Int) : Int × Bool :=
  let lo : Int := -(2 ^ (n - 1) : Nat)
  let hi : Int := (2 ^ (n - 1) : Nat) - 1
  if x < lo then (lo, true) else if hi < x then (hi, true) else (x, false)

/-- satu(x, n): the exact integer clamped to n unsigned bits (R253). -/
def satU (n : Nat) (x : Int) : Int × Bool :=
  let hi : Int := (2 ^ n : Nat) - 1
  if x < 0 then (0, true) else if hi < x then (hi, true) else (x, false)

/-- wrap(x), or the signed clamp when `sat` (R253, R255). -/
def wrapOrSatS (sat : Bool) (x : Int) : LaneRes :=
  if sat then let r := satS 32 x; nzSat (BitVec.ofInt 32 r.1, r.2) else nz (BitVec.ofInt 32 x)

/-- wrap(x), or the unsigned clamp when `sat` (R259). -/
def wrapOrSatU (sat : Bool) (x : Int) : LaneRes :=
  if sat then let r := satU 32 x; nzSat (BitVec.ofInt 32 r.1, r.2) else nz (BitVec.ofInt 32 x)

/-- MOVI's immediate: A, B and C hold its bits [17:12], [11:6] and [5:0] (R254). -/
def moviImm (a b c : BitVec 6) : Word := (a ++ b ++ c).signExtend 32

/-- MULH: bits [63:32] of the signed product (R255). -/
def mulhS (a b : Word) : Word := BitVec.ofInt 32 (a.toInt * b.toInt / 2 ^ 32)

/-- MULHU: bits [63:32] of the unsigned product (R255). -/
def mulhU (a b : Word) : Word := BitVec.ofNat 32 (a.toNat * b.toNat / 2 ^ 32)

/-- LEA: A + B × 2^C[2:0], with the carry out as the flag (R257). -/
def leaOp (a b c : Word) : LaneRes :=
  let x := a.toNat + b.toNat * 2 ^ (bits c 0 3).toNat
  ⟨BitVec.ofNat 32 x, decide (2 ^ 32 ≤ x), fNone⟩

/-- Field `i` of width `w` read as two's complement (R258, R259). -/
def fieldS (w : Nat) (x : Word) (i : Nat) : Int := signed w (x.toNat / 2 ^ (w * i))

/-- Field `i` of width `w` read unsigned (R258, R259). -/
def fieldU (w : Nat) (x : Word) (i : Nat) : Nat := x.toNat / 2 ^ (w * i) % 2 ^ w

/-- The first `n` fields of a packed operation of signed fields of width `w`, lowest first, each wrapped or clamped, with
whether a field saturated (R258). -/
def packedFields (w : Nat) (sat : Bool) (op : Int → Int → Int) (a b : Word) : Nat → Nat × Bool
  | 0 => (0, false)
  | n + 1 =>
    let r := packedFields w sat op a b n
    let x := op (fieldS w a n) (fieldS w b n)
    let c := if sat then satS w x else (x, false)
    (r.1 + (c.1 % (2 ^ w : Nat)).toNat * 2 ^ (w * n), r.2 || c.2)

/-- ADD2, SUB2 (w = 16) and ADD4, SUB4 (w = 8) (R258). -/
def packedOp (w : Nat) (sat : Bool) (op : Int → Int → Int) (a b : Word) : LaneRes :=
  let r := packedFields w sat op a b (32 / w)
  nzSat (BitVec.ofNat 32 r.1, r.2)

/-- The exact sum of the products of the first `n` fields, signed (R259). -/
def dotS (w : Nat) (a b : Word) : Nat → Int
  | 0 => 0
  | n + 1 => dotS w a b n + fieldS w a n * fieldS w b n

/-- The exact sum of the products of the first `n` fields, unsigned (R259). -/
def dotU (w : Nat) (a b : Word) : Nat → Int
  | 0 => 0
  | n + 1 => dotU w a b n + (fieldU w a n : Int) * (fieldU w b n : Int)

/-- SHL: a count of 32 or more gives 0 (R260). -/
def shlOp (a b : Word) : Word := if 32 ≤ b.toNat then 0#32 else BitVec.ofNat 32 (a.toNat * 2 ^ b.toNat)

/-- SHR: a count of 32 or more gives 0 (R260). -/
def shrOp (a b : Word) : Word := if 32 ≤ b.toNat then 0#32 else BitVec.ofNat 32 (a.toNat / 2 ^ b.toNat)

/-- SAR: a count of 32 or more fills with the sign (R260). -/
def sarOp (a b : Word) : Word :=
  if 32 ≤ b.toNat then (if a.toInt < 0 then 0xFFFFFFFF#32 else 0#32)
  else BitVec.ofInt 32 (a.toInt / (2 ^ b.toNat : Nat))

/-- ROL by B[4:0] (R260). -/
def rolOp (a b : Word) : Word := a.rotateLeft (bits b 0 5).toNat

/-- The number of leading zero bits among the low `n` bits (R261). -/
def clzFrom (x : Word) : Nat → Nat
  | 0 => 0
  | n + 1 => if bitAt x n then 0 else clzFrom x n + 1

/-- The number of bits set among the low `n` bits (R261). -/
def popFrom (x : Word) : Nat → Nat
  | 0 => 0
  | n + 1 => popFrom x n + (if bitAt x n then 1 else 0)

/-- BREV: bit i of the result is bit 31 − i of A (R261). -/
def brevNat (x : Word) : Nat → Nat
  | 0 => 0
  | n + 1 => brevNat x n + (if bitAt x (31 - n) then 2 ^ n else 0)

/-- BSWAP (R261). -/
def bswapOp (a : Word) : Word := bits a 0 8 ++ bits a 8 8 ++ bits a 16 8 ++ bits a 24 8

/-- The position and the effective length of the field that a specifier gives (R262). -/
def bfSpec (s : Word) : Nat × Nat :=
  let pos := (bits s 0 5).toNat
  let len := min (bits s 8 6).toNat 32
  (pos, min (pos + len) 32 - pos)

/-- BFX (R262). -/
def bfxOp (a b : Word) : Word :=
  let (pos, n) := bfSpec b
  BitVec.ofNat 32 (a.toNat / 2 ^ pos % 2 ^ n)

/-- BFXS (R262). -/
def bfxsOp (a b : Word) : Word :=
  let (pos, n) := bfSpec b
  if n = 0 then 0#32 else BitVec.ofInt 32 (signed n (a.toNat / 2 ^ pos))

/-- BFI (R262). -/
def bfiOp (a b c : Word) : Word :=
  let (pos, n) := bfSpec c
  let m := (2 ^ n - 1) * 2 ^ pos
  (a &&& ~~~(BitVec.ofNat 32 m)) ||| BitVec.ofNat 32 (b.toNat % 2 ^ n * 2 ^ pos)

/-- One result byte of PERMB from its selector byte (R263). -/
def permByte (a b : Word) (sel : BitVec 8) : BitVec 8 :=
  let src := (bits sel 0 3).toNat
  let v := if src < 4 then bits a (8 * src) 8 else bits b (8 * (src - 4)) 8
  let nib (n : BitVec 4) : BitVec 8 := if bitAt sel 5 && bitAt n 3 then 0xF#4 ++ n else 0#4 ++ n
  match (bits sel 3 2).toNat with
  | 0 => v
  | 1 => nib (bits v 0 4)
  | 2 => nib (bits v 4 4)
  | _ => 0#8

/-- PERMB (R263). -/
def permbOp (a b c : Word) : Word :=
  permByte a b (bits c 24 8) ++ permByte a b (bits c 16 8) ++ permByte a b (bits c 8 8) ++ permByte a b (bits c 0 8)

end Sys2Proof.Machine
end

