-- ==== Sys2Proof/Syntax.lean ====
section
/-! DEFINITION. The instruction syntax: one constructor per row of spec/opcode_table.json, in the table's order. A row is
one indivisible step of the part (95_what_each_step_holds.md): a CE stage operation (R224, R245), a memory-tile port
operation (R231, R246), an address-generator word (R330), an engine command (R243, R248), a router operator (R239, R247)
or an event of the distributors, the host, the links or the firmware. Each constructor carries where it acts and the
fields that the spec's encoding of it holds. The constructors of the steps that something outside the fabric starts (the
host, a peer, firmware, the boot chain) stand last and carry no fields: what the outside presents with such a step, the
data and offset of a register write for example, are the bytes of `State.input`. -/

namespace Sys2Proof

/-- A stage slot (R224) with the CE, the task and the slot index where it stands. -/
structure Stage where
  /-- site index of the CE (R15) -/
  site : BitVec 12
  /-- task of the CE, 0 to 7 (R27) -/
  task : BitVec 3
  /-- slot s0 to s5 (R222) -/
  slot : BitVec 3
  /-- operand selector A -/
  a : BitVec 6
  /-- operand selector B -/
  b : BitVec 6
  /-- operand selector C -/
  c : BitVec 6
  /-- OUT: 0 none, 1-4 vo0-vo3, 5 so0, 6 a0, 7 a1 -/
  out : BitVec 3
  /-- PRED: [3] inverts, [2:0] the stage whose flag enables, 7 all -/
  pred : BitVec 4
  /-- MOD: [1:0] rounding, [2] saturate, stochastic or bf16 -/
  mod : BitVec 3
  deriving DecidableEq, Repr

/-- An MT port: the MT's site and the port number (R231). -/
structure PortAt where
  site : BitVec 12
  port : BitVec 3
  deriving DecidableEq, Repr

/-- The fields of a port descriptor below its OP (R231). -/
structure PortDesc where
  lvl : BitVec 3
  hint : BitVec 3
  asrc : BitVec 2
  oparg : BitVec 48
  deriving DecidableEq, Repr

/-- An address generator: its MT's site and the sub-index (R1). -/
structure AgAt where
  site : BitVec 12
  sub : BitVec 1
  deriving DecidableEq, Repr

/-- A router operator slot (R71). -/
structure OpAt where
  site : BitVec 12
  slot : BitVec 2
  deriving DecidableEq, Repr

/-- The fields of an operator slot frame below its OP (R239). -/
structure OpCfg where
  nin : BitVec 4
  nout : BitVec 5
  outs : BitVec 128
  opt : BitVec 96
  deriving DecidableEq, Repr

/-- An engine: a site index below 0x1000, 0x1000 the hypothesis controller, 0x1001 the Apsis engine (R294). -/
abbrev EngId := BitVec 13

/-- The fields of an engine command word below its opcode (R339). -/
structure Cmd where
  lvl : BitVec 3
  sj : BitVec 1
  ssite : BitVec 12
  soff : BitVec 16
  ops : BitVec 88
  deriving DecidableEq, Repr

/-- The steps of the part, one constructor per row of the opcode table. -/
inductive Instr where
  /-- DISPATCH (R36): Once a free region meets a pool node's demand, its residency gate is met and an ungiven group index remains, the distributors open an instance and map or translate the image for it. -/
  | dispatch (node : BitVec 32) (dbx : BitVec 8) (dby : BitVec 8) (onto : BitVec 32)
  /-- PROMOTION (R39): A node that has waited 2 ms at its priority rises by one level, to at most 6. -/
  | promotion (node : BitVec 32)
  /-- RESIDENCY_TIMEOUT (R386): A node held 100 ms by the residency gate, with an unchanged fraction for 10 ms, is refused with LS_RESIDENCY_TIMEOUT. -/
  | residencyTimeout (node : BitVec 32)
  /-- FRAME_WRITE (R220): A configuration frame arrives on VC0, and its element's receiver checks it and either stores or refuses it. -/
  | frameWrite (inst : BitVec 32)
  /-- BANK_FLIP (R52): An element flips to its shadow bank after its last old firing and once SWITCH heads all its inputs, consumes those SWITCH tokens, enqueues SWITCH on its outputs and takes up the start state. -/
  | bankFlip (site : BitVec 12) (sub : BitVec 2)
  /-- LINK_TRANSFER (R70): A router output arbitrates in age-ordered round-robin among the heads whose next buffer has a free entry, and one token crosses the link. -/
  | linkTransfer (site : BitVec 12) (out : BitVec 4)
  /-- TASK_ACTIVATION (R45): A word heading a task's trigger channel begins an activation at the task's current bundle address. -/
  | taskActivation (site : BitVec 12) (task : BitVec 3)
  /-- BUNDLE_FIRE (R288): A CE fires one runnable bundle, chosen in round-robin: it reads operands, computes its stages, dequeues DQ, enqueues EQ, steps its counters and chooses the next bundle. -/
  | bundleFire (site : BitVec 12)
  /-- NOP (R254): Stage no-operation. -/
  | nop (st : Stage)
  /-- MOV (R254): Copies A to the stage register. -/
  | mov (st : Stage)
  /-- MOVI (R254): Writes a sign-extended 18-bit immediate. -/
  | movi (st : Stage)
  /-- SEL (R254): Selects A if C is nonzero, else B. -/
  | sel (st : Stage)
  /-- ADD (R255): Wrapping 32-bit add. -/
  | add (st : Stage)
  /-- SUB (R255): Wrapping 32-bit subtract. -/
  | sub (st : Stage)
  /-- NEG (R255): Negation, wrapping or saturating. -/
  | neg (st : Stage)
  /-- ABS (R255): Absolute value, wrapping or saturating. -/
  | abs (st : Stage)
  /-- MIN (R255): Signed minimum. -/
  | min (st : Stage)
  /-- MAX (R255): Signed maximum. -/
  | max (st : Stage)
  /-- MINU (R255): Unsigned minimum. -/
  | minu (st : Stage)
  /-- MAXU (R255): Unsigned maximum. -/
  | maxu (st : Stage)
  /-- MUL (R255): Low 32 bits of the product, or the saturated product. -/
  | mul (st : Stage)
  /-- MULH (R255): High 32 bits of the signed product. -/
  | mulh (st : Stage)
  /-- MULHU (R255): High 32 bits of the unsigned product. -/
  | mulhu (st : Stage)
  /-- MAD (R255): Multiply-add, wrapping or saturating. -/
  | mad (st : Stage)
  /-- ADDS (R256): Signed saturating add. -/
  | adds (st : Stage)
  /-- SUBS (R256): Signed saturating subtract. -/
  | subs (st : Stage)
  /-- ADDUS (R256): Unsigned saturating add. -/
  | addus (st : Stage)
  /-- SUBUS (R256): Unsigned saturating subtract. -/
  | subus (st : Stage)
  /-- LEA (R257): Adds B shifted by C[2:0] to A, with the carry out as the flag. -/
  | lea (st : Stage)
  /-- ADD2 (R258): Packed 2×16-bit add. -/
  | add2 (st : Stage)
  /-- SUB2 (R258): Packed 2×16-bit subtract. -/
  | sub2 (st : Stage)
  /-- ADD4 (R258): Packed 4×8-bit add. -/
  | add4 (st : Stage)
  /-- SUB4 (R258): Packed 4×8-bit subtract. -/
  | sub4 (st : Stage)
  /-- DOT4 (R259): Signed byte dot product plus C. -/
  | dot4 (st : Stage)
  /-- DOT4U (R259): Unsigned byte dot product plus C. -/
  | dot4u (st : Stage)
  /-- DOT8 (R259): Signed nibble dot product plus C. -/
  | dot8 (st : Stage)
  /-- AND (R260): Bitwise AND. -/
  | and (st : Stage)
  /-- OR (R260): Bitwise OR. -/
  | or (st : Stage)
  /-- XOR (R260): Bitwise XOR. -/
  | xor (st : Stage)
  /-- ANDN (R260): A AND NOT B. -/
  | andn (st : Stage)
  /-- SHL (R260): Logical shift left. -/
  | shl (st : Stage)
  /-- SHR (R260): Logical shift right. -/
  | shr (st : Stage)
  /-- SAR (R260): Arithmetic shift right. -/
  | sar (st : Stage)
  /-- ROL (R260): Rotate left by B[4:0]. -/
  | rol (st : Stage)
  /-- CLZ (R261): Counts leading zero bits. -/
  | clz (st : Stage)
  /-- POPC (R261): Counts set bits. -/
  | popc (st : Stage)
  /-- BREV (R261): Reverses the bits. -/
  | brev (st : Stage)
  /-- BFX (R262): Extracts a bit field, zero-extended. -/
  | bfx (st : Stage)
  /-- BFXS (R262): Extracts a bit field, sign-extended. -/
  | bfxs (st : Stage)
  /-- BFI (R262): Inserts a bit field. -/
  | bfi (st : Stage)
  /-- PERMB (R263): Builds each result byte from selected source bytes or nibbles. -/
  | permb (st : Stage)
  /-- BSWAP (R261): Reverses the byte order. -/
  | bswap (st : Stage)
  /-- CEQ (R264): Compares for equality. -/
  | ceq (st : Stage)
  /-- CNE (R264): Compares for inequality. -/
  | cne (st : Stage)
  /-- CLT (R264): Signed less-than. -/
  | clt (st : Stage)
  /-- CLE (R264): Signed less-or-equal. -/
  | cle (st : Stage)
  /-- CLTU (R264): Unsigned less-than. -/
  | cltu (st : Stage)
  /-- CLEU (R264): Unsigned less-or-equal. -/
  | cleu (st : Stage)
  /-- CTST (R264): Tests A AND B for nonzero. -/
  | ctst (st : Stage)
  /-- FADD (R267): fp32 add. -/
  | fadd (st : Stage)
  /-- FSUB (R267): fp32 subtract. -/
  | fsub (st : Stage)
  /-- FMUL (R267): fp32 multiply. -/
  | fmul (st : Stage)
  /-- FMA (R267): Fused multiply-add. -/
  | fma (st : Stage)
  /-- FMS (R267): Fused multiply-subtract. -/
  | fms (st : Stage)
  /-- FNMA (R267): Negated fused multiply-add. -/
  | fnma (st : Stage)
  /-- FMIN (R268): fp32 minimum. -/
  | fmin (st : Stage)
  /-- FMAX (R268): fp32 maximum. -/
  | fmax (st : Stage)
  /-- FABS (R269): Clears the sign bit. -/
  | fabs (st : Stage)
  /-- FNEG (R269): Inverts the sign bit. -/
  | fneg (st : Stage)
  /-- FCPS (R269): Copies the sign of B onto A. -/
  | fcps (st : Stage)
  /-- FCEQ (R270): Float equality compare. -/
  | fceq (st : Stage)
  /-- FCLT (R270): Float less-than compare. -/
  | fclt (st : Stage)
  /-- FCLE (R270): Float less-or-equal compare. -/
  | fcle (st : Stage)
  /-- FCUN (R270): Unordered compare. -/
  | fcun (st : Stage)
  /-- FCLASS (R270): Writes a one-hot class mask. -/
  | fclass (st : Stage)
  /-- FSCALE (R267): Multiplies A by 2^B. -/
  | fscale (st : Stage)
  /-- FRCP (R271): Reciprocal under R135. -/
  | frcp (st : Stage)
  /-- FRSQ (R271): Reciprocal square root under R136. -/
  | frsq (st : Stage)
  /-- FEXP2 (R271): Computes 2^x under R133. -/
  | fexp2 (st : Stage)
  /-- FLOG2 (R271): Computes log2 under R134. -/
  | flog2 (st : Stage)
  /-- FRND (R272): Rounds to an integral value. -/
  | frnd (st : Stage)
  /-- F2I (R272): Converts fp32 to int32, saturating. -/
  | f2i (st : Stage)
  /-- F2U (R272): Converts fp32 to uint32, saturating. -/
  | f2u (st : Stage)
  /-- I2F (R272): Converts int32 to fp32. -/
  | i2f (st : Stage)
  /-- U2F (R272): Converts uint32 to fp32. -/
  | u2f (st : Stage)
  /-- HADD2 (R273): Packed half add. -/
  | hadd2 (st : Stage)
  /-- HMUL2 (R273): Packed half multiply. -/
  | hmul2 (st : Stage)
  /-- HFMA2 (R273): Packed half fused multiply-add. -/
  | hfma2 (st : Stage)
  /-- HMIN2 (R273): Packed half minimum. -/
  | hmin2 (st : Stage)
  /-- HMAX2 (R273): Packed half maximum. -/
  | hmax2 (st : Stage)
  /-- CVTH (R274): Rounds two fp32 values into one packed half pair. -/
  | cvth (st : Stage)
  /-- CVTLO (R274): Widens element 0 to fp32. -/
  | cvtlo (st : Stage)
  /-- CVTHI (R274): Widens element 1 to fp32. -/
  | cvthi (st : Stage)
  /-- NQ8 (R276): Quantises A to an 8-bit code and shifts it in from the top of C. -/
  | nq8 (st : Stage)
  /-- NQ4 (R276): Quantises A to a 4-bit code and shifts it in from the top of C. -/
  | nq4 (st : Stage)
  /-- NDQ8 (R277): Dequantises one byte element. -/
  | ndq8 (st : Stage)
  /-- NDQ4 (R277): Dequantises one nibble element. -/
  | ndq4 (st : Stage)
  /-- NDOT4 (R278): Narrow 4-pair dot product plus C, rounded once. -/
  | ndot4 (st : Stage)
  /-- NDOT8 (R278): Narrow 8-pair dot product plus C, rounded once. -/
  | ndot8 (st : Stage)
  /-- NSCL (R279): Chooses a scale descriptor from |A| and a format. -/
  | nscl (st : Stage)
  /-- NAPS (R279): Applies a scale factor to A. -/
  | naps (st : Stage)
  /-- NBLK (R280): Reads a head token's lane mask and descriptor. -/
  | nblk (st : Stage)
  /-- NSETD (R280): Sets the descriptor of an outgoing vector token. -/
  | nsetd (st : Stage)
  /-- SHUF (R282): Per-lane shuffle. -/
  | shuf (st : Stage)
  /-- LROT (R282): Lane rotate. -/
  | lrot (st : Stage)
  /-- BCAST (R282): Broadcasts one lane. -/
  | bcast (st : Stage)
  /-- XBF (R283): Walsh–Hadamard butterfly stage. -/
  | xbf (st : Stage)
  /-- RSUM (R284): fp32 tree sum over the lanes. -/
  | rsum (st : Stage)
  /-- RMAX (R284): Maximum over the active lanes. -/
  | rmax (st : Stage)
  /-- RMIN (R284): Minimum over the active lanes. -/
  | rmin (st : Stage)
  /-- RSUMI (R284): Integer sum over the active lanes. -/
  | rsumi (st : Stage)
  /-- SCANI (R285): Integer inclusive prefix sum. -/
  | scani (st : Stage)
  /-- FSCAN (R285): fp32 inclusive prefix sum in tree order. -/
  | fscan (st : Stage)
  /-- LCOMP (R286): Packs the active lanes into the lowest lanes. -/
  | lcomp (st : Stage)
  /-- PACKB (R287): Gathers one byte from each lane into four lanes. -/
  | packb (st : Stage)
  /-- TRAP (R304): Completes its firing, stops the task and sends a fault record and a FAULT token with code 0x80 | n. -/
  | trap (st : Stage)
  /-- FENCE (R300): Performs a region-wide release and acquire at a scope; the task waits until it completes. -/
  | fence (st : Stage)
  /-- FENCE_COMPLETE (R105): A pending FENCE completes, and its task may fire again. -/
  | fenceComplete (site : BitVec 12) (task : BitVec 3)
  /-- CMD (R294): Queues one 128-bit command word for an engine, the hypothesis controller or the Apsis engine. -/
  | cmd (st : Stage)
  /-- FORK (R294): Starts the programs of the engines that the mask selects in the fork table. -/
  | fork (st : Stage)
  /-- RDV (R296): Consumes a control token from an end and returns its code and argument. -/
  | rdv (st : Stage)
  /-- WAITC (R295): Fires when a completion counter reaches n, and subtracts n. -/
  | waitc (st : Stage)
  /-- GROUPINC (R301): Adds to the node's group count, saturating, and returns the old count. -/
  | groupinc (st : Stage)
  /-- SETHYP (R299): Sets the task's current hypothesis, or sets BADHYP. -/
  | sethyp (st : Stage)
  /-- BIND (R298): Binds a trigger end and an orphan entry to a task, or sets BADBIND. -/
  | bind (st : Stage)
  /-- UNBIND (R298): Removes a task's trigger. -/
  | unbind (st : Stage)
  /-- SIGNAL (R297): Enqueues an EOT, EOF, EOS or RDV control token on an output. -/
  | signal (st : Stage)
  /-- TIME (R304): Samples the package cycle counter. -/
  | time (st : Stage)
  /-- RDSYS (R302): Reads a system register. -/
  | rdsys (st : Stage)
  /-- WRSYS (R302): Writes a handler register in the Charon corner. -/
  | wrsys (st : Stage)
  /-- BRK (R304): Halts the CE after its firing when a debugger is attached. -/
  | brk (st : Stage)
  /-- ORPHAN_DIVERSION (R365): An orphaned task, at the first cycle its bundle could fire, is diverted to its orphan entry under the nearest surviving ancestor, or becomes Done. -/
  | orphanDiversion (site : BitVec 12) (task : BitVec 3)
  /-- STEER (R307): The operator sends a data token to the output that the predicate selects. -/
  | steer (loc : OpAt) (cfg : OpCfg)
  /-- MERGE (R307): The operator takes a predicate and forwards one token from the selected input. -/
  | merge (loc : OpAt) (cfg : OpCfg)
  /-- CARRY (R308): The operator forwards a feedback token, or emits INIT in place of an EOS when RST is set. -/
  | carry (loc : OpAt) (cfg : OpCfg)
  /-- DUP (R308): The operator copies a token to all of its outputs in one firing. -/
  | dup (loc : OpAt) (cfg : OpCfg)
  /-- WIDEN (R309): The operator begins a scope release for the writes of the sender's region. -/
  | widen (loc : OpAt) (cfg : OpCfg)
  /-- WIDEN_RELEASE_COMPLETE (R309): A WIDEN release completes, and the tokens it covers emerge one cycle later. -/
  | widenReleaseComplete (site : BitVec 12) (slot : BitVec 2)
  /-- REPLAY (R310): In lap one the operator forwards and records a token, and on EOS it begins lap two. -/
  | replay (loc : OpAt) (cfg : OpCfg)
  /-- REPLAY_LAP_TWO (R310): The operator re-emits one recorded token per cycle, then EOS; unusable records go out as poison. -/
  | replayLapTwo (site : BitVec 12) (slot : BitVec 2)
  /-- RPART (R311): The operator routes a token by an address bit field. -/
  | rpart (loc : OpAt) (cfg : OpCfg)
  /-- DROP (R308): The operator consumes and discards a token. -/
  | drop (loc : OpAt) (cfg : OpCfg)
  /-- FREED_NOTICE (R59): An input end sends a merged FREED notice for the entries it has freed, once its notice channel has room. -/
  | freedNotice (site : BitVec 12) (endp : BitVec 4)
  /-- FREED_CREDIT (R334): A FREED token reaching an AG ctl input or a CP freed input adds its argument to CR. -/
  | freedCredit (site : BitVec 12) (sub : BitVec 2)
  /-- LD (R318): A port loads one global block or word. -/
  | ld (loc : PortAt) (d : PortDesc)
  /-- LDRO (R318): A port loads through the read-only path. -/
  | ldro (loc : PortAt) (d : PortDesc)
  /-- ST (R319): A port stores to global memory. -/
  | st (loc : PortAt) (d : PortDesc)
  /-- STM (R319): A port stores the bytes a mask selects. -/
  | stm (loc : PortAt) (d : PortDesc)
  /-- SPLD (R318): A port loads from scratchpad. -/
  | spld (loc : PortAt) (d : PortDesc)
  /-- SPST (R319): A port stores to scratchpad. -/
  | spst (loc : PortAt) (d : PortDesc)
  /-- SPADD (R320): A port adds into scratchpad in one read-modify-write. -/
  | spadd (loc : PortAt) (d : PortDesc)
  /-- ATADD (R321): Atomic add. -/
  | atadd (loc : PortAt) (d : PortDesc)
  /-- ATFADD (R321): Atomic fp32 add. -/
  | atfadd (loc : PortAt) (d : PortDesc)
  /-- ATMIN (R321): Atomic minimum. -/
  | atmin (loc : PortAt) (d : PortDesc)
  /-- ATMAX (R321): Atomic maximum. -/
  | atmax (loc : PortAt) (d : PortDesc)
  /-- ATAND (R321): Atomic AND. -/
  | atand (loc : PortAt) (d : PortDesc)
  /-- ATOR (R321): Atomic OR. -/
  | ator (loc : PortAt) (d : PortDesc)
  /-- ATXOR (R321): Atomic XOR. -/
  | atxor (loc : PortAt) (d : PortDesc)
  /-- ATXCHG (R321): Atomic exchange. -/
  | atxchg (loc : PortAt) (d : PortDesc)
  /-- ATCAS (R321): Atomic compare-and-swap. -/
  | atcas (loc : PortAt) (d : PortDesc)
  /-- GATH (R323): A port gathers a row of blocks through its bank sort and replies in request order. -/
  | gath (loc : PortAt) (d : PortDesc)
  /-- SCAT (R323): A port scatters data tokens to a row of blocks. -/
  | scat (loc : PortAt) (d : PortDesc)
  /-- SCATADD (R323): A port adds data tokens into a row of blocks. -/
  | scatadd (loc : PortAt) (d : PortDesc)
  /-- SYNCSET (R324): A port arms a sync word's TARGET and clears COUNT, once no waiter slot waits on the word. -/
  | syncset (loc : PortAt) (d : PortDesc)
  /-- SYNCW (R325): A port arms a wait on a sync word with a stated value. -/
  | syncw (loc : PortAt) (d : PortDesc)
  /-- PREF (R326): A port prefetches lines into the stash. -/
  | pref (loc : PortAt) (d : PortDesc)
  /-- STFL (R326): A port writes back dirty untagged lines. -/
  | stfl (loc : PortAt) (d : PortDesc)
  /-- STINV (R326): A port writes back and then invalidates untagged lines. -/
  | stinv (loc : PortAt) (d : PortDesc)
  /-- REPLY_SEND (R97): A reply leaves the port's reply buffer onto its reply channel under back-pressure, and its entry is freed. -/
  | replySend (site : BitVec 12) (port : BitVec 3)
  /-- PORT_CONTROL_TOKEN (R327): A control token heading a port input is dequeued and passed on the reply channel after earlier replies, or discarded. -/
  | portControlToken (site : BitVec 12) (port : BitVec 3)
  /-- SYNC_ADD (R85): An MT's sync unit applies one addition to a sync word's COUNT, advancing GEN when the target is reached. -/
  | syncAdd (site : BitVec 12)
  /-- ALOOP (R331): Opens a loop level. -/
  | aloop (loc : AgAt) (lvl : BitVec 3) (count : BitVec 25) (stride : BitVec 30)
  /-- AEND (R331): Steps and closes a loop level. -/
  | aend (loc : AgAt) (lvl : BitVec 3)
  /-- ABASE (R331): Sets the base address. -/
  | abase (loc : AgAt) (base : BitVec 56)
  /-- AOFF (R331): Adds a signed delta to the base. -/
  | aoff (loc : AgAt) (delta : BitVec 48)
  /-- AIDX (R333): Takes an index from ctl, or forwards a control token and exits. -/
  | aidx (loc : AgAt) (exit : BitVec 6) (isgn : BitVec 1) (istr : BitVec 32)
  /-- AGRP (R333): Requests the next group index from the distributor and writes it to a task's group register. -/
  | agrp (loc : AgAt) (exit : BitVec 6) (tv : BitVec 1) (task : BitVec 3) (tsite : BitVec 12) (gstr : BitVec 36)
  /-- AGRP_END_OF_STREAM (R43): When every requesting AG is held and every instance is otherwise quiescent, all held AGRP requests receive end-of-stream. -/
  | agrpEndOfStream (node : BitVec 32)
  /-- AEMIT (R332): Forms and issues one address with its mask, once it has a credit, a free destination entry and a translation. -/
  | aemit (loc : AgAt) (disp : BitVec 48)
  /-- ACRED (R331): Sets the credit enable and adds credits. -/
  | acred (loc : AgAt) (en : BitVec 1) (cadd : BitVec 16)
  /-- AMASK (R331): Sets the emission masks. -/
  | amask (loc : AgAt) (lvl : BitVec 3) (tmask : BitVec 16) (mask : BitVec 16)
  /-- AHALT (R331): Stops the program, optionally emitting EOS. -/
  | ahalt (loc : AgAt) (eos : BitVec 1)
  /-- JOB_START (R109): An engine-class scheduler starts a job once every earlier overlapping job or node has completed, in weighted round-robin. -/
  | jobStart (eng : BitVec 13)
  /-- ENGINE_CMD_WORD (R433): A data token heading an engine's cmd input becomes a job of its own; a control token there is consumed. -/
  | engineCmdWord (site : BitVec 12)
  /-- JOB_END (R338): A job ends: it releases its writes, makes its final sync addition, sends RDV and adds to its completion counter. -/
  | jobEnd (eng : BitVec 13)
  /-- MX_COMMAND_START (R343): In a cycle when the array is free, an MX starts the earliest ready command. -/
  | mxCommandStart (site : BitVec 12)
  /-- MXLDB (R344): Loads blocks into the weight buffer. -/
  | mxldb (eng : EngId) (cmd : Cmd)
  /-- MXMUL (R346): Accumulates A × B into a slot once its version matches. -/
  | mxmul (eng : EngId) (cmd : Cmd)
  /-- MXMULO (R346): Accumulates A × B in issue order. -/
  | mxmulo (eng : EngId) (cmd : Cmd)
  /-- MXDRN (R347): Drains a slot onto the out channel. -/
  | mxdrn (eng : EngId) (cmd : Cmd)
  /-- MXZERO (R348): Zeroes a slot. -/
  | mxzero (eng : EngId) (cmd : Cmd)
  /-- MXVER (R348): Sets a slot's version. -/
  | mxver (eng : EngId) (cmd : Cmd)
  /-- CPCOPY (R350): Copies rows between memory and channels. -/
  | cpcopy (eng : EngId) (cmd : Cmd)
  /-- CPFILL (R350): Fills the destination with a pattern and a descriptor. -/
  | cpfill (eng : EngId) (cmd : Cmd)
  /-- CPCHAIN (R352): Copies, then delivers a follow-on MX command. -/
  | cpchain (eng : EngId) (cmd : Cmd)
  /-- CPPUT (R353): Copies into a peer's scratchpad. -/
  | cpput (eng : EngId) (cmd : Cmd)
  /-- CPGET (R353): Copies from a peer's scratchpad. -/
  | cpget (eng : EngId) (cmd : Cmd)
  /-- CPRED (R355): Reduces the buffers of all ranks in the canonical tree. -/
  | cpred (eng : EngId) (cmd : Cmd)
  /-- CPBAR (R356): Cross-rank barrier with a release and an acquire. -/
  | cpbar (eng : EngId) (cmd : Cmd)
  /-- TNEW (R139): Initialises a tree and its free list. -/
  | tnew (eng : EngId) (cmd : Cmd)
  /-- TAPP (R142): Appends one entry to a tree. -/
  | tapp (eng : EngId) (cmd : Cmd)
  /-- TSEAL (R358): Seals every open node of the rightmost path. -/
  | tseal (eng : EngId) (cmd : Cmd)
  /-- TATT (R147): Computes attention over the tree and writes an output record. -/
  | tatt (eng : EngId) (cmd : Cmd)
  /-- TFORK (R144): Forks a tree at a position. -/
  | tfork (eng : EngId) (cmd : Cmd)
  /-- TEVICT (R145): Evicts the entries of a position range. -/
  | tevict (eng : EngId) (cmd : Cmd)
  /-- TFREE (R146): Drops the tree's root reference. -/
  | tfree (eng : EngId) (cmd : Cmd)
  /-- TSTAT (R358): Reports the tree's state. -/
  | tstat (eng : EngId) (cmd : Cmd)
  /-- HFAM (R360): Writes a hash-family register and binds the set slot. -/
  | hfam (eng : EngId) (cmd : Cmd)
  /-- HINS (R157): Inserts row ids. -/
  | hins (eng : EngId) (cmd : Cmd)
  /-- HDEL (R157): Deletes row ids. -/
  | hdel (eng : EngId) (cmd : Cmd)
  /-- HPROBE (R158): Hashes an input and emits the matching row ids. -/
  | hprobe (eng : EngId) (cmd : Cmd)
  /-- HREH (R160): Migrates rows to the new version. -/
  | hreh (eng : EngId) (cmd : Cmd)
  /-- HSTAT (R360): Reports the set's state. -/
  | hstat (eng : EngId) (cmd : Cmd)
  /-- HYPNEW (R161): Creates a hypothesis id. -/
  | hypnew (eng : EngId) (cmd : Cmd)
  /-- CONFIRM (R163): HYPRES confirm: retags h's data to its parent on all dies. -/
  | confirm (eng : EngId) (cmd : Cmd)
  /-- REFUTE (R163): HYPRES refute: invalidates h and its descendants, orphans their tasks and sets refuted bits. -/
  | refute (eng : EngId) (cmd : Cmd)
  /-- HYPQRY (R361): Writes the context's hypothesis table. -/
  | hypqry (eng : EngId) (cmd : Cmd)
  /-- TIERHINT (R362): Adds a range to the tenant's recorded set. -/
  | tierhint (eng : EngId) (cmd : Cmd)
  /-- TIERPIN (R362): Pins or unpins a range at T1. -/
  | tierpin (eng : EngId) (cmd : Cmd)
  /-- OVERLAY_ENLARGE (R408): A control core doubles a context's overlay, or the controller refutes h at the limit. -/
  | overlayEnlarge (ctx : BitVec 8)
  /-- TENANT_SWITCH (R89): The Apsis engine writes back and moves the outgoing tenant's data and brings in the incoming set. -/
  | tenantSwitch (outgoing : BitVec 16) (incoming : BitVec 16)
  /-- PAGE_MOVE_COMPLETE (R89): A page move ends: MV clears and the entry names the new location, or the move fails under R412. -/
  | pageMoveComplete (ok : BitVec 1)
  /-- DETECTION_WAVE (R75): A detection wave ends, and two clean waves report the region quiescent. -/
  | detectionWave (inst : BitVec 32)
  /-- NODE_COMPLETE (R51): A completed node has its writes released, its completion record and sync word written, its notice sent, its releases sent and its regions freed. -/
  | nodeComplete (node : BitVec 32)
  /-- BUDGET_EXHAUSTED (R383): The cycle count reaches a nonzero BUDGET and the node is aborted. -/
  | budgetExhausted (node : BitVec 32)
  /-- WATCHDOG_FIRE (R391): The watchdog count reaches N and the node is aborted with ERR.WATCHDOG. -/
  | watchdogFire (inst : BitVec 32)
  /-- SLICE_EXPIRY (R171): An instance that has run SLICE µs while another tenant's node waits is pre-empted. -/
  | sliceExpiry (inst : BitVec 32)
  /-- PREEMPT (R172): The distributor reserves T1 space and injects MARK at every source of the chosen instance. -/
  | preempt (inst : BitVec 32)
  /-- MARK (R173): An element or operator that MARK heads on every non-back-edge input saves its state and forwards MARK. -/
  | mark (site : BitVec 12) (sub : BitVec 3)
  /-- MARKER_PHASE_END (R174): When every element has saved and every request has completed, the save's SRAM part moves to T1. -/
  | markerPhaseEnd (inst : BitVec 32)
  /-- FREEZE (R175): At MARKLIM, or at a limit of 0, the region's clocks are gated and its state is scanned out. -/
  | freeze (inst : BitVec 32)
  /-- RESTORE (R176): A saved instance is restored: its SRAM moves back, its frames and state are rewritten and START is sent. -/
  | restore (inst : BitVec 32) (dbx : BitVec 8) (dby : BitVec 8)
  /-- OWNER_CHANGE_ZEROING (R179): An element is zeroed and read back before a new owner, and withdrawn if the read-back fails. -/
  | ownerChangeZeroing (site : BitVec 12) (sub : BitVec 2) (ok : BitVec 1)
  /-- HEARTBEAT (R50): Distributors exchange heartbeats every 10 µs. -/
  | heartbeat (die : BitVec 2)
  /-- DIE_LOST (R394): A heartbeat missing for 30 µs declares the die lost, and the hub fences it. -/
  | dieLost (die : BitVec 2)
  /-- FAULT_RECORD (R371): A fault record takes the next ring slot and sequence number in the corner MT, and waits while the ring is full. -/
  | faultRecord (die : BitVec 2)
  /-- FAULT (R370): A FAULT token reaches the Charon handler, which acts under R375. -/
  | fault (die : BitVec 2)
  /-- FPOP (R374): A handler write frees the ring slot at FHEAD. -/
  | fpop (die : BitVec 2)
  /-- REPAIR_TOKEN (R376): A stopped element accepts a matching REPAIR and retries, zeroes, poisons or aborts, or the token is discarded. -/
  | repairToken (die : BitVec 2)
  /-- KERNEL_BUDGET (R422): A logit kernel overruns its budget on a row, and the row aborts with SAMPLE_ABORT. -/
  | kernelBudget (site : BitVec 12) (task : BitVec 3)
  /-- REMOTE_REQUEST_ISSUE (R367): A remote request issues on VC3 once it holds a slot and reserved reply space, or fails at once if no reservation exists. -/
  | remoteRequestIssue (eng : BitVec 13) (port : BitVec 3)
  /-- MEMORY_REPLY (R79): The read or write-back of a local module or host-memory access completes at its tier, and its data or acknowledgement lands in the port's reserved reply space, lowering the in-flight count. -/
  | memoryReply (site : BitVec 12) (port : BitVec 3)
  /-- SRAM_SWAP_COMPLETE (R177): The SRAM part of a save or restore finishes moving between T0 and T1; the save then completes and frees its elements, or the restore goes on to rewrite frames and send START. -/
  | sramSwapComplete (inst : BitVec 32)
  /-- PACKAGE_RESET (R25): A package reset runs the verified boot chain from the hub boot ROM through to opening the PF, and the master is elected as die 0. -/
  | packageReset
  /-- POWER_LOSS (R428): Power is lost, possibly during a lifetime-record write, and the other record slot stays current. -/
  | powerLoss
  /-- LAUNCH (R183): A 256-byte launch record, or its second 128-byte half, is written to a function's LAUNCH window and committed whole into the submission queue, taking one credit; a malformed write sets BADW. Input: fn 10 bits at byte 0, off 16 bits at byte 2, len 16 bits at byte 4, data 2048 bits at byte 6. -/
  | launch
  /-- RECORD_ACCEPT (R28): The loader accepts or refuses a submitted record: it checks fields, levels, contexts, digest and release holds, reads the footprint list, places the node in the acceptance order, applies held releases and returns the credit. -/
  | recordAccept
  /-- PLACEMENT_HOLD (R38): After the head node has gone unplaced for 1 ms, the distributors stop dispatching nodes of equal or lower priority onto the element kinds it lacks. -/
  | placementHold
  /-- PAGE_WALK (R94): A walker walks the four-level tables for a translation miss, setting A and D. Input: die 2 bits at byte 0, ats 1 bits at byte 1, idx 8 bits at byte 2. -/
  | pageWalk
  /-- ATS_TIMEOUT (R401): An ATS request without a completion within the timeout fails as TRANS_NP. Input: die 2 bits at byte 0. -/
  | atsTimeout
  /-- ECC_ERROR (R403): A soft error is corrected and counted, or an uncorrectable one poisons its block. Input: space 2 bits at byte 0, addr 64 bits at byte 1, unc 1 bits at byte 9. -/
  | eccError
  /-- COLLECTIVE_MESSAGE (R355): A rank's message for a collective arrives and is taken when the receiving job reaches it. Input: tenant 16 bits at byte 0, coll 8 bits at byte 2, src 12 bits at byte 3, dst 12 bits at byte 5, nrank 12 bits at byte 7, op 2 bits at byte 9, phase 1 bits at byte 10, len 32 bits at byte 11. -/
  | collectiveMessage
  /-- REPAIR (R374): A handler write sends a REPAIR token on VC1 to the named element. Input: die 2 bits at byte 0, arg 24 bits at byte 1. -/
  | repair
  /-- ESCAL (R378): A handler write copies a record to a control core, which settles it or posts it to the function's fault ring. Input: die 2 bits at byte 0, idx 8 bits at byte 1. -/
  | escal
  /-- WATCH (R374): A handler write sets a field of a watch entry. Input: die 2 bits at byte 0, entry 2 bits at byte 1, fld 2 bits at byte 2, val 32 bits at byte 3. -/
  | watch
  /-- RESP_POLL (R380): A control core polls RESP every 1 µs, makes its check walk and forwards or reposts the answer. Input: die 2 bits at byte 0, core 2 bits at byte 1. -/
  | respPoll
  /-- GENERATION_ITERATION (R167): The sequencer firmware submits an iteration's records, waits, reads the tokens, appends them and ends finished requests. -/
  | generationIteration
  /-- LSTAT_CLEAR (R184): A write of 1 clears the sticky REJ, DROP and BADW bits of LSTAT. Input: fn 10 bits at byte 0, val 64 bits at byte 2. -/
  | lstatClear
  /-- INVAL (R185): A write starts a translation invalidation for a range and sets BUSY, or sets LOST while BUSY. Input: fn 10 bits at byte 0, val 64 bits at byte 2. -/
  | inval
  /-- INVALIDATION_COMPLETE (R96): All caches have dropped the matching entries and old accesses have completed, and BUSY clears. Input: fn 10 bits at byte 0. -/
  | invalidationComplete
  /-- INVSTAT_CLEAR (R182): A write of 1 clears INVSTAT.LOST. Input: fn 10 bits at byte 0, val 64 bits at byte 2. -/
  | invstatClear
  /-- CQTAIL_CLEAR (R188): A write of 1 clears CQTAIL.OVF. Input: fn 10 bits at byte 0, val 64 bits at byte 2. -/
  | cqtailClear
  /-- POLICY (R169): The PF writes a VF's policy block, which applies to later work or is discarded with PFERR.LOCKED. Input: vf 10 bits at byte 0, word 2 bits at byte 2, val 64 bits at byte 3. -/
  | policy
  /-- PFERR_CLEAR (R182): A write of 1 clears PFERR.LOCKED. Input: val 64 bits at byte 0. -/
  | pferrClear
  /-- REGISTER_WRITE (R182): A write to a window register that has no behaviour of its own, such as CQBASE, CQCTL, CQHEAD or FWARG, or to a reserved offset. Input: fn 10 bits at byte 0, off 16 bits at byte 2, len 16 bits at byte 4, val 64 bits at byte 6. -/
  | registerWrite
  /-- FAULTRING (R186): Firmware command: sets or removes a function's fault ring. Input: fn 16 bits at byte 0. -/
  | faultring
  /-- PASID (R186): Firmware command: sets a VF's PASID. Input: fn 16 bits at byte 0. -/
  | pasid
  /-- WATCHDOG (R186): Firmware command: sets the watchdog limit N. Input: fn 16 bits at byte 0. -/
  | watchdog
  /-- DBGATTACH (R392): Firmware command: attaches the debugger to one region. Input: fn 16 bits at byte 0. -/
  | dbgattach
  /-- DBGHALT (R392): Firmware command: halts an element of the attached region. Input: fn 16 bits at byte 0. -/
  | dbghalt
  /-- DBGRESUME (R392): Firmware command: resumes a halted element. Input: fn 16 bits at byte 0. -/
  | dbgresume
  /-- DBGDETACH (R186): Firmware command: resumes every halted element and detaches. Input: fn 16 bits at byte 0. -/
  | dbgdetach
  /-- WATCHSET (R186): Firmware command: writes a watch entry on all four dies. Input: fn 16 bits at byte 0. -/
  | watchset
  /-- REBUILD (R186): Firmware command: registers or removes a tenant's rebuild record. Input: fn 16 bits at byte 0. -/
  | rebuild
  /-- LIFEREAD (R431): Firmware command: returns the current lifetime record and the identity public key. Input: fn 16 bits at byte 0. -/
  | liferead
  /-- ATTEST (R26): Firmware command: writes a signed attestation report. Input: fn 16 bits at byte 0. -/
  | attest
  /-- ATSTIMEOUT (R186): Firmware command: sets the ATS and host-move completion timeout. Input: fn 16 bits at byte 0. -/
  | atstimeout
  /-- NODEID (R186): Firmware command: sets the package's node number. Input: fn 16 bits at byte 0. -/
  | nodeid
  /-- ROUTE (R186): Firmware command: sets a route-table entry. Input: fn 16 bits at byte 0. -/
  | route
  /-- SLOTS (R186): Firmware command: sets a far-end slot reservation. Input: fn 16 bits at byte 0. -/
  | slots
  /-- RTIMEOUT (R186): Firmware command: sets the remote timeout. Input: fn 16 bits at byte 0. -/
  | rtimeout
  /-- T2POOL (R186): Firmware command: gives the Apsis engine its host pool for T2. Input: fn 16 bits at byte 0. -/
  | t2pool
  /-- OVLRES (R186): Firmware command: sets a function's overlay reserve. Input: fn 16 bits at byte 0. -/
  | ovlres
  /-- CTXSET (R187): Firmware command: writes a context-table entry. Input: fn 16 bits at byte 0. -/
  | ctxset
  /-- CTXREAD (R187): Firmware command: returns a context-table entry. Input: fn 16 bits at byte 0. -/
  | ctxread
  /-- SLOT_CREDIT (R192): A slot credit returns on VC2 and frees a slot. Input: tenant 16 bits at byte 0, peer 12 bits at byte 2. -/
  | slotCredit
  /-- REMOTE_REPLY (R192): A remote reply, or a refusal, arrives into its reserved reply space. Input: idx 16 bits at byte 0, status 2 bits at byte 2, data 2048 bits at byte 3, descs 64 bits at byte 259, psn 4 bits at byte 267. -/
  | remoteReply
  /-- FAR_END_REQUEST (R426): The far end takes a remote request into its memory pipeline and returns a credit, performing or refusing it. Input: peer 12 bits at byte 0, tenant 16 bits at byte 2, kind 3 bits at byte 4, addr 52 bits at byte 5, size 2 bits at byte 12, mask 256 bits at byte 13, dset 1 bits at byte 45, desc 64 bits at byte 46, data 2048 bits at byte 54, sync 33 bits at byte 310. -/
  | farEndRequest
  /-- REMOTE_TIMEOUT (R426): A remote request without its reply within the timeout completes as a failure. Input: idx 16 bits at byte 0. -/
  | remoteTimeout
  /-- PEER_LOST (R427): A peer node is lost, and its outstanding requests and collectives fail. Input: peer 12 bits at byte 0. -/
  | peerLost
  /-- FLIT_RECEIVE (R190): A flit is received; a CRC or sequence error is answered with a NAK. Input: port 5 bits at byte 0, flit 2048 bits at byte 1. -/
  | flitReceive
  /-- NAK (R190): A received NAK makes the sender resend from the expected sequence onwards. Input: port 5 bits at byte 0, seq 12 bits at byte 1. -/
  | nak
  /-- LINK_RETRAIN (R425): Sixteen resends or 10 µs without acknowledgement retrain the link; three failures put the port down. Input: port 5 bits at byte 0, ok 1 bits at byte 1. -/
  | linkRetrain
  /-- SNAPSHOT (R428): Every 60 s the management core writes a signed lifetime record to the alternate slot. -/
  | snapshot
  /-- ENVIRONMENT_SAMPLE (R430): Every millisecond the management core samples each die's temperature and droop into the histograms. Input: temps 64 bits at byte 0, droops 64 bits at byte 8. -/
  | environmentSample
  /-- LINK_TRAINED (R425): A Zwitia port finishes a retrain or trains again after being down, resumes from the oldest unacknowledged flit, and resets the slot counts of its peer's pairs. Input: port 5 bits at byte 0. -/
  | linkTrained
  /-- DIE_REJOIN (R395): A repaired die rejoins the package as a non-master. Input: die 2 bits at byte 0. -/
  | dieRejoin
  /-- TDISP_TRANSITION (R181): A VF enters or leaves the TDISP state RUN, which locks or unlocks its policy block and its firmware settings. Input: vf 10 bits at byte 0, run 1 bits at byte 2. -/
  | tdispTransition
  /-- PACKAGE_FAULT (R369): The management core detects a management-core or hub failure, a class 4 fault, and reports it to the PF through vector 2. Input: code 8 bits at byte 0. -/
  | packageFault
  /-- CONFIG_RECORD_UPDATE (R24): The management core verifies a Sweori-signed update and writes the configuration record, for example to disable a site. Input: sigok 1 bits at byte 0, site 12 bits at byte 1, disable 1 bits at byte 3, svn 32 bits at byte 4. -/
  | configRecordUpdate
  /-- FWCMD_RESERVED_CODE (R186): A write to FWCMD with a code that names no command sets FWSTAT.RESULT to 1. Input: fn 16 bits at byte 0, code 16 bits at byte 2. -/
  | fwcmdReservedCode
  deriving DecidableEq, Repr

end Sys2Proof
end

