-- ==== Sys2Proof/WellFormed.lean ====
section
/-! DEFINITION. The static checks of an instruction's fields: where each kind of element stands (R12 to R14), the operand
selectors, predicates and outputs of a stage slot (R222 to R225, R280, R293), the fields of a port descriptor (R313, R314,
R321, R325), of an AG word (R330), of an operator slot (R239, R306) and of an engine command (R339, R344 to R362). A frame
that breaks one of them is refused when it is written (R220); an engine command word that breaks one is BADCMD (R244). -/

namespace Sys2Proof

/-! ## Sites (R1, R2, R12 to R15) -/

/-- The die of a site index (R15). -/
def siteDie (s : Site) : BitVec 2 := bits s 10 2

/-- The row of a site index (R15). -/
def siteY (s : Site) : BitVec 5 := bits s 5 5

/-- The column of a site index (R15). -/
def siteX (s : Site) : BitVec 5 := bits s 0 5

/-- The site index of die, column and row (R15). -/
def siteIndex (d : BitVec 2) (x y : BitVec 5) : Site := d ++ y ++ x

/-- The element kinds; the codes are those of the portable graph and of EKIND plus three (R219, R242). -/
inductive Kind where
  | ce
  | mt
  | ag
  | mx
  | ste
  | hpu
  | cp
  deriving DecidableEq, Repr

/-- The kind of the element at a site (R12, R13). -/
def siteKind (s : Site) : Kind :=
  let lx := (siteX s).toNat % 4
  let ly := (siteY s).toNat % 4
  let bx := (siteX s).toNat / 4
  let by' := (siteY s).toNat / 4
  if lx < 2 then .ce
  else if lx = 2 then .mt
  else if ly < 3 then .mx
  else if (bx + by') % 2 = 0 then .ste
  else if bx % 2 = 0 then .hpu
  else .cp

/-- The site belongs to the trap-handler elements of the Charon corner of its die (R14). -/
def isCorner (s : Site) : Bool :=
  let x := (siteX s).toNat
  let y := (siteY s).toNat
  (decide (x < 2) && decide (y < 2)) || (decide (x = 2) && decide (y = 0))

/-- The port of code `p` exists at the site (R54, R237): neighbour ports within the die or across a bridge, express ports
within the die, L0 everywhere and L1 at MT sites. -/
def portPresent (s : Site) (p : Nat) : Bool :=
  let x := (siteX s).toNat
  let y := (siteY s).toNat
  let d := (siteDie s).toNat
  match p with
  | 0 => decide (y > 0) || decide (d ≥ 2)
  | 1 => decide (x < 31) || decide (d % 2 = 0)
  | 2 => decide (y < 31) || decide (d < 2)
  | 3 => decide (x > 0) || decide (d % 2 = 1)
  | 4 => decide (y ≥ 4)
  | 5 => decide (x + 4 < 32)
  | 6 => decide (y + 4 < 32)
  | 7 => decide (x ≥ 4)
  | 8 => true
  | 9 => decide (siteKind s = .mt)
  | _ => false

/-! ## Stage slots -/

/-- How many of the operand fields A, B, C an operation reads as selectors, lowest first, by opcode (R254 to R293). -/
def selReads (opc : Nat) : Nat :=
  match opc with
  | 0x00 => 0
  | 0x01 => 1
  | 0x02 => 0
  | 0x03 => 3
  | 0x0A => 1
  | 0x0B => 1
  | 0x13 => 3
  | 0x18 => 3
  | 0x1D => 3
  | 0x1E => 3
  | 0x1F => 3
  | 0x28 => 1
  | 0x29 => 1
  | 0x2A => 1
  | 0x2D => 3
  | 0x2E => 3
  | 0x2F => 1
  | 0x43 => 3
  | 0x44 => 3
  | 0x45 => 3
  | 0x48 => 1
  | 0x49 => 1
  | 0x4E => 1
  | 0x50 => 1
  | 0x51 => 1
  | 0x52 => 1
  | 0x53 => 1
  | 0x54 => 1
  | 0x55 => 1
  | 0x56 => 1
  | 0x57 => 1
  | 0x58 => 1
  | 0x62 => 3
  | 0x66 => 1
  | 0x67 => 1
  | 0x68 => 3
  | 0x69 => 3
  | 0x6A => 3
  | 0x6B => 3
  | 0x6C => 3
  | 0x6D => 3
  | 0x70 => 1
  | 0x71 => 1
  | 0x84 => 1
  | 0x85 => 1
  | 0x86 => 1
  | 0x87 => 1
  | 0x88 => 1
  | 0x89 => 1
  | 0x8A => 1
  | 0x8B => 3
  | 0xA0 => 1
  | 0xA1 => 1
  | 0xA2 => 3
  | 0xA3 => 2
  | 0xA4 => 1
  | 0xA5 => 2
  | 0xA6 => 1
  | 0xA7 => 1
  | 0xA8 => 1
  | 0xA9 => 1
  | 0xAA => 2
  | 0xAB => 0
  | 0xAC => 1
  | 0xAD => 2
  | 0xAE => 0
  | _ => 2

/-- A selector that an operation reads is none of the reserved 40 to 47 (R220, R225). -/
def selOk (x : BitVec 6) : Bool := !(decide (40 ≤ x.toNat) && decide (x.toNat ≤ 47))

/-- The selector is an immediate between `lo` and `hi`, for −8 ≤ lo ≤ hi ≤ 7 (R225). -/
def selImm (x : BitVec 6) (lo hi : Int) : Bool :=
  decide (48 ≤ x.toNat) && decide (lo ≤ (x.toNat : Int) - 56) && decide ((x.toNat : Int) - 56 ≤ hi)

/-- The selector names vi0–vi3 (R225). -/
def selVi (x : BitVec 6) : Bool := decide (24 ≤ x.toNat) && decide (x.toNat ≤ 27)

/-- The predicate field holds none of its reserved values (R224): a stage 0 to 5, or 7 without inversion. -/
def predOk (p : BitVec 4) : Bool := decide ((bits p 0 3).toNat < 6) || decide (p = 7#4)

/-- The operation limits its operand fields, its output or its place beyond the selectors (R280, R293). -/
def opLimitsOk (opc : Nat) (st : Stage) : Bool :=
  match opc with
  | 0x70 => selVi st.a
  | 0x71 => decide (1 ≤ st.out.toNat) && decide (st.out.toNat ≤ 4)
  | 0xA1 => selImm st.a 0 7
  | 0xA2 => decide (st.a.toNat ≤ 5) && selImm st.b (-1) 7
  | 0xA3 => selImm st.b (-1) 7
  | 0xA4 => decide (24 ≤ st.a.toNat) && decide (st.a.toNat ≤ 31)
  | 0xA5 => selImm st.a 0 7
  | 0xAA => selImm st.b 1 4 && decide (1 ≤ st.out.toNat) && decide (st.out.toNat ≤ 5)
  | 0xAD => isCorner st.site
  | _ => true

/-- A stage slot that FRAME_WRITE accepts at its place: its selectors, its predicate, its limits, and a control operation
only in s5 with OUT 0 (SIGNAL aside) (R220, R224, R225, R245, R293). NOP ignores every field of its slot (R254). -/
def stageOk (opc : Nat) (st : Stage) : Bool :=
  decide (siteKind st.site = .ce) && decide (st.slot.toNat ≤ 5) &&
  (decide (opc = 0) ||
    (predOk st.pred &&
      (decide (selReads opc < 1) || selOk st.a) && (decide (selReads opc < 2) || selOk st.b) &&
      (decide (selReads opc < 3) || selOk st.c) && opLimitsOk opc st &&
      (decide (opc < 0xA0) ||
        (decide (st.slot.toNat = 5) && (decide (opc = 0xAA) || decide (st.out.toNat = 0))))))

/-! ## Port descriptors -/

/-- The OPARG bits that a port operation names (R313, R321, R325). -/
def portNamed (opc : Nat) : BitVec 48 :=
  let wid := 0x800000000000#48
  let row := 0x780000000000#48
  let ack := 0x040000000000#48
  let addf := 0x020000000000#48
  let roweot := 0x010000000000#48
  let sp := 0x008000000000#48
  let all := 0x004000000000#48
  let dov := 0x0001FFFF0000#48
  match opc with
  | 0x01 => wid
  | 0x02 => wid
  | 0x03 => wid ||| ack ||| dov
  | 0x04 => wid ||| ack ||| dov
  | 0x05 => wid
  | 0x06 => wid ||| ack ||| dov
  | 0x07 => wid ||| ack ||| addf
  | 0x0A => addf
  | 0x0B => addf
  | 0x11 => wid ||| row ||| roweot ||| sp
  | 0x12 => wid ||| row ||| ack ||| sp ||| dov
  | 0x13 => wid ||| row ||| ack ||| addf ||| sp
  | 0x14 => ack
  | 0x15 => 0x001FFFFFFFFF#48
  | 0x16 => wid ||| row ||| ack
  | 0x17 => wid ||| row ||| ack ||| all
  | 0x18 => wid ||| row ||| ack ||| all
  | _ => 0#48

/-- OPARG bit WID (R313). -/
def PortDesc.wid (d : PortDesc) : Bool := bitAt d.oparg 47

/-- Blocks per request (R313). -/
def PortDesc.rows (d : PortDesc) : Nat := (bits d.oparg 43 4).toNat + 1

/-- OPARG bit ACK (R313). -/
def PortDesc.ack (d : PortDesc) : Bool := bitAt d.oparg 42

/-- OPARG bit ADDF, or UNS of ATMIN and ATMAX (R313, R321). -/
def PortDesc.addf (d : PortDesc) : Bool := bitAt d.oparg 41

/-- OPARG bit ROWEOT (R313). -/
def PortDesc.roweot (d : PortDesc) : Bool := bitAt d.oparg 40

/-- OPARG bit SP (R313). -/
def PortDesc.sp (d : PortDesc) : Bool := bitAt d.oparg 39

/-- OPARG bit ALL (R313). -/
def PortDesc.all (d : PortDesc) : Bool := bitAt d.oparg 38

/-- OPARG bit DOV (R313). -/
def PortDesc.dov (d : PortDesc) : Bool := bitAt d.oparg 32

/-- OPARG field DESC (R313). -/
def PortDesc.desc (d : PortDesc) : BitVec 16 := bits d.oparg 16 16

/-- OPARG bit SFIX of SYNCW (R325). -/
def PortDesc.sfix (d : PortDesc) : Bool := bitAt d.oparg 36

/-- OPARG field SOFF of SYNCW (R325). -/
def PortDesc.soff (d : PortDesc) : BitVec 20 := bits d.oparg 16 20

/-- OPARG field IV of SYNCW (R325). -/
def PortDesc.iv (d : PortDesc) : BitVec 16 := bits d.oparg 0 16

/-- The operation works on the scratchpad: SPLD, SPST, SPADD, the sync words, and rows with SP = 1 (R313, R314). -/
def portIsSp (opc : Nat) (d : PortDesc) : Bool :=
  match opc with
  | 0x05 => true
  | 0x06 => true
  | 0x07 => true
  | 0x11 => d.sp
  | 0x12 => d.sp
  | 0x13 => d.sp
  | 0x14 => true
  | 0x15 => true
  | _ => false

/-- A port descriptor that FRAME_WRITE accepts at an MT: reserved bits 0, ASRC not 3, a HINT of R80, LVL and HINT 0 for
scratchpad operations, DESC 0 without DOV, and with SFIX a SOFF that is a multiple of 16 (R231, R313, R325); where no operation reads SOFF
it is not checked (R220), and one beyond the scratchpad completes as poison (R317). -/
def portOk (opc : Nat) (loc : PortAt) (d : PortDesc) : Bool :=
  decide (siteKind loc.site = .mt) &&
  decide (d.oparg &&& ~~~(portNamed opc) = 0#48) &&
  decide (d.asrc ≠ 3#2) &&
  (decide (d.hint = 0#3) || decide (4 ≤ d.hint.toNat)) &&
  (!portIsSp opc d || (decide (d.lvl = 0#3) && decide (d.hint = 0#3))) &&
  (decide (opc = 0x15) || d.dov || decide (d.desc = 0#16)) &&
  (decide (opc ≠ 0x15) || !d.sfix || decide (d.soff.toNat % 16 = 0))

/-- The WID and the address source stand in the operation's row of R314, which the instance check of R221 asks (R328). -/
def portRowOk (opc : Nat) (d : PortDesc) : Bool :=
  let chan := decide (d.asrc = 2#2)
  match opc with
  | 0x03 => !chan || !d.wid
  | 0x04 => d.wid && !chan
  | 0x06 => !chan || !d.wid
  | 0x07 => !chan || !d.wid
  | 0x11 => d.wid
  | 0x12 => d.wid && !chan
  | 0x13 => d.wid && !chan
  | 0x16 => d.wid
  | 0x17 => d.wid
  | 0x18 => d.wid
  | _ => true

/-! ## Engine commands -/

/-- The operand bits [87:0] that an engine opcode names (R344 to R362). -/
def cmdNamed (opc : Nat) : BitVec 88 :=
  match opc with
  | 0x10 => 0xFFFFFFE0FFFFFFFFFFFFFF#88
  | 0x11 => 0xFFFFFFFFFFFFE000000000#88
  | 0x12 => 0xFFFFFFFFFFFFE000000000#88
  | 0x13 => 0xFFFFFFFFFFF80000000000#88
  | 0x14 => 0xFFFFE00000000000000000#88
  | 0x15 => 0xFFFFE00000000000000000#88
  | 0x20 => 0xFFFFFFFFFFFFFF#88
  | 0x21 => 0xFFFFFFFFFFFFFF#88
  | 0x22 => 0xFFFFFFFFFFFFFF#88
  | 0x23 => 0xFFFFFFFFFFFFFF#88
  | 0x24 => 0xFFFFFFFFFFFFFF#88
  | 0x25 => 0xFFFFFFFFFFFFFF#88
  | 0x26 => 0xFFFFFFFFFFFFFF#88
  | 0x30 => 0xFFFFFFFFFFFFFF#88
  | 0x31 => 0xFFFFFFFFFFFFFF#88
  | 0x32 => 0xFFFFFFFFFFFFFF#88
  | 0x33 => 0xFFFFFFFFFFFFFFFFFFFFFF#88
  | 0x34 => 0xFFFFFFFFFFFFFFFFFFFFFF#88
  | 0x35 => 0xFFFFFFFFFFFFFF#88
  | 0x36 => 0xFFFFFFFFFFFFFF#88
  | 0x37 => 0xFFFFFFFFFFFFFF#88
  | 0x40 => 0x7FFFFFFFFFFFFFFF#88
  | 0x41 => 0xFFFF0F00000000000000#88
  | 0x42 => 0xFFFF0F00000000000000#88
  | 0x43 => 0x3F00000000000000#88
  | 0x44 => 0xFFFFFF0F00000000000000#88
  | 0x45 => 0xF00000000000000#88
  | 0x50 => 0x3F3F#88
  | 0x51 => 0x13F#88
  | 0x52 => 0xFFFFFFFFFFFFFF#88
  | 0x60 => 0xFFFFFF03FFFFFFFFFFFFFF#88
  | 0x61 => 0xFFFFFF03FFFFFFFFFFFFFF#88
  | _ => 0#88

/-- The class that takes an engine opcode, by its high digit (R248): 1 MX, 2 CP, 3 STE, 4 HPU, 5 the hypothesis
controller, 6 the Apsis engine. -/
def engineClass (eng : EngId) : Nat :=
  if eng.toNat = 0x1000 then 5
  else if eng.toNat = 0x1001 then 6
  else if 0x1001 < eng.toNat then 0
  else
    match siteKind (eng.setWidth 12) with
    | .mx => 1
    | .cp => 2
    | .ste => 3
    | .hpu => 4
    | _ => 0

/-- The mantissa width w − S − E of a narrow format code, negative for a bad descriptor (R116). -/
def narrowM (code : BitVec 8) : Int :=
  let w : Int := if bitAt code 7 then 4 else 8
  w - (bits code 3 1).toNat - (bits code 4 3).toNat

/-- The blocks of one MX tile: 64, or 32 + K/8 in the 2-of-4 form (R345, R346). -/
def mxTileBlocks (sp : Bool) (kind : BitVec 2) : Nat :=
  if sp then
    match kind.toNat with
    | 0 => 40
    | 1 => 48
    | _ => 36
  else 64

/-- The limits that a command's operands keep by themselves (R339, R344 to R362). -/
def cmdLimitsOk (opc : Nat) (c : Cmd) : Bool :=
  let va := (bits c.ops 0 56).toNat
  match opc with
  | 0x10 =>
    decide ((bits c.ops 75 13).toNat + (bits c.ops 62 13).toNat ≤ 8191) && decide (va % 64 = 0) &&
    (!bitAt c.ops 61 || decide (va = 0))
  | 0x11 =>
    decide ((bits c.ops 56 13).toNat + ((bits c.ops 40 10).toNat + 1) * mxTileBlocks (bitAt c.ops 39) (bits c.ops 37 2) ≤ 8192)
  | 0x12 =>
    decide ((bits c.ops 56 13).toNat + ((bits c.ops 40 10).toNat + 1) * mxTileBlocks (bitAt c.ops 39) (bits c.ops 37 2) ≤ 8192)
    && decide (bits c.ops 69 16 = 0#16)
  | 0x13 =>
    if bits c.ops 59 2 = 3#2 then decide (0 ≤ narrowM (bits c.ops 61 8)) else decide (bits c.ops 61 8 = 0#8)
  | 0x14 => true
  | 0x15 => true
  | 0x40 => decide (va % 64 = 0)
  | 0x41 => true
  | 0x42 => true
  | 0x43 => true
  | 0x44 => true
  | 0x45 => true
  | 0x50 => true
  | 0x51 => true
  | 0x60 => decide (va % 4096 = 0) && (decide (bits c.ops 56 2 = 1#2) || decide (bits c.ops 56 2 = 2#2))
  | 0x61 => decide (va % 4096 = 0) && (decide (bits c.ops 56 2 = 1#2) || decide (bits c.ops 56 2 = 2#2))
  | _ => decide (va % 64 = 0)

/-- An engine command word that its engine accepts as far as its bits alone decide: an opcode of the engine's class, no
reserved bit, LVL 0 outside MX and CP, SSITE and SOFF 0 without SJ, SOFF within the scratchpad and SSITE an MT with it, and
the limits of the command (R244, R339). -/
def cmdOk (opc : Nat) (eng : EngId) (c : Cmd) : Bool :=
  decide (opc / 16 = engineClass eng) && decide (c.ops &&& ~~~(cmdNamed opc) = 0#88) &&
  (decide (opc < 0x30) || decide (c.lvl = 0#3)) &&
  (if c.sj = 1#1 then decide (c.soff.toNat ≤ 49151) && decide (siteKind c.ssite = .mt)
    else decide (c.ssite = 0#12) && decide (c.soff = 0#16)) &&
  cmdLimitsOk opc c

/-! ## Router operators -/

/-- The number of inputs of an operator (R71, R239). -/
def opNin (opc : Nat) : Nat :=
  match opc with
  | 1 => 2
  | 2 => 3
  | _ => 1

/-- The number of outputs of an operator agrees with R71 (R239, R306). -/
def opNoutOk (opc : Nat) (c : OpCfg) : Bool :=
  let n := c.nout.toNat
  match opc with
  | 1 => decide (n = 2)
  | 4 => decide (2 ≤ n) && decide (n ≤ 4)
  | 7 => decide ((bits c.opt 5 3).toNat ≤ 4) && decide (n = 2 ^ (bits c.opt 5 3).toNat)
  | 8 => decide (n = 0)
  | _ => decide (n = 1)

/-- The OPT bits that an operator names, frame bit 160 first (R306). -/
def opNamed (opc : Nat) : BitVec 96 :=
  match opc with
  | 1 => 1#96
  | 2 => 1#96
  | 3 => 0x3FFFFFFFF#96
  | 5 => 7#96
  | 6 => 0xFFFFFFFFFFFFFF001FFFFFFF#96
  | 7 => 0xFF#96
  | _ => 0#96

/-- Output `j` of an operator: its port code and VC (R239). -/
def OpCfg.outPort (c : OpCfg) (j : Nat) : Nat := (bits c.outs (8 * j + 4) 4).toNat

/-- The VC of output `j` (R239). -/
def OpCfg.outVc (c : OpCfg) (j : Nat) : Nat := (bits c.outs (8 * j) 4).toNat

/-- The first `n` outputs name present ports and data VCs (R237, R239). -/
def opOutsOk (s : Site) (c : OpCfg) : Nat → Bool
  | 0 => true
  | n + 1 => opOutsOk s c n && portPresent s (c.outPort n) && decide (4 ≤ c.outVc n)

/-- An operator slot that FRAME_WRITE accepts (R71, R239, R306): REPLAY's queue is aligned to 128 and its MT is an MT. -/
def opOk (opc : Nat) (loc : OpAt) (c : OpCfg) : Bool :=
  decide (c.nin.toNat = opNin opc) && opNoutOk opc c && decide (c.opt &&& ~~~(opNamed opc) = 0#96) &&
  opOutsOk loc.site c c.nout.toNat && decide (c.outs.toNat < 2 ^ (8 * c.nout.toNat)) &&
  (decide (opc ≠ 6) ||
    (decide ((bits c.opt 40 56).toNat % 128 = 0) && decide (siteKind (bits c.opt 16 12) = .mt)))

/-! ## AG words and events -/

/-- An AG word stands at an MT (R12). -/
def agPlaceOk (loc : AgAt) : Bool := decide (siteKind loc.site = .mt)

/-- The element at the site is of the kind. -/
def kindAt (s : Site) (k : Kind) : Bool := decide (siteKind s = k)

/-- The static check of an instruction: its frame would be accepted (R220), or, for an engine command, its word is no BADCMD
by its bits alone (R244). -/
def wf : Instr → Bool
  | .dispatch _ _ _ _ => true
  | .promotion _ => true
  | .residencyTimeout _ => true
  | .frameWrite _ => true
  | .bankFlip _ _ => true
  | .linkTransfer _ _ => true
  | .taskActivation site _ => kindAt site .ce
  | .bundleFire site => kindAt site .ce
  | .nop st => stageOk 0x00 st
  | .mov st => stageOk 0x01 st
  | .movi st => stageOk 0x02 st
  | .sel st => stageOk 0x03 st
  | .add st => stageOk 0x08 st
  | .sub st => stageOk 0x09 st
  | .neg st => stageOk 0x0A st
  | .abs st => stageOk 0x0B st
  | .min st => stageOk 0x0C st
  | .max st => stageOk 0x0D st
  | .minu st => stageOk 0x0E st
  | .maxu st => stageOk 0x0F st
  | .mul st => stageOk 0x10 st
  | .mulh st => stageOk 0x11 st
  | .mulhu st => stageOk 0x12 st
  | .mad st => stageOk 0x13 st
  | .adds st => stageOk 0x14 st
  | .subs st => stageOk 0x15 st
  | .addus st => stageOk 0x16 st
  | .subus st => stageOk 0x17 st
  | .lea st => stageOk 0x18 st
  | .add2 st => stageOk 0x19 st
  | .sub2 st => stageOk 0x1A st
  | .add4 st => stageOk 0x1B st
  | .sub4 st => stageOk 0x1C st
  | .dot4 st => stageOk 0x1D st
  | .dot4u st => stageOk 0x1E st
  | .dot8 st => stageOk 0x1F st
  | .and st => stageOk 0x20 st
  | .or st => stageOk 0x21 st
  | .xor st => stageOk 0x22 st
  | .andn st => stageOk 0x23 st
  | .shl st => stageOk 0x24 st
  | .shr st => stageOk 0x25 st
  | .sar st => stageOk 0x26 st
  | .rol st => stageOk 0x27 st
  | .clz st => stageOk 0x28 st
  | .popc st => stageOk 0x29 st
  | .brev st => stageOk 0x2A st
  | .bfx st => stageOk 0x2B st
  | .bfxs st => stageOk 0x2C st
  | .bfi st => stageOk 0x2D st
  | .permb st => stageOk 0x2E st
  | .bswap st => stageOk 0x2F st
  | .ceq st => stageOk 0x30 st
  | .cne st => stageOk 0x31 st
  | .clt st => stageOk 0x32 st
  | .cle st => stageOk 0x33 st
  | .cltu st => stageOk 0x34 st
  | .cleu st => stageOk 0x35 st
  | .ctst st => stageOk 0x36 st
  | .fadd st => stageOk 0x40 st
  | .fsub st => stageOk 0x41 st
  | .fmul st => stageOk 0x42 st
  | .fma st => stageOk 0x43 st
  | .fms st => stageOk 0x44 st
  | .fnma st => stageOk 0x45 st
  | .fmin st => stageOk 0x46 st
  | .fmax st => stageOk 0x47 st
  | .fabs st => stageOk 0x48 st
  | .fneg st => stageOk 0x49 st
  | .fcps st => stageOk 0x59 st
  | .fceq st => stageOk 0x4A st
  | .fclt st => stageOk 0x4B st
  | .fcle st => stageOk 0x4C st
  | .fcun st => stageOk 0x4D st
  | .fclass st => stageOk 0x4E st
  | .fscale st => stageOk 0x4F st
  | .frcp st => stageOk 0x50 st
  | .frsq st => stageOk 0x51 st
  | .fexp2 st => stageOk 0x52 st
  | .flog2 st => stageOk 0x53 st
  | .frnd st => stageOk 0x54 st
  | .f2i st => stageOk 0x55 st
  | .f2u st => stageOk 0x56 st
  | .i2f st => stageOk 0x57 st
  | .u2f st => stageOk 0x58 st
  | .hadd2 st => stageOk 0x60 st
  | .hmul2 st => stageOk 0x61 st
  | .hfma2 st => stageOk 0x62 st
  | .hmin2 st => stageOk 0x63 st
  | .hmax2 st => stageOk 0x64 st
  | .cvth st => stageOk 0x65 st
  | .cvtlo st => stageOk 0x66 st
  | .cvthi st => stageOk 0x67 st
  | .nq8 st => stageOk 0x68 st
  | .nq4 st => stageOk 0x69 st
  | .ndq8 st => stageOk 0x6A st
  | .ndq4 st => stageOk 0x6B st
  | .ndot4 st => stageOk 0x6C st
  | .ndot8 st => stageOk 0x6D st
  | .nscl st => stageOk 0x6E st
  | .naps st => stageOk 0x6F st
  | .nblk st => stageOk 0x70 st
  | .nsetd st => stageOk 0x71 st
  | .shuf st => stageOk 0x80 st
  | .lrot st => stageOk 0x81 st
  | .bcast st => stageOk 0x82 st
  | .xbf st => stageOk 0x83 st
  | .rsum st => stageOk 0x84 st
  | .rmax st => stageOk 0x85 st
  | .rmin st => stageOk 0x86 st
  | .rsumi st => stageOk 0x87 st
  | .scani st => stageOk 0x88 st
  | .fscan st => stageOk 0x89 st
  | .lcomp st => stageOk 0x8A st
  | .packb st => stageOk 0x8B st
  | .trap st => stageOk 0xA0 st
  | .fence st => stageOk 0xA1 st
  | .fenceComplete site _ => kindAt site .ce
  | .cmd st => stageOk 0xA2 st
  | .fork st => stageOk 0xA3 st
  | .rdv st => stageOk 0xA4 st
  | .waitc st => stageOk 0xA5 st
  | .groupinc st => stageOk 0xA6 st
  | .sethyp st => stageOk 0xA7 st
  | .bind st => stageOk 0xA8 st
  | .unbind st => stageOk 0xA9 st
  | .signal st => stageOk 0xAA st
  | .time st => stageOk 0xAB st
  | .rdsys st => stageOk 0xAC st
  | .wrsys st => stageOk 0xAD st
  | .brk st => stageOk 0xAE st
  | .orphanDiversion site _ => kindAt site .ce
  | .steer loc c => opOk 1 loc c
  | .merge loc c => opOk 2 loc c
  | .carry loc c => opOk 3 loc c
  | .dup loc c => opOk 4 loc c
  | .widen loc c => opOk 5 loc c
  | .widenReleaseComplete _ _ => true
  | .replay loc c => opOk 6 loc c
  | .replayLapTwo _ _ => true
  | .rpart loc c => opOk 7 loc c
  | .drop loc c => opOk 8 loc c
  | .freedNotice _ _ => true
  | .freedCredit _ _ => true
  | .ld loc d => portOk 0x01 loc d
  | .ldro loc d => portOk 0x02 loc d
  | .st loc d => portOk 0x03 loc d
  | .stm loc d => portOk 0x04 loc d
  | .spld loc d => portOk 0x05 loc d
  | .spst loc d => portOk 0x06 loc d
  | .spadd loc d => portOk 0x07 loc d
  | .atadd loc d => portOk 0x08 loc d
  | .atfadd loc d => portOk 0x09 loc d
  | .atmin loc d => portOk 0x0A loc d
  | .atmax loc d => portOk 0x0B loc d
  | .atand loc d => portOk 0x0C loc d
  | .ator loc d => portOk 0x0D loc d
  | .atxor loc d => portOk 0x0E loc d
  | .atxchg loc d => portOk 0x0F loc d
  | .atcas loc d => portOk 0x10 loc d
  | .gath loc d => portOk 0x11 loc d
  | .scat loc d => portOk 0x12 loc d
  | .scatadd loc d => portOk 0x13 loc d
  | .syncset loc d => portOk 0x14 loc d
  | .syncw loc d => portOk 0x15 loc d
  | .pref loc d => portOk 0x16 loc d
  | .stfl loc d => portOk 0x17 loc d
  | .stinv loc d => portOk 0x18 loc d
  | .replySend site _ => kindAt site .mt
  | .portControlToken site _ => kindAt site .mt
  | .syncAdd site => kindAt site .mt
  | .aloop loc lvl count _ => agPlaceOk loc && decide (lvl.toNat ≤ 5) && decide (count ≠ 0#25)
  | .aend loc lvl => agPlaceOk loc && decide (lvl.toNat ≤ 5)
  | .abase loc _ => agPlaceOk loc
  | .aoff loc _ => agPlaceOk loc
  | .aidx loc exit _ _ => agPlaceOk loc && decide (exit.toNat ≤ 31)
  | .agrp loc exit tv _ tsite _ => agPlaceOk loc && decide (exit.toNat ≤ 31) && (decide (tv = 0#1) || kindAt tsite .ce)
  | .agrpEndOfStream _ => true
  | .aemit loc _ => agPlaceOk loc
  | .acred loc _ _ => agPlaceOk loc
  | .amask loc lvl _ _ => agPlaceOk loc && decide (lvl.toNat ≤ 5)
  | .ahalt loc _ => agPlaceOk loc
  | .jobStart _ => true
  | .engineCmdWord _ => true
  | .jobEnd _ => true
  | .mxCommandStart site => kindAt site .mx
  | .mxldb eng c => cmdOk 0x10 eng c
  | .mxmul eng c => cmdOk 0x11 eng c
  | .mxmulo eng c => cmdOk 0x12 eng c
  | .mxdrn eng c => cmdOk 0x13 eng c
  | .mxzero eng c => cmdOk 0x14 eng c
  | .mxver eng c => cmdOk 0x15 eng c
  | .cpcopy eng c => cmdOk 0x20 eng c
  | .cpfill eng c => cmdOk 0x21 eng c
  | .cpchain eng c => cmdOk 0x22 eng c
  | .cpput eng c => cmdOk 0x23 eng c
  | .cpget eng c => cmdOk 0x24 eng c
  | .cpred eng c => cmdOk 0x25 eng c
  | .cpbar eng c => cmdOk 0x26 eng c
  | .tnew eng c => cmdOk 0x30 eng c
  | .tapp eng c => cmdOk 0x31 eng c
  | .tseal eng c => cmdOk 0x32 eng c
  | .tatt eng c => cmdOk 0x33 eng c
  | .tfork eng c => cmdOk 0x34 eng c
  | .tevict eng c => cmdOk 0x35 eng c
  | .tfree eng c => cmdOk 0x36 eng c
  | .tstat eng c => cmdOk 0x37 eng c
  | .hfam eng c => cmdOk 0x40 eng c
  | .hins eng c => cmdOk 0x41 eng c
  | .hdel eng c => cmdOk 0x42 eng c
  | .hprobe eng c => cmdOk 0x43 eng c
  | .hreh eng c => cmdOk 0x44 eng c
  | .hstat eng c => cmdOk 0x45 eng c
  | .hypnew eng c => cmdOk 0x50 eng c
  | .confirm eng c => cmdOk 0x51 eng c && !bitAt c.ops 8
  | .refute eng c => cmdOk 0x51 eng c && bitAt c.ops 8
  | .hypqry eng c => cmdOk 0x52 eng c
  | .tierhint eng c => cmdOk 0x60 eng c
  | .tierpin eng c => cmdOk 0x61 eng c
  | .overlayEnlarge _ => true
  | .tenantSwitch _ _ => true
  | .pageMoveComplete _ => true
  | .detectionWave _ => true
  | .nodeComplete _ => true
  | .budgetExhausted _ => true
  | .watchdogFire _ => true
  | .sliceExpiry _ => true
  | .preempt _ => true
  | .mark _ _ => true
  | .markerPhaseEnd _ => true
  | .freeze _ => true
  | .restore _ _ _ => true
  | .ownerChangeZeroing _ _ _ => true
  | .heartbeat _ => true
  | .dieLost _ => true
  | .faultRecord _ => true
  | .fault _ => true
  | .fpop _ => true
  | .repairToken _ => true
  | .kernelBudget site _ => kindAt site .ce
  | .remoteRequestIssue _ _ => true
  | .memoryReply site _ => kindAt site .mt
  | .sramSwapComplete _ => true
  | .packageReset => true
  | .powerLoss => true
  | .launch => true
  | .recordAccept => true
  | .placementHold => true
  | .pageWalk => true
  | .atsTimeout => true
  | .eccError => true
  | .collectiveMessage => true
  | .repair => true
  | .escal => true
  | .watch => true
  | .respPoll => true
  | .generationIteration => true
  | .lstatClear => true
  | .inval => true
  | .invalidationComplete => true
  | .invstatClear => true
  | .cqtailClear => true
  | .policy => true
  | .pferrClear => true
  | .registerWrite => true
  | .faultring => true
  | .pasid => true
  | .watchdog => true
  | .dbgattach => true
  | .dbghalt => true
  | .dbgresume => true
  | .dbgdetach => true
  | .watchset => true
  | .rebuild => true
  | .liferead => true
  | .attest => true
  | .atstimeout => true
  | .nodeid => true
  | .route => true
  | .slots => true
  | .rtimeout => true
  | .t2pool => true
  | .ovlres => true
  | .ctxset => true
  | .ctxread => true
  | .slotCredit => true
  | .remoteReply => true
  | .farEndRequest => true
  | .remoteTimeout => true
  | .peerLost => true
  | .flitReceive => true
  | .nak => true
  | .linkRetrain => true
  | .snapshot => true
  | .environmentSample => true
  | .linkTrained => true
  | .dieRejoin => true
  | .tdispTransition => true
  | .packageFault => true
  | .configRecordUpdate => true
  | .fwcmdReservedCode => true

end Sys2Proof
end

