-- ==== Sys2Proof/Machine/Narrow.lean ====
section
/-! DEFINITION. The narrow formats (R116 to R119), the scale byte (R121), dequantising and quantising (R122, R123, R125),
the choice of a scale (R124), and the per-lane generator with stochastic rounding (R126, R127). -/

namespace Sys2Proof.Machine

/-- A narrow format: a code byte with the format register it names (R116, R29). -/
structure NFmt where
  code : BitVec 8
  reg : BitVec 16
  deriving DecidableEq, Repr

/-- Element width w (R116). -/
def NFmt.w (f : NFmt) : Nat := if bitAt f.code 7 then 4 else 8

/-- Exponent width E (R116). -/
def NFmt.e (f : NFmt) : Nat := (bits f.code 4 3).toNat

/-- A sign bit is present (R116). -/
def NFmt.s (f : NFmt) : Bool := bitAt f.code 3

/-- The bits below the sign. -/
def NFmt.body (f : NFmt) : Nat := f.w - (if f.s then 1 else 0)

/-- Mantissa width M = w − S − E of a good code (R116). -/
def NFmt.m (f : NFmt) : Nat := f.body - f.e

/-- The code has M < 0, 0xFF included (R116). -/
def NFmt.bad (f : NFmt) : Bool := decide (narrowM f.code < 0)

/-- The signed exponent bias (R29). -/
def NFmt.bias (f : NFmt) : Int := (bits f.reg 0 8).toInt

/-- The special-value policy (R29). -/
def NFmt.policy (f : NFmt) : Nat := (bits f.reg 8 2).toNat

/-- SUBN (R29). -/
def NFmt.subn (f : NFmt) : Bool := bitAt f.reg 10

/-- RND, the rounding that engines use (R29, R125). -/
def NFmt.rnd (f : NFmt) : BitVec 2 := bits f.reg 11 2

/-- The value of an element code (R118, R119). -/
def NFmt.value (f : NFmt) (x : Nat) : FVal :=
  let x := x % 2 ^ f.w
  if f.e = 0 then
    if f.s then let v := signed f.w x; .fin (decide (v < 0)) v.natAbs 0 else .fin false x 0
  else
    let neg := f.s && decide (x / 2 ^ f.body = 1)
    let body := x % 2 ^ f.body
    let ex := body / 2 ^ f.m
    let fr := body % 2 ^ f.m
    if f.policy = 1 ∧ ex = 2 ^ f.e - 1 then (if fr = 0 then .inf neg else .nan false)
    else if f.policy = 2 ∧ body = 2 ^ f.body - 1 then .nan false
    else if ex ≠ 0 then .fin neg (2 ^ f.m + fr) ((ex : Int) - f.bias - f.m)
    else if f.subn then .fin neg fr (1 - f.bias - f.m)
    else .fin neg 0 0

/-- The positive code of max, the largest finite value (R118, R119). With E = 1, POLICY 1 and SUBN 0 that value is 0, which every code
with e = 0 has: of these it is the one whose mantissa is all ones (DESIGN CHOICE, log 182). -/
def NFmt.maxCode (f : NFmt) : Nat :=
  if f.e = 0 then 2 ^ f.body - 1
  else
    match f.policy with
    | 1 => (2 ^ f.e - 1) * 2 ^ f.m - 1
    | 2 => 2 ^ f.body - 2
    | _ => 2 ^ f.body - 1

/-- max as an exact number (R118, R119). -/
def NFmt.max (f : NFmt) : Dy := (f.value f.maxCode).dy

/-- The 24-bit mantissas of C[0] to C[3] (R121). -/
def scaleMant (s : BitVec 8) : Nat :=
  match (bits s 0 2).toNat with
  | 0 => 0x800000
  | 1 => 0x9837F0
  | 2 => 0xB504F3
  | _ => 0xD744FD

/-- factor(s), exact (R121). -/
def factor (s : BitVec 8) : Dy := ⟨scaleMant s, s.toInt / 4 - 23⟩

/-- value × factor of an element, exact (R122). -/
def scaledVal (v : FVal) (s : BitVec 8) : FVal :=
  match v with
  | .fin n m e => .fin n (m * scaleMant s) (e + (factor s).e)
  | x => x

/-- Dequantise one element (R122): one rounding to fp32; a NaN code gives 0x7FC0_0000 without NV (R277). -/
def NFmt.dequant (f : NFmt) (s : BitVec 8) (x : Nat) : Word × Flags :=
  match scaledVal (f.value x) s with
  | .nan _ => (0x7FC00000#32, fNone)
  | .inf n => (if n then 0xFF800000#32 else 0x7F800000#32, fNone)
  | .fin n m e => w32 (fp32.round rne n m 1 e)

/-- How a quantise rounds: a mode of R114, or the random word of R127. -/
inductive NRound where
  | mode (m : BitVec 2)
  | stoch (rw : BitVec 16)
  deriving DecidableEq, Repr

/-- num / den rounded to an integer under the way of rounding, and whether it was inexact (R125, R127). -/
def NRound.apply (r : NRound) (neg : Bool) (num den : Nat) : Nat × Bool :=
  let q := num / den
  let t := num % den
  let up :=
    match r with
    | .mode m => decide (t ≠ 0) && roundsUp m neg q t den
    | .stoch rw => decide (65536 ≤ t * 65536 / den + rw.toNat)
  (if up then q + 1 else q, decide (t ≠ 0))

/-- The mode that an overflow under POLICY 1 follows: stochastic overflows as RNE does (R125). -/
def NRound.ovMode : NRound → BitVec 2
  | .mode m => m
  | .stoch _ => rne

/-- Quantise the exact magnitude num / den × 2^e with its sign into the format: rounding onto the grid and the placing of
R125. The code and the flags (DEDUCED, log 20; DEDUCED, log 168). -/
def NFmt.quantMag (f : NFmt) (r : NRound) (neg : Bool) (num den : Nat) (e : Int) : Nat × Flags :=
  let sgn := if f.s && neg then 2 ^ f.body else 0
  if f.e = 0 then
    let t := r.apply neg (num * 2 ^ e.toNat) (den * 2 ^ (-e).toNat)
    let x : Int := if neg then -(t.1 : Int) else t.1
    let hi : Int := (f.maxCode : Int)
    let lo : Int := if f.s then -hi - 1 else 0
    if !f.s ∧ x < 0 then (0, fSAT ||| flagIf t.2 fNX)
    else if x < lo then ((lo % (2 ^ f.w : Nat)).toNat, fSAT ||| fNX)
    else if hi < x then (hi.toNat, fSAT ||| fNX)
    else ((x % (2 ^ f.w : Nat)).toNat, flagIf t.2 fNX)
  else if num = 0 then (sgn, fNone)
  else
    let emin := 1 - f.bias
    let lg := log2Ratio num den + e
    -- the grid step at q is 2^u
    let u := if emin ≤ lg then lg - f.m else if f.subn then emin - f.m else emin
    let t := r.apply neg (num * 2 ^ (e - u).toNat) (den * 2 ^ (u - e).toNat)
    let mag : Dy := ⟨t.1, u⟩
    if !f.s ∧ neg ∧ t.1 ≠ 0 then (0, fSAT ||| flagIf t.2 fNX)
    else if f.max.lt mag then
      if f.policy = 1 then
        let m := r.ovMode.toNat
        let toInf := m = 0 ∨ (m = 2 ∧ neg) ∨ (m = 3 ∧ ¬ neg)
        (sgn + (if toInf then (2 ^ f.e - 1) * 2 ^ f.m else f.maxCode), fOF ||| fNX)
      else (sgn + f.maxCode, fSAT ||| fNX)
    else
      let tiny := mag.lt ⟨1, emin⟩
      let body :=
        if t.1 = 0 then 0
        else if tiny then t.1
        else
          let lg2 : Int := (Nat.log2 t.1 : Int) + u
          ((lg2 + f.bias) * (2 ^ f.m : Nat) +
            ((t.1 * 2 ^ (u - (lg2 - f.m)).toNat / 2 ^ ((lg2 - f.m) - u).toNat : Nat) - (2 ^ f.m : Nat) : Int)).toNat
      (sgn + body, flagIf t.2 fNX ||| flagIf (t.2 && tiny) fUF)

/-- Quantise an fp32 value with scale `s` into the format, for a good code (R123, R125). -/
def NFmt.quant (f : NFmt) (r : NRound) (s : BitVec 8) (v : Word) : Nat × Flags :=
  let sgn (n : Bool) : Nat := if f.s && n then 2 ^ f.body else 0
  match v32 v with
  | .nan sig =>
    if f.e = 0 then (0, fNV)
    else if f.policy = 0 ∨ (f.policy = 1 ∧ f.m = 0) then (0, fNV)
    else if f.policy = 1 then ((2 ^ f.e - 1) * 2 ^ f.m + 2 ^ (f.m - 1), flagIf sig fNV)
    else (2 ^ f.body - 1, flagIf sig fNV)
  | .inf n =>
    if n ∧ !f.s then (0, fSAT)
    else if f.e = 0 then (if n then 2 ^ f.body else f.maxCode, fSAT)
    else if f.policy = 1 then (sgn n + (2 ^ f.e - 1) * 2 ^ f.m, fNone)
    else (sgn n + f.maxCode, fSAT)
  | .fin n m e => f.quantMag r n m (scaleMant s) (e - (factor s).e)

/-- The least `k` of `n` scale bytes from `lo` upwards whose max × factor reaches the magnitude, or 127 (R124). -/
def scaleSearch (a max : Dy) : Nat → Int → BitVec 8
  | 0, _ => 127#8
  | n + 1, lo =>
    if (max.mul (factor (BitVec.ofInt 8 lo))).lt a then scaleSearch a max n (lo + 1) else BitVec.ofInt 8 lo

/-- The scale byte chosen for the largest finite magnitude `a` (R124). -/
def NFmt.scaleFor (f : NFmt) (a : Dy) : BitVec 8 := if a.m = 0 then 0#8 else scaleSearch a f.max 256 (-128)

/-- One advance of the generator G (R126). -/
def advance (g : Word) : Word :=
  let g := g ^^^ (g <<< 13)
  let g := g ^^^ (g >>> 17)
  g ^^^ (g <<< 5)

/-- G at task start: SEED XOR ((task << 16) | (site << 4) | lane), with 0 replaced by 1 (R126). -/
def genSeed (seed : Word) (task : BitVec 3) (site : Site) (l : Nat) : Word :=
  let g := seed ^^^ BitVec.ofNat 32 (task.toNat * 65536 + site.toNat * 16 + l)
  if g = 0#32 then 1#32 else g

/-- The format register that a code names, of the eight in the launch record's FMT field (R28, R116). -/
def fmtReg (fmts : BitVec 128) (code : BitVec 8) : BitVec 16 :=
  BitVec.ofNat 16 (fmts.toNat / 2 ^ (16 * (bits code 0 3).toNat))

/-- The narrow format that a code names under a node's format registers. -/
def nfmt (fmts : BitVec 128) (code : BitVec 8) : NFmt := ⟨code, fmtReg fmts code⟩

/-- A descriptor that a CE operation of element width `w` takes as bad (R275). -/
def badFor (f : NFmt) (w : Nat) : Bool := f.bad || decide (f.w ≠ w)

/-- The flag of an fp32 result: 1 when it is neither +0 nor −0 (R266). -/
def fpFlag (x : Word) : Bool := decide (bits x 0 31 ≠ 0#31)

/-- NQ8 and NQ4: shift the code in from the top of C, with the generator before and after (R276, R266) (DEDUCED, log 21). -/
def nqOp (w : Nat) (mod : BitVec 3) (fmts : BitVec 128) (g : Word) (a b c : Word) : LaneRes × Word :=
  let f := nfmt fmts (bits b 0 8)
  let sr := bitAt mod 2
  if badFor f w then (⟨c >>> w, fpFlag (c >>> w), fBD⟩, g)
  else
    let g' := if sr then advance g else g
    let r : NRound := if sr then .stoch (bits g' 16 16) else .mode (bits mod 0 2)
    let q := f.quant r (bits b 8 8) a
    let x := (c >>> w) ||| BitVec.ofNat 32 (q.1 * 2 ^ (32 - w))
    (⟨x, fpFlag x, q.2⟩, g')

/-- An fp32 result with its AFLAGS bits (R266). -/
def fpRes (r : Word × Flags) : LaneRes := ⟨r.1, fpFlag r.1, r.2⟩

/-- NDQ8 and NDQ4 (R277). -/
def ndqOp (w : Nat) (fmts : BitVec 128) (a b c : Word) : LaneRes :=
  let f := nfmt fmts (bits c 0 8)
  if badFor f w then fpRes (0#32, fBD)
  else
    let i := b.toNat % (32 / w)
    fpRes (f.dequant (bits c 8 8) (a.toNat / 2 ^ (w * i)))

/-- The products of the first `n` element pairs of a narrow dot (R278). -/
def ndotTerms (w : Nat) (fa fb : NFmt) (sa sb : BitVec 8) (a b : Word) : Nat → List (FVal × FVal)
  | 0 => []
  | n + 1 =>
    ndotTerms w fa fb sa sb a b n ++
      [(scaledVal (fa.value (a.toNat / 2 ^ (w * n))) sa, scaledVal (fb.value (b.toNat / 2 ^ (w * n))) sb)]

/-- One rounding of an exact sum of products plus an fp32 addend, with the special cases of R129 (R278). -/
def dotRound (mode : BitVec 2) (ps : List (FVal × FVal)) (c : FVal) : Word × Flags :=
  let inv (p : FVal × FVal) : Bool := (p.1.isZero && p.2.isInf) || (p.1.isInf && p.2.isZero)
  let isnan (p : FVal × FVal) : Bool := p.1.isNaN || p.2.isNaN
  let sgn (p : FVal × FVal) : Bool := p.1.isNeg != p.2.isNeg
  let isinf (p : FVal × FVal) : Bool := p.1.isInf || p.2.isInf
  let posInf := ps.any (fun p => isinf p && !sgn p) || (c.isInf && !c.isNeg)
  let negInf := ps.any (fun p => isinf p && sgn p) || (c.isInf && c.isNeg)
  if c.isNaN || ps.any isnan || ps.any inv || (posInf && negInf) then (0x7FC00000#32, fNV)
  else if posInf then (0x7F800000#32, fNone)
  else if negInf then (0xFF800000#32, fNone)
  else
    let sum := Dy.sum (c.dy :: ps.map fun p => p.1.dy.mul p.2.dy)
    let signs := c.isNeg :: ps.map sgn
    let allZero := c.isZero && ps.all fun p => p.1.isZero || p.2.isZero
    let zneg :=
      if allZero && signs.all id then true
      else if allZero && signs.all (!·) then false
      else decide (mode.toNat = 2)
    w32 (fp32.roundDy mode zneg sum)

/-- NDOT4 (w = 8) and NDOT8 (w = 4), with the descriptors of A and B (R275, R278). -/
def ndotOp (w : Nat) (mod : BitVec 3) (fmts : BitVec 128) (da db : BitVec 16) (a b c : Word) : LaneRes :=
  let fa := nfmt fmts (bits da 0 8)
  let fb := nfmt fmts (bits db 0 8)
  if badFor fa w || badFor fb w then fpRes (0#32, fBD)
  else fpRes (dotRound (bits mod 0 2) (ndotTerms w fa fb (bits da 8 8) (bits db 8 8) a b (32 / w)) (v32 c))

/-- NSCL: the descriptor whose scale fits |A| (R279). -/
def nsclOp (fmts : BitVec 128) (a b : Word) : LaneRes :=
  let f := nfmt fmts (bits b 0 8)
  if f.bad then ⟨0xFF#32, true, fBD⟩
  else
    let s :=
      match v32 a with
      | .fin _ m e => f.scaleFor ⟨m, e⟩
      | _ => 0#8
    let x : Word := (s ++ f.code).setWidth 32
    ⟨x, decide (x ≠ 0#32), fNone⟩

/-- NAPS: A × factor(s), rounded once (R279). A bad descriptor gives +0 and BD (R275). -/
def napsOp (mod : BitVec 3) (fmts : BitVec 128) (a b : Word) : LaneRes :=
  let f := nfmt fmts (bits b 0 8)
  if f.bad then fpRes (0#32, fBD)
  else
    match v32 a with
    | .nan s => fpRes (0x7FC00000#32, flagIf s fNV)
    | .inf _ => fpRes (a, fNone)
    | .fin n m e => fpRes (w32 (fp32.round (bits mod 0 2) n (m * scaleMant (bits b 8 8)) 1 (e + (factor (bits b 8 8)).e)))

end Sys2Proof.Machine
end

