-- ==== Sys2Proof/Machine/Transcendental.lean ====
section
/-! DEFINITION. The four transcendental algorithms, to the bit: FEXP2 (R133), FLOG2 (R134), FRCP (R135) and FRSQ (R136).
Every step rounds to nearest even in fp32 (R132), on exact dyadic operands. -/

namespace Sys2Proof.Machine

/-- An exact number rounded to nearest even in fp32, as an exact number again (R132). -/
def rne32 (x : Dy) : Dy := (fp32.unpack (fp32.roundDy rne false x).1).dy

/-- fma32(a, b, c) = rne(a × b + c) with a single rounding (R132). -/
def fma32 (a b c : Dy) : Dy := rne32 ((a.mul b).add c)

/-- The number a binary32 constant stands for. -/
def dy32 (b : Nat) : Dy := (fp32.unpack b).dy

/-- Entry `i` of a table of R132. -/
def tab (t : List Nat) (i : Nat) : Dy := dy32 (t.getD i 0)

/-- Floor of an exact number. -/
def Dy.floor (x : Dy) : Int := if 0 ≤ x.e then x.m * (2 ^ x.e.toNat : Nat) else x.m / (2 ^ (-x.e).toNat : Nat)

/-- norm(x): the exponent e and the mantissa m in [1, 2), as an integer over 2^23, with |x| = 2^e × m (R132). -/
def normMant (m : Nat) (e : Int) : Nat × Int :=
  let k := Nat.log2 m
  (if k ≤ 23 then m * 2 ^ (23 - k) else m / 2 ^ (k - 23), e + k)

/-- FEXP2 (R133). -/
def fexp2 (a : Word) : Word × Flags :=
  match v32 a with
  | .nan s => (0x7FC00000#32, flagIf s fNV)
  | .inf n => (if n then 0#32 else 0x7F800000#32, fNone)
  | .fin neg m e =>
    let x : Dy := ⟨if neg then -(m : Int) else m, e⟩
    if !(x.lt (Dy.ofInt 128)) then (0x7F800000#32, fOF ||| fNX)
    else if x.lt (Dy.ofInt (-151)) then (0#32, fUF ||| fNX)
    else
      let n := x.floor
      let f := x.add (Dy.ofInt (-n))
      let i := (f.mul ⟨64, 0⟩).floor
      let g := f.add ⟨-i, -6⟩
      let t := fma32 (dy32 cC3) g (dy32 cC2)
      let t := fma32 t g (dy32 cC1)
      let p := rne32 (t.mul g)
      let ti := tab tabT i.toNat
      let mm := fma32 ti p ti
      let r := fp32.roundDy rne false ⟨mm.m, mm.e + n⟩
      (BitVec.ofNat 32 r.1, r.2 ||| flagIf (decide (f.m ≠ 0)) fNX)

/-- FLOG2 (R134). -/
def flog2 (a : Word) : Word × Flags :=
  match v32 a with
  | .nan s => (0x7FC00000#32, flagIf s fNV)
  | .inf n => if n then (0x7FC00000#32, fNV) else (0x7F800000#32, fNone)
  | .fin neg m e =>
    if m = 0 then (0xFF800000#32, fNone)
    else if neg then (0x7FC00000#32, fNV)
    else
      let (mi, ex) := normMant m e
      let mv : Dy := ⟨mi, -23⟩
      let j := (mi - 2 ^ 23) / 2 ^ 17
      let u := fma32 mv (tab tabRl j) ⟨-1, 0⟩
      let t := fma32 (dy32 cD3) u (dy32 cD2)
      let t := fma32 t u (dy32 cD1)
      let q := rne32 (t.mul u)
      let s := rne32 ((tab tabLl j).add q)
      let r := fp32.roundDy rne false ((Dy.ofInt ex).add s)
      (BitVec.ofNat 32 r.1, flagIf (decide (mi ≠ 2 ^ 23)) fNX)

/-- FRCP (R135). -/
def frcp (a : Word) : Word × Flags :=
  match v32 a with
  | .nan s => (0x7FC00000#32, flagIf s fNV)
  | .inf n => (if n then 0x80000000#32 else 0#32, fNone)
  | .fin neg m e =>
    if m = 0 then (if neg then 0xFF800000#32 else 0x7F800000#32, fNone)
    else
      let (mi, ex) := normMant m e
      let one := decide (mi = 2 ^ 23)
      let mv : Dy := ⟨mi, -23⟩
      let refine (y : Dy) : Dy := let d := fma32 mv.neg y ⟨1, 0⟩; fma32 y d y
      let y : Dy := if one then ⟨1, 0⟩ else refine (refine (tab tabQ ((mi - 2 ^ 23) / 2 ^ 16)))
      let r := fp32.round rne neg y.m.natAbs 1 (y.e - ex)
      (BitVec.ofNat 32 r.1, r.2 ||| flagIf (!one) fNX)

/-- FRSQ (R136). -/
def frsq (a : Word) : Word × Flags :=
  match v32 a with
  | .nan s => (0x7FC00000#32, flagIf s fNV)
  | .inf n => if n then (0x7FC00000#32, fNV) else (0#32, fNone)
  | .fin neg m e =>
    if m = 0 then (if neg then 0xFF800000#32 else 0x7F800000#32, fNone)
    else if neg then (0x7FC00000#32, fNV)
    else
      let (m0, e0) := normMant m e
      let mi := if e0 % 2 = 0 then m0 else 2 * m0
      let ex := if e0 % 2 = 0 then e0 else e0 - 1
      let one := decide (mi = 2 ^ 23)
      let mv : Dy := ⟨mi, -23⟩
      let refine (y : Dy) : Dy :=
        let t := rne32 (y.mul y)
        let d := fma32 mv.neg t ⟨1, 0⟩
        fma32 (rne32 (y.mul ⟨1, -1⟩)) d y
      let y : Dy := if one then ⟨1, 0⟩ else refine (refine (tab tabP ((mi - 2 ^ 23) / 2 ^ 18)))
      let r := fp32.round rne false y.m.natAbs 1 (y.e - ex / 2)
      (BitVec.ofNat 32 r.1, flagIf (!one) fNX)

end Sys2Proof.Machine
end

