-- ==== Sys2Proof/Machine/CrossLane.lean ====
section
/-! DEFINITION. The packed half operations (R273, R274) and the operations that let one lane see another (R281 to R287). A
cross-lane function takes operand A in every lane and the active lanes, and gives every active lane its result. -/

namespace Sys2Proof.Machine

/-- The element format of a packed operation: MOD[2] selects bf16 (R273). -/
def halfFmt (mod : BitVec 3) : Fmt := if bitAt mod 2 then bf16 else fp16

/-- Element `i` of a lane as a bit pattern (R113). -/
def halfOf (x : Word) (i : Nat) : Nat := x.toNat / 2 ^ (16 * i) % 2 ^ 16

/-- A half element is neither +0 nor −0. -/
def halfNz (x : Nat) : Bool := decide (x % 2 ^ 15 ≠ 0)

/-- Two element results, element 0 first, packed into a lane (R273). -/
def packHalf (r0 r1 : Nat × Flags) : LaneRes :=
  ⟨BitVec.ofNat 32 (r0.1 + r1.1 * 2 ^ 16), halfNz r0.1 || halfNz r1.1, r0.2 ||| r1.2⟩

/-- HADD2 (R273). -/
def hadd2 (mod : BitVec 3) (a b : Word) : LaneRes :=
  let f := halfFmt mod
  let el (i : Nat) := f.add (bits mod 0 2) (f.unpack (halfOf a i)) (f.unpack (halfOf b i))
  packHalf (el 0) (el 1)

/-- HMUL2 (R273). -/
def hmul2 (mod : BitVec 3) (a b : Word) : LaneRes :=
  let f := halfFmt mod
  let el (i : Nat) := f.mul (bits mod 0 2) (f.unpack (halfOf a i)) (f.unpack (halfOf b i))
  packHalf (el 0) (el 1)

/-- HFMA2 (R273). -/
def hfma2 (mod : BitVec 3) (a b c : Word) : LaneRes :=
  let f := halfFmt mod
  let el (i : Nat) := f.fma (bits mod 0 2) (f.unpack (halfOf a i)) (f.unpack (halfOf b i)) (f.unpack (halfOf c i))
  packHalf (el 0) (el 1)

/-- HMIN2 and HMAX2 (R273, R268). -/
def hminmax2 (wantMax : Bool) (mod : BitVec 3) (a b : Word) : LaneRes :=
  let f := halfFmt mod
  packHalf (f.minmax wantMax (halfOf a 0) (halfOf b 0)) (f.minmax wantMax (halfOf a 1) (halfOf b 1))

/-- CVTH (R274): two fp32 values rounded to halves; its flag is that of the packed operations (log 9). -/
def cvth (mod : BitVec 3) (a b : Word) : LaneRes :=
  let f := halfFmt mod
  packHalf (fp32.convert f (bits mod 0 2) a.toNat) (fp32.convert f (bits mod 0 2) b.toNat)

/-- CVTLO and CVTHI (R274): one element widened to fp32, exactly. -/
def cvtWide (i : Nat) (mod : BitVec 3) (a : Word) : LaneRes :=
  fpRes (w32 ((halfFmt mod).convert fp32 rne (halfOf a i)))

/-- What a cross-lane operation leaves: the results of the lanes it writes, their flags, and the AFLAGS bits. -/
structure XRes where
  val : Block
  flg : BitVec 16
  fl : Flags
  deriving DecidableEq, Repr

/-- Results with the nonzero rule. -/
def xNz (f : Nat → Word) (fl : Flags) : XRes :=
  ⟨ofLanes f, ofMask fun l => decide (f l ≠ 0#32), fl⟩

/-- Results with the fp32 flag rule of R266. -/
def xFp (f : Nat → Word) (fl : Flags) : XRes := ⟨ofLanes f, ofMask fun l => fpFlag (f l), fl⟩

/-- The OR of the flags of the lanes in a mask, from lane 0 to `n − 1`. -/
def orFlags (act : BitVec 16) (f : Nat → Flags) : Nat → Flags
  | 0 => fNone
  | n + 1 => orFlags act f n ||| flagIf (bitAt act n) (f n)

/-- SHUF (R282). -/
def xShuf (a b : Block) : XRes := xNz (fun l => lane a ((lane b l).toNat % 16)) fNone

/-- LROT (R282). -/
def xLrot (a b : Block) : XRes := xNz (fun l => lane a ((l + (lane b 0).toNat % 16) % 16)) fNone

/-- BCAST (R282). -/
def xBcast (a b : Block) : XRes := xNz (fun _ => lane a ((lane b 0).toNat % 16)) fNone

/-- One lane of XBF (R283). -/
def xbfLane (mode : BitVec 2) (w : Nat) (a : Block) (l : Nat) : Word × Flags :=
  if l / w % 2 = 0 then fadd mode (lane a l) (lane a (l + w)) else fsub mode (lane a (l - w)) (lane a l)

/-- XBF, w = 1 << B[0][1:0] (R283). -/
def xXbf (mod : BitVec 3) (act : BitVec 16) (a b : Block) : XRes :=
  let w := 2 ^ ((lane b 0).toNat % 4)
  xFp (fun l => (xbfLane (bits mod 0 2) w a l).1) (orFlags act (fun l => (xbfLane (bits mod 0 2) w a l).2) 16)

/-- The tree sum of R128 over the 2^k lanes from `l0`, with the flags of its additions. -/
def treeSum (f : Nat → Word) : Nat → Nat → Word × Flags
  | 0, l0 => (f l0, fNone)
  | k + 1, l0 =>
    let x := treeSum f k l0
    let y := treeSum f k (l0 + 2 ^ k)
    let r := fadd rne x.1 y.1
    (r.1, x.2 ||| y.2 ||| r.2)

/-- Lanes that an operation excludes contribute +0.0 (R281). -/
def activeOr0 (act : BitVec 16) (a : Block) (l : Nat) : Word := if bitAt act l then lane a l else 0#32

/-- RSUM (R284, R128). -/
def xRsum (act : BitVec 16) (a : Block) : XRes :=
  let r := treeSum (activeOr0 act a) 4 0
  xFp (fun _ => r.1) (if act = 0#16 then fNone else r.2)

/-- FMAX or FMIN over the active lanes below `n`, in lane order (R284). -/
def xMinmaxFrom (wantMax : Bool) (act : BitVec 16) (a : Block) : Nat → Option (Word × Flags)
  | 0 => none
  | n + 1 =>
    let prev := xMinmaxFrom wantMax act a n
    if bitAt act n then
      match prev with
      | none => some (fminmax wantMax (lane a n) (lane a n))
      | some (v, fl) => let r := fminmax wantMax v (lane a n); some (r.1, fl ||| r.2)
    else prev

/-- RMAX and RMIN (R284). -/
def xMinmax (wantMax : Bool) (act : BitVec 16) (a : Block) : XRes :=
  match xMinmaxFrom wantMax act a 16 with
  | none => ⟨0#512, 0#16, fNone⟩
  | some (v, fl) => xFp (fun _ => v) fl

/-- The sum mod 2^32 of the active lanes below `n` (R284, R285). -/
def sumActive (act : BitVec 16) (a : Block) : Nat → Word
  | 0 => 0#32
  | n + 1 => sumActive act a n + activeOr0 act a n

/-- RSUMI (R284). -/
def xRsumi (act : BitVec 16) (a : Block) : XRes := xNz (fun _ => sumActive act a 16) fNone

/-- SCANI (R285). -/
def xScani (act : BitVec 16) (a : Block) : XRes := xFp (fun l => sumActive act a (l + 1)) fNone

/-- The prefix of `n` lanes from `start` with an optional sum so far: the aligned blocks named by the bits of the length,
largest first, added from left to right (R128). -/
def scanBlocks (f : Nat → Word) (n : Nat) : Nat → Nat → Option (Word × Flags) → Option (Word × Flags)
  | 0, _, acc => acc
  | k + 1, start, acc =>
    if n / 2 ^ k % 2 = 1 then
      let s := treeSum f k start
      let acc' :=
        match acc with
        | none => s
        | some x => let r := fadd rne x.1 s.1; (r.1, x.2 ||| s.2 ||| r.2)
      scanBlocks f n k (start + 2 ^ k) (some acc')
    else scanBlocks f n k start acc

/-- Lane `l` of FSCAN with the flags of its additions (R285, R128). The prefix of lane 0 alone has no addition of its own: it gives what
adding −0 gives, its value, and of a NaN the canonical one, with NV for a signalling one (R114). -/
def fscanLane (act : BitVec 16) (a : Block) (l : Nat) : Word × Flags :=
  if l = 0 then fadd rne (activeOr0 act a 0) 0x80000000#32
  else (scanBlocks (activeOr0 act a) (l + 1) 5 0 none).getD (0#32, fNone)

/-- FSCAN (R285). -/
def xFscan (act : BitVec 16) (a : Block) : XRes :=
  xFp (fun l => (fscanLane act a l).1) (orFlags act (fun l => (fscanLane act a l).2) 16)

/-- The active lanes below `n` in ascending order. -/
def activeList (act : BitVec 16) : Nat → List Nat
  | 0 => []
  | n + 1 => if bitAt act n then activeList act n ++ [n] else activeList act n

/-- LCOMP: the results, flags and mask of all 16 lanes (R286). -/
def xLcomp (act : BitVec 16) (a : Block) : XRes :=
  let ls := activeList act 16
  ⟨ofLanes fun i => match ls[i]? with
    | some l => lane a l
    | none => 0#32,
   ofMask fun i => decide (i < ls.length), fNone⟩

/-- PACKB (R287). -/
def xPackb (a b c : Block) : XRes :=
  let q := (bits (lane b 0) 0 2).toNat
  let y := (bits (lane b 0) 2 2).toNat
  xNz (fun l =>
    if l / 4 = q then
      let by' (i : Nat) : BitVec 8 := bits (lane a (4 * (l % 4) + i)) (8 * y) 8
      by' 3 ++ by' 2 ++ by' 1 ++ by' 0
    else lane c l) fNone

end Sys2Proof.Machine
end

