-- ==== Sys2Proof/Config.lean ====
section
/-! DEFINITION. What one implementation fixes and the spec leaves open: free values, of which nothing is known, and the
answers of computations that the spec names without defining (digests and signatures). A statement about one of these holds
for every value it could have. -/

namespace Sys2Proof.Config

/-- The descriptor of a block read from host or other storage that keeps no descriptors, by block address (R82 gives
descriptors a place in modules, memory tiles and tokens only; log 6). -/
opaque hostDesc : Nat → BitVec 16

/-- SHAKE256, 256 bits out, of a byte string (R24, R28, R429; FIPS 202 is not part of the spec; log 7). -/
opaque shake256 : List Byte → BitVec 256

/-- A byte string is a good ML-DSA-65 signature by Sweori's key over a digest (R24, R25; FIPS 204 is not part of the spec; log 7). -/
opaque sweoriSigned : BitVec 256 → List Byte → Bool

/-- The ML-DSA-65 signature of 3,309 bytes that the device identity key makes over a digest (R26, R429; log 7). -/
opaque signature : BitVec 256 → Nat → Byte

/-- The bytes of the 1,952-byte public identity key (R26; log 7). -/
opaque publicKey : Nat → Byte

/-- The answer of the host's translation agent to an ATS request: the physical base of the page that stands at a host base
address under a PASID, or a refusal (R94, R401; log 8). -/
opaque ats : BitVec 20 → Nat → Option Nat

/-- Whether the completer of an AtomicOp answers it with success, for each use in turn (R402; log 8). -/
opaque hostAtomicOk : Nat → Bool

/-- The plan that the Colad mapper finds for a graph, by its digest, over a set of free elements (R36, R212); the spec gives no algorithm
(log 94). -/
opaque mapPlan : BitVec 256 → List Nat → List Byte

/-- The CRC-64 over bytes 0 to 247 of a flit, whose polynomial the spec does not give (R189; log 13). -/
opaque crc64 : BitVec 1984 → BitVec 64

/-- The payload of each flit that a port sends in turn, whose layout the spec does not give (R189; log 13). -/
opaque flitPayload : Nat → BitVec 1920

/-- What a summary tree's node header holds where the spec gives it no value, for each writing in turn (R139, R142; log 12). -/
opaque freeHeader : Nat → BitVec 1024

end Sys2Proof.Config
end

