-- ==== Sys2Proof/Decode.lean ====
section
/-! DEFINITION. Decoding and encoding. The step functions hand every instruction to the decoder as a record of bytes: a
class byte, where the instruction stands, and its word as the spec encodes it (R224 a stage slot, R231 a port descriptor,
R234 and R330 an AG word, R239 an operator slot frame, R243 and R339 an engine command word), each little-endian (R6).
Events of the host, the links, the distributors and the firmware have no encoding in the spec; their record is the table's
row number and the operands, a form of the model's own (log 2); where the outside starts the step, what it presents
follows the row number and goes to `State.input`. -/

namespace Sys2Proof

/-- Why the decoder refuses a record. -/
inductive Reject where
  /-- the record is shorter or longer than its class asks for -/
  | badLength
  /-- the class byte, or the row number of an event, names nothing -/
  | badClass
  /-- an opcode that R245 to R248 reserve -/
  | reservedOpcode
  /-- a bit that the encoding reserves is set (R7) -/
  | reservedBits
  deriving DecidableEq, Repr

/-- The `n` bytes of a number, least significant first (R6). -/
def leBytes : Nat → Nat → List Byte
  | 0, _ => []
  | n + 1, x => BitVec.ofNat 8 x :: leBytes n (x / 256)

/-- The number that a little-endian byte string holds (R6). -/
def leNat : List Byte → Nat
  | [] => 0
  | b :: t => b.toNat + 256 * leNat t

/-! ## CE stage slots (R224, R245) -/

/-- The constructor that opcode `opc` of the CE space names, or none for a reserved one (R245). -/
def stageInstr (opc : BitVec 8) (st : Stage) : Option Instr :=
  match opc.toNat with
  | 0x00 => some (.nop st)
  | 0x01 => some (.mov st)
  | 0x02 => some (.movi st)
  | 0x03 => some (.sel st)
  | 0x08 => some (.add st)
  | 0x09 => some (.sub st)
  | 0x0A => some (.neg st)
  | 0x0B => some (.abs st)
  | 0x0C => some (.min st)
  | 0x0D => some (.max st)
  | 0x0E => some (.minu st)
  | 0x0F => some (.maxu st)
  | 0x10 => some (.mul st)
  | 0x11 => some (.mulh st)
  | 0x12 => some (.mulhu st)
  | 0x13 => some (.mad st)
  | 0x14 => some (.adds st)
  | 0x15 => some (.subs st)
  | 0x16 => some (.addus st)
  | 0x17 => some (.subus st)
  | 0x18 => some (.lea st)
  | 0x19 => some (.add2 st)
  | 0x1A => some (.sub2 st)
  | 0x1B => some (.add4 st)
  | 0x1C => some (.sub4 st)
  | 0x1D => some (.dot4 st)
  | 0x1E => some (.dot4u st)
  | 0x1F => some (.dot8 st)
  | 0x20 => some (.and st)
  | 0x21 => some (.or st)
  | 0x22 => some (.xor st)
  | 0x23 => some (.andn st)
  | 0x24 => some (.shl st)
  | 0x25 => some (.shr st)
  | 0x26 => some (.sar st)
  | 0x27 => some (.rol st)
  | 0x28 => some (.clz st)
  | 0x29 => some (.popc st)
  | 0x2A => some (.brev st)
  | 0x2B => some (.bfx st)
  | 0x2C => some (.bfxs st)
  | 0x2D => some (.bfi st)
  | 0x2E => some (.permb st)
  | 0x2F => some (.bswap st)
  | 0x30 => some (.ceq st)
  | 0x31 => some (.cne st)
  | 0x32 => some (.clt st)
  | 0x33 => some (.cle st)
  | 0x34 => some (.cltu st)
  | 0x35 => some (.cleu st)
  | 0x36 => some (.ctst st)
  | 0x40 => some (.fadd st)
  | 0x41 => some (.fsub st)
  | 0x42 => some (.fmul st)
  | 0x43 => some (.fma st)
  | 0x44 => some (.fms st)
  | 0x45 => some (.fnma st)
  | 0x46 => some (.fmin st)
  | 0x47 => some (.fmax st)
  | 0x48 => some (.fabs st)
  | 0x49 => some (.fneg st)
  | 0x4A => some (.fceq st)
  | 0x4B => some (.fclt st)
  | 0x4C => some (.fcle st)
  | 0x4D => some (.fcun st)
  | 0x4E => some (.fclass st)
  | 0x4F => some (.fscale st)
  | 0x50 => some (.frcp st)
  | 0x51 => some (.frsq st)
  | 0x52 => some (.fexp2 st)
  | 0x53 => some (.flog2 st)
  | 0x54 => some (.frnd st)
  | 0x55 => some (.f2i st)
  | 0x56 => some (.f2u st)
  | 0x57 => some (.i2f st)
  | 0x58 => some (.u2f st)
  | 0x59 => some (.fcps st)
  | 0x60 => some (.hadd2 st)
  | 0x61 => some (.hmul2 st)
  | 0x62 => some (.hfma2 st)
  | 0x63 => some (.hmin2 st)
  | 0x64 => some (.hmax2 st)
  | 0x65 => some (.cvth st)
  | 0x66 => some (.cvtlo st)
  | 0x67 => some (.cvthi st)
  | 0x68 => some (.nq8 st)
  | 0x69 => some (.nq4 st)
  | 0x6A => some (.ndq8 st)
  | 0x6B => some (.ndq4 st)
  | 0x6C => some (.ndot4 st)
  | 0x6D => some (.ndot8 st)
  | 0x6E => some (.nscl st)
  | 0x6F => some (.naps st)
  | 0x70 => some (.nblk st)
  | 0x71 => some (.nsetd st)
  | 0x80 => some (.shuf st)
  | 0x81 => some (.lrot st)
  | 0x82 => some (.bcast st)
  | 0x83 => some (.xbf st)
  | 0x84 => some (.rsum st)
  | 0x85 => some (.rmax st)
  | 0x86 => some (.rmin st)
  | 0x87 => some (.rsumi st)
  | 0x88 => some (.scani st)
  | 0x89 => some (.fscan st)
  | 0x8A => some (.lcomp st)
  | 0x8B => some (.packb st)
  | 0xA0 => some (.trap st)
  | 0xA1 => some (.fence st)
  | 0xA2 => some (.cmd st)
  | 0xA3 => some (.fork st)
  | 0xA4 => some (.rdv st)
  | 0xA5 => some (.waitc st)
  | 0xA6 => some (.groupinc st)
  | 0xA7 => some (.sethyp st)
  | 0xA8 => some (.bind st)
  | 0xA9 => some (.unbind st)
  | 0xAA => some (.signal st)
  | 0xAB => some (.time st)
  | 0xAC => some (.rdsys st)
  | 0xAD => some (.wrsys st)
  | 0xAE => some (.brk st)
  | _ => none

/-- Read the fields of a 36-bit stage slot (R224). -/
def decodeSlot (site : BitVec 12) (task slot : BitVec 3) (w : BitVec 36) : Except Reject Instr :=
  match stageInstr (bits w 28 8)
      ⟨site, task, slot, bits w 22 6, bits w 16 6, bits w 10 6, bits w 7 3, bits w 3 4, bits w 0 3⟩ with
  | some i => .ok i
  | none => .error .reservedOpcode

/-- The opcode and the slot fields of a stage operation. -/
def stageOf : Instr → Option (BitVec 8 × Stage)
  | .nop st => some (0x00#8, st)
  | .mov st => some (0x01#8, st)
  | .movi st => some (0x02#8, st)
  | .sel st => some (0x03#8, st)
  | .add st => some (0x08#8, st)
  | .sub st => some (0x09#8, st)
  | .neg st => some (0x0A#8, st)
  | .abs st => some (0x0B#8, st)
  | .min st => some (0x0C#8, st)
  | .max st => some (0x0D#8, st)
  | .minu st => some (0x0E#8, st)
  | .maxu st => some (0x0F#8, st)
  | .mul st => some (0x10#8, st)
  | .mulh st => some (0x11#8, st)
  | .mulhu st => some (0x12#8, st)
  | .mad st => some (0x13#8, st)
  | .adds st => some (0x14#8, st)
  | .subs st => some (0x15#8, st)
  | .addus st => some (0x16#8, st)
  | .subus st => some (0x17#8, st)
  | .lea st => some (0x18#8, st)
  | .add2 st => some (0x19#8, st)
  | .sub2 st => some (0x1A#8, st)
  | .add4 st => some (0x1B#8, st)
  | .sub4 st => some (0x1C#8, st)
  | .dot4 st => some (0x1D#8, st)
  | .dot4u st => some (0x1E#8, st)
  | .dot8 st => some (0x1F#8, st)
  | .and st => some (0x20#8, st)
  | .or st => some (0x21#8, st)
  | .xor st => some (0x22#8, st)
  | .andn st => some (0x23#8, st)
  | .shl st => some (0x24#8, st)
  | .shr st => some (0x25#8, st)
  | .sar st => some (0x26#8, st)
  | .rol st => some (0x27#8, st)
  | .clz st => some (0x28#8, st)
  | .popc st => some (0x29#8, st)
  | .brev st => some (0x2A#8, st)
  | .bfx st => some (0x2B#8, st)
  | .bfxs st => some (0x2C#8, st)
  | .bfi st => some (0x2D#8, st)
  | .permb st => some (0x2E#8, st)
  | .bswap st => some (0x2F#8, st)
  | .ceq st => some (0x30#8, st)
  | .cne st => some (0x31#8, st)
  | .clt st => some (0x32#8, st)
  | .cle st => some (0x33#8, st)
  | .cltu st => some (0x34#8, st)
  | .cleu st => some (0x35#8, st)
  | .ctst st => some (0x36#8, st)
  | .fadd st => some (0x40#8, st)
  | .fsub st => some (0x41#8, st)
  | .fmul st => some (0x42#8, st)
  | .fma st => some (0x43#8, st)
  | .fms st => some (0x44#8, st)
  | .fnma st => some (0x45#8, st)
  | .fmin st => some (0x46#8, st)
  | .fmax st => some (0x47#8, st)
  | .fabs st => some (0x48#8, st)
  | .fneg st => some (0x49#8, st)
  | .fcps st => some (0x59#8, st)
  | .fceq st => some (0x4A#8, st)
  | .fclt st => some (0x4B#8, st)
  | .fcle st => some (0x4C#8, st)
  | .fcun st => some (0x4D#8, st)
  | .fclass st => some (0x4E#8, st)
  | .fscale st => some (0x4F#8, st)
  | .frcp st => some (0x50#8, st)
  | .frsq st => some (0x51#8, st)
  | .fexp2 st => some (0x52#8, st)
  | .flog2 st => some (0x53#8, st)
  | .frnd st => some (0x54#8, st)
  | .f2i st => some (0x55#8, st)
  | .f2u st => some (0x56#8, st)
  | .i2f st => some (0x57#8, st)
  | .u2f st => some (0x58#8, st)
  | .hadd2 st => some (0x60#8, st)
  | .hmul2 st => some (0x61#8, st)
  | .hfma2 st => some (0x62#8, st)
  | .hmin2 st => some (0x63#8, st)
  | .hmax2 st => some (0x64#8, st)
  | .cvth st => some (0x65#8, st)
  | .cvtlo st => some (0x66#8, st)
  | .cvthi st => some (0x67#8, st)
  | .nq8 st => some (0x68#8, st)
  | .nq4 st => some (0x69#8, st)
  | .ndq8 st => some (0x6A#8, st)
  | .ndq4 st => some (0x6B#8, st)
  | .ndot4 st => some (0x6C#8, st)
  | .ndot8 st => some (0x6D#8, st)
  | .nscl st => some (0x6E#8, st)
  | .naps st => some (0x6F#8, st)
  | .nblk st => some (0x70#8, st)
  | .nsetd st => some (0x71#8, st)
  | .shuf st => some (0x80#8, st)
  | .lrot st => some (0x81#8, st)
  | .bcast st => some (0x82#8, st)
  | .xbf st => some (0x83#8, st)
  | .rsum st => some (0x84#8, st)
  | .rmax st => some (0x85#8, st)
  | .rmin st => some (0x86#8, st)
  | .rsumi st => some (0x87#8, st)
  | .scani st => some (0x88#8, st)
  | .fscan st => some (0x89#8, st)
  | .lcomp st => some (0x8A#8, st)
  | .packb st => some (0x8B#8, st)
  | .trap st => some (0xA0#8, st)
  | .fence st => some (0xA1#8, st)
  | .cmd st => some (0xA2#8, st)
  | .fork st => some (0xA3#8, st)
  | .rdv st => some (0xA4#8, st)
  | .waitc st => some (0xA5#8, st)
  | .groupinc st => some (0xA6#8, st)
  | .sethyp st => some (0xA7#8, st)
  | .bind st => some (0xA8#8, st)
  | .unbind st => some (0xA9#8, st)
  | .signal st => some (0xAA#8, st)
  | .time st => some (0xAB#8, st)
  | .rdsys st => some (0xAC#8, st)
  | .wrsys st => some (0xAD#8, st)
  | .brk st => some (0xAE#8, st)
  | _ => none

/-- The 36-bit word of a stage slot (R224). -/
def slotWord (opc : BitVec 8) (st : Stage) : BitVec 36 :=
  opc ++ st.a ++ st.b ++ st.c ++ st.out ++ st.pred ++ st.mod

/-! ## MT ports (R231, R246) -/

/-- The constructor that a port opcode names (R246). -/
def portInstr (opc : BitVec 8) (loc : PortAt) (d : PortDesc) : Option Instr :=
  match opc.toNat with
  | 0x01 => some (.ld loc d)
  | 0x02 => some (.ldro loc d)
  | 0x03 => some (.st loc d)
  | 0x04 => some (.stm loc d)
  | 0x05 => some (.spld loc d)
  | 0x06 => some (.spst loc d)
  | 0x07 => some (.spadd loc d)
  | 0x08 => some (.atadd loc d)
  | 0x09 => some (.atfadd loc d)
  | 0x0A => some (.atmin loc d)
  | 0x0B => some (.atmax loc d)
  | 0x0C => some (.atand loc d)
  | 0x0D => some (.ator loc d)
  | 0x0E => some (.atxor loc d)
  | 0x0F => some (.atxchg loc d)
  | 0x10 => some (.atcas loc d)
  | 0x11 => some (.gath loc d)
  | 0x12 => some (.scat loc d)
  | 0x13 => some (.scatadd loc d)
  | 0x14 => some (.syncset loc d)
  | 0x15 => some (.syncw loc d)
  | 0x16 => some (.pref loc d)
  | 0x17 => some (.stfl loc d)
  | 0x18 => some (.stinv loc d)
  | _ => none

/-- Read a 64-bit port descriptor (R231). -/
def decodePort (loc : PortAt) (w : BitVec 64) : Except Reject Instr :=
  match portInstr (bits w 56 8) loc ⟨bits w 53 3, bits w 50 3, bits w 48 2, bits w 0 48⟩ with
  | some i => .ok i
  | none => .error .reservedOpcode

/-- The opcode, place and fields of a port operation. -/
def portOf : Instr → Option (BitVec 8 × PortAt × PortDesc)
  | .ld loc d => some (0x01#8, loc, d)
  | .ldro loc d => some (0x02#8, loc, d)
  | .st loc d => some (0x03#8, loc, d)
  | .stm loc d => some (0x04#8, loc, d)
  | .spld loc d => some (0x05#8, loc, d)
  | .spst loc d => some (0x06#8, loc, d)
  | .spadd loc d => some (0x07#8, loc, d)
  | .atadd loc d => some (0x08#8, loc, d)
  | .atfadd loc d => some (0x09#8, loc, d)
  | .atmin loc d => some (0x0A#8, loc, d)
  | .atmax loc d => some (0x0B#8, loc, d)
  | .atand loc d => some (0x0C#8, loc, d)
  | .ator loc d => some (0x0D#8, loc, d)
  | .atxor loc d => some (0x0E#8, loc, d)
  | .atxchg loc d => some (0x0F#8, loc, d)
  | .atcas loc d => some (0x10#8, loc, d)
  | .gath loc d => some (0x11#8, loc, d)
  | .scat loc d => some (0x12#8, loc, d)
  | .scatadd loc d => some (0x13#8, loc, d)
  | .syncset loc d => some (0x14#8, loc, d)
  | .syncw loc d => some (0x15#8, loc, d)
  | .pref loc d => some (0x16#8, loc, d)
  | .stfl loc d => some (0x17#8, loc, d)
  | .stinv loc d => some (0x18#8, loc, d)
  | _ => none

/-- The 64-bit port descriptor (R231). -/
def portWord (opc : BitVec 8) (d : PortDesc) : BitVec 64 := opc ++ d.lvl ++ d.hint ++ d.asrc ++ d.oparg

/-! ## AG words (R234, R330) -/

/-- The bits of operand field [57:0] that an AG word names (R330). -/
def agNamed (opc : BitVec 6) : BitVec 58 :=
  match opc.toNat with
  | 0x01 => 0x3FFFFFFFFFFFFFF#58
  | 0x02 => 0x380000000000000#58
  | 0x03 => 0xFFFFFFFFFFFFFF#58
  | 0x04 => 0xFFFFFFFFFFFF#58
  | 0x05 => 0x3F80000FFFFFFFF#58
  | 0x06 => 0x3FFFFFFFFFFFFFF#58
  | 0x07 => 0xFFFFFFFFFFFF#58
  | 0x08 => 0x1FFFF#58
  | 0x09 => 0x3800000FFFFFFFF#58
  | 0x0A => 0x1#58
  | _ => 0#58

/-- The constructor that an AG opcode names, with the fields of its word (R330). -/
def agInstr (opc : BitVec 6) (loc : AgAt) (w : BitVec 64) : Option Instr :=
  match opc.toNat with
  | 0x01 => some (.aloop loc (bits w 55 3) (bits w 30 25) (bits w 0 30))
  | 0x02 => some (.aend loc (bits w 55 3))
  | 0x03 => some (.abase loc (bits w 0 56))
  | 0x04 => some (.aoff loc (bits w 0 48))
  | 0x05 => some (.aidx loc (bits w 52 6) (bits w 51 1) (bits w 0 32))
  | 0x06 => some (.agrp loc (bits w 52 6) (bits w 51 1) (bits w 48 3) (bits w 36 12) (bits w 0 36))
  | 0x07 => some (.aemit loc (bits w 0 48))
  | 0x08 => some (.acred loc (bits w 16 1) (bits w 0 16))
  | 0x09 => some (.amask loc (bits w 55 3) (bits w 16 16) (bits w 0 16))
  | 0x0A => some (.ahalt loc (bits w 0 1))
  | _ => none

/-- Read a 64-bit AG word (R234): the empty word 0x00 and the reserved opcodes name no operation. -/
def decodeAg (loc : AgAt) (w : BitVec 64) : Except Reject Instr :=
  match agInstr (bits w 58 6) loc w with
  | none => .error .reservedOpcode
  | some i => if bits w 0 58 &&& ~~~(agNamed (bits w 58 6)) = 0#58 then .ok i else .error .reservedBits

/-- The place and the 64-bit word of an AG operation (R330). -/
def agOf : Instr → Option (AgAt × BitVec 64)
  | .aloop loc lvl count stride => some (loc, 0x01#6 ++ lvl ++ count ++ stride)
  | .aend loc lvl => some (loc, 0x02#6 ++ lvl ++ 0#55)
  | .abase loc base => some (loc, 0x03#6 ++ 0#2 ++ base)
  | .aoff loc delta => some (loc, 0x04#6 ++ 0#10 ++ delta)
  | .aidx loc exit isgn istr => some (loc, 0x05#6 ++ exit ++ isgn ++ 0#19 ++ istr)
  | .agrp loc exit tv task tsite gstr => some (loc, 0x06#6 ++ exit ++ tv ++ task ++ tsite ++ gstr)
  | .aemit loc disp => some (loc, 0x07#6 ++ 0#10 ++ disp)
  | .acred loc en cadd => some (loc, 0x08#6 ++ 0#41 ++ en ++ cadd)
  | .amask loc lvl tmask mask => some (loc, 0x09#6 ++ lvl ++ 0#23 ++ tmask ++ mask)
  | .ahalt loc eos => some (loc, 0x0A#6 ++ 0#57 ++ eos)
  | _ => none

/-! ## Engine command words (R243, R248, R339) -/

/-- The constructor that an engine opcode names; HYPRES is CONFIRM or REFUTE by its bit REF (R361). -/
def engInstr (opc : BitVec 8) (eng : EngId) (c : Cmd) : Option Instr :=
  match opc.toNat with
  | 0x10 => some (.mxldb eng c)
  | 0x11 => some (.mxmul eng c)
  | 0x12 => some (.mxmulo eng c)
  | 0x13 => some (.mxdrn eng c)
  | 0x14 => some (.mxzero eng c)
  | 0x15 => some (.mxver eng c)
  | 0x20 => some (.cpcopy eng c)
  | 0x21 => some (.cpfill eng c)
  | 0x22 => some (.cpchain eng c)
  | 0x23 => some (.cpput eng c)
  | 0x24 => some (.cpget eng c)
  | 0x25 => some (.cpred eng c)
  | 0x26 => some (.cpbar eng c)
  | 0x30 => some (.tnew eng c)
  | 0x31 => some (.tapp eng c)
  | 0x32 => some (.tseal eng c)
  | 0x33 => some (.tatt eng c)
  | 0x34 => some (.tfork eng c)
  | 0x35 => some (.tevict eng c)
  | 0x36 => some (.tfree eng c)
  | 0x37 => some (.tstat eng c)
  | 0x40 => some (.hfam eng c)
  | 0x41 => some (.hins eng c)
  | 0x42 => some (.hdel eng c)
  | 0x43 => some (.hprobe eng c)
  | 0x44 => some (.hreh eng c)
  | 0x45 => some (.hstat eng c)
  | 0x50 => some (.hypnew eng c)
  | 0x51 => some (if bitAt c.ops 8 then .refute eng c else .confirm eng c)
  | 0x52 => some (.hypqry eng c)
  | 0x60 => some (.tierhint eng c)
  | 0x61 => some (.tierpin eng c)
  | _ => none

/-- Read a 128-bit engine command word (R339). -/
def decodeEng (eng : EngId) (w : BitVec 128) : Except Reject Instr :=
  match engInstr (bits w 120 8) eng ⟨bits w 117 3, bits w 116 1, bits w 104 12, bits w 88 16, bits w 0 88⟩ with
  | some i => .ok i
  | none => .error .reservedOpcode

/-- The opcode, engine and fields of an engine command. -/
def engOf : Instr → Option (BitVec 8 × EngId × Cmd)
  | .mxldb eng c => some (0x10#8, eng, c)
  | .mxmul eng c => some (0x11#8, eng, c)
  | .mxmulo eng c => some (0x12#8, eng, c)
  | .mxdrn eng c => some (0x13#8, eng, c)
  | .mxzero eng c => some (0x14#8, eng, c)
  | .mxver eng c => some (0x15#8, eng, c)
  | .cpcopy eng c => some (0x20#8, eng, c)
  | .cpfill eng c => some (0x21#8, eng, c)
  | .cpchain eng c => some (0x22#8, eng, c)
  | .cpput eng c => some (0x23#8, eng, c)
  | .cpget eng c => some (0x24#8, eng, c)
  | .cpred eng c => some (0x25#8, eng, c)
  | .cpbar eng c => some (0x26#8, eng, c)
  | .tnew eng c => some (0x30#8, eng, c)
  | .tapp eng c => some (0x31#8, eng, c)
  | .tseal eng c => some (0x32#8, eng, c)
  | .tatt eng c => some (0x33#8, eng, c)
  | .tfork eng c => some (0x34#8, eng, c)
  | .tevict eng c => some (0x35#8, eng, c)
  | .tfree eng c => some (0x36#8, eng, c)
  | .tstat eng c => some (0x37#8, eng, c)
  | .hfam eng c => some (0x40#8, eng, c)
  | .hins eng c => some (0x41#8, eng, c)
  | .hdel eng c => some (0x42#8, eng, c)
  | .hprobe eng c => some (0x43#8, eng, c)
  | .hreh eng c => some (0x44#8, eng, c)
  | .hstat eng c => some (0x45#8, eng, c)
  | .hypnew eng c => some (0x50#8, eng, c)
  | .confirm eng c => some (0x51#8, eng, c)
  | .refute eng c => some (0x51#8, eng, c)
  | .hypqry eng c => some (0x52#8, eng, c)
  | .tierhint eng c => some (0x60#8, eng, c)
  | .tierpin eng c => some (0x61#8, eng, c)
  | _ => none

/-- The 128-bit command word (R339). -/
def engWord (opc : BitVec 8) (c : Cmd) : BitVec 128 := opc ++ c.lvl ++ c.sj ++ c.ssite ++ c.soff ++ c.ops

/-! ## Router operators (R239, R247) -/

/-- The constructor that an operator code names (R247). -/
def opInstr (opc : BitVec 4) (loc : OpAt) (c : OpCfg) : Option Instr :=
  match opc.toNat with
  | 1 => some (.steer loc c)
  | 2 => some (.merge loc c)
  | 3 => some (.carry loc c)
  | 4 => some (.dup loc c)
  | 5 => some (.widen loc c)
  | 6 => some (.replay loc c)
  | 7 => some (.rpart loc c)
  | 8 => some (.drop loc c)
  | _ => none

/-- Read a 256-bit operator slot frame (R239). -/
def decodeOp (loc : OpAt) (w : BitVec 256) : Except Reject Instr :=
  match opInstr (bits w 0 4) loc ⟨bits w 4 4, bits w 8 5, bits w 32 128, bits w 160 96⟩ with
  | none => .error .reservedOpcode
  | some i => if bits w 13 19 = 0#19 then .ok i else .error .reservedBits

/-- The code, place and fields of an operator. -/
def opOf : Instr → Option (BitVec 4 × OpAt × OpCfg)
  | .steer loc c => some (1#4, loc, c)
  | .merge loc c => some (2#4, loc, c)
  | .carry loc c => some (3#4, loc, c)
  | .dup loc c => some (4#4, loc, c)
  | .widen loc c => some (5#4, loc, c)
  | .replay loc c => some (6#4, loc, c)
  | .rpart loc c => some (7#4, loc, c)
  | .drop loc c => some (8#4, loc, c)
  | _ => none

/-- The 256-bit operator slot frame (R239). -/
def opWord (opc : BitVec 4) (c : OpCfg) : BitVec 256 :=
  c.opt ++ c.outs ++ 0#19 ++ c.nout ++ c.nin ++ opc

/-! ## Events (the model's own record, log 2) -/

/-- The widths in bits of the operands of the event in row `row` of the opcode table, or none for another row. -/
def eventWidths (row : Nat) : Option (List Nat) :=
  match row with
  | 4 => some [32, 8, 8, 32]
  | 5 => some [32]
  | 7 => some [32]
  | 8 => some [32]
  | 9 => some [12, 2]
  | 10 => some [12, 4]
  | 11 => some [12, 3]
  | 12 => some [12]
  | 122 => some [12, 3]
  | 136 => some [12, 3]
  | 142 => some [12, 2]
  | 144 => some [12, 2]
  | 147 => some [12, 4]
  | 148 => some [12, 2]
  | 173 => some [12, 3]
  | 174 => some [12, 3]
  | 175 => some [12]
  | 182 => some [32]
  | 190 => some [13]
  | 191 => some [12]
  | 192 => some [13]
  | 193 => some [12]
  | 228 => some [8]
  | 229 => some [16, 16]
  | 230 => some [1]
  | 231 => some [32]
  | 232 => some [32]
  | 233 => some [32]
  | 234 => some [32]
  | 235 => some [32]
  | 236 => some [32]
  | 237 => some [12, 3]
  | 238 => some [32]
  | 239 => some [32]
  | 240 => some [32, 8, 8]
  | 241 => some [12, 2, 1]
  | 242 => some [2]
  | 243 => some [2]
  | 244 => some [2]
  | 245 => some [2]
  | 246 => some [2]
  | 248 => some [2]
  | 252 => some [12, 3]
  | 282 => some [13, 3]
  | 293 => some [12, 3]
  | 294 => some [32]
  | _ => none

/-- The bytes an operand of `w` bits takes. -/
def byteLen (w : Nat) : Nat := (w + 7) / 8

/-- Split a byte string into operands of the given widths; each must fit its width, and nothing may be left over. -/
def splitFields : List Nat → List Byte → Except Reject (List Nat)
  | [], [] => .ok []
  | [], _ :: _ => .error .badLength
  | w :: ws, bs =>
    let n := byteLen w
    if bs.length < n then .error .badLength
    else
      let v := leNat (bs.take n)
      if 2 ^ w ≤ v then .error .reservedBits
      else
        match splitFields ws (bs.drop n) with
        | .ok vs => .ok (v :: vs)
        | .error e => .error e

/-- The event of a row with its operands. -/
def eventInstr (row : Nat) (vs : List Nat) : Option Instr :=
  match row, vs with
  | 4, [node, dbx, dby, onto] => some (.dispatch (.ofNat 32 node) (.ofNat 8 dbx) (.ofNat 8 dby) (.ofNat 32 onto))
  | 5, [node] => some (.promotion (.ofNat 32 node))
  | 7, [node] => some (.residencyTimeout (.ofNat 32 node))
  | 8, [inst] => some (.frameWrite (.ofNat 32 inst))
  | 9, [site, sub] => some (.bankFlip (.ofNat 12 site) (.ofNat 2 sub))
  | 10, [site, out] => some (.linkTransfer (.ofNat 12 site) (.ofNat 4 out))
  | 11, [site, task] => some (.taskActivation (.ofNat 12 site) (.ofNat 3 task))
  | 12, [site] => some (.bundleFire (.ofNat 12 site))
  | 122, [site, task] => some (.fenceComplete (.ofNat 12 site) (.ofNat 3 task))
  | 136, [site, task] => some (.orphanDiversion (.ofNat 12 site) (.ofNat 3 task))
  | 142, [site, slot] => some (.widenReleaseComplete (.ofNat 12 site) (.ofNat 2 slot))
  | 144, [site, slot] => some (.replayLapTwo (.ofNat 12 site) (.ofNat 2 slot))
  | 147, [site, endp] => some (.freedNotice (.ofNat 12 site) (.ofNat 4 endp))
  | 148, [site, sub] => some (.freedCredit (.ofNat 12 site) (.ofNat 2 sub))
  | 173, [site, port] => some (.replySend (.ofNat 12 site) (.ofNat 3 port))
  | 174, [site, port] => some (.portControlToken (.ofNat 12 site) (.ofNat 3 port))
  | 175, [site] => some (.syncAdd (.ofNat 12 site))
  | 182, [node] => some (.agrpEndOfStream (.ofNat 32 node))
  | 190, [eng] => some (.jobStart (.ofNat 13 eng))
  | 191, [site] => some (.engineCmdWord (.ofNat 12 site))
  | 192, [eng] => some (.jobEnd (.ofNat 13 eng))
  | 193, [site] => some (.mxCommandStart (.ofNat 12 site))
  | 228, [ctx] => some (.overlayEnlarge (.ofNat 8 ctx))
  | 229, [outgoing, incoming] => some (.tenantSwitch (.ofNat 16 outgoing) (.ofNat 16 incoming))
  | 230, [ok] => some (.pageMoveComplete (.ofNat 1 ok))
  | 231, [inst] => some (.detectionWave (.ofNat 32 inst))
  | 232, [node] => some (.nodeComplete (.ofNat 32 node))
  | 233, [node] => some (.budgetExhausted (.ofNat 32 node))
  | 234, [inst] => some (.watchdogFire (.ofNat 32 inst))
  | 235, [inst] => some (.sliceExpiry (.ofNat 32 inst))
  | 236, [inst] => some (.preempt (.ofNat 32 inst))
  | 237, [site, sub] => some (.mark (.ofNat 12 site) (.ofNat 3 sub))
  | 238, [inst] => some (.markerPhaseEnd (.ofNat 32 inst))
  | 239, [inst] => some (.freeze (.ofNat 32 inst))
  | 240, [inst, dbx, dby] => some (.restore (.ofNat 32 inst) (.ofNat 8 dbx) (.ofNat 8 dby))
  | 241, [site, sub, ok] => some (.ownerChangeZeroing (.ofNat 12 site) (.ofNat 2 sub) (.ofNat 1 ok))
  | 242, [die] => some (.heartbeat (.ofNat 2 die))
  | 243, [die] => some (.dieLost (.ofNat 2 die))
  | 244, [die] => some (.faultRecord (.ofNat 2 die))
  | 245, [die] => some (.fault (.ofNat 2 die))
  | 246, [die] => some (.fpop (.ofNat 2 die))
  | 248, [die] => some (.repairToken (.ofNat 2 die))
  | 252, [site, task] => some (.kernelBudget (.ofNat 12 site) (.ofNat 3 task))
  | 282, [eng, port] => some (.remoteRequestIssue (.ofNat 13 eng) (.ofNat 3 port))
  | 293, [site, port] => some (.memoryReply (.ofNat 12 site) (.ofNat 3 port))
  | 294, [inst] => some (.sramSwapComplete (.ofNat 32 inst))
  | _, _ => none

/-- Read an event record: the row number in two bytes, then the operands. -/
def decodeEvent (row : Nat) (bs : List Byte) : Except Reject Instr :=
  match eventWidths row with
  | none => .error .badClass
  | some ws =>
    match splitFields ws bs with
    | .error e => .error e
    | .ok vs =>
      match eventInstr row vs with
      | some i => .ok i
      | none => .error .badClass

/-- The row and the operands, as (width, value), of an event. -/
def eventOf : Instr → Option (Nat × List (Nat × Nat))
  | .dispatch node dbx dby onto => some (4, [(32, node.toNat), (8, dbx.toNat), (8, dby.toNat), (32, onto.toNat)])
  | .promotion node => some (5, [(32, node.toNat)])
  | .residencyTimeout node => some (7, [(32, node.toNat)])
  | .frameWrite inst => some (8, [(32, inst.toNat)])
  | .bankFlip site sub => some (9, [(12, site.toNat), (2, sub.toNat)])
  | .linkTransfer site out => some (10, [(12, site.toNat), (4, out.toNat)])
  | .taskActivation site task => some (11, [(12, site.toNat), (3, task.toNat)])
  | .bundleFire site => some (12, [(12, site.toNat)])
  | .fenceComplete site task => some (122, [(12, site.toNat), (3, task.toNat)])
  | .orphanDiversion site task => some (136, [(12, site.toNat), (3, task.toNat)])
  | .widenReleaseComplete site slot => some (142, [(12, site.toNat), (2, slot.toNat)])
  | .replayLapTwo site slot => some (144, [(12, site.toNat), (2, slot.toNat)])
  | .freedNotice site endp => some (147, [(12, site.toNat), (4, endp.toNat)])
  | .freedCredit site sub => some (148, [(12, site.toNat), (2, sub.toNat)])
  | .replySend site port => some (173, [(12, site.toNat), (3, port.toNat)])
  | .portControlToken site port => some (174, [(12, site.toNat), (3, port.toNat)])
  | .syncAdd site => some (175, [(12, site.toNat)])
  | .agrpEndOfStream node => some (182, [(32, node.toNat)])
  | .jobStart eng => some (190, [(13, eng.toNat)])
  | .engineCmdWord site => some (191, [(12, site.toNat)])
  | .jobEnd eng => some (192, [(13, eng.toNat)])
  | .mxCommandStart site => some (193, [(12, site.toNat)])
  | .overlayEnlarge ctx => some (228, [(8, ctx.toNat)])
  | .tenantSwitch outgoing incoming => some (229, [(16, outgoing.toNat), (16, incoming.toNat)])
  | .pageMoveComplete ok => some (230, [(1, ok.toNat)])
  | .detectionWave inst => some (231, [(32, inst.toNat)])
  | .nodeComplete node => some (232, [(32, node.toNat)])
  | .budgetExhausted node => some (233, [(32, node.toNat)])
  | .watchdogFire inst => some (234, [(32, inst.toNat)])
  | .sliceExpiry inst => some (235, [(32, inst.toNat)])
  | .preempt inst => some (236, [(32, inst.toNat)])
  | .mark site sub => some (237, [(12, site.toNat), (3, sub.toNat)])
  | .markerPhaseEnd inst => some (238, [(32, inst.toNat)])
  | .freeze inst => some (239, [(32, inst.toNat)])
  | .restore inst dbx dby => some (240, [(32, inst.toNat), (8, dbx.toNat), (8, dby.toNat)])
  | .ownerChangeZeroing site sub ok => some (241, [(12, site.toNat), (2, sub.toNat), (1, ok.toNat)])
  | .heartbeat die => some (242, [(2, die.toNat)])
  | .dieLost die => some (243, [(2, die.toNat)])
  | .faultRecord die => some (244, [(2, die.toNat)])
  | .fault die => some (245, [(2, die.toNat)])
  | .fpop die => some (246, [(2, die.toNat)])
  | .repairToken die => some (248, [(2, die.toNat)])
  | .kernelBudget site task => some (252, [(12, site.toNat), (3, task.toNat)])
  | .remoteRequestIssue eng port => some (282, [(13, eng.toNat), (3, port.toNat)])
  | .memoryReply site port => some (293, [(12, site.toNat), (3, port.toNat)])
  | .sramSwapComplete inst => some (294, [(32, inst.toNat)])
  | _ => none

/-- The step of a row that the outside starts; its operands are no part of the instruction (`State.input`). -/
def inputInstr (row : Nat) : Option Instr :=
  match row with
  | 0 => some .packageReset
  | 1 => some .powerLoss
  | 2 => some .launch
  | 3 => some .recordAccept
  | 6 => some .placementHold
  | 187 => some .pageWalk
  | 188 => some .atsTimeout
  | 189 => some .eccError
  | 207 => some .collectiveMessage
  | 247 => some .repair
  | 249 => some .escal
  | 250 => some .watch
  | 251 => some .respPoll
  | 253 => some .generationIteration
  | 254 => some .lstatClear
  | 255 => some .inval
  | 256 => some .invalidationComplete
  | 257 => some .invstatClear
  | 258 => some .cqtailClear
  | 259 => some .policy
  | 260 => some .pferrClear
  | 261 => some .registerWrite
  | 262 => some .faultring
  | 263 => some .pasid
  | 264 => some .watchdog
  | 265 => some .dbgattach
  | 266 => some .dbghalt
  | 267 => some .dbgresume
  | 268 => some .dbgdetach
  | 269 => some .watchset
  | 270 => some .rebuild
  | 271 => some .liferead
  | 272 => some .attest
  | 273 => some .atstimeout
  | 274 => some .nodeid
  | 275 => some .route
  | 276 => some .slots
  | 277 => some .rtimeout
  | 278 => some .t2pool
  | 279 => some .ovlres
  | 280 => some .ctxset
  | 281 => some .ctxread
  | 283 => some .slotCredit
  | 284 => some .remoteReply
  | 285 => some .farEndRequest
  | 286 => some .remoteTimeout
  | 287 => some .peerLost
  | 288 => some .flitReceive
  | 289 => some .nak
  | 290 => some .linkRetrain
  | 291 => some .snapshot
  | 292 => some .environmentSample
  | 295 => some .linkTrained
  | 296 => some .dieRejoin
  | 297 => some .tdispTransition
  | 298 => some .packageFault
  | 299 => some .configRecordUpdate
  | 300 => some .fwcmdReservedCode
  | _ => none

/-- The row of a step that the outside starts. -/
def inputRow : Instr → Option Nat
  | .packageReset => some 0
  | .powerLoss => some 1
  | .launch => some 2
  | .recordAccept => some 3
  | .placementHold => some 6
  | .pageWalk => some 187
  | .atsTimeout => some 188
  | .eccError => some 189
  | .collectiveMessage => some 207
  | .repair => some 247
  | .escal => some 249
  | .watch => some 250
  | .respPoll => some 251
  | .generationIteration => some 253
  | .lstatClear => some 254
  | .inval => some 255
  | .invalidationComplete => some 256
  | .invstatClear => some 257
  | .cqtailClear => some 258
  | .policy => some 259
  | .pferrClear => some 260
  | .registerWrite => some 261
  | .faultring => some 262
  | .pasid => some 263
  | .watchdog => some 264
  | .dbgattach => some 265
  | .dbghalt => some 266
  | .dbgresume => some 267
  | .dbgdetach => some 268
  | .watchset => some 269
  | .rebuild => some 270
  | .liferead => some 271
  | .attest => some 272
  | .atstimeout => some 273
  | .nodeid => some 274
  | .route => some 275
  | .slots => some 276
  | .rtimeout => some 277
  | .t2pool => some 278
  | .ovlres => some 279
  | .ctxset => some 280
  | .ctxread => some 281
  | .slotCredit => some 283
  | .remoteReply => some 284
  | .farEndRequest => some 285
  | .remoteTimeout => some 286
  | .peerLost => some 287
  | .flitReceive => some 288
  | .nak => some 289
  | .linkRetrain => some 290
  | .snapshot => some 291
  | .environmentSample => some 292
  | .linkTrained => some 295
  | .dieRejoin => some 296
  | .tdispTransition => some 297
  | .packageFault => some 298
  | .configRecordUpdate => some 299
  | .fwcmdReservedCode => some 300
  | _ => none

/-- The operand bytes of an event. -/
def fieldBytes (fs : List (Nat × Nat)) : List Byte := fs.flatMap fun f => leBytes (byteLen f.1) f.2

/-! ## Records -/

/-- Decode a record of bytes. Total on any bytes; what names no instruction is refused by name. -/
def decode : List Byte → Except Reject Instr
  | 1#8 :: bs =>
    match splitFields [12, 3, 3, 36] bs with
    | .ok [site, task, slot, w] => decodeSlot (.ofNat 12 site) (.ofNat 3 task) (.ofNat 3 slot) (.ofNat 36 w)
    | .ok _ => .error .badLength
    | .error e => .error e
  | 2#8 :: bs =>
    match splitFields [12, 1, 64] bs with
    | .ok [site, sub, w] => decodeAg ⟨.ofNat 12 site, .ofNat 1 sub⟩ (.ofNat 64 w)
    | .ok _ => .error .badLength
    | .error e => .error e
  | 3#8 :: bs =>
    match splitFields [12, 3, 64] bs with
    | .ok [site, port, w] => decodePort ⟨.ofNat 12 site, .ofNat 3 port⟩ (.ofNat 64 w)
    | .ok _ => .error .badLength
    | .error e => .error e
  | 4#8 :: bs =>
    match splitFields [13, 128] bs with
    | .ok [eng, w] => decodeEng (.ofNat 13 eng) (.ofNat 128 w)
    | .ok _ => .error .badLength
    | .error e => .error e
  | 5#8 :: bs =>
    match splitFields [12, 2, 256] bs with
    | .ok [site, slot, w] => decodeOp ⟨.ofNat 12 site, .ofNat 2 slot⟩ (.ofNat 256 w)
    | .ok _ => .error .badLength
    | .error e => .error e
  | 6#8 :: lo :: hi :: bs => decodeEvent (leNat [lo, hi]) bs
  | 7#8 :: lo :: hi :: _ =>
    match inputInstr (leNat [lo, hi]) with
    | some i => .ok i
    | none => .error .badClass
  | _ => .error .badClass

/-- The record of a stage slot word. -/
def slotRecord (site : BitVec 12) (task slot : BitVec 3) (w : BitVec 36) : List Byte :=
  1#8 :: fieldBytes [(12, site.toNat), (3, task.toNat), (3, slot.toNat), (36, w.toNat)]

/-- The record of an AG word. -/
def agRecord (loc : AgAt) (w : BitVec 64) : List Byte :=
  2#8 :: fieldBytes [(12, loc.site.toNat), (1, loc.sub.toNat), (64, w.toNat)]

/-- The record of a port descriptor. -/
def portRecord (loc : PortAt) (w : BitVec 64) : List Byte :=
  3#8 :: fieldBytes [(12, loc.site.toNat), (3, loc.port.toNat), (64, w.toNat)]

/-- The record of an engine command word. -/
def engRecord (eng : EngId) (w : BitVec 128) : List Byte :=
  4#8 :: fieldBytes [(13, eng.toNat), (128, w.toNat)]

/-- The record of an operator slot frame. -/
def opRecord (loc : OpAt) (w : BitVec 256) : List Byte :=
  5#8 :: fieldBytes [(12, loc.site.toNat), (2, loc.slot.toNat), (256, w.toNat)]

/-- The record of an instruction. -/
def encode (i : Instr) : List Byte :=
  match stageOf i with
  | some (opc, st) => slotRecord st.site st.task st.slot (slotWord opc st)
  | none =>
    match portOf i with
    | some (opc, loc, d) => portRecord loc (portWord opc d)
    | none =>
      match agOf i with
      | some (loc, w) => agRecord loc w
      | none =>
        match engOf i with
        | some (opc, eng, c) => engRecord eng (engWord opc c)
        | none =>
          match opOf i with
          | some (opc, loc, c) => opRecord loc (opWord opc c)
          | none =>
            match eventOf i with
            | some (row, fs) => 6#8 :: leBytes 2 row ++ fieldBytes fs
            | none =>
              match inputRow i with
              | some row => 7#8 :: leBytes 2 row
              | none => []

/-! ## The words of the opcode table -/

/-- The CE site at which a stage slot of the table is read; WRSYS stands at a CE of the Charon corner (R245). -/
def tableCe : BitVec 12 := 4#12

/-- The MT site at which a port descriptor, an AG word or an operator slot of the table is read. -/
def tableMt : BitVec 12 := 6#12

/-- The engine that takes the commands of an opcode's class: an MX, CP, STE or HPU site of die 0, the hypothesis controller
or the Apsis engine (R248, R13). -/
def tableEngine (opc : BitVec 8) : EngId :=
  match (bits opc 4 4).toNat with
  | 1 => 3#13
  | 2 => 103#13
  | 3 => 99#13
  | 4 => 227#13
  | 5 => 0x1000#13
  | _ => 0x1001#13

/-- The record of a word of the opcode table with `nbits` bits: a stage slot up to 40 bits, an AG word of 64, a port
descriptor with its binding or an engine command word of 128 (a port descriptor has its binding, 0, in the top byte), an
operator slot frame of 256. -/
def tableRecord (nbits w : Nat) : Option (List Byte) :=
  if nbits ≤ 40 then
    let slot := if (bits (BitVec.ofNat 36 w) 32 4).toNat = 10 then 5#3 else 0#3
    let site := if w / 2 ^ 28 = 0xAD then 0#12 else tableCe
    if w < 2 ^ 36 then some (slotRecord site 0#3 slot (.ofNat 36 w)) else none
  else if nbits ≤ 64 then some (agRecord ⟨tableMt, 0#1⟩ (.ofNat 64 w))
  else if nbits ≤ 128 then
    if w / 2 ^ 120 % 256 = 0 then some (portRecord ⟨tableMt, 0#3⟩ (.ofNat 64 w))
    else some (engRecord (tableEngine (.ofNat 8 (w / 2 ^ 120))) (.ofNat 128 w))
  else some (opRecord ⟨tableMt, 0#2⟩ (.ofNat 256 w))

/-- The instruction that the decoder reads from a word of the opcode table. -/
def decodeTableWord (nbits w : Nat) : Option Instr :=
  match tableRecord nbits w with
  | some bs =>
    match decode bs with
    | .ok i => some i
    | .error _ => none
  | none => none

end Sys2Proof
end

