-- ==== Sys2Proof/Machine/Parts.lean ====
section
/-! DEFINITION. The pieces of the machine's state: tokens and buffers, compute elements and their tasks, memory tiles with
ports, stash and address generators, engines and jobs, nodes and instances, the hub with its functions, links and lifetime
counts. Every piece is plain data. -/

namespace Sys2Proof.Machine

/-! ## Tokens and channel buffers -/

/-- A token (R64 to R66) with the hypothesis stamp that the fabric keeps beside it (R316, R409). A scalar token has its
payload in bits [31:0] and mask and descriptor 0. -/
structure Token where
  vec : Bool
  pay : Block
  mask : BitVec 16
  desc : BitVec 16
  /-- sideband bit C -/
  ctrl : Bool
  /-- sideband bit PSN -/
  psn : Bool
  hyp : BitVec 6
  refuted : Bool
  deriving DecidableEq, Repr

/-- One buffer of a channel: a router input's skid entries on a VC, an operator's input, or an endpoint (R55, R58). Each
entry stands with the first cycle in which it can be taken. `freed` entries were freed in cycle `freedAt`: ready is
registered, so they count as taken until the next cycle (R55). -/
structure Buf where
  q : List (Token × Nat)
  freed : Nat
  freedAt : Nat
  deriving DecidableEq, Repr

/-- The empty buffer. -/
def Buf.empty : Buf := ⟨[], 0, 0⟩

/-- A valid routing entry of one region (R238, R168): the instance and the entry's bits. -/
structure Route where
  inst : Nat
  ent : BitVec 16
  deriving DecidableEq, Repr

/-- WIDEN's release (R309). -/
inductive WidenSt where
  | idle
  | releasing
  /-- the release completed in this cycle -/
  | released (cyc : Nat)
  deriving DecidableEq, Repr

/-- The running state of a router operator (R305 to R311): the tokens that have fired but not yet crossed their output link,
by output; CARRY's pending INIT with its stamp; WIDEN's release; REPLAY's lap, count of recorded tokens, next to emit, the
stamp of the first EOS. -/
structure OpRun where
  outq : List (Nat × Token × Nat)
  initDue : Option (BitVec 6 × Bool)
  widen : WidenSt
  lap2 : Bool
  recorded : Nat
  emitted : Nat
  /-- the stamps of the recorded tokens, as their records hold them -/
  stamps : List (BitVec 6 × Bool)
  eosHyp : BitVec 6
  eosRef : Bool
  /-- records of the queue that cannot be used (R310) -/
  lost : List Nat
  /-- resolutions since the queue began (R163, R310): how many records stood in it, the id, and its parent, or none for a refuted id -/
  renames : List (Nat × BitVec 6 × Option (BitVec 6))
  /-- records whose page moves (R89): index and token -/
  late : List (Nat × Token)
  lastFire : Nat
  saved : Bool
  deriving DecidableEq, Repr

/-- An operator that has not fired. -/
def OpRun.empty : OpRun := ⟨[], none, .idle, false, 0, 0, [], 0#6, false, [], [], [], 0, false⟩

/-- A router's running state: the cycle after the last transfer of each output, and the round-robin pointer of each (R55,
R70). -/
structure OutRun where
  usedNext : Nat
  rr : Nat
  deriving DecidableEq, Repr

/-! ## Compute elements -/

/-- The states of a task (R45); `asleep` waits for its trigger, `trapped` is stopped by TRAP (R304). Waiting and Runnable are
read off the channels. -/
inductive TaskSt where
  | idle
  | running
  | asleep
  | trapped
  | done
  deriving DecidableEq, Repr

/-- What a firing has put on one output so far (R251, R290). -/
structure OutLatch where
  pay : Block
  mask : BitVec 16
  desc : BitVec 16
  /-- a control token from SIGNAL: argument and code -/
  sig : Option Word
  deriving DecidableEq, Repr

/-- The output of a firing that no stage has written (R290). -/
def OutLatch.empty : OutLatch := ⟨0#512, 0#16, 0x00FF#16, none⟩

/-- The scratch of the firing under way: outputs vo0–vo3 and so0, and what the accumulators hold at its end (R251). -/
structure Firing where
  outs : Vector OutLatch 5
  acc : Vector Block 2
  /-- a stage of the firing met a bad descriptor (R115) -/
  bd : Bool
  deriving DecidableEq, Repr

/-- A task of a CE (R44, R249, R299, R301). -/
structure Task where
  st : TaskSt
  pc : BitVec 7
  p : Vector Block 6
  f : Vector (BitVec 16) 6
  a : Vector Block 2
  lc : Vector Word 4
  cc : Vector Word 8
  /-- completions that have come in cycle `ccAt`, which that cycle's firing does not see (R295) -/
  ccNew : Vector Word 8
  ccAt : Nat
  aflags : Flags
  gen : Block
  hyp : BitVec 6
  group : Word
  trig : Option (BitVec 3)
  orph : Option (BitVec 7)
  /-- a FENCE of the last firing has not completed (R300) -/
  fence : Bool
  /-- the task's hypothesis was refuted and the task is to be diverted (R164) -/
  orphaned : Bool
  /-- a logit kernel's first firing on the row (R166) -/
  rowAt : Option Nat
  /-- the first firing on a row whose EOS has not reached the sampler (R422) -/
  rowOut : Option Nat
  /-- the row has aborted and the kernel's EOS is still to come (R422) -/
  rowAborted : Bool
  /-- the kernel has taken the aborted row's own EOS, so what stands at its input belongs to a later row (R422) -/
  rowTaken : Bool
  /-- a later row that came before the kernel's EOS is dropped at its input, up to its EOS (R422) -/
  rowDrop : Bool
  /-- stopped by TRAP (R304): the sequence number of its record, once the record has its ring slot (R371), and the state that
  the task takes when it resumes (R376) -/
  trapSeq : Option (BitVec 16)
  resume : TaskSt
  fire : Firing
  deriving DecidableEq, Repr

/-- A task that holds no state: all of R44 at 0. -/
def Task.empty : Task :=
  { st := .idle, pc := 0#7, p := Vector.replicate 6 0#512, f := Vector.replicate 6 0#16, a := Vector.replicate 2 0#512,
    lc := Vector.replicate 4 0#32, cc := Vector.replicate 8 0#32, ccNew := Vector.replicate 8 0#32, ccAt := 0, aflags := fNone, gen := 0#512, hyp := 0#6, group := 0#32,
    trig := none, orph := none, fence := false, orphaned := false, rowAt := none, rowOut := none,
    rowAborted := false, rowTaken := false, rowDrop := false, trapSeq := none, resume := .running,
    fire := ⟨Vector.replicate 5 OutLatch.empty, Vector.replicate 2 0#512, false⟩ }

/-- An entry of a CE's command port (R294). -/
inductive CmdEntry where
  | cmd (task : BitVec 3) (word : BitVec 128) (target : Word) (cc : Option (BitVec 3)) (hyp : BitVec 6) (refuted : Bool)
  | fork (task : BitVec 3) (mask : BitVec 16) (cc : Option (BitVec 3)) (hyp : BitVec 6) (refuted : Bool)
  deriving DecidableEq, Repr

/-- FREED notices that wait at an input end (R59): for each the cycle in which it may leave, and its count. -/
abbrev Notices := List (Nat × Nat)

/-- The entries that waiting notices count. -/
def Notices.total (n : Notices) : Nat := (n.map fun x => x.2).sum

/-- A compute element. -/
structure Ce where
  tasks : Vector Task 8
  /-- the task that fired last (R46) -/
  last : BitVec 3
  /-- the cycle after the last firing: one firing per cycle (R46) -/
  firedNext : Nat
  cmdq : List CmdEntry
  /-- FREED notices waiting at the input ends (R59) -/
  notices : Vector Notices 8
  halted : Bool
  saved : Bool
  deriving DecidableEq, Repr

/-- A CE that holds no state. -/
def Ce.empty : Ce := ⟨Vector.replicate 8 Task.empty, 7#3, 0, [], Vector.replicate 8 [], false, false⟩

/-! ## Translation -/

/-- A successful translation: the page type, the peer node, the physical (or host) address of the access and the size of its
page as a power of two (R93, R94). -/
structure Trans where
  ty : BitVec 2
  node : BitVec 12
  pa : Nat
  lg : Nat
  deriving DecidableEq, Repr

/-- A cached translation (R95): the tenant, the first virtual page address, the page size, W and whether D was set. -/
structure TlbEnt where
  tenant : BitVec 16
  va : Nat
  lg : Nat
  ty : BitVec 2
  node : BitVec 12
  base : Nat
  w : Bool
  d : Bool
  deriving DecidableEq, Repr

/-- The conditions an access meets, with the codes of R370. -/
inductive FaultCode where
  | transNp
  | transProt
  | bounds
  | align
  | poison
  | hypOvf
  | remoteNak
  | watch
  | trap (n : BitVec 7)
  deriving DecidableEq, Repr

/-- Who waits for a walk (R95): an AG, a port, a REPLAY operator, an engine's job, or the loader for a function's record (R33). -/
inductive Walker where
  | ag (loc : AgAt)
  | port (loc : PortAt)
  | op (loc : OpAt)
  | job (id : Nat)
  | accept (fn : BitVec 10)
  deriving DecidableEq, Repr

/-- A walk waiting at a die (R95): its requester, the tables and the function that it walks for, and what it translates. -/
structure Walk where
  who : Walker
  tenant : BitVec 16
  root : Nat
  vf : BitVec 10
  va : BitVec 56
  needW : Bool
  /-- waits on an ATS translation since this cycle (R401) -/
  ats : Option Nat
  /-- stands at a TYPE 1 leaf without a place among the 64, and holds no walker (R401) -/
  parked : Bool
  deriving DecidableEq, Repr

/-! ## Memory tiles -/

/-- A request that an AG with DIRECT = 1 has issued into a port (R332, R368), or a control token it forwards. -/
structure Emission where
  addr : BitVec 56
  mask : BitVec 16
  hyp : BitVec 6
  refuted : Bool
  ctl : Option Word
  tr : Option Trans
  /-- 0 performs the access, 1 completes it as zero, 2 as poison (R376) -/
  act : BitVec 2
  seen : Nat
  deriving DecidableEq, Repr

/-- One block of a load's reply. -/
structure BlkVal where
  data : Block
  desc : BitVec 16
  psn : Bool
  deriving DecidableEq, Repr

/-- A reply owed by a port, in its reply buffer (R97), or a control token that goes out in its place (opcode 0, R327): the
request's opcode, address, home and operands, its stamp, mask and blocks, the bytes performed, the remote requests still
awaited, the waits that must reply first, and, once landed, the tokens to send. -/
structure ReplyEnt where
  opc : BitVec 8
  addr : Nat
  home : Nat
  x : Word
  y : Word
  mask : BitVec 16
  hyp : BitVec 6
  refuted : Bool
  blks : List BlkVal
  /-- data tokens whose additions wait for a peer's block (R323) -/
  dat : List Token
  bytes : Nat
  remote : List Nat
  after : List Nat
  landed : Bool
  toks : List Token
  deriving DecidableEq, Repr

/-- An MT port. -/
structure Port where
  reqs : List Emission
  /-- data tokens already taken for the request at hand (R315) -/
  part : List Token
  /-- control tokens that go out after the reply of the request at hand (R327) -/
  held : List Token
  replies : List ReplyEnt
  /-- FREED notices waiting (R59) -/
  notices : Notices
  /-- the program timestamp of the party (R101) -/
  pts : Nat
  freed : Nat
  freedAt : Nat
  deriving DecidableEq, Repr

/-- A port that holds no state. -/
def Port.empty : Port := ⟨[], [], [], [], [], 0, 0, 0⟩

/-- A stash line (R78): its home (see `homeKey`), context and hypothesis tag, data with valid and dirty masks, the bytes that
are copies of versions not yet released (R102), descriptor and whether a vector store wrote it, timestamps,
priority, read-only flag, whether it holds tenant- or system-scope data (R105), and poison. The list of a tile's lines has
the most recently used first. -/
structure Line where
  home : Nat
  va : Nat
  ctx : BitVec 8
  tag : BitVec 6
  data : Block
  valid : BitVec 64
  dirty : BitVec 64
  unrel : BitVec 64
  desc : BitVec 16
  descSet : Bool
  wts : Nat
  lease : Nat
  prio : BitVec 2
  ro : Bool
  wide : Bool
  psn : Bool
  deriving DecidableEq, Repr

/-- A held waiter slot (R86). -/
structure Waiter where
  slot : Nat
  port : BitVec 3
  off : Nat
  v : Word
  hyp : BitVec 6
  refuted : Bool
  deriving DecidableEq, Repr

/-- A memory tile's running state. -/
structure Mt where
  ports : Vector Port 8
  lines : List Line
  waiters : List Waiter
  /-- sync additions not yet applied: offset and amount (R85), and the cycle after the last that was applied -/
  syncq : List (Nat × Nat)
  syncNext : Nat
  /-- the cycle after the last grant to a port, and that port: the ports of a cycle are granted in ascending number (R77) -/
  grantNext : Nat
  grantPort : BitVec 3
  halted : Bool
  saved : Bool
  deriving DecidableEq, Repr

/-- A memory tile that holds no state. -/
def Mt.empty : Mt := ⟨Vector.replicate 8 Port.empty, [], [], [], 0, 0, 0#3, false, false⟩

/-- An AG's place in its program: not started, running, held in AGRP, halted, or stopped on a fault (R331, R333, R370). -/
inductive AgSt where
  | idle
  | running
  | heldGrp
  | halted
  | faulted (code : FaultCode) (seq : Option (BitVec 16))
  deriving DecidableEq, Repr

/-- An address generator (R329). -/
structure Ag where
  st : AgSt
  pc : BitVec 5
  base : BitVec 56
  g : Vector (BitVec 25) 6
  cnt : Vector (BitVec 25) 6
  str : Vector (BitVec 30) 6
  top : Vector (BitVec 5) 6
  opened : BitVec 6
  idx : Word
  istr : Word
  isgn : Bool
  grp : Word
  gstr : BitVec 36
  mask : BitVec 16
  tmask : BitVec 16
  tlvl : BitVec 3
  cr : BitVec 16
  cren : Bool
  hid : BitVec 6
  hidRef : Bool
  /-- emissions issued since START (R372) -/
  emits : Word
  emitNext : Nat
  utlb : List TlbEnt
  /-- the action of an accepted REPAIR for the emission at hand (R376) -/
  repair : Option (BitVec 2)
  /-- the end-of-stream answer is due (R43) -/
  eos : Bool
  halted : Bool
  saved : Bool
  deriving DecidableEq, Repr

/-- An AG at configuration: all zero but MASK and TMASK (R329). -/
def Ag.empty : Ag :=
  { st := .idle, pc := 0#5, base := 0#56, g := Vector.replicate 6 0#25, cnt := Vector.replicate 6 0#25,
    str := Vector.replicate 6 0#30, top := Vector.replicate 6 0#5, opened := 0#6, idx := 0#32, istr := 0#32, isgn := false,
    grp := 0#32, gstr := 0#36, mask := 0xFFFF#16, tmask := 0xFFFF#16, tlvl := 0#3, cr := 0#16, cren := false, hid := 0#6,
    hidRef := false, emits := 0#32, emitNext := 0, utlb := [], repair := none, eos := false,
    halted := false, saved := false }

/-! ## Engines and jobs -/

/-- The progress of the command that a job runs: when it arrived; when its scheduler started it (MX, R343); its input tokens; two
counters; output tokens not yet sent; peers' answers awaited; and the marks of R340: its effect is made, it performs no (further)
access but still takes `i` tokens, and it ends the job. `held` marks an HPU update that waits for its hypothesis (R159), `bd` a
bad descriptor already counted (R414). -/
structure CmdRun where
  arr : Nat
  started : Bool
  at0 : Nat
  taken : List Token
  i : Nat
  j : Nat
  outq : List Token
  awaits : List Nat
  acted : Bool
  dead : Bool
  ends : Bool
  held : Bool
  bd : Bool
  deriving DecidableEq, Repr

/-- A command not yet begun. -/
def CmdRun.empty : CmdRun := ⟨0, false, 0, [], 0, 0, [], [], false, false, false, false, false⟩

/-- A byte range with its mode: 1 read, 2 write, 3 both (R33). -/
structure FootEnt where
  base : Nat
  len : Nat
  mode : BitVec 2
  deriving DecidableEq, Repr

/-- An engine job (R338): its place in the acceptance order, its engine, the issuing instance, the issuer for R343, its
hypothesis, the program (FORK) or single word, the sequencer position and loop registers (R337), its status (R340), the
completion counter (site, task, index) and the argument of its RDV. -/
structure Job where
  id : Nat
  eng : EngId
  inst : Nat
  issuer : Nat
  hyp : BitVec 6
  refuted : Bool
  prog : Bool
  word : BitVec 128
  entry : BitVec 6
  its : Table Nat
  status : BitVec 16
  cc : Option (BitVec 12 × BitVec 3 × BitVec 3)
  arg : BitVec 24
  started : Bool
  ended : Bool
  /-- it has released its writes and made its final sync addition, and waits to send its RDV (R338) -/
  released : Bool
  run : CmdRun
  deriving DecidableEq, Repr

/-- A matrix tile (R343): weight buffer with descriptors and the hypothesis each block was loaded under (R411), accumulators
by slot × 4096 + row × 64 + column, versions, the slots with a command running. -/
structure Mx where
  wdat : Table Block
  wdesc : Table (BitVec 16)
  whyp : Table (BitVec 6)
  acc : Table Word
  ver : Vector (BitVec 16) 8
  /-- the cycle after the last start: one start in a cycle (R343) -/
  startNext : Nat
  halted : Bool
  deriving DecidableEq, Repr

/-- A matrix tile after zeroing (R179). -/
def Mx.empty : Mx := ⟨[], [], [], [], Vector.replicate 8 0#16, 0, false⟩

/-- A set slot of an HPU (R359, R360): the bound descriptor's address, the eight family registers of 128 bits, and the counts of
refused inserts, displaced rows and deletions of absent ids since binding. -/
structure SetSlot where
  bound : Bool
  va : BitVec 56
  regs : Vector (BitVec 128) 8
  refused : Word
  displaced : Word
  absent : Word
  deriving DecidableEq, Repr

/-- A slot that no HFAM has bound. -/
def SetSlot.empty : SetSlot := ⟨false, 0#56, Vector.replicate 8 0#128, 0#32, 0#32, 0#32⟩

/-- An HPU: its sixteen set slots. -/
structure Hpu where
  slots : Vector SetSlot 16
  halted : Bool
  deriving DecidableEq, Repr

/-- An HPU after zeroing. -/
def Hpu.empty : Hpu := ⟨Vector.replicate 16 SetSlot.empty, false⟩

/-- A copy engine (R351): the credits of the copy to its out channel that runs, the notices kept for the next one, and whether one
runs. -/
structure Cp where
  credits : BitVec 16
  kept : BitVec 16
  running : Bool
  halted : Bool
  deriving DecidableEq, Repr

/-- An STE: between its jobs it holds nothing but a debugger's halt (R392). -/
structure Ste where
  halted : Bool
  deriving DecidableEq, Repr

/-- An STE that nothing halts. -/
def Ste.empty : Ste := ⟨false⟩

/-- A block of a sealed node's body in the node cache of an STE (R150): where its tenant, its context and the hypothesis of the job that
filled it place it, and what was read. -/
structure SteBody where
  site : BitVec 12
  tenant : BitVec 16
  ctx : BitVec 8
  hyp : BitVec 6
  va : Nat
  val : BlkVal
  deriving DecidableEq, Repr

/-- A class scheduler (R49): jobs served to each tenant in this round, and the weights of the functions, [19:4] of their policy blocks, as
the round began (R169). -/
structure Sched where
  served : List (BitVec 16 × Nat)
  weights : Table (BitVec 16)
  deriving DecidableEq, Repr

/-! ## Nodes and instances -/

/-- Where a node stands (R34 to R51). -/
inductive NodeSt where
  /-- accepted, waiting for releases and dependences -/
  | held
  /-- in the ready pool, or running with indices left -/
  | pool
  /-- nothing of it runs any more, and its writes are on their way (R51) -/
  | closing
  /-- completed -/
  | complete
  deriving DecidableEq, Repr

/-- A range of group indices given to a die (R41): die, the index it began with, next, end. -/
structure GroupRange where
  die : BitVec 2
  first : Nat
  lo : Nat
  hi : Nat
  deriving DecidableEq, Repr

/-- A graph node (R28). -/
structure Node where
  id : Nat
  lrec : BitVec 2048
  /-- the function that submitted it, and that of its record after R30 -/
  sub : BitVec 10
  fn : BitVec 10
  tenant : BitVec 16
  /-- the policy block in force at acceptance (R169) -/
  policy : BitVec 256
  firmware : Bool
  st : NodeSt
  prio : BitVec 3
  readyAt : Nat
  prioAt : Nat
  /-- the cycle since which the residency gate alone holds it, and the fraction last seen with its cycle (R386) -/
  gateAt : Option Nat
  fracLast : Nat
  fracAt : Nat
  foot : List FootEnt
  deps : List Nat
  rels : Nat
  groups : Nat
  given : Nat
  ranges : List GroupRange
  reissue : List GroupRange
  /-- the group counts that the GROUPINCs so far have found: indices from one on come after all those below it (R42) -/
  bounds : List Nat
  firstAt : Option Nat
  dataWritten : Bool
  insts : List Nat
  jobst : BitVec 16
  afl : Flags
  nfault : Word
  err : BitVec 16
  lscode : BitVec 8
  accepted : BitVec 17
  aborting : Bool
  deriving DecidableEq, Repr

/-- The phases of an instance (R36, R45, R171 to R176). -/
inductive InstSt where
  | configuring
  | running
  /-- MARK was injected in this cycle; the marker phase runs -/
  | marking (at0 : Nat)
  /-- the SRAM part of a save moves; frozen or not -/
  | swapOut (frozen : Bool)
  | saved
  | swapIn
  | ended
  deriving DecidableEq, Repr

/-- A running instance of a node (R27, R36). -/
structure Inst where
  id : Nat
  node : Nat
  st : InstSt
  slice : BitVec 24
  dbx : BitVec 8
  dby : BitVec 8
  /-- frames still to be written (R220) -/
  frames : List (BitVec 64 × BitVec 256)
  /-- the instance whose elements it takes over: frames go to the shadow bank, and SWITCH follows them (R52) -/
  onto : Option Nat
  switched : Bool
  /-- routing entries of the shadow bank, by router input -/
  routes : Table (BitVec 16)
  /-- the data VCs that its virtual network reserved at dispatch, by link (R69): see `vcIn` and `vcOut` -/
  vcs : List Nat
  gen : BitVec 24
  estat : Word
  /-- since the last wave, something was injected (R75) -/
  injected : Bool
  /-- consecutive clean waves (R75) -/
  waves : Nat
  quiescent : Bool
  /-- cycles since the last progress (R391), and whether there was progress since the last tick -/
  dogs : Nat
  progress : Bool
  /-- elements as site × 4 + sub: sub 0 the element, 1 and 2 the AGs of an MT -/
  elems : List Nat
  ops : List (BitVec 12 × BitVec 2)
  /-- the site, as the image names it, or the ordinal of each CE, by site (R126) -/
  names : Table Nat
  /-- the frames of its image, bound, where the image names them: a restore writes them again (R176) -/
  image : List (BitVec 64 × BitVec 256)
  /-- its dispatch or last restore, and for the slice that began then its length and its limit of a marker phase, in µs (R169, R171,
  R175) -/
  startedAt : Nat
  sliceUs : Nat
  markUs : Nat
  /-- elements and operators that have saved in this marker phase: element numbers, and 65,536 + 4 × site + slot (R173) -/
  marked : List Nat
  frozen : Bool
  /-- the nodes whose requests came during its restore: while one waits, a save of it has the limit 0 (R178) -/
  limitZero : List Nat
  deriving DecidableEq, Repr

/-! ## Faults -/

/-- A fault on its way to the corner on VC1: the element, its record without SEQ, and the FAULT token that follows (R370 to R372). -/
structure PendFault where
  site : BitVec 12
  subt : BitVec 3
  kind : BitVec 1
  inst : Nat
  rcd : BitVec 512
  tok : Token
  deriving DecidableEq, Repr

/-- A record standing in a fault ring slot (R371): the element it names. -/
structure RingEnt where
  slot : BitVec 8
  seq : BitVec 16
  site : BitVec 12
  subt : BitVec 3
  kind : BitVec 1
  inst : Nat
  /-- its FAULT token, which has reached the handler -/
  tok : Token
  escalated : Bool
  /-- its element has consumed the REPAIR that answers it (R373) -/
  repaired : Bool
  /-- the control core has answered it, so that the handler pops it (R375) -/
  answered : Bool
  deriving DecidableEq, Repr

/-- An escalation at a control core (R378): the ring slot and its record, posted or not, the failed checks (R380), whether the FAULT event
made it, and whether the core waits for a page to move. -/
structure Escal where
  slot : BitVec 8
  core : BitVec 2
  rcd : BitVec 512
  fn : BitVec 10
  posted : Option Nat
  polledAt : Nat
  tries : Nat
  auto : Bool
  moving : Bool
  deriving DecidableEq, Repr

/-- A watch entry (R374). -/
structure Watch where
  base : BitVec 56
  len : Word
  tenant : BitVec 16
  mode : BitVec 2
  deriving DecidableEq, Repr

/-- A die: its fault ring and corner registers, walks, translation cache, liveness and heartbeat (R50, R371 to R380, R95). -/
structure Die where
  live : Bool
  beatAt : Nat
  fenced : Bool
  ring : List RingEnt
  fhead : BitVec 8
  ftail : BitVec 8
  seq : BitVec 16
  discards : Word
  escals : Word
  watch : Vector Watch 4
  /-- records waiting on VC1 (R371) -/
  pend : List PendFault
  /-- REPAIR tokens on VC1 (R376) -/
  repairs : List Token
  escalq : List Escal
  walks : List Walk
  /-- the accesses whose walks have failed, until they are taken up (R399, R401) -/
  failed : List (Walk × FaultCode)
  tlb : List TlbEnt
  /-- its bridges have failed link training, so that its modules are out of reach (R394) -/
  cut : Bool
  /-- its corner's handler subgraph has started (R14, R25) -/
  corner : Bool
  deriving DecidableEq, Repr

/-- A die after reset. -/
def Die.empty : Die :=
  { live := true, beatAt := 0, fenced := false, ring := [], fhead := 0#8, ftail := 0#8, seq := 0#16, discards := 0#32,
    escals := 0#32, watch := Vector.replicate 4 ⟨0#56, 0#32, 0#16, 0#2⟩, pend := [], repairs := [], escalq := [],
    walks := [], failed := [], tlb := [], cut := false, corner := false }

/-! ## Hypotheses -/

/-- An overlay entry of a context (R162): tag, home and virtual address, byte mask, the bytes of which a region holds an unreleased
version (R102), descriptor and block. -/
structure Ovl where
  ctx : BitVec 8
  tag : BitVec 6
  home : Nat
  va : Nat
  mask : BitVec 64
  unrel : BitVec 64
  desc : BitVec 16
  descSet : Bool
  data : Block
  psn : Bool
  deriving DecidableEq, Repr

/-- The version of a block that a store at region or die scope made and that no release of device scope covers yet (R102): the storing
region, its die, the engine job where one made it, its hypothesis (R111), the scope at which it stands, its bytes, and those of them
that its die sees. A version that has lost its bytes keeps the descriptor that it set. -/
structure Pend where
  inst : Option Nat
  die : BitVec 2
  job : Option Nat
  ctx : BitVec 8
  tag : BitVec 6
  home : Nat
  va : Nat
  scope : BitVec 3
  mask : BitVec 64
  vis : BitVec 64
  data : Block
  desc : Option (BitVec 16)
  psn : Bool
  deriving DecidableEq, Repr

/-! ## The hub -/

/-- A function's window and settings (R169, R182 to R188, R379, R384). -/
structure Fn where
  rej : Bool
  drop : Bool
  badw : Bool
  lasterr : BitVec 8
  accepted : BitVec 17
  credits : BitVec 7
  /-- the first half of a split launch write (R183) -/
  half : Option (BitVec 1024)
  invBusy : Bool
  invLost : Bool
  /-- the range under invalidation: first page and count -/
  inv : BitVec 44 × Nat
  cqbase : BitVec 64
  cqsz : BitVec 4
  cqen : Bool
  cqhead : BitVec 12
  cqtail : BitVec 12
  cqovf : Bool
  cqphase : Bool
  policy : BitVec 256
  pasid : BitVec 20
  ringBase : BitVec 64
  ringLg : BitVec 4
  ringEn : Bool
  /-- posts made, and the entries not yet answered: entry index and escalation -/
  posts : Word
  msix : Vector Nat 4
  tdispRun : Bool
  ovlBase : Nat
  ovlSize : Nat
  deriving DecidableEq, Repr

/-- The policy block after reset: MARKLIM 40 and the four weights 1 (R169). -/
def policyReset : BitVec 256 := BitVec.ofNat 256 (40 * 2 ^ 144 + 2 ^ 16 + 2 ^ 12 + 2 ^ 8 + 2 ^ 4)

/-- A function after reset (R182 to R188): 64 credits. -/
def Fn.empty : Fn :=
  { rej := false, drop := false, badw := false, lasterr := 0#8, accepted := 0#17, credits := 64#7, half := none,
    invBusy := false, invLost := false, inv := (0#44, 0), cqbase := 0#64, cqsz := 0#4, cqen := false, cqhead := 0#12,
    cqtail := 0#12, cqovf := false, cqphase := true, policy := policyReset, pasid := 0#20, ringBase := 0#64,
    ringLg := 0#4, ringEn := false, posts := 0#32, msix := Vector.replicate 4 0, tdispRun := false, ovlBase := 0,
    ovlSize := 0 }

/-- A submitted launch record (R183, R184); one that came through the window took a credit. -/
structure Submit where
  fn : BitVec 10
  firmware : Bool
  window : Bool
  lrec : BitVec 2048
  deriving DecidableEq, Repr

/-- An image that the loader holds, as its records stand in the file (R217). -/
structure Image where
  digest : BitVec 256
  frames : List (BitVec 64 × BitVec 256)
  deriving DecidableEq, Repr

/-- What the Colad mapper made of a portable graph (R36): its digest, the elements that were free, and the image. -/
structure Mapped where
  digest : BitVec 256
  free : List Nat
  image : List (BitVec 64 × BitVec 256)
  deriving DecidableEq, Repr

/-- An entry of a tenant's recorded working set (R88, R91): a page or range by its virtual address and bytes, or a scratchpad
image by its site; the tier it is recorded at, when it was recorded, pinned or not, and whether a move of it is under way. Whether
a page stands at its tier is read off its table entry; for an image, `resident` says so. -/
structure SetPage where
  tenant : BitVec 16
  image : Bool
  va : Nat
  len : Nat
  tier : BitVec 2
  at0 : Nat
  /-- a TIERHINT has added it since the tenant was last switched out -/
  hint : Bool
  pinned : Bool
  resident : Bool
  moving : Bool
  deriving DecidableEq, Repr

/-- The copy of a memory tile's scratchpad image that the Apsis engine made in T1 when its tenant was switched out (R89). -/
structure ImageCopy where
  tenant : BitVec 16
  site : BitVec 12
  spad : Table Byte
  desc : Table (BitVec 16)
  psn : Table Bool
  deriving DecidableEq, Repr

/-! ## Zwitia -/

/-- Who waits for a remote request. -/
inductive Requester where
  | port (site : BitVec 12) (n : BitVec 3)
  | job (id : Nat)
  | op (site : BitVec 12) (slot : BitVec 2)
  /-- dirty bytes on their way from a tile of a region to a peer's memory -/
  | writeBack (inst : Nat)
  /-- overlay entries on their way to a peer's memory, which a job's HYPRES has confirmed (R163) -/
  | resolve (job : Nat)
  /-- the loader, for the data blocks of a node (R387) -/
  | loader (node : Nat)
  deriving DecidableEq, Repr

/-- A remote request of this package (R191, R192, R366). `kind` 0 reads, 1 writes under the mask, 2 is an atomic, 3 and 4 add
int32 and fp32, 5 and 6 write and read a scratchpad, 7 carries a part of a collective's message; `place` is its first
block among those of its port's request; `psn` marks the poisoned blocks of a write (R403). -/
structure Remote where
  idx : Nat
  who : Requester
  tenant : BitVec 16
  node : BitVec 12
  kind : BitVec 3
  addr : Nat
  blocks : Nat
  place : Nat
  data : BitVec 2048
  mask : BitVec 256
  dset : Bool
  descs : BitVec 64
  psn : BitVec 4
  issued : Option Nat
  credited : Bool
  /-- an acquire of the requester's region has come since the read issued: its blocks stay in no line (R105) -/
  stale : Bool
  deriving DecidableEq, Repr

/-- A flit that a port has sent and keeps until its acknowledgement (R190): its sequence, and how often it has been resent (R425). -/
structure KeptFlit where
  seq : BitVec 12
  flit : BitVec 2048
  resent : Nat
  deriving DecidableEq, Repr

/-- One Zwitia port (R189, R190, R425). -/
structure ZPort where
  nextSeq : BitVec 12
  expect : BitVec 12
  /-- sent and unacknowledged flits, oldest first -/
  retry : List KeptFlit
  delivered : List (BitVec 2048)
  /-- what the port has put on its link, oldest first -/
  sent : List (BitVec 2048)
  ackAt : Nat
  retrains : Nat
  fails : Nat
  down : Bool
  nakDue : Option (BitVec 12)
  deriving DecidableEq, Repr

/-- A port after reset. -/
def ZPort.empty : ZPort := ⟨0#12, 0#12, [], [], [], 0, 0, 0, false, none⟩

/-- What this package sends a peer on VC2 (R192, R426): a slot credit of a tenant (status 2), or the reply to a request: done (0) or
refused (1), with the blocks read or the old value of an atomic. -/
structure Answer where
  node : BitVec 12
  tenant : BitVec 16
  status : BitVec 2
  data : BitVec 2048
  descs : BitVec 64
  psn : BitVec 4
  deriving DecidableEq, Repr

/-- A message of a collective between ranks (R355): tenant, collective number, sending and receiving rank, the parameters that it
agrees on, its phase (0 reduce, 1 broadcast) and its data. -/
structure PeerMsg where
  tenant : BitVec 16
  coll : BitVec 8
  src : BitVec 12
  dst : BitVec 12
  nrank : BitVec 12
  op : BitVec 2
  len : Word
  phase : BitVec 1
  /-- the sending node -/
  node : BitVec 12
  data : List Byte
  deriving DecidableEq, Repr

/-! ## Lifetime records -/

/-- The live counts of R430, saturating. -/
structure Counts where
  corrSite : Table Nat
  uncSite : Table Nat
  corrModule : Table Nat
  retrains : Table Nat
  thermal : Table Nat
  droop : Table Nat
  watchdogs : Nat
  clamps : Nat
  tierErrs : Nat
  fenced : Nat
  poh : Nat
  deriving DecidableEq, Repr

/-- No event counted. -/
def Counts.empty : Counts := ⟨[], [], [], [], [], [], 0, 0, 0, 0, 0⟩

/-! ## The management core (R22 to R25) -/

/-- The configuration record (R24): part number and serial, security version number, disabled sites, lane maps and trims of the memory,
Zwitia and PCI Express links, voltage and frequency table, power limit, digest of the identity key, and its signature. What the spec gives
no form is held as bytes, and the version number as 32 bits (DESIGN CHOICE, log 126). -/
structure ConfigRec where
  part : List Byte
  serial : List Byte
  svn : Word
  disabled : Table Bool
  memLanes : List Byte
  zwLanes : List Byte
  pcieLanes : List Byte
  vfTable : List Byte
  power : List Byte
  keyDigest : BitVec 256
  sig : List Byte
  deriving DecidableEq, Repr

/-- A configuration record of which nothing is set. -/
def ConfigRec.empty : ConfigRec := ⟨[], [], 0#32, [], [], [], [], [], [], 0#256, []⟩

/-- A firmware image with its security version number and signature (R25). -/
structure FirmImage where
  svn : Word
  image : List Byte
  sig : List Byte
  deriving DecidableEq, Repr

/-- A control core, or the management core: an RV64GC hart with its registers and 256 KiB of TCM (R22). What its firmware does is an event
of its own, so its instructions move none of the registers (DESIGN CHOICE, log 158). -/
structure CtlCore where
  pc : BitVec 64
  x : Vector (BitVec 64) 32
  f : Vector (BitVec 64) 32
  fcsr : Word
  tcm : Table Byte
  running : Bool
  deriving DecidableEq, Repr

/-- A core after reset. -/
def CtlCore.empty : CtlCore := ⟨0#64, Vector.replicate 32 0#64, Vector.replicate 32 0#64, 0#32, [], false⟩

/-- A stored lifetime record: SEQ, the cycle count at the snapshot, the counts, and its bytes. -/
structure LifeRec where
  seq : Nat
  cycles : BitVec 64
  counts : Counts
  bytes : List Byte
  deriving DecidableEq, Repr

end Sys2Proof.Machine
end

