-- ==== Sys2Proof/Machine/State.lean ====
section
/-! DEFINITION. The machine's state, its reset value, and the reasons for which a step can stop. -/

namespace Sys2Proof.Machine

/-- One entry of the agenda: which party takes its next indivisible step. The agenda stands for what the spec leaves to the
order in which the part's agents act, and for everything the outside does; a claim about every state is a claim about every
agenda (log 1). -/
inductive Move where
  /-- the fabric clock advances by one cycle -/
  | tick
  /-- one stage slot of a task's current bundle by itself -/
  | stage (site : BitVec 12) (task slot : BitVec 3)
  /-- the current word of an AG -/
  | ag (site : BitVec 12) (sub : BitVec 1)
  /-- a port serves the request at its head -/
  | port (site : BitVec 12) (n : BitVec 3)
  /-- the current command of the first started job of an engine -/
  | engine (job : Nat)
  /-- an operator slot -/
  | op (site : BitVec 12) (slot : BitVec 2)
  /-- an event: the bytes of its record (class 6), or of a step from outside (class 7) -/
  | event (bs : List Byte)
  /-- a host agent reads, or writes under a mask, a block of host memory or, through a BAR, of module memory (R98) -/
  | host (fn : BitVec 10) (write : Bool) (home : Nat) (mask : BitVec 64) (data : BitVec 512)
  deriving DecidableEq, Repr

/-- A saved instance (R174): the cycle of the save, its elements and operators, and its element, channel and SRAM parts by the keys
under which they stood. -/
structure Save where
  inst : Nat
  at0 : Nat
  elems : List Nat
  slots : List (BitVec 12 × BitVec 2)
  /-- the translation of the restore under way, from where it stood -/
  dbx : Int
  dby : Int
  ces : Table Ce
  mts : Table Mt
  ags : Table Ag
  mxs : Table Mx
  hpus : Table Hpu
  cps : Table Cp
  stes : Table Ste
  bufs : Table Buf
  ops : Table OpRun
  spad : Table Byte
  spadDesc : Table (BitVec 16)
  spadPsn : Table Bool
  deriving DecidableEq, Repr

/-- A completion sync word that the sequencer waits on (R167): its memory tile and offset, and the additions it will then have seen. -/
structure SyncWait where
  site : BitVec 12
  off : Nat
  want : Nat
  deriving DecidableEq, Repr

/-- A request of the generation loop (R167): its identity, its sequence of token ids, its position and hypotheses, the remaining length and
budget, its stop token, the launch records of an iteration and those that append its token, where its sampled token will stand, the sync
words awaited, and how far its iteration has come: 0 to be submitted, 1 awaited, 2 its append awaited. -/
structure GenReq where
  id : Nat
  tokens : List Word
  left : Nat
  stop : Word
  budget : Nat
  position : Word
  hyps : List (BitVec 6)
  recs : List (BitVec 2048)
  appends : List (BitVec 2048)
  site : BitVec 12
  off : Nat
  waiting : List SyncWait
  phase : BitVec 2
  deriving DecidableEq, Repr

/-- The part outside the fabric that firmware and the PF hold: the settings of R186, the hub's registers and the signed
configuration record (R24). -/
structure Hub where
  pfOpen : Bool
  pferrLocked : Bool
  fwResult : BitVec 8
  fwBusy : Bool
  fwarg : Vector (BitVec 64) 32
  watchLg : BitVec 5
  atsMs : BitVec 7
  rtimeoutUs : BitVec 17
  nodeId : BitVec 12
  zroute : Table (BitVec 18)
  /-- reservations held here as far end, by tenant × 4096 + requesting node (R192) -/
  farSlots : Table Nat
  /-- the reservation of this package at a far end, and the free slots of it, by tenant × 4096 + node (R367) -/
  nearRes : Table Nat
  nearFree : Table Nat
  t2base : BitVec 64
  t2size : BitVec 64
  /-- the rebuild record of each tenant that has one (R186, R418) -/
  rebuild : Table (BitVec 2048)
  /-- the instance that the debugger is attached to (R392) -/
  dbg : Option Nat
  ctxs : Table (BitVec 256)
  /-- the configuration record as the boot chain has applied it, and as non-volatile memory holds it (R24, R25) -/
  conf : ConfigRec
  nv : ConfigRec
  /-- the control cores by die × 4 + core, and the management core, number 16 (R22) -/
  cores : Vector CtlCore 17
  /-- measurements of the boot chain in step order (R25) -/
  measured : List (BitVec 256)
  deriving DecidableEq, Repr

/-- The hub after reset (R186): N = 2^24, ATS timeout 50 ms, remote timeout 1,000 µs. -/
def Hub.empty : Hub :=
  { pfOpen := false, pferrLocked := false, fwResult := 0#8, fwBusy := false, fwarg := Vector.replicate 32 0#64,
    watchLg := 24#5, atsMs := 50#7, rtimeoutUs := 1000#17, nodeId := 0#12, zroute := [], farSlots := [], nearRes := [],
    nearFree := [], t2base := 0#64, t2size := 0#64, rebuild := [], dbg := none, ctxs := [], conf := ConfigRec.empty,
    nv := ConfigRec.empty, cores := Vector.replicate 17 CtlCore.empty, measured := [] }

/-- The fabric: channels, routers, operators, frames and the elements' running state, by site. -/
structure Fabric where
  /-- channel buffers, by the keys of `endKey`, `inKey` and `opKey` -/
  bufs : Table Buf
  routes : Table (Option Route)
  outs : Table OutRun
  ops : Table OpRun
  /-- configuration frames of the active and of the shadow bank, by `frameKey` -/
  frames : Table (BitVec 256)
  shadow : Table (BitVec 256)
  /-- the instance that owns an element, plus 1; 0 is free -/
  owner : Table Nat
  zeroing : Table Bool
  withdrawn : Table Bool
  ces : Table Ce
  mts : Table Mt
  ags : Table Ag
  mxs : Table Mx
  hpus : Table Hpu
  cps : Table Cp
  stes : Table Ste
  deriving DecidableEq, Repr

/-- Storage (R76): module memory, host memory, and the scratchpads, with the descriptors and poison of their blocks. A byte
that nothing has written reads 0 (log 5). -/
structure Store where
  mem : Table Byte
  host : Table Byte
  /-- scratchpad byte of MT `site` at offset `o`, at key site × 2^20 + o -/
  spad : Table Byte
  memDesc : Table (BitVec 16)
  spadDesc : Table (BitVec 16)
  memPsn : Table Bool
  spadPsn : Table Bool
  /-- poison of blocks of host memory that came poisoned from the package (R404, R412) -/
  hostPsn : Table Bool
  /-- the versions of narrow scope that no release of device scope covers yet (R102), in the order of their stores -/
  pend : List Pend
  /-- the program timestamps of the parties other than ports (R101), by party -/
  pts : Table Nat
  deriving DecidableEq, Repr

/-- The canonical form of storage: in every table the addresses rise strictly, and no entry equals what an unlisted one reads as. -/
def Memory.wf (m : Store) : Bool :=
  Table.wf 0#8 m.mem && Table.wf 0#8 m.host && Table.wf 0#8 m.spad && Table.wf 0x00FF#16 m.memDesc && Table.wf 0x00FF#16 m.spadDesc &&
    Table.wf false m.memPsn && Table.wf false m.spadPsn && Table.wf false m.hostPsn

/-- The scheduler's state: nodes, instances, jobs in the package-wide acceptance order, held releases (R28 to R51). -/
structure Dist where
  master : BitVec 2
  nextSeq : Nat
  nodes : List Node
  insts : List Inst
  nextInst : Nat
  jobs : List Job
  /-- jobs that have reached a distributor in this cycle from an engine's cmd input, with the site (R109, R433) -/
  arrived : List (BitVec 12 × Job)
  sched : Table Sched
  /-- releases for tags that no accepted node carries yet: tenant, tag (R35) -/
  holds : List (BitVec 16 × Word)
  subq : List Submit
  images : List Image
  saves : List Save
  gens : List GenReq
  /-- the mapper's cache (R36) -/
  mapped : List Mapped
  /-- the nodes for which the distributors hold back the element kinds that they still lack (R38) -/
  holdback : List Nat
  /-- the Apsis engine's copies of scratchpad images, and the switches of which the incoming set still waits: outgoing tenant and
  incoming tenant (R89) -/
  copies : List ImageCopy
  switches : List (BitVec 16 × BitVec 16)
  deriving DecidableEq, Repr

/-- Hypotheses (R161, R162): the parent of each live id by context × 64 + id, and the overlays' entries. -/
structure Hyps where
  parent : Table (Option (BitVec 6))
  ovl : List Ovl
  /-- the node caches of the STEs (R150) -/
  bodies : List SteBody
  /-- tree descriptors that share a pool's free list (R144): tenant, pool, descriptor -/
  trees : List (BitVec 16 × Nat × Nat)
  /-- the overlay segments that each context holds (R187) -/
  segs : Table Nat
  /-- the stores that wait for an overlay entry, by context and hypothesis, and the cycle in which each was last held back (R408) -/
  waits : List (BitVec 8 × BitVec 6 × Nat)
  deriving DecidableEq, Repr

/-- The links to peers (R189 to R192). -/
structure Links where
  zports : Vector ZPort 18
  remotes : List Remote
  nextIdx : Nat
  lost : Table Bool
  /-- the requests that have timed out, each with the pair whose slot it may still hold (R426) -/
  late : List (Nat × Nat)
  /-- collective messages that have come and wait for their job, and those sent, with the node they went to -/
  inbox : List PeerMsg
  outbox : List (BitVec 12 × PeerMsg)
  /-- credits and replies sent to peers' requests -/
  answers : List Answer
  /-- what the host's last read of a block returned (R98) -/
  hostGot : BitVec 512
  deriving DecidableEq, Repr

/-- The lifetime counts and records (R428 to R431). -/
structure Life where
  live : Counts
  /-- the cycles of the last snapshot and of the last sample since reset -/
  snapAt : Nat
  sampleAt : Nat
  a : Option LifeRec
  b : Option LifeRec
  lastB : Bool
  deriving DecidableEq, Repr

/-- The whole machine. `agenda`, `input` and `free` are the model's own: the schedule, what the outside presents with the
step under way, and the index of the next free value. -/
structure State where
  agenda : List Move
  input : List Byte
  free : Nat
  /-- the package cycle counter (R304) -/
  cycle : BitVec 64
  fab : Fabric
  store : Store
  dist : Dist
  hyps : Hyps
  dies : Vector Die 4
  fns : Table Fn
  hub : Hub
  links : Links
  life : Life
  /-- the Apsis engine's recorded sets (R88) -/
  sets : List SetPage
  deriving DecidableEq, Repr

/-- The reasons a step stops with a fault. -/
inductive Fault where
  /-- `step`: the record of the agenda's next move decodes to no instruction. For an event this is a malformed agenda; for a
  word held in an element's store it cannot arise on the part, whose frame receivers refuse such a word (R220). Safe. -/
  | badRecord (r : Reject)
  /-- `step`: the decoded instruction breaks a static check that its frame receiver makes (R220). Safe. -/
  | illFormed
  deriving DecidableEq, Repr

/-- The reasons a step is refused. -/
inductive Refusal where
  /-- an arm of `exec` whose instruction has no meaning in the model yet. Safe. -/
  | notModelled (mnemonic : String)
  deriving DecidableEq, Repr

/-- The state right after a package reset (R25): nothing is placed, every register stands at its reset value, the hypothesis
tables hold id 0 alone, and the boot chain has not yet opened the PF. -/
def State.reset : State :=
  { agenda := [], input := [], free := 0, cycle := 0#64,
    fab := ⟨[], [], [], [], [], [], [], [], [], [], [], [], [], [], [], []⟩,
    store := ⟨[], [], [], [], [], [], [], [], [], []⟩,
    dist := ⟨0#2, 0, [], [], 1, [], [], [], [], [], [], [], [], [], [], [], []⟩,
    hyps := ⟨[], [], [], [], [], []⟩,
    dies := Vector.replicate 4 Die.empty,
    fns := [],
    hub := Hub.empty,
    links := ⟨Vector.replicate 18 ZPort.empty, [], 0, [], [], [], [], [], 0#512⟩,
    life := ⟨Counts.empty, 0, 0, none, none, false⟩,
    sets := [] }

end Sys2Proof.Machine
end

