-- ==== Sys2Proof/Machine/Ops.lean ====
section
/-! DEFINITION. The named operations over the state: element and table access, channel buffers under registered ready,
configuration fields, the node and region behind an element, injection and progress marks, and taking a fault (R370 to
R373). The return from it (R376, R377) stands in Machine/Faults.lean. -/

namespace Sys2Proof.Machine

/-! ## Access to the state's parts -/

/-- Fabric cycles in a microsecond (R3). -/
def usCycles : Nat := 4000

/-- Fabric cycles in a millisecond. -/
def msCycles : Nat := 4000000

/-- The present cycle. -/
def now (s : State) : Nat := s.cycle.toNat

/-- Operand of `n` bits at byte `off` of what the outside presents with the step under way. -/
def State.opnd (s : State) (off n : Nat) : BitVec n := BitVec.ofNat n (leNat ((s.input.drop off).take ((n + 7) / 8)))

/-- The CE at a site. -/
def getCe (s : State) (site : Site) : Ce := Table.get Ce.empty s.fab.ces site.toNat

/-- Replace the CE at a site. -/
def setCe (s : State) (site : Site) (c : Ce) : State :=
  { s with fab := { s.fab with ces := Table.set Ce.empty s.fab.ces site.toNat c } }

/-- The memory tile at a site. -/
def getMt (s : State) (site : Site) : Mt := Table.get Mt.empty s.fab.mts site.toNat

/-- Replace the memory tile at a site. -/
def setMt (s : State) (site : Site) (m : Mt) : State :=
  { s with fab := { s.fab with mts := Table.set Mt.empty s.fab.mts site.toNat m } }

/-- The key of an AG. -/
def agKey (site : Site) (sub : BitVec 1) : Nat := site.toNat * 2 + sub.toNat

/-- The AG at a site and sub-index. -/
def getAg (s : State) (loc : AgAt) : Ag := Table.get Ag.empty s.fab.ags (agKey loc.site loc.sub)

/-- Replace an AG. -/
def setAg (s : State) (loc : AgAt) (a : Ag) : State :=
  { s with fab := { s.fab with ags := Table.set Ag.empty s.fab.ags (agKey loc.site loc.sub) a } }

/-- The matrix tile at a site. -/
def getMx (s : State) (site : Site) : Mx := Table.get Mx.empty s.fab.mxs site.toNat

/-- Replace the matrix tile at a site. -/
def setMx (s : State) (site : Site) (m : Mx) : State :=
  { s with fab := { s.fab with mxs := Table.set Mx.empty s.fab.mxs site.toNat m } }

/-- The HPU at a site. -/
def getHpu (s : State) (site : Site) : Hpu := Table.get Hpu.empty s.fab.hpus site.toNat

/-- Replace the HPU at a site. -/
def setHpu (s : State) (site : Site) (h : Hpu) : State :=
  { s with fab := { s.fab with hpus := Table.set Hpu.empty s.fab.hpus site.toNat h } }

/-- A copy engine after zeroing (DESIGN CHOICE, log 3). -/
def Cp.empty : Cp := ⟨0#16, 0#16, false, false⟩

/-- The copy engine at a site. -/
def getCp (s : State) (site : Site) : Cp := Table.get Cp.empty s.fab.cps site.toNat

/-- Replace the copy engine at a site. -/
def setCp (s : State) (site : Site) (c : Cp) : State :=
  { s with fab := { s.fab with cps := Table.set Cp.empty s.fab.cps site.toNat c } }

/-- The STE at a site. -/
def getSte (s : State) (site : Site) : Ste := Table.get Ste.empty s.fab.stes site.toNat

/-- Replace the STE at a site. -/
def setSte (s : State) (site : Site) (x : Ste) : State :=
  { s with fab := { s.fab with stes := Table.set Ste.empty s.fab.stes site.toNat x } }

/-- A task of a CE. -/
def getTask (s : State) (site : Site) (t : BitVec 3) : Task := (getCe s site).tasks[t.toNat]'t.isLt

/-- Replace a task of a CE. -/
def setTask (s : State) (site : Site) (t : BitVec 3) (k : Task) : State :=
  let c := getCe s site
  setCe s site { c with tasks := c.tasks.set t.toNat k t.isLt }

/-- A port of a memory tile. -/
def getPort (s : State) (loc : PortAt) : Port := (getMt s loc.site).ports[loc.port.toNat]'loc.port.isLt

/-- Replace a port of a memory tile. -/
def setPort (s : State) (loc : PortAt) (p : Port) : State :=
  let m := getMt s loc.site
  setMt s loc.site { m with ports := m.ports.set loc.port.toNat p loc.port.isLt }

/-- A die. -/
def getDie (s : State) (d : BitVec 2) : Die := s.dies[d.toNat]'d.isLt

/-- Replace a die. -/
def setDie (s : State) (d : BitVec 2) (x : Die) : State := { s with dies := s.dies.set d.toNat x d.isLt }

/-- A function. -/
def getFn (s : State) (f : BitVec 10) : Fn := Table.get Fn.empty s.fns f.toNat

/-- Replace a function. -/
def setFn (s : State) (f : BitVec 10) (x : Fn) : State := { s with fns := Table.set Fn.empty s.fns f.toNat x }

/-- The router operator's running state at a slot. -/
def opRunKey (site : Site) (slot : BitVec 2) : Nat := site.toNat * 4 + slot.toNat

/-- The running state of an operator. -/
def getOp (s : State) (loc : OpAt) : OpRun := Table.get OpRun.empty s.fab.ops (opRunKey loc.site loc.slot)

/-- Replace the running state of an operator. -/
def setOp (s : State) (loc : OpAt) (o : OpRun) : State :=
  { s with fab := { s.fab with ops := Table.set OpRun.empty s.fab.ops (opRunKey loc.site loc.slot) o } }

/-- Change the elements of a list that satisfy a test. -/
def mapWhere {α : Type} (c : α → Bool) (f : α → α) (xs : List α) : List α := xs.map fun x => if c x then f x else x

/-- Change a node. -/
def modNode (s : State) (id : Nat) (f : Node → Node) : State :=
  { s with dist := { s.dist with nodes := mapWhere (fun n => decide (n.id = id)) f s.dist.nodes } }

/-- Change an instance. -/
def modInst (s : State) (id : Nat) (f : Inst → Inst) : State :=
  { s with dist := { s.dist with insts := mapWhere (fun n => decide (n.id = id)) f s.dist.insts } }

/-- Change a job. -/
def modJob (s : State) (id : Nat) (f : Job → Job) : State :=
  { s with dist := { s.dist with jobs := mapWhere (fun n => decide (n.id = id)) f s.dist.jobs } }

/-- A node by its number in the acceptance order. -/
def findNode (s : State) (id : Nat) : Option Node := s.dist.nodes.find? fun n => decide (n.id = id)

/-- An instance by its number. -/
def findInst (s : State) (id : Nat) : Option Inst := s.dist.insts.find? fun n => decide (n.id = id)

/-- A job by its number. -/
def findJob (s : State) (id : Nat) : Option Job := s.dist.jobs.find? fun n => decide (n.id = id)

/-! ## Configuration frames (R214, R222 to R242) -/

/-- The key of a frame: site, class, sub-index and index (R214). -/
def frameKey (site : Site) (cls sub idx : Nat) : Nat := ((site.toNat * 16 + cls) * 4 + sub) * 65536 + idx

/-- A frame of the active bank; one that was never written reads as zeros (R222). -/
def frame (s : State) (site : Site) (cls sub idx : Nat) : BitVec 256 := Table.get 0#256 s.fab.frames (frameKey site cls sub idx)

/-- The bundle at an index of a CE (R222). -/
def bundleAt (s : State) (site : Site) (pc : BitVec 7) : BitVec 256 := frame s site 0 0 pc.toNat

/-- The stage slot word `k` of a bundle: s0 is highest (R222). -/
def bundleSlot (b : BitVec 256) (k : Nat) : BitVec 36 := bits b (180 - 36 * k) 36

/-- A constant of a CE (R226). -/
def ceConst (s : State) (site : Site) (j : Nat) : Word := bits (frame s site 1 0 (1 + j / 8)) (32 * (j % 8)) 32

/-- The entry of an input end of a CE (R227). -/
def ceEnd (s : State) (site : Site) (e : Nat) : BitVec 16 := bits (frame s site 1 0 3) (16 * e) 16

/-- The entry of an output of a CE (R227). -/
def ceOut (s : State) (site : Site) (o : Nat) : BitVec 8 := bits (frame s site 1 0 3) (128 + 8 * o) 8

/-- A task descriptor (R228). -/
def taskDesc (s : State) (site : Site) (t : Nat) : BitVec 256 := frame s site 1 0 (8 + t)

/-- The task exists (R228). -/
def taskValid (d : BitVec 256) : Bool := bitAt d 0

/-- The slot count of a task rounded up to a multiple of 8 (R388). -/
def taskSlots (d : BitVec 256) : Nat := ((bits d 13 8).toNat + 7) / 8 * 8

/-- The base of a task: the rounded counts of the valid tasks below it (R228). -/
def taskBase (s : State) (site : Site) : Nat → Nat
  | 0 => 0
  | t + 1 => taskBase s site t + (if taskValid (taskDesc s site t) then taskSlots (taskDesc s site t) else 0)

/-- An entry of a task's fork table (R229). -/
def forkEntry (s : State) (site : Site) (t i : Nat) : BitVec 16 := bits (frame s site 1 0 (16 + t)) (16 * i) 16

/-- The word at `i` of an AG's program (R233). -/
def agWordAt (s : State) (loc : AgAt) (i : Nat) : BitVec 64 := bits (frame s loc.site 3 loc.sub.toNat (i / 4)) (64 * (i % 4)) 64

/-- The binding of an AG (R233). -/
def agBinding (s : State) (loc : AgAt) : BitVec 16 := bits (frame s loc.site 3 loc.sub.toNat 8) 0 16

/-- The descriptor word of a port (R230, R231). -/
def portDescWord (s : State) (loc : PortAt) : BitVec 64 := bits (frame s loc.site 2 0 loc.port.toNat) 0 64

/-- The binding of a port (R230, R232): its bits [127:64] as a number of 64 bits. -/
def portBinding (s : State) (loc : PortAt) : BitVec 64 := bits (frame s loc.site 2 0 loc.port.toNat) 64 64

/-- The command word `i` of an engine's program (R240). -/
def engProgWord (s : State) (site : Site) (i : Nat) : BitVec 128 := bits (frame s site 5 0 (i / 2)) (128 * (i % 2)) 128

/-- The step metadata of entry `i` (R240). -/
def engMeta (s : State) (site : Site) (i : Nat) : Word := bits (frame s site 5 0 (32 + i / 8)) (32 * (i % 8)) 32

/-- The channel binding of an engine (R242). -/
def engBinding (s : State) (site : Site) : BitVec 256 := frame s site 6 0 0

/-- The frame of an operator slot (R239). -/
def opFrame (s : State) (loc : OpAt) : BitVec 256 := frame s loc.site 4 0 (16 + loc.slot.toNat)

/-! ## Channel buffers (R55 to R61) -/

/-- The endpoint buffer of an input end: 0 to 7 the ends of a CE or the ports of an MT, 8 and 9 the ctl inputs of an MT's
AGs, 0 to 2 cmd, data and FREED of an engine. -/
def endKey (site : Site) (e : Nat) : Nat := site.toNat * 16 + e

/-- The skid buffer of a router input (port, VC). -/
def inKey (site : Site) (port vc : Nat) : Nat := 65536 + (site.toNat * 16 + port) * 16 + vc

/-- The input buffer `i` of an operator slot. -/
def opInKey (site : Site) (slot i : Nat) : Nat := 2097152 + (site.toNat * 4 + slot) * 4 + i

/-- A buffer. -/
def getBuf (s : State) (k : Nat) : Buf := Table.get Buf.empty s.fab.bufs k

/-- Replace a buffer. -/
def setBuf (s : State) (k : Nat) (b : Buf) : State :=
  { s with fab := { s.fab with bufs := Table.set Buf.empty s.fab.bufs k b } }

/-- The token at the head of a buffer, once it stands there (R60). -/
def Buf.head (b : Buf) (t : Nat) : Option Token :=
  match b.q with
  | (tok, seen) :: _ => if seen ≤ t then some tok else none
  | [] => none

/-- The upstream stage sees a free entry: entries freed in this cycle still count as taken (R55) (DEDUCED, log 30). -/
def Buf.room (b : Buf) (cap t : Nat) : Bool := decide (b.q.length + (if b.freedAt = t then b.freed else 0) < cap)

/-- Put a token in, to stand there from cycle `seen`. -/
def Buf.push (b : Buf) (tok : Token) (seen : Nat) : Buf := { b with q := b.q ++ [(tok, seen)] }

/-- Take the head out in cycle `t`. -/
def Buf.pop (b : Buf) (t : Nat) : Buf :=
  { q := b.q.tail, freed := (if b.freedAt = t then b.freed else 0) + 1, freedAt := t }

/-- The head that a buffer shows now. -/
def headAt (s : State) (k : Nat) : Option Token := (getBuf s k).head (now s)

/-- The head that a consumer with one channel access per cycle can dequeue now: it has taken none from this channel in this cycle (R61). -/
def headToTake (s : State) (k : Nat) : Option Token :=
  if 0 < (getBuf s k).freed ∧ (getBuf s k).freedAt = now s then none else headAt s k

/-- The head stood there before this cycle: it was in sight in the cycle before, and nothing was dequeued from in front of it in this
one (R52, R173). -/
def headedBefore (s : State) (k : Nat) : Bool :=
  match (getBuf s k).q with
  | (_, seen) :: _ => decide (seen < now s) && !(decide (0 < (getBuf s k).freed) && decide ((getBuf s k).freedAt = now s))
  | [] => false

/-- Dequeue the head of a buffer. -/
def popBuf (s : State) (k : Nat) : State := setBuf s k ((getBuf s k).pop (now s))

/-- Enqueue into a buffer. -/
def pushBuf (s : State) (k : Nat) (tok : Token) (seen : Nat) : State := setBuf s k ((getBuf s k).push tok seen)

/-- The endpoint depth of a CE input end (R58, R227). -/
def ceEndDepth (s : State) (site : Site) (e : Nat) : Nat := (bits (ceEnd s site e) 4 4).toNat

/-- The endpoint depth of a port (R58, R232). -/
def portDepth (s : State) (loc : PortAt) : Nat := (bits (portBinding s loc) 0 7).toNat

/-- The depth of an endpoint buffer by site and end (R58). -/
def endDepth (s : State) (site : Site) (e : Nat) : Nat :=
  match siteKind site with
  | .ce => ceEndDepth s site e
  | .mt => if e < 8 then portDepth s ⟨site, BitVec.ofNat 3 e⟩ else 8
  | _ => 8

/-- The entries per VC of a router input (R55): 20 behind a bridge, 4 behind an express link, 2 otherwise. -/
def inDepth (site : Site) (port : Nat) : Nat :=
  let x := (siteX site).toNat
  let y := (siteY site).toNat
  match port with
  | 0 => if y = 0 then 20 else 2
  | 1 => if x = 31 then 20 else 2
  | 2 => if y = 31 then 20 else 2
  | 3 => if x = 0 then 20 else 2
  | 4 => 4
  | 5 => 4
  | 6 => 4
  | 7 => 4
  | _ => 2

/-- The transit time of the link that leaves the site at a port (R55). -/
def transit (site : Site) (port : Nat) : Nat :=
  match port with
  | 0 => if inDepth site 0 = 20 then 9 else 1
  | 1 => if inDepth site 1 = 20 then 9 else 1
  | 2 => if inDepth site 2 = 20 then 9 else 1
  | 3 => if inDepth site 3 = 20 then 9 else 1
  | 4 => 2
  | 5 => 2
  | 6 => 2
  | 7 => 2
  | _ => 0

/-- The site that a link leads to (R1, R54): north lowers y, west lowers x, and a neighbour link on a bridged edge leads to the
facing die (DEDUCED, log 4). -/
def linkSite (site : Site) (port : Nat) : Site :=
  let X := (siteX site).toNat + 32 * ((siteDie site).toNat % 2)
  let Y := (siteY site).toNat + 32 * ((siteDie site).toNat / 2)
  let mk (x y : Nat) : Site :=
    siteIndex (BitVec.ofNat 2 (x / 32 % 2 + 2 * (y / 32 % 2))) (BitVec.ofNat 5 x) (BitVec.ofNat 5 y)
  match port with
  | 0 => mk X (Y - 1)
  | 1 => mk (X + 1) Y
  | 2 => mk X (Y + 1)
  | 3 => mk (X - 1) Y
  | 4 => mk X (Y - 4)
  | 5 => mk (X + 4) Y
  | 6 => mk X (Y + 4)
  | 7 => mk (X - 4) Y
  | _ => site

/-- The input port at which a link's token arrives: the opposite direction. -/
def linkInPort (port : Nat) : Nat :=
  match port with
  | 0 => 2
  | 1 => 3
  | 2 => 0
  | 3 => 1
  | 4 => 6
  | 5 => 7
  | 6 => 4
  | 7 => 5
  | p => p

/-! ## Tokens (R64 to R66) -/

/-- A scalar data token. -/
def scalarTok (w : Word) (hyp : BitVec 6) (refuted psn : Bool) : Token :=
  ⟨false, w.setWidth 512, 0#16, 0#16, false, psn, hyp, refuted⟩

/-- A vector data token. -/
def vectorTok (b : Block) (mask desc : BitVec 16) (hyp : BitVec 6) (refuted psn : Bool) : Token :=
  ⟨true, b, mask, desc, false, psn, hyp, refuted⟩

/-- A control token with its argument and code (R66). -/
def controlTok (vec : Bool) (code : Word) (hyp : BitVec 6) (refuted : Bool) : Token :=
  ⟨vec, code.setWidth 512, 0#16, 0#16, true, false, hyp, refuted⟩

/-- Payload bits [31:0] of a token: a scalar's payload or lane 0. -/
def Token.w0 (t : Token) : Word := lane t.pay 0

/-- The code of a control token, or none for data (R66). -/
def Token.code (t : Token) : Option (BitVec 8) := if t.ctrl then some (bits t.pay 0 8) else none

/-- The argument of a control token (R66). -/
def Token.arg (t : Token) : BitVec 24 := bits t.pay 8 24

/-- Control codes (R66). -/
def cEOT : Word := 1#32

/-- EOF -/
def cEOF : Word := 2#32

/-- EOS -/
def cEOS : Word := 3#32

/-- MARK with its slice number -/
def cMARK (slice : BitVec 24) : Word := slice ++ 0x10#8

/-- SWITCH with its configuration generation -/
def cSWITCH (gen : BitVec 24) : Word := gen ++ 0x11#8

/-- RDV with its argument -/
def cRDV (arg : BitVec 24) : Word := arg ++ 0x13#8

/-- FREED with its count -/
def cFREED (n : Nat) : Word := BitVec.ofNat 24 n ++ 0x20#8

/-- START -/
def cSTART : Word := 0x12#32

/-- FAULT with its argument -/
def cFAULT (arg : BitVec 24) : Word := arg ++ 0x30#8

/-- REPAIR with its argument -/
def cREPAIR (arg : BitVec 24) : Word := arg ++ 0x31#8

/-- The token that starts an element, on VC0 (R44, R66). -/
def startTok : Token := controlTok false cSTART 0#6 false

/-- The token that follows a fault record on VC1 (R370, R371). -/
def faultTok (site : Site) (subt : BitVec 3) (kind : BitVec 1) (code : BitVec 8) : Token :=
  controlTok false (cFAULT (site ++ subt ++ kind ++ code)) 0#6 false

/-- The token that answers a fault record, on VC1 (R376). -/
def repairTok (arg : BitVec 24) : Token := controlTok false (cREPAIR arg) 0#6 false

/-- A token is a control token of the code. -/
def Token.isCode (t : Token) (c : BitVec 8) : Bool := decide (t.code = some c)

/-- MARK and SWITCH, which R52 and R173 handle everywhere. -/
def Token.isMarkOrSwitch (t : Token) : Bool := t.isCode 0x10#8 || t.isCode 0x11#8

/-! ## The region behind an element -/

/-- The instance that owns an element (sub 0 the element, 1 and 2 the AGs of an MT). -/
def ownerOf (s : State) (site : Site) (sub : Nat) : Option Inst :=
  match Table.get 0 s.fab.owner (site.toNat * 4 + sub) with
  | 0 => none
  | n + 1 => findInst s n

/-- The node behind an element. -/
def nodeOf (s : State) (site : Site) (sub : Nat) : Option Node :=
  match ownerOf s site sub with
  | some i => findNode s i.node
  | none => none

/-- Field of a launch record (R28). -/
def Node.fld (n : Node) (lo w : Nat) : BitVec w := bits n.lrec lo w

/-- HYP of a launch record. -/
def Node.hyp (n : Node) : BitVec 6 := n.fld 912 6

/-- HCTX of a launch record. -/
def Node.hctx (n : Node) : BitVec 8 := n.fld 896 8

/-- NODETAG of a launch record. -/
def Node.tag (n : Node) : Word := n.fld 608 32

/-- The scope code of a level under the node's level table (R32), with SCOPECAP: system becomes tenant (R108). -/
def Node.scope (n : Node) (lvl : BitVec 3) : BitVec 3 :=
  let sc := bits (n.fld (384 + 8 * lvl.toNat) 8) 3 3
  if bitAt n.policy 0 && decide (sc = 4#3) then 3#3 else sc

/-- The scope of the level is system and the VF is capped (R108). -/
def Node.clamps (n : Node) (lvl : BitVec 3) : Bool :=
  bitAt n.policy 0 && decide (bits (n.fld (384 + 8 * lvl.toNat) 8) 3 3 = 4#3)

/-- NLEVEL (R28). -/
def Node.nlevel (n : Node) : Nat := (n.fld 272 4).toNat

/-- The number of the outermost level. -/
def Node.outer (n : Node) : BitVec 3 := BitVec.ofNat 3 (n.nlevel - 1)

/-- PTROOT of the node's policy: the address of the level-3 table (R93, R169). -/
def Node.ptroot (n : Node) : Nat := (bits n.policy 64 35).toNat * 2 ^ 17

/-- The tenant of a node, 0 where there is none. -/
def tenantOf (n : Option Node) : BitVec 16 :=
  match n with
  | some n => n.tenant
  | none => 0#16

/-- The hypothesis context of a node, 0 where there is none. -/
def ctxOf (n : Option Node) : BitVec 8 :=
  match n with
  | some n => n.hctx
  | none => 0#8

/-- The format registers of a node, 0 where there is none. -/
def fmtsOf (n : Option Node) : BitVec 128 :=
  match n with
  | some n => n.fld 768 128
  | none => 0#128

/-- The scope of a port's LVL field, which holds the scope code after dispatch (R32, R231), capped under R406. -/
def portScope (n : Option Node) (lvl : BitVec 3) : BitVec 3 :=
  match n with
  | some n => if bitAt n.policy 0 && decide (lvl = 4#3) then 3#3 else lvl
  | none => lvl

/-- Something was injected into the instance's region (R75). -/
def inject (s : State) (i : Option Inst) : State :=
  match i with
  | some i => modInst s i.id fun i => { i with injected := true, quiescent := false, waves := 0 }
  | none => s

/-- A bundle firing, an emission, an operator firing, a port request or an engine command of the region took place (R391) (DEDUCED,
log 141). -/
def progress (s : State) (i : Option Inst) : State :=
  match i with
  | some i => modInst s i.id fun i => { i with progress := true, dogs := 0 }
  | none => s

/-- OR bits into the ESTAT of an instance (R303). -/
def setEstat (s : State) (i : Option Inst) (bitsSet : Word) : State :=
  match i with
  | some i => modInst s i.id fun i => { i with estat := i.estat ||| bitsSet }
  | none => s

/-- OR bits into the ERR of a node (R382). -/
def setErr (s : State) (n : Option Node) (b : BitVec 16) : State :=
  match n with
  | some n => modNode s n.id fun n => { n with err := n.err ||| b }
  | none => s

/-- A token with PSN = 1 that an element dequeues marks the record of its node (R382). -/
def markPsn (s : State) (n : Option Node) (t : Option Token) : State :=
  match t with
  | some t => if t.psn then setErr s n 16#16 else s
  | none => s

/-- The VF whose policy, tables and PASID a tenant's nodes use (R30, R170): the lowest-numbered VF with that TENANT; 0 where
there is none. -/
def tenantVf (s : State) (tenant : BitVec 16) : BitVec 10 :=
  if tenant = 0#16 then
    match (List.range 512).find? fun k => decide (bits (getFn s (BitVec.ofNat 10 (k + 1))).policy 48 16 = 0#16) with
    | some k => BitVec.ofNat 10 (k + 1)
    | none => 0#10
  else
    match s.fns.find? fun kf => decide (1 ≤ kf.1) && decide (kf.1 ≤ 512) && decide (bits kf.2.policy 48 16 = tenant) with
    | some kf => BitVec.ofNat 10 kf.1
    | none => 0#10

/-- The VF behind a node: its own, or for a record of the PF the one that R170 gives. -/
def nodeVf (s : State) (n : Node) : BitVec 10 := if n.sub = 0#10 then tenantVf s n.tenant else n.fn

/-- The bad-descriptor count of the node's VF rises by 1 (R115, R169). -/
def countBd (s : State) (n : Option Node) : State :=
  match n with
  | some n =>
    let f := getFn s (nodeVf s n)
    setFn s (nodeVf s n) { f with policy := setBits f.policy 192 (bits f.policy 192 32 + 1#32) }
  | none => s

/-- The clamp count of the node's VF, and that of the lifetime records, rise by 1 (R108, R169, R430). -/
def countClamp (s : State) (n : Node) : State :=
  let f := getFn s (nodeVf s n)
  let s := setFn s (nodeVf s n) { f with policy := setBits f.policy 224 (bits f.policy 224 32 + 1#32) }
  { s with life := { s.life with live := { s.life.live with clamps := s.life.live.clamps + 1 } } }

/-- The elements of a fenced die have stopped (R394). -/
def dieStops (s : State) (site : Site) : Bool := (getDie s (siteDie site)).fenced

/-- The region may act: its instance runs or is in the marker phase, and it is not frozen (R171 to R175). An element of no
region (the Charon corner, or none at all) acts. -/
def regionRuns (i : Option Inst) : Bool :=
  match i with
  | none => true
  | some i =>
    match i.st with
    | .running => !i.frozen
    | .marking _ => !i.frozen
    | _ => false

/-! ## Element outputs -/

/-- The first skid buffer of an element's output on a local port shows a free entry (R61). -/
def outRoom (s : State) (site : Site) (lp vc : Nat) : Bool := (getBuf s (inKey site lp vc)).room (inDepth site lp) (now s)

/-- The key of the element-to-router direction of a local port among the links' running states. -/
def localKey (site : Site) (lp : Nat) : Nat := 131072 + site.toNat * 16 + lp

/-- The cycle in which an element's next token can cross a local port, which carries one token per cycle (R55) (DEDUCED, log 152). -/
def localAt (s : State) (site : Site) (lp : Nat) : Nat := Nat.max (now s) (Table.get ⟨0, 0⟩ s.fab.outs (localKey site lp)).usedNext

/-- The local port is taken up to a cycle. -/
def useLocal (s : State) (site : Site) (lp at1 : Nat) : State :=
  { s with fab := { s.fab with outs := Table.set ⟨0, 0⟩ s.fab.outs (localKey site lp) ⟨at1, 0⟩ } }

/-- Enqueue a token on an element's output: it stands at the local router input in the cycle after it has crossed the local port, the next
one where no other token of the element waits for that port (R55, R60). -/
def sendOut (s : State) (site : Site) (i : Option Inst) (lp vc : Nat) (tok : Token) : State :=
  let c := localAt s site lp
  inject (useLocal (pushBuf s (inKey site lp vc) tok (c + 1)) site lp (c + 1)) i

/-- An output that takes one token per cycle can take one now: it shows room, and no token of its channel is still to cross the local port
(R61). -/
def sendReady (s : State) (site : Site) (lp vc : Nat) : Bool :=
  outRoom s site lp vc && (getBuf s (inKey site lp vc)).q.all fun x => decide (x.2 ≤ now s)

/-! ## Taking a fault; the return from it (R376, R377) stands in Machine/Faults.lean -/

/-- Change the first entry of a list that satisfies a test. -/
def mapFirst {α : Type} (c : α → Bool) (f : α → α) : List α → List α
  | [] => []
  | x :: xs => if c x then f x :: xs else x :: mapFirst c f xs

/-- The code of a fault (R370). -/
def FaultCode.byte : FaultCode → BitVec 8
  | .transNp => 1#8
  | .transProt => 2#8
  | .bounds => 3#8
  | .align => 4#8
  | .poison => 5#8
  | .hypOvf => 6#8
  | .remoteNak => 7#8
  | .watch => 8#8
  | .trap n => 1#1 ++ n

/-- The number of instance to put in a fault's book-keeping; the element of no region has none. -/
def instNo (i : Option Inst) : Nat :=
  match i with
  | some i => i.id
  | none => 0

/-- The fields of a fault record that come from the region (R372): TIME, TENANT, VF, HCTX. -/
def recordHead (s : State) (n : Option Node) : BitVec 98 :=
  s.cycle ++ tenantOf n ++ (match n with
    | some n => n.sub
    | none => 0#10) ++ ctxOf n

/-- Take a fault: the stopped element's record goes to the corner of its die on VC1, to take a ring slot there, and its FAULT token
follows (R371). The element's own stop is made by the caller. NFAULT counts the FAULT token (R381). -/
def takeFault (s : State) (site : Site) (subt : BitVec 3) (kind : BitVec 1) (i : Option Inst) (rcd : BitVec 512) : State :=
  let d := getDie s (siteDie site)
  let s := setDie s (siteDie site) { d with pend := d.pend ++ [⟨site, subt, kind, instNo i, rcd, faultTok site subt kind (bits rcd 368 8)⟩] }
  match i with
  | some i => modNode s i.node fun n => { n with nfault := if n.nfault = 0xFFFFFFFF#32 then n.nfault else n.nfault + 1#32 }
  | none => s

end Sys2Proof.Machine
end

