-- ==== Sys2Proof/Machine/Operands.lean ====
section
/-! DEFINITION. The operand forms of a CE stage (R225, R249): what each selector reads in every lane, and the view of a
channel head that a firing reads (R249, R289, R404). -/

namespace Sys2Proof.Machine

/-- Entry `i` of a vector, or `d` beyond its end. -/
def vget {α : Type} {n : Nat} (d : α) (v : Vector α n) (i : Nat) : α := if h : i < n then v[i]'h else d

/-- The vector with entry `i` replaced; beyond its end nothing changes. -/
def vset {α : Type} {n : Nat} (v : Vector α n) (i : Nat) (x : α) : Vector α n := if h : i < n then v.set i x h else v

/-- What a firing reads of the token at the head of an end: its payload with the lanes of a clear mask bit at 0, its mask and
its descriptor (R249). A control token reads 0 with mask 0 (R289); a poisoned payload reads 0 (R404). -/
structure HeadView where
  pay : Block
  mask : BitVec 16
  desc : BitVec 16
  deriving DecidableEq, Repr

/-- The lanes of `new` under the mask, and of `old` elsewhere. -/
def mergeLanes (old new : Block) (m : BitVec 16) : Block := ofLanes fun l => if bitAt m l then lane new l else lane old l

/-- The view of a token (R249, R289, R404). -/
def Token.view (t : Token) : HeadView :=
  if t.ctrl then ⟨0#512, 0#16, 0#16⟩
  else ⟨if t.psn then 0#512 else if t.vec then mergeLanes 0#512 t.pay t.mask else t.pay, t.mask, t.desc⟩

/-- The view of the head of an input end of a CE; an end that shows no head reads 0. -/
def headView (s : State) (site : Site) (e : Nat) : HeadView :=
  match headAt s (endKey site e) with
  | some t => t.view
  | none => ⟨0#512, 0#16, 0#16⟩

/-- The value of an operand selector in every lane, for a task as it stands inside its firing (R249): stages below the
reader have already written their p and f, stages at or above it have not; accumulators and counters stand as they did at
the start of the firing. -/
def selBlock (s : State) (site : Site) (t : BitVec 3) (k : Task) (sel : BitVec 6) : Block :=
  let n := sel.toNat
  if n < 6 then vget 0#512 k.p n
  else if n < 8 then vget 0#512 k.a (n - 6)
  else if n < 24 then splat (ceConst s site (n - 8))
  else if n < 28 then (headView s site (n - 24)).pay
  else if n < 32 then splat (lane (headView s site (n - 24)).pay 0)
  else if n < 36 then splat (vget 0#32 k.lc (n - 32))
  else if n = 36 then ofLanes fun l => BitVec.ofNat 32 l
  else if n = 37 then splat (t.setWidth 32)
  else if n = 38 then splat k.group
  else if n < 48 then 0#512
  else splat (BitVec.ofInt 32 ((n : Int) - 56))

/-- The active lanes of a stage (R250). -/
def activeMask (k : Task) (pred : BitVec 4) : BitVec 16 :=
  let j := (bits pred 0 3).toNat
  if j = 7 then 0xFFFF#16
  else
    let f := vget 0#16 k.f j
    if bitAt pred 3 then ~~~f else f

/-- The descriptor that a narrow dot takes for an operand: that of the head when the operand selects vi, else the constant
k14 or k15 (R275). -/
def dotDesc (s : State) (site : Site) (sel : BitVec 6) (konst : Nat) : BitVec 16 :=
  if selVi sel then (headView s site (sel.toNat - 24)).desc else bits (ceConst s site konst) 0 16

end Sys2Proof.Machine
end

