-- ==== Sys2Proof/Machine/Translate.lean ====
section
/-! DEFINITION. Translation (R92 to R96, R400): the four-level walk, its updates of A and D, and the caches. -/

namespace Sys2Proof.Machine

/-! ## Plain storage -/

/-- A byte of module memory (DESIGN CHOICE, log 5). -/
def memByte (s : State) (a : Nat) : Byte := Table.get 0#8 s.store.mem a

/-- A byte of host memory, by the address that ATS gave. -/
def hostByte (s : State) (a : Nat) : Byte := Table.get 0#8 s.store.host a

/-- Write a byte of module memory. -/
def setMemByte (s : State) (a : Nat) (b : Byte) : State :=
  { s with store := { s.store with mem := Table.set 0#8 s.store.mem a b } }

/-- Write a byte of host memory. -/
def setHostByte (s : State) (a : Nat) (b : Byte) : State :=
  { s with store := { s.store with host := Table.set 0#8 s.store.host a b } }

/-- The poison mark of a module block. -/
def memPoisoned (s : State) (a : Nat) : Bool := Table.get false s.store.memPsn (a / 64)

/-- The end of module memory: 32 modules (R92). -/
def moduleTop : Nat := 0x30000000000

/-- The module of an address (R92). -/
def moduleOf (a : Nat) : Nat := a / 4096 % 32

/-- The die whose link serves a module, and the link's number there (R20). -/
def moduleDie (m : Nat) : BitVec 2 := BitVec.ofNat 2 (m / 8)

/-- the link -/
def moduleLink (m : Nat) : BitVec 3 := BitVec.ofNat 3 m

/-- The module of an address is out of reach: the bridges of its die have failed (R394). -/
def moduleCut (s : State) (a : Nat) : Bool := (getDie s (moduleDie (moduleOf a))).cut

/-- A table entry as it stands in module memory; none when its block is poisoned (R400) or out of reach (R394). -/
def entryAt (s : State) (a : Nat) : Option (BitVec 64) :=
  if memPoisoned s a || moduleCut s a then none else some (BitVec.ofNat 64 (bytesNat (fun i => memByte s (a + i)) 8))

/-! ## The walk -/

/-- ADDR of a table entry as an address (R94). -/
def entAddr (e : BitVec 64) : Nat := (bits e 12 40).toNat * 4096

/-- TYPE of a leaf (R94). -/
def entType (e : BitVec 64) : BitVec 2 := bits e 6 2

/-- A non-leaf entry names a table of `size` bytes, aligned to its size and wholly in module memory (R400). -/
def tableOk (e : BitVec 64) (size : Nat) : Bool :=
  decide (entAddr e % size = 0) && decide (entAddr e + size ≤ moduleTop)

/-- A leaf of 2^lg bytes is well-formed (R400): no S64 above level 0, no reserved bit, ADDR aligned, a TYPE 0 page in module
memory, a TYPE 2 page with a node. -/
def leafOk (e : BitVec 64) (lg : Nat) : Bool :=
  (decide (lg = 16) || !bitAt e 2) && decide (bits e 9 3 = 0#3) && decide (entAddr e % 2 ^ lg = 0) &&
  (decide (entType e ≠ 0#2) || decide (entAddr e + 2 ^ lg ≤ moduleTop)) &&
  (decide (entType e ≠ 2#2) || decide (bits e 52 12 ≠ 0#12))

/-- A leaf that a walk reached: the entry, where it stands, and the size of its page. -/
structure Leaf where
  ent : BitVec 64
  loc : Nat
  lg : Nat
  deriving DecidableEq, Repr

/-- A valid leaf, checked. -/
def leafResult (e : BitVec 64) (loc lg : Nat) : Except FaultCode Leaf :=
  if leafOk e lg then .ok ⟨e, loc, lg⟩ else .error .transProt

/-- A leaf that the Apsis engine moves, though V is 0: its access waits (R89, R378). -/
def entMoves (e : BitVec 64) : Bool := bitAt e 8 && bitAt e 1

/-- Read a table entry: POISON for a poisoned block, TRANS_NP for V = 0 (R400, R370) (DESIGN CHOICE, log 29). -/
def readEntry (s : State) (a : Nat) : Except FaultCode (BitVec 64) :=
  match entryAt s a with
  | none => .error .poison
  | some e => if bitAt e 0 || entMoves e then .ok e else .error .transNp

/-- Level 0 of a walk: the 64 KiB leaf at the head of the group of 16, or the entry of the page itself (R94). -/
def walk0 (s : State) (table va : Nat) : Except FaultCode Leaf :=
  let i := va / 4096 % 512
  let a0 := table + 8 * (i / 16 * 16)
  match entryAt s a0 with
  | none => .error .poison
  | some g =>
    if (bitAt g 0 || entMoves g) && bitAt g 1 && bitAt g 2 then leafResult g a0 16
    else
      match readEntry s (table + 8 * i) with
      | .error c => .error c
      | .ok e => if bitAt e 1 then leafResult e (table + 8 * i) 12 else .error .transProt

/-- Level 1 of a walk. -/
def walk1 (s : State) (table va : Nat) : Except FaultCode Leaf :=
  let a := table + 8 * (va / 2 ^ 21 % 512)
  match readEntry s a with
  | .error c => .error c
  | .ok e =>
    if bitAt e 1 then leafResult e a 21
    else if tableOk e 4096 then walk0 s (entAddr e) va else .error .transProt

/-- Level 2 of a walk. -/
def walk2 (s : State) (table va : Nat) : Except FaultCode Leaf :=
  let a := table + 8 * (va / 2 ^ 30 % 4096)
  match readEntry s a with
  | .error c => .error c
  | .ok e =>
    if bitAt e 1 then leafResult e a 30
    else if tableOk e 4096 then walk1 s (entAddr e) va else .error .transProt

/-- The walk from the root (R93, R400): level 3 never holds a leaf. -/
def walkTables (s : State) (root va : Nat) : Except FaultCode Leaf :=
  match readEntry s (root + 8 * (va / 2 ^ 42 % 16384)) with
  | .error c => .error c
  | .ok e => if !bitAt e 1 && tableOk e 32768 then walk2 s (entAddr e) va else .error .transProt

/-- A leaf of host memory with V = 0, where the Apsis engine may hold a page at T2 (R378) (DEDUCED, log 176). -/
def absentLeaf (e : BitVec 64) (loc lg : Nat) : Option Leaf :=
  if !bitAt e 0 && bitAt e 1 && decide (entType e = 1#2) && leafOk e lg then some ⟨e, loc, lg⟩ else none

/-- Such a leaf at level 0. -/
def absent0 (s : State) (table va : Nat) : Option Leaf :=
  let i := va / 4096 % 512
  match entryAt s (table + 8 * (i / 16 * 16)), entryAt s (table + 8 * i) with
  | some g, some e =>
    if bitAt g 1 && bitAt g 2 then absentLeaf g (table + 8 * (i / 16 * 16)) 16 else absentLeaf e (table + 8 * i) 12
  | _, _ => none

/-- Such a leaf behind the entry at an address, whose leaf maps 2^lg bytes. -/
def absentAt (s : State) (a lg size : Nat) (next : Nat → Option Leaf) : Option Leaf :=
  match entryAt s a with
  | none => none
  | some e => if !bitAt e 0 then absentLeaf e a lg else if !bitAt e 1 && tableOk e size then next (entAddr e) else none

/-- Such a leaf for an address. -/
def absentFor (s : State) (root va : Nat) : Option Leaf :=
  match readEntry s (root + 8 * (va / 2 ^ 42 % 16384)) with
  | .error _ => none
  | .ok e =>
    if bitAt e 1 || !tableOk e 32768 then none
    else
      absentAt s (entAddr e + 8 * (va / 2 ^ 30 % 4096)) 30 4096 fun t =>
        absentAt s (t + 8 * (va / 2 ^ 21 % 512)) 21 4096 fun t => absent0 s t va

/-- What a walk for an access comes to. -/
inductive Xlat where
  | ok (t : Trans)
  /-- the page moves: the access waits (R89) -/
  | wait
  | fail (c : FaultCode)
  deriving DecidableEq, Repr

/-- The leaf permits the access (R94, R370): TYPE 3, or W = 0 at an access that needs W, refuses it. -/
def leafPermits (l : Leaf) (needW : Bool) : Bool :=
  decide (entType l.ent ≠ 3#2) && (!needW || bitAt l.ent 3)

/-- The base of the page that the leaf maps: module or peer address, or what ATS answers for a host page (R94, R401) (DESIGN
CHOICE, log 8). -/
def leafBase (pasid : BitVec 20) (l : Leaf) : Option Nat :=
  if entType l.ent = 1#2 then Config.ats pasid (entAddr l.ent) else some (entAddr l.ent)

/-- Set A, and for an access that needs W also D, in the entry (R94). -/
def setAD (s : State) (l : Leaf) (needW : Bool) : State :=
  let b := memByte s l.loc
  setMemByte s l.loc (b ||| 0x10#8 ||| (if needW then 0x20#8 else 0#8))

/-- The cached form of a leaf after its walk. -/
def tlbOf (tenant : BitVec 16) (va : Nat) (l : Leaf) (base : Nat) (needW : Bool) : TlbEnt :=
  { tenant := tenant, va := va / 2 ^ l.lg * 2 ^ l.lg, lg := l.lg, ty := entType l.ent, node := bits l.ent 52 12, base := base,
    w := bitAt l.ent 3, d := needW || bitAt l.ent 5 }

/-- The translation that a cached entry gives. -/
def TlbEnt.trans (e : TlbEnt) (va : Nat) : Trans := ⟨e.ty, e.node, e.base + va % 2 ^ e.lg, e.lg⟩

/-- A cached entry serves an access: tenant and page agree, and an access that needs W finds W and D (R94, R95). -/
def TlbEnt.serves (e : TlbEnt) (tenant : BitVec 16) (va : Nat) (needW : Bool) : Bool :=
  decide (e.tenant = tenant) && decide (e.va = va / 2 ^ e.lg * 2 ^ e.lg) && (!needW || (e.w && e.d))

/-- Look an access up in a cache. -/
def tlbFind (es : List TlbEnt) (tenant : BitVec 16) (va : Nat) (needW : Bool) : Option TlbEnt :=
  es.find? fun e => e.serves tenant va needW

/-- Put an entry into a cache of `cap` entries: it replaces an entry for the same page, else the oldest (log 10). -/
def tlbPut (es : List TlbEnt) (e : TlbEnt) (cap : Nat) : List TlbEnt :=
  (e :: es.filter fun x => !(decide (x.tenant = e.tenant) && decide (x.va = e.va) && decide (x.lg = e.lg))).take cap

/-- Put an entry into the translation cache of a die (R95). -/
def diePut (s : State) (d : BitVec 2) (e : TlbEnt) : State :=
  let x := getDie s d
  setDie s d { x with tlb := tlbPut x.tlb e 16384 }

/-- A walk for an access of a node (R94, R95, R400): reaching a leaf that permits the access sets A and D, whatever ATS then answers,
and the die's cache takes the entry. The entry's block has just been read, so the update meets no poison. -/
def walkFor (s : State) (d : BitVec 2) (n : Node) (va : Nat) (needW : Bool) : State × Xlat :=
  match walkTables s n.ptroot va with
  | .error c => (s, .fail c)
  | .ok l =>
    if !leafPermits l needW then (s, .fail .transProt)
    else if bitAt l.ent 8 then (s, .wait)
    else
      match leafBase (getFn s (nodeVf s n)).pasid l with
      | none => (setAD s l needW, .fail .transNp)
      | some base =>
        let e := tlbOf n.tenant va l base needW
        (diePut (setAD s l needW) d e, .ok (e.trans va))

/-- The walks that hold or wait for a walker (R401). -/
def Die.onWalkers (d : Die) : List Walk := d.walks.filter fun w => !w.parked

/-- All 192 walkers of a die are at work (R95). -/
def walkersBusy (s : State) (d : BitVec 2) : Bool := decide (192 ≤ (getDie s d).onWalkers.length)

/-- The walks that can go on: those on the 192 walkers, and those that wait for one of the 64 ATS places (R401). -/
def Die.served (d : Die) : List Walk := d.onWalkers.take 192 ++ d.walks.filter fun w => w.parked

/-- The walks that wait on an ATS translation. -/
def Die.onAts (d : Die) : List Walk := d.walks.filter fun w => w.ats.isSome

/-- The walk is made for this access. -/
def Walk.isFor (w : Walk) (who : Walker) (va : Nat) (needW : Bool) : Bool :=
  decide (w.who = who) && decide (w.va.toNat = va) && decide (w.needW = needW)

/-- Ask for a walk (R95), unless the same access already waits. -/
def postWalk (s : State) (d : BitVec 2) (n : Node) (who : Walker) (va : Nat) (needW : Bool) : State :=
  let x := getDie s d
  let w : Walk := ⟨who, n.tenant, n.ptroot, nodeVf s n, BitVec.ofNat 56 va, needW, none, false⟩
  if x.walks.any fun y => y.isFor who w.va.toNat needW then s else setDie s d { x with walks := x.walks ++ [w] }

/-- The walk of this access has failed. -/
def walkFailed (s : State) (d : BitVec 2) (who : Walker) (va : Nat) (needW : Bool) : Option FaultCode :=
  ((getDie s d).failed.find? fun f => f.1.isFor who va needW).map Prod.snd

/-- Some of a die's walks and of their failures are no longer wanted. -/
def loseWalks (s : State) (d : BitVec 2) (p : Walk → Bool) : State :=
  let x := getDie s d
  if x.walks.any p || x.failed.any (fun f => p f.1) then
    setDie s d { x with walks := x.walks.filter fun w => !p w, failed := x.failed.filter fun f => !p f.1 }
  else s

/-- An access is served: no walk of it, and no failure, stays. -/
def clearWalk (s : State) (d : BitVec 2) (who : Walker) (va : Nat) (needW : Bool) : State :=
  loseWalks s d fun w => w.isFor who va needW

/-- The requester belongs to a region. -/
def Walker.ofRegion (s : State) (i : Inst) : Walker → Bool
  | .ag l => i.elems.contains (l.site.toNat * 4 + 1 + l.sub.toNat)
  | .port l => i.elems.contains (l.site.toNat * 4)
  | .op l => i.ops.contains (l.site, l.slot)
  | .job k => s.dist.jobs.any fun j => decide (j.id = k) && decide (j.inst = i.id)
  | .accept _ => false

/-- The walks of a region's requesters are given up: they are asked for anew. -/
def dropWalks (s : State) (i : Inst) : State :=
  [0#2, 1#2, 2#2, 3#2].foldl (fun s d => loseWalks s d fun w => w.who.ofRegion s i) s

/-- The access needs an ATS translation: its leaf maps a host page that does not move (R94, R401). -/
def needsAts (s : State) (n : Node) (va : Nat) (needW : Bool) : Bool :=
  match walkTables s n.ptroot va with
  | .ok l => leafPermits l needW && !bitAt l.ent 8 && decide (entType l.ent = 1#2)
  | .error _ => false

/-- The translation of an engine's access, of a REPLAY record or of a footprint list (R95, R401): the die's cache, or a walk on a walker
of the die, which waits for ATS where the page is the host's. A job's failures stay until it ends. -/
def xlate (s : State) (d : BitVec 2) (n : Node) (who : Walker) (va : Nat) (needW : Bool) : State × Xlat :=
  match walkFailed s d who va needW with
  | some c =>
    (match who with
      | .job _ => s
      | _ => clearWalk s d who va needW, .fail c)
  | none =>
    match tlbFind (getDie s d).tlb n.tenant va needW with
    | some e => (clearWalk s d who va needW, .ok (e.trans va))
    | none =>
      if needsAts s n va needW then (postWalk s d n who va needW, .wait)
      else if walkersBusy s d then (s, .wait)
      else walkFor s d n va needW

/-! ## The home of an address -/

/-- The home key of a translated block: module blocks at their address, host blocks above 2^52, the blocks of peer node `k`
above (2 + k) × 2^52. -/
def homeKey (t : Trans) : Nat :=
  let blk := t.pa / 64 * 64
  match t.ty.toNat with
  | 0 => blk
  | 1 => 2 ^ 52 + blk
  | _ => (2 + t.node.toNat) * 2 ^ 52 + blk

/-- The home is module memory. -/
def homeIsModule (h : Nat) : Bool := decide (h < 2 ^ 52)

/-- The home is host memory. -/
def homeIsHost (h : Nat) : Bool := decide (2 ^ 52 ≤ h) && decide (h < 2 * 2 ^ 52)

/-- The home is a peer's memory. -/
def homeIsPeer (h : Nat) : Bool := decide (2 * 2 ^ 52 ≤ h)

/-- The peer node of a home. -/
def homeNode (h : Nat) : BitVec 12 := BitVec.ofNat 12 (h / 2 ^ 52 - 2)

/-- The address within the home. -/
def homeAddr (h : Nat) : Nat := h % 2 ^ 52

/-- The block that stands at a home, with its descriptor and poison mark (R82, R403); one out of reach is read as poison (R394). A peer's block is not at hand (DESIGN CHOICE,
log 6). -/
def homeBlock (s : State) (h : Nat) : BlkVal :=
  let a := homeAddr h
  if homeIsModule h then
    ⟨ofBytes fun i => memByte s (a + i), Table.get 0x00FF#16 s.store.memDesc (a / 64), memPoisoned s a || moduleCut s a⟩
  else if homeIsHost h then ⟨ofBytes fun i => hostByte s (a + i), Config.hostDesc (a / 64), Table.get false s.store.hostPsn (a / 64)⟩
  else ⟨0#512, 0x00FF#16, false⟩

/-- Write the bytes from `i` downwards that a mask selects, to module or host memory. -/
def writeBytes (s : State) (module : Bool) (a : Nat) (mask : BitVec 64) (b : Block) : Nat → State
  | 0 => s
  | i + 1 =>
    let s := writeBytes s module a mask b i
    if bitAt mask i then
      if module then setMemByte s (a + i) (blockByte b i) else setHostByte s (a + i) (blockByte b i)
    else s

/-- Write to a block of module memory under a byte mask, with the descriptor when one is given (R83); poisoned data marks the block, and
only a write of all 64 bytes in one access clears a mark (R403, R404). -/
def writeModule (s : State) (a : Nat) (mask : BitVec 64) (b : Block) (desc : Option (BitVec 16)) (psn : Bool) : State :=
  let s := writeBytes s true a mask b 64
  let p := psn || (memPoisoned s a && decide (mask ≠ BitVec.allOnes 64))
  let s := { s with store := { s.store with memPsn := Table.set false s.store.memPsn (a / 64) p } }
  match desc with
  | some d => { s with store := { s.store with memDesc := Table.set 0x00FF#16 s.store.memDesc (a / 64) d } }
  | none => s

/-- Write to a block of host memory under a byte mask, with its poison as for a module block (R404, R412) (DEDUCED, log 179). -/
def writeHost (s : State) (a : Nat) (mask : BitVec 64) (b : Block) (psn : Bool) : State :=
  let s := writeBytes s false a mask b 64
  let p := psn || (Table.get false s.store.hostPsn (a / 64) && decide (mask ≠ BitVec.allOnes 64))
  { s with store := { s.store with hostPsn := Table.set false s.store.hostPsn (a / 64) p } }

/-- Write to the block at a home under a byte mask. A module out of reach takes no write (R394), and a peer's block is not at hand. -/
def writeHome (s : State) (h : Nat) (mask : BitVec 64) (b : Block) (desc : Option (BitVec 16)) (psn : Bool) : State :=
  if mask = 0#64 then s
  else if homeIsModule h then (if moduleCut s (homeAddr h) then s else writeModule s (homeAddr h) mask b desc psn)
  else if homeIsHost h then writeHost s (homeAddr h) mask b psn
  else s

end Sys2Proof.Machine
end

