-- ==== Sys2Proof/Machine/Stash.lean ====
section
/-! DEFINITION. The stash and visibility (R78 to R81, R98 to R104, R111, R162): what a load returns, what an access leaves in a stash, and
where a store takes its place. A load returns the latest store visible to it in the order of steps, which is one of the orders that
R101 and R104 allow (log 11). -/

namespace Sys2Proof.Machine

/-- Bytes of `new` under a byte mask, bytes of `old` elsewhere. -/
def mergeBytes (old new : Block) (m : BitVec 64) : Block :=
  ofBytes fun i => if bitAt m i then blockByte new i else blockByte old i

/-! ## Parties (R98) -/

/-- A party (R98): the region and the die that contain it, the tile through whose stash it works, the port of it, the engine job, and
the key of its program timestamp where it is no port. -/
structure Party where
  inst : Option Nat
  die : Option (BitVec 2)
  mt : Option Site
  port : Option (BitVec 3)
  job : Option Nat
  key : Nat
  deriving DecidableEq, Repr

/-- The number of the instance that owns a memory tile. -/
def regionOf (s : State) (site : Site) : Option Nat := (ownerOf s site 0).map fun i => i.id

/-- A memory tile's port as a party. -/
def portParty (s : State) (loc : PortAt) : Party :=
  ⟨regionOf s loc.site, some (siteDie loc.site), some loc.site, some loc.port, none, 0⟩

/-- A REPLAY operator, which works through the stash of its MT (R310). -/
def opParty (s : State) (mt : Site) (loc : OpAt) : Party :=
  ⟨regionOf s mt, some (siteDie mt), some mt, none, none, 2 ^ 16 + 2 * (loc.site.toNat * 4 + loc.slot.toNat)⟩

/-- A party outside every region: the loader. -/
def loaderParty : Party := ⟨none, none, none, none, none, 0⟩

/-- The Apsis engine and the hypothesis controller. -/
def controlParty : Party := ⟨none, none, none, none, none, 1⟩

/-- A walker of a die. -/
def walkerParty (d : BitVec 2) : Party := ⟨none, some d, none, none, none, 4 + d.toNat⟩

/-- A peer package, by its node. -/
def peerParty (node : BitVec 12) : Party := ⟨none, none, none, none, none, 8 + node.toNat⟩

/-- A host agent, by its function. -/
def hostParty (fn : BitVec 10) : Party := ⟨none, none, none, none, none, 2 ^ 13 + fn.toNat⟩

/-- The timestamp key of an engine job. -/
def jobKey (id : Nat) : Nat := 2 ^ 16 + 1 + 2 * id

/-- Scope codes (R32). -/
def scopeRegion : BitVec 3 := 0#3

/-- die scope -/
def scopeDie : BitVec 3 := 1#3

/-- device scope -/
def scopeDevice : BitVec 3 := 2#3

/-- tenant scope -/
def scopeTenant : BitVec 3 := 3#3

/-- system scope -/
def scopeSystem : BitVec 3 := 4#3

/-- A scope narrower than the device. -/
def scopeNarrow (scope : BitVec 3) : Bool := decide (scope.toNat < 2)

/-! ## Hypothesis chains (R111, R161) -/

/-- The key of a hypothesis id in its context's table. -/
def hypKey (ctx : BitVec 8) (h : BitVec 6) : Nat := ctx.toNat * 64 + h.toNat

/-- The parent of a live id; none for an id that is not live. Id 0 is always live and its own parent (R161). -/
def hypParent (s : State) (ctx : BitVec 8) (h : BitVec 6) : Option (BitVec 6) :=
  if h = 0#6 then some 0#6 else Table.get none s.hyps.parent (hypKey ctx h)

/-- The id is live (R161). -/
def hypLive (s : State) (ctx : BitVec 8) (h : BitVec 6) : Bool := (hypParent s ctx h).isSome

/-- The nonzero ids of the chain h, parent(h), … (R111): parents are below their children, so 64 links suffice (DEDUCED, log 26). -/
def hypChain (s : State) (ctx : BitVec 8) : Nat → BitVec 6 → List (BitVec 6)
  | 0, _ => []
  | n + 1, h =>
    if h = 0#6 then []
    else
      h :: (match hypParent s ctx h with
        | some p => hypChain s ctx n p
        | none => [])

/-- `h` is `a` or a descendant of it. -/
def hypUnder (s : State) (ctx : BitVec 8) (a h : BitVec 6) : Bool := (hypChain s ctx 64 h).contains a

/-- Two tags name the same versions: hypothesis 0 is the same in every context (R111). -/
def sameTag (ctx : BitVec 8) (tag : BitVec 6) (ctx' : BitVec 8) (tag' : BitVec 6) : Bool :=
  decide (tag = tag') && (decide (tag = 0#6) || decide (ctx = ctx'))

/-! ## What a block looks like to a party -/

/-- Bytes that one place supplies for a block. -/
structure Layer where
  mask : BitVec 64
  data : Block
  desc : Option (BitVec 16)
  psn : Bool
  deriving DecidableEq, Repr

/-- One layer over what stands below it. -/
def Layer.over (l : Layer) (b : BlkVal) : BlkVal :=
  if l.mask = 0#64 then { b with desc := l.desc.getD b.desc }
  else
    ⟨mergeBytes b.data l.data l.mask, l.desc.getD b.desc,
      l.psn || (b.psn && decide (l.mask ≠ BitVec.allOnes 64))⟩

/-- Layers, the nearest first, over a base. -/
def layersOver (ls : List Layer) (b : BlkVal) : BlkVal := ls.foldr Layer.over b

/-- The lines of a home over all memory tiles, with their tiles. -/
def linesAt (s : State) (home : Nat) : List (Site × Line) :=
  s.fab.mts.flatMap fun km =>
    (km.2.lines.filter fun l => decide (l.home = home)).map fun l => (BitVec.ofNat 12 km.1, l)

/-- Those of one tag. -/
def linesTagged (s : State) (home : Nat) (ctx : BitVec 8) (tag : BitVec 6) : List (Site × Line) :=
  (linesAt s home).filter fun x => sameTag x.2.ctx x.2.tag ctx tag

/-- A line as a layer over some of its bytes. -/
def Line.layer (l : Line) (m : BitVec 64) (desc : Bool) : Layer :=
  ⟨m, l.data, if desc && decide (m ≠ 0#64) then some l.desc else none, l.psn⟩

/-- Dirty bytes that stand in the order of the device. -/
def Line.mRel (l : Line) : BitVec 64 := l.dirty &&& ~~~l.unrel

/-- An unreleased version belongs to a block and a tag. -/
def Pend.at (x : Pend) (home : Nat) (ctx : BitVec 8) (tag : BitVec 6) : Bool :=
  decide (x.home = home) && sameTag x.ctx x.tag ctx tag

/-- The unreleased versions of a tag that a party sees (R101, R102), the nearest first: those that its region stored at region scope,
the latest first, then those of die scope, its die's as the die's order has them, and its region's on other dies. -/
def heldLayers (s : State) (p : Party) (home : Nat) (ctx : BitVec 8) (tag : BitVec 6) : List Layer :=
  let ps := (s.store.pend.filter fun x => x.at home ctx tag).reverse
  ((ps.filter fun x => decide (x.scope = scopeRegion) && decide (x.inst = p.inst)).map fun x => ⟨x.mask, x.data, x.desc, x.psn⟩) ++
  ((ps.filter fun x => decide (x.scope = scopeDie) && (decide (some x.die = p.die) || (x.inst.isSome && decide (x.inst = p.inst)))).map fun x =>
    let m := if some x.die = p.die then x.vis else x.mask
    ⟨m, x.data, if m = x.mask then x.desc else none, x.psn⟩)

/-- A block of a remote write that has not been answered, as a layer (R104). -/
def Remote.layer (r : Remote) (home : Nat) : Layer :=
  let h := (2 + r.node.toNat) * 2 ^ 52 + r.addr / 64 * 64
  let i := (home - h) / 64
  if r.kind = 1#3 ∧ h ≤ home ∧ home < h + 64 * r.blocks then
    let m : BitVec 64 := bits r.mask (64 * i) 64
    ⟨m, bits r.data (512 * i) 512, if r.dset && decide (m ≠ 0#64) then some (bits r.descs (16 * i) 16) else none, bitAt r.psn i⟩
  else ⟨0#64, 0#512, none, false⟩

/-- The untagged layers that the order of the device holds (R101): released dirty bytes of any tile, then, for a peer's block, the
writes on their way to it, the latest first (R104). -/
def deviceLayers (s : State) (home : Nat) : List Layer :=
  ((linesTagged s home 0#8 0#6).map fun x => x.2.layer x.2.mRel x.2.descSet) ++
  (if homeIsPeer home then s.links.remotes.reverse.map fun r => r.layer home else [])

/-- The layers of one nonzero tag that a party sees (R111, R162): unreleased versions, tagged lines, overlay entries. -/
def tagLayers (s : State) (p : Party) (home : Nat) (ctx : BitVec 8) (tag : BitVec 6) : List Layer :=
  heldLayers s p home ctx tag ++
  ((linesTagged s home ctx tag).map fun x => x.2.layer (x.2.valid &&& ~~~x.2.unrel) x.2.descSet) ++
  ((s.hyps.ovl.filter fun o => decide (o.home = home) && decide (o.tag = tag) && decide (o.ctx = ctx)).map fun o =>
    ⟨o.mask, o.data, if o.descSet then some o.desc else none, o.psn⟩)

/-- The untagged layers that a party sees (R101, R102), the nearest first: unreleased versions, the device's order, and the clean bytes
of its own tile (DESIGN CHOICE, log 11). -/
def zeroLayers (s : State) (p : Party) (home : Nat) : List Layer :=
  heldLayers s p home 0#8 0#6 ++ deviceLayers s home ++
  (((linesTagged s home 0#8 0#6).filter fun x => decide (some x.1 = p.mt) && !x.2.ro).map fun x =>
    x.2.layer (x.2.valid &&& ~~~(x.2.dirty ||| x.2.unrel)) true)

/-- All layers of a load under `h` (R111): the tags of the chain from `h` upwards, then the untagged ones. -/
def loadLayers (s : State) (p : Party) (home : Nat) (ctx : BitVec 8) (h : BitVec 6) : List Layer :=
  ((hypChain s ctx 64 h).flatMap fun t => tagLayers s p home ctx t) ++ zeroLayers s p home

/-- What a load of a block returns, over a base that a peer has sent or that stands at its home. -/
def viewOver (s : State) (p : Party) (home : Nat) (ctx : BitVec 8) (h : BitVec 6) (base : BlkVal) : BlkVal :=
  layersOver (loadLayers s p home ctx h) base

/-- What a load of a block returns (R101, R102, R104, R111). -/
def view (s : State) (p : Party) (home : Nat) (ctx : BitVec 8) (h : BitVec 6) : BlkVal :=
  viewOver s p home ctx h (homeBlock s home)

/-- The block as the order of the device holds it, which a line takes when it is installed. -/
def deviceView (s : State) (home : Nat) (base : BlkVal) : BlkVal := layersOver (deviceLayers s home) base

/-- A read of poisoned data delivers payload 0 with the descriptor as stored (R403). -/
def BlkVal.delivered (b : BlkVal) : BlkVal := if b.psn then { b with data := 0#512 } else b

/-! ## Timestamps (R101) -/

/-- The program timestamp of a party. -/
def partyTs (s : State) (p : Party) : Nat :=
  match p.mt, p.port with
  | some site, some n => (getPort s ⟨site, n⟩).pts
  | _, _ => Table.get 0 s.store.pts p.key

/-- Raise the program timestamp of a party to that of its access. -/
def raiseTs (s : State) (p : Party) (ts : Nat) : State :=
  match p.mt, p.port with
  | some site, some n => setPort s ⟨site, n⟩ { getPort s ⟨site, n⟩ with pts := Nat.max (getPort s ⟨site, n⟩).pts ts }
  | _, _ => { s with store := { s.store with pts := Table.set 0 s.store.pts p.key (Nat.max (Table.get 0 s.store.pts p.key) ts) } }

/-- Change every line of every tile but one; a line for which the change answers none goes. -/
def mapLines (s : State) (skip : Option Site) (f : Site → Line → Option Line) : State :=
  let one (km : Nat × Mt) : Nat × Mt :=
    if some (BitVec.ofNat 12 km.1) = skip then km
    else (km.1, { km.2 with lines := km.2.lines.filterMap (f (BitVec.ofNat 12 km.1)) })
  let mts := (s.fab.mts.map one).filter (fun km => decide (km.2 ≠ Mt.empty))
  { s with fab := { s.fab with mts := mts } }

/-- A load takes the larger of its party's timestamp and the write timestamp of the block's lines, and their leases extend past it
(R101); a read-only line takes no lease (R81) (DEDUCED, log 18). -/
def stampLoad (s : State) (p : Party) (home : Nat) : State :=
  let ts := (linesAt s home).foldl (fun t x => if x.2.ro then t else Nat.max t x.2.wts) (partyTs s p)
  let s := mapLines s none fun _ l => some (if l.home = home ∧ !l.ro then { l with lease := Nat.max l.lease (ts + 1) } else l)
  raiseTs s p ts

/-- The timestamp of a store: one above the lease of the block's lines, or above its party's timestamp where no line stands (R101)
(DEDUCED, log 18). -/
def storeTs (s : State) (p : Party) (home : Nat) : Nat :=
  match (linesAt s home).filter fun x => !x.2.ro with
  | [] => partyTs s p + 1
  | ls => ls.foldl (fun t x => Nat.max t x.2.lease) 0 + 1

/-! ## Writing to the tier -/

/-- Queue a remote request. -/
def pushRemote (s : State) (r : Remote) : State :=
  { s with links := { s.links with remotes := s.links.remotes ++ [{ r with idx := s.links.nextIdx }], nextIdx := s.links.nextIdx + 1 } }

/-- A remote request of a requester for blocks from a home. -/
def remoteOf (s : State) (who : Requester) (tenant : BitVec 16) (kind : BitVec 3) (home blocks : Nat) : Remote :=
  { idx := s.links.nextIdx, who := who, tenant := tenant, node := homeNode home, kind := kind, addr := homeAddr home,
    blocks := blocks, place := 0, data := 0#2048, mask := 0#256, dset := false, descs := 0#64, psn := 0#4, issued := none,
    credited := false, stale := false }

/-- Send a write to a peer: a remote write request of one block (R366) (DEDUCED, log 32). -/
def remoteWrite (s : State) (who : Requester) (tenant : BitVec 16) (home : Nat) (mask : BitVec 64) (b : Block)
    (desc : Option (BitVec 16)) (psn : Bool) : State :=
  pushRemote s { remoteOf s who tenant 1#3 home 1 with
    data := b.setWidth 2048, mask := mask.setWidth 256, dset := desc.isSome, descs := (desc.getD 0#16).setWidth 64,
    psn := (BitVec.ofBool psn).setWidth 4 }

/-- Bytes that reach their tier in the order of the device: module or host memory, or a write-back request to a peer. -/
def tierWrite (s : State) (who : Requester) (tenant : BitVec 16) (home : Nat) (mask : BitVec 64) (b : Block)
    (desc : Option (BitVec 16)) (psn : Bool) : State :=
  if mask = 0#64 then s
  else if homeIsPeer home then remoteWrite s who tenant home mask b desc psn
  else writeHome s home mask b desc psn

/-- The descriptor alone of a module block, which the latest vector store to it has set (R83). -/
def writeDesc (s : State) (home : Nat) (desc : Option (BitVec 16)) : State :=
  match desc with
  | some d =>
    if homeIsModule home then { s with store := { s.store with memDesc := Table.set 0x00FF#16 s.store.memDesc (homeAddr home / 64) d } } else s
  | none => s

/-- The requester of a tile's write-backs, and its tenant. -/
def tileWho (s : State) (site : Site) : Requester := .writeBack ((regionOf s site).getD 0)

/-- The tenant of a tile. -/
def tileTenant (s : State) (site : Site) : BitVec 16 := tenantOf (nodeOf s site 0)

/-- The descriptor that a line's write-back carries. -/
def Line.descOut (l : Line) : Option (BitVec 16) := if l.descSet then some l.desc else none

/-- Write back some released dirty bytes of an untagged line (R79); unreleased ones stay held from wider instances until their release
(R102). -/
def writeBack (s : State) (site : Site) (l : Line) (m : BitVec 64) : State :=
  tierWrite s (tileWho s site) (tileTenant s site) l.home (l.mRel &&& m) l.data l.descOut l.psn

/-- A line whose bytes `m` have been written back. -/
def Line.cleaned (l : Line) (m : BitVec 64) : Line := { l with dirty := l.dirty &&& ~~~m }

/-- A line that loses bytes. -/
def Line.without (l : Line) (m : BitVec 64) : Line :=
  { l with valid := l.valid &&& ~~~m, dirty := l.dirty &&& ~~~m, unrel := l.unrel &&& ~~~m }

/-! ## Order of stores -/

/-- What a store of bytes `m` at a scope takes from another line of its block and tag (R101, R102): copies of unreleased versions of
the same region (DESIGN CHOICE, log 154); the device's bytes, dirty or clean, from device scope on, when the descriptor follows too. -/
def Line.superseded (l : Line) (own : Bool) (scope : BitVec 3) (m : BitVec 64) (desc : Option (BitVec 16)) : Line :=
  if l.ro then l
  else
    let c := (if own then m &&& l.unrel else 0#64) ||| (if scopeNarrow scope then 0#64 else m &&& ~~~l.unrel)
    let l := l.without c
    match desc with
    | some d => if scopeNarrow scope then l else { l with desc := if l.tag = 0#6 then d else l.desc, descSet := l.descSet && homeIsPeer l.home && decide (l.tag = 0#6) }
    | none => l

/-- What a store does to an unreleased version of the same block and tag (R101, R102): it replaces its own region's version, but a
store at region scope leaves a version of die scope to the die; from die scope on it hides the versions of its die, and one of device
scope or wider stands behind them in the device's order too. The version that an earlier store left unreleased is dropped then, and
takes no place of its own later (DESIGN CHOICE, log 154). -/
def Pend.trim (x : Pend) (p : Party) (scope : BitVec 3) (m : BitVec 64) (desc : Option (BitVec 16)) : Pend :=
  if x.inst = p.inst ∧ (x.scope = scopeRegion ∨ scope ≠ scopeRegion) then
    { x with mask := x.mask &&& ~~~m, vis := x.vis &&& ~~~m, desc := if desc.isSome then none else x.desc }
  else if x.scope = scopeDie ∧ some x.die = p.die ∧ scope ≠ scopeRegion then
    { x with vis := x.vis &&& ~~~m, mask := if scopeNarrow scope then x.mask else x.mask &&& ~~~m }
  else x

/-- Something of a version is left: bytes, or the descriptor that it has set. -/
def Pend.lives (x : Pend) : Bool := decide (x.mask ≠ 0#64) || x.desc.isSome

/-- Change the unreleased versions that a test selects; those of which nothing is left go. -/
def mapPend (s : State) (sel : Pend → Bool) (f : Pend → Pend) : State :=
  { s with store := { s.store with pend := (mapWhere sel f s.store.pend).filter Pend.lives } }

/-- Keep an unreleased version, as the latest (DEDUCED, log 28). -/
def addPend (s : State) (x : Pend) : State :=
  if x.lives then { s with store := { s.store with pend := s.store.pend ++ [x] } } else s

/-- The unreleased version that a narrow store leaves. -/
def Party.version (p : Party) (home va : Nat) (ctx : BitVec 8) (tag : BitVec 6) (scope : BitVec 3) (m : BitVec 64) (b : Block)
    (desc : Option (BitVec 16)) (psn : Bool) : Pend :=
  { inst := p.inst, die := p.die.getD 0#2, job := p.job, ctx := ctx, tag := tag, home := home, va := va, scope := scope, mask := m,
    vis := if scope = scopeDie then m else 0#64, data := b, desc := desc, psn := psn }

/-- A descriptor that a line still holds goes to the block when a store without one takes the line's bytes (R83). -/
def keepDesc (s : State) (skip : Option Site) (home : Nat) (desc : Option (BitVec 16)) : State :=
  if desc.isSome then s
  else
    match (linesTagged s home 0#8 0#6).find? fun x => decide (some x.1 ≠ skip) && x.2.descSet && decide (x.2.mRel ≠ 0#64) with
    | some x => writeDesc s home (some x.2.desc)
    | none => s

/-- Take bytes out of the overlay entry of a block and tag. -/
def ovlTake (s : State) (home : Nat) (ctx : BitVec 8) (tag : BitVec 6) (m : BitVec 64) (desc : Option (BitVec 16)) : State :=
  let trim (o : Ovl) : Option Ovl :=
    if o.home = home ∧ o.tag = tag ∧ o.ctx = ctx then
      let o := { o with mask := o.mask &&& ~~~m, descSet := o.descSet && desc.isNone }
      if o.mask = 0#64 ∧ o.unrel = 0#64 then none else some o
    else some o
  { s with hyps := { s.hyps with ovl := s.hyps.ovl.filterMap trim } }

/-- What a store of a party supersedes in every place but its own tile (R101, R102, R111). -/
def supersede (s : State) (p : Party) (home : Nat) (ctx : BitVec 8) (tag : BitVec 6) (scope : BitVec 3) (m : BitVec 64)
    (desc : Option (BitVec 16)) : State :=
  let s := if tag = 0#6 ∧ !scopeNarrow scope then keepDesc s p.mt home desc else s
  let s := mapLines s p.mt fun site l =>
    if l.home = home ∧ sameTag l.ctx l.tag ctx tag then
      let l := l.superseded (decide (regionOf s site = p.inst)) scope m desc
      if l.valid = 0#64 then none else some l
    else some l
  let s := if tag ≠ 0#6 ∧ !scopeNarrow scope then ovlTake s home ctx tag m desc else s
  mapPend s (fun x => x.at home ctx tag) fun x => x.trim p scope m desc

/-! ## Overlays (R162, R408) -/

/-- A context's entry (R187): base, size and limit of its overlay, as the PF driver wrote them. -/
def ctxEntry (s : State) (ctx : BitVec 8) : BitVec 256 := Table.get 0#256 s.hub.ctxs ctx.toNat

/-- Overlay entries that a context holds: one for each tagged line and one for each spilled entry (R408). -/
def ovlUsed (s : State) (ctx : BitVec 8) : Nat :=
  (s.fab.mts.map fun km => (km.2.lines.filter fun l => decide (l.tag ≠ 0#6) && decide (l.ctx = ctx)).length).sum +
  (s.hyps.ovl.filter fun o => decide (o.ctx = ctx)).length

/-- The number of 64 MiB segments that some overlay entries take (R162, R187). -/
def ovlSegs (entries : Nat) : Nat := (entries * 128 + (2 ^ 26 - 1)) / 2 ^ 26

/-- Segments that a context's overlay holds (R187): none before its first spill. -/
def segsOf (s : State) (ctx : BitVec 8) : Nat := Table.get 0 s.hyps.segs ctx.toNat

/-- Set the segments of a context. -/
def setSegs (s : State) (ctx : BitVec 8) (n : Nat) : State := { s with hyps := { s.hyps with segs := Table.set 0 s.hyps.segs ctx.toNat n } }

/-- A context takes the segments that its entries have come to need: the first with its first spill, and each further one with the entry
that needs it (R187, R408) (DEDUCED, log 162). -/
def takeSegs (s : State) (ctx : BitVec 8) : State :=
  let need := ovlSegs (ovlUsed s ctx)
  let spilled := s.hyps.ovl.any fun o => decide (o.ctx = ctx)
  let held := segsOf s ctx
  if held < need ∧ (1 < need ∨ spilled) then setSegs s ctx need else s

/-- When a resolution leaves a context without tagged lines, its segments return (R187). -/
def freeSegs (s : State) (ctx : BitVec 8) : State :=
  if ovlUsed s ctx = 0 ∧ segsOf s ctx ≠ 0 then setSegs s ctx 0 else s

/-- Put bytes into the overlay of a context, over those already there. -/
def ovlPut (s : State) (o : Ovl) : State :=
  let same (x : Ovl) : Bool := decide (x.home = o.home) && decide (x.tag = o.tag) && decide (x.ctx = o.ctx)
  let o2 : Ovl :=
    match s.hyps.ovl.find? same with
    | some x =>
      { o with mask := x.mask ||| o.mask, unrel := x.unrel ||| o.unrel, data := mergeBytes x.data o.data o.mask,
               desc := if o.descSet then o.desc else x.desc, descSet := o.descSet || x.descSet, psn := o.psn || x.psn }
    | none => o
  takeSegs { s with hyps := { s.hyps with ovl := (s.hyps.ovl.filter fun x => !same x) ++ [o2] } } o.ctx

/-! ## Lines of a tile -/

/-- The line of a tile for a home and a tag. -/
def lineOf (m : Mt) (home : Nat) (ctx : BitVec 8) (tag : BitVec 6) : Option Line :=
  m.lines.find? fun l => decide (l.home = home) && decide (l.tag = tag) && (decide (tag = 0#6) || decide (l.ctx = ctx))

/-- Two lines stand for the same address and tag. -/
def Line.same (l x : Line) : Bool :=
  decide (l.home = x.home) && decide (l.tag = x.tag) && (decide (l.tag = 0#6) || decide (l.ctx = x.ctx))

/-- Put a line in front of its tile's list, as the most recently used. -/
def putLine (s : State) (site : Site) (l : Line) : State :=
  let m := getMt s site
  setMt s site { m with lines := l :: m.lines.filter fun x => !l.same x }

/-- Remove a line. -/
def dropLine (s : State) (site : Site) (l : Line) : State :=
  let m := getMt s site
  setMt s site { m with lines := m.lines.filter fun x => !l.same x }

/-- The set of a line (R78). -/
def setIndex (home : Nat) : Nat := home / 64 % 512

/-- The victim among the lines of a full set (R80): lowest priority, then least recently used, which stands last. -/
def victim (ls : List Line) : Option Line :=
  ls.foldl (fun v l => match v with
    | none => some l
    | some x => if l.prio.toNat ≤ x.prio.toNat then some l else some x) none

/-- Bytes of a tagged line as an overlay entry: those in the order of the device, and those whose version is unreleased. -/
def Line.spilled (l : Line) (m : BitVec 64) : Ovl :=
  { ctx := l.ctx, tag := l.tag, home := l.home, va := l.va, mask := l.valid &&& ~~~l.unrel &&& m, unrel := l.valid &&& l.unrel &&& m,
    desc := l.desc, descSet := l.descSet, data := l.data, psn := l.psn }

/-- Empty a way (R80, R162): a tagged line spills to its context's overlay, a dirty untagged line is written back. -/
def evict (s : State) (site : Site) (l : Line) : State :=
  let s := dropLine s site l
  if l.tag = 0#6 then writeBack s site l (BitVec.allOnes 64) else ovlPut s (l.spilled (BitVec.allOnes 64))

/-- Install a line: a full set gives up its victim first (R80). -/
def install (s : State) (site : Site) (l : Line) : State :=
  let ls := (getMt s site).lines.filter fun x => decide (setIndex x.home = setIndex l.home) && !l.same x
  let s :=
    if ls.length < 12 then s
    else
      match victim ls with
      | some v => evict s site v
      | none => s
  putLine s site l

/-- A new line with no byte valid. -/
def Line.fresh (home va : Nat) (ctx : BitVec 8) (tag : BitVec 6) (desc : BitVec 16) : Line :=
  { home := home, va := va, ctx := ctx, tag := tag, data := 0#512, valid := 0#64, dirty := 0#64, unrel := 0#64, desc := desc,
    descSet := false, wts := 0, lease := 0, prio := 0#2, ro := false, wide := false, psn := false }

/-- Fill the invalid bytes of a line from the order of the device (R79). -/
def Line.fill (l : Line) (b : BlkVal) : Line :=
  { l with
    data := mergeBytes b.data l.data l.valid
    desc := if l.descSet then l.desc else b.desc
    psn := l.psn || (b.psn && decide (l.valid ≠ BitVec.allOnes 64))
    valid := BitVec.allOnes 64 }

/-- A read-only line fetched anew for a generic access (R81): the flag goes, and its priority stays (R80). -/
def Line.refetched (l : Line) (b : BlkVal) : Line :=
  { (Line.fresh l.home l.va l.ctx l.tag b.desc).fill b with prio := l.prio, wide := l.wide }

/-- The allocation hint: allocate, at a priority (R80). -/
def hintAlloc (hint : BitVec 3) : Bool := bitAt hint 2

/-- The priority of an access. -/
def hintPrio (hint : BitVec 3) : BitVec 2 := bits hint 0 2

/-- The larger priority. -/
def maxPrio (a b : BitVec 2) : BitVec 2 := if a.toNat ≤ b.toNat then b else a

/-- An access at tenant or system scope leaves data of that scope in a line (R105); so does every page of a peer (R366). -/
def isWide (scope : BitVec 3) (home : Nat) : Bool := decide (3 ≤ scope.toNat) || homeIsPeer home

/-- A line that an access touches (R80, R105). -/
def Line.touched (l : Line) (hint scope : BitVec 3) : Line :=
  { l with prio := maxPrio l.prio (hintPrio hint), wide := l.wide || isWide scope l.home }

/-! ## Loads through a stash -/

/-- The lines of a tile that supply needed bytes to a generic load, the nearest tag first (R111, R162). -/
def suppliers (m : Mt) (home : Nat) (ctx : BitVec 8) : List (BitVec 6) → BitVec 64 → List Line
  | [], _ => []
  | t :: ts, need =>
    match lineOf m home ctx t with
    | some l =>
      if l.ro || decide (need &&& l.valid = 0#64) then suppliers m home ctx ts need
      else l :: suppliers m home ctx ts (need &&& ~~~l.valid)
    | none => suppliers m home ctx ts need

/-- The bytes of a block that a tile holds for a generic load under `h`. -/
def ownCover (s : State) (site : Site) (home : Nat) (ctx : BitVec 8) (h : BitVec 6) : BitVec 64 :=
  (((getMt s site).lines.filter fun l => decide (l.home = home) && !l.ro &&
    (decide (l.tag = 0#6) || (decide (l.ctx = ctx) && (hypChain s ctx 64 h).contains l.tag))).map fun l =>
      l.valid).foldl (fun a b => a ||| b) 0#64

/-- A generic load of bytes `need` hits in its tile. -/
def loadHits (s : State) (site : Site) (home : Nat) (ctx : BitVec 8) (h : BitVec 6) (need : BitVec 64) : Bool :=
  decide (need &&& ~~~(ownCover s site home ctx h) = 0#64)

/-- What a generic load of bytes `need` leaves in its tile's stash (R79 to R81). The lines that supply bytes are touched. A load that
meets invalid bytes reads the block, which fills the untagged line of the block; without one it installs such a line under an
allocate hint. A read-only line is fetched anew. -/
def loadInstall (s : State) (p : Party) (site : Site) (home va : Nat) (ctx : BitVec 8) (h : BitVec 6) (need : BitVec 64)
    (hint scope : BitVec 3) (base : BlkVal) : State :=
  let s1 := (suppliers (getMt s site) home ctx (hypChain s ctx 64 h ++ [0#6]) need).foldr
    (fun l s => putLine s site (l.touched hint scope)) s
  let s2 :=
    if loadHits s site home ctx h need then s1
    else
      let b := deviceView s home base
      match lineOf (getMt s1 site) home 0#8 0#6 with
      | some l => putLine s1 site ((if l.ro then l.refetched b else l.fill b).touched hint scope)
      | none =>
        if hintAlloc hint then install s1 site (((Line.fresh home va 0#8 0#6 base.desc).fill b).touched hint scope) else s1
  stampLoad s2 p home

/-! ## Stores through a stash -/

/-- A store of bytes into a line: the bytes are valid and dirty; under a narrow scope they are a copy of an unreleased version, which
keeps the descriptor and the poison mark to itself. -/
def Line.stored (l : Line) (scope : BitVec 3) (m : BitVec 64) (b : Block) (desc : Option (BitVec 16)) (psn : Bool) (ts : Nat) : Line :=
  { l with
    data := mergeBytes l.data b m
    valid := l.valid ||| m
    dirty := l.dirty ||| m
    unrel := if scopeNarrow scope then l.unrel ||| m else l.unrel &&& ~~~m
    desc := if scopeNarrow scope then l.desc else desc.getD l.desc
    descSet := l.descSet || (desc.isSome && !scopeNarrow scope)
    psn := if scopeNarrow scope then l.psn else psn || (l.psn && decide (m ≠ BitVec.allOnes 64))
    wts := ts
    lease := ts }

/-- The untagged line of a block in a tile as a store finds it: a read-only one is fetched anew first (R81); a peer's block is not at
hand, so its bytes become invalid until a load reads them (DEDUCED, log 155). -/
def lineForStore (s : State) (site : Site) (home : Nat) : Option Line :=
  (lineOf (getMt s site) home 0#8 0#6).map fun l =>
    if !l.ro then l
    else if homeIsPeer home then { Line.fresh l.home l.va l.ctx l.tag l.desc with prio := l.prio, wide := l.wide }
    else l.refetched (deviceView s home (homeBlock s home))

/-- A store under hypothesis 0 through a tile's stash (R79, R80, R101, R102): into a line under an allocate hint, else through to the
tier and into a line that hits. Bytes of the device's order that a narrow store overwrites in the line go to their tier first. A
peer's tier is written by the caller's remote request. -/
def storeZero (s : State) (p : Party) (site : Site) (home va : Nat) (hint scope : BitVec 3) (m : BitVec 64) (b : Block)
    (desc : Option (BitVec 16)) (psn : Bool) : State :=
  let ts := storeTs s p home
  let s := supersede s p home 0#8 0#6 scope m desc
  let old := lineForStore s site home
  let keep (l : Line) : BitVec 64 := if scopeNarrow scope then l.mRel &&& m else 0#64
  let into (l : Line) : Line := ((l.cleaned (keep l)).stored scope m b desc psn ts).touched hint scope
  let s := match old with
    | some l => writeBack s site l (keep l)
    | none => s
  let s :=
    match old with
    | some l => putLine s site (if hintAlloc hint then into l else (into l).cleaned m)
    | none =>
      if hintAlloc hint then install s site (into (Line.fresh home va 0#8 0#6 (homeBlock s home).desc)) else s
  let s := raiseTs s p ts
  if scopeNarrow scope then addPend s (p.version home va 0#8 0#6 scope m b desc psn)
  else if hintAlloc hint || homeIsPeer home then s
  else writeHome s home m b desc psn

/-- A store under a nonzero tag reaches no further than the device (R111). -/
def tagScope (scope : BitVec 3) : BitVec 3 := if scopeNarrow scope then scope else scopeDevice

/-- A store under a nonzero tag through a tile's stash (R111, R162): it writes a line tagged h of its own tile. Bytes of the device's
order that a narrow store overwrites in the line go to the overlay first. -/
def storeTag (s : State) (p : Party) (site : Site) (home va : Nat) (ctx : BitVec 8) (tag : BitVec 6) (hint scope : BitVec 3)
    (m : BitVec 64) (b : Block) (desc : Option (BitVec 16)) (psn : Bool) : State :=
  let ts := storeTs s p home
  let s := supersede s p home ctx tag scope m desc
  let old := lineOf (getMt s site) home ctx tag
  let s := match old with
    | some l =>
      let keep := l.valid &&& ~~~l.unrel &&& m
      if scopeNarrow scope ∧ keep ≠ 0#64 then ovlPut s (l.spilled keep) else s
    | none => s
  let l := ((old.getD (Line.fresh home va ctx tag 0x00FF#16)).stored scope m b desc psn ts).touched hint scopeDevice
  let s := raiseTs (if old.isSome then putLine s site l else takeSegs (install s site l) ctx) p ts
  if scopeNarrow scope then addPend s (p.version home va ctx tag scope m b desc psn) else s

/-- A store through a tile's stash of bytes `m` of a block. -/
def storeBlock (s : State) (p : Party) (site : Site) (home va : Nat) (ctx : BitVec 8) (h : BitVec 6) (hint scope : BitVec 3)
    (m : BitVec 64) (b : Block) (desc : Option (BitVec 16)) (psn : Bool) : State :=
  if m = 0#64 then s
  else if h = 0#6 then storeZero s p site home va hint scope m b desc psn
  else storeTag s p site home va ctx h hint (tagScope scope) m b desc psn

/-! ## Accesses without a stash -/

/-- A load of a party that works without a stash (R98, R109): what it returns, and its timestamp. -/
def engLoad (s : State) (p : Party) (home : Nat) (ctx : BitVec 8) (h : BitVec 6) : State × BlkVal :=
  (stampLoad s p home, view s p home ctx h)

/-- A store of a party that works without a stash (R98, R109, R111): at region and die scope the bytes are held for their instance
until a release (R102); under a tag they stand in the context's overlay. -/
def engStore (s : State) (p : Party) (who : Requester) (tenant : BitVec 16) (home va : Nat) (ctx : BitVec 8) (h : BitVec 6)
    (scope : BitVec 3) (m : BitVec 64) (b : Block) (desc : Option (BitVec 16)) (psn : Bool) : State :=
  if m = 0#64 then s
  else
    let scope := if h = 0#6 then scope else tagScope scope
    let narrow := scopeNarrow scope
    let s := raiseTs (supersede s p home ctx h scope m desc) p (storeTs s p home)
    let s := if narrow then addPend s (p.version home va ctx h scope m b desc psn) else s
    if h = 0#6 then (if narrow then s else tierWrite s who tenant home m b desc psn)
    else
      ovlPut s { ctx := ctx, tag := h, home := home, va := va, mask := if narrow then 0#64 else m, unrel := if narrow then m else 0#64,
                 desc := desc.getD 0x00FF#16, descSet := desc.isSome && !narrow, data := b, psn := psn && !narrow }

end Sys2Proof.Machine
end

