-- ==== Sys2Proof/Machine/Release.lean ====
section
/-! DEFINITION. Release and acquire (R79, R102, R105), and the resolution of a hypothesis in memory (R112, R163). -/

namespace Sys2Proof.Machine

/-- The memory tiles of an instance. -/
def instMts (i : Inst) : List Site :=
  (i.elems.filter fun e => decide (e % 4 = 0) && decide (siteKind (BitVec.ofNat 12 (e / 4)) = .mt)).map fun e =>
    BitVec.ofNat 12 (e / 4)

/-- The node caches of all STEs drop some bodies (R150). -/
def dropBodies (s : State) (sel : SteBody → Bool) : State :=
  { s with hyps := { s.hyps with bodies := s.hyps.bodies.filter fun b => !sel b } }

/-! ## Release (R79, R102, R105) -/

/-- A version of region scope takes its place in the die's order, or with it in the device's, as the latest: it replaces its own
region's version of die scope, and hides those of its die. -/
def hideDie (s : State) (x : Pend) : State :=
  if x.scope = scopeRegion then
    mapPend s (fun y => y.at x.home x.ctx x.tag && decide (y.scope = scopeDie) && decide (y.die = x.die)) fun y =>
      if y.inst = x.inst then { y with mask := y.mask &&& ~~~x.mask, vis := y.vis &&& ~~~x.mask, desc := if x.desc.isSome then none else y.desc }
      else { y with vis := y.vis &&& ~~~x.mask }
  else s

/-- A version that takes its place in the device's order leaves none behind it to the versions that its die's order has before it
(DESIGN CHOICE, log 154). -/
def passDie (s : State) (x : Pend) : State :=
  mapPend s (fun y => y.at x.home x.ctx x.tag && decide (y.scope = scopeDie) && decide (y.die = x.die)) fun y =>
    { y with mask := y.mask &&& ~~~(x.mask &&& ~~~y.vis) }

/-- A version becomes one of die scope (R102). -/
def enterDie (s : State) (x : Pend) : State := addPend (hideDie s x) { x with scope := scopeDie, vis := x.mask }

/-- The copies of a released version in its own region's lines: they stand in the device's order now, dirty whether or not an STFL has
marked them clean before, with its descriptor. -/
def Line.copied (l : Line) (x : Pend) : Line :=
  let m := l.unrel &&& x.mask
  if m = 0#64 then l
  else { l with dirty := l.dirty ||| m, unrel := l.unrel &&& ~~~m, desc := x.desc.getD l.desc, descSet := l.descSet || x.desc.isSome, psn := l.psn || x.psn }

/-- A version takes its place in the device's order, after every store already in it (R102): as dirty bytes of the lines of its region
that hold it, and at its tier elsewhere. -/
def enterDevice (s : State) (who : Requester) (tenant : BitVec 16) (x : Pend) : State :=
  let s := passDie (hideDie s x) x
  let s := if x.tag = 0#6 then keepDesc s none x.home x.desc else s
  let own := (linesTagged s x.home x.ctx x.tag).filter fun y => decide (regionOf s y.1 = x.inst)
  let held := own.foldl (fun m y => m ||| (y.2.unrel &&& x.mask)) 0#64
  let s := mapLines s none fun site l =>
    if l.home = x.home ∧ sameTag l.ctx l.tag x.ctx x.tag then
      let l := l.superseded false scopeDevice x.mask x.desc
      let l := if regionOf s site = x.inst then l.copied x else l
      if l.valid = 0#64 then none else some l
    else some l
  if x.tag = 0#6 then writeDesc (tierWrite s who tenant x.home (x.mask &&& ~~~held) x.data x.desc x.psn) x.home x.desc
  else
    let ovl := mapWhere (fun o => decide (o.home = x.home) && sameTag o.ctx o.tag x.ctx x.tag)
      (fun o => { o with unrel := o.unrel &&& ~~~x.mask }) s.hyps.ovl
    let s := ovlTake { s with hyps := { s.hyps with ovl := ovl } } x.home x.ctx x.tag x.mask x.desc
    if x.mask &&& ~~~held = 0#64 ∧ (x.desc.isNone ∨ held ≠ 0#64) then s
    else
      ovlPut s { ctx := x.ctx, tag := x.tag, home := x.home, va := x.va, mask := x.mask &&& ~~~held, unrel := 0#64,
                 desc := x.desc.getD 0x00FF#16, descSet := x.desc.isSome, data := x.data, psn := x.psn }

/-- Release the versions that a test selects, in the order of their stores (R102, R338). -/
def releasePend (s : State) (sel : Pend → Bool) (who : Requester) (tenant : BitVec 16) (scope : BitVec 3) : State :=
  let out (x : Pend) : Bool := sel x && (decide (x.scope = scopeRegion) || !scopeNarrow scope)
  let mine := s.store.pend.filter out
  let s := { s with store := { s.store with pend := s.store.pend.filter fun x => !out x } }
  mine.foldl (fun s x => if scopeNarrow scope then enterDie s x else enterDevice s who tenant x) s

/-- Release one line of a region's tile (R79, R105): its dirty bytes are written back. -/
def releaseLine (s : State) (site : Site) (l : Line) : State :=
  if l.tag ≠ 0#6 ∨ l.dirty = 0#64 then s
  else
    let s := writeBack s site l (BitVec.allOnes 64)
    let m := getMt s site
    setMt s site { m with lines := mapWhere l.same (fun x => { x.cleaned x.mRel with descSet := x.descSet && homeIsPeer x.home }) m.lines }

/-- Release the lines of a tile. -/
def releaseTile (s : State) (site : Site) : State := (getMt s site).lines.foldl (fun s l => releaseLine s site l) s

/-- A release at a scope by a region (R105, R107): its versions take their places, and its dirty lines are written back, each in one
access, which clears the poison of a block whose 64 bytes are all dirty (R403). Nothing is left to do at region scope. -/
def releaseRegion (s : State) (i : Inst) (scope : BitVec 3) : State :=
  if scope = scopeRegion then s
  else
    let s := releasePend s (fun x => decide (x.inst = some i.id)) (.writeBack i.id) (tenantOf (findNode s i.node)) scope
    (instMts i).foldl releaseTile s

/-- A remote request writes for a region: a write-back, or a write, an atomic or an addition of one of its ports. -/
def writesFor (s : State) (inst : Nat) (r : Remote) : Bool :=
  match r.who with
  | .writeBack n => decide (n = inst)
  | .port site _ => decide (r.kind ≠ 0#3) && decide (regionOf s site = some inst)
  | _ => false

/-- Writes of a region to its peers that have not arrived (R105). -/
def writesAway (s : State) (inst : Nat) : Bool := s.links.remotes.any (writesFor s inst)

/-- The reads of peers that a region's ports and operators have under way bring older data than the acquire: no line keeps it (R104,
R105). -/
def staleReads (s : State) (i : Inst) : State :=
  let mine (r : Remote) : Bool :=
    decide (r.kind = 0#3) && (match r.who with
      | .port site _ => (instMts i).contains site
      | .op site slot => i.ops.contains (site, slot)
      | _ => false)
  { s with links := { s.links with remotes := mapWhere mine (fun r => { r with stale := true }) s.links.remotes } }

/-- An acquire by a region (R105): every stash line that holds data of tenant or system scope is invalidated, read-only lines
aside. A line that still holds dirty bytes gives them to its tier. -/
def acquireRegion (s : State) (i : Inst) : State :=
  (instMts i).foldl (fun s site =>
    (getMt s site).lines.foldl (fun s l =>
      if l.wide && !l.ro && decide (l.tag = 0#6) then evict s site l else s) s) (staleReads s i)

/-! ## Resolving a hypothesis (R112, R163) -/

/-- A version of the device's order under a resolved id replaces the parent's unreleased ones: those of the regions of its context go,
and under hypothesis 0 every other region's is hidden from its die. -/
def confirmPend (s : State) (mine : Nat → Bool) (home : Nat) (ctx : BitVec 8) (p : BitVec 6) (m : BitVec 64) : State :=
  mapPend s (fun x => x.at home ctx p) fun x =>
    if (x.inst.map mine).getD false then { x with mask := x.mask &&& ~~~m, vis := x.vis &&& ~~~m } else { x with vis := x.vis &&& ~~~m }

/-- An unreleased version under the resolved id becomes one of its parent (R112): it replaces its own region's, and at die scope those
that the regions of its context hold in its die. -/
def confirmHeld (mine : Nat → Bool) (p : BitVec 6) (s : State) (x : Pend) : State :=
  let s := mapPend s (fun y => y.at x.home x.ctx p) fun y =>
    if y.inst = x.inst ∧ (y.scope = scopeRegion ∨ x.scope = scopeDie) then { y with mask := y.mask &&& ~~~x.mask, vis := y.vis &&& ~~~x.mask }
    else if x.scope = scopeDie ∧ y.die = x.die then
      if (y.inst.map mine).getD false then { y with mask := y.mask &&& ~~~x.vis, vis := y.vis &&& ~~~x.vis } else { y with vis := y.vis &&& ~~~x.vis }
    else y
  addPend s { x with tag := p }

/-- Confirm one line of a tile into the parent (R163): its valid bytes replace the parent's; with the parent 0 it becomes an ordinary
dirty line. Bytes of the parent's line in the device's order that an unreleased copy covers go to their tier or overlay first. -/
def confirmLine (s : State) (mine : Nat → Bool) (site : Site) (p : BitVec 6) (l : Line) : State :=
  let dev := l.valid &&& ~~~l.unrel
  let s := dropLine s site l
  let s := confirmPend s mine l.home l.ctx p dev
  let at0 : Party := { controlParty with mt := some site }
  let s := if dev = 0#64 then s else supersede s at0 l.home l.ctx p scopeDevice dev l.descOut
  match lineOf (getMt s site) l.home l.ctx p with
  | some x =>
    if x.ro then putLine s site { l with tag := p, prio := maxPrio x.prio l.prio }
    else
      let copy := l.valid &&& l.unrel
      let keep := x.valid &&& ~~~x.unrel &&& copy
      let s := if p = 0#6 then writeBack s site x keep else if keep = 0#64 then s else ovlPut s (x.spilled keep)
      let y := (x.cleaned keep).stored scopeDevice dev l.data l.descOut l.psn l.wts
      let y := if copy = 0#64 then y else y.stored scopeRegion copy l.data l.descOut l.psn l.wts
      putLine s site { y with wts := Nat.max x.wts l.wts, lease := Nat.max x.lease l.lease, prio := maxPrio x.prio l.prio }
  | none => putLine s site { l with tag := p }

/-- Confirm one overlay entry into the parent (R163): with the parent 0 its bytes are written back to their tier. -/
def confirmOvl (s : State) (mine : Nat → Bool) (who : Requester) (tenant : BitVec 16) (p : BitVec 6) (o : Ovl) : State :=
  let d := if o.descSet then some o.desc else none
  let s := confirmPend s mine o.home o.ctx p o.mask
  let s := if o.mask = 0#64 then s else supersede s controlParty o.home o.ctx p scopeDevice o.mask d
  if p = 0#6 then tierWrite s who tenant o.home o.mask o.data d o.psn else ovlPut s { o with tag := p }

/-- Confirm h into its parent p on every die (R112, R163). -/
def confirmData (s : State) (mine : Nat → Bool) (who : Requester) (tenant : BitVec 16) (ctx : BitVec 8) (h p : BitVec 6) : State :=
  let held := s.store.pend.filter fun x => decide (x.ctx = ctx) && decide (x.tag = h)
  let left := s.store.pend.filter fun x => !(decide (x.ctx = ctx) && decide (x.tag = h))
  let os := s.hyps.ovl.filter fun o => decide (o.ctx = ctx) && decide (o.tag = h)
  let rest := s.hyps.ovl.filter fun o => !(decide (o.ctx = ctx) && decide (o.tag = h))
  let s := { s with hyps := { s.hyps with ovl := rest }, store := { s.store with pend := left } }
  let s := os.foldl (fun s o => confirmOvl s mine who tenant p o) s
  let ls := s.fab.mts.flatMap fun km =>
    (km.2.lines.filter fun l => decide (l.ctx = ctx) && decide (l.tag = h)).map fun l => (BitVec.ofNat 12 km.1, l)
  let s := ls.foldl (fun s x => confirmLine s mine x.1 p x.2) s
  held.foldl (confirmHeld mine p) s

/-- Invalidate every line, overlay entry and unreleased version of the ids of a context that a test names (R163). -/
def refuteData (s : State) (ctx : BitVec 8) (dead : BitVec 6 → Bool) : State :=
  let s := mapLines s none fun _ l => if l.tag ≠ 0#6 ∧ l.ctx = ctx ∧ dead l.tag then none else some l
  let rest := s.hyps.ovl.filter fun o => !(decide (o.ctx = ctx) && dead o.tag)
  { s with
    hyps := { s.hyps with ovl := rest }
    store := { s.store with pend := s.store.pend.filter fun x => !(decide (x.tag ≠ 0#6) && decide (x.ctx = ctx) && dead x.tag) } }

end Sys2Proof.Machine
end

