-- ==== Sys2Proof/Machine/Scratch.lean ====
section
/-! DEFINITION. The scratchpads (R76, R77, R82, R103) and their sync words (R84 to R86, R405). -/

namespace Sys2Proof.Machine

/-- The bytes of one scratchpad (R76). -/
def spadSize : Nat := 786432

/-- The key of a scratchpad byte. -/
def spadKey (site : Site) (off : Nat) : Nat := site.toNat * 2 ^ 20 + off

/-- The key of a scratchpad block. -/
def spadBlkKey (site : Site) (off : Nat) : Nat := site.toNat * 2 ^ 14 + off / 64

/-- A byte of a scratchpad. -/
def spadByte (s : State) (site : Site) (off : Nat) : Byte := Table.get 0#8 s.store.spad (spadKey site off)

/-- Write a byte of a scratchpad. -/
def setSpadByte (s : State) (site : Site) (off : Nat) (b : Byte) : State :=
  { s with store := { s.store with spad := Table.set 0#8 s.store.spad (spadKey site off) b } }

/-- `n` bytes from an offset, little-endian (R6). -/
def spadNat (s : State) (site : Site) (off n : Nat) : Nat := bytesNat (fun i => spadByte s site (off + i)) n

/-- A word of a scratchpad. -/
def spadWord (s : State) (site : Site) (off : Nat) : Word := BitVec.ofNat 32 (spadNat s site off 4)

/-- Write the low `n` bytes of a number, little-endian (R6). -/
def setSpadNat (s : State) (site : Site) (off v : Nat) : Nat → State
  | 0 => s
  | n + 1 => setSpadByte (setSpadNat s site off v n) site (off + n) (BitVec.ofNat 8 (v / 2 ^ (8 * n)))

/-- Write a word of a scratchpad. -/
def setSpadWord (s : State) (site : Site) (off : Nat) (w : Word) : State := setSpadNat s site off w.toNat 4

/-- The poison mark of a scratchpad block. -/
def spadPoisoned (s : State) (site : Site) (off : Nat) : Bool := Table.get false s.store.spadPsn (spadBlkKey site off)

/-- Set the poison mark of a scratchpad block. -/
def setSpadPoison (s : State) (site : Site) (off : Nat) (p : Bool) : State :=
  { s with store := { s.store with spadPsn := Table.set false s.store.spadPsn (spadBlkKey site off) p } }

/-- The descriptor of a scratchpad block. -/
def spadDescOf (s : State) (site : Site) (off : Nat) : BitVec 16 :=
  Table.get 0x00FF#16 s.store.spadDesc (spadBlkKey site off)

/-- Set the descriptor of a scratchpad block. -/
def setSpadDesc (s : State) (site : Site) (off : Nat) (d : BitVec 16) : State :=
  { s with store := { s.store with spadDesc := Table.set 0x00FF#16 s.store.spadDesc (spadBlkKey site off) d } }

/-- A block of a scratchpad, as it stands. -/
def spadBlock (s : State) (site : Site) (off : Nat) : BlkVal :=
  let o := off / 64 * 64
  ⟨ofBytes fun i => spadByte s site (o + i), spadDescOf s site o, spadPoisoned s site o⟩

/-- The masked bytes of a block, below byte `i`, written to a scratchpad. -/
def spadBytes (s : State) (site : Site) (o : Nat) (m : BitVec 64) (b : Block) : Nat → State
  | 0 => s
  | i + 1 =>
    let s := spadBytes s site o m b i
    if bitAt m i then setSpadByte s site (o + i) (blockByte b i) else s

/-- A write to a scratchpad block under a byte mask (R83, R319, R403, R404): the descriptor follows a vector write that touches
a byte; poisoned data marks the block; only a write of all 64 bytes clears a mark. -/
def writeSpad (s : State) (site : Site) (off : Nat) (m : BitVec 64) (b : Block) (desc : Option (BitVec 16)) (psn : Bool) :
    State :=
  if m = 0#64 then s
  else
    let o := off / 64 * 64
    let s := spadBytes s site o m b 64
    let s := setSpadPoison s site o (psn || (spadPoisoned s site o && decide (m ≠ BitVec.allOnes 64)))
    match desc with
    | some d => setSpadDesc s site o d
    | none => s

/-! ## Sync words (R84) -/

/-- TARGET of the sync word at an offset. -/
def syncTarget (s : State) (site : Site) (off : Nat) : Word := spadWord s site off

/-- COUNT -/
def syncCount (s : State) (site : Site) (off : Nat) : Word := spadWord s site (off + 4)

/-- GEN -/
def syncGen (s : State) (site : Site) (off : Nat) : Word := spadWord s site (off + 8)

/-- WAITERS -/
def syncWaiters (s : State) (site : Site) (off : Nat) : Word := spadWord s site (off + 12)

/-- A wait with stated value `v` is satisfied (R86): (GEN − v) mod 2^32 lies between 1 and 2^31 − 1. -/
def syncSatisfied (gen v : Word) : Bool := decide (1 ≤ (gen - v).toNat) && decide ((gen - v).toNat < 2 ^ 31)

/-- A reply entry that has landed. -/
def ReplyEnt.ready (opc : BitVec 8) (hyp : BitVec 6) (refuted : Bool) (toks : List Token) : ReplyEnt :=
  { opc := opc, addr := 0, home := 0, x := 0#32, y := 0#32, mask := 0#16, hyp := hyp, refuted := refuted, blks := [], dat := [],
    bytes := 0, remote := [], after := [], landed := true, toks := toks }

/-- Put a reply before the control tokens that await a waiter slot, and take the slot off what they await (R327). -/
def putBefore (slot : Nat) (r : ReplyEnt) : List ReplyEnt → List ReplyEnt
  | [] => [r]
  | e :: es =>
    if e.after.contains slot then r :: (e :: es).map fun x => { x with after := x.after.filter fun k => decide (k ≠ slot) }
    else e :: putBefore slot r es

/-- The scalar GEN token of a satisfied wait, put into its port's reply buffer (R86). -/
def waitReply (s : State) (site : Site) (w : Waiter) (gen : Word) : State :=
  let loc : PortAt := ⟨site, w.port⟩
  let p := getPort s loc
  setPort s loc { p with replies := putBefore w.slot (.ready 0x15#8 w.hyp w.refuted [scalarTok gen w.hyp w.refuted false]) p.replies }

/-- Test every armed wait of a word again, as at a change of GEN (R86): satisfied ones reply, in arrival order, and free their
slots. -/
def syncRetest (s : State) (site : Site) (off : Nat) : State :=
  let gen := syncGen s site off
  let m := getMt s site
  let hit (w : Waiter) : Bool := decide (w.off = off) && syncSatisfied gen w.v
  let done := m.waiters.filter hit
  let s := setMt s site { m with waiters := m.waiters.filter fun w => !hit w }
  let gone := done.foldl (fun (b : Word) w => b ||| (1#32 <<< w.slot)) 0#32
  let s := setSpadWord s site (off + 12) (syncWaiters s site off &&& ~~~gone)
  done.foldl (fun s w => waitReply s site w gen) s

/-- A write to a scratchpad block, with the waits on its sync words tested again (R86) (DEDUCED, log 40). -/
def spadStore (s : State) (site : Site) (off : Nat) (m : BitVec 64) (b : Block) (desc : Option (BitVec 16)) (psn : Bool) :
    State :=
  let s := writeSpad s site off m b desc psn
  let o := off / 64 * 64
  ((getMt s site).waiters.filter fun w => decide (w.off / 64 * 64 = o)).foldl (fun s w => syncRetest s site w.off) s

/-- One addition to COUNT (R85, R405): it saturates; reaching a nonzero TARGET advances GEN once and takes TARGET off; a
remainder is an overshoot. -/
def syncAdd (s : State) (site : Site) (off amt : Nat) : State :=
  let t := (syncTarget s site off).toNat
  let c := Nat.min ((syncCount s site off).toNat + amt) 0xFFFFFFFF
  if t ≠ 0 ∧ t ≤ c then
    let s := setSpadWord s site (off + 4) (BitVec.ofNat 32 (c - t))
    let s := setSpadWord s site (off + 8) (syncGen s site off + 1#32)
    let s := if c = t then s else setEstat s (ownerOf s site 0) 8#32
    syncRetest s site off
  else setSpadWord s site (off + 4) (BitVec.ofNat 32 c)

/-- Hand an addition to the sync unit of a memory tile (R85). -/
def queueSync (s : State) (site : Site) (off amt : Nat) : State :=
  let m := getMt s site
  setMt s site { m with syncq := m.syncq ++ [(off, amt)] }

/-- The sync unit of a memory tile has an addition waiting for a sync word that lies in some bytes: a write to them has to come after
it (R86). -/
def syncBusy (s : State) (site : Site) (off len : Nat) : Bool :=
  (getMt s site).syncq.any fun x => decide (x.1 < off + len) && decide (off < x.1 + 16)

/-- The sync unit can apply an addition in this cycle (R85). -/
def syncFree (s : State) (site : Site) : Bool := decide ((getMt s site).syncNext ≤ now s)

/-- One addition as this cycle's. -/
def syncApply (s : State) (site : Site) (off amt : Nat) : State :=
  syncAdd (setMt s site { getMt s site with syncNext := now s + 1 }) site off amt

/-- SYNC_ADD (R85): the sync unit applies the addition that came first, one in a cycle. -/
def execSyncAdd (site : BitVec 12) (s : State) : Host.Outcome State Fault Refusal :=
  let m := getMt s site
  match m.syncq with
  | [] => .next s
  | (off, amt) :: q => if syncFree s site then .next (syncApply (setMt s site { m with syncq := q }) site off amt) else .next s

end Sys2Proof.Machine
end

