-- ==== Sys2Proof/Machine/Tiers.lean ====
section
/-! DEFINITION. The tiers (R87 to R91, R412): recorded sets and their residency, the invalidation of translations (R96), and the moves
of pages between module and host memory. -/

namespace Sys2Proof.Machine

/-! ## Dropping translations (R96) -/

/-- Two ranges of addresses meet. -/
def meets (a la b lb : Nat) : Bool := decide (a < b + lb) && decide (b < a + la)

/-- A cached translation lies in a range of a tenant. -/
def TlbEnt.within (e : TlbEnt) (tenant : BitVec 16) (va len : Nat) : Bool :=
  decide (e.tenant = tenant) && meets e.va (2 ^ e.lg) va len

/-- Every micro-TLB and die cache drops the translations of a range of a tenant (R96). -/
def dropTrans (s : State) (tenant : BitVec 16) (va len : Nat) : State :=
  let keep (e : TlbEnt) : Bool := !e.within tenant va len
  let ags := s.fab.ags.map fun ka => (ka.1, { ka.2 with utlb := ka.2.utlb.filter keep })
  let dies := s.dies.map fun d => { d with tlb := d.tlb.filter keep }
  { s with fab := { s.fab with ags := ags.filter fun ka => decide (ka.2 ≠ Ag.empty) }, dies := dies }

/-- The bytes that an access of a port may reach from its address on: the longest row of blocks (R323). -/
def accSpan : Nat := 1024

/-- A port still has an access of a range of a tenant under way, with the translation it took. -/
def portUses (s : State) (tenant : BitVec 16) (va len : Nat) (km : Nat × Mt) : Bool :=
  decide (tenantOf (nodeOf s (BitVec.ofNat 12 km.1) 0) = tenant) &&
  km.2.ports.toList.any fun p =>
    (p.reqs.any fun e => e.tr.isSome && meets e.addr.toNat accSpan va len) ||
    (p.replies.any fun r => !r.landed && meets r.addr accSpan va len)

/-- A request of a tenant to peer memory through its tables has not been answered: of a port, an engine job, an operator, the loader
or a write-back. -/
def remoteUses (tenant : BitVec 16) (r : Remote) : Bool := decide (r.tenant = tenant) && decide (r.kind.toNat ≤ 4)

/-- Some access that used a translation of the range has not completed at its tier (R96): a port's, or one of the tenant's on its way to
a peer, whatever address it was translated from (DEDUCED, log 142). -/
def accessPending (s : State) (tenant : BitVec 16) (va len : Nat) : Bool :=
  s.fab.mts.any (portUses s tenant va len) || s.links.remotes.any (remoteUses tenant)

/-! ## Recorded sets (R88, R90) -/

/-- The root of a tenant's tables (R93, R169). -/
def tenantRoot (s : State) (tenant : BitVec 16) : Nat :=
  (bits (getFn s (tenantVf s tenant)).policy 64 35).toNat * 2 ^ 17

/-- The leaf of an address of a tenant. -/
def leafFor (s : State) (tenant : BitVec 16) (va : Nat) : Option Leaf :=
  match walkTables s (tenantRoot s tenant) va with
  | .ok l => some l
  | .error _ => none

/-- The entry stands at its recorded tier: a page by the type of its entry, a peer page always (R412), an image by its mark. -/
def SetPage.home (s : State) (p : SetPage) : Bool :=
  if p.image then p.resident
  else
    match leafFor s p.tenant p.va with
    | none => false
    | some l =>
      if entType l.ent = 2#2 then true
      else decide (entType l.ent = 0#2) == decide (p.tier = 1#2)

/-- The residency fraction of a tenant, per mille (R90) (DEDUCED, log 85). -/
def residency (s : State) (tenant : BitVec 16) : Nat :=
  let es := s.sets.filter fun p => decide (p.tenant = tenant)
  let all := (es.map fun p => p.len).sum
  if all = 0 then 1000 else ((es.filter fun p => p.home s).map fun p => p.len).sum * 1000 / all

/-- The bytes of a tenant that are pinned (R91, R170). -/
def pinnedBytes (s : State) (tenant : BitVec 16) : Nat :=
  ((s.sets.filter fun p => decide (p.tenant = tenant) && p.pinned).map fun p => p.len).sum

/-- The leaf by which the Apsis engine finds a page: a valid one, or one of host memory with V = 0 (R378) (DEDUCED, log 176). -/
def engineLeaf (s : State) (tenant : BitVec 16) (va : Nat) : Option Leaf :=
  match leafFor s tenant va with
  | some l => some l
  | none => absentFor s (tenantRoot s tenant) va

/-- The entry of an address that the Apsis engine holds at T2 (R378). -/
def heldAtT2 (s : State) (tenant : BitVec 16) (va : Nat) : Option SetPage :=
  s.sets.find? fun p =>
    decide (p.tenant = tenant) && !p.image && decide (p.va ≤ va) && decide (va < p.va + p.len) && decide (p.tier = 1#2) &&
    (match engineLeaf s tenant va with
      | some l => decide (entType l.ent = 1#2)
      | none => false)

/-! ## Moves (R89, R412) -/

/-- Set or clear MV in a leaf (R94). -/
def setMv (s : State) (l : Leaf) (on : Bool) : State :=
  let b := memByte s (l.loc + 1)
  setMemByte s (l.loc + 1) (if on then b ||| 1#8 else b &&& 0xFE#8)

/-- Every failed move adds to the tier-engine error count (R412, R430). -/
def countTierErr (s : State) : State :=
  { s with life := { s.life with live := { s.life.live with tierErrs := s.life.live.tierErrs + 1 } } }

/-- A page begins to move (R89): MV is set and its translations are dropped. A page of peer memory does not move; one without a
translation is a failed move (R399, R412) (DEDUCED, log 83). -/
def startMove (s : State) (p : SetPage) : State :=
  match engineLeaf s p.tenant p.va with
  | none => countTierErr s
  | some l =>
    if entType l.ent ≠ 0#2 ∧ entType l.ent ≠ 1#2 then s
    else
      let sets := mapWhere (fun q => decide (q = p)) (fun q => { q with moving := true }) s.sets
      dropTrans { setMv s l true with sets := sets } p.tenant (p.va / 2 ^ l.lg * 2 ^ l.lg) (2 ^ l.lg)

/-- The engine brings an address up that it holds at T2 (R378). -/
def raisePage (s : State) (tenant : BitVec 16) (va : Nat) : State :=
  match heldAtT2 s tenant va with
  | some p => if p.moving then s else startMove s p
  | none => s

/-- A page with V = 0 that the engine holds at T2 and answers for (R378, R387). -/
def settles (s : State) (n : Node) (va : Nat) : Bool :=
  (match walkTables s n.ptroot va with
    | .error .transNp => true
    | _ => false) && (heldAtT2 s n.tenant va).isSome

/-- The stash lines of a page that moves are given up: dirty ones to the tier, tagged ones to their overlay (DESIGN CHOICE, log 177). -/
def leaveLines (s : State) (h0 len : Nat) : State :=
  s.fab.mts.foldl (fun s km =>
    (km.2.lines.filter fun l => decide (h0 ≤ l.home) && decide (l.home < h0 + len)).foldl (fun s l => evict s (BitVec.ofNat 12 km.1) l) s) s

/-- Overlay entries and bytes held for a release follow a page to its new home (DESIGN CHOICE, log 177). -/
def rehome (s : State) (f : Nat → Nat) : State :=
  { s with
    hyps := { s.hyps with ovl := s.hyps.ovl.map fun o => { o with home := f o.home } }
    store := { s.store with pend := s.store.pend.map fun p => { p with home := f p.home } } }

/-- Copy `n` blocks from one home to another, poison with them (R412) (DESIGN CHOICE, log 84). -/
def copyBlocks (s : State) (src dst : Nat) : Nat → State
  | 0 => s
  | n + 1 =>
    let s := copyBlocks s src dst n
    let b := homeBlock s (src + 64 * n)
    writeHome s (dst + 64 * n) (BitVec.allOnes 64) b.data (some b.desc) b.psn

/-- A leaf that names a new place: its TYPE and ADDR, with MV clear and V set. -/
def movedEntry (e : BitVec 64) (ty : BitVec 2) (base : Nat) : BitVec 64 :=
  setBits (setBits (setBits (setBits e 8 0#1) 0 1#1) 6 ty) 12 (BitVec.ofNat 40 (base / 4096))

/-- Write 8 bytes of module memory, little-endian. -/
def putEntry (s : State) (a : Nat) (e : BitVec 64) : Nat → State
  | 0 => s
  | n + 1 => setMemByte (putEntry s a e n) (a + n) (bits e (8 * n) 8)

/-- Moves of the leaf's page are over. -/
def clearMoving (s : State) (tenant : BitVec 16) (va len : Nat) : State :=
  let done (q : SetPage) : Bool := decide (q.tenant = tenant) && !q.image && meets q.va q.len va len
  { s with sets := mapWhere done (fun q => { q with moving := false }) s.sets }

/-- The place offered for a page of 2^lg bytes can take it: a frame of module memory, or of the host pool (R187, R412). -/
def frameOk (s : State) (toHost : Bool) (lg base : Nat) : Bool :=
  decide (base % 2 ^ lg = 0) &&
  (if toHost then decide (s.hub.t2base.toNat ≤ base) && decide (base + 2 ^ lg ≤ s.hub.t2base.toNat + s.hub.t2size.toNat * 2 ^ 21)
    else decide (base + 2 ^ lg ≤ moduleTop))

/-- The page that an entry of a tenant's set lies in holds bytes pinned at T1, so it never moves below (R91). -/
def holdsPinned (s : State) (p : SetPage) : Bool :=
  let lg := (match leafFor s p.tenant p.va with
    | some l => l.lg
    | none => 12)
  s.sets.any fun q => decide (q.tenant = p.tenant) && !q.image && q.pinned && meets (p.va / 2 ^ lg * 2 ^ lg) (2 ^ lg) q.va q.len

/-- A move ends well (R89): the page's blocks stand at their new place, and its entry names it. -/
def finishMove (s : State) (tenant : BitVec 16) (va : Nat) (l : Leaf) (base : Nat) : Option State :=
  let pasid := (getFn s (tenantVf s tenant)).pasid
  let toHost := decide (entType l.ent = 0#2)
  let ty : BitVec 2 := if toHost then 1#2 else 0#2
  let e := movedEntry l.ent ty base
  if frameOk s toHost l.lg base then
    match leafBase pasid l, leafBase pasid { l with ent := e } with
    | some src, some dst =>
      let h0 := homeKey ⟨entType l.ent, 0#12, src, l.lg⟩
      let h1 := homeKey ⟨ty, 0#12, dst, l.lg⟩
      let s := copyBlocks (leaveLines s h0 (2 ^ l.lg)) h0 h1 (2 ^ l.lg / 64)
      let s := rehome s fun h => if h0 ≤ h ∧ h < h0 + 2 ^ l.lg then h1 + (h - h0) else h
      some (clearMoving (putEntry s l.loc e 8) tenant (va / 2 ^ l.lg * 2 ^ l.lg) (2 ^ l.lg))
    | _, _ => none
  else none

/-- PAGE_MOVE_COMPLETE (R89, R412): the move of the page that the input names ends, at the place the engine has for it; a failed
one leaves the page where it was, and so does a page that has been pinned at T1 meanwhile (R91) (DEDUCED, log 178). It cannot end while
an access under the old translation is under way (R96). Input: the tenant,
the virtual address at byte 2, the place at byte 9 (DESIGN CHOICE, log 82). -/
def execPageMoveComplete (ok : BitVec 1) (s : State) : Host.Outcome State Fault Refusal :=
  let tenant : BitVec 16 := s.opnd 0 16
  let va := (s.opnd 2 56 : BitVec 56).toNat
  let base := (s.opnd 9 52 : BitVec 52).toNat
  match s.sets.find? (fun p => decide (p.tenant = tenant) && !p.image && p.moving && decide (p.va = va)), engineLeaf s tenant va with
  | some p, none => .next (countTierErr (clearMoving s tenant va p.len))
  | some p, some l =>
    let page := va / 2 ^ l.lg * 2 ^ l.lg
    if accessPending s tenant page (2 ^ l.lg) then .next s
    else if entType l.ent = 0#2 ∧ holdsPinned s p then .next (clearMoving (setMv s l false) tenant page (2 ^ l.lg))
    else
      let failed := countTierErr (clearMoving (setMv s l false) tenant page (2 ^ l.lg))
      if ok = 1#1 then
        match finishMove s tenant va l base with
        | some t => .next t
        | none => .next failed
      else .next failed
  | _, _ => .next s

/-- Put an entry into a tenant's recorded set: it takes the place of one for the same page, and keeps its pin (DESIGN CHOICE, log 167). -/
def recordEntry (s : State) (p : SetPage) : State :=
  let same (q : SetPage) : Bool := decide (q.tenant = p.tenant) && decide (q.image = p.image) && decide (q.va = p.va) && decide (q.len = p.len)
  match s.sets.find? same with
  | some q =>
    let tier := if q.pinned then q.tier else p.tier
    { s with sets := (s.sets.filter fun x => !same x) ++ [{ p with tier := tier, hint := p.hint || q.hint, pinned := q.pinned, moving := q.moving }] }
  | none => { s with sets := s.sets ++ [p] }

end Sys2Proof.Machine
end

