-- ==== Sys2Proof/Machine/Faults.lean ====
section
/-! DEFINITION. Faults and their repair: the fault ring of a die (R371), the handler and its registers (R374, R375), REPAIR
(R376, R377), escalation to the control cores and the host (R378 to R380), and the abort of a node (R383). -/

namespace Sys2Proof.Machine

/-! ## The host's side -/

/-- The physical address that a host address of a function stands for: a bus address for the PF, translated under the PASID of
a VF (R186, R379). -/
def hostXlate (s : State) (fn : BitVec 10) (a : Nat) : Option Nat :=
  if fn = 0#10 then some a
  else (Config.ats (getFn s fn).pasid (a / 4096 * 4096)).map fun b => b + a % 4096

/-- Write the low `n` bytes of a number to a function's host memory, little-endian. -/
def hostPut (s : State) (fn : BitVec 10) (a v : Nat) : Nat → State
  | 0 => s
  | n + 1 =>
    let s := hostPut s fn a v n
    match hostXlate s fn (a + n) with
    | some p => setHostByte s p (BitVec.ofNat 8 (v / 2 ^ (8 * n)))
    | none => s

/-- Read `n` bytes of a function's host memory. -/
def hostGet (s : State) (fn : BitVec 10) (a n : Nat) : Nat :=
  bytesNat (fun i => match hostXlate s fn (a + i) with
    | some p => hostByte s p
    | none => 0#8) n

/-- Raise an MSI-X vector of a function (R384). -/
def raiseMsix (s : State) (fn : BitVec 10) (v : Nat) : State :=
  let f := getFn s fn
  setFn s fn { f with msix := vset f.msix v (vget 0 f.msix v + 1) }

/-! ## Abort (R383) -/

/-- The pending faults of some instances are withdrawn from the rings, each with its REPAIR counted as discarded (R383): not one whose
REPAIR has been sent already. -/
def withdrawFaults (s : State) (mine : Nat → Bool) : State :=
  let one (d : Die) : Die :=
    let gone := (d.ring.filter fun r => mine r.inst && !r.repaired && !r.answered).length + (d.pend.filter fun r => mine r.inst).length
    let ring := d.ring.filter fun r => !mine r.inst
    { d with
      ring := ring
      fhead := (match ring with
        | r :: _ => r.slot
        | [] => d.ftail)
      pend := d.pend.filter fun r => !mine r.inst
      escalq := d.escalq.filter fun e => ring.any fun r => decide (r.slot = e.slot)
      discards := d.discards + BitVec.ofNat 32 gone }
  { s with dies := s.dies.map one }

/-- Abort a node: its instances stop, no further index is issued, its pending faults are withdrawn, and ERR takes the given bits with
ABORTED. Its jobs end at their next command boundary. -/
def abortNode (s : State) (id : Nat) (err : BitVec 16) : State :=
  match findNode s id with
  | none => s
  | some n =>
    let s := modNode s id fun n =>
      { n with aborting := true, err := n.err ||| err ||| 1#16, given := n.groups, ranges := [], reissue := [], bounds := [] }
    let mine (i : Nat) : Bool := n.insts.contains i
    let s := { s with dist := { s.dist with insts := mapWhere (fun i => mine i.id) (fun i => { i with st := .ended }) s.dist.insts } }
    withdrawFaults s mine

/-! ## The fault ring (R371) -/

/-- The fields of a fault record that every fault has (R372), with SEQ and the fields of an AG at 0. -/
def faultRecord (head : BitVec 98) (hyp : BitVec 6) (site : Site) (subt : BitVec 3) (kind : BitVec 1) (port : BitVec 3)
    (pc : BitVec 7) (code : FaultCode) (va : BitVec 56) : BitVec 512 :=
  setBits (setBits (setBits (setBits (setBits (0#512) 408 (head ++ hyp)) 385 (site ++ subt ++ kind ++ port)) 378 pc) 368
    code.byte) 296 va

/-- The corner MT of a die (R14). -/
def cornerMt (d : BitVec 2) : Site := siteIndex d 2#5 0#5

/-- The order of waiting records (R371): by cycle, then by SITE and SUBT. -/
def PendFault.key (f : PendFault) : Nat :=
  (bits f.rcd 448 64).toNat * 2 ^ 15 + f.site.toNat * 8 + f.subt.toNat

/-- The waiting record that comes first. -/
def firstPend (fs : List PendFault) : Option PendFault :=
  fs.foldl (fun b f => match b with
    | none => some f
    | some x => if f.key < x.key then some f else some x) none

/-- Give the stopped element its record's number. -/
def setSeq (s : State) (f : PendFault) (seq : BitVec 16) : State :=
  if f.kind = 0#1 then
    let loc : AgAt := ⟨f.site, bits f.subt 0 1⟩
    match (getAg s loc).st with
    | .faulted c _ => setAg s loc { getAg s loc with st := .faulted c (some seq) }
    | _ => s
  else
    let k := getTask s f.site f.subt
    if k.st = .trapped then setTask s f.site f.subt { k with trapSeq := some seq } else s

/-- FAULT_RECORD (R371): the record that waits first takes the next slot and sequence number; while the ring is full it waits. -/
def execFaultRecord (die : BitVec 2) (s : State) : Host.Outcome State Fault Refusal :=
  let d := getDie s die
  match firstPend d.pend with
  | none => .next s
  | some f =>
    if d.ring.any fun r => decide (r.slot = d.ftail) then .next s
    else
      let rcd := setBits f.rcd 352 d.seq
      let s := setSpadNat s (cornerMt die) (64 * d.ftail.toNat) rcd.toNat 64
      let ent : RingEnt := ⟨d.ftail, d.seq, f.site, f.subt, f.kind, f.inst, f.tok, false, false, false⟩
      let s := setDie s die
        { d with pend := d.pend.erase f, ring := d.ring ++ [ent], ftail := d.ftail + 1#8, seq := d.seq + 1#16 }
      .next (setSeq s f d.seq)

/-- Free the slot at FHEAD (R374): with an empty ring nothing happens (DEDUCED, log 134). -/
def popRing (s : State) (die : BitVec 2) : State :=
  let d := getDie s die
  match d.ring with
  | [] => s
  | _ :: rest =>
    setDie s die { d with ring := rest, fhead := (match rest with
      | r :: _ => r.slot
      | [] => d.ftail) }

/-- The argument of the REPAIR that answers a record (R376). -/
def repairArg (r : RingEnt) (action : BitVec 2) : BitVec 24 :=
  r.site ++ r.subt ++ r.kind ++ bits r.seq 0 6 ++ action

/-- Send a REPAIR token on VC1 (R374, R376). -/
def sendRepair (s : State) (die : BitVec 2) (arg : BitVec 24) : State :=
  let d := getDie s die
  setDie s die { d with repairs := d.repairs ++ [repairTok arg] }

/-! ## Overlays that grow (R408, R378) -/

/-- OWNER of a context (R187). -/
def ctxOwner (s : State) (ctx : BitVec 8) : BitVec 10 := bits (ctxEntry s ctx) 0 10

/-- OVLBASE of a context (R187). -/
def ctxBase (s : State) (ctx : BitVec 8) : Nat := (bits (ctxEntry s ctx) 64 52 : BitVec 52).toNat

/-- The segments of the owner's reserve among those that a context holds: all but the first where OVLBASE gives it a place (R187). -/
def ovlCharge (s : State) (ctx : BitVec 8) (segs : Nat) : Nat := if ctxBase s ctx = 0 then segs else segs - 1

/-- The segments that stand to a context: those that it holds, and the first from its first entry on, so that no spill lacks it (DEDUCED,
log 162). -/
def ovlHeld (s : State) (ctx : BitVec 8) : Nat := Nat.max (segsOf s ctx) (if ovlUsed s ctx = 0 then 0 else 1)

/-- Segments of a function's reserve that its contexts hold (R187). -/
def reserveUsed (s : State) (fn : BitVec 10) : Nat :=
  ((List.range 256).map fun c =>
    let ctx : BitVec 8 := BitVec.ofNat 8 c
    if ctxOwner s ctx = fn then ovlCharge s ctx (ovlHeld s ctx) else 0).sum

/-- The owner's reserve has no room for the context to come to `segs` segments. -/
def noReserve (s : State) (ctx : BitVec 8) (segs : Nat) : Bool :=
  let more := ovlCharge s ctx (Nat.max (ovlHeld s ctx) segs) - ovlCharge s ctx (ovlHeld s ctx)
  decide (0 < more) && decide ((getFn s (ctxOwner s ctx)).ovlSize < reserveUsed s (ctxOwner s ctx) + more)

/-- The context has not `n` free overlay entries (R408): its size is reached, or a segment that they need is not to be had. -/
def ovlShort (s : State) (ctx : BitVec 8) (n : Nat) : Bool :=
  let used := ovlUsed s ctx
  decide (2 ^ ((bits (ctxEntry s ctx) 152 8).toNat + 19) < used + n) || noReserve s ctx (ovlSegs (used + n))

/-- The context has no free overlay entry. -/
def ovlFull (s : State) (ctx : BitVec 8) : Bool := ovlShort s ctx 1

/-- Double a context's overlay, up to its limit and as far as the owner's reserve goes (R408). -/
def enlargeOvl (s : State) (ctx : BitVec 8) : Option State :=
  let e := ctxEntry s ctx
  let size := (bits e 152 8).toNat
  if size < (bits e 160 8).toNat ∧ noReserve s ctx (2 ^ (size + 1)) = false then
    let ctxs := Table.set 0#256 s.hub.ctxs ctx.toNat (setBits e 152 (BitVec.ofNat 8 (size + 1)))
    some (setSegs { s with hub := { s.hub with ctxs := ctxs } } ctx (2 ^ (size + 1)))
  else none

/-- A store of a context is held back for want of an overlay entry (R408). -/
def ovlHold (s : State) (ctx : BitVec 8) (h : BitVec 6) : State :=
  let ws := s.hyps.waits.filter fun w => decide (w.2.2 = now s) && decide (w ≠ (ctx, h, now s))
  { s with hyps := { s.hyps with waits := ws ++ [(ctx, h, now s)] } }

/-! ## Escalation (R378 to R380) -/

/-- The number of the record that an AG stopped on a fault waits on. -/
def Ag.pendSeq (a : Ag) : Option (BitVec 16) :=
  match a.st with
  | .faulted _ q => q
  | _ => none

/-- The number of the record that a trapped task waits on. -/
def Task.pendSeq (k : Task) : Option (BitVec 16) := if k.st = .trapped then k.trapSeq else none

/-- The number of the record that a saved element waits on (R377). -/
def Save.pendSeq (v : Save) (site : Site) (subt : BitVec 3) (kind : BitVec 1) : Option (BitVec 16) :=
  if kind = 0#1 then (Table.get Ag.empty v.ags (agKey site (bits subt 0 1))).pendSeq
  else ((Table.get Ce.empty v.ces site.toNat).tasks[subt.toNat]'subt.isLt).pendSeq

/-- The element that a record names has saved with its fault pending (R377). -/
def savedFault (s : State) (site : Site) (subt : BitVec 3) (kind : BitVec 1) : Bool :=
  s.dist.saves.any fun v => (v.pendSeq site subt kind).isSome

/-- The element that a record names is stopped on a fault (R377, R380). -/
def elementStopped (s : State) (site : Site) (subt : BitVec 3) (kind : BitVec 1) : Bool :=
  savedFault s site subt kind ||
  if kind = 0#1 then
    match (getAg s ⟨site, bits subt 0 1⟩).st with
    | .faulted _ _ => true
    | _ => false
  else decide ((getTask s site subt).st = .trapped)

/-- A record of the ring, as the corner's scratchpad holds it. -/
def ringRecord (s : State) (die : BitVec 2) (slot : BitVec 8) : BitVec 512 :=
  BitVec.ofNat 512 (spadNat s (cornerMt die) (64 * slot.toNat) 64)

/-- The entry of a function's ring that the next post would write has not been answered: the ring is full (R379). -/
def ringBusy (s : State) (fn : BitVec 10) : Bool :=
  let f := getFn s fn
  s.dies.toList.any fun d => d.escalq.any fun e => decide (e.fn = fn) && decide (e.posted = some (f.posts.toNat % 2 ^ (f.ringLg.toNat + 4)))

/-- The node of the element that a record names (R372): KIND 1 a task of a CE, KIND 0 an AG of a memory tile. -/
def recordNode (s : State) (rcd : BitVec 512) : Option Node :=
  nodeOf s (bits rcd 392 12) (if bitAt rcd 388 then 0 else 1 + (bits rcd 389 1 : BitVec 1).toNat)

/-- Post an escalation to its function's fault ring (R379): RESP = 0, the record, then POSTED; vector 1 is raised, but not for a node of
the sequencer firmware (R384). A full ring holds it back. -/
def postEscal (s : State) (die : BitVec 2) (e : Escal) : State :=
  let f := getFn s e.fn
  let size := 2 ^ (f.ringLg.toNat + 4)
  let put (s : State) (e : Escal) : State :=
    let d := getDie s die
    setDie s die { d with escalq := (d.escalq.filter fun x => decide (x.slot ≠ e.slot)) ++ [e] }
  if ringBusy s e.fn then put s { e with posted := none }
  else
    let a := f.ringBase.toNat + 128 * (f.posts.toNat % size)
    let s := hostPut s e.fn (a + 64) 0 4
    let s := hostPut s e.fn a e.rcd.toNat 64
    let s := hostPut s e.fn (a + 68) (f.posts + 1#32).toNat 4
    let s := setFn s e.fn { getFn s e.fn with posts := f.posts + 1#32 }
    let s := if (recordNode s e.rcd).any fun n => n.firmware then s else raiseMsix s e.fn 1
    put s { e with posted := some (f.posts.toNat % size), polledAt := now s }

/-- Change the ring entry of a slot. -/
def modRing (s : State) (die : BitVec 2) (slot : BitVec 8) (f : RingEnt → RingEnt) : State :=
  let d := getDie s die
  setDie s die { d with ring := mapWhere (fun x => decide (x.slot = slot)) f d.ring }

/-- A control core answers a record: with a REPAIR, or refuses it without one. The handler then pops it (R375, R380); with `auto` this is
the FAULT event's handler, which pops its oldest record in the same step. -/
def coreAnswer (s : State) (die : BitVec 2) (r : RingEnt) (auto : Bool) (action : Option (BitVec 2)) : State :=
  let s := match action with
    | some a => sendRepair s die (repairArg r a)
    | none => s
  let s := modRing s die r.slot fun x => { x with answered := true }
  match (getDie s die).ring with
  | x :: _ => if auto ∧ x.slot = r.slot then popRing s die else s
  | [] => s

/-- A record under escalation goes to its host, or is answered with ABORT for a function without a ring (R378, R379). -/
def toHost (s : State) (die : BitVec 2) (r : RingEnt) (auto : Bool) (rcd : BitVec 512) : State :=
  let fn := bits rcd 422 10
  if (getFn s fn).ringEn then
    postEscal (modRing s die r.slot fun x => { x with escalated := true }) die ⟨r.slot, bits r.site 0 2, rcd, fn, none, 0, 0, auto, false⟩
  else coreAnswer s die r auto (some 3#2)

/-- A core settles a TRANS_NP by a page that the Apsis engine brings up: it answers once the page has moved (R378). -/
def awaitPage (s : State) (die : BitVec 2) (r : RingEnt) (auto : Bool) (rcd : BitVec 512) : State :=
  let s := raisePage s (bits rcd 432 16) (bits rcd 296 56).toNat
  let s := modRing s die r.slot fun x => { x with escalated := true }
  let d := getDie s die
  setDie s die { d with escalq := d.escalq ++ [⟨r.slot, bits r.site 0 2, rcd, bits rcd 422 10, none, 0, 0, auto, true⟩] }

/-- A record given to its control core (R378, R380): refused when it names no stopped element; settled there when the device can;
else it goes to the host. ESCALS counts it. -/
def escalate (s : State) (die : BitVec 2) (r : RingEnt) (auto : Bool) : State :=
  let d := getDie s die
  let s := setDie s die { d with escals := d.escals + 1#32 }
  let rcd := ringRecord s die r.slot
  let code := bits rcd 368 8
  if !elementStopped s r.site r.subt r.kind then coreAnswer s die r auto none
  else if code = 6#8 then
    match enlargeOvl s (bits rcd 414 8) with
    | some s => coreAnswer s die r auto (some 0#2)
    | none => toHost s die r auto rcd
  else if code = 1#8 then
    match heldAtT2 s (bits rcd 432 16) (bits rcd 296 56).toNat with
    | some _ => awaitPage s die r auto rcd
    | none => toHost s die r auto rcd
  else toHost s die r auto rcd

/-- FAULT (R375): the handler treats the record at the head of its ring: REPAIR with ABORT for BOUNDS and ALIGN, with POISON for
POISON, with RETRY for a TRAP of a logit kernel (R422), and escalation for every other code. A record under escalation holds
those behind it; one that its control core has answered is popped. -/
def execFault (die : BitVec 2) (s : State) : Host.Outcome State Fault Refusal :=
  match (getDie s die).ring with
  | [] => .next s
  | r :: _ =>
    if r.answered then .next (popRing s die)
    else if r.escalated then .next s
    else
      let code := bits (ringRecord s die r.slot) 368 8
      if code = 3#8 ∨ code = 4#8 then .next (popRing (sendRepair s die (repairArg r 3#2)) die)
      else if code = 5#8 then .next (popRing (sendRepair s die (repairArg r 2#2)) die)
      else if r.kind = 1#1 ∧ bitAt (taskDesc s r.site r.subt.toNat) 36 then .next (popRing (sendRepair s die (repairArg r 0#2)) die)
      else .next (escalate s die r true)

/-! ## The handler registers (R374) -/

/-- A write of FPOP. -/
def execFpop (die : BitVec 2) (s : State) : Host.Outcome State Fault Refusal := .next (popRing s die)

/-- Copy the record at a ring index to its control core (R374, R380), which answers it; to pop it is FPOP's. An index at which no record
stands is refused there (DEDUCED, log 135). -/
def handlerEscal (s : State) (die : BitVec 2) (slot : BitVec 8) : State :=
  match (getDie s die).ring.find? fun r => decide (r.slot = slot) with
  | some r => if r.escalated || r.answered then s else escalate s die r false
  | none =>
    let d := getDie s die
    setDie s die { d with escals := d.escals + 1#32 }

/-- Set field `i` of watch entry `j` (R374). -/
def Watch.setField (w : Watch) (i : Nat) (v : Word) : Watch :=
  match i with
  | 0 => { w with base := setBits w.base 0 v }
  | 1 => { w with base := setBits w.base 32 (bits v 0 24) }
  | 2 => { w with len := v }
  | _ => { w with tenant := bits v 0 16, mode := bits v 16 2 }

/-- Field `i` of a watch entry (R374). -/
def Watch.field (w : Watch) (i : Nat) : Word :=
  match i with
  | 0 => bits w.base 0 32
  | 1 => (bits w.base 32 24).setWidth 32
  | 2 => w.len
  | _ => (w.mode ++ w.tenant).setWidth 32

/-- A write to a field of a watch entry of a die (R374). -/
def handlerWatch (s : State) (die : BitVec 2) (j i : Nat) (v : Word) : State :=
  let d := getDie s die
  setDie s die { d with watch := vset d.watch j ((vget ⟨0#56, 0#32, 0#16, 0#2⟩ d.watch j).setField i v) }

/-- A write to a handler register of a die (R374): every other number ignores it. -/
def handlerWrite (s : State) (die : BitVec 2) (num : Nat) (v : Word) : State :=
  if num = 0x42 then popRing s die
  else if num = 0x43 then sendRepair s die (bits v 0 24)
  else if num = 0x44 then handlerEscal s die (bits v 0 8)
  else if 0x50 ≤ num ∧ num < 0x60 then handlerWatch s die ((num - 0x50) / 4) ((num - 0x50) % 4) v
  else s

/-- A read of a handler register of a die (R374). -/
def handlerRead (s : State) (die : BitVec 2) (num : Nat) : Word :=
  let d := getDie s die
  if num = 0x40 then d.fhead.setWidth 32
  else if num = 0x41 then d.ftail.setWidth 32
  else if num = 0x45 then d.discards
  else if num = 0x46 then d.escals
  else if 0x50 ≤ num ∧ num < 0x60 then
    (vget ⟨0#56, 0#32, 0#16, 0#2⟩ d.watch ((num - 0x50) / 4)).field ((num - 0x50) % 4)
  else 0#32

/-- REPAIR (R374): a handler write sends the token. Input: the die, then the argument at byte 1. -/
def execRepair (s : State) : Host.Outcome State Fault Refusal := .next (sendRepair s (s.opnd 0 2) (s.opnd 1 24))

/-- ESCAL (R374). Input: the die, then the ring index at byte 1. -/
def execEscal (s : State) : Host.Outcome State Fault Refusal := .next (handlerEscal s (s.opnd 0 2) (s.opnd 1 8))

/-- WATCH (R374). Input: the die, the entry at byte 1, the field at byte 2, the value at byte 3. -/
def execWatch (s : State) : Host.Outcome State Fault Refusal :=
  .next (handlerWatch s (s.opnd 0 2) (s.opnd 1 2).toNat (s.opnd 2 2).toNat (s.opnd 3 32))

/-! ## Answers (R376, R377, R380) -/

/-- A REPAIR that no element accepts is discarded and counted (R377). -/
def discardRepair (s : State) (die : BitVec 2) : State :=
  let d := getDie s die
  setDie s die { d with discards := d.discards + 1#32 }

/-- An element consumes the REPAIR of its record: the fault is pending no longer (R373). -/
def consumeFault (s : State) (site : Site) (subt : BitVec 3) (kind : BitVec 1) (seq : BitVec 16) : State :=
  let mine (r : RingEnt) : Bool := decide (r.site = site) && decide (r.subt = subt) && decide (r.kind = kind) && decide (r.seq = seq)
  { s with dies := s.dies.map fun d => { d with ring := mapWhere mine (fun r => { r with repaired := true }) d.ring } }

/-- An AG stopped on a fault takes a matching REPAIR (R376). -/
def repairAg (s : State) (die : BitVec 2) (loc : AgAt) (seq6 : BitVec 6) (action : BitVec 2) : State :=
  let a := getAg s loc
  match a.st with
  | .faulted _ (some seq) =>
    if bits seq 0 6 ≠ seq6 then discardRepair s die
    else
      let s := consumeFault s loc.site (loc.sub.setWidth 3) 0#1 seq
      let go (s : State) (r : Option (BitVec 2)) : State := setAg s loc { a with st := .running, repair := r }
      match action.toNat with
      | 0 => go s none
      | 1 => go s (some 1#2)
      | 2 => setErr (go s (some 2#2)) (nodeOf s loc.site (1 + loc.sub.toNat)) 16#16
      | _ =>
        match ownerOf s loc.site (1 + loc.sub.toNat) with
        | some i => abortNode s i.node 0#16
        | none => setAg s loc { a with st := .halted }
  | _ => discardRepair s die

/-- Every task of the CE is Done; one that does not exist or holds no bundle counts as Done (R47, R74). -/
def allDone (s : State) (site : Site) : Bool :=
  [0, 1, 2, 3, 4, 5, 6, 7].all fun t =>
    let d := taskDesc s site t
    !taskValid d || decide (taskSlots d = 0) || decide ((getTask s site (BitVec.ofNat 3 t)).st = .done)

/-- Discard what stands in the endpoint buffers of a CE whose tasks are all Done (R74). MARK and SWITCH stay for R52 and R173
(DEDUCED, log 24). -/
def discardDone (s : State) (site : Site) : State :=
  if allDone s site then
    [0, 1, 2, 3, 4, 5, 6, 7].foldl (fun s e =>
      let x := getBuf s (endKey site e)
      setBuf s (endKey site e) { x with q := x.q.filter fun y => y.1.isMarkOrSwitch }) s
  else s

/-- A task stopped by TRAP takes a matching REPAIR (R376): RETRY, ZERO and POISON resume it where its firing left it. -/
def repairTask (s : State) (die : BitVec 2) (site : Site) (t : BitVec 3) (seq6 : BitVec 6) (action : BitVec 2) : State :=
  let k := getTask s site t
  match k.trapSeq with
  | some seq =>
    if k.st ≠ .trapped ∨ bits seq 0 6 ≠ seq6 then discardRepair s die
    else if action = 3#2 then
      let s := consumeFault s site t 1#1 seq
      match ownerOf s site 0 with
      | some i => abortNode s i.node 0#16
      | none => setTask s site t { k with st := .done, trapSeq := none }
    else
      let s := consumeFault s site t 1#1 seq
      discardDone (setTask s site t { k with st := k.resume, trapSeq := none }) site
  | none => discardRepair s die

/-- The element that a REPAIR answers has saved with its fault pending, so the corner holds the token (R377): one that a save holds, or
one that has taken MARK, with the record's SEQ. -/
def repairHeld (s : State) (arg : BitVec 24) : Bool :=
  let site : Site := bits arg 12 12
  let subt : BitVec 3 := bits arg 9 3
  let ours (q : Option (BitVec 16)) : Bool :=
    match q with
    | some q => decide (bits q 0 6 = (bits arg 2 6 : BitVec 6))
    | none => false
  let ag := getAg s ⟨site, bits arg 9 1⟩
  let here := if bitAt arg 8 then (getTask s site subt).pendSeq else ag.pendSeq
  let marked := if bitAt arg 8 then (getCe s site).saved else ag.saved
  if ours here then marked else s.dist.saves.any fun v => ours (v.pendSeq site subt (bits arg 8 1))

/-- The element that a REPAIR names belongs to an instance that an abort has stopped: the abort wins (R377). -/
def repairDead (s : State) (arg : BitVec 24) : Bool :=
  let site : Site := bits arg 12 12
  match ownerOf s site (if bitAt arg 8 then 0 else 1 + (bits arg 9 1).toNat) with
  | some i => decide (i.st = .ended)
  | none => false

/-- REPAIR_TOKEN (R376, R377): the first REPAIR on the die's VC1 that is not held reaches its element (DEDUCED, log 136). -/
def execRepairToken (die : BitVec 2) (s : State) : Host.Outcome State Fault Refusal :=
  let d := getDie s die
  match d.repairs.find? fun t => !repairHeld s t.arg with
  | none => .next s
  | some tok =>
    let arg := tok.arg
    let s := setDie s die { d with repairs := d.repairs.erase tok }
    let site : Site := bits arg 12 12
    if repairDead s arg then .next (discardRepair s die)
    else if bitAt arg 8 then .next (repairTask s die site (bits arg 9 3) (bits arg 2 6) (bits arg 0 2))
    else if bits arg 9 3 ≠ 0#3 ∧ bits arg 9 3 ≠ 1#3 then .next (discardRepair s die)
    else .next (repairAg s die ⟨site, bits arg 9 1⟩ (bits arg 2 6) (bits arg 0 2))

/-- A port operation is store-like or an atomic, so its accesses need W (R94, R370). -/
def portNeedsW (opc : BitVec 8) : Bool :=
  let o := opc.toNat
  decide (o = 3) || decide (o = 4) || (decide (8 ≤ o) && decide (o ≤ 16)) || decide (o = 0x12) || decide (o = 0x13)

/-- The walk of a record's address would fault again (R380): this walk sets neither A nor D (R94). -/
def wouldFault (s : State) (r : RingEnt) (rcd : BitVec 512) : Bool :=
  match findInst s r.inst with
  | none => true
  | some i =>
    match findNode s i.node with
    | none => true
    | some n =>
      let port : PortAt := ⟨r.site, bits rcd 385 3⟩
      let opc : BitVec 8 := bits (portDescWord s port) 56 8
      match walkTables s n.ptroot (bits rcd 296 56).toNat with
      | .ok l => !leafPermits l (portNeedsW opc) || (leafBase (getFn s (nodeVf s n)).pasid l).isNone
      | .error _ => true

/-- A control core has something to do for an escalation: the page that it waits for has moved, the ring that was full has room, or it
is time to read RESP again (R379). -/
def escalDue (s : State) (e : Escal) : Bool :=
  if e.moving then
    !s.sets.any fun p => decide (p.tenant = bits e.rcd 432 16) && !p.image && p.moving && meets p.va p.len (bits e.rcd 296 56).toNat 1
  else
    match e.posted with
    | none => !ringBusy s e.fn
    | some _ => decide (e.polledAt + usCycles ≤ now s)

/-- An escalation is no longer at its core. -/
def dropEscal (s : State) (die : BitVec 2) (e : Escal) : State :=
  let d := getDie s die
  setDie s die { d with escalq := d.escalq.filter fun x => decide (x.slot ≠ e.slot) }

/-- RESP_POLL (R378 to R380): the control core of the input looks after the first of its records for which something is due: it reads
RESP of a posted one, where RETRY for a translation fault is checked by a walk and the record posted again while that fails, up to three
answers, then ABORT; a record that found the ring full is posted once there is room; and one whose page the Apsis engine has moved is
answered with RETRY after the same check. Input: the die, then the core at byte 1. -/
def execRespPoll (s : State) : Host.Outcome State Fault Refusal :=
  let die : BitVec 2 := s.opnd 0 2
  let core : BitVec 2 := s.opnd 1 2
  match (getDie s die).escalq.find? fun e => decide (e.core = core) && escalDue s e with
  | none => .next s
  | some e =>
    match (getDie s die).ring.find? fun r => decide (r.slot = e.slot) with
    | none => .next s
    | some r =>
      let answer (action : BitVec 2) : State := coreAnswer (dropEscal s die e) die r e.auto (some action)
      if e.moving then .next (if wouldFault s r e.rcd then toHost (dropEscal s die e) die r e.auto e.rcd else answer 0#2)
      else
        match e.posted with
        | none => .next (postEscal s die e)
        | some idx =>
          let f := getFn s e.fn
          let resp : Word := BitVec.ofNat 32 (hostGet s e.fn (f.ringBase.toNat + 128 * idx + 64) 4)
          if !bitAt resp 31 then
            let d := getDie s die
            .next (setDie s die { d with escalq := mapWhere (fun x => decide (x.slot = e.slot)) (fun x => { x with polledAt := now s }) d.escalq })
          else
            let code := bits e.rcd 368 8
            let action : BitVec 2 := bits resp 0 2
            if action = 0#2 ∧ (code = 1#8 ∨ code = 2#8 ∨ code = 5#8) ∧ wouldFault s r e.rcd then
              .next (if 3 ≤ e.tries + 1 then answer 3#2 else postEscal (dropEscal s die e) die { e with tries := e.tries + 1 })
            else .next (answer action)

end Sys2Proof.Machine
end

