-- ==== Sys2Proof/Machine/Ports.lean ====
section
/-! DEFINITION. The ports of the memory tiles: taking a request and its tokens (R312 to R317), the shared loads, stores and
atomics over the stash and the tiers (R318 to R323, R366), replies (R97), and poison completion (R317, R399). -/

namespace Sys2Proof

/-! ## Descriptor and binding fields (R231, R232, R313) -/

/-- ASRC names the channel. -/
def PortDesc.chan (d : PortDesc) : Bool := decide (d.asrc = 2#2)

end Sys2Proof

namespace Sys2Proof.Machine

/-- RUSED -/
def portRused (s : State) (loc : PortAt) : Bool := bitAt (portBinding s loc) 20

/-- RLP and RVC: the local port and the VC of the reply channel. -/
def portReply (s : State) (loc : PortAt) : Nat × Nat :=
  let b := portBinding s loc
  (8 + (bits b 25 1).toNat, (bits b 21 4).toNat)

/-- FRD -/
def portFrd (s : State) (loc : PortAt) : Bool := bitAt (portBinding s loc) 26

/-- The descriptor that a port holds, with its opcode (R231). -/
def portDescOf (s : State) (loc : PortAt) : BitVec 8 × PortDesc :=
  let w := portDescWord s loc
  (bits w 56 8, ⟨bits w 53 3, bits w 50 3, bits w 48 2, bits w 0 48⟩)

/-! ## A request -/

/-- A request with its tokens (R315): address, operands, emission mask, stamp, data tokens, the translation of an AG's emission,
and how a REPAIR has it completed (R376). -/
structure PReq where
  va : Nat
  x : Word
  y : Word
  v : Word
  mask : BitVec 16
  hyp : BitVec 6
  refuted : Bool
  toks : List Token
  tr : Option Trans
  act : BitVec 2
  deriving DecidableEq, Repr

/-- X and Y of a request token (R315): 0 for a scalar one. -/
def Token.request (t : Token) : Word × Word := if t.vec then (lane t.pay 2, lane t.pay 3) else (0#32, 0#32)

/-- X and Y of a token under the operand rule (R315). -/
def Token.operand (t : Token) : Word × Word := if t.vec then (lane t.pay 2, lane t.pay 3) else (lane t.pay 0, 0#32)

/-- The address of a request token (R315). -/
def Token.addr (t : Token) : Nat := if t.vec then (bits (lane t.pay 1) 0 24 ++ lane t.pay 0).toNat else (lane t.pay 0).toNat

/-- A load-like operation: LD, LDRO, SPLD and GATH. -/
def opLoad (opc : BitVec 8) : Bool := decide (opc = 1#8) || decide (opc = 2#8) || decide (opc = 5#8) || decide (opc = 0x11#8)

/-- An atomic. -/
def opAtomic (opc : BitVec 8) : Bool := decide (8 ≤ opc.toNat) && decide (opc.toNat ≤ 16)

/-- The data or operand tokens that a request takes beside its request token (R314, R315). -/
def dataNeed (opc : BitVec 8) (d : PortDesc) : Nat :=
  match opc.toNat with
  | 3 => 1
  | 6 => 1
  | 7 => 1
  | 4 => 2
  | 0x12 => d.rows
  | 0x13 => d.rows
  | n => if !d.chan && (opAtomic opc || decide (n = 0x14) || decide (n = 0x15)) then 1 else 0

/-- The request owes a reply (R314). -/
def owesReply (s : State) (loc : PortAt) (opc : BitVec 8) (d : PortDesc) : Bool :=
  portRused s loc && (opLoad opc || opAtomic opc || decide (opc = 0x15#8) || d.ack)

/-- Dequeue the head of a port's input; a port with FRD owes a FREED notice in the next cycle (R59), and a poisoned token marks the
node's record (R382). -/
def popPort (s : State) (loc : PortAt) : State :=
  let k := endKey loc.site loc.port.toNat
  let s := popBuf (markPsn s (nodeOf s loc.site 0) (headAt s k)) k
  if portFrd s loc then setPort s loc { getPort s loc with notices := (getPort s loc).notices ++ [(now s + 1, 1)] } else s

/-- Take a data token into the request at hand while some are wanted (R315): one in a cycle (R61), and a control token at the head is not
paired (R327) (DEDUCED, log 38). -/
def takePart (s : State) (loc : PortAt) (wanted : Nat) : State :=
  match wanted, headToTake s (endKey loc.site loc.port.toNat) with
  | _ + 1, some t =>
    if t.ctrl then s
    else
      let s := popPort s loc
      setPort s loc { getPort s loc with part := (getPort s loc).part ++ [t] }
  | _, _ => s

/-- The emission at the head of a port's requests (R312). -/
def headEmission (s : State) (loc : PortAt) : Option Emission :=
  match (getPort s loc).reqs with
  | e :: _ => if e.seen ≤ now s then some e else none
  | [] => none

/-- The request's id is that of its data token for ST, STM, SCAT and SCATADD, of its operand token for an atomic, and of its
request token or emission otherwise (R316). -/
def stampOf (opc : BitVec 8) (toks : List Token) (h : BitVec 6) (r : Bool) : BitVec 6 × Bool :=
  if opc = 3#8 ∨ opc = 4#8 ∨ opc = 0x12#8 ∨ opc = 0x13#8 ∨ opAtomic opc then
    match toks.getLast? with
    | some t => (t.hyp, t.refuted)
    | none => (h, r)
  else (h, r)

/-- The request at a port, once its tokens are all present (R312, R315). -/
def gather (s : State) (loc : PortAt) (opc : BitVec 8) (d : PortDesc) : State × Option PReq :=
  let n := dataNeed opc d
  if d.chan then
    let s := takePart s loc (n + 1 - (getPort s loc).part.length)
    match (getPort s loc).part with
    | q :: toks =>
      if toks.length < n then (s, none)
      else
        let o := q.request
        let xy := match toks.getLast? with
          | some t => t.operand
          | none => o
        let h := stampOf opc toks q.hyp q.refuted
        (s, some ⟨q.addr, xy.1, xy.2, if q.vec then o.1 else lane q.pay 0, 0xFFFF#16, h.1, h.2, toks, none, 0#2⟩)
    | [] => (s, none)
  else
    match headEmission s loc with
    | some e =>
      if e.ctl.isSome then (s, none)
      else
        let s := takePart s loc (n - (getPort s loc).part.length)
        let toks := (getPort s loc).part
        if toks.length < n then (s, none)
        else
          let xy := match toks.getLast? with
            | some t => t.operand
            | none => (0#32, 0#32)
          let h := stampOf opc toks e.hyp e.refuted
          (s, some ⟨e.addr.toNat, xy.1, xy.2, xy.1, e.mask, h.1, h.2, toks, e.tr, e.act⟩)
    | none => (s, none)

/-- The remote requests of a port that have not issued yet (R367). -/
def portUnissued (s : State) (loc : PortAt) : Bool :=
  s.links.remotes.any fun r => decide (r.who = .port loc.site loc.port) && r.issued.isNone

/-- The ports of a cycle are granted in ascending number (R77, R312): none of this number or above has been, and see `lowerWaits`. -/
def grantOpen (s : State) (loc : PortAt) : Bool :=
  let m := getMt s loc.site
  decide (m.grantNext ≤ now s) || decide (m.grantPort.toNat < loc.port.toNat)

/-- The port may perform a request: its region runs, nothing halts it, it has not saved, no remote request of its own waits to issue, and
its turn in this cycle is not over (R77, R173, R312, R367, R392). -/
def portMayRun (s : State) (loc : PortAt) : Bool :=
  regionRuns (ownerOf s loc.site 0) && !(getMt s loc.site).halted && !dieStops s loc.site && !(getMt s loc.site).saved && !portUnissued s loc && grantOpen s loc

/-- A request that owes a reply finds an entry free in the reply buffer (R97): each reply owed holds one, and so does an armed
wait. -/
def portRoom (s : State) (loc : PortAt) : Bool :=
  decide (((getPort s loc).replies.filter fun e => decide (e.opc ≠ 0#8)).length +
    ((getMt s loc.site).waiters.filter fun w => decide (w.port = loc.port)).length < 64)

/-- Append a reply entry, where the port has a reply channel. -/
def putReply (s : State) (loc : PortAt) (e : ReplyEnt) : State :=
  if portRused s loc then setPort s loc { getPort s loc with replies := (getPort s loc).replies ++ [e] } else s

/-- A control token on the reply channel, after the waits of the port armed before it (R327). -/
def ctlEntry (s : State) (loc : PortAt) (t : Token) : ReplyEnt :=
  { ReplyEnt.ready 0#8 t.hyp t.refuted [t] with
    after := ((getMt s loc.site).waiters.filter fun w => decide (w.port = loc.port)).map fun w => w.slot }

/-- An entry for emissions is free again, which their AG sees from the next cycle on (R368). -/
def freeEntry (s : State) (loc : PortAt) : State :=
  let p := getPort s loc
  setPort s loc { p with freed := (if p.freedAt = now s then p.freed else 0) + 1, freedAt := now s }

/-- The request at hand is performed: its emission and tokens leave the port, its control tokens follow its reply, and the
region made progress (R312, R327, R368, R391). -/
def portDone (s : State) (loc : PortAt) (d : PortDesc) : State :=
  let s := if d.chan || portUnissued s loc then s else freeEntry s loc
  let p := getPort s loc
  let p := if d.chan then p else { p with reqs := p.reqs.tail }
  let s := setPort s loc { p with part := [], held := [] }
  let s := setMt s loc.site { getMt s loc.site with grantNext := now s + 1, grantPort := loc.port }
  progress (p.held.foldl (fun s t => putReply s loc (ctlEntry s loc t)) s) (ownerOf s loc.site 0)

/-! ## Replies -/

/-- The reply token of a block (R318, R403): lanes outside the mask read 0. -/
def loadTok (wid : Bool) (va : Nat) (mask : BitVec 16) (hyp : BitVec 6) (refuted : Bool) (b : BlkVal) : Token :=
  let b := b.delivered
  if wid then vectorTok (mergeLanes 0#512 b.data mask) mask b.desc hyp refuted b.psn
  else scalarTok (lane b.data (va % 64 / 4)) hyp refuted b.psn

/-- The tokens of a load's reply: one for each block, and EOT after a row of GATH with ROWEOT (R318, R323). -/
def loadToks (opc : BitVec 8) (d : PortDesc) (va : Nat) (mask : BitVec 16) (hyp : BitVec 6) (refuted : Bool) (bs : List BlkVal) :
    List Token :=
  (bs.map fun b => loadTok d.wid va mask hyp refuted b) ++
  (if opc = 0x11#8 ∧ d.roweot then [controlTok true cEOT hyp refuted] else [])

/-- The reply of a request that makes no access (R316, R317, R376): a load gives payload 0 under a mask with descriptor 0x00FF,
every other operation 0. -/
def blankToks (opc : BitVec 8) (d : PortDesc) (r : PReq) (mask : BitVec 16) (psn : Bool) : List Token :=
  if opLoad opc then
    let n := if opc = 0x11#8 then d.rows else 1
    let one := if d.wid then vectorTok 0#512 mask 0x00FF#16 r.hyp r.refuted psn else scalarTok 0#32 r.hyp r.refuted psn
    List.replicate n one ++ (if opc = 0x11#8 ∧ d.roweot then [controlTok true cEOT r.hyp r.refuted] else [])
  else [scalarTok 0#32 r.hyp r.refuted (psn && decide (opc = 0x15#8))]

/-- Answer a request with tokens that stand ready. -/
def replyNow (s : State) (loc : PortAt) (opc : BitVec 8) (d : PortDesc) (r : PReq) (toks : List Token) : State :=
  if owesReply s loc opc d then putReply s loc (.ready opc r.hyp r.refuted toks) else s

/-- Answer a request with tokens that land with the memory's reply, or at once (R79). -/
def replyLands (s : State) (loc : PortAt) (opc : BitVec 8) (d : PortDesc) (r : PReq) (toks : List Token) (hit : Bool) : State :=
  if owesReply s loc opc d then putReply s loc { ReplyEnt.ready opc r.hyp r.refuted toks with landed := hit } else s

/-- Acknowledge a number of bytes (R314). -/
def ackNow (s : State) (loc : PortAt) (opc : BitVec 8) (d : PortDesc) (r : PReq) (n : Nat) : State :=
  replyNow s loc opc d r [scalarTok (BitVec.ofNat 32 n) r.hyp r.refuted false]

/-- Complete a request as poison (R317, R399): ERR.POISONED of the node. -/
def poisonDone (s : State) (loc : PortAt) (opc : BitVec 8) (d : PortDesc) (r : PReq) : State × Bool :=
  (setErr (replyNow s loc opc d r (blankToks opc d r r.mask true)) (nodeOf s loc.site 0) 16#16, true)

/-! ## Translation at a port -/

/-- The translation of one block of a request (R95, R317): that of its AG's emission where it lies in the same page, else the die's
cache, else a walk. -/
def portXlate (s : State) (loc : PortAt) (r : PReq) (va : Nat) (needW : Bool) : State × Xlat :=
  match nodeOf s loc.site 0 with
  | none => (s, .fail .transNp)
  | some n =>
    let same (t : Trans) : Option Trans :=
      if va / 2 ^ t.lg = r.va / 2 ^ t.lg then some { t with pa := t.pa - r.va % 2 ^ t.lg + va % 2 ^ t.lg } else none
    match r.tr.bind same with
    | some t => (s, .ok t)
    | none =>
      let d := siteDie loc.site
      let served := clearWalk s d (.port loc) va needW
      match walkFailed s d (.port loc) va needW with
      | some c => (served, .fail c)
      | none =>
        match tlbFind (getDie s d).tlb n.tenant va needW with
        | some e => (served, .ok (e.trans va))
        | none => (postWalk s d n (.port loc) va needW, .wait)

/-- The translations of `n` blocks from an address, in order; a row has all its blocks in its first page (DEDUCED, log 35). -/
def portXlates (s : State) (loc : PortAt) (r : PReq) (needW : Bool) : Nat → Nat → State × Except Xlat (List Trans)
  | _, 0 => (s, .ok [])
  | va, n + 1 =>
    match portXlate s loc r va needW with
    | (s, .ok t) =>
      match portXlates s loc r needW (va + 64) n with
      | (s, .ok ts) => (s, .ok (t :: ts))
      | x => x
    | (s, x) => (s, .error x)

/-- What is common to a global request (R316, R317, R376): a REPAIR's action, the refuted stamp, alignment, translation, and a
row's page. `k` performs it over the translations of its blocks. -/
def portGlobal (opc : BitVec 8) (loc : PortAt) (d : PortDesc) (blocks : Nat) (isRow : Bool) (r : PReq)
    (k : State → List Trans → State × Bool) (s : State) : State × Bool :=
  let s := if r.act ≠ 0#2 || r.refuted then loseWalks s (siteDie loc.site) fun w => decide (w.who = .port loc) else s
  if r.act = 1#2 then (replyNow s loc opc d r (blankToks opc d r r.mask false), true)
  else if r.act = 2#2 then (replyNow s loc opc d r (blankToks opc d r r.mask true), true)
  else if r.refuted then (replyNow s loc opc d r (blankToks opc d r 0#16 false), true)
  else if r.va % (if d.wid then 64 else 4) ≠ 0 then poisonDone s loc opc d r
  else
    match portXlates s loc r (portNeedsW opc) r.va blocks with
    | (s, .ok ts) =>
      match ts with
      | t :: _ => if isRow && decide (2 ^ t.lg < r.va % 2 ^ t.lg + 64 * blocks) then poisonDone s loc opc d r else k s ts
      | [] => k s []
    | (s, .error .wait) => (s, false)
    | (s, .error _) => poisonDone s loc opc d r

/-- The scope of a port's access to a page (R32, R191): a peer's page is reached at tenant scope. -/
def accScope (s : State) (loc : PortAt) (d : PortDesc) (home : Nat) : BitVec 3 :=
  if homeIsPeer home then scopeTenant else portScope (nodeOf s loc.site 0) d.lvl

/-- The hypothesis context of a port's region. -/
def portCtx (s : State) (loc : PortAt) : BitVec 8 := ctxOf (nodeOf s loc.site 0)

/-! ## Remote requests of a port (R366) -/

/-- The blocks of a row's next piece (R366): the largest of 4, 2 and 1 that is aligned to its own size and lies within the
blocks that remain, which stand one behind the other. -/
def pieceLen (homes : List Nat) : Nat :=
  match homes with
  | [] => 0
  | h :: _ =>
    let fits (k : Nat) : Bool :=
      decide (k ≤ homes.length) && decide (homeAddr h % (64 * k) = 0) &&
      decide (homes.take k = (List.range k).map fun i => h + 64 * i)
    if fits 4 then 4 else if fits 2 then 2 else 1

/-- The pieces of a row (R366): first block and length of each. -/
def pieces : Nat → Nat → List Nat → List (Nat × Nat)
  | 0, _, _ => []
  | _, _, [] => []
  | fuel + 1, i, hs => (i, pieceLen hs) :: pieces fuel (i + pieceLen hs) (hs.drop (pieceLen hs))

/-- Queue one request for each piece of a row from its block `first` on, with what the piece carries, where it carries anything; and give
their indices. -/
def pushPieces (s : State) (loc : PortAt) (kind : BitVec 3) (first : Nat) (homes : List Nat) (want : Nat → Nat → Bool)
    (fill : Nat → Nat → Remote → Remote) : State × List Nat :=
  ((pieces homes.length 0 homes).filter fun p => want p.1 p.2).foldl (fun (x : State × List Nat) p =>
    let s := x.1
    let r := remoteOf s (.port loc.site loc.port) (tenantOf (nodeOf s loc.site 0)) kind (homes.getD p.1 0) p.2
    (pushRemote s { fill p.1 p.2 r with place := first + p.1 }, x.2 ++ [s.links.nextIdx])) (s, [])

/-- Queue the reads of a row from a peer. -/
def pushReads (s : State) (loc : PortAt) (first : Nat) (homes : List Nat) : State × List Nat :=
  pushPieces s loc 0#3 first homes (fun _ _ => true) fun _ _ q => q

/-- The entry of a request that awaits a peer, whether or not it owes a reply. -/
def replyRemote (s : State) (loc : PortAt) (opc : BitVec 8) (r : PReq) (home blocks bytes : Nat) (dat : List Token) (idx : List Nat) :
    State :=
  let e : ReplyEnt :=
    { opc := opc, addr := r.va, home := home, x := r.x, y := r.y, mask := r.mask, hyp := r.hyp, refuted := r.refuted,
      blks := List.replicate blocks ⟨0#512, 0x00FF#16, true⟩, dat := dat, bytes := bytes, remote := idx, after := [], landed := false,
      toks := [] }
  let p := getPort s loc
  setPort s loc { p with replies := p.replies ++ [e] }

/-! ## Loads (R318, R323) -/

/-- The bytes of a block that a load needs: all of them, or the word at an address. -/
def needMask (wid : Bool) (va : Nat) : BitVec 64 := if wid then BitVec.allOnes 64 else BitVec.ofNat 64 (15 * 2 ^ (va % 64))

/-- A load of a block that its tile holds, or whose home is in this package: what it returns and what it leaves in the stash. -/
def loadLocal (s : State) (loc : PortAt) (d : PortDesc) (r : PReq) (home va : Nat) : State × BlkVal :=
  let p := portParty s loc
  let b := view s p home (portCtx s loc) r.hyp
  (loadInstall s p loc.site home va (portCtx s loc) r.hyp (needMask d.wid r.va) d.hint (accScope s loc d home) (homeBlock s home), b)

/-- Loads of blocks in order. -/
def loadBlocks (s : State) (loc : PortAt) (d : PortDesc) (r : PReq) (va : Nat) : List Nat → State × List BlkVal
  | [] => (s, [])
  | h :: hs =>
    let x := loadLocal s loc d r h va
    let y := loadBlocks x.1 loc d r (va + 64) hs
    (y.1, x.2 :: y.2)

/-- Every block hits in the tile's stash. -/
def allHit (s : State) (loc : PortAt) (r : PReq) (need : BitVec 64) (homes : List Nat) : Bool :=
  homes.all fun h => loadHits s loc.site h (portCtx s loc) r.hyp need

/-- The load of LD and GATH: at once from the stash, with the memory's reply from a tier of this package, or over remote requests
for a peer's page. -/
def perfLoads (opc : BitVec 8) (loc : PortAt) (d : PortDesc) (r : PReq) (s : State) (ts : List Trans) : State × Bool :=
  let homes := ts.map homeKey
  let need := needMask d.wid r.va
  let hit := allHit s loc r need homes
  if !hit && homes.any homeIsPeer then
    let x := pushReads s loc 0 homes
    (replyRemote x.1 loc opc r (homes.getD 0 0) homes.length 0 [] x.2, true)
  else
    let x := loadBlocks s loc d r r.va homes
    (replyLands x.1 loc opc d r (loadToks opc d r.va r.mask r.hyp r.refuted x.2) hit, true)

/-- A load over the read-only path under hypothesis 0 (R81, R110): the tile's line of the block as it stands, else what a load
returns, which leaves a read-only line (DEDUCED, log 145). -/
def loadRo (s : State) (loc : PortAt) (d : PortDesc) (home va : Nat) (need : BitVec 64) : State × BlkVal :=
  let p := portParty s loc
  let b := view s p home (portCtx s loc) 0#6
  match lineOf (getMt s loc.site) home 0#8 0#6 with
  | some l =>
    if l.ro ∧ need &&& ~~~l.valid = 0#64 then (putLine s loc.site (l.touched d.hint 0#3), ⟨l.data, l.desc, l.psn⟩)
    else (loadInstall s p loc.site home va (portCtx s loc) 0#6 need d.hint (accScope s loc d home) (homeBlock s home), b)
  | none =>
    if hintAlloc d.hint then
      let l := ((Line.fresh home va 0#8 0#6 b.desc).fill b).touched d.hint (accScope s loc d home)
      (install s loc.site { l with ro := true }, b)
    else (s, b)

/-- The load of LDRO (R318, R407): under h ≠ 0 it is an LD. -/
def perfLdro (loc : PortAt) (d : PortDesc) (r : PReq) (s : State) (ts : List Trans) : State × Bool :=
  let home := (ts.map homeKey).getD 0 0
  let need := needMask d.wid r.va
  let hit : Bool := match lineOf (getMt s loc.site) home 0#8 0#6 with
    | some l => decide (need &&& ~~~l.valid = 0#64)
    | none => false
  if r.hyp ≠ 0#6 ∨ (!hit && homeIsPeer home) then perfLoads 2#8 loc d r s ts
  else
    let x := loadRo s loc d home r.va need
    (replyLands x.1 loc 2#8 d r (loadToks 2#8 d r.va r.mask r.hyp r.refuted [x.2]) hit, true)

/-! ## Stores (R319, R83, R315) -/

/-- The byte mask of a lane mask. -/
def laneBytes (m : BitVec 16) : BitVec 64 := ofMask64 fun i => bitAt m (i / 4)

/-- The number of bytes that a byte mask selects. -/
def countBits {w : Nat} (m : BitVec w) : Nat := ((List.range w).filter fun i => bitAt m i).length

/-- What one data token stores: block, byte mask, descriptor if it writes one, poison. -/
structure StData where
  data : Block
  mask : BitVec 64
  desc : Option (BitVec 16)
  psn : Bool
  deriving DecidableEq, Repr

/-- The descriptor that a vector write of some bytes makes (R319, R83). -/
def storeDesc (d : PortDesc) (m : BitVec 64) (t : Token) : Option (BitVec 16) :=
  if m = 0#64 then none else some (if d.dov then d.desc else t.desc)

/-- A word at its place in a block. -/
def wordBlock (va : Nat) (w : Word) : Block := w.setWidth 512 <<< (va % 64 / 4 * 32)

/-- What a store writes of one data token under the emission mask (R319); STM takes its byte mask from the mask token. -/
def storeData (opc : BitVec 8) (d : PortDesc) (va : Nat) (em : BitVec 16) (mt t : Token) : StData :=
  if opc = 4#8 then
    let m : BitVec 64 := if mt.vec then lane mt.pay 1 ++ lane mt.pay 0 else (lane mt.pay 0).setWidth 64
    ⟨t.pay, m, storeDesc d m t, t.psn⟩
  else if d.wid then
    let m := laneBytes (t.mask &&& em)
    ⟨t.pay, m, storeDesc d m t, t.psn⟩
  else ⟨wordBlock va t.operand.1, needMask false va, none, t.psn⟩

/-- A store to a block under a nonzero tag that has no line in the tile needs an entry of its context's overlay (R408). -/
def ovlNeeds (s : State) (loc : PortAt) (h : BitVec 6) (home : Nat) : Bool :=
  decide (h ≠ 0#6) && (lineOf (getMt s loc.site) home (portCtx s loc) h).isNone

/-- The first id of a request's stores (id and block) that finds no entry in its context's overlay, which has not enough for them all: the
request waits (R408). -/
def ovlStop (s : State) (loc : PortAt) (xs : List (BitVec 6 × Nat)) : Option (BitVec 6) :=
  match xs.filter fun x => ovlNeeds s loc x.1 x.2 with
  | [] => none
  | x :: rest => if ovlShort s (portCtx s loc) (rest.length + 1) then some x.1 else none

/-- Perform a request once its stores find their overlay entries. -/
def withOvl (s : State) (loc : PortAt) (xs : List (BitVec 6 × Nat)) (k : State × Bool) : State × Bool :=
  match ovlStop s loc xs with
  | some h => (ovlHold s (portCtx s loc) h, false)
  | none => k

/-- One store of a row: its address, home and data, under the stamp of its token; a refuted one is dropped (R316). -/
structure StOne where
  va : Nat
  home : Nat
  hyp : BitVec 6
  refuted : Bool
  dat : StData
  deriving DecidableEq, Repr

/-- The store goes to the peer itself (R366): no line takes it. -/
def StOne.goes (x : StOne) (d : PortDesc) : Bool :=
  homeIsPeer x.home && decide (x.hyp = 0#6) && !x.refuted && !hintAlloc d.hint

/-- Make one store in this package: in the stash under its hint, or through to the tier. -/
def storeOne (s : State) (loc : PortAt) (d : PortDesc) (x : StOne) : State :=
  if x.refuted then s
  else storeBlock s (portParty s loc) loc.site x.home x.va (portCtx s loc) x.hyp d.hint (accScope s loc d x.home) x.dat.mask x.dat.data x.dat.desc x.dat.psn

/-- Fill a remote write with those stores of a piece that go to the peer (R366, R404): bytes, masks, the descriptor flag, poison. -/
def fillStores (d : PortDesc) (xs : List StOne) (i n : Nat) (q : Remote) : Remote :=
  (((List.range n).zip ((xs.drop i).take n)).filter fun p => p.2.goes d).foldl (fun q p =>
    { q with data := setBits q.data (512 * p.1) p.2.dat.data, mask := setBits q.mask (64 * p.1) p.2.dat.mask,
             dset := q.dset || p.2.dat.desc.isSome, descs := setBits q.descs (16 * p.1) (p.2.dat.desc.getD 0#16),
             psn := setBits q.psn p.1 (BitVec.ofBool p.2.dat.psn) }) q

/-- The stores of a request, in order. -/
def perfStores (opc : BitVec 8) (loc : PortAt) (d : PortDesc) (r : PReq) (xs : List StOne) (s : State) : State × Bool :=
  withOvl s loc ((xs.filter fun x => !x.refuted).map fun x => (x.hyp, x.home)) <|
    let s := xs.foldl (fun s x => storeOne s loc d x) s
    let n := ((xs.filter fun x => !x.refuted && !x.goes d).map fun x => countBits x.dat.mask).sum
    if xs.any fun x => x.goes d then
      let want (i k : Nat) : Bool := ((xs.drop i).take k).any fun x => x.goes d
      let y := pushPieces s loc 1#3 0 (xs.map fun x => x.home) want (fillStores d xs)
      (replyRemote y.1 loc opc r ((xs.map fun x => x.home).getD 0 0) 0 n [] y.2, true)
    else (ackNow s loc opc d r n, true)

/-- The stores of a row of data tokens, each under its own stamp (R316, R323). -/
def rowStores (opc : BitVec 8) (d : PortDesc) (em : BitVec 16) : Nat → List Trans → List Token → List StOne
  | va, t :: ts, k :: ks => ⟨va, homeKey t, k.hyp, k.refuted, storeData opc d va em k k⟩ :: rowStores opc d em (va + 64) ts ks
  | _, _, _ => []

/-! ## Atomics and additions (R320 to R323, R402) -/

/-- A read-modify-write of some bytes of a block at one place of its order (R322, R323): in the stash up to device scope and under a
tag, at its home from tenant scope on, where the line's bytes of it give way. -/
def rmwBlock (s : State) (loc : PortAt) (d : PortDesc) (h : BitVec 6) (home va : Nat) (m : BitVec 64) (b : Block) : State :=
  let scope := accScope s loc d home
  let p := portParty s loc
  if m = 0#64 then s
  else if h ≠ 0#6 ∨ scope.toNat < 3 then storeBlock s p loc.site home va (portCtx s loc) h d.hint scope m b none false
  else
    let ts := storeTs s p home
    raiseTs (writeHome (supersede s { p with mt := none } home 0#8 0#6 scope m none) home m b none false) p ts

/-- Bytes of a peer's block that the peer is to change (R322, R323, R366): dirty ones are written back first, and no line keeps them. -/
def peerChanges (s : State) (loc : PortAt) (home : Nat) (m : BitVec 64) : State :=
  let s := (linesTagged s home 0#8 0#6).foldl (fun s x => writeBack s x.1 x.2 (BitVec.allOnes 64)) s
  let s := mapLines s none fun _ l =>
    some (if l.home = home ∧ l.tag = 0#6 then l.cleaned l.mRel else l)
  supersede s { portParty s loc with mt := none } home 0#8 0#6 scopeTenant m none

/-- The value that an atomic computes (R321). -/
def atomNew (opc : BitVec 8) (uns : Bool) (old x y : Word) : Word :=
  match opc.toNat with
  | 0x08 => old + x
  | 0x09 => (fadd 0#2 old x).1
  | 0x0A => if (if uns then x.ult old else x.slt old) then x else old
  | 0x0B => if (if uns then old.ult x else old.slt x) then x else old
  | 0x0C => old &&& x
  | 0x0D => old ||| x
  | 0x0E => old ^^^ x
  | 0x0F => x
  | _ => if old = x then y else old

/-- The atomic writes (R321): the value changes, or the operation is ATXCHG, or ATCAS with a match. -/
def atomWrites (opc : BitVec 8) (old x new : Word) : Bool :=
  decide (new ≠ old) || decide (opc = 0x0F#8) || (decide (opc = 0x10#8) && decide (old = x))

/-- An atomic on a block of this package, over what stands at its home or has come from a peer (R321, R322, R404). One in the stash that
writes nothing is still an access that touches or installs its line (R80). -/
def atomLocal (opc : BitVec 8) (loc : PortAt) (d : PortDesc) (r : PReq) (home : Nat) (base : BlkVal) (s : State) : State × Token :=
  let p := portParty s loc
  let b := viewOver s p home (portCtx s loc) r.hyp base
  if b.psn then (s, scalarTok 0#32 r.hyp r.refuted true)
  else
    let old := lane b.data (r.va % 64 / 4)
    let new := atomNew opc d.addf old r.x r.y
    let scope := accScope s loc d home
    let s :=
      if atomWrites opc old r.x new then rmwBlock s loc d r.hyp home r.va (needMask false r.va) (wordBlock r.va new)
      else if r.hyp ≠ 0#6 ∨ scope.toNat < 3 then
        loadInstall s p loc.site home r.va (portCtx s loc) r.hyp (needMask false r.va) d.hint scope base
      else s
    (s, scalarTok old r.hyp r.refuted false)

/-- The atomics (R321, R322, R402): a TYPE 1 page at tenant or system scope answers through the PCI Express port, whose answer is
the host's (log 8); a peer's page through a remote request. -/
def perfAtomic (opc : BitVec 8) (loc : PortAt) (d : PortDesc) (r : PReq) (s : State) (ts : List Trans) : State × Bool :=
  let home := (ts.map homeKey).getD 0 0
  let need := needMask false r.va
  let hit := loadHits s loc.site home (portCtx s loc) r.hyp need
  withOvl s loc [(r.hyp, home)] <|
  if homeIsPeer home && decide (r.hyp = 0#6) then
    let x := pushPieces (peerChanges s loc home need) loc 2#3 0 [home] (fun _ _ => true) fun _ _ q =>
      { q with addr := q.addr + r.va % 64, data := (r.y ++ r.x).setWidth 2048, descs := (BitVec.ofBool d.addf ++ opc).setWidth 64 }
    (replyRemote x.1 loc opc r home 1 0 [] x.2, true)
  else if homeIsPeer home && !hit then
    let x := pushReads s loc 0 [home]
    (replyRemote x.1 loc opc r home 1 0 [] x.2, true)
  else
    let free := s.free
    let wideHost := homeIsHost home && decide (r.hyp = 0#6) && decide (3 ≤ (accScope s loc d home).toNat)
    let s := if wideHost then { s with free := free + 1 } else s
    if wideHost && !Config.hostAtomicOk free then
      let s := setErr s (nodeOf s loc.site 0) 16#16
      (replyLands s loc opc d r [scalarTok 0#32 r.hyp r.refuted true] false, true)
    else
      let x := atomLocal opc loc d r home (homeBlock s home) (stampLoad s (portParty s loc) home)
      (replyLands x.1 loc opc d r [x.2] hit, true)

/-- A block with additions in the elements that a lane mask selects (R320). -/
def addLanes (fp : Bool) (old : Block) (dat : Nat → Word) (m : BitVec 16) : Block :=
  ofLanes fun l =>
    if bitAt m l then (if fp then (fadd 0#2 (lane old l) (dat l)).1 else lane old l + dat l) else lane old l

/-- One block's addition of SCATADD in this package (R323): nothing on a poisoned block (R404); answers the bytes performed, and whether
poison kept it from being made. -/
def addOver (loc : PortAt) (d : PortDesc) (em : BitVec 16) (va home : Nat) (t : Token) (base : BlkVal) (s : State) : State × Nat × Bool :=
  let p := portParty s loc
  let b := viewOver s p home (portCtx s loc) t.hyp base
  let m := t.mask &&& em
  if t.refuted || decide (m = 0#16) then (s, 0, false)
  else if b.psn then (s, 0, true)
  else (rmwBlock (stampLoad s p home) loc d t.hyp home va (laneBytes m) (addLanes d.addf b.data (lane t.pay) m), 4 * countBits m, false)

/-- Fill a remote addition with those tokens of a piece that the peer adds: the ones under hypothesis 0. -/
def fillAdds (d : PortDesc) (em : BitVec 16) (ts : List Token) (i n : Nat) (q : Remote) : Remote :=
  (((List.range n).zip ((ts.drop i).take n)).filter fun p => !p.2.refuted && decide (p.2.hyp = 0#6)).foldl (fun q p =>
    { q with data := setBits q.data (512 * p.1) p.2.pay, mask := setBits q.mask (64 * p.1) (laneBytes (p.2.mask &&& em)),
             kind := if d.addf then 4#3 else 3#3 }) q

/-- What the additions of a row have come to: the state, the bytes added here, whether poison kept one from being made (R404), and the
tokens whose blocks a peer is to send first; the others are dropped from the row. -/
structure AddSt where
  s : State
  bytes : Nat
  psn : Bool
  wait : List Token
  deriving DecidableEq, Repr

/-- One token of a row: a block of this package, or one that its tile holds, is added to at once; a peer's block under a nonzero id is
read first; under hypothesis 0 the peer itself adds. -/
def addPlace (loc : PortAt) (d : PortDesc) (r : PReq) (i home : Nat) (t : Token) (x : AddSt) : AddSt :=
  let m := laneBytes (t.mask &&& r.mask)
  let gone : Token := { t with refuted := true }
  if t.refuted then { x with wait := x.wait ++ [t] }
  else if !homeIsPeer home || (decide (t.hyp ≠ 0#6) && loadHits x.s loc.site home (portCtx x.s loc) t.hyp m) then
    let y := addOver loc d r.mask (r.va + 64 * i) home t (homeBlock x.s home) x.s
    { x with s := y.1, bytes := x.bytes + y.2.1, psn := x.psn || y.2.2, wait := x.wait ++ [gone] }
  else if t.hyp = 0#6 then { x with s := peerChanges x.s loc home m, wait := x.wait ++ [gone] }
  else { x with wait := x.wait ++ [t] }

/-- The tokens of a row, in order. -/
def addRow (loc : PortAt) (d : PortDesc) (r : PReq) : Nat → List Nat → List Token → AddSt → AddSt
  | i, h :: hs, t :: ts, x => addRow loc d r (i + 1) hs ts (addPlace loc d r i h t x)
  | _, _, _, x => x

/-- A mark among the blocks of a row of additions: poison kept one from being made (R404). -/
def psnMark : BlkVal := ⟨0#512, 0x00FF#16, true⟩

/-- SCATADD on global memory (R323, R366): pieces that read blocks for additions under a nonzero id, and pieces that a peer adds. On a
poisoned word nothing is added, and the reply is 0 with PSN (R404). -/
def perfAddRow (loc : PortAt) (d : PortDesc) (r : PReq) (s : State) (ts : List Trans) : State × Bool :=
  let homes := ts.map homeKey
  withOvl s loc (((homes.zip r.toks).filter fun x => !x.2.refuted).map fun x => (x.2.hyp, x.1)) <|
    let x := addRow loc d r 0 homes r.toks ⟨s, 0, false, []⟩
    let reads (i k : Nat) : Bool := ((x.wait.drop i).take k).any fun t => !t.refuted
    let adds (i k : Nat) : Bool := ((r.toks.drop i).take k).any fun t => !t.refuted && decide (t.hyp = 0#6)
    let far := homes.any homeIsPeer
    let y := if far then pushPieces x.s loc 0#3 0 homes reads (fun _ _ q => q) else (x.s, [])
    let z := if far then pushPieces y.1 loc 3#3 0 homes adds (fillAdds d r.mask r.toks) else (y.1, [])
    if (y.2 ++ z.2).isEmpty then
      (replyNow z.1 loc 0x13#8 d r [scalarTok (BitVec.ofNat 32 (if x.psn then 0 else x.bytes)) r.hyp r.refuted x.psn], true)
    else (replyRemote z.1 loc 0x13#8 r (homes.getD 0 0) (if x.psn then 1 else 0) x.bytes x.wait (y.2 ++ z.2), true)

/-! ## Scratchpad accesses (R317 to R320, R323) -/

/-- What is common to a scratchpad request of `n` blocks or a word: a REPAIR's action, alignment and bounds (R317). -/
def portScratch (opc : BitVec 8) (loc : PortAt) (d : PortDesc) (n : Nat) (r : PReq) (k : State → State × Bool) (s : State) :
    State × Bool :=
  if r.act = 1#2 then (replyNow s loc opc d r (blankToks opc d r r.mask false), true)
  else if r.act = 2#2 then (replyNow s loc opc d r (blankToks opc d r r.mask true), true)
  else if r.va % (if d.wid then 64 else 4) ≠ 0 ∨ spadSize < r.va + (if d.wid then 64 * n else 4) then poisonDone s loc opc d r
  else k s

/-- Loads from scratchpad (R318, R323): `n` blocks, or the block of a word. -/
def perfSpLoads (opc : BitVec 8) (loc : PortAt) (d : PortDesc) (n : Nat) (r : PReq) (s : State) : State × Bool :=
  let bs := (List.range n).map fun i => spadBlock s loc.site (r.va + 64 * i)
  (replyNow s loc opc d r (loadToks opc d r.va r.mask r.hyp r.refuted bs), true)

/-- Stores to scratchpad of data tokens, in order, with the bytes written (R319). -/
def spStores (opc : BitVec 8) (loc : PortAt) (d : PortDesc) (em : BitVec 16) : Nat → List Token → State → State × Nat
  | va, t :: ts, s =>
    let x := storeData opc d va em t t
    let s := spadStore s loc.site va x.mask x.data x.desc x.psn
    let y := spStores opc loc d em (va + 64) ts s
    (y.1, countBits x.mask + y.2)
  | _, [], s => (s, 0)

/-- The bytes of a scratchpad row of data tokens: an addition to a sync word in them that came earlier comes first (R86). -/
def rowBusy (s : State) (loc : PortAt) (r : PReq) : Bool := syncBusy s loc.site (r.va / 64 * 64) (64 * r.toks.length)

/-- The stores of SPST and SCAT. -/
def perfSpStores (opc : BitVec 8) (loc : PortAt) (d : PortDesc) (r : PReq) (s : State) : State × Bool :=
  if rowBusy s loc r then (s, false)
  else
    let x := spStores opc loc d r.mask r.va r.toks s
    (ackNow x.1 loc opc d r x.2, true)

/-- Additions into scratchpad of data tokens, in order (R320): none into a poisoned block (R404). -/
def spAdds (loc : PortAt) (d : PortDesc) (em : BitVec 16) : Nat → List Token → State → State × (Nat × Bool)
  | va, t :: ts, s =>
    let b := spadBlock s loc.site va
    let m := if d.wid then t.mask &&& em else BitVec.ofNat 16 (2 ^ (va % 64 / 4))
    let dat (l : Nat) : Word := if d.wid then lane t.pay l else t.operand.1
    let bad := b.psn && decide (m ≠ 0#16)
    let s := if bad then s else spadStore s loc.site va (laneBytes m) (addLanes d.addf b.data dat m) none false
    let y := spAdds loc d em (va + 64) ts s
    (y.1, (if bad then 0 else 4 * countBits m) + y.2.1, bad || y.2.2)
  | _, [], s => (s, 0, false)

/-- The additions of SPADD and SCATADD: on a poisoned word nothing is performed and the reply is 0 with PSN (R404). -/
def perfSpAdds (opc : BitVec 8) (loc : PortAt) (d : PortDesc) (r : PReq) (s : State) : State × Bool :=
  if rowBusy s loc r then (s, false)
  else
    let x := spAdds loc d r.mask r.va r.toks s
    (replyNow x.1 loc opc d r [scalarTok (BitVec.ofNat 32 (if x.2.2 then 0 else x.2.1)) r.hyp r.refuted x.2.2], true)

/-! ## Prefetch, flush and invalidate (R326, R366) -/

/-- A PREF of one block: a line is installed where neither the tile nor the overlay holds the block on the request's chain
(DEDUCED, log 27). -/
def prefAbsent (s : State) (loc : PortAt) (r : PReq) (home : Nat) : Bool :=
  !((getMt s loc.site).lines.any fun l => decide (l.home = home) &&
    (decide (l.tag = 0#6) || (decide (l.ctx = portCtx s loc) && (hypChain s (portCtx s loc) 64 r.hyp).contains l.tag)))

/-- Install the absent blocks of a PREF, in order, with the bytes installed (R326). -/
def prefRow (loc : PortAt) (d : PortDesc) (r : PReq) : Nat → List Nat → State → State × Nat
  | va, h :: hs, s =>
    let abs := prefAbsent s loc r h
    let s := if abs then
        loadInstall s (portParty s loc) loc.site h va (portCtx s loc) r.hyp (BitVec.allOnes 64) d.hint (accScope s loc d h) (homeBlock s h)
      else s
    let y := prefRow loc d r (va + 64) hs s
    (y.1, (if abs then 64 else 0) + y.2)
  | _, [], s => (s, 0)

/-- PREF on translated blocks: those of this package are installed at once, those of peers are read. -/
def perfPref (loc : PortAt) (d : PortDesc) (r : PReq) (s : State) (ts : List Trans) : State × Bool :=
  let homes := ts.map homeKey
  let near := homes.takeWhile fun h => !homeIsPeer h
  let far := (homes.drop near.length).takeWhile homeIsPeer
  let last := homes.drop (near.length + far.length)
  let hit := homes.all fun h => !prefAbsent s loc r h
  let x := prefRow loc d r r.va near s
  let y := prefRow loc d r (r.va + 64 * (near.length + far.length)) last x.1
  if far.isEmpty then
    (replyLands y.1 loc 0x16#8 d r [scalarTok (BitVec.ofNat 32 (x.2 + y.2)) r.hyp r.refuted false] hit, true)
  else
    let z := pushReads y.1 loc near.length far
    (replyRemote z.1 loc 0x16#8 r (homes.getD 0 0) homes.length (x.2 + y.2) [] z.2, true)

/-- Write back one untagged line of a tile, and with `inv` invalidate it (R326): to a peer as a request of the port's own. Answers
the bytes written back in this package and the request's index. -/
def flushLine (loc : PortAt) (inv : Bool) (l : Line) (s : State) : State × Nat × List Nat :=
  if l.tag ≠ 0#6 then (s, 0, [])
  else
    let drop (s : State) : State :=
      if inv then dropLine s loc.site l
      else
        let m := getMt s loc.site
        let ls := mapWhere l.same (fun x => { x with dirty := 0#64, descSet := x.descSet && homeIsPeer x.home }) m.lines
        setMt s loc.site { m with lines := ls }
    if homeIsPeer l.home && decide (l.mRel ≠ 0#64) then
      let s2 := remoteWrite (drop s) (.port loc.site loc.port) (tileTenant s loc.site) l.home l.mRel l.data l.descOut l.psn
      (s2, 0, [s.links.nextIdx])
    else (drop (writeBack s loc.site l (BitVec.allOnes 64)), countBits l.dirty, [])

/-- Insert a line into a list in ascending address. -/
def lineInsert (l : Line) : List Line → List Line
  | [] => [l]
  | x :: xs => if l.home ≤ x.home then l :: x :: xs else x :: lineInsert l xs

/-- Lines in ascending address (R366). -/
def lineSort (ls : List Line) : List Line := ls.foldr lineInsert []

/-- STFL and STINV on lines of the tile. -/
def perfFlush (opc : BitVec 8) (loc : PortAt) (d : PortDesc) (r : PReq) (ls : List Line) (s : State) : State × Bool :=
  let x := (lineSort ls).foldl (fun (x : State × Nat × List Nat) l =>
    let y := flushLine loc (decide (opc = 0x18#8)) l x.1
    (y.1, x.2.1 + y.2.1, x.2.2 ++ y.2.2)) (s, 0, [])
  if x.2.2.isEmpty then
    (replyLands x.1 loc opc d r [scalarTok (BitVec.ofNat 32 x.2.1) r.hyp r.refuted false] (decide (x.2.1 = 0)), true)
  else (replyRemote x.1 loc opc r 0 0 x.2.1 [] x.2.2, true)

/-- STFL and STINV on the whole stash of their tile (R313, R316, R376): the address goes unread. -/
def perfFlushAll (opc : BitVec 8) (loc : PortAt) (d : PortDesc) (r : PReq) (s : State) : State × Bool :=
  if r.act ≠ 0#2 then (replyNow s loc opc d r (blankToks opc d r r.mask (decide (r.act = 2#2))), true)
  else if r.refuted then (replyNow s loc opc d r (blankToks opc d r 0#16 false), true)
  else perfFlush opc loc d r (getMt s loc.site).lines s

/-- The untagged lines of some homes. -/
def linesOf (s : State) (loc : PortAt) (homes : List Nat) : List Line :=
  (getMt s loc.site).lines.filter fun l => decide (l.tag = 0#6) && homes.contains l.home

end Sys2Proof.Machine
end

