-- ==== Sys2Proof/Machine/PortOps.lean ====
section
/-! DEFINITION. The operations of the memory-tile ports (R314), the replies and control tokens that leave a port (R97, R327), and
the landing of memory's and peers' answers. -/

namespace Sys2Proof.Machine

/-- The store of STM: the data token under the mask that the mask token gives (R315, R319). -/
def stmStore (d : PortDesc) (r : PReq) (ts : List Trans) : List StOne :=
  match ts, r.toks with
  | t :: _, [mt, k] => [⟨r.va, homeKey t, k.hyp, k.refuted, storeData 4#8 d r.va r.mask mt k⟩]
  | _, _ => []

/-- A row of data tokens is dropped as a whole only when each of its stamps is refuted (R316). -/
def rowReq (r : PReq) : PReq := { r with refuted := r.toks.all fun t => t.refuted }

/-! ## Sync words (R324, R325) -/

/-- The action of a REPAIR, alignment and bounds of a sync word (R317, R376). -/
def portSync (opc : BitVec 8) (loc : PortAt) (d : PortDesc) (r : PReq) (off : Nat) (k : State → State × Bool) (s : State) :
    State × Bool :=
  if r.act ≠ 0#2 then (replyNow s loc opc d r (blankToks opc d r r.mask (decide (r.act = 2#2))), true)
  else if off % 16 ≠ 0 ∨ spadSize < off + 16 then poisonDone s loc opc d r
  else k s

/-- Arm a sync word (R324): held while a wait stands on it; TARGET takes X, COUNT and WAITERS become 0, and GEN stays
(DEDUCED, log 39). -/
def perfSyncset (loc : PortAt) (d : PortDesc) (r : PReq) (s : State) : State × Bool :=
  if ((getMt s loc.site).waiters.any fun w => decide (w.off = r.va)) || syncBusy s loc.site r.va 16 then (s, false)
  else
    let gen := syncGen s loc.site r.va
    let b : Block := (gen ++ 0#32 ++ r.x).setWidth 512 <<< (8 * (r.va % 64))
    let s := spadStore s loc.site r.va (BitVec.ofNat 64 (0xFFFF * 2 ^ (r.va % 64))) b none false
    (replyNow s loc 0x14#8 d r [scalarTok gen r.hyp r.refuted false], true)

/-- The first waiter slot of a memory tile that is free (R86) (DESIGN CHOICE, log 166). -/
def freeSlot (m : Mt) : Option Nat := (List.range 32).find? fun i => !m.waiters.any fun w => decide (w.slot = i)

/-- Arm a wait (R86, R325): with every slot held it waits; it is tested once at once. -/
def perfSyncw (loc : PortAt) (r : PReq) (off : Nat) (s : State) : State × Bool :=
  let m := getMt s loc.site
  match freeSlot m with
  | none => (s, false)
  | some i =>
    let s := setMt s loc.site { m with waiters := m.waiters ++ [⟨i, loc.port, off, r.v, r.hyp, r.refuted⟩] }
    let s := setSpadWord s loc.site (off + 12) (syncWaiters s loc.site off ||| (1#32 <<< i))
    (syncRetest s loc.site off, true)

/-! ## What each operation does -/

/-- The effect of LD. -/
def doLd (loc : PortAt) (d : PortDesc) (r : PReq) (s : State) : State × Bool :=
  portGlobal 1#8 loc d 1 false r (perfLoads 1#8 loc d r) s

/-- The effect of LDRO. -/
def doLdro (loc : PortAt) (d : PortDesc) (r : PReq) (s : State) : State × Bool :=
  portGlobal 2#8 loc d 1 false r (perfLdro loc d r) s

/-- The effect of ST. -/
def doSt (loc : PortAt) (d : PortDesc) (r : PReq) (s : State) : State × Bool :=
  portGlobal 3#8 loc d 1 false r (fun s ts => perfStores 3#8 loc d r (rowStores 3#8 d r.mask r.va ts r.toks) s) s

/-- The effect of STM. -/
def doStm (loc : PortAt) (d : PortDesc) (r : PReq) (s : State) : State × Bool :=
  portGlobal 4#8 loc d 1 false r (fun s ts => perfStores 4#8 loc d r (stmStore d r ts) s) s

/-- The effect of SPLD. -/
def doSpld (loc : PortAt) (d : PortDesc) (r : PReq) (s : State) : State × Bool :=
  portScratch 5#8 loc d 1 r (perfSpLoads 5#8 loc d 1 r) s

/-- The effect of SPST. -/
def doSpst (loc : PortAt) (d : PortDesc) (r : PReq) (s : State) : State × Bool :=
  portScratch 6#8 loc d 1 r (perfSpStores 6#8 loc d r) s

/-- The effect of SPADD. -/
def doSpadd (loc : PortAt) (d : PortDesc) (r : PReq) (s : State) : State × Bool :=
  portScratch 7#8 loc d 1 r (perfSpAdds 7#8 loc d r) s

/-- The effect of ATADD. -/
def doAtadd (loc : PortAt) (d : PortDesc) (r : PReq) (s : State) : State × Bool :=
  portGlobal 0x08#8 loc d 1 false r (perfAtomic 0x08#8 loc d r) s

/-- The effect of ATFADD. -/
def doAtfadd (loc : PortAt) (d : PortDesc) (r : PReq) (s : State) : State × Bool :=
  portGlobal 0x09#8 loc d 1 false r (perfAtomic 0x09#8 loc d r) s

/-- The effect of ATMIN. -/
def doAtmin (loc : PortAt) (d : PortDesc) (r : PReq) (s : State) : State × Bool :=
  portGlobal 0x0A#8 loc d 1 false r (perfAtomic 0x0A#8 loc d r) s

/-- The effect of ATMAX. -/
def doAtmax (loc : PortAt) (d : PortDesc) (r : PReq) (s : State) : State × Bool :=
  portGlobal 0x0B#8 loc d 1 false r (perfAtomic 0x0B#8 loc d r) s

/-- The effect of ATAND. -/
def doAtand (loc : PortAt) (d : PortDesc) (r : PReq) (s : State) : State × Bool :=
  portGlobal 0x0C#8 loc d 1 false r (perfAtomic 0x0C#8 loc d r) s

/-- The effect of ATOR. -/
def doAtor (loc : PortAt) (d : PortDesc) (r : PReq) (s : State) : State × Bool :=
  portGlobal 0x0D#8 loc d 1 false r (perfAtomic 0x0D#8 loc d r) s

/-- The effect of ATXOR. -/
def doAtxor (loc : PortAt) (d : PortDesc) (r : PReq) (s : State) : State × Bool :=
  portGlobal 0x0E#8 loc d 1 false r (perfAtomic 0x0E#8 loc d r) s

/-- The effect of ATXCHG. -/
def doAtxchg (loc : PortAt) (d : PortDesc) (r : PReq) (s : State) : State × Bool :=
  portGlobal 0x0F#8 loc d 1 false r (perfAtomic 0x0F#8 loc d r) s

/-- The effect of ATCAS. -/
def doAtcas (loc : PortAt) (d : PortDesc) (r : PReq) (s : State) : State × Bool :=
  portGlobal 0x10#8 loc d 1 false r (perfAtomic 0x10#8 loc d r) s

/-- The effect of GATH. -/
def doGath (loc : PortAt) (d : PortDesc) (r : PReq) (s : State) : State × Bool :=
  if d.sp then portScratch 0x11#8 loc d d.rows r (perfSpLoads 0x11#8 loc d d.rows r) s
  else portGlobal 0x11#8 loc d d.rows true r (perfLoads 0x11#8 loc d r) s

/-- The effect of SCAT. -/
def doScat (loc : PortAt) (d : PortDesc) (r : PReq) (s : State) : State × Bool :=
  if d.sp then portScratch 0x12#8 loc d d.rows r (perfSpStores 0x12#8 loc d r) s
  else portGlobal 0x12#8 loc d d.rows true (rowReq r)
    (fun s ts => perfStores 0x12#8 loc d r (rowStores 0x12#8 d r.mask r.va ts r.toks) s) s

/-- The effect of SCATADD. -/
def doScatadd (loc : PortAt) (d : PortDesc) (r : PReq) (s : State) : State × Bool :=
  if d.sp then portScratch 0x13#8 loc d d.rows r (perfSpAdds 0x13#8 loc d r) s
  else portGlobal 0x13#8 loc d d.rows true (rowReq r) (perfAddRow loc d r) s

/-- The effect of SYNCSET. -/
def doSyncset (loc : PortAt) (d : PortDesc) (r : PReq) (s : State) : State × Bool :=
  portSync 0x14#8 loc d r r.va (perfSyncset loc d r) s

/-- The effect of SYNCW. -/
def doSyncw (loc : PortAt) (d : PortDesc) (r : PReq) (s : State) : State × Bool :=
  let off := if d.sfix then d.soff.toNat else r.va
  let r := if d.sfix then r else { r with v := r.x }
  portSync 0x15#8 loc d r off (perfSyncw loc r off) s

/-- The effect of PREF. -/
def doPref (loc : PortAt) (d : PortDesc) (r : PReq) (s : State) : State × Bool :=
  if hintAlloc d.hint then portGlobal 0x16#8 loc d d.rows false r (perfPref loc d r) s
  else (ackNow s loc 0x16#8 d r 0, true)

/-- The effect of STFL. -/
def doStfl (loc : PortAt) (d : PortDesc) (r : PReq) (s : State) : State × Bool :=
  if d.all then perfFlushAll 0x17#8 loc d r s
  else portGlobal 0x17#8 loc d d.rows false r (fun s ts =>
    perfFlush 0x17#8 loc d r (linesOf s loc (ts.map homeKey)) s) s

/-- The effect of STINV. -/
def doStinv (loc : PortAt) (d : PortDesc) (r : PReq) (s : State) : State × Bool :=
  if d.all then perfFlushAll 0x18#8 loc d r s
  else portGlobal 0x18#8 loc d d.rows false r (fun s ts =>
    perfFlush 0x18#8 loc d r (linesOf s loc (ts.map homeKey)) s) s

/-- The effect of a port's operation on a request, by its opcode (R314). -/
def portPerf (opc : BitVec 8) (loc : PortAt) (d : PortDesc) (r : PReq) (s : State) : State × Bool :=
  match opc.toNat with
  | 0x01 => doLd loc d r s
  | 0x02 => doLdro loc d r s
  | 0x03 => doSt loc d r s
  | 0x04 => doStm loc d r s
  | 0x05 => doSpld loc d r s
  | 0x06 => doSpst loc d r s
  | 0x07 => doSpadd loc d r s
  | 0x08 => doAtadd loc d r s
  | 0x09 => doAtfadd loc d r s
  | 0x0A => doAtmin loc d r s
  | 0x0B => doAtmax loc d r s
  | 0x0C => doAtand loc d r s
  | 0x0D => doAtor loc d r s
  | 0x0E => doAtxor loc d r s
  | 0x0F => doAtxchg loc d r s
  | 0x10 => doAtcas loc d r s
  | 0x11 => doGath loc d r s
  | 0x12 => doScat loc d r s
  | 0x13 => doScatadd loc d r s
  | 0x14 => doSyncset loc d r s
  | 0x15 => doSyncw loc d r s
  | 0x16 => doPref loc d r s
  | 0x17 => doStfl loc d r s
  | 0x18 => doStinv loc d r s
  | _ => (s, false)

/-! ## The steps of the ports -/

/-- A port's whole request stands at its input and can be performed now. -/
def portWould (s : State) (loc : PortAt) : Bool :=
  let x := portDescOf s loc
  portMayRun s loc &&
    (match gather s loc x.1 x.2 with
      | (s, some r) => (!owesReply s loc x.1 x.2 || portRoom s loc) && (portPerf x.1 loc x.2 r s).2
      | (_, none) => false)

/-- A lower port of the tile goes first in this cycle (R77, R312) (DEDUCED, log 31). -/
def lowerWaits (s : State) (loc : PortAt) : Bool := (List.range loc.port.toNat).any fun q => portWould s ⟨loc.site, BitVec.ofNat 3 q⟩

/-- One step of a port (R312): take what tokens there are, and perform the request once it is whole and the entries of its reply
are free. `perf` answers false where the request waits (DEDUCED, log 31). -/
def portRun (opc : BitVec 8) (loc : PortAt) (d : PortDesc) (perf : PReq → State → State × Bool) (s : State) :
    Host.Outcome State Fault Refusal :=
  if !portMayRun s loc || lowerWaits s loc then .next s
  else
    match gather s loc opc d with
    | (s, none) => .next s
    | (s, some r) =>
      if owesReply s loc opc d && !portRoom s loc then .next s
      else
        match perf r s with
        | (s, true) => .next (portDone s loc d)
        | (s, false) => .next s

/-- LD (R318, R79): one block or word of global memory. -/
def execLd (loc : PortAt) (d : PortDesc) (s : State) : Host.Outcome State Fault Refusal := portRun 1#8 loc d (doLd loc d) s

/-- LDRO (R318, R81): one block or word over the read-only path. -/
def execLdro (loc : PortAt) (d : PortDesc) (s : State) : Host.Outcome State Fault Refusal := portRun 2#8 loc d (doLdro loc d) s

/-- ST (R319): one data token to global memory. -/
def execSt (loc : PortAt) (d : PortDesc) (s : State) : Host.Outcome State Fault Refusal := portRun 3#8 loc d (doSt loc d) s

/-- STM (R319): the bytes that the mask token selects. -/
def execStm (loc : PortAt) (d : PortDesc) (s : State) : Host.Outcome State Fault Refusal := portRun 4#8 loc d (doStm loc d) s

/-- SPLD (R318): one block or word of scratchpad. -/
def execSpld (loc : PortAt) (d : PortDesc) (s : State) : Host.Outcome State Fault Refusal := portRun 5#8 loc d (doSpld loc d) s

/-- SPST (R319): one data token to scratchpad. -/
def execSpst (loc : PortAt) (d : PortDesc) (s : State) : Host.Outcome State Fault Refusal := portRun 6#8 loc d (doSpst loc d) s

/-- SPADD (R320): additions into scratchpad. -/
def execSpadd (loc : PortAt) (d : PortDesc) (s : State) : Host.Outcome State Fault Refusal := portRun 7#8 loc d (doSpadd loc d) s

/-- ATADD (R321): old + X modulo 2^32. -/
def execAtadd (loc : PortAt) (d : PortDesc) (s : State) : Host.Outcome State Fault Refusal := portRun 0x08#8 loc d (doAtadd loc d) s

/-- ATFADD (R321): fp32 sum, rounded to nearest even. -/
def execAtfadd (loc : PortAt) (d : PortDesc) (s : State) : Host.Outcome State Fault Refusal := portRun 0x09#8 loc d (doAtfadd loc d) s

/-- ATMIN (R321): the lesser. -/
def execAtmin (loc : PortAt) (d : PortDesc) (s : State) : Host.Outcome State Fault Refusal := portRun 0x0A#8 loc d (doAtmin loc d) s

/-- ATMAX (R321): the greater. -/
def execAtmax (loc : PortAt) (d : PortDesc) (s : State) : Host.Outcome State Fault Refusal := portRun 0x0B#8 loc d (doAtmax loc d) s

/-- ATAND (R321). -/
def execAtand (loc : PortAt) (d : PortDesc) (s : State) : Host.Outcome State Fault Refusal := portRun 0x0C#8 loc d (doAtand loc d) s

/-- ATOR (R321). -/
def execAtor (loc : PortAt) (d : PortDesc) (s : State) : Host.Outcome State Fault Refusal := portRun 0x0D#8 loc d (doAtor loc d) s

/-- ATXOR (R321). -/
def execAtxor (loc : PortAt) (d : PortDesc) (s : State) : Host.Outcome State Fault Refusal := portRun 0x0E#8 loc d (doAtxor loc d) s

/-- ATXCHG (R321): X is written whatever stood there. -/
def execAtxchg (loc : PortAt) (d : PortDesc) (s : State) : Host.Outcome State Fault Refusal := portRun 0x0F#8 loc d (doAtxchg loc d) s

/-- ATCAS (R321): Y is written where X stood. -/
def execAtcas (loc : PortAt) (d : PortDesc) (s : State) : Host.Outcome State Fault Refusal := portRun 0x10#8 loc d (doAtcas loc d) s

/-- GATH (R323): a row of blocks, in block order, and EOT with ROWEOT. -/
def execGath (loc : PortAt) (d : PortDesc) (s : State) : Host.Outcome State Fault Refusal := portRun 0x11#8 loc d (doGath loc d) s

/-- SCAT (R323): a row of data tokens. -/
def execScat (loc : PortAt) (d : PortDesc) (s : State) : Host.Outcome State Fault Refusal := portRun 0x12#8 loc d (doScat loc d) s

/-- SCATADD (R323): additions into a row. -/
def execScatadd (loc : PortAt) (d : PortDesc) (s : State) : Host.Outcome State Fault Refusal := portRun 0x13#8 loc d (doScatadd loc d) s

/-- SYNCSET (R324). -/
def execSyncset (loc : PortAt) (d : PortDesc) (s : State) : Host.Outcome State Fault Refusal := portRun 0x14#8 loc d (doSyncset loc d) s

/-- SYNCW (R325): with SFIX the offset is SOFF. -/
def execSyncw (loc : PortAt) (d : PortDesc) (s : State) : Host.Outcome State Fault Refusal := portRun 0x15#8 loc d (doSyncw loc d) s

/-- PREF (R326): with HINT 0b000 it does nothing and acknowledges 0. -/
def execPref (loc : PortAt) (d : PortDesc) (s : State) : Host.Outcome State Fault Refusal := portRun 0x16#8 loc d (doPref loc d) s

/-- STFL (R326): dirty bytes of untagged lines go to their tiers; the lines stay. -/
def execStfl (loc : PortAt) (d : PortDesc) (s : State) : Host.Outcome State Fault Refusal := portRun 0x17#8 loc d (doStfl loc d) s

/-- STINV (R326): as STFL, and the lines are invalidated. -/
def execStinv (loc : PortAt) (d : PortDesc) (s : State) : Host.Outcome State Fault Refusal := portRun 0x18#8 loc d (doStinv loc d) s

/-! ## Replies and control tokens -/

/-- The port has an entry that does not leave it: no reply is owed for it. -/
def ReplyEnt.silent (s : State) (loc : PortAt) (e : ReplyEnt) : Bool :=
  decide (e.opc ≠ 0#8) && !owesReply s loc e.opc (portDescOf s loc).2

/-- Remove the first token of the first entry that owes one; an entry whose last token leaves is freed (R97). -/
def dropReplyTok (s : State) (loc : PortAt) : List ReplyEnt → List ReplyEnt
  | [] => []
  | e :: es =>
    if e.silent s loc then e :: dropReplyTok s loc es
    else if e.toks.tail.isEmpty then es else { e with toks := e.toks.tail } :: es

/-- REPLY_SEND (R97, R61): the first token of the oldest reply leaves on the reply channel, once it has landed and its channel can take
one in this cycle. -/
def execReplySend (site : BitVec 12) (port : BitVec 3) (s : State) : Host.Outcome State Fault Refusal :=
  let loc : PortAt := ⟨site, port⟩
  match (getPort s loc).replies.find? fun e => !e.silent s loc with
  | some e =>
    match e.toks with
    | t :: _ =>
      let ch := portReply s loc
      if e.landed && e.after.isEmpty && !(getMt s site).halted && !dieStops s site && regionRuns (ownerOf s site 0) && sendReady s site ch.1 ch.2 then
        let p := getPort s loc
        let s := setPort s loc { p with replies := dropReplyTok s loc p.replies }
        .next (sendOut s site (ownerOf s site 0) ch.1 ch.2 t)
      else .next s
    | [] => .next s
  | none => .next s

/-- Pass a control token on (R327): behind the request at hand where that has taken tokens, else behind every reply owed so far; a
port without a reply channel discards it. -/
def passCtl (s : State) (loc : PortAt) (t : Token) : State :=
  if !portRused s loc then s
  else if (getPort s loc).part.isEmpty then putReply s loc (ctlEntry s loc t)
  else setPort s loc { getPort s loc with held := (getPort s loc).held ++ [t] }

/-- The token that an emitted control word becomes on its port's reply channel (R332): of the kind of the port's replies. -/
def emittedCtl (s : State) (loc : PortAt) (e : Emission) (w : Word) : Token :=
  let x := portDescOf s loc
  controlTok (opLoad x.1 && x.2.wid) w e.hyp e.refuted

/-- MARK or SWITCH, by its control word. -/
def wordIsMark (w : Word) : Bool := decide (bits w 0 8 = 0x10#8) || decide (bits w 0 8 = 0x11#8)

/-- Take a control token that the port's AG has emitted. -/
def takeEmitted (s : State) (loc : PortAt) : State :=
  match headEmission s loc with
  | some e =>
    match e.ctl with
    | some w =>
      if wordIsMark w then s
      else
        let s := freeEntry s loc
        passCtl (setPort s loc { getPort s loc with reqs := (getPort s loc).reqs.tail }) loc (emittedCtl s loc e w)
    | none => s
  | none => s

/-- PORT_CONTROL_TOKEN (R327): a control token at the head of the port's input, else one that its AG has emitted, is taken, also where a
data token of a later request heads the input; MARK and SWITCH follow R173 and R52. -/
def execPortControlToken (site : BitVec 12) (port : BitVec 3) (s : State) : Host.Outcome State Fault Refusal :=
  let loc : PortAt := ⟨site, port⟩
  if !portMayRun s loc then .next s
  else
    match headToTake s (endKey site port.toNat) with
    | some t =>
      if t.isMarkOrSwitch then .next (takeEmitted s loc)
      else if t.ctrl then .next (passCtl (popPort s loc) loc t) else .next (takeEmitted s loc)
    | none => .next (takeEmitted s loc)

/-- MEMORY_REPLY (R79): the oldest access of the port to a tier of this package completes, and its reply lands. -/
def execMemoryReply (site : BitVec 12) (port : BitVec 3) (s : State) : Host.Outcome State Fault Refusal :=
  let loc : PortAt := ⟨site, port⟩
  let p := getPort s loc
  .next (setPort s loc { p with
    replies := mapFirst (fun e => !e.landed && e.remote.isEmpty) (fun e => { e with landed := true }) p.replies })

/-! ## A peer's answer to a port's request (R192, R366, R426) -/

/-- Block `i` of an answer. -/
def answerBlock (data : BitVec 2048) (descs : BitVec 64) (psn : BitVec 4) (i : Nat) : BlkVal :=
  ⟨bits data (512 * i) 512, bits descs (16 * i) 16, bitAt psn i⟩

/-- What block `i` of a request gives to it when a peer has answered: the value over the layers of the request's chain, its line, and the
bytes that it counts. A block that was read before an acquire leaves no line (R105). -/
def landBlock (loc : PortAt) (e : ReplyEnt) (d : PortDesc) (stale : Bool) (home i : Nat) (base : BlkVal) (s : State) : State × BlkVal × Nat :=
  let va := e.addr / 64 * 64 + 64 * i
  let p := portParty s loc
  let ctx := portCtx s loc
  let b := viewOver s p home ctx e.hyp base
  let put (need : BitVec 64) : State := loadInstall s p loc.site home va ctx e.hyp need d.hint scopeTenant base
  if opAtomic e.opc then (s, base, 0)
  else if e.opc = 0x13#8 then
    let x := addOver loc d e.mask va home (e.dat.getD i (vectorTok 0#512 0#16 0#16 0#6 true false)) base s
    (x.1, { b with psn := x.2.2 }, x.2.1)
  else if stale then (stampLoad s p home, b, 0)
  else if e.opc = 0x16#8 then
    let r : PReq := ⟨va, 0#32, 0#32, 0#32, 0#16, e.hyp, false, [], none, 0#2⟩
    if prefAbsent s loc r home then (put (BitVec.allOnes 64), b, 64) else (s, b, 0)
  else if e.opc = 2#8 ∧ e.hyp = 0#6 ∧ (lineOf (getMt s loc.site) home 0#8 0#6).isNone ∧ hintAlloc d.hint then
    let l := ((Line.fresh home va 0#8 0#6 base.desc).fill b).touched d.hint scopeTenant
    (install s loc.site { l with ro := true }, b, 0)
  else (put (needMask d.wid e.addr), b, 0)

/-- The blocks of an answer to a read, from block `i` on. -/
def landBlocks (loc : PortAt) (d : PortDesc) (stale : Bool) (data : BitVec 2048) (descs : BitVec 64) (psn : BitVec 4) (first home : Nat) :
    Nat → Nat → ReplyEnt → State → State × ReplyEnt
  | 0, _, e, s => (s, e)
  | n + 1, i, e, s =>
    let x := landBlock loc e d stale (home + 64 * i) (first + i) (answerBlock data descs psn i) s
    let bs := if e.opc = 0x13#8 then (if x.2.1.psn then psnMark :: e.blks else e.blks) else e.blks.set (first + i) x.2.1
    landBlocks loc d stale data descs psn first home n (i + 1) { e with blks := bs, bytes := e.bytes + x.2.2 } x.1

/-- The tokens of an entry whose peers have all answered (R314, R317): a row of which poison kept an addition from being made answers 0
with PSN (R404). -/
def landedToks (d : PortDesc) (e : ReplyEnt) : List Token :=
  if opLoad e.opc then loadToks e.opc d e.addr e.mask e.hyp e.refuted e.blks
  else if e.opc = 0x13#8 ∧ e.blks ≠ [] then [scalarTok 0#32 e.hyp e.refuted true]
  else [scalarTok (BitVec.ofNat 32 e.bytes) e.hyp e.refuted false]

/-- A peer's answer reaches the port: data and line of a read, the old value of an atomic, the bytes of a write; a refusal or a
failure completes as poison. -/
def landRemote (s : State) (loc : PortAt) (r : Remote) (ok : Bool) (data : BitVec 2048) (descs : BitVec 64) (psn : BitVec 4) :
    State :=
  let d := (portDescOf s loc).2
  match (getPort s loc).replies.find? fun e => e.remote.contains r.idx with
  | none => s
  | some e0 =>
    let home := (2 + r.node.toNat) * 2 ^ 52 + r.addr
    let x : State × ReplyEnt :=
      if !ok then (setErr s (nodeOf s loc.site 0) 16#16, e0)
      else if r.kind = 0#3 then
        landBlocks loc d r.stale data descs psn r.place home r.blocks 0 e0 s
      else if r.kind = 2#3 then
        (peerChanges s loc (home / 64 * 64) (needMask false r.addr), { e0 with blks := [⟨data.setWidth 512, 0#16, bitAt psn 0⟩] })
      else if r.kind = 1#3 then (s, { e0 with bytes := e0.bytes + countBits r.mask })
      else
        ((List.range r.blocks).foldl (fun s i => peerChanges s loc (home + 64 * i) (bits r.mask (64 * i) 64)) s,
          { e0 with bytes := e0.bytes + countBits r.mask, blks := if psn = 0#4 then e0.blks else psnMark :: e0.blks })
    let left := e0.remote.filter fun i => decide (i ≠ r.idx)
    -- an atomic on a block that a peer has read out is made in the stash under its tag, and dropped under a refuted one (R316, R409)
    let y : State × List Token :=
      if opAtomic e0.opc then
        let b := x.2.blks.getD 0 ⟨0#512, 0#16, true⟩
        if e0.refuted ∧ r.kind ≠ 2#3 then (x.1, [scalarTok 0#32 e0.hyp true false])
        else if r.kind = 2#3 ∨ !ok then
          (x.1, [if b.psn then scalarTok 0#32 e0.hyp e0.refuted ok else scalarTok (lane b.data 0) e0.hyp e0.refuted false])
        else
          let q : PReq := ⟨e0.addr, e0.x, e0.y, 0#32, e0.mask, e0.hyp, e0.refuted, [], none, 0#2⟩
          let z := atomLocal e0.opc loc d q (home / 64 * 64) b x.1
          (z.1, [z.2])
      else (x.1, landedToks d x.2)
    let e := { x.2 with remote := left, landed := left.isEmpty, toks := if left.isEmpty then y.2 else [] }
    let p := getPort y.1 loc
    let rs := mapFirst (fun z => z.remote.contains r.idx) (fun _ => e) p.replies
    setPort y.1 loc { p with replies := rs.filter fun z => !(z.silent y.1 loc && z.landed) }

end Sys2Proof.Machine
end

