-- ==== Sys2Proof/Machine/AgOps.lean ====
section
/-! DEFINITION. The address generators (R329 to R334): their words, the checks and faults of an emission (R370, R372, R413), the
table walks that they and the ports wait for (R94, R95, R399 to R401), group indices (R41, R43) and credits (R59, R334). -/

namespace Sys2Proof.Machine

/-- DIRECT of an AG's binding (R233) (DEDUCED, log 100). -/
def agDirect (s : State) (loc : AgAt) : Bool := bitAt (agBinding s loc) 4

/-- PORT of an AG's binding, as a port of its own memory tile. -/
def agPort (s : State) (loc : AgAt) : PortAt := ⟨loc.site, bits (agBinding s loc) 0 3⟩

/-- OLP and OVC of an AG's binding. -/
def agOut (s : State) (loc : AgAt) : Nat × Nat :=
  let b := agBinding s loc
  (8 + (bits b 11 1).toNat, (bits b 12 4).toNat)

/-- The ctl input of an AG. -/
def agCtl (loc : AgAt) : Nat := endKey loc.site (8 + loc.sub.toNat)

/-- The owner of an AG. -/
def agOwner (s : State) (loc : AgAt) : Option Inst := ownerOf s loc.site (1 + loc.sub.toNat)

/-- The node of an AG. -/
def agNode (s : State) (loc : AgAt) : Option Node := nodeOf s loc.site (1 + loc.sub.toNat)

/-- An AG executes words: its program runs, nothing halts it, and its region runs (R331, R173, R392). -/
def agRuns (s : State) (loc : AgAt) : Bool :=
  let a := getAg s loc
  (decide (a.st = .running) || decide (a.st = .heldGrp)) && !a.halted && !a.saved && !dieStops s loc.site && regionRuns (agOwner s loc)

/-- Run a word that an AG has come to. -/
def agWord (loc : AgAt) (s : State) (f : Ag → Ag) : Host.Outcome State Fault Refusal :=
  if agRuns s loc then .next (setAg s loc (f (getAg s loc))) else .next s

/-- The next word. -/
def Ag.next (a : Ag) : Ag := { a with pc := a.pc + 1#5 }

/-! ## Words that take no cycle of their own (R331) -/

/-- Bit `l` of the open levels. -/
def Ag.isOpen (a : Ag) (l : Nat) : Bool := bitAt a.opened l

/-- Open or close a level. -/
def Ag.setOpen (a : Ag) (l : Nat) (b : Bool) : Ag := { a with opened := setBits a.opened l (BitVec.ofBool b) }

/-- ALOOP (R331): the level opens with its counter at 0, and its body begins at the next word. -/
def execAloop (loc : AgAt) (lvl : BitVec 3) (count : BitVec 25) (stride : BitVec 30) (s : State) :
    Host.Outcome State Fault Refusal :=
  agWord loc s fun a =>
    let l := lvl.toNat
    let a := { a with g := vset a.g l 0#25, cnt := vset a.cnt l count, str := vset a.str l stride, top := vset a.top l (a.pc + 1#5) }
    (a.setOpen l true).next

/-- AEND (R331): the counter steps; below its count the body begins anew, else the level closes. -/
def execAend (loc : AgAt) (lvl : BitVec 3) (s : State) : Host.Outcome State Fault Refusal :=
  agWord loc s fun a =>
    let l := lvl.toNat
    let g := vget 0#25 a.g l + 1#25
    if g.toNat < (vget 0#25 a.cnt l).toNat then { a with g := vset a.g l g, pc := vget 0#5 a.top l }
    else (({ a with g := vset a.g l 0#25 } : Ag).setOpen l false).next

/-- ABASE (R331). -/
def execAbase (loc : AgAt) (base : BitVec 56) (s : State) : Host.Outcome State Fault Refusal :=
  agWord loc s fun a => { a with base := base }.next

/-- AOFF (R331): BASE + DELTA modulo 2^56. -/
def execAoff (loc : AgAt) (delta : BitVec 48) (s : State) : Host.Outcome State Fault Refusal :=
  agWord loc s fun a => { a with base := a.base + delta.signExtend 56 }.next

/-- Credits added to an AG or a copy engine stop at 65,535 (R331, R334). -/
def addCredits (cr : BitVec 16) (n : Nat) : BitVec 16 := BitVec.ofNat 16 (Nat.min (cr.toNat + n) 65535)

/-- ACRED (R331). -/
def execAcred (loc : AgAt) (en : BitVec 1) (cadd : BitVec 16) (s : State) : Host.Outcome State Fault Refusal :=
  agWord loc s fun a => { a with cren := decide (en = 1#1), cr := addCredits a.cr cadd.toNat }.next

/-- AMASK (R331). -/
def execAmask (loc : AgAt) (lvl : BitVec 3) (tmask mask : BitVec 16) (s : State) : Host.Outcome State Fault Refusal :=
  agWord loc s fun a => { a with mask := mask, tmask := tmask, tlvl := lvl }.next

/-! ## Emissions (R332) -/

/-- The address of an emission, modulo 2^56 (R332). -/
def Ag.addr (a : Ag) (disp : BitVec 48) : BitVec 56 :=
  let lv (j : Nat) : Int := if a.isOpen j then (vget 0#25 a.g j).toNat * (vget 0#30 a.str j).toInt else 0
  let idx : Int := if a.isgn then a.idx.toInt else a.idx.toNat
  BitVec.ofInt 56 (a.base.toNat + (lv 0 + lv 1 + lv 2 + lv 3 + lv 4 + lv 5) + idx * a.istr.toNat + a.grp.toNat * a.gstr.toInt +
    disp.toInt)

/-- The mask of an emission (R332): TMASK in the last round of the open level TLVL. -/
def Ag.emask (a : Ag) : BitVec 16 :=
  let l := a.tlvl.toNat
  if a.isOpen l ∧ (vget 0#25 a.g l).toNat + 1 = (vget 0#25 a.cnt l).toNat then a.tmask else a.mask

/-- The port shows a free entry for an emission (R368): at most DEPTH whose requests have not yet issued. -/
def emitRoom (s : State) (loc : PortAt) : Bool :=
  let p := getPort s loc
  let depth := if portDepth s loc = 0 then 2 else portDepth s loc
  decide (p.reqs.length + (if p.freedAt = now s then p.freed else 0) + (if portUnissued s loc then 1 else 0) < depth)

/-- An AG has somewhere to send: DIRECT, or an out channel (R233) (DEDUCED, log 14). -/
def agSendsOn (s : State) (loc : AgAt) : Bool := agDirect s loc || decide ((agOut s loc).2 ≠ 0)

/-- The destination of an AG's emissions shows a free entry (R332); where there is none, it never does. -/
def agRoom (s : State) (loc : AgAt) : Bool :=
  agSendsOn s loc && (if agDirect s loc then emitRoom s (agPort s loc) else outRoom s loc.site (agOut s loc).1 (agOut s loc).2)

/-- Send a control token along the path of the emissions (R332, R333) (DEDUCED, log 34). -/
def emitCtl (s : State) (loc : AgAt) (w : Word) : State :=
  let a := getAg s loc
  let s :=
    if agDirect s loc then
      let pl := agPort s loc
      let p := getPort s pl
      let e : Emission := ⟨0#56, 0xFFFF#16, a.hid, a.hidRef, some w, none, 0#2, now s + 1⟩
      inject (setPort s pl { p with reqs := p.reqs ++ [e] }) (agOwner s loc)
    else
      sendOut s loc.site (agOwner s loc) (agOut s loc).1 (agOut s loc).2 (controlTok true w a.hid a.hidRef)
  progress (setAg s loc { getAg s loc with emitNext := now s + 1 }) (agOwner s loc)

/-- The AG may send in this cycle: its destination has room, and it has sent nothing yet (R331). -/
def agSends (s : State) (loc : AgAt) : Bool := agRoom s loc && decide ((getAg s loc).emitNext ≤ now s)

/-- AHALT (R331, R332): with EOS = 1 the end of the stream goes out first. -/
def execAhalt (loc : AgAt) (eos : BitVec 1) (s : State) : Host.Outcome State Fault Refusal :=
  if !agRuns s loc then .next s
  else if eos = 1#1 then
    if agSends s loc then
      let s := emitCtl s loc cEOS
      .next (setAg s loc { getAg s loc with st := .halted })
    else .next s
  else .next (setAg s loc { getAg s loc with st := .halted })

/-! ## Index words (R333, R334, R41, R43) -/

/-- AIDX (R333): a data token gives IDX and HID; EOT, EOF and EOS go on as an emission and the program continues at EXIT; RDV goes
on and the wait continues. -/
def execAidx (loc : AgAt) (exit : BitVec 6) (isgn : BitVec 1) (istr : BitVec 32) (s : State) :
    Host.Outcome State Fault Refusal :=
  if !agRuns s loc then .next s
  else
    match headToTake s (agCtl loc) with
    | none => .next s
    | some t =>
      match t.code with
      | none =>
        let s := popBuf (markPsn s (agNode s loc) (some t)) (agCtl loc)
        let a := getAg s loc
        .next (setAg s loc
          { a with idx := t.w0, hid := t.hyp, hidRef := t.refuted, isgn := decide (isgn = 1#1), istr := istr }.next)
      | some c =>
        if (c = 1#8 ∨ c = 2#8 ∨ c = 3#8 ∨ c = 0x13#8) ∧ agSends s loc then
          let s := emitCtl (popBuf s (agCtl loc)) loc t.w0
          let a := getAg s loc
          .next (setAg s loc { a with istr := istr, isgn := decide (isgn = 1#1), pc := if c = 0x13#8 then a.pc else bits exit 0 5 })
        else .next s

/-- Some index below a bound has still to be issued. -/
def unissuedBelow (n : Node) (b : Nat) : Bool :=
  decide (n.given < Nat.min b n.groups) || (n.ranges ++ n.reissue).any fun r => decide (r.lo < Nat.min r.hi b)

/-- An index may be issued: none that was there before the GROUPINC that created it is unissued (R42). -/
def mayIssue (n : Node) (i : Nat) : Bool := n.bounds.all fun b => decide (i < b) || !unissuedBelow n b

/-- Ranges of a node with the next index of a die's range taken (R41), where it may be. -/
def takeRange (die : BitVec 2) (ok : Nat → Bool) : List GroupRange → Option (Nat × List GroupRange)
  | [] => none
  | r :: rs =>
    if r.die = die ∧ r.lo < r.hi ∧ ok r.lo then some (r.lo, { r with lo := r.lo + 1 } :: rs)
    else (takeRange die ok rs).map fun x => (x.1, r :: x.2)

/-- The next group index for a die (R41, R396): of its own ranges, else of a new range of up to 64 from the unissued indices, else of
those that a lost die had; those that a GROUPINC has created come after every older one (R42). -/
def nextGroup (n : Node) (die : BitVec 2) : Option (Nat × Node) :=
  match takeRange die (mayIssue n) n.ranges with
  | some x => some (x.1, { n with ranges := x.2 })
  | none =>
    if n.given < n.groups ∧ mayIssue n n.given then
      let hi := Nat.min n.groups (n.given + 64)
      some (n.given, { n with given := hi, ranges := n.ranges ++ [⟨die, n.given, n.given + 1, hi⟩] })
    else
      match n.reissue with
      | r :: rs => some (r.lo, { n with reissue := rs, ranges := n.ranges ++ [⟨die, r.lo, r.lo + 1, r.hi⟩] })
      | [] => none

/-- AGRP (R333, R41, R43): the next index goes to GRP and, with TV = 1, to the group register of a task; with none the AG is held,
and on the end-of-stream answer it emits EOS and continues at EXIT. -/
def execAgrp (loc : AgAt) (exit : BitVec 6) (tv : BitVec 1) (task : BitVec 3) (tsite : BitVec 12) (gstr : BitVec 36) (s : State) :
    Host.Outcome State Fault Refusal :=
  if !agRuns s loc then .next s
  else if (getAg s loc).eos then
    if agSends s loc then
      let s := emitCtl s loc cEOS
      let a := getAg s loc
      .next (setAg s loc { a with st := .running, eos := false, gstr := gstr, pc := bits exit 0 5 })
    else .next s
  else
    let hold := setAg s loc { getAg s loc with st := .heldGrp }
    match agNode s loc with
    | none => .next hold
    | some n =>
      match nextGroup n (siteDie loc.site) with
      | none => .next hold
      | some (i, n2) =>
        let w : Word := BitVec.ofNat 32 i
        let s := modNode s n.id fun _ => n2
        let s := setAg s loc { getAg s loc with st := .running, grp := w, gstr := gstr }.next
        let s := if tv = 1#1 then setTask s tsite task { getTask s tsite task with group := w } else s
        .next (inject s (agOwner s loc))

/-- An AG's program asks for group indices: some word of it is AGRP (R234). -/
def agAsks (s : State) (loc : AgAt) : Bool := (List.range 32).any fun i => decide (bits (agWordAt s loc i) 58 6 = 6#6)

/-- The AGs of an instance. -/
def instAgs (i : Inst) : List AgAt :=
  (i.elems.filter fun e => decide (e % 4 ≠ 0)).map fun e => ⟨BitVec.ofNat 12 (e / 4), BitVec.ofNat 1 (e % 4 - 1)⟩

/-- Every AG of an instance that asks for indices and has not stopped is held, since it finds no index (R43). -/
def allHeld (s : State) (n : Node) (i : Inst) : Bool :=
  (instAgs i).all fun l =>
    let a := getAg s l
    !agAsks s l || (decide (a.st = .heldGrp) && (nextGroup n (siteDie l.site)).isNone) || decide (a.st = .halted)

/-- AGRP_END_OF_STREAM (R43): when every AG that asks is held and every instance is otherwise quiescent, all held requests receive
the end-of-stream answer at once. -/
def execAgrpEndOfStream (node : BitVec 32) (s : State) : Host.Outcome State Fault Refusal :=
  match findNode s node.toNat with
  | none => .next s
  | some n =>
    let is := s.dist.insts.filter fun i => decide (i.node = n.id) && decide (i.st ≠ .ended)
    let any := is.any fun i => (instAgs i).any fun l => decide ((getAg s l).st = .heldGrp)
    if any && (is.all fun i => allHeld s n i && i.quiescent) then
      .next (is.foldl (fun s i => (instAgs i).foldl (fun s l =>
        if (getAg s l).st = .heldGrp then setAg s l { getAg s l with eos := true } else s) s) s)
    else .next s

/-! ## Checks and faults of an emission (R370, R317, R323, R413) -/

/-- A scratchpad operation: SPLD, SPST, SPADD, the sync words, and rows with SP = 1. -/
def spadOp (opc : BitVec 8) (d : PortDesc) : Bool :=
  let o := opc.toNat
  (decide (5 ≤ o) && decide (o ≤ 7)) || decide (o = 0x14) || decide (o = 0x15) ||
  ((decide (o = 0x11) || decide (o = 0x12) || decide (o = 0x13)) && d.sp)

/-- The operation ignores its address: STFL and STINV with ALL, and SYNCW with SFIX (R313, R325). -/
def addrless (opc : BitVec 8) (d : PortDesc) : Bool :=
  ((decide (opc = 0x17#8) || decide (opc = 0x18#8)) && d.all) || (decide (opc = 0x15#8) && d.sfix)

/-- The bytes that an address is aligned to (R317). -/
def accAlign (opc : BitVec 8) (d : PortDesc) : Nat :=
  if opc = 0x14#8 ∨ opc = 0x15#8 then 16 else if d.wid then 64 else 4

/-- A row operation (R323). -/
def rowOp (opc : BitVec 8) : Bool := decide (opc = 0x11#8) || decide (opc = 0x12#8) || decide (opc = 0x13#8)

/-- The blocks of an operation's access. -/
def accBlocks (opc : BitVec 8) (d : PortDesc) : Nat :=
  if rowOp opc || decide (opc = 0x16#8) || decide (opc = 0x17#8) || decide (opc = 0x18#8) then d.rows else 1

/-- The address lies in an enabled watch entry of the tenant for this kind of access (R374). -/
def watched (s : State) (die : BitVec 2) (tenant : BitVec 16) (opc : BitVec 8) (va : Nat) : Bool :=
  let kind : BitVec 2 := if portNeedsW opc then 2#2 else if opLoad opc then 1#2 else 0#2
  (getDie s die).watch.toList.any fun w =>
    decide (w.len ≠ 0#32) && decide (w.tenant = tenant) && decide (w.mode &&& kind ≠ 0#2) &&
    decide (w.base.toNat ≤ va) && decide (va < w.base.toNat + w.len.toNat)

/-- A peer that a request cannot reach (R426, R427, R367): it is lost, no route names it, or the tenant holds no reservation. -/
def peerOut (s : State) (tenant : BitVec 16) (node : BitVec 12) : Bool :=
  Table.get false s.links.lost node.toNat || decide (Table.get 0#18 s.hub.zroute node.toNat = 0#18) ||
  decide (Table.get 0 s.hub.nearRes (tenant.toNat * 4096 + node.toNat) = 0)

/-- The checks of an emission before it may issue. -/
inductive EmitCheck where
  /-- translated, where the port needs it -/
  | go (t : Option Trans)
  /-- a walk is under way -/
  | wait
  | fault (c : FaultCode)
  deriving DecidableEq, Repr

/-- The translation of an AG's emission (R95, R413): its walk's failure, its micro-TLB, the die's cache, else a walk. -/
def agXlate (s : State) (loc : AgAt) (n : Node) (va : Nat) (needW : Bool) : State × EmitCheck :=
  let a := getAg s loc
  let d := siteDie loc.site
  let served := clearWalk s d (.ag loc) va needW
  match walkFailed s d (.ag loc) va needW with
  | some c => (served, .fault c)
  | none =>
    match tlbFind a.utlb n.tenant va needW with
    | some e => (served, .go (some (e.trans va)))
    | none =>
      match tlbFind (getDie s d).tlb n.tenant va needW with
      | some e => (setAg served loc { a with utlb := tlbPut a.utlb e 32 }, .go (some (e.trans va)))
      | none => (postWalk s d n (.ag loc) va needW, .wait)

/-- The checks in their order (R370): ALIGN, the scratchpad bound, WATCH, translation, a row's page. -/
def emitCheck (s : State) (loc : AgAt) (va : Nat) : State × EmitCheck :=
  let x := portDescOf s (agPort s loc)
  let opc := x.1
  let d := x.2
  if addrless opc d then (s, .go none)
  else if va % accAlign opc d ≠ 0 then (s, .fault .align)
  else if spadOp opc d then
    let size := if opc = 0x14#8 ∨ opc = 0x15#8 then 16 else if d.wid then 64 * accBlocks opc d else 4
    if spadSize < va + size then (s, .fault .bounds) else (s, .go none)
  else
    match agNode s loc with
    | none => (s, .fault .transNp)
    | some n =>
      if watched s (siteDie loc.site) n.tenant opc va then (s, .fault .watch)
      else
        match agXlate s loc n va (portNeedsW opc) with
        | (s, .go (some t)) =>
          if rowOp opc && decide (2 ^ t.lg < va % 2 ^ t.lg + 64 * d.rows) then (s, .fault .bounds) else (s, .go (some t))
        | y => y

/-- The stamps of the blocks that an emission's stores are performed under: those of the data tokens that stand at its port for it, behind
those that the emissions before it take; the AG's own where the token has not come (DESIGN CHOICE, log 181). -/
def nextStamps (s : State) (loc : AgAt) (opc : BitVec 8) (d : PortDesc) : List (BitVec 6 × Bool) :=
  let pl := agPort s loc
  let p := getPort s pl
  let need := dataNeed opc d
  let ahead := (p.reqs.filter fun e => e.ctl.isNone).length * need
  let toks := p.part ++ (((getBuf s (endKey pl.site pl.port.toNat)).q.map Prod.fst).filter fun t => !t.ctrl)
  let n := accBlocks opc d
  (List.range n).map fun k =>
    match toks[ahead + (need - n) + k]? with
    | some t => (t.hyp, t.refuted)
    | none => ((getAg s loc).hid, (getAg s loc).hidRef)

/-- An emission's stores find their context's overlay full (R370, R408). -/
def hypOvf (s : State) (loc : AgAt) (opc : BitVec 8) (d : PortDesc) (t : Trans) : Bool :=
  let stamps := nextStamps s loc opc d
  let blocks := (List.range stamps.length).map fun k => homeKey t + 64 * k
  portNeedsW opc && (ovlStop s (agPort s loc) (((stamps.zip blocks).filter fun x => !x.1.2).map fun x => (x.1.1, x.2))).isSome

/-- REMOTE_NAK and HYP_OVF of an emission about to issue (R370, R408, R426). -/
def issueFault (s : State) (loc : AgAt) (t : Option Trans) : Option FaultCode :=
  let x := portDescOf s (agPort s loc)
  match t with
  | none => none
  | some t =>
    if t.ty = 2#2 ∧ peerOut s (tenantOf (agNode s loc)) t.node then some .remoteNak
    else if hypOvf s loc x.1 x.2 t then some .hypOvf
    else none

/-- The fault record of an AG (R372). -/
def agRecordOf (s : State) (loc : AgAt) (c : FaultCode) (va : BitVec 56) : BitVec 512 :=
  let a := getAg s loc
  let r := faultRecord (recordHead s (agNode s loc)) a.hid loc.site (loc.sub.setWidth 3) 0#1 (agPort s loc).port
    (a.pc.setWidth 7) c va
  let g : BitVec 150 := a.g[5] ++ a.g[4] ++ a.g[3] ++ a.g[2] ++ a.g[1] ++ a.g[0]
  setBits (setBits (setBits r 146 g) 66 (a.idx ++ a.grp ++ a.cr)) 0 a.emits

/-- An AG stops on a fault (R370, R371): the emission does not issue. -/
def faultAg (s : State) (loc : AgAt) (c : FaultCode) (va : BitVec 56) : State :=
  let s := takeFault s loc.site (loc.sub.setWidth 3) 0#1 (agOwner s loc) (agRecordOf s loc c va)
  setAg s loc { getAg s loc with st := .faulted c none }

/-- Issue an emission (R332): a request at the AG's port, or a vector request token on its out channel. -/
def issue (s : State) (loc : AgAt) (va : BitVec 56) (t : Option Trans) (act : BitVec 2) : State :=
  let a := getAg s loc
  let s :=
    if agDirect s loc then
      let pl := agPort s loc
      let p := getPort s pl
      let e : Emission := ⟨va, a.emask, a.hid, a.hidRef, none, t, act, now s + 1⟩
      inject (setPort s pl { p with reqs := p.reqs ++ [e] }) (agOwner s loc)
    else
      let w := (bits va 32 24).setWidth 32 ++ bits va 0 32
      sendOut s loc.site (agOwner s loc) (agOut s loc).1 (agOut s loc).2
        (vectorTok (w.setWidth 512) 0x000F#16 0x00FF#16 a.hid a.hidRef false)
  let a := getAg s loc
  let a := { a with cr := if a.cren then a.cr - 1#16 else a.cr, emits := a.emits + 1#32, emitNext := now s + 1, repair := none }
  progress (setAg s loc a.next) (agOwner s loc)

/-- AEMIT (R332): the emission issues once it is translated and finds a credit and a free entry; one that cannot issue faults
(R370), and one that a REPAIR has answered is completed by its port without an access (R376). -/
def execAemit (loc : AgAt) (disp : BitVec 48) (s : State) : Host.Outcome State Fault Refusal :=
  if !agRuns s loc then .next s
  else
    let a := getAg s loc
    let va := a.addr disp
    let ready (s : State) : Bool := agSends s loc && (!a.cren || decide (a.cr ≠ 0#16))
    if !agDirect s loc then
      if ready s then .next (issue s loc va none 0#2) else .next s
    else
      match a.repair with
      | some act => if ready s then .next (issue s loc va none act) else .next s
      | none =>
        match emitCheck s loc va.toNat with
        | (s, .wait) => .next s
        | (s, .fault c) => .next (faultAg s loc c va)
        | (s, .go t) =>
          if ready s then
            match issueFault s loc t with
            | some c => .next (faultAg s loc c va)
            | none => .next (issue s loc va t 0#2)
          else .next s

/-! ## Walks (R94, R95, R399 to R401) -/

/-- A walk ends with a translation: an AG's micro-TLB takes the entry, and any requester finds it in the die's cache. -/
def endWalk (s : State) (w : Walk) (e : TlbEnt) : State :=
  match w.who with
  | .ag loc => setAg s loc { getAg s loc with utlb := tlbPut (getAg s loc).utlb e 32 }
  | _ => s

/-- Take a walk off its die. -/
def dropWalk (s : State) (die : BitVec 2) (w : Walk) : State :=
  let d := getDie s die
  setDie s die { d with walks := d.walks.erase w }

/-- A walk ends with a failure, which its access takes up (R399). -/
def failWalk (s : State) (die : BitVec 2) (w : Walk) (c : FaultCode) : State :=
  let d := getDie s die
  setDie s die { d with walks := d.walks.erase w, failed := d.failed ++ [(w, c)] }

/-- What a walk at a TYPE 1 leaf becomes that has not asked yet: it takes a place among the 64 and asks ATS, or stands aside (R401). -/
def askAts (s : State) (die : BitVec 2) (w : Walk) : State :=
  let d := getDie s die
  let room : Bool := decide (d.onAts.length < 64) && (!w.parked || decide (d.onWalkers.length < 192))
  let next : Walk := if room then { w with ats := some (now s), parked := false } else { w with parked := true }
  setDie s die { d with walks := mapFirst (fun x => decide (x = w)) (fun _ => next) d.walks }

/-- PAGE_WALK (R94, R95, R400, R401): a walk of the die that can go on is completed. Reaching a leaf that permits
the access sets A and D; a TYPE 1 leaf then waits for its ATS completion, at most 64 at a time, and whatever that answers they stay
set; a page that moves keeps its walk waiting (R89). Input: the die, whether an ATS completion
has arrived at byte 1, the walk at byte 2. -/
def execPageWalk (s : State) : Host.Outcome State Fault Refusal :=
  let die : BitVec 2 := s.opnd 0 2
  let arrived : BitVec 1 := s.opnd 1 1
  match (getDie s die).served[(s.opnd 2 8).toNat]? with
  | none => .next s
  | some w =>
    match walkTables s w.root w.va.toNat with
    | .error c => .next (failWalk s die w c)
    | .ok l =>
      if !leafPermits l w.needW then .next (failWalk s die w .transProt)
      else if bitAt l.ent 8 then .next s
      else if entType l.ent = 1#2 ∧ w.ats.isNone then .next (setAD (askAts s die w) l w.needW)
      else if entType l.ent = 1#2 ∧ arrived = 0#1 then .next (setAD s l w.needW)
      else
        match leafBase (getFn s w.vf).pasid l with
        | none => .next (failWalk (setAD s l w.needW) die w .transNp)
        | some base =>
          let e := tlbOf w.tenant w.va.toNat l base w.needW
          .next (endWalk (diePut (setAD (dropWalk s die w) l w.needW) die e) w e)

/-- ATS_TIMEOUT (R401): the ATS request of the input's die that has waited past the timeout fails as TRANS_NP. -/
def execAtsTimeout (s : State) : Host.Outcome State Fault Refusal :=
  let die : BitVec 2 := s.opnd 0 2
  let late (w : Walk) : Bool :=
    match w.ats with
    | some t => decide (t + s.hub.atsMs.toNat * msCycles ≤ now s)
    | none => false
  match (getDie s die).walks.find? late with
  | none => .next s
  | some w => .next (failWalk s die w .transNp)

/-! ## Credits (R59, R334, R351) -/

/-- FREED_CREDIT (R334, R351): a FREED token at the head of an AG's ctl input, or of a copy engine's freed input, adds its argument
to the credits there. A copy engine that runs no copy to a channel keeps them for its next. -/
def execFreedCredit (site : BitVec 12) (sub : BitVec 2) (s : State) : Host.Outcome State Fault Refusal :=
  if sub.toNat < 2 then
    let loc : AgAt := ⟨site, bits sub 0 1⟩
    match headToTake s (agCtl loc) with
    | some t =>
      if t.isCode 0x20#8 && !(getAg s loc).halted && !dieStops s site && regionRuns (agOwner s loc) then
        let s := popBuf s (agCtl loc)
        let a := getAg s loc
        .next (setAg s loc { a with cr := addCredits a.cr t.arg.toNat })
      else .next s
    | none => .next s
  else
    match headToTake s (endKey site 2) with
    | some t =>
      if t.isCode 0x20#8 && !(getCp s site).halted && !dieStops s site && regionRuns (ownerOf s site 0) then
        let s := popBuf s (endKey site 2)
        let c := getCp s site
        .next (setCp s site
          (if c.running then { c with credits := addCredits c.credits t.arg.toNat }
            else { c with kept := addCredits c.kept t.arg.toNat }))
      else .next s
    | none => .next s

/-- The local port and VC of an end's notice channel (R59): ends 0 to 7 of a CE, 8 and above the ports of a memory tile. -/
def noticeChan (s : State) (site : Site) (endp : BitVec 4) : Nat × Nat :=
  if endp.toNat < 8 then (8, (bits (ceEnd s site endp.toNat) 12 4).toNat)
  else
    let b := portBinding s ⟨site, bits endp 0 3⟩
    (8 + (bits b 19 1).toNat, (bits b 15 4).toNat)

/-- The notices that wait at an end. -/
def noticesAt (s : State) (site : Site) (endp : BitVec 4) : Notices :=
  if endp.toNat < 8 then vget [] (getCe s site).notices endp.toNat else (getPort s ⟨site, bits endp 0 3⟩).notices

/-- Replace them. -/
def setNotices (s : State) (site : Site) (endp : BitVec 4) (ns : Notices) : State :=
  if endp.toNat < 8 then
    let c := getCe s site
    setCe s site { c with notices := vset c.notices endp.toNat ns }
  else
    let loc : PortAt := ⟨site, bits endp 0 3⟩
    setPort s loc { getPort s loc with notices := ns }

/-- The notices of an end whose channel is full merge into one (R59): those that could have left by cycle `t`. -/
def mergeNotices (t : Nat) (ns : Notices) : Notices :=
  let due := ns.filter fun x => decide (x.1 ≤ t)
  if due.isEmpty then ns else (t, Notices.total due) :: ns.filter fun x => decide (t < x.1)

/-- One end at the end of a cycle. -/
def mergeAt (s : State) (site : Site) (endp : BitVec 4) : State :=
  let ch := noticeChan s site endp
  if (noticesAt s site endp).length < 2 ∨ outRoom s site ch.1 ch.2 then s
  else setNotices s site endp (mergeNotices (now s) (noticesAt s site endp))

/-- Every end at the end of a cycle. -/
def mergeAll (s : State) : State :=
  let s := s.fab.ces.foldl (fun s kc => (List.range 8).foldl (fun s e => mergeAt s (BitVec.ofNat 12 kc.1) (BitVec.ofNat 4 e)) s) s
  s.fab.mts.foldl (fun s km => (List.range 8).foldl (fun s n => mergeAt s (BitVec.ofNat 12 km.1) (BitVec.ofNat 4 (8 + n))) s) s

/-- FREED_NOTICE (R59): the first notice that waits at an input end leaves on its notice channel, from the cycle after its dequeue on and
once that channel can take it. Ends 0 to 7 are those of a CE, 8 and above the ports of a memory tile. -/
def execFreedNotice (site : BitVec 12) (endp : BitVec 4) (s : State) : Host.Outcome State Fault Refusal :=
  let own := ownerOf s site 0
  let ch := noticeChan s site endp
  match noticesAt s site endp with
  | x :: rest =>
    let halted := if siteKind site = .ce then (getCe s site).halted else (getMt s site).halted
    if x.1 ≤ now s ∧ !halted ∧ !dieStops s site ∧ regionRuns own ∧ sendReady s site ch.1 ch.2 then
      .next (sendOut (setNotices s site endp rest) site own ch.1 ch.2 (controlTok false (cFREED x.2) 0#6 false))
    else .next s
  | [] => .next s

end Sys2Proof.Machine
end

