-- ==== Sys2Proof/Machine/Fetch.lean ====
section
/-! DEFINITION. Fetching: the record of bytes that the agenda's next move runs, read from the element's store, and placing a
word where the next step fetches it. -/

namespace Sys2Proof.Machine

/-- The word that a job stands at: its entry of the engine's program, or its single word (R337). -/
def jobWord (s : State) (j : Job) : BitVec 128 :=
  if j.prog then engProgWord s (j.eng.setWidth 12) j.entry.toNat else j.word

/-- The record that a move runs, from the stores of the elements; a clock tick has none. -/
def moveRecord (s : State) : Move → Option (List Byte)
  | .tick => none
  | .stage site task slot =>
    some (slotRecord site task slot (bundleSlot (bundleAt s site (getTask s site task).pc) slot.toNat))
  | .ag site sub => some (agRecord ⟨site, sub⟩ (agWordAt s ⟨site, sub⟩ (getAg s ⟨site, sub⟩).pc.toNat))
  | .port site n => some (portRecord ⟨site, n⟩ (portDescWord s ⟨site, n⟩))
  | .engine id =>
    match findJob s id with
    | some j => some (engRecord j.eng (jobWord s j))
    | none => none
  | .op site slot => some (opRecord ⟨site, slot⟩ (opFrame s ⟨site, slot⟩))
  | .event bs => some bs
  | .host _ _ _ _ _ => none

/-- What the outside presents with a move: the bytes after the row number of a class 7 record (DESIGN CHOICE, log 2; DESIGN CHOICE,
log 17). -/
def moveInput : Move → List Byte
  | .event bs =>
    match bs with
    | 7#8 :: _ :: _ :: rest => rest
    | _ => []
  | _ => []

/-- Store a frame into an active bank. -/
def putFrame (s : State) (site : Site) (cls sub idx : Nat) (w : BitVec 256) : State :=
  { s with fab := { s.fab with frames := Table.set 0#256 s.fab.frames (frameKey site cls sub idx) w } }

/-- Place the word of a record where the move that runs it fetches it, and put that move at the front of the agenda. A job is
made for an engine command word. -/
def placeRecord (s : State) (bs : List Byte) : State :=
  let front (s : State) (m : Move) : State := { s with agenda := m :: s.agenda }
  match bs with
  | 1#8 :: r =>
    match splitFields [12, 3, 3, 36] r with
    | .ok [site, task, slot, w] =>
      let site := BitVec.ofNat 12 site
      let task := BitVec.ofNat 3 task
      let pc := (getTask s site task).pc
      front (putFrame s site 0 0 pc.toNat (setBits (bundleAt s site pc) (180 - 36 * slot) (BitVec.ofNat 36 w)))
        (.stage site task (.ofNat 3 slot))
    | _ => s
  | 2#8 :: r =>
    match splitFields [12, 1, 64] r with
    | .ok [site, sub, w] =>
      let loc : AgAt := ⟨.ofNat 12 site, .ofNat 1 sub⟩
      let pc := (getAg s loc).pc.toNat
      let s := setAg s loc { getAg s loc with st := .running }
      front (putFrame s loc.site 3 loc.sub.toNat (pc / 4)
        (setBits (frame s loc.site 3 loc.sub.toNat (pc / 4)) (64 * (pc % 4)) (BitVec.ofNat 64 w))) (.ag loc.site loc.sub)
    | _ => s
  | 3#8 :: r =>
    match splitFields [12, 3, 64] r with
    | .ok [site, port, w] =>
      let loc : PortAt := ⟨.ofNat 12 site, .ofNat 3 port⟩
      front (putFrame s loc.site 2 0 loc.port.toNat (setBits (frame s loc.site 2 0 loc.port.toNat) 0 (BitVec.ofNat 64 w)))
        (.port loc.site loc.port)
    | _ => s
  | 4#8 :: r =>
    match splitFields [13, 128] r with
    | .ok [eng, w] =>
      let id := s.dist.nextSeq
      let j : Job :=
        { id := id, eng := .ofNat 13 eng, inst := 0, issuer := 0, hyp := 0#6, refuted := false, prog := false,
          word := .ofNat 128 w, entry := 0#6, its := [], status := 0#16, cc := none, arg := 0#24, started := true,
          ended := false, released := false, run := { CmdRun.empty with started := true } }
      front { s with dist := { s.dist with nextSeq := id + 1, jobs := j :: s.dist.jobs } } (.engine id)
    | _ => s
  | 5#8 :: r =>
    match splitFields [12, 2, 256] r with
    | .ok [site, slot, w] =>
      let loc : OpAt := ⟨.ofNat 12 site, .ofNat 2 slot⟩
      front (putFrame s loc.site 4 0 (16 + loc.slot.toNat) (.ofNat 256 w)) (.op loc.site loc.slot)
    | _ => s
  | _ => front s (.event bs)

end Sys2Proof.Machine
end

