-- ==== Sys2Proof/Machine/Pool.lean ====
section
/-! DEFINITION. The acceptance order and the ready pool (R34, R35): what holds a node, and what happens when an earlier node or
job completes. -/

namespace Sys2Proof.Machine

/-- The node may enter the pool (R35): it has its PRED releases, and every node and job that it depends on has completed. -/
def Node.free (n : Node) : Bool := decide (n.st = .held) && n.deps.isEmpty && decide ((n.fld 352 16 : BitVec 16).toNat ≤ n.rels)

/-- Every held node that may enter the pool enters it (R35, R38). -/
def enterPool (s : State) : State :=
  let t := now s
  { s with dist := { s.dist with
      nodes := mapWhere Node.free (fun n => { n with st := .pool, readyAt := t, prioAt := t }) s.dist.nodes } }

/-- A node or a job has completed: nothing waits for it any longer (R34). -/
def retire (s : State) (id : Nat) : State :=
  enterPool { s with dist := { s.dist with
    nodes := s.dist.nodes.map fun n => { n with deps := n.deps.filter fun d => decide (d ≠ id) } } }

/-- Two footprint entries overlap (R34): their byte ranges intersect and at least one of them writes; an empty range meets nothing. -/
def FootEnt.overlaps (a b : FootEnt) : Bool :=
  decide (0 < a.len) && decide (0 < b.len) && decide (a.base < b.base + b.len) && decide (b.base < a.base + a.len) &&
    (bitAt a.mode 1 || bitAt b.mode 1)

/-- Two footprints overlap (R34). -/
def footOverlap (a b : List FootEnt) : Bool := a.any fun x => b.any fun y => x.overlaps y

end Sys2Proof.Machine
end

