-- ==== Sys2Proof/Machine/Jobs.lean ====
section
/-! DEFINITION. Engine jobs (R48, R294, R337 to R340, R433): how a job comes to be, its command sequence, the tokens that an
engine takes and sends, the status of a job, and its end. -/

namespace Sys2Proof.Machine

/-! ## The engine behind a job -/

/-- The site of an engine. -/
def engSite (e : EngId) : Site := bits e 0 12

/-- An engine with a site of its own, as against the hypothesis controller and the Apsis engine. -/
def engPlaced (e : EngId) : Bool := decide (e.toNat < 4096)

/-- The die whose walkers and translation cache an engine uses (R95); the controllers use those of die 0 (DESIGN CHOICE, log 45). -/
def engDie (e : EngId) : BitVec 2 := if engPlaced e then siteDie (engSite e) else 0#2

/-- The engine is an MX. -/
def engIsMx (e : EngId) : Bool := decide (engineClass e = 1)

/-- The instance that issued a job. -/
def jobInst (s : State) (j : Job) : Option Inst := findInst s j.inst

/-- The node of a job. -/
def jobNode (s : State) (j : Job) : Option Node :=
  match jobInst s j with
  | some i => findNode s i.node
  | none => none

/-- The tenant of a job. -/
def jobTenant (s : State) (j : Job) : BitVec 16 := tenantOf (jobNode s j)

/-- A job as a party (R98, R109). -/
def jobParty (s : State) (j : Job) : Party := ⟨(jobInst s j).map fun i => i.id, some (engDie j.eng), none, none, some j.id, jobKey j.id⟩

/-- The scope of a command's level (R243), under the cap of R406. -/
def jobScope (s : State) (j : Job) (lvl : BitVec 3) : BitVec 3 :=
  match jobNode s j with
  | some n => n.scope lvl
  | none => scopeRegion

/-- The node of a job has been aborted, or its instance has been lost (R383, R396). -/
def jobAborted (s : State) (j : Job) : Bool :=
  (match jobNode s j with
    | some n => n.aborting
    | none => false) ||
  (match jobInst s j with
    | some i => decide (i.st = .ended)
    | none => false)

/-- The fields of a command word below its opcode (R339). -/
def cmdOfWord (w : BitVec 128) : Cmd := ⟨bits w 117 3, bits w 116 1, bits w 104 12, bits w 88 16, bits w 0 88⟩

/-- The opcode of a command word. -/
def opcOfWord (w : BitVec 128) : BitVec 8 := bits w 120 8

/-- The job stands at a word and has not ended. -/
def Job.at (s : State) (eng : EngId) (opc : BitVec 8) (c : Cmd) (j : Job) : Bool :=
  decide (j.eng = eng) && j.started && !j.ended && decide (opcOfWord (jobWord s j) = opc) && decide (cmdOfWord (jobWord s j) = c)

/-- Nothing of the current command has happened. -/
def CmdRun.fresh (r : CmdRun) : Bool :=
  r.taken.isEmpty && decide (r.i = 0) && decide (r.j = 0) && r.awaits.isEmpty && !r.started && !r.acted && !r.dead

/-- The job is an HPU update that still waits for its hypothesis, and has not entered the order (R159). -/
def Job.waitsHyp (j : Job) : Bool := j.run.held && decide (j.hyp ≠ 0#6)

/-- The job that runs a command at an engine: first of all a held update that is discarded, then one whose command its MX has started,
or that is not held, then a held update that its hypothesis has freed (R159). -/
def runningJob (s : State) (eng : EngId) (opc : BitVec 8) (c : Cmd) : Option Job :=
  match s.dist.jobs.find? fun j => j.at s eng opc c && j.run.held && (j.refuted || jobAborted s j) with
  | some j => some j
  | none =>
    match s.dist.jobs.find? fun j => j.at s eng opc c && !j.run.held && (!engIsMx eng || j.run.started || j.run.dead) with
    | some j => some j
    | none =>
      match s.dist.jobs.find? fun j => j.at s eng opc c && !j.waitsHyp with
      | some j => some j
      | none => s.dist.jobs.find? fun j => j.at s eng opc c

/-- The job's instance has been saved (R174): its jobs stand still until it is restored. -/
def jobParked (s : State) (j : Job) : Bool := s.dist.saves.any fun v => decide (v.inst = j.inst)

/-! ## Status (R340) -/

/-- BADCMD -/
def stBad : BitVec 16 := 1#16

/-- REFUTED -/
def stRefuted : BitVec 16 := 2#16

/-- FULL -/
def stFull : BitVec 16 := 4#16

/-- POOLFULL -/
def stPoolFull : BitVec 16 := 8#16

/-- TOPOLOGY -/
def stTopology : BitVec 16 := 16#16

/-- NODEPOOL -/
def stNodePool : BitVec 16 := 32#16

/-- BADDESC -/
def stBadDesc : BitVec 16 := 64#16

/-- REMOTE -/
def stRemote : BitVec 16 := 128#16

/-- POISON -/
def stPoison : BitVec 16 := 256#16

/-- CORRUPT -/
def stCorrupt : BitVec 16 := 0x8000#16

/-- The arithmetic flags of a job in bits 9 to 14. -/
def stFlags (f : Flags) : BitVec 16 := f.setWidth 16 <<< 9

/-- OR bits into a job's status. -/
def orStatus (s : State) (id : Nat) (b : BitVec 16) : State := modJob s id fun j => { j with status := j.status ||| b }

/-- Change the progress of a job's command. -/
def modRun (s : State) (id : Nat) (f : CmdRun → CmdRun) : State := modJob s id fun j => { j with run := f j.run }

/-! ## The sequence of commands (R337, R338) -/

/-- The entry at which a program ends (R241). -/
def lastEntry (s : State) (site : Site) : Nat := ((List.range 64).find? fun i => bitAt (engMeta s site i) 0).getD 63

/-- The sync addition of a word with SJ = 1 (R339): to an MT of the issuing region. -/
def sjAdd (s : State) (j : Job) (w : BitVec 128) : State :=
  let site : Site := bits w 104 12
  let off := 16 * (bits w 88 16).toNat
  if bitAt w 116 && decide (siteKind site = .mt) && decide (off < spadSize) && decide (regionOf s site = some j.inst) then
    queueSync s site off 1
  else s

/-- The job ends (R338): what remains is JOB_END. A program stands at the entry that is, or would have been, its last. -/
def endJob (s : State) (j : Job) (b : BitVec 16) : State :=
  modJob s j.id fun k =>
    { k with ended := true, status := k.status ||| b, run := CmdRun.empty,
             entry := if k.prog then BitVec.ofNat 6 (lastEntry s (engSite k.eng)) else k.entry }

/-- The next command arrives now. -/
def freshRun (s : State) : CmdRun := { CmdRun.empty with arr := now s }

/-- The current command has completed (R337, R338): the job ends where the command, a refute (R164) or an abort (R383) ends it;
else its loop or the next entry follows, and every pass but the final one of the last entry makes its sync addition. -/
def commandDone (s0 : State) (j : Job) : State :=
  let s := progress s0 (jobInst s0 j)
  if j.run.ends then endJob s j (if j.refuted then stRefuted else 0#16)
  else if j.refuted then endJob s j stRefuted
  else if jobAborted s j then endJob s j 0#16
  else if !j.prog then endJob s j 0#16
  else
    let e := j.entry.toNat
    let m := engMeta s (engSite j.eng) e
    let count := (bits m 16 16).toNat
    let it := Table.get 0 j.its e + 1
    if 1 < count ∧ it < count then
      modJob (sjAdd s j (jobWord s j)) j.id fun k =>
        { k with its := Table.set 0 k.its e it, entry := bits m 10 6, run := freshRun s }
    else if bitAt m 0 ∨ e = 63 then modJob s j.id fun k => { k with ended := true, its := Table.set 0 k.its e 0, run := CmdRun.empty }
    else
      modJob (sjAdd s j (jobWord s j)) j.id fun k =>
        { k with its := Table.set 0 k.its e 0, entry := k.entry + 1#6, run := freshRun s }

/-- A command performs no (further) access (R340): it sets status bits, still takes `left` tokens, and may end its job. One that has not
started takes its place at the data input now. -/
def killCommand (s : State) (j : Job) (b : BitVec 16) (ends : Bool) (left : Nat) : State :=
  modJob s j.id fun k =>
    { k with
      status := k.status ||| b
      run := { k.run with dead := true, ends := ends, i := left, j := 0, outq := [], at0 := if k.run.started then k.run.at0 else now s } }

/-! ## Tokens of an engine (R242, R342) -/

/-- The head of an engine's data input that can be dequeued in this cycle (R61); MARK and SWITCH follow R173 and R52. -/
def dataHead (s : State) (j : Job) : Option Token :=
  if engPlaced j.eng && bitAt (engBinding s (engSite j.eng)) 33 then
    match headToTake s (endKey (engSite j.eng) 1) with
    | some t => if t.isMarkOrSwitch then none else some t
    | none => none
  else none

/-- MXMUL and MXMULO. -/
def mxIsMul (w : BitVec 128) : Bool := decide (opcOfWord w = 0x11#8) || decide (opcOfWord w = 0x12#8)

/-- An MX command that takes data tokens. -/
def mxTakes (w : BitVec 128) : Bool := mxIsMul w || (decide (opcOfWord w = 0x10#8) && bitAt w 61)

/-- A command of an MX still takes data tokens: it runs, or it performs no access and its tokens are due (R340, R343). -/
def stillTakes (s : State) (j : Job) : Bool :=
  j.started && !j.ended && mxTakes (jobWord s j) &&
  (if j.run.dead then decide (0 < j.run.i) else j.run.started && !j.run.acted)

/-- It is the job's turn at the data input: an MX's commands take tokens in the order in which they run or are refused
(DEDUCED, log 50). -/
def dataTurn (s : State) (j : Job) : Bool :=
  !engIsMx j.eng || !s.dist.jobs.any fun k => decide (k.eng = j.eng) && stillTakes s k &&
    (decide (k.run.at0 < j.run.at0) || (decide (k.run.at0 = j.run.at0) && decide (k.id < j.id)))

/-- Dequeue an engine's data input; a poisoned token marks the record of the job's node (R382). -/
def popData (s : State) (j : Job) : State :=
  let k := endKey (engSite j.eng) 1
  popBuf (markPsn s (jobNode s j) (headAt s k)) k

/-- Take one token of the data input: a control token where data is expected is discarded and counts as nothing (R342). -/
def takeData (s : State) (j : Job) : State × Option Token :=
  match dataHead s j with
  | none => (s, none)
  | some t => if t.ctrl then (popData s j, none) else (popData s j, some t)

/-- Send a token on an engine's out channel, when that can take one in this cycle (R61); without one the token is dropped (R358) (DEDUCED, log 51). -/
def engSend (s : State) (j : Job) (t : Token) : Option State :=
  let site := engSite j.eng
  let b := engBinding s site
  if !bitAt b 34 then some s
  else if sendReady s site 8 (bits b 16 4).toNat then some (sendOut s site (jobInst s j) 8 (bits b 16 4).toNat t)
  else none

/-- The rest of a matrix multiply's row count within its slice, when an EOT skips it (R346): `r` rows in a slice, `i` left in all. -/
def sliceRest (r i : Nat) : Nat := i - ((i - 1) % r + 1)

/-- The rows of a matrix multiply's slice, or 0 for another command. -/
def sliceRows (w : BitVec 128) : Nat :=
  if opcOfWord w = 0x11#8 ∨ opcOfWord w = 0x12#8 then (bits w 50 6).toNat + 1 else 0

/-- One step of a command whose effect is made: take a token that is still due, send one that is still owed, else complete. -/
def finishStep (s : State) (j : Job) : State :=
  if j.run.dead ∧ 0 < j.run.i then
    match (if dataTurn s j then dataHead s j else none) with
    | none => s
    | some t =>
      let rows := sliceRows (jobWord s j)
      if t.isCode 1#8 ∧ rows ≠ 0 then modRun (popData s j) j.id fun r => { r with i := sliceRest rows r.i }
      else if t.ctrl then popData s j
      else modRun (popData s j) j.id fun r => { r with i := r.i - 1 }
  else
    match j.run.outq with
    | t :: ts =>
      match engSend s j t with
      | some s => modRun s j.id fun r => { r with outq := ts }
      | none => s
    | [] => commandDone s j

/-! ## Running a command -/

/-- LVL and SSITE of a word against its issuing region (R244, R339). -/
def cmdPlaceOk (s : State) (j : Job) (c : Cmd) : Bool :=
  (match jobNode s j with
    | some n => decide (c.lvl.toNat < n.nlevel)
    | none => true) &&
  (decide (c.sj = 0#1) || decide (regionOf s c.ssite = some j.inst))

/-- A debugger has halted an engine (R392). -/
def engHalted (s : State) (e : EngId) : Bool :=
  engPlaced e && (match siteKind (engSite e) with
    | .mx => (getMx s (engSite e)).halted
    | .ste => (getSte s (engSite e)).halted
    | .hpu => (getHpu s (engSite e)).halted
    | .cp => (getCp s (engSite e)).halted
    | _ => false)

/-- The engine may run the job's command: an MX runs with its region, a shared engine to the end of its job (R49, R423); a halted one,
and one on a fenced die, runs nothing (R392, R394). -/
def engMayRun (s : State) (j : Job) : Bool :=
  !engHalted s j.eng && !(engPlaced j.eng && dieStops s (engSite j.eng)) &&
  (if engIsMx j.eng then
    (match jobInst s j with
      | some i => (regionRuns (some i) && !i.marked.contains ((engSite j.eng).toNat * 4)) || decide (i.st = .ended)
      | none => true)
  else !jobParked s j)

/-- One step of an engine command: nothing begins under a refuted id or in an aborted node (R164, R383); a word that its place
makes bad performs no access (R244), as `bad` says (DEDUCED, log 46). -/
def engStep (opc : BitVec 8) (eng : EngId) (c : Cmd) (bad body : Job → State → State) (s : State) : Host.Outcome State Fault Refusal :=
  match runningJob s eng opc c with
  | none => .next s
  | some j =>
    if !engMayRun s j then .next s
    else if j.run.dead || j.run.acted then .next (finishStep s j)
    else if j.run.fresh && (j.refuted || jobAborted s j) then .next (endJob s j (if j.refuted then stRefuted else 0#16))
    else if j.run.fresh && !cmdPlaceOk s j c then .next (bad j s)
    else .next (body j s)

/-- One step of a command whose count of input tokens `tokens` its fields determine (R340). -/
def engRun (opc : BitVec 8) (eng : EngId) (c : Cmd) (tokens : State → Job → Nat) (body : Job → State → State) (s : State) :
    Host.Outcome State Fault Refusal :=
  engStep opc eng c (fun j s => killCommand s j stBad true (tokens s j)) body s

/-- One step of a command that takes `need` tokens and then acts as a whole. -/
def takeThen (need : Nat) (act : Job → State → State) (j : Job) (s : State) : State :=
  if j.run.taken.length < need then
    match takeData s j with
    | (s, some t) => modRun s j.id fun r => { r with taken := r.taken ++ [t] }
    | (s, none) => s
  else act j s

/-- The command's effect is made, with its status, its arithmetic flags, and the tokens that it sends. -/
def actDone (s : State) (j : Job) (b : BitVec 16) (out : List Token) : State :=
  modJob s j.id fun k => { k with status := k.status ||| b, run := { k.run with acted := true, outq := out } }

/-! ## Accesses of a job -/

/-- The translation of an engine's access (R95). -/
def jobXlate (s : State) (j : Job) (va : Nat) (needW : Bool) : State × Xlat :=
  match jobNode s j with
  | none => (s, .fail .transNp)
  | some n => xlate s (engDie j.eng) n (.job j.id) va needW

/-- A block as a scheduler reads it, without a walk's marks (R341). -/
def peekBlock (s : State) (j : Job) (va : Nat) : Option BlkVal :=
  match jobNode s j with
  | none => none
  | some n =>
    match walkTables s n.ptroot va with
    | .error _ => none
    | .ok l =>
      if entType l.ent = 2#2 ∨ entType l.ent = 3#2 then none
      else
        match leafBase (getFn s (nodeVf s n)).pasid l with
        | none => none
        | some base =>
          let h := homeKey ⟨entType l.ent, 0#12, base + va % 2 ^ l.lg, l.lg⟩
          let b := view s (jobParty s j) h n.hctx j.hyp
          if b.psn then none else some b

/-- A store of a job under its hypothesis finds no overlay entry and waits (R408). -/
def engOvlWaits (s : State) (ctx : BitVec 8) (h : BitVec 6) (home : Nat) : Bool :=
  decide (h ≠ 0#6) && ovlFull s ctx &&
  !(s.hyps.ovl.any fun o => decide (o.home = home) && decide (o.tag = h) && decide (o.ctx = ctx)) &&
  !((linesAt s home).any fun x => decide (x.2.tag = h) && decide (x.2.ctx = ctx))

/-! ## Issue (R294, R48, R433) -/

/-- Add a job at the end of the acceptance order (R109). -/
def addJob (s : State) (j : Job) : State :=
  { s with dist := { s.dist with nextSeq := s.dist.nextSeq + 1, jobs := s.dist.jobs ++ [{ j with id := s.dist.nextSeq }] } }

/-- The engine number of a job whose command names no engine (DEDUCED, log 44). -/
def noEngine : EngId := 0x1FFF#13

/-- A job as it enters the acceptance order. -/
def newJob (eng : EngId) (inst issuer : Nat) (hyp : BitVec 6) (refuted prog : Bool) (word : BitVec 128)
    (cc : Option (BitVec 12 × BitVec 3 × BitVec 3)) (arg : BitVec 24) : Job :=
  { id := 0, eng := eng, inst := inst, issuer := issuer, hyp := hyp, refuted := refuted, prog := prog, word := word, entry := 0#6,
    its := [], status := 0#16, cc := cc, arg := arg, started := false, ended := false, released := false, run := CmdRun.empty }

/-- The issuer number of an engine's program, of its cmd input, of a task and of a job (R343). -/
def issuerProgram : Nat := 0

/-- the cmd input -/
def issuerCmdIn : Nat := 1

/-- a task -/
def issuerTask (site : Site) (task : BitVec 3) : Nat := 2 + 2 * (site.toNat * 8 + task.toNat)

/-- a copy engine's job -/
def issuerJob (id : Nat) : Nat := 3 + 2 * id

/-- The engine that CMD's target names (R294), or none. -/
def cmdTarget (s : State) (site : Site) (task : BitVec 3) (target : Word) : Option EngId :=
  if target.toNat < 16 then
    let e := forkEntry s site task.toNat target.toNat
    if bitAt e 15 then some ((bits e 0 12).setWidth 13) else none
  else if target = 16#32 then some 0x1000#13
  else if target = 17#32 then some 0x1001#13
  else none

/-- The jobs of one entry of a command port (R294), as the die's distributor forms them. -/
def entryJobs (s : State) (site : Site) (e : CmdEntry) : List Job :=
  let inst := instNo (ownerOf s site 0)
  match e with
  | .cmd task word target cc hyp refuted =>
    let c := cc.map fun c => (site, task, c)
    match cmdTarget s site task target with
    | some eng => [newJob eng inst (issuerTask site task) hyp refuted false word c (bits target 0 24)]
    | none => [{ newJob noEngine inst 0 hyp refuted false word c 0#24 with started := true, ended := true, status := stBad }]
  | .fork task mask cc hyp refuted =>
    let c := cc.map fun c => (site, task, c)
    ((List.range 16).filter fun i => bitAt mask i && bitAt (forkEntry s site task.toNat i) 15).map fun i =>
      newJob ((bits (forkEntry s site task.toNat i) 0 12).setWidth 13) inst issuerProgram hyp refuted true 0#128 c (BitVec.ofNat 24 i)

/-- A CE's command port gives up its first entry (R294). -/
def drainCe (s : State) (site : Site) : State :=
  let c := getCe s site
  match c.cmdq with
  | [] => s
  | e :: es =>
    if regionRuns (ownerOf s site 0) && !c.halted && !dieStops s site then
      (entryJobs s site e).foldl addJob (setCe s site { c with cmdq := es })
    else s

/-- A job that a word at a cmd input has made reaches its die's distributor in this cycle (R433). -/
def arriveJob (s : State) (site : Site) (j : Job) : State := { s with dist := { s.dist with arrived := s.dist.arrived ++ [(site, j)] } }

/-- The jobs that have reached the distributors from a site's cmd input enter the acceptance order. -/
def enterArrived (s : State) (site : Site) : State :=
  let here := s.dist.arrived.filter fun x => decide (x.1 = site)
  here.foldl (fun s x => addJob s x.2) { s with dist := { s.dist with arrived := s.dist.arrived.filter fun x => decide (x.1 ≠ site) } }

/-- The issuing sites of a cycle, in ascending die and site. -/
def issuingSites (s : State) : List Nat :=
  let ks := (s.fab.ces.map fun x => x.1) ++ s.dist.arrived.map fun x => x.1.toNat
  (ks.foldl (fun (t : Table Unit) k => Table.insert t k ()) []).map fun x => x.1

/-- In every cycle each command port gives up one entry, and the words dequeued at cmd inputs form their jobs: in ascending die and
issuing site (R109, R294, R433). -/
def drainPorts (s : State) : State :=
  (issuingSites s).foldl (fun s k => enterArrived (drainCe s (BitVec.ofNat 12 k)) (BitVec.ofNat 12 k)) s

/-- ENGINE_CMD_WORD (R433): the token at the head of an engine's cmd input is dequeued: a vector token becomes a job, a scalar one a
job that ends at once with BADCMD, and a control token is discarded (DEDUCED, log 43). -/
def execEngineCmdWord (site : BitVec 12) (s : State) : Host.Outcome State Fault Refusal :=
  let own := ownerOf s site 0
  if bitAt (engBinding s site) 32 && regionRuns own && !engHalted s (site.setWidth 13) && !dieStops s site then
    match headToTake s (endKey site 0) with
    | none => .next s
    | some t =>
      if t.isMarkOrSwitch then .next s
      else
        let s := inject (popBuf (markPsn s (nodeOf s site 0) (some t)) (endKey site 0)) own
        if t.ctrl then .next s
        else
          let j := newJob (site.setWidth 13) (instNo own) issuerCmdIn t.hyp t.refuted false (bits t.pay 0 128) none 0xFFFFFF#24
          .next (arriveJob s site (if t.vec then j else { j with started := true, ended := true, status := stBad }))
  else .next s

/-! ## The end of a job (R338) -/

/-- The RDV output of a job's engine finds room, or is not used. -/
def rdvReady (s : State) (j : Job) : Bool :=
  let b := engBinding s (engSite j.eng)
  !engPlaced j.eng || !bitAt b 35 || sendReady s (engSite j.eng) 8 (bits b 20 4).toNat

/-- Enqueue RDV with the job's argument (R338, R242). -/
def sendRdv (s : State) (j : Job) : State :=
  let b := engBinding s (engSite j.eng)
  if engPlaced j.eng && bitAt b 35 then
    sendOut s (engSite j.eng) (jobInst s j) 8 (bits b 20 4).toNat (controlTok (!bitAt b 28) (cRDV j.arg) j.hyp false)
  else s

/-- Add 1 to the completion counter that a job names (R295). -/
def addCc (s : State) (j : Job) : State :=
  match j.cc with
  | none => s
  | some (site, task, i) =>
    let k := getTask s site task
    let fresh := if k.ccAt = now s then k.ccNew else Vector.replicate 8 0#32
    setTask s site task
      { k with cc := vset k.cc i.toNat (vget 0#32 k.cc i.toNat + 1#32), ccNew := vset fresh i.toNat (vget 0#32 fresh i.toNat + 1#32), ccAt := now s }

/-- Publish a job's own writes at the outermost level's scope of its node (R338). -/
def releaseJob (s : State) (j : Job) : State :=
  match jobNode s j with
  | none => s
  | some n =>
    let scope := n.scope n.outer
    if scope = scopeRegion then s else releasePend s (fun x => decide (x.job = some j.id)) (.writeBack j.inst) n.tenant scope

/-- JOB_END (R338): an ended job releases its writes and makes its final sync addition; then, once its channel has room, it sends its RDV
and adds to its completion counter; its status goes to its node (R340, R414). -/
def execJobEnd (eng : BitVec 13) (s : State) : Host.Outcome State Fault Refusal :=
  match (if engHalted s eng then none else s.dist.jobs.find? fun j => decide (j.eng = eng) && j.ended && !jobParked s j) with
  | none => .next s
  | some j =>
    let s := if j.released then s else modJob (sjAdd (releaseJob s j) j (jobWord s j)) j.id fun k => { k with released := true }
    if !rdvReady s j then .next s
    else
      let s1 := addCc (sendRdv s j) j
      let s2 := match jobInst s1 j with
        | some i => modNode s1 i.node fun n => { n with jobst := n.jobst ||| j.status, afl := n.afl ||| bits j.status 9 6 }
        | none => s1
      let s3 := inject s2 (jobInst s2 j)
      let s4 := { s3 with store := { s3.store with pts := Table.set 0 s3.store.pts (jobKey j.id) 0 } }
      let s5 := loseWalks s4 (engDie j.eng) fun w => decide (w.who = .job j.id)
      .next (retire { s5 with dist := { s5.dist with jobs := s5.dist.jobs.filter fun k => decide (k.id ≠ j.id) } } j.id)

end Sys2Proof.Machine
end

