-- ==== Sys2Proof/Machine/Complete.lean ====
section
/-! DEFINITION. The end of a node (R51, R381 to R386): its completion record and notice, its releases, its regions freed; refusal; and
the zeroing of freed elements (R179, R424). -/

namespace Sys2Proof.Machine

/-! ## The completion record (R381, R382) -/

/-- The instances of a node. -/
def nodeInsts (s : State) (n : Node) : List Inst := s.dist.insts.filter fun i => n.insts.contains i.id

/-- The ERR bits that the ESTAT of an instance reports (R303, R382). -/
def estatErr (e : Word) : BitVec 16 :=
  (if bitAt e 0 then 0x80#16 else 0#16) ||| (if bitAt e 1 then 0x200#16 else 0#16) ||| (if bitAt e 2 then 0x100#16 else 0#16) |||
  (if bitAt e 3 then 0x800#16 else 0#16) ||| (if bitAt e 4 then 0x1000#16 else 0#16)

/-- ERR of a node with what its instances' ESTAT adds. -/
def nodeErr (s : State) (n : Node) : BitVec 16 := (nodeInsts s n).foldl (fun e i => e ||| estatErr i.estat) n.err

/-- The sites of an instance's CEs. -/
def instCes (i : Inst) : List Site :=
  (i.elems.filter fun e => decide (e % 4 = 0) && decide (siteKind (BitVec.ofNat 12 (e / 4)) = .ce)).map fun e => BitVec.ofNat 12 (e / 4)

/-- The OR of the AFLAGS of an instance's tasks (R115, R381). -/
def instFlags (s : State) (i : Inst) : Flags :=
  (instCes i).foldl (fun f site => (getCe s site).tasks.toList.foldl (fun f k => f ||| k.aflags) f) fNone

/-- AFL of a node. -/
def nodeFlags (s : State) (n : Node) : Flags := (nodeInsts s n).foldl (fun f i => f ||| instFlags s i) n.afl

/-- CYCLES from first dispatch to now, saturating. -/
def nodeCycles (s : State) (n : Node) : Word :=
  match n.firstAt with
  | some t => BitVec.ofNat 32 (Nat.min (now s - t) 0xFFFFFFFF)
  | none => 0#32

/-- The completion record of a node (R381). -/
def completionRecord (s : State) (n : Node) : BitVec 128 :=
  nodeCycles s n ++ n.jobst ++ n.lscode ++ 0#2 ++ (nodeFlags s n).setWidth 6 ++ n.nfault ++ nodeErr s n ++ 0#16

/-- The site of a node's completion sync word, and its offset (R28). -/
def syncSiteOf (n : Node) : Site := n.fld 948 12

/-- SYNCOFF -/
def syncOffOf (n : Node) : Nat := (n.fld 928 20 : BitVec 20).toNat

/-- The sync unit of a memory tile can take the addition of a completion at once: nothing has come before it (R85). -/
def syncReady (s : State) (site : Site) : Bool := (getMt s site).syncq.isEmpty && syncFree s site

/-- Add 1 to a completion sync word, in its turn (R85). -/
def addCompletion (s : State) (site : Site) (off : Nat) : State :=
  if syncReady s site then syncApply s site off 1 else queueSync s site off 1

/-- Write the completion record, then add 1 to the completion sync word (R51, R381); of a node refused for its SYNCSITE or SYNCOFF, what
lies in a scratchpad: assumption 15 (DEDUCED, log 15). -/
def writeCompletion (s : State) (n : Node) : State :=
  let site := syncSiteOf n
  let off := syncOffOf n
  let o := off + 16
  let m := ofMask64 fun k => decide (o % 64 ≤ k) && decide (k < o % 64 + 16)
  let b : Block := (completionRecord s n).setWidth 512 <<< (8 * (o % 64))
  if siteKind site ≠ .mt ∨ spadSize < o then s
  else if spadSize < o + 16 then addCompletion s site off
  else addCompletion (spadStore s site o m b none false) site off

/-! ## The completion notice (R188) -/

/-- The 32 bytes of a completion-queue entry. -/
def noticeEntry (s : State) (n : Node) (phase : Bool) : BitVec 256 :=
  0#64 ++ 0#15 ++ n.accepted ++ nodeCycles s n ++ n.nfault ++ 0#16 ++ n.jobst ++ BitVec.ofBool phase ++ 0#1 ++
    (nodeFlags s n).setWidth 6 ++ n.lscode ++ nodeErr s n ++ n.tag

/-- COMPLETION_NOTICE (R188): with EN = 1 the entry is written at CQTAIL, which advances; a full queue sets OVF;
vector 3 is raised, but not for a node of the sequencer firmware (R384). -/
def writeNotice (s : State) (n : Node) : State :=
  let f := getFn s n.sub
  let raise (s : State) : State := if n.firmware then s else raiseMsix s n.sub 3
  if !bitAt n.lrec 976 || !f.cqen then s
  else
    let size := 2 ^ (f.cqsz.toNat + 4)
    let next := (f.cqtail.toNat + 1) % size
    if next = f.cqhead.toNat % size then raise (setFn s n.sub { f with cqovf := true })
    else
      let s := hostPut s n.sub (f.cqbase.toNat + 32 * f.cqtail.toNat) (noticeEntry s n f.cqphase).toNat 32
      let f := getFn s n.sub
      let f := { f with cqtail := BitVec.ofNat 12 next, cqphase := if next = 0 then !f.cqphase else f.cqphase }
      raise (setFn s n.sub f)

/-! ## Releases (R35) -/

/-- The valid release tags of a node. -/
def relTags (n : Node) : List Word :=
  (List.range (Nat.min (n.fld 280 3 : BitVec 3).toNat 4)).map fun j => n.fld (640 + 32 * j) 32

/-- A node that takes releases for a tag of a tenant: accepted and not complete (DESIGN CHOICE, log 165). -/
def Node.takes (n : Node) (tenant : BitVec 16) (tag : Word) : Bool :=
  decide (n.tenant = tenant) && decide (n.tag = tag) && decide (n.st ≠ .complete)

/-- Release holds that are reserved: those of the nodes that have not completed, and those that wait for a tag (R35). -/
def holdsUsed (s : State) : Nat :=
  ((s.dist.nodes.filter fun n => decide (n.st ≠ .complete)).map fun n => Nat.min (n.fld 280 3 : BitVec 3).toNat 4).sum + s.dist.holds.length

/-- One release: to every accepted node with the tag, or held until one is accepted; a node that was refused at acceptance has reserved no
hold, so that its release takes one only if one is unreserved (DEDUCED, log 86; DESIGN CHOICE, log 173). -/
def sendRelease (tenant : BitVec 16) (s : State) (tag : Word) : State :=
  if s.dist.nodes.any fun n => n.takes tenant tag then
    { s with dist := { s.dist with nodes := mapWhere (fun n => n.takes tenant tag) (fun n => { n with rels := n.rels + 1 }) s.dist.nodes } }
  else if holdsUsed s < 4096 then { s with dist := { s.dist with holds := s.dist.holds ++ [(tenant, tag)] } }
  else s

/-! ## Freeing a region (R51, R179) -/

/-- The local links on which a site's element sends: local port and VC of each output and notice channel in use (R57, R59). -/
def localOuts (v : State) (site : Site) : List (Nat × Nat) :=
  match siteKind site with
  | .ce =>
    ((List.range 5).filter fun o => bitAt (ceOut v site o) 0).map (fun o => (8, (bits (ceOut v site o) 4 4).toNat)) ++
    ((List.range 8).filter fun e => bitAt (ceEnd v site e) 0 && bitAt (ceEnd v site e) 1).map fun e => (8, (bits (ceEnd v site e) 12 4).toNat)
  | .mt =>
    let port (n : Nat) : PortAt := ⟨site, BitVec.ofNat 3 n⟩
    let bind (n : Nat) := portBinding v (port n)
    ((List.range 8).filter fun n => portRused v (port n)).map (fun n => portReply v (port n)) ++
    ((List.range 8).filter fun n => bitAt (bind n) 26).map (fun n => (8 + (bits (bind n) 19 1).toNat, (bits (bind n) 15 4).toNat)) ++
    ((List.range 2).filter fun j =>
      let b := agBinding v ⟨site, BitVec.ofNat 1 j⟩
      !bitAt b 4 && decide (bits b 12 4 ≠ 0#4)).map fun j => agOut v ⟨site, BitVec.ofNat 1 j⟩
  | _ =>
    let b := engBinding v site
    (if bitAt b 34 then [(8, (bits b 16 4).toNat)] else []) ++ (if bitAt b 35 then [(8, (bits b 20 4).toNat)] else [])

/-- The place of a router input by its buffer key: site, port, VC. -/
def keyPlace (k : Nat) : BitVec 12 × Nat × Nat := (BitVec.ofNat 12 ((k - 65536) / 256), (k - 65536) / 16 % 16, (k - 65536) % 16)

/-- The key of a buffer belongs to an element or an operator of an instance: the skid entries of a router input are those of the region
whose routing entry stands there; without one, those of the region whose output sends into it (R168, R227). -/
def instBuf (s : State) (i : Inst) (k : Nat) : Bool :=
  if k < 65536 then
    let e := k % 16
    i.elems.contains (k / 16 * 4 + (if e = 8 then 1 else if e = 9 then 2 else 0))
  else if k < 2097152 then
    match Table.get none s.fab.routes k with
    | some r => decide (r.inst = i.id)
    | none =>
      let p := keyPlace k
      decide (8 ≤ p.2.1) && i.elems.contains (p.1.toNat * 4) && (localOuts s p.1).contains p.2
  else i.ops.contains (BitVec.ofNat 12 ((k - 2097152) / 16), BitVec.ofNat 2 ((k - 2097152) / 4))

/-- A frame of an element or an operator slot of an instance, by its key. -/
def instFrame (i : Inst) (k : Nat) : Bool :=
  let idx := k % 65536
  let sub := k / 65536 % 4
  let cls := k / 262144 % 16
  let site := k / 4194304
  if cls = 4 then decide (16 ≤ idx) && i.ops.contains (BitVec.ofNat 12 site, BitVec.ofNat 2 idx)
  else i.elems.contains (site * 4 + (if cls = 3 then 1 + sub else 0))

/-- Give up every line of an instance's tiles: dirty ones go to their tier or their overlay. -/
def emptyStash (s : State) (i : Inst) : State :=
  (instMts i).foldl (fun s site => (getMt s site).lines.foldl (fun s l => evict s site l) s) s

/-- What an instance holds in fact: one that takes over another's elements has only those that have flipped to it (R52). -/
def ownParts (s : State) (i : Inst) : Inst :=
  let stays (x : BitVec 12 × BitVec 2) : Bool := s.dist.insts.any fun o => decide (some o.id = i.onto) && o.ops.contains x
  { i with elems := i.elems.filter fun e => decide (Table.get 0 s.fab.owner e = i.id + 1), ops := i.ops.filter fun x => !stays x }

/-- An instance that waits to take over elements of another (R52) (DEDUCED, log 103). -/
def takesOver (s : State) (i j : Inst) : Bool :=
  decide (j.onto = some i.id) && decide (j.st ≠ .ended) && j.elems.any fun e => decide (Table.get 0 s.fab.owner e = i.id + 1)

/-- The running state of an instance's elements, channels and operators goes, and its elements are to be zeroed. -/
def dropParts (s : State) (whole : Inst) : State :=
  let i := ownParts s whole
  let keep {α : Type} (own : Nat → Bool) (t : Table α) : Table α := t.filter fun x => !own x.1
  let el (k : Nat) : Bool := i.elems.contains (k * 4)
  let owner := i.elems.foldl (fun t e => Table.set 0 t e 0) s.fab.owner
  let zeroing := i.elems.foldl (fun t e => Table.set false t e true) s.fab.zeroing
  let ofRoute (k : Nat) : Bool :=
    match Table.get none s.fab.routes k with
    | some r => decide (r.inst = i.id)
    | none => false
  let fab : Fabric :=
    { s.fab with
      bufs := keep (instBuf s i) s.fab.bufs
      routes := keep ofRoute s.fab.routes
      ops := keep (fun k => i.ops.contains (BitVec.ofNat 12 (k / 4), BitVec.ofNat 2 k)) s.fab.ops
      frames := keep (instFrame i) s.fab.frames
      shadow := keep (instFrame whole) s.fab.shadow
      owner := owner
      zeroing := zeroing
      ces := keep el s.fab.ces
      mts := keep el s.fab.mts
      ags := keep (fun k => i.elems.contains (k / 2 * 4 + 1 + k % 2)) s.fab.ags
      cps := keep el s.fab.cps
      stes := keep el s.fab.stes }
  { s with fab := fab }

/-- A region returns to the free set (R51): what its tiles still hold dirty reaches its tier (DEDUCED, log 78). -/
def freeRegion (s : State) (i : Inst) : State :=
  let tenant := tenantOf (findNode s i.node)
  let s := (s.dist.insts.filter (takesOver s i)).foldl (fun s j => abortNode s j.node 0#16) s
  let s := emptyStash s (ownParts s i)
  let s := releasePend s (fun x => decide (x.inst = some i.id)) (.writeBack i.id) tenant scopeTenant
  let s := dropParts (dropWalks s i) i
  { s with dist := { s.dist with
      insts := s.dist.insts.filter fun j => decide (j.id ≠ i.id)
      saves := s.dist.saves.filter fun v => decide (v.inst ≠ i.id) } }

/-! ## Completion (R51) -/

/-- The node's writes become visible at the scope of its outermost level; a clamped release is counted and marked in its regions
(R108). -/
def releaseNode (s : State) (n : Node) : State :=
  let insts := nodeInsts s n
  let s := if n.clamps n.outer then countClamp (insts.foldl (fun s i => setEstat s (some i) 1#32) s) n else s
  insts.foldl (fun s i => releaseRegion s i (n.scope n.outer)) s

/-- Writes of a node are still on their way to a peer (R51, R105). -/
def nodeWrites (s : State) (n : Node) : Bool := n.insts.any fun i => writesAway s i

/-- The first step of a completion (R51): the node's writes become visible. -/
def closeNode (s : State) (id : Nat) : State :=
  match findNode s id with
  | none => s
  | some n => modNode (releaseNode s n) id fun n => { n with st := .closing }

/-- The other steps of a completion, in order (R51): record and sync word, notice, releases, regions (DESIGN CHOICE, log 164). -/
def finishNode (s : State) (id : Nat) : State :=
  match findNode s id with
  | none => s
  | some n =>
    let s := writeCompletion s n
    let s := writeNotice s n
    let s := if !n.firmware && decide (nodeErr s n ≠ 0#16) then raiseMsix s n.sub 0 else s
    let insts := nodeInsts s n
    let s := modNode s id fun n => { n with st := .complete, gateAt := none, ranges := [], reissue := [] }
    let s := (relTags n).foldl (sendRelease n.tenant) s
    let s := insts.foldl freeRegion s
    retire { s with dist := { s.dist with holdback := s.dist.holdback.filter fun h => decide (h ≠ id) } } id

/-- A node completes at once, or, where writes of it are still on their way to a peer, as soon as these have arrived (R51). -/
def completeNode (s : State) (id : Nat) : State :=
  let s := closeNode s id
  match findNode s id with
  | none => s
  | some n => if nodeWrites s n then s else finishNode s id

/-- A node is refused (R385, R386): its instances are abandoned, LSTAT and LSCODE take the code, and it completes at once. -/
def refuseNode (s : State) (id : Nat) (code : BitVec 8) : State :=
  match findNode s id with
  | none => s
  | some n =>
    let f := getFn s n.sub
    let s := setFn s n.sub { f with rej := true, lasterr := code }
    let s := modNode s id fun n => { n with err := n.err ||| 8#16, lscode := code }
    let own (i : Nat) : Bool := n.insts.contains i
    let insts := mapWhere (fun i => own i.id) (fun (i : Inst) => { i with st := .ended }) s.dist.insts
    completeNode { s with dist := { s.dist with insts := insts } } id

/-! ## Zeroing (R179, R424) -/

/-- The bytes and side arrays of a scratchpad go. -/
def zeroSpad (s : State) (site : Site) : State :=
  let out {α : Type} (w : Nat) (t : Table α) : Table α := t.filter fun x => decide (x.1 / w ≠ site.toNat)
  { s with store := { s.store with
      spad := out (2 ^ 20) s.store.spad, spadDesc := out (2 ^ 14) s.store.spadDesc, spadPsn := out (2 ^ 14) s.store.spadPsn } }

/-- An element's own state after zeroing (R179) (DEDUCED, log 79): an HPU keeps its slots and registers (R420). -/
def zeroElement (s : State) (site : Site) (sub : Nat) : State :=
  if sub ≠ 0 then { s with fab := { s.fab with ags := Table.erase s.fab.ags (site.toNat * 2 + (sub - 1)) } }
  else
    match siteKind site with
    | .ce => { s with fab := { s.fab with ces := Table.erase s.fab.ces site.toNat } }
    | .mt => { zeroSpad s site with fab := { s.fab with mts := Table.erase s.fab.mts site.toNat } }
    | .mx => { s with fab := { s.fab with mxs := Table.erase s.fab.mxs site.toNat } }
    | .cp => { s with fab := { s.fab with cps := Table.erase s.fab.cps site.toNat } }
    | _ => s

/-- OWNER_CHANGE_ZEROING (R179, R424): a freed element has been zeroed and counts as free; a read-back error withdraws an MT, MX or CE
until reset, counts as a tile error, and raises vector 2 of the PF. -/
def execOwnerChangeZeroing (site : BitVec 12) (sub : BitVec 2) (ok : BitVec 1) (s : State) : Host.Outcome State Fault Refusal :=
  let k := site.toNat * 4 + sub.toNat
  if Table.get false s.fab.zeroing k ∧ !(getDie s (siteDie site)).fenced then
    let s := zeroElement s site sub.toNat
    let s := { s with fab := { s.fab with zeroing := Table.set false s.fab.zeroing k false } }
    if ok = 1#1 then .next s
    else
      let n := Table.get 0 s.life.live.uncSite site.toNat
      let live := { s.life.live with uncSite := Table.set 0 s.life.live.uncSite site.toNat (n + 1) }
      let s := { s with fab := { s.fab with withdrawn := Table.set false s.fab.withdrawn k true }, life := { s.life with live := live } }
      .next (raiseMsix s 0#10 2)
  else .next s

end Sys2Proof.Machine
end

