-- ==== Sys2Proof/Machine/EngDesc.lean ====
section
/-! DEFINITION. The descriptors that engine commands name (R138, R153, R349, R354), the footprints of jobs (R341), and the start of
a job (R49, R109). -/

namespace Sys2Proof.Machine

/-- Round a byte count up to a multiple of 64 (R140). -/
def ceil64 (n : Nat) : Nat := (n + 63) / 64 * 64

/-! ## Copy descriptors (R349) -/

/-- A copy descriptor. -/
abbrev CopyDesc := BitVec 512

/-- SRC as an address -/
def CopyDesc.src (d : CopyDesc) : Nat := (bits d 0 56).toNat

/-- DST -/
def CopyDesc.dst (d : CopyDesc) : Nat := (bits d 64 56).toNat

/-- SRCSITE -/
def CopyDesc.srcSite (d : CopyDesc) : Site := bits d 128 12

/-- DSTSITE -/
def CopyDesc.dstSite (d : CopyDesc) : Site := bits d 140 12

/-- SKIND -/
def CopyDesc.skind (d : CopyDesc) : Nat := (bits d 152 2).toNat

/-- DKIND -/
def CopyDesc.dkind (d : CopyDesc) : Nat := (bits d 154 2).toNat

/-- ROWS -/
def CopyDesc.rows (d : CopyDesc) : Nat := (bits d 160 16).toNat

/-- ROWB -/
def CopyDesc.rowb (d : CopyDesc) : Nat := (bits d 192 32).toNat

/-- SSTR -/
def CopyDesc.sstr (d : CopyDesc) : Int := (bits d 224 32).toInt

/-- DSTR -/
def CopyDesc.dstr (d : CopyDesc) : Int := (bits d 256 32).toInt

/-- The blocks of a row. -/
def CopyDesc.rowBlocks (d : CopyDesc) : Nat := d.rowb / 64

/-- The blocks of the copy. -/
def CopyDesc.blocks (d : CopyDesc) : Nat := d.rows * d.rowBlocks

/-- The address of block `b` of a side with a base and a stride, modulo 2^56. -/
def CopyDesc.at (d : CopyDesc) (base : Nat) (str : Int) (b : Nat) : Nat :=
  (BitVec.ofInt 56 ((base : Int) + (b / d.rowBlocks : Nat) * str + (64 * (b % d.rowBlocks) : Nat))).toNat

/-- The source address of block `b`. -/
def CopyDesc.srcAt (d : CopyDesc) (b : Nat) : Nat := d.at d.src d.sstr b

/-- The destination address of block `b`. -/
def CopyDesc.dstAt (d : CopyDesc) (b : Nat) : Nat := d.at d.dst d.dstr b

/-! ## Tree descriptors (R138, R140) -/

/-- A tree descriptor. -/
abbrev TreeDesc := BitVec 1024

/-- POOL -/
def TreeDesc.pool (d : TreeDesc) : Nat := (bits d 0 56).toNat

/-- LOG -/
def TreeDesc.log (d : TreeDesc) : Nat := (bits d 64 56).toNat

/-- ROOT -/
def TreeDesc.root (d : TreeDesc) : Nat := (bits d 128 32).toNat

/-- TOKENS -/
def TreeDesc.tokens (d : TreeDesc) : Nat := (bits d 160 32).toNat

/-- D -/
def TreeDesc.dim (d : TreeDesc) : Nat := (bits d 272 9).toNat

/-- F -/
def TreeDesc.fan (d : TreeDesc) : Nat := 2 ^ ((bits d 281 2).toNat + 1)

/-- L -/
def TreeDesc.leafCap (d : TreeDesc) : Nat := 2 ^ ((bits d 283 3).toNat + 1)

/-- KFMT -/
def TreeDesc.kfmt (d : TreeDesc) : BitVec 8 := bits d 288 8

/-- VFMT -/
def TreeDesc.vfmt (d : TreeDesc) : BitVec 8 := bits d 296 8

/-- KTYPE -/
def TreeDesc.ktype (d : TreeDesc) : Nat := (bits d 304 2).toNat

/-- VTYPE -/
def TreeDesc.vtype (d : TreeDesc) : Nat := (bits d 306 2).toNat

/-- LEVELS -/
def TreeDesc.levels (d : TreeDesc) : Nat := (bits d 312 8).toNat

/-- NODES -/
def TreeDesc.nodes (d : TreeDesc) : Nat := (bits d 320 32).toNat

/-- FREE -/
def TreeDesc.free (d : TreeDesc) : Nat := (bits d 352 32).toNat

/-- NFREE -/
def TreeDesc.nfree (d : TreeDesc) : Nat := (bits d 416 32).toNat

/-- The width of the elements of a narrow format code (R116). -/
def codeWidth (code : BitVec 8) : Nat := if bitAt code 7 then 4 else 8

/-- The blocks that a vector of `d` elements of a type takes in memory or as tokens (R140, R342). -/
def vecBlocks (ty : Nat) (code : BitVec 8) (d : Nat) : Nat :=
  match ty with
  | 0 => (4 * d + 63) / 64
  | 3 => (d * codeWidth code + 511) / 512
  | _ => (2 * d + 63) / 64

/-- KB (R140) -/
def TreeDesc.kb (d : TreeDesc) : Nat := 64 * vecBlocks d.ktype d.kfmt d.dim

/-- VB (R140) -/
def TreeDesc.vb (d : TreeDesc) : Nat := 64 * vecBlocks d.vtype d.vfmt d.dim

/-- The node stride S (R140). -/
def TreeDesc.size (d : TreeDesc) : Nat := 128 + 2 * ceil64 (4 * d.dim) + d.leafCap * (d.kb + d.vb)

/-- The limits of R138: reserved bits, codes and ranges; THETA is not below zero, and not a NaN. -/
def TreeDesc.ok (d : TreeDesc) : Bool :=
  decide (bits d 448 576 = 0#576) && decide (bits d 400 16 = 0#16) && decide (bits d 308 4 = 0#4) &&
  decide (bits d 286 2 = 0#2) && decide (bits d 120 8 = 0#8) && decide (bits d 56 8 = 0#8) &&
  decide (1 ≤ d.nodes) && decide (d.nodes ≤ 2 ^ 24) && decide ((bits d 283 3).toNat ≤ 4) &&
  decide (d.dim % 4 = 0) && decide (4 ≤ d.dim) && decide (d.dim ≤ 256) && decide (d.log % 4 = 0) && decide (d.pool % 64 = 0) &&
  (fcompare 2 0#32 (bits d 192 32)).1

/-- The dimension lies within its limits, so that the input count is determined (R340). -/
def TreeDesc.dimOk (d : TreeDesc) : Bool := decide (d.dim % 4 = 0) && decide (4 ≤ d.dim) && decide (d.dim ≤ 256)

/-! ## Set descriptors and family registers (R153, R154) -/

/-- A set descriptor. -/
abbrev SetDesc := BitVec 1024

/-- A family register. -/
abbrev FamReg := BitVec 128

/-- BKT_j -/
def SetDesc.bkt (d : SetDesc) (j : Nat) : Nat := (bits d (512 + 64 * j) 56).toNat

/-- POOLBASE -/
def SetDesc.poolBase (d : SetDesc) : Nat := (bits d 448 56).toNat

/-- POOLN -/
def SetDesc.poolN (d : SetDesc) : Nat := (bits d 416 32).toNat

/-- POOLFREE -/
def SetDesc.poolFree (d : SetDesc) : Nat := (bits d 384 32).toNat

/-- ROWBASE -/
def SetDesc.rowBase (d : SetDesc) : Nat := (bits d 320 56).toNat

/-- ROWSTRIDE -/
def SetDesc.rowStride (d : SetDesc) : Nat := (bits d 288 32).toNat

/-- ROWS -/
def SetDesc.rows (d : SetDesc) : Nat := (bits d 256 32).toNat

/-- REHPOS -/
def SetDesc.rehpos (d : SetDesc) : Nat := (bits d 224 32).toNat

/-- ROWFMT -/
def SetDesc.rowFmt (d : SetDesc) : BitVec 8 := bits d 216 8

/-- ROWTYPE -/
def SetDesc.rowType (d : SetDesc) : Nat := (bits d 208 2).toNat

/-- DIN -/
def SetDesc.din (d : SetDesc) : Nat := (bits d 192 16).toNat

/-- NEXTREG -/
def SetDesc.nextReg (d : SetDesc) : Nat := (bits d 188 4).toNat

/-- CURREG -/
def SetDesc.curReg (d : SetDesc) : Nat := (bits d 184 4).toNat

/-- MPROBE -/
def SetDesc.mprobe (d : SetDesc) : Nat := (bits d 180 4).toNat

/-- POLICY -/
def SetDesc.pol (d : SetDesc) : Nat := (bits d 178 2).toNat

/-- CAP -/
def SetDesc.cap (d : SetDesc) : Nat := (bits d 168 8).toNat

/-- BSZ (R156) -/
def SetDesc.bsz (d : SetDesc) : Nat := ceil64 (8 + 4 * d.cap)

/-- VERSION -/
def FamReg.version (r : FamReg) : BitVec 16 := bits r 112 16

/-- HFMT -/
def FamReg.hfmt (r : FamReg) : BitVec 8 := bits r 104 8

/-- VALID -/
def FamReg.valid (r : FamReg) : Bool := bitAt r 97

/-- TYPE -/
def FamReg.rotated (r : FamReg) : Bool := bitAt r 96

/-- B -/
def FamReg.keyBits (r : FamReg) : Nat := (bits r 91 5).toNat

/-- T -/
def FamReg.tabs (r : FamReg) : Nat := (bits r 87 4).toNat + 1

/-- HBASE -/
def FamReg.hbase (r : FamReg) : Nat := (bits r 0 56).toNat

/-- The width of a hyperplane's elements (R154): raw bf16 with HFMT = 0xFF. -/
def FamReg.planeWidth (r : FamReg) : Nat := if r.hfmt = 0xFF#8 then 16 else codeWidth r.hfmt

/-- The bytes from one hyperplane to the next. -/
def FamReg.planeStep (r : FamReg) (din : Nat) : Nat := ceil64 ((din * r.planeWidth + 7) / 8)

/-- DIN lies within its limits, so that a probe's input count is determined (R153, R340) (DEDUCED, log 71). -/
def SetDesc.dinOk (d : SetDesc) : Bool := decide (d.din % 16 = 0) && decide (16 ≤ d.din) && decide (d.din ≤ 8192)

/-- The set slot that a command of an HPU names. -/
def cmdSlot (s : State) (eng : EngId) (c : BitVec 88) : SetSlot :=
  vget SetSlot.empty (getHpu s (engSite eng)).slots (bits c 56 4).toNat

/-! ## Reduction descriptors (R354) -/

/-- A reduction descriptor. -/
abbrev RedDesc := BitVec 512

/-- RTAB -/
def RedDesc.rtab (d : RedDesc) : Nat := (bits d 0 56).toNat

/-- NRANK -/
def RedDesc.nrank (d : RedDesc) : Nat := (bits d 172 12).toNat

/-! ## Footprints (R341) -/

/-- Two blocks as one descriptor of 1,024 bits. -/
def joinBlocks (lo hi : Block) : BitVec 1024 := hi ++ lo

/-- A descriptor of 128 bytes as its scheduler reads it. -/
def peekDesc (s : State) (j : Job) (va : Nat) : Option (BitVec 1024) :=
  match peekBlock s j va, peekBlock s j (va + 64) with
  | some a, some b => some (joinBlocks a.data b.data)
  | _, _ => none

/-- An address at a signed multiple of 64 from another (R358). -/
def relAddr (va : Nat) (rel : Word) : Nat := (BitVec.ofInt 56 (va + 64 * rel.toInt)).toNat

/-- The words that a job runs. -/
def jobWords (s : State) (j : Job) : List (BitVec 128) :=
  if j.prog then (List.range (lastEntry s (engSite j.eng) + 1)).map fun i => engProgWord s (engSite j.eng) i else [j.word]

/-- The set descriptors that a word of a job may find bound to its slot: the bound one, and those that earlier HFAMs of the slot, which have
not ended, will bind (R159, R360). -/
def slotSets (s : State) (j : Job) (c : BitVec 88) : List Nat :=
  let sl := cmdSlot s j.eng c
  (if sl.bound then [sl.va.toNat] else []) ++
  ((s.dist.jobs.filter fun k => decide (k.eng = j.eng) && decide (k.id < j.id) && !k.ended).flatMap fun k =>
    (jobWords s k).filterMap fun w =>
      if opcOfWord w = 0x40#8 ∧ (bits w 56 4 : BitVec 4) = bits c 56 4 then some (bits w 0 56 : BitVec 56).toNat else none)

/-- The footprint of what a command word of a job names directly: descriptors, the blocks of MXLDB, and HYPQRY's record. -/
def cmdDirect (s : State) (j : Job) (w : BitVec 128) : List FootEnt :=
  let c : BitVec 88 := bits w 0 88
  let va := (bits c 0 56).toNat
  let opc := (opcOfWord w).toNat
  if opc = 0x10 then (if bitAt c 61 then [] else [⟨va, 64 * ((bits c 62 13).toNat + 1), 1#2⟩])
  else if 0x20 ≤ opc ∧ opc ≤ 0x26 then [⟨va, 64, 1#2⟩]
  else if opc = 0x34 then [⟨va, 128, 3#2⟩, ⟨relAddr va (bits c 56 32), 128, 3#2⟩]
  else if 0x30 ≤ opc ∧ opc ≤ 0x37 then [⟨va, 128, 3#2⟩]
  else if opc = 0x40 then [⟨va, 128, 3#2⟩]
  else if 0x41 ≤ opc ∧ opc ≤ 0x45 then
    (slotSets s j c).map fun va => ⟨va, 128, 3#2⟩
  else if opc = 0x52 then [⟨va, 64, 2#2⟩]
  else []

/-- The rows of a copy's global side. -/
def copyRows (d : CopyDesc) (base : Nat) (str : Int) (mode : BitVec 2) : List FootEnt :=
  (List.range d.rows).map fun r => ⟨d.at base str (r * d.rowBlocks), d.rowb, mode⟩

/-- The footprint that a command's descriptor completes. -/
def cmdIndirect (s : State) (j : Job) (w : BitVec 128) : List FootEnt :=
  let c : BitVec 88 := bits w 0 88
  let va := (bits c 0 56).toNat
  let opc := (opcOfWord w).toNat
  if 0x20 ≤ opc ∧ opc ≤ 0x24 then
    match peekBlock s j va with
    | some b =>
      let d : CopyDesc := b.data
      (if d.skind = 0 ∧ opc ≠ 0x21 then copyRows d d.src d.sstr 1#2 else []) ++
      (if d.dkind = 0 then copyRows d d.dst d.dstr 2#2 else [])
    | none => []
  else if opc = 0x25 ∨ opc = 0x26 then
    match peekBlock s j va with
    | some b => [⟨RedDesc.rtab b.data, 2 * RedDesc.nrank b.data, 1#2⟩]
    | none => []
  else if 0x30 ≤ opc ∧ opc ≤ 0x37 then
    match peekDesc s j va with
    | some d =>
      let t : TreeDesc := d
      [⟨t.pool, t.nodes * t.size, 3#2⟩, ⟨t.log, 4 * t.nodes * t.leafCap, 3#2⟩] ++
      (if opc = 0x33 then [⟨relAddr va (bits c 56 32), 64 + 2 * ceil64 (4 * t.dim), 2#2⟩] else [])
    | none => []
  else if 0x40 ≤ opc ∧ opc ≤ 0x45 then
    let sl := cmdSlot s j.eng c
    (if opc = 0x40 then [va] else slotSets s j c).flatMap fun va =>
    match peekDesc s j va with
    | some d =>
      let t : SetDesc := d
      let reg (i : Nat) : FamReg := vget 0#128 sl.regs i
      ((List.range 8).map fun i => ⟨t.bkt i, (reg i).tabs * 2 ^ (reg i).keyBits * t.bsz, 3#2⟩) ++
      ((List.range 8).map fun i => ⟨(reg i).hbase, (reg i).tabs * (reg i).keyBits * (reg i).planeStep t.din, 1#2⟩) ++
      [⟨t.poolBase, 64 * t.poolN, 3#2⟩, ⟨t.rowBase, t.rowStride * t.rows, 1#2⟩]
    | none => []
  else []

/-- What a job's words name directly. -/
def jobDirect (s : State) (j : Job) : List FootEnt := (jobWords s j).flatMap fun w => cmdDirect s j w

/-- A job's footprint. -/
def jobFoot (s : State) (j : Job) : List FootEnt :=
  (jobWords s j).flatMap fun w => cmdDirect s j w ++ cmdIndirect s j w

/-! ## Order and start (R109, R49, R48) -/

/-- The earlier jobs of a job's tenant; an update that its hypothesis holds at an HPU has not entered the order (R159). -/
def earlierJobs (s : State) (j : Job) : List Job :=
  s.dist.jobs.filter fun k => decide (k.id < j.id) && decide (jobTenant s k = jobTenant s j) && !k.waitsHyp

/-- The footprints of the earlier nodes and jobs of a job's tenant that have not completed; the issuing node is not one (DEDUCED,
log 41). -/
def earlierFoot (s : State) (j : Job) : List FootEnt :=
  let own := (jobNode s j).map fun n => n.id
  ((s.dist.nodes.filter fun n => decide (n.id < j.id) && decide (n.tenant = jobTenant s j) && decide (n.st ≠ .complete) &&
    decide (some n.id ≠ own)).flatMap fun n => n.foot) ++ (earlierJobs s j).flatMap fun k => jobFoot s k

/-- The descriptors that the job names directly are in order, so its footprint is known (R341). -/
def jobSettled (s : State) (j : Job) : Bool := !footOverlap (jobDirect s j) (earlierFoot s j)

/-- Every earlier node or job that overlaps the job has completed (R109). -/
def mayStart (s : State) (j : Job) : Bool :=
  jobSettled s j && ((earlierJobs s j).all fun k => jobSettled s k) && !footOverlap (jobFoot s j) (earlierFoot s j)

/-- The engine can take the job: an MX runs one program at a time, a shared engine one job, held updates aside (R48, R49, R159). -/
def engineFree (s : State) (j : Job) : Bool :=
  !(s.dist.jobs.any fun k => decide (k.eng = j.eng) && k.started && decide (k.id ≠ j.id) && !k.waitsHyp &&
    (!engIsMx j.eng || (k.prog && j.prog)))

/-- The region of a job lets it start, or is at an end (R173, R383); a shared engine starts its jobs up to the save (R174, R423). -/
def jobRegionOk (s : State) (j : Job) : Bool :=
  match jobInst s j with
  | some i => regionRuns (some i) || decide (i.st = .ended) || (!engIsMx j.eng && !jobParked s j)
  | none => true

/-- The job can be started. -/
def startable (s : State) (j : Job) : Bool := !j.started && !j.ended && engineFree s j && jobRegionOk s j && mayStart s j

/-- Jobs that a class scheduler has served to a tenant in this round. -/
def servedTo (x : Sched) (t : BitVec 16) : Nat :=
  match x.served.find? fun y => decide (y.1 = t) with
  | some y => y.2
  | none => 0

/-- The scheduler of a class. -/
def getSched (s : State) (cls : Nat) : Sched := Table.get ⟨[], []⟩ s.dist.sched cls

/-- The weights that a round which begins now takes (R169). -/
def policyWeights (s : State) : Table (BitVec 16) := s.fns.map fun kf => (kf.1, bits kf.2.policy 4 16)

/-- The weights of the round that a scheduler is in, or of the one that begins with its next job. -/
def roundWeights (s : State) (x : Sched) : Table (BitVec 16) := if x.served.isEmpty then policyWeights s else x.weights

/-- The weight of a job's function in the scheduler of an engine class (R49, R169): 0 is taken as 1. Behind a record of the PF stands the
VF that R170 gives. -/
def jobWeight (s : State) (cls : Nat) (j : Job) : Nat :=
  let fn := match jobNode s j with
    | some n => (nodeVf s n).toNat
    | none => 0
  let w : BitVec 16 := Table.get (bits policyReset 4 16) (roundWeights s (getSched s cls)) fn
  let v := if cls ≤ 5 then (bits w (4 * (5 - cls)) 4 : BitVec 4).toNat else 1
  if v = 0 then 1 else v

/-- Count a job served to its tenant. -/
def serve (s : State) (cls : Nat) (t : BitVec 16) (anew : Bool) : State :=
  let x := if anew then ⟨[], []⟩ else getSched s cls
  let y : Sched := ⟨(t, servedTo x t + 1) :: x.served.filter fun z => decide (z.1 ≠ t), roundWeights s x⟩
  { s with dist := { s.dist with sched := Table.set ⟨[], []⟩ s.dist.sched cls y } }

/-- The tenant of the job still has a job in this round (R49). -/
def inRound (s : State) (cls : Nat) (j : Job) : Bool := decide (servedTo (getSched s cls) (jobTenant s j) < jobWeight s cls j)

/-- The job that starts next at an engine, and whether a new round begins with it (R49) (DESIGN CHOICE, log 42). -/
def pickJob (s : State) (eng : EngId) : Option (Job × Bool) :=
  let cls := engineClass eng
  let mine := s.dist.jobs.filter fun j => decide (j.eng = eng) && startable s j
  if cls ≤ 1 then mine.head?.map fun j => (j, false)
  else
    match mine.find? fun j => inRound s cls j with
    | some j => some (j, false)
    | none =>
      if s.dist.jobs.any fun j => decide (engineClass j.eng = cls) && startable s j && inRound s cls j then none
      else mine.head?.map fun j => (j, true)

/-- JOB_START (R109, R49, R48): a scheduler starts the job that is next at an engine; one that a save has stopped within a command
goes on there (R174). -/
def execJobStart (eng : BitVec 13) (s : State) : Host.Outcome State Fault Refusal :=
  match (if engHalted s eng || (engPlaced eng && dieStops s (engSite eng)) then none else pickJob s eng) with
  | none => .next s
  | some (j, anew) =>
    let s := serve s (engineClass eng) (jobTenant s j) anew
    .next (modJob s j.id fun k => { k with started := true, run := if k.run.fresh then freshRun s else k.run })

end Sys2Proof.Machine
end

