-- ==== Sys2Proof/Machine/Image.lean ====
section
/-! DEFINITION. Image files and frames (R214 to R219): the header, argument bindings, the move of a placed image by a block translation
(R36, R216), and what a frame receiver checks of one frame (R220 to R242). -/

namespace Sys2Proof.Machine

/-! ## Codes of the loader (R385) -/

/-- LS_BAD_OPCODE -/
def lsBadOpcode : BitVec 8 := 1#8

/-- LS_BAD_SELECTOR -/
def lsBadSelector : BitVec 8 := 2#8

/-- LS_SLOT_CTRL -/
def lsSlotCtrl : BitVec 8 := 3#8

/-- LS_SCOPE_NO_BOUNDARY -/
def lsScope : BitVec 8 := 4#8

/-- LS_TOPOLOGY -/
def lsTopology : BitVec 8 := 5#8

/-- LS_CYCLE_NO_TOKEN -/
def lsCycle : BitVec 8 := 6#8

/-- LS_HEADER_SIZE -/
def lsHeader : BitVec 8 := 7#8

/-- LS_NO_RESOURCES -/
def lsNoResources : BitVec 8 := 8#8

/-- LS_RESIDENCY_TIMEOUT -/
def lsResidency : BitVec 8 := 9#8

/-- LS_DATA_FAULT -/
def lsDataFault : BitVec 8 := 0x0A#8

/-- LS_SLOTS_ROUNDED, no refusal -/
def lsRounded : BitVec 8 := 0x80#8

/-- The refusal for what the decoder refuses (R220): a reserved opcode, or a reserved bit. -/
def lsOfReject : Reject → BitVec 8
  | .reservedOpcode => lsBadOpcode
  | _ => lsBadSelector

/-- A check of the loader: nothing, or a refusal with its code. -/
abbrev Check := Except (BitVec 8) Unit

/-- A condition that must hold, or the loader refuses with a code. -/
def must (code : BitVec 8) (b : Bool) : Check := if b then .ok () else .error code

/-- A check on every element of a list, in order. -/
def eachOf {α : Type} (xs : List α) (f : α → Check) : Check := xs.forM f

/-! ## Frame addresses (R214) -/

/-- A frame: its address and its payload. -/
abbrev Frame := BitVec 64 × BitVec 256

/-- CLASS -/
def Frame.cls (f : Frame) : Nat := (bits f.1 60 4).toNat

/-- SUB -/
def Frame.sub (f : Frame) : Nat := (bits f.1 44 2).toNat

/-- BANK -/
def Frame.bank (f : Frame) : Bool := bitAt f.1 40

/-- INDEX -/
def Frame.idx (f : Frame) : Nat := (bits f.1 0 16).toNat

/-- The site that DIE, X and Y name. -/
def Frame.site (f : Frame) : Site := siteIndex (bits f.1 58 2) (bits f.1 52 5) (bits f.1 46 5)

/-- The ordinal that stands in the same bits of a portable graph. -/
def Frame.ordinal (f : Frame) : Nat := (bits f.1 46 14).toNat

/-- X and Y of the address name a site of a die (R215). -/
def Frame.onDie (f : Frame) : Bool := !bitAt f.1 57 && !bitAt f.1 51

/-- A frame of an element or router, as against the image's control frames. -/
def Frame.placed (f : Frame) : Bool := decide (f.cls ≠ 15)

/-- The records of an image file (R217): 40 bytes each; what is left over at the end is no record (DESIGN CHOICE, log 149). -/
def parseImage : Nat → List Byte → List Frame
  | 0, _ => []
  | n + 1, bs =>
    if bs.length < 40 then []
    else (BitVec.ofNat 64 (leNat (bs.take 8)), BitVec.ofNat 256 (leNat ((bs.drop 8).take 32))) :: parseImage n (bs.drop 40)

/-- The image control frame at an index, 0 where there is none. -/
def ctlFrame (fs : List Frame) (idx : Nat) : BitVec 256 :=
  match fs.find? fun f => decide (f.cls = 15) && decide (f.idx = idx) with
  | some f => f.2
  | none => 0#256

/-! ## The header (R218) -/

/-- The image header: the payload of the file's first record, which is the class 15 frame with INDEX 0 (R217); 0 where it is another
record, and so without MAGIC. -/
def header (fs : List Frame) : BitVec 256 :=
  match fs with
  | f :: _ => if f.cls = 15 ∧ f.idx = 0 then f.2 else 0#256
  | [] => 0#256

/-- The element demand of an image for a kind. -/
def demand (fs : List Frame) : Kind → Nat
  | .ce => (bits (header fs) 32 16).toNat
  | .mt => (bits (header fs) 48 16).toNat
  | .ag => (bits (header fs) 64 16).toNat
  | .mx => (bits (header fs) 80 16).toNat
  | .ste => (bits (header fs) 96 16).toNat
  | .hpu => (bits (header fs) 112 16).toNat
  | .cp => (bits (header fs) 128 16).toNat

/-- The element kinds. -/
def allKinds : List Kind := [.ce, .mt, .ag, .mx, .ste, .hpu, .cp]

/-- NGLOB -/
def globCount (fs : List Frame) : Nat := (bits (header fs) 144 16).toNat

/-- The number of argument bindings. -/
def bindCount (fs : List Frame) : Nat := (bits (header fs) 192 16).toNat

/-- FIXED -/
def imageFixed (fs : List Frame) : Bool := bitAt (header fs) 1

/-- The addresses of some frames differ from one another. -/
def distinctAddr (fs : List Frame) : Bool := (fs.map fun f => f.1).Nodup

/-- An argument binding (R219). -/
def binding (fs : List Frame) (k : Nat) : BitVec 128 := bits (ctlFrame fs (0x100 + k / 2)) (128 * (k % 2)) 128

/-- The target of a binding is a record of the image, and of class 15 only bytes of a data block; its field lies in the payload. -/
def bindingOk (fs : List Frame) (b : BitVec 128) : Bool :=
  let t : Frame := (bits b 0 64, 0#256)
  let i := t.idx - 0x4000
  decide (bits b 83 45 = 0#45) && decide ((bits b 72 6).toNat ≤ 31) && decide ((bits b 64 8).toNat + (bits b 72 6).toNat ≤ 255) &&
  (fs.any fun f => decide (f.1 = t.1)) &&
  (decide (t.cls ≠ 15) || (decide (0x4000 ≤ t.idx) && (decide (i % 4 = 1) || decide (i % 4 = 2))))

/-- An image control frame stands at an INDEX of R219 for its kind of image. -/
def ctlIndexOk (kind : Bool) (f : Frame) : Bool :=
  let i := f.idx
  decide (i = 0) || (decide (0x100 ≤ i) && decide (i ≤ 0x1FF)) ||
  (kind && ((decide (0x400 ≤ i) && decide (i ≤ 0x4FF)) || (decide (0x800 ≤ i) && decide (i ≤ 0xFFF)))) ||
  (decide (0x4000 ≤ i) && (i - 0x4000) % 4 != 3)

/-- The address of an image control frame names no site: DIE, X, Y, SUB and BANK are 0, and so are the reserved bits (R214, R215). -/
def ctlAddrOk (f : Frame) : Bool := decide (bits f.1 16 44 = 0#44)

/-- The kind code of an ordinal of a portable graph (R219): 0 for one that is not used. -/
def ordKind (fs : List Frame) (o : Nat) : Nat := (bits (ctlFrame fs (0x400 + o / 64)) (4 * (o % 64)) 4).toNat

/-- A channel record (R219): the producer's ordinal and end, the consumer's ordinal and end. -/
structure ChanRec where
  src : Nat
  srcEnd : Nat
  dst : Nat
  dstEnd : Nat
  deriving DecidableEq, Repr

/-- The 64 bits of channel record `c`. -/
def chanBits (fs : List Frame) (c : Nat) : BitVec 64 := bits (ctlFrame fs (0x800 + c / 4)) (64 * (c % 4)) 64

/-- The fields of a channel record. -/
def chanRec (w : BitVec 64) : ChanRec :=
  ⟨(bits w 0 14).toNat, (bits w 14 4).toNat, (bits w 18 14).toNat, (bits w 32 4).toNat⟩

/-- The places of the channel records that a portable graph holds. -/
def chanPlaces (fs : List Frame) : List Nat :=
  (fs.filter fun f => !f.placed && decide (0x800 ≤ f.idx) && decide (f.idx ≤ 0xFFF)).flatMap fun f =>
    (List.range 4).map fun j => 4 * (f.idx - 0x800) + j

/-- An end code as a producer's (R219), by the kind of its ordinal. -/
def srcEndOk (kind e : Nat) : Bool :=
  if kind = 1 then decide (e ≤ 4) || decide (8 ≤ e)
  else if kind = 2 then true
  else if kind = 3 then decide (e = 0)
  else if 4 ≤ kind ∧ kind ≤ 7 then decide (e ≤ 1)
  else decide (kind = 8)

/-- An end code as a consumer's (R219). -/
def dstEndOk (kind e : Nat) : Bool :=
  if kind = 1 ∨ kind = 2 then decide (e ≤ 7)
  else if kind = 3 then decide (e = 0)
  else if 4 ≤ kind ∧ kind ≤ 6 then decide (e ≤ 1)
  else if kind = 7 then decide (e ≤ 2)
  else decide (kind = 8) && decide (e ≤ 2)

/-- A channel record without a reserved bit or end code. A record of zeros in the last frame is padding where ordinal 0 is no CE
(DESIGN CHOICE, log 151). -/
def chanOk (fs : List Frame) (w : BitVec 64) : Bool :=
  let c := chanRec w
  decide (w = 0#64) ||
    (decide (bits w 36 28 = 0#28) && srcEndOk (ordKind fs c.src) c.srcEnd && dstEndOk (ordKind fs c.dst) c.dstEnd)

/-- A frame's class fits the kind of its ordinal (R215), with the SUB and the INDEX that a portable graph gives it (R219). -/
def classFits (fs : List Frame) (f : Frame) : Bool :=
  let k := ordKind fs f.ordinal
  let sub0 := decide (f.sub = 0)
  match f.cls with
  | 0 => decide (k = 1) && sub0
  | 1 => decide (k = 1) && sub0
  | 2 => decide (k = 2) && sub0
  | 3 => decide (k = 2) && decide (f.sub ≤ 1)
  | 4 => decide (k = 8) && decide (f.idx = 16) && sub0
  | 5 => decide (4 ≤ k) && decide (k ≤ 7) && sub0
  | 6 => decide (4 ≤ k) && decide (k ≤ 7) && sub0
  | _ => false

/-- The output list of an operator's frame names channel records of its own outputs, at most 16 (R219, R239). -/
def outListOk (fs : List Frame) (f : Frame) : Bool :=
  let nout := (bits f.2 8 5).toNat
  decide (nout ≤ 16) && (List.range nout).all fun j =>
    let c := (bits f.2 (32 + 8 * j) 8 : BitVec 8).toNat
    decide (chanBits fs c ≠ 0#64) && decide ((chanRec (chanBits fs c)).src = f.ordinal) && decide ((chanRec (chanBits fs c)).srcEnd = j)

/-- A frame of an element or operator of a portable graph without a reserved class, INDEX or bit of its address (R7, R214, R215, R237). -/
def portableFrameOk (fs : List Frame) (f : Frame) : Bool :=
  decide (bits f.1 41 3 = 0#3) && decide (bits f.1 16 24 = 0#24) && classFits fs f && (decide (f.cls ≠ 4) || outListOk fs f)

/-- The AGs of a portable graph suffice for its AG programs: an AG 1 stands beside an AG 0 (R200). -/
def agsSuffice (fs : List Frame) : Bool :=
  let mts := ((fs.filter fun f => decide (f.cls = 3)).map Frame.ordinal).eraseDups
  let need (o : Nat) : Nat := if fs.any fun f => decide (f.cls = 3) && decide (f.ordinal = o) && decide (f.sub = 1) then 2 else 1
  decide ((mts.map need).sum ≤ ((List.range 16384).filter fun o => decide (ordKind fs o = 3)).length)

/-- The reserved codes of a portable graph: of its own tables (R219), kind codes 9 to 15 and what a channel record may not hold, and of
its frames. -/
def portableOk (fs : List Frame) : Bool :=
  ((fs.filter Frame.placed).all (portableFrameOk fs)) && (!(fs.any fun f => decide (f.cls = 3)) || agsSuffice fs) &&
  ((fs.filter fun f => !f.placed && decide (0x400 ≤ f.idx) && decide (f.idx ≤ 0x4FF)).all fun f =>
    (List.range 64).all fun j => decide ((bits f.2 (4 * j) 4).toNat ≤ 8)) &&
  (chanPlaces fs).all fun c => chanOk fs (chanBits fs c)

/-- The address frame of a global data block (R219): a multiple of 64, and no reserved bit. -/
def globAddrOk (f : Frame) : Bool :=
  decide (f.idx < 0x4000) || decide ((f.idx - 0x4000) % 4 ≠ 0) || (decide (bits f.2 0 6 = 0#6) && decide (bits f.2 72 184 = 0#184))

/-- The frames of no die exceed what its stores take (R218). -/
def framesFit (fs : List Frame) : Bool :=
  [0, 1, 2, 3].all fun d => decide ((fs.filter fun f => f.placed && decide (f.site.toNat / 1024 = d)).length ≤ 112000)

/-- What the loader checks when it reads an image for a record (R214 to R219). The frames of a portable graph name no die yet: what
the mapper makes of it is held to the limit (R218). -/
def imageCheck (fs : List Frame) (kind : Bool) : Check := do
  let h := header fs
  must lsHeader (decide (bits h 224 32 = 0x314C5849#32) && decide (bits h 208 16 = 1#16))
  must lsHeader (decide ((bits h 160 32).toNat = fs.length) && (bitAt h 0 == kind) && !(kind && bitAt h 1))
  must lsHeader (decide (bits h 2 30 = 0#30) && decide (bindCount fs ≤ 512) && decide (globCount fs ≤ 12288))
  must lsHeader (kind || framesFit fs)
  must lsBadSelector (distinctAddr fs)
  must lsBadSelector ((fs.filter fun f => !f.placed).all fun f => ctlAddrOk f && ctlIndexOk kind f && globAddrOk f)
  must lsBadSelector (!kind || portableOk fs)
  must lsBadSelector ((List.range (bindCount fs)).all fun k => bindingOk fs (binding fs k))

/-- Write a field of `w` bits into a payload. -/
def putField (p : BitVec 256) (off w : Nat) (v : Word) : BitVec 256 :=
  let m : BitVec 256 := BitVec.ofNat 256 ((2 ^ w - 1) * 2 ^ off)
  (p &&& ~~~m) ||| (BitVec.ofNat 256 (v.toNat % 2 ^ w * 2 ^ off))

/-- Apply the argument bindings, in their order (R31, R219). -/
def bindArgs (lrec : BitVec 2048) (fs : List Frame) : List Frame :=
  (List.range (bindCount fs)).foldl (fun fs2 k =>
    let b := binding fs k
    let arg : Word := bits lrec (1024 + 32 * (bits b 78 5).toNat) 32
    fs2.map fun (f : Frame) =>
      if f.1 = bits b 0 64 then (f.1, putField f.2 (bits b 64 8).toNat ((bits b 72 6).toNat + 1) arg) else f) fs

/-! ## Moving a placed image (R36, R216) -/

/-- A block translation in package block coordinates. -/
structure Shift where
  dbx : Int
  dby : Int
  deriving DecidableEq, Repr

/-- A site after a translation; none when it leaves the package. -/
def Shift.site (t : Shift) (x : Site) : Option Site :=
  let X := ((siteX x).toNat + 32 * ((siteDie x).toNat % 2) : Int) + 4 * t.dbx
  let Y := ((siteY x).toNat + 32 * ((siteDie x).toNat / 2) : Int) + 4 * t.dby
  if 0 ≤ X ∧ X < 64 ∧ 0 ≤ Y ∧ Y < 64 then
    let X := X.toNat
    let Y := Y.toNat
    some (siteIndex (BitVec.ofNat 2 (X / 32 + 2 * (Y / 32))) (BitVec.ofNat 5 X) (BitVec.ofNat 5 Y))
  else none

/-- A site index held in a payload: one that would leave the package stays. -/
def Shift.index (t : Shift) (x : Site) : Site := (t.site x).getD x

/-- Rewrite the site indices that a payload holds (R216), by a function on sites. -/
def sitesOf (g : Site → Site) (f : Frame) : BitVec 256 :=
  let field (p : BitVec 256) (off : Nat) : BitVec 256 := setBits p off (g (bits p off 12))
  let i := f.idx
  match f.cls with
  | 1 =>
    if 16 ≤ i ∧ i < 24 then
      (List.range 16).foldl (fun p k => if bitAt p (16 * k + 15) then field p (16 * k) else p) f.2
    else f.2
  | 3 =>
    if i < 8 then (List.range 4).foldl (fun p k => if bits p (64 * k + 58) 6 = 6#6 then field p (64 * k + 36) else p) f.2
    else f.2
  | 4 => if 16 ≤ i ∧ bits f.2 0 4 = 6#4 then field f.2 176 else f.2
  | 5 =>
    if i < 32 then (List.range 2).foldl (fun p k => if bitAt p (128 * k + 116) then field p (128 * k + 104) else p) f.2 else f.2
  | _ => f.2

/-- Rewrite the site indices that a payload holds, for a translation. -/
def Shift.payload (t : Shift) (f : Frame) : BitVec 256 := sitesOf t.index f

/-- Move a frame. -/
def Shift.frame (t : Shift) (f : Frame) : Frame :=
  if f.placed && f.onDie then
    let x := t.index f.site
    let a := setBits (setBits (setBits f.1 58 (siteDie x)) 52 ((siteX x).setWidth 6)) 46 ((siteY x).setWidth 6)
    (a, t.payload f)
  else f

/-- The kind of a hop: local, express, within a die, or over a bridge; none for a port that is absent (R54, R216). -/
def hopKind (x : Site) (port : Nat) : Option Nat :=
  if !portPresent x port then none
  else if 8 ≤ port then some 0
  else if 4 ≤ port then some 1
  else if siteDie x = siteDie (linkSite x port) then some 2
  else some 3

/-- The output ports that a router frame names. -/
def framePorts (f : Frame) : List Nat :=
  if f.idx < 10 then
    ((List.range 16).filter fun v => bitAt f.2 (16 * v + 15) && !bitAt f.2 (16 * v + 14)).map fun v => (bits f.2 (16 * v + 10) 4).toNat
  else (List.range (bits f.2 8 5).toNat).map fun j => (bits f.2 (32 + 8 * j + 4) 4).toNat

/-- The translation keeps a frame's place: the site stays within the package, and every hop keeps its kind. A frame that names no site
that an image may use is left to its receiver, which refuses it (R220). -/
def Shift.keeps (t : Shift) (f : Frame) : Bool :=
  if !f.placed || !f.onDie || decide (t = ⟨0, 0⟩) then true
  else
    match t.site f.site with
    | none => false
    | some x =>
      decide (siteKind x = siteKind f.site) && !isCorner x &&
      (decide (f.cls ≠ 4) || (framePorts f).all fun p => decide (hopKind x p = hopKind f.site p))

/-- A translation that R36 allows for an image. -/
def Shift.ok (t : Shift) (fs : List Frame) : Bool :=
  decide (t.dbx % 2 = 0) && decide (t.dby % 2 = 0) && (!imageFixed fs || decide (t = ⟨0, 0⟩)) && fs.all t.keeps

/-! ## Elements of an image -/

/-- The element that a frame configures: site × 4 + sub; the MT of an AG goes with it. A frame for a corner configures nothing
(DEDUCED, log 101). -/
def frameElems (f : Frame) : List Nat :=
  let k := f.site.toNat * 4
  if !f.onDie || isCorner f.site then []
  else match f.cls with
    | 3 => [k, k + 1 + f.sub % 2]
    | 4 => []
    | 15 => []
    | _ => [k]

/-- The elements of an image. -/
def imageElems (fs : List Frame) : List Nat := (fs.flatMap frameElems).eraseDups

/-- The operator slots of an image. -/
def imageOps (fs : List Frame) : List (BitVec 12 × BitVec 2) :=
  ((fs.filter fun f => decide (f.cls = 4) && decide (16 ≤ f.idx) && decide (bits f.2 0 4 ≠ 0#4)).map fun f => (f.site, BitVec.ofNat 2 f.idx)).eraseDups

/-! ## One frame at its receiver (R220 to R242) -/

/-- A data VC. -/
def vcOk (v : BitVec 4) : Bool := decide (4 ≤ v.toNat)

/-- The header of a bundle (R222, R223). -/
def bundleHeadOk (b : BitVec 256) : Bool :=
  let ta := bits b 246 7
  let tb := bits b 239 7
  let fs := bits b 216 3
  decide (bits b 228 3 = 0#3) &&
  (match (bits b 253 3).toNat with
    | 0 => decide (ta = 0#7) && decide (tb = 0#7) && decide (fs = 0#3)
    | 1 => decide (tb = 0#7) && decide (fs = 0#3)
    | 2 => decide (fs.toNat ≤ 3)
    | 3 => decide (fs.toNat ≤ 5)
    | 4 => decide (fs = 0#3)
    | 5 => decide (tb = 0#7) && decide (fs = 0#3)
    | 6 => decide (tb = 0#7) && decide (fs = 0#3)
    | _ => decide (ta = 0#7) && decide (tb = 0#7) && decide (fs = 0#3))

/-- The stage slots of a bundle, decoded: opcode and fields. -/
def bundleStages (site : Site) (b : BitVec 256) : List (BitVec 8 × Stage) :=
  (List.range 6).filterMap fun k =>
    match decodeSlot site 0#3 (BitVec.ofNat 3 k) (bundleSlot b k) with
    | .ok i => stageOf i
    | .error _ => none

/-- The selectors that an operation reads. -/
def readSels (opc : BitVec 8) (st : Stage) : List (BitVec 6) := [st.a, st.b, st.c].take (selReads opc.toNat)

/-- The channel ends that a stage names, by their bit in DQ: 24 to 27 are vi0 to vi3, 28 to 31 si0 to si3. -/
def readEnds (opc : BitVec 8) (st : Stage) : List Nat :=
  ((readSels opc st).filter fun x => decide (24 ≤ x.toNat) && decide (x.toNat ≤ 31)).map fun x => x.toNat - 24

/-- The output that a stage's OUT names, by its bit in EQ. NOP ignores its OUT (R254). -/
def outName (x : BitVec 8 × Stage) : Option Nat :=
  if x.1 ≠ 0#8 ∧ 1 ≤ x.2.out.toNat ∧ x.2.out.toNat ≤ 5 then some (x.2.out.toNat - 1) else none

/-- One slot of a bundle (R220, R245): a known opcode, a control operation only in s5, WRSYS only at a corner, and good fields. -/
def slotCheck (site : Site) (b : BitVec 256) (k : Nat) : Check :=
  let w := bundleSlot b k
  match decodeSlot site 0#3 (BitVec.ofNat 3 k) w with
  | .error e => .error (lsOfReject e)
  | .ok i => do
    must lsSlotCtrl (decide ((bits w 28 8).toNat < 0xA0) || decide (0xAF < (bits w 28 8).toNat) || decide (k = 5))
    must lsBadOpcode (decide (bits w 28 8 ≠ 0xAD#8) || isCorner site)
    must lsBadSelector (wf i)

/-- A bundle frame (R222, R252, R290). NSETD is none of the stages that name an output for SIGNAL's rule (R280). -/
def bundleCheck (site : Site) (idx : Nat) (b : BitVec 256) : Check := do
  must lsBadSelector (decide (idx < 128))
  eachOf (List.range 6) (slotCheck site b)
  must lsBadSelector (bundleHeadOk b)
  let sts := bundleStages site b
  must lsBadSelector (sts.all fun x => (readEnds x.1 x.2).all fun e => bitAt b (231 + e))
  must lsBadSelector (sts.all fun x => match outName x with
    | some o => bitAt b (223 + o)
    | none => true)
  must lsBadSelector ((sts.filter fun x => decide (x.1 = 0xAA#8)).all fun x =>
    decide ((sts.filter fun y => decide (y.1 ≠ 0x71#8) && decide (outName y = outName x)).length ≤ 1))

/-- Channel ends of a CE (R227). -/
def endsOk (p : BitVec 256) : Bool :=
  let input (e : Nat) : BitVec 16 := bits p (16 * e) 16
  let output (o : Nat) : BitVec 8 := bits p (128 + 8 * o) 8
  decide (bits p 168 88 = 0#88) &&
  ((List.range 8).all fun e =>
    let w := input e
    if bitAt w 0 then
      vcOk (bits w 12 4) && decide (2 ≤ (bits w 4 4).toNat) && decide ((bits w 4 4).toNat ≤ 8) &&
      decide ((bits w 8 4).toNat ≤ (bits w 4 4).toNat) && decide (bits w 2 2 = 0#2)
    else decide (w = 0#16)) &&
  (List.range 5).all fun o =>
    let w := output o
    if bitAt w 0 then vcOk (bits w 4 4) && decide (bits w 1 3 = 0#3) else decide (w = 0#8)

/-- A task descriptor (R228). -/
def taskOk (p : BitVec 256) : Bool :=
  if bitAt p 0 then decide (bits p 37 59 = 0#59) && decide (bits p 1 5 = 0#5) && decide ((bits p 13 8).toNat ≤ 128)
  else decide (p = 0#256)

/-- A fork table (R229). -/
def forkOk (p : BitVec 256) : Bool :=
  (List.range 16).all fun i =>
    let w : BitVec 16 := bits p (16 * i) 16
    decide (bits w 12 3 = 0#3) &&
    (!bitAt w 15 ||
      (match siteKind (bits w 0 12) with
        | .mx => true
        | .ste => true
        | .hpu => true
        | .cp => true
        | _ => false))

/-- A CE control frame (R226 to R229). -/
def ceCtlOk (idx : Nat) (p : BitVec 256) : Bool :=
  if idx = 1 ∨ idx = 2 then true
  else if idx = 3 then endsOk p
  else if 8 ≤ idx ∧ idx < 16 then taskOk p
  else if 16 ≤ idx ∧ idx < 24 then forkOk p
  else if 32 ≤ idx ∧ idx < 64 then true
  else if 64 ≤ idx ∧ idx < 128 then true
  else if 128 ≤ idx ∧ idx < 192 then decide (idx % 2 = 0) && decide (p.toNat < 2 ^ 32)
  else decide (192 ≤ idx) && decide (idx < 196)

/-- The binding of a port with its descriptor (R231, R232, R325, R59) (DEDUCED, log 98). -/
def portFrameCheck (loc : PortAt) (p : BitVec 256) : Check :=
  let d : BitVec 64 := bits p 0 64
  let b : BitVec 64 := bits p 64 64
  if bits d 56 8 = 0#8 then must lsBadSelector (decide (p = 0#256))
  else
    match decodePort loc d with
    | .error e => .error (lsOfReject e)
    | .ok i => do
      must lsBadSelector (wf i && decide (bits p 128 128 = 0#128) && decide (bits b 27 37 = 0#37))
      must lsBadSelector (decide (2 ≤ (bits b 0 7).toNat) && decide ((bits b 0 7).toNat ≤ 64) && decide ((bits b 7 7).toNat ≤ (bits b 0 7).toNat))
      must lsBadSelector (decide (bits b 7 7 = 0#7) || (decide (bits d 56 8 = 0x15#8) && bitAt d 36 && decide (bits d 48 2 = 2#2)))
      must lsBadSelector ((!bitAt b 14 || vcOk (bits b 15 4)) && (!bitAt b 20 || vcOk (bits b 21 4)) && (!bitAt b 26 || bitAt b 14))

/-- An MT frame (R230 to R232). -/
def mtFrameCheck (site : Site) (idx : Nat) (p : BitVec 256) : Check :=
  if idx < 8 then portFrameCheck ⟨site, BitVec.ofNat 3 idx⟩ p
  else must lsBadSelector ((decide (0x1000 ≤ idx) && decide (idx ≤ 0x12FF)) || (decide (0x2000 ≤ idx) && decide (idx ≤ 0x7FFF)))

/-- An AG frame (R233, R234) (DEDUCED, log 95). A binding without DIRECT has an out channel on a data VC (DEDUCED, log 14). -/
def agFrameCheck (loc : AgAt) (idx : Nat) (p : BitVec 256) : Check :=
  if idx < 8 then
    eachOf (List.range 4) fun k =>
      let w : BitVec 64 := bits p (64 * k) 64
      if bits w 58 6 = 0#6 then must lsBadSelector (decide (w = 0#64))
      else
        match decodeAg loc w with
        | .error e => .error (lsOfReject e)
        | .ok i => must lsBadSelector (wf i)
  else
    must lsBadSelector (decide (idx = 8) && decide (bits p 16 240 = 0#240) && !bitAt p 3 &&
      (if bitAt p 4 then decide (bits p 11 5 = 0#5) else vcOk (bits p 12 4)) && (!bitAt p 10 || vcOk (bits p 5 4)))

/-- A routing entry (R238). -/
def entryOk (site : Site) (v : Nat) (w : BitVec 16) : Bool :=
  if !bitAt w 15 then decide (w = 0#16)
  else
    decide (4 ≤ v) && decide (bits w 0 6 = 0#6) &&
    (if bitAt w 14 then decide (bits w 6 4 = 0#4) else portPresent site (bits w 10 4).toNat && vcOk (bits w 6 4))

/-- A router frame (R237 to R239). -/
def routerFrameCheck (site : Site) (idx : Nat) (p : BitVec 256) : Check :=
  if idx < 10 then
    must lsBadSelector (portPresent site idx && (List.range 16).all fun v => entryOk site v (bits p (16 * v) 16))
  else if 16 ≤ idx ∧ idx < 20 then
    if bits p 0 4 = 0#4 then must lsBadSelector (decide (p = 0#256))
    else
      match decodeOp ⟨site, BitVec.ofNat 2 idx⟩ p with
      | .error e => .error (lsOfReject e)
      | .ok i => must lsBadSelector (wf i && decide (bits p 13 19 = 0#19))
  else .error lsBadSelector

/-- An engine program frame (R240, R241). -/
def engFrameCheck (site : Site) (idx : Nat) (p : BitVec 256) : Check :=
  if idx < 32 then
    eachOf (List.range 2) fun k =>
      let w : BitVec 128 := bits p (128 * k) 128
      if bits w 120 8 = 0#8 then must lsBadSelector (decide (w = 0#128))
      else do
        must lsBadOpcode (decide ((bits w 124 4).toNat = engineClass (site.setWidth 13)))
        match decodeEng (site.setWidth 13) w with
        | .error e => .error (lsOfReject e)
        | .ok i => must lsBadSelector (wf i)
  else if idx < 40 then
    must lsBadSelector ((List.range 8).all fun k =>
      let w : Word := bits p (32 * k) 32
      decide (bits w 1 9 = 0#9) && decide ((bits w 10 6).toNat ≤ 8 * (idx - 32) + k))
  else .error lsBadSelector

/-- EKIND of a site's engine, 0 where there is none (R242). -/
def engKind (site : Site) : Nat :=
  match siteKind site with
  | .mx => 1
  | .ste => 2
  | .hpu => 3
  | .cp => 4
  | _ => 0

/-- The binding frame of an engine (R242). -/
def engBindOk (site : Site) (idx : Nat) (p : BitVec 256) : Bool :=
  decide (idx = 0) && decide (bits p 37 219 = 0#219) && decide (bits p 29 3 = 0#3) && decide (bits p 4 4 = 0#4) &&
  decide (engKind site ≠ 0) && decide ((bits p 0 4).toNat = engKind site) && (!bitAt p 36 || decide (siteKind site = .cp)) &&
  (!bitAt p 32 || vcOk (bits p 8 4)) && (!bitAt p 33 || vcOk (bits p 12 4)) && (!bitAt p 34 || vcOk (bits p 16 4)) &&
  (!bitAt p 35 || vcOk (bits p 20 4)) && (!bitAt p 36 || vcOk (bits p 24 4))

/-- The site is an engine's. -/
def isEngineSite (site : Site) : Bool :=
  match siteKind site with
  | .mx => true
  | .ste => true
  | .hpu => true
  | .cp => true
  | _ => false

/-- What a frame receiver checks of a frame by itself (R214, R215, R220); `corner` says that it comes from the firmware. -/
def frameCheck (corner : Bool) (f : Frame) : Check := do
  must lsBadSelector (f.onDie && decide (bits f.1 41 3 = 0#3) && decide (bits f.1 16 24 = 0#24))
  must lsBadSelector (decide (f.sub = 0) || (decide (f.cls = 3) && decide (f.sub = 1)))
  must lsBadSelector (isCorner f.site == corner)
  match f.cls with
  | 0 => do
    must lsBadSelector (decide (siteKind f.site = .ce))
    bundleCheck f.site f.idx f.2
  | 1 => must lsBadSelector (decide (siteKind f.site = .ce) && ceCtlOk f.idx f.2)
  | 2 => do
    must lsBadSelector (decide (siteKind f.site = .mt))
    mtFrameCheck f.site f.idx f.2
  | 3 => do
    must lsBadSelector (decide (siteKind f.site = .mt))
    agFrameCheck ⟨f.site, BitVec.ofNat 1 f.sub⟩ f.idx f.2
  | 4 => routerFrameCheck f.site f.idx f.2
  | 5 => do
    must lsBadSelector (isEngineSite f.site)
    engFrameCheck f.site f.idx f.2
  | 6 => must lsBadSelector (isEngineSite f.site && engBindOk f.site f.idx f.2)
  | _ => .error lsBadSelector

end Sys2Proof.Machine
end

