-- ==== Sys2Proof/Machine/Accept.lean ====
section
/-! DEFINITION. Launch records from the window to the ready pool (R28 to R40, R182 to R184): submission, acceptance, the free elements
that a demand is held against, the order of the pool, age promotion and the placement hold. -/

namespace Sys2Proof.Machine

/-! ## The launch window (R183, R184) -/

/-- The function has a window that the host can reach: it exists, and the boot chain has opened the PF (R25, R182) (DEDUCED, log 91). -/
def windowOpen (s : State) (fn : BitVec 10) : Bool := s.hub.pfOpen && decide (fn.toNat ≤ 512)

/-- A write to the window that is no second half discards a first half that waits, with BADW (R183). -/
def breakHalf (s : State) (fn : BitVec 10) : State :=
  let f := getFn s fn
  if f.half.isSome then setFn s fn { f with half := none, badw := true } else s

/-- A malformed write to LAUNCH is discarded (R183). -/
def badLaunch (s : State) (fn : BitVec 10) : State := setFn s fn { getFn s fn with half := none, badw := true }

/-- A whole record arrives (R184): it takes a credit and joins the queue, or is dropped. -/
def submitRecord (s : State) (fn : BitVec 10) (r : BitVec 2048) : State :=
  let f := getFn s fn
  if f.credits = 0#7 then setFn s fn { f with half := none, drop := true }
  else
    let s := setFn s fn { f with half := none, credits := f.credits - 1#7 }
    { s with dist := { s.dist with subq := s.dist.subq ++ [⟨fn, false, true, r⟩] } }

/-- A write to LAUNCH (R183); `low` says that the payload limit is below 256 bytes, where two halves count as one submission. -/
def launchWrite (s : State) (fn : BitVec 10) (low : Bool) (off len : Nat) (data : BitVec 2048) : State :=
  if off = 0 ∧ len = 256 then submitRecord (breakHalf s fn) fn data
  else if low ∧ off = 0 ∧ len = 128 then
    let s := breakHalf s fn
    setFn s fn { getFn s fn with half := some (bits data 0 1024) }
  else
    match (getFn s fn).half with
    | some h => if low ∧ off = 128 ∧ len = 128 then submitRecord s fn (bits data 0 1024 ++ h) else badLaunch s fn
    | none => badLaunch s fn

/-- LAUNCH (R183): a posted write to the launch window. Input: the function, the offset at byte 2, the length in [14:0] at byte 4 with [15]
set where the port's payload limit is below 256 bytes (DEDUCED, log 161), the data at byte 6. -/
def execLaunch (s : State) : Host.Outcome State Fault Refusal :=
  let fn : BitVec 10 := s.opnd 0 10
  let off := (s.opnd 2 16 : BitVec 16).toNat
  let len : BitVec 16 := s.opnd 4 16
  if windowOpen s fn ∧ off < 256 then .next (launchWrite s fn (bitAt len 15) off (bits len 0 15).toNat (s.opnd 6 2048)) else .next s

/-! ## Checks of a record (R28 to R32, R170) -/

/-- Field of a record (R28). -/
def rfld (r : BitVec 2048) (lo w : Nat) : BitVec w := bits r lo w

/-- A format register without a reserved value (R29). -/
def fmtOk (f : BitVec 16) : Bool := decide (bits f 13 3 = 0#3) && decide (bits f 8 2 ≠ 3#2)

/-- A level byte without a reserved value (R32). -/
def levelByteOk (b : BitVec 8) : Bool := decide (bits b 6 2 = 0#2) && decide (bits b 0 3 ≠ 7#3) && decide ((bits b 3 3).toNat ≤ 4)

/-- The reserved fields and values of a record (R28). -/
def recordOk (r : BitVec 2048) : Bool :=
  decide (rfld r 977 47 = 0#47) && decide (rfld r 918 10 = 0#10) && decide (rfld r 904 8 = 0#8) && decide (rfld r 504 8 = 0#8) &&
  decide (rfld r 314 6 = 0#6) && decide (rfld r 283 5 = 0#5) && decide (rfld r 276 4 = 0#4) && decide (rfld r 267 5 = 0#5) &&
  decide (rfld r 258 6 = 0#6) &&
  ((List.range 8).all fun k => fmtOk (rfld r (768 + 16 * k) 16)) && ((List.range 8).all fun k => levelByteOk (rfld r (384 + 8 * k) 8)) &&
  decide ((rfld r 272 4).toNat ≤ 8) && decide ((rfld r 280 3).toNat ≤ 4) && decide ((rfld r 368 8).toNat ≤ 100) &&
  decide ((rfld r 304 10).toNat ≤ 512) && decide ((rfld r 928 20).toNat % 16 = 0) && decide (siteKind (rfld r 948 12) = .mt)

/-- The domain and scope codes of a level. -/
def levelCodes (r : BitVec 2048) (i : Nat) : Nat × Nat :=
  let b : BitVec 8 := rfld r (384 + 8 * i) 8
  ((bits b 0 3).toNat, (bits b 3 3).toNat)

/-- The domain of a level allows its scope. -/
def levelFits (c : Nat × Nat) : Bool :=
  (decide (c.1 ≠ 4) || decide (1 ≤ c.2)) && (decide (c.1 ≠ 5) || decide (2 ≤ c.2)) && (decide (c.1 ≠ 6) || decide (3 ≤ c.2))

/-- The level table keeps the three conditions of R32. -/
def levelsOk (r : BitVec 2048) : Bool :=
  let n := (rfld r 272 4).toNat
  decide (n ≠ 0) && ((List.range n).all fun i => levelFits (levelCodes r i)) &&
  (List.range (n - 1)).all fun i =>
    let a := levelCodes r i
    let b := levelCodes r (i + 1)
    decide (a.1 ≤ b.1) && decide (a.2 ≤ b.2)

/-- A record as the loader takes it (R30): TENANT and VF come from the VF's window, and PRIO 7 is the firmware's alone. -/
def takenRecord (s : State) (u : Submit) : BitVec 2048 :=
  let r := u.lrec
  let r := if u.fn = 0#10 then r else setBits (setBits r 304 u.fn) 288 (bits (getFn s u.fn).policy 48 16)
  if rfld r 264 3 = 7#3 ∧ !u.firmware then setBits r 264 6#3 else r

/-- The policy that a record's node takes (R169, R170); none when its tenant has no VF. -/
def policyFor (s : State) (u : Submit) (r : BitVec 2048) : Option (BitVec 256) :=
  if u.fn ≠ 0#10 then some (getFn s u.fn).policy
  else
    match tenantVf s (rfld r 288 16) with
    | 0#10 => none
    | v => some (getFn s v).policy

/-- HCTX lies within the contexts of a policy (R169, R170). -/
def hctxOk (p : BitVec 256) (r : BitVec 2048) : Bool :=
  let base := (bits p 24 8).toNat
  let h := (rfld r 896 8).toNat
  decide (base ≤ h) && decide (h ≤ base + (bits p 20 4).toNat)

/-! ## Free elements (R16, R36, R385, R424) -/

/-- The allocatable elements of a kind on one die (R16). -/
def perDie : Kind → Nat
  | .ce => 508
  | .mt => 255
  | .ag => 510
  | .mx => 192
  | .ste => 32
  | .hpu => 16
  | .cp => 16

/-- The kind of an element by its number site × 4 + sub. -/
def elemKind (e : Nat) : Kind := if e % 4 = 0 then siteKind (BitVec.ofNat 12 (e / 4)) else .ag

/-- The die of an element. -/
def elemDie (e : Nat) : BitVec 2 := siteDie (BitVec.ofNat 12 (e / 4))

/-- The die takes part: it is live and not fenced. -/
def dieRuns (s : State) (d : BitVec 2) : Bool := (getDie s d).live && !(getDie s d).fenced

/-- A site of the configuration record's disabled map (R24). -/
def siteDisabled (s : State) (site : Nat) : Bool := Table.get false s.hub.conf.disabled site

/-- The elements that a disabled site takes with it. -/
def siteElems (site : Nat) : List Nat :=
  if isCorner (BitVec.ofNat 12 site) then []
  else if siteKind (BitVec.ofNat 12 site) = .mt then [site * 4, site * 4 + 1, site * 4 + 2] else [site * 4]

/-- Elements that are disabled or withdrawn. -/
def lostElems (s : State) : List Nat :=
  ((s.hub.conf.disabled.flatMap fun x => siteElems x.1) ++ s.fab.withdrawn.map fun x => x.1).eraseDups

/-- The allocatable elements of a kind that remain. -/
def allocatable (s : State) (k : Kind) : Nat :=
  let dies := ([0, 1, 2, 3].filter fun d => dieRuns s (BitVec.ofNat 2 d)).length
  dies * perDie k - ((lostElems s).filter fun e => decide (elemKind e = k) && dieRuns s (elemDie e)).length

/-- The elements of a kind that are free now. -/
def freeElems (s : State) (k : Kind) : Nat :=
  let busy := (s.fab.owner.map fun x => x.1) ++ (s.fab.zeroing.map fun x => x.1)
  let lost := lostElems s
  allocatable s k - (busy.eraseDups.filter fun e => decide (elemKind e = k) && dieRuns s (elemDie e) && !lost.contains e).length

/-- An element is free (R36, R179). -/
def elemFree (s : State) (e : Nat) : Bool :=
  let site := e / 4
  decide (Table.get 0 s.fab.owner e = 0) && !Table.get false s.fab.zeroing e && !Table.get false s.fab.withdrawn e &&
  !siteDisabled s site && !isCorner (BitVec.ofNat 12 site) && dieRuns s (elemDie e)

/-- The records of the image that a node names (R217). -/
def nodeImage (s : State) (n : Node) : List Frame :=
  match s.dist.images.find? fun i => decide (i.digest = n.fld 0 256) with
  | some i => i.frames
  | none => []

/-- The package can meet a demand with every region free. -/
def demandMet (s : State) (fs : List Frame) : Bool := allKinds.all fun k => decide (demand fs k ≤ allocatable s k)

/-- The free elements meet a demand. -/
def demandFree (s : State) (fs : List Frame) : Bool := allKinds.all fun k => decide (demand fs k ≤ freeElems s k)

/-! ## The footprint list (R33) -/

/-- One entry of a footprint list (DESIGN CHOICE, log 163). -/
def footEntry (w : BitVec 128) : Option FootEnt :=
  if bits w 56 6 = 0#6 ∧ bits w 62 2 ≠ 0#2 ∧ bits w 112 16 = 0#16 then
    some ⟨(bits w 0 56).toNat, (bits w 64 48).toNat, bits w 62 2⟩
  else none

/-- What reading a footprint list comes to. -/
inductive FootRead where
  | ok (fs : List FootEnt)
  /-- its page moves -/
  | wait
  | bad
  deriving DecidableEq, Repr

/-- Read the block at an address of a node's list. -/
def readFootBlock (s : State) (n : Node) (va : Nat) : State × Except Xlat Block :=
  match xlate s 0#2 n (.accept n.sub) va false with
  | (s, .ok t) =>
    if t.ty = 2#2 then (s, .error (.fail .transNp))
    else
      let b := view s loaderParty (homeKey t) 0#8 0#6
      (s, if b.psn then .error (.fail .poison) else .ok b.data)
  | (s, e) => (s, .error e)

/-- The 16 bytes at an address, which may lie in two blocks. -/
def readFootWord (s : State) (n : Node) (a : Nat) : State × Except Xlat (BitVec 128) :=
  match readFootBlock s n (a / 64 * 64) with
  | (s, .error e) => (s, .error e)
  | (s, .ok lo) =>
    if a % 64 ≤ 48 then (s, .ok (bits lo (8 * (a % 64)) 128))
    else
      match readFootBlock s n (a / 64 * 64 + 64) with
      | (s, .error e) => (s, .error e)
      | (s, .ok hi) => (s, .ok (bits (hi ++ lo) (8 * (a % 64)) 128))

/-- Read `k` entries of a node's list, through its tables (DEDUCED, log 88). -/
def readFoot (s : State) (n : Node) : Nat → State × FootRead
  | 0 => (s, .ok [])
  | k + 1 =>
    match readFoot s n k with
    | (s, .ok fs) =>
      match readFootWord s n ((n.fld 448 56 : BitVec 56).toNat + 16 * k) with
      | (s, .ok w) =>
        match footEntry w with
        | some f => (s, .ok (fs ++ [f]))
        | none => (s, .bad)
      | (s, .error .wait) => (s, .wait)
      | (s, .error _) => (s, .bad)
    | r => r

/-! ## Acceptance (R34, R35) -/

/-- A node as its record gives it, before its checks; the count that its notice carries is the present one until it is accepted (DESIGN CHOICE,
log 174). -/
def freshNode (s : State) (u : Submit) (r : BitVec 2048) (p : BitVec 256) : Node :=
  { id := s.dist.nextSeq, lrec := r, sub := u.fn, fn := rfld r 304 10, tenant := rfld r 288 16, policy := p, firmware := u.firmware,
    st := .held, prio := rfld r 264 3, readyAt := now s, prioAt := now s, gateAt := none, fracLast := 0, fracAt := 0, foot := [],
    deps := [], rels := 0, groups := (rfld r 320 32).toNat, given := 0, ranges := [], reissue := [], bounds := [], firstAt := none,
    dataWritten := false, insts := [], jobst := 0#16, afl := fNone, nfault := 0#32, err := 0#16, lscode := 0#8,
    accepted := (getFn s u.fn).accepted, aborting := false }

/-- The checks of acceptance that need no access (R28 to R33, R170, R218, R385) (DEDUCED, log 89; DEDUCED, log 92). -/
def acceptCheck (s : State) (u : Submit) (r : BitVec 2048) : Check := do
  must lsBadSelector (recordOk r)
  must lsTopology (levelsOk r)
  match policyFor s u r with
  | none => .error lsBadSelector
  | some p => must lsBadSelector (hctxOk p r)
  match s.dist.images.find? fun i => decide (i.digest = rfld r 0 256) with
  | none => .error lsBadSelector
  | some i => do
    must lsHeader (decide ((rfld r 376 8).toNat ≤ 64))
    imageCheck i.frames (bitAt r 256)
    must lsNoResources (demandMet s i.frames)
  must lsNoResources (decide (holdsUsed s + (rfld r 280 3).toNat ≤ 4096))

/-- A job may overlap a footprint: it does, or its own is not yet known (R34, R35, R341). -/
def jobHolds (s : State) (j : Job) (foot : List FootEnt) : Bool :=
  footOverlap (jobFoot s j) foot || (!foot.isEmpty && !jobSettled s j)

/-- The earlier nodes and jobs of a node's tenant that a footprint overlaps (R34), with the jobs whose footprint is not yet known. -/
def depsOf (s : State) (n : Node) (foot : List FootEnt) : List Nat :=
  ((s.dist.nodes.filter fun m => decide (m.tenant = n.tenant) && decide (m.st ≠ .complete) && footOverlap m.foot foot).map fun m => m.id) ++
  ((s.dist.jobs.filter fun j => decide (jobTenant s j = n.tenant) && jobHolds s j foot).map fun j => j.id)

/-- A job that holds a node still has to: one whose footprint has become known and does not overlap lets it go. -/
def depStays (s : State) (n : Node) (d : Nat) : Bool :=
  match findJob s d with
  | some j => jobHolds s j n.foot
  | none => true

/-- In every cycle, held nodes are let go by jobs whose footprints have become known (R35, R341). -/
def depsTick (s : State) : State :=
  enterPool { s with dist := { s.dist with
    nodes := mapWhere (fun n => decide (n.st = .held)) (fun n => { n with deps := n.deps.filter (depStays s n) }) s.dist.nodes } }

/-- The head of the submission queue goes, its credit returns, and its node takes its place in the acceptance order. -/
def enterOrder (s : State) (u : Submit) (n : Node) : State :=
  let s := { s with dist := { s.dist with subq := s.dist.subq.tail, nextSeq := s.dist.nextSeq + 1, nodes := s.dist.nodes ++ [n] } }
  let f := getFn s u.fn
  if u.window then setFn s u.fn { f with credits := f.credits + 1#7 } else s

/-- A record is refused at acceptance: its node completes at once (R386). -/
def refuseRecord (s : State) (u : Submit) (r : BitVec 2048) (code : BitVec 8) : State :=
  let n := freshNode s u r ((policyFor s u r).getD policyReset)
  refuseNode (enterOrder s u n) n.id code

/-- A record is accepted: ACCEPTED counts it, held releases for its tag are applied (R35), and it enters the pool when nothing holds
it (DEDUCED, log 90). -/
def acceptRecord (s : State) (u : Submit) (n : Node) (foot : List FootEnt) : State :=
  let f := getFn s u.fn
  let count := if u.window then f.accepted + 1#17 else f.accepted
  let s := setFn s u.fn { f with accepted := count }
  let mine (h : BitVec 16 × Word) : Bool := decide (h = (n.tenant, n.tag))
  let rels := (s.dist.holds.filter mine).length
  let n := { n with accepted := count, foot := foot, deps := depsOf s n foot, rels := rels }
  let s := enterOrder s u n
  enterPool { s with dist := { s.dist with holds := s.dist.holds.filter fun h => !mine h } }

/-- The loader receives an image file with the step (R217): it holds the file under its digest (DESIGN CHOICE, log 87). -/
def learnImage (s : State) : State :=
  let bs := s.input
  if bs.isEmpty ∨ bs.length % 40 ≠ 0 then s
  else
    let d := Config.shake256 bs
    if s.dist.images.any fun i => decide (i.digest = d) then s
    else { s with dist := { s.dist with images := s.dist.images ++ [⟨d, parseImage bs.length bs⟩] } }

/-- RECORD_ACCEPT (R28 to R35, R385, R386): the loader accepts or refuses the record that has waited longest. Input: an image file
that the loader receives with it, or nothing. -/
def execRecordAccept (s : State) : Host.Outcome State Fault Refusal :=
  let s := learnImage s
  match s.dist.subq with
  | [] => .next s
  | u :: _ =>
    let r := takenRecord s u
    match acceptCheck s u r with
    | .error code => .next (refuseRecord s u r code)
    | .ok _ =>
      let n := freshNode s u r ((policyFor s u r).getD policyReset)
      match readFoot s n (rfld r 376 8).toNat with
      | (s, .wait) => .next s
      | (s, .bad) => .next (refuseRecord s u r lsBadSelector)
      | (s, .ok foot) => .next (acceptRecord s u n foot)

/-! ## The order of the pool (R37 to R40) -/

/-- RESID of a node in per mille (R28, R90). -/
def residNeed (n : Node) : Nat :=
  let p := (n.fld 368 8 : BitVec 8).toNat
  10 * (if p = 0 then 90 else p)

/-- The residency gate of a node is met (R40). -/
def gateMet (s : State) (n : Node) : Bool := decide (residNeed n ≤ residency s n.tenant)

/-- Group indices that no instance has taken (R37). -/
def untaken (n : Node) : Bool := decide (n.given < n.groups) || !n.reissue.isEmpty || n.ranges.any fun r => decide (r.lo < r.hi)

/-- INSTMAX, 0 meaning 1. -/
def instMax (n : Node) : Nat :=
  let m := (n.fld 960 16 : BitVec 16).toNat
  if m = 0 then 1 else m

/-- A node of the pool that could take another instance (R37). -/
def wantsInst (n : Node) : Bool := decide (n.st = .pool) && !n.aborting && untaken n && decide (n.insts.length < instMax n)

/-- Node `a` stands before node `b` in the pool (R38); of two that became ready in one cycle, the one accepted first (DESIGN CHOICE,
log 175). -/
def poolBefore (a b : Node) : Bool :=
  decide (b.prio.toNat < a.prio.toNat) || (decide (a.prio = b.prio) &&
    (decide (a.readyAt < b.readyAt) || (decide (a.readyAt = b.readyAt) && decide (a.id < b.id))))

/-- The element kinds that a node's demand still lacks (R38). -/
def lacks (s : State) (n : Node) : List Kind := allKinds.filter fun k => decide (freeElems s k < demand (nodeImage s n) k)

/-- The placement hold of a node keeps another back (R38): it waits still, the other's priority is no higher, and the other wants a kind
that it lacks. -/
def holdsBack (s : State) (m n : Node) : Bool :=
  decide (m.id ≠ n.id) && decide (m.st = .pool) && !m.aborting && decide (n.prio.toNat ≤ m.prio.toNat) &&
  (lacks s m).any fun k => decide (0 < demand (nodeImage s n) k)

/-- A placement hold keeps a node back (R38): each stands until its own node has been placed. -/
def heldBack (s : State) (n : Node) : Bool :=
  s.dist.holdback.any fun h =>
    match findNode s h with
    | none => false
    | some m => holdsBack s m n

/-- The first node of the pool that has no instance. -/
def firstUnplaced (s : State) : Option Node :=
  (s.dist.nodes.filter fun n => decide (n.st = .pool) && !n.aborting && n.insts.isEmpty && untaken n).foldl
    (fun b n => match b with
      | none => some n
      | some x => if poolBefore n x then some n else some x) none

/-- PLACEMENT_HOLD (R38): the first node of the pool has gone unplaced for 1 ms: its hold joins those of nodes that were first before
it and still wait (DEDUCED, log 93). -/
def execPlacementHold (s : State) : Host.Outcome State Fault Refusal :=
  match firstUnplaced s with
  | none => .next s
  | some n =>
    if n.readyAt + msCycles ≤ now s ∧ ¬ s.dist.holdback.contains n.id then
      .next { s with dist := { s.dist with holdback := s.dist.holdback ++ [n.id] } }
    else .next s

/-- PROMOTION (R39): a node that has waited 2 ms at its priority rises by one level, to at most 6. -/
def execPromotion (node : BitVec 32) (s : State) : Host.Outcome State Fault Refusal :=
  match findNode s node.toNat with
  | none => .next s
  | some n =>
    if n.st = .pool ∧ n.insts.isEmpty ∧ !n.aborting ∧ n.prio.toNat < 6 ∧ n.prioAt + 2 * msCycles ≤ now s then
      .next (modNode s n.id fun n => { n with prio := n.prio + 1#3, prioAt := now s })
    else .next s

end Sys2Proof.Machine
end

