-- ==== Sys2Proof/Machine/Work.lean ====
section
/-! DEFINITION. A summary tree engine's or hash probe unit's command as one piece of work (R150, R159): its accesses at device scope
under its job's hypothesis (R399), its arithmetic with its flags (R137), and what each way of ending leaves. -/

namespace Sys2Proof.Machine

/-- A command at work: the state as its writes have left it, its job, the address and contents of its descriptor, the flags and status
met so far, and the nodes that it has allocated. -/
structure Work where
  s : State
  job : Job
  va : Nat
  desc : BitVec 1024
  hyp : BitVec 6
  flags : Flags
  status : BitVec 16
  fresh : List Nat
  /-- the accesses that it has translated, the last one first -/
  seen : List (Nat × Bool)
  deriving DecidableEq, Repr

/-- The ways in which a command's work breaks off. -/
inductive WorkEnd where
  /-- BADCMD: what has been written stands (R389) -/
  | bad
  /-- NODEPOOL, before any write (R416) -/
  | pool
  /-- an unreadable node ends the command before any write (R417): the parent to be marked, `none` for a root; with `some none` -/
  | unread (mark : Option (Option Nat))
  /-- an access waits: nothing has happened -/
  | wait
  /-- a store waits for an overlay entry of its context (R408): nothing has happened -/
  | full (ctx : BitVec 8)
  deriving DecidableEq, Repr

/-- Work in progress. -/
abbrev WorkM := ExceptT WorkEnd (StateM Work)

/-- A vector token as it carries one block. -/
def blockTok (b : Block) : Token := vectorTok b 0xFFFF#16 0x00FF#16 0#6 false false

/-! ## Accesses -/

/-- An access is translated. -/
def wSeen (va : Nat) (needW : Bool) : WorkM Unit := modify fun w => { w with seen := (va, needW) :: w.seen }

/-- The state before a command's work, with what its translations have left: A and D bits, cached entries, walks asked for (R94). -/
def keptWalks (s : State) (w : Work) : State := w.seen.foldr (fun x s => (jobXlate s w.job x.1 x.2).1) s

/-- What a command's work leaves that waits or could not be finished: a store that lacks an overlay entry is held back (R408). -/
def workHeld (s : State) (e : WorkEnd) (w : Work) : State :=
  match e with
  | .full ctx => ovlHold (keptWalks s w) ctx w.hyp
  | _ => keptWalks s w

/-- OR status bits. -/
def wStatus (b : BitVec 16) : WorkM Unit := modify fun w => { w with status := w.status ||| b }

/-- Read a block (R399, R403): a failed translation or a TYPE 2 page reads +0 with status POISON, and so is a poisoned block marked;
a page that moves makes the command wait. -/
def wRead (va : Nat) : WorkM BlkVal := do
  wSeen va false
  let w ← get
  match jobXlate w.s w.job va false with
  | (s, .ok t) =>
    set { w with s := s }
    if t.ty = 2#2 then
      wStatus stPoison
      return ⟨0#512, 0x00FF#16, false⟩
    else
      let (s, b) := engLoad s (jobParty s w.job) (homeKey t) (ctxOf (jobNode s w.job)) w.hyp
      set { w with s := s }
      if b.psn then
        wStatus stPoison
        return b.delivered
      else return b
  | (_, .wait) => throw .wait
  | (s, .fail _) =>
    set { w with s := s, status := w.status ||| stPoison }
    return ⟨0#512, 0x00FF#16, false⟩

/-- Write bytes of a block (R399, R408, R316): a store of a refuted job is dropped. -/
def wWrite (va : Nat) (m : BitVec 64) (b : Block) (desc : Option (BitVec 16)) : WorkM Unit := do
  let w ← get
  if w.job.refuted then pure ()
  else
    wSeen va true
    let w ← get
    match jobXlate w.s w.job va true with
    | (s, .ok t) =>
      let ctx := ctxOf (jobNode s w.job)
      let home := homeKey t
      if t.ty = 2#2 then set { w with s := s, status := w.status ||| stPoison }
      else if engOvlWaits s ctx w.hyp home then throw (.full ctx)
      else
        set { w with s := engStore s (jobParty s w.job) (.job w.job.id) (jobTenant s w.job) home va ctx w.hyp scopeDevice m b desc false }
    | (_, .wait) => throw .wait
    | (s, .fail _) => set { w with s := s, status := w.status ||| stPoison }

/-- Read `n` blocks. -/
def wBlocks (va : Nat) : Nat → WorkM (List BlkVal)
  | 0 => pure []
  | n + 1 => do
    let b ← wRead va
    let bs ← wBlocks (va + 64) n
    return b :: bs

/-- Read a scalar of 4 bytes. -/
def wWord (va : Nat) : WorkM (Word × Bool) := do
  let b ← wRead (va / 64 * 64)
  return (lane b.data (va % 64 / 4), b.psn)

/-- Write a scalar of 4 bytes. -/
def wSetWord (va : Nat) (x : Word) : WorkM Unit := wWrite (va / 64 * 64) (needMask false va) (wordBlock va x) none

/-- Read 128 bytes, and whether they are readable. -/
def wPair (va : Nat) : WorkM (BitVec 1024 × Bool) := do
  let a ← wRead va
  let b ← wRead (va + 64)
  return (joinBlocks a.data b.data, !a.psn && !b.psn)

/-- Write 128 bytes. -/
def wSetPair (va : Nat) (x : BitVec 1024) : WorkM Unit := do
  wWrite va (BitVec.allOnes 64) (bits x 0 512) none
  wWrite (va + 64) (BitVec.allOnes 64) (bits x 512 512) none

/-! ## Arithmetic (R137) -/

/-- Deliver a result and keep its flags. -/
def wFl (r : Word × Flags) : WorkM Word := do
  modify fun w => { w with flags := w.flags ||| r.2 }
  return r.1

/-- a + b -/
def wAdd (a b : Word) : WorkM Word := wFl (fadd rne a b)

/-- a − b -/
def wSub (a b : Word) : WorkM Word := wFl (fsub rne a b)

/-- a × b -/
def wMul (a b : Word) : WorkM Word := wFl (fmul rne a b)

/-- a × b + c -/
def wFma (a b c : Word) : WorkM Word := wFl (ffma rne a b c)

/-- f32(n) -/
def wF32 (n : Nat) : WorkM Word := wFl (int2f rne n)

/-- rcp_rn -/
def wRcp (a : Word) : WorkM Word := wFl (rcpRn a)

/-- sqrt_rn -/
def wSqrt (a : Word) : WorkM Word := wFl (sqrtRn a)

/-- fexp2 -/
def wExp (a : Word) : WorkM Word := wFl (fexp2 a)

/-- The larger in fp32 order (R143): of a NaN and a number, the number, as FMAX has it (DESIGN CHOICE, log 183). -/
def wMax (a b : Word) : WorkM Word := wFl (fminmax true a b)

/-- An operation of two vectors, element by element. -/
def zipM (f : Word → Word → WorkM Word) : List Word → List Word → WorkM (List Word)
  | a :: as, b :: bs => do
    let x ← f a b
    let xs ← zipM f as bs
    return x :: xs
  | _, _ => pure []

/-- The sum of products from +0, in index order: dot32 (R137). -/
def wDot (a b : List Word) : WorkM Word := (a.zip b).foldlM (fun acc p => wFma p.1 p.2 acc) 0#32

/-- norm32 (R137) -/
def wNorm (a : List Word) : WorkM Word := do wSqrt (← wDot a a)

/-- The largest of the terms, +0 when there are none (R143). -/
def wMaxOf : List Word → WorkM Word
  | [] => pure 0#32
  | x :: xs => xs.foldlM wMax x

/-! ## Vectors (R137, R140, R342) -/

/-- A data token's block as a command reads it: lanes outside the mask are 0 (R342), and so is a poisoned payload. -/
def Token.block (t : Token) : BlkVal :=
  ⟨if t.psn then 0#512 else if t.vec then mergeLanes 0#512 t.pay t.mask else t.pay, if t.vec then t.desc else 0x00FF#16, t.psn⟩

/-- Take the block of a token: one with PSN = 1 reads as 0 with status POISON, and what is made of it is not poisoned (DESIGN CHOICE,
log 186). -/
def wTok (t : Token) : WorkM BlkVal := do
  if t.psn then wStatus stPoison
  return t.block

/-- A narrow block's descriptor names another format, or a bad one (R414). -/
def badBlock (code : BitVec 8) (b : BlkVal) : Bool := decide (narrowM code < 0) || decide (bits b.desc 0 8 ≠ code)

/-- The code of element `e` of a narrow block of width `w` (R117). -/
def narrowElem (w : Nat) (b : Block) (e : Nat) : Nat :=
  if w = 4 then (if e < 64 then (blockByte b e).toNat % 16 else (blockByte b (e - 64)).toNat / 16) else (blockByte b e).toNat

/-- Element `e` of a block of a type, as fp32 (R137): fp32, fp16, bf16, or narrow under a code. -/
def blockElem (fmts : BitVec 128) (ty : Nat) (code : BitVec 8) (b : BlkVal) (e : Nat) : Word × Flags :=
  let half := (bits b.data (16 * e) 16).toNat
  match ty with
  | 0 => (lane b.data e, fNone)
  | 1 => w32 (fp16.convert fp32 rne half)
  | 2 => w32 (bf16.convert fp32 rne half)
  | _ =>
    if badBlock code b then (0#32, fBD)
    else (nfmt fmts code).dequant (bits b.desc 8 8) (narrowElem (codeWidth code) b.data e)

/-- The elements of a type that a block holds. -/
def blockLen (ty : Nat) (code : BitVec 8) : Nat :=
  match ty with
  | 0 => 16
  | 3 => 512 / codeWidth code
  | _ => 32

/-- The first `d` elements of a vector that stands in blocks. -/
def wVec (ty : Nat) (code : BitVec 8) : Nat → List BlkVal → WorkM (List Word)
  | _, [] => pure []
  | d, b :: bs => do
    let w ← get
    let fmts := fmtsOf (jobNode w.s w.job)
    let xs ← (List.range (Nat.min d (blockLen ty code))).mapM fun e => wFl (blockElem fmts ty code b e)
    let ys ← wVec ty code (d - blockLen ty code) bs
    return xs ++ ys

/-- A vector of fp32 elements as blocks. -/
def packVec (xs : List Word) (i : Nat) : Block := ofLanes fun l => xs.getD (16 * i + l) 0#32

/-- Write `d` elements of `by` bytes each, which stand in blocks: the bytes of the elements alone. -/
def wElems (va d by_ : Nat) (desc : Option (BitVec 16)) : Nat → List Block → WorkM Unit
  | _, [] => pure ()
  | i, b :: bs => do
    wWrite (va + 64 * i) (ofMask64 fun k => decide (64 * i + k < d * by_)) b desc
    wElems va d by_ desc (i + 1) bs

/-- Write a vector of fp32 elements. -/
def wSetVec (va : Nat) (xs : List Word) : WorkM Unit :=
  wElems va xs.length 4 none 0 ((List.range ((4 * xs.length + 63) / 64)).map (packVec xs))

/-! ## How a command ends -/

/-- The BDCNT of the node's VF counts a command that met a bad descriptor (R414). -/
def wCounted (s : State) (j : Job) (f : Flags) : State := if bitAt f 5 then countBd s (jobNode s j) else s

/-- A command's effect is made, and its job ends with it or goes on. -/
def workDone (s : State) (j : Job) (b : BitVec 16) (f : Flags) (ends : Bool) (out : List Token) : State :=
  modJob (wCounted s j f) j.id fun k =>
    { k with status := k.status ||| b ||| stFlags f, run := { k.run with acted := true, ends := ends, outq := out } }

/-- Work on a descriptor. -/
def newWork (s : State) (j : Job) (va : Nat) (d : BitVec 1024) (hyp : BitVec 6) : Work := ⟨s, j, va, d, hyp, fNone, 0#16, [], []⟩

/-- Descriptors share a pool's free list from now on (R144) (DEDUCED, log 55). -/
def joinPool (s : State) (tenant : BitVec 16) (pool : Nat) (vas : List Nat) : State :=
  let new := (vas.map fun va => (tenant, pool, va)).filter fun x => !s.hyps.trees.contains x
  { s with hyps := { s.hyps with trees := s.hyps.trees ++ new } }

/-- A pool is new: no descriptor of before shares it. -/
def leavePool (s : State) (tenant : BitVec 16) (pool : Nat) : State :=
  { s with hyps := { s.hyps with trees := s.hyps.trees.filter fun x => !(decide (x.1 = tenant) && decide (x.2.1 = pool)) } }

/-- POOL, NODES and STRIDE of two tree descriptors agree (R138). -/
def samePool (a b : BitVec 1024) : Bool :=
  decide ((bits a 0 56 : BitVec 56) = bits b 0 56) && decide ((bits a 320 32 : Word) = bits b 320 32) &&
    decide ((bits a 384 16 : BitVec 16) = bits b 384 16)

/-- FREE and NFREE of the descriptor at hand go to the others that share its pool and still name it (R144). -/
def shareFree : List (BitVec 16 × Nat × Nat) → WorkM Unit
  | [] => pure ()
  | x :: xs => do
    let w ← get
    if x.2.2 ≠ w.va ∧ x.1 = jobTenant w.s w.job ∧ x.2.1 = (bits w.desc 0 56).toNat then
      let other ← wPair x.2.2
      modify fun v => { v with status := w.status }
      if other.2 && samePool other.1 w.desc then wWrite x.2.2 0x00F0F00000000000#64 (bits w.desc 0 512) none
    shareFree xs

/-- Write the descriptor when the command has changed it, and what has become of its pool's free list to the trees that share it. -/
def wFlush (old : BitVec 1024) : WorkM Unit := do
  let w ← get
  if w.desc = old then pure ()
  else
    wSetPair w.va w.desc
    if engineClass w.job.eng = 3 ∧ ((bits w.desc 352 32 : Word) ≠ bits old 352 32 ∨ (bits w.desc 416 32 : Word) ≠ bits old 416 32) then
      shareFree w.s.hyps.trees

/-- Run a command's work to its end: `mark` makes the marks that an unreadable node leaves (R417). -/
def runWork (w0 : Work) (mark : Option Nat → WorkM Unit) (act : WorkM (List Token)) : State :=
  let whole : WorkM (List Token) := do
    let out ← act
    wFlush w0.desc
    return out
  match (whole.run.run w0) with
  | (.ok out, w) => workDone w.s w.job w.status w.flags false out
  | (.error .wait, w) => workHeld w0.s .wait w
  | (.error (.full ctx), w) => workHeld w0.s (.full ctx) w
  | (.error .pool, w) => workDone (keptWalks w0.s w) w0.job (w.status ||| stNodePool) w.flags true []
  | (.error .bad, w) =>
    match (wFlush w0.desc).run.run w with
    | (.error e, v) => workHeld w0.s e v
    | (.ok _, w) => workDone w.s w.job (w.status ||| stBad) w.flags true []
  | (.error (.unread m), w) =>
    match m with
    | none => workDone (keptWalks w0.s w) w0.job (w.status ||| stPoison) w.flags false []
    | some p =>
      match (mark p).run.run { w0 with s := keptWalks w0.s w } with
      | (.error e, v) => workHeld (keptWalks w0.s w) e v
      | (.ok _, v) => workDone v.s v.job (w.status ||| v.status ||| stPoison) w.flags false []

/-! ## Descriptor and tokens of a command -/

/-- Take the next data token, after the descriptor's two blocks that stand first in `taken`. -/
def workTake (j : Job) (s : State) : State :=
  match takeData s j with
  | (s, some t) => modRun s j.id fun r => { r with taken := r.taken ++ [t] }
  | (s, none) => s

/-- The first step of a command with a descriptor of 128 bytes (R340, R417): a poisoned one makes it perform no access; one that
breaks its limits is BADCMD, and the tokens that it determines are still taken. -/
def openDesc (va : Nat) (hyp : BitVec 6) (ok : BitVec 1024 → Bool) (left : BitVec 1024 → Nat) (j : Job) (s : State) : State :=
  match (wPair va).run.run (newWork s j va 0#1024 hyp) with
  | (.error e, w) => workHeld s e w
  | (.ok (d, readable), w) =>
    if !readable then killCommand w.s j w.status false 0
    else if !ok d then killCommand w.s j (w.status ||| stBad) true (left d)
    else
      let blocks := [blockTok (bits d 0 512), blockTok (bits d 512 512)]
      modJob w.s j.id fun k => { k with status := k.status ||| w.status, run := { k.run with taken := blocks } }

/-- One step of such a command: read the descriptor, take the tokens, then act as a whole. -/
def workStep (va : Nat) (hyp : BitVec 6) (ok : BitVec 1024 → Bool) (left need : BitVec 1024 → Nat) (mark : Option Nat → WorkM Unit)
    (act : List Token → WorkM (List Token)) (j : Job) (s : State) : State :=
  match j.run.taken with
  | a :: b :: toks =>
    let d := joinBlocks a.pay b.pay
    if toks.length < need d then workTake j s
    else runWork (newWork s j va d hyp) mark (act toks)
  | _ => openDesc va hyp ok left j s

end Sys2Proof.Machine
end

