-- ==== Sys2Proof/Machine/Mx.lean ====
section
/-! DEFINITION. The matrix tiles (R343 to R348, R129, R414, R415): which command starts, the weight buffer, the multiply over K-slices,
and the drain. -/

namespace Sys2Proof.Machine

/-! ## Which command starts (R343, R415) -/

/-- SLOT of an MX command. -/
def mxSlot (c : BitVec 88) : Nat := (bits c 85 3).toNat

/-- VER of an MX command. -/
def mxVer (c : BitVec 88) : BitVec 16 := bits c 69 16

/-- The slot that a word names; MXLDB names none. -/
def mxNames (w : BitVec 128) : Option Nat := if opcOfWord w = 0x10#8 then none else some (mxSlot (bits w 0 88))

/-- The commands that run at an MX. -/
def mxRunning (s : State) (eng : EngId) : List Job :=
  s.dist.jobs.filter fun j => decide (j.eng = eng) && j.started && !j.ended && j.run.started && !j.run.acted && !j.run.dead

/-- No command runs on the slot that a word names. -/
def slotIdle (s : State) (eng : EngId) (w : BitVec 128) : Bool :=
  match mxNames w with
  | none => true
  | some k => !(mxRunning s eng).any fun j => decide (mxNames (jobWord s j) = some k)

/-- Every earlier command of the same issuer at the MX has completed; a job whose end is still to be told has completed its own. -/
def issuerClear (s : State) (j : Job) : Bool :=
  !s.dist.jobs.any fun k =>
    decide (k.eng = j.eng) && decide (k.issuer = j.issuer) && decide (k.id < j.id) && decide (k.inst = j.inst) && !k.ended

/-- The command of a job is ready (R343, R415). -/
def mxReady (s : State) (j : Job) : Bool :=
  let w := jobWord s j
  let opc := opcOfWord w
  slotIdle s j.eng w &&
  (if opc = 0x11#8 ∨ opc = 0x13#8 ∨ opc = 0x14#8 then
      decide (vget 0#16 (getMx s (engSite j.eng)).ver (mxSlot (bits w 0 88)) = mxVer (bits w 0 88))
    else issuerClear s j)

/-- The word is one that the MX executes (R244): its own opcode, no broken limit, a place that the region may name. -/
def mxWordOk (s : State) (j : Job) : Bool :=
  let w := jobWord s j
  cmdOk (opcOfWord w).toNat j.eng (cmdOfWord w) && decide ((opcOfWord w).toNat ≤ 0x15) && cmdPlaceOk s j (cmdOfWord w)

/-- The commands that wait at an MX and could start now (DEDUCED, log 47). -/
def mxStartable (s : State) (eng : EngId) : List Job :=
  s.dist.jobs.filter fun j => decide (j.eng = eng) && j.started && !j.ended && j.run.fresh && !j.refuted && !jobAborted s j &&
    mxWordOk s j && engMayRun s j && mxReady s j

/-- The job whose command arrived first. -/
def earliest : List Job → Option Job
  | [] => none
  | j :: js =>
    match earliest js with
    | none => some j
    | some k => if k.run.arr < j.run.arr then some k else some j

/-- MX_COMMAND_START (R343): in a cycle in which the array is free, the ready command that arrived earliest starts. -/
def execMxCommandStart (site : BitVec 12) (s : State) : Host.Outcome State Fault Refusal :=
  let eng : EngId := site.setWidth 13
  let m := getMx s site
  if now s < m.startNext ∨ (mxRunning s eng).any (fun j => mxIsMul (jobWord s j)) then .next s
  else
    match earliest (mxStartable s eng) with
    | none => .next s
    | some j =>
      let s := setMx s site { m with startNext := now s + 1 }
      .next (modRun s j.id fun r => { r with started := true, at0 := now s })

/-- Change an MX. -/
def modMx (s : State) (j : Job) (f : Mx → Mx) : State := setMx s (engSite j.eng) (f (getMx s (engSite j.eng)))

/-- A slot command completes: its version advances (R343). -/
def mxComplete (s : State) (j : Job) (slot : Nat) : State :=
  actDone (modMx s j fun m => { m with ver := vset m.ver slot (vget 0#16 m.ver slot + 1#16) }) j 0#16 []

/-! ## The weight buffer (R344, R411) -/

/-- Store one block: +0 with descriptor 0x00FF for a poisoned one, and under a refuted id. -/
def loadWeight (s : State) (j : Job) (i : Nat) (b : BlkVal) : State :=
  let zero := b.psn || j.refuted
  let s := modMx s j fun m =>
    { m with
      wdat := Table.set 0#512 m.wdat i (if zero then 0#512 else b.data)
      wdesc := Table.set 0x00FF#16 m.wdesc i (if zero then 0x00FF#16 else b.desc)
      whyp := Table.set 0#6 m.whyp i (if j.refuted then 0#6 else j.hyp) }
  let s := if b.psn then orStatus s j.id stPoison else s
  modRun s j.id fun r => { r with i := r.i + 1, awaits := [] }

/-- A remote read of one block for a job (R366). -/
def jobRead64 (s : State) (j : Job) (home : Nat) : State :=
  let idx := s.links.nextIdx
  let s := pushRemote s (remoteOf s (.job j.id) (jobTenant s j) 0#3 home 1)
  modRun s j.id fun r => { r with awaits := [idx] }

/-- One step of MXLDB: a block from the data input, or from global memory at the scope of LVL. -/
def mxldbStep (c : Cmd) (j : Job) (s : State) : State :=
  let woff := (bits c.ops 75 13).toNat
  let n := (bits c.ops 62 13).toNat + 1
  if !j.run.started || !j.run.awaits.isEmpty then s
  else if n ≤ j.run.i then actDone s j 0#16 []
  else if bitAt c.ops 61 then
    if dataTurn s j then
      match takeData s j with
      | (s, some t) => loadWeight s j (woff + j.run.i) t.block
      | (s, none) => s
    else s
  else
    match jobXlate s j ((bits c.ops 0 56).toNat + 64 * j.run.i) false with
    | (s, .ok t) =>
      if t.ty = 2#2 then jobRead64 s j (homeKey t)
      else loadWeight s j (woff + j.run.i) (view s (jobParty s j) (homeKey t) (ctxOf (jobNode s j)) j.hyp)
    | (s, .wait) => s
    | (s, .fail _) => loadWeight (orStatus s j.id stPoison) j (woff + j.run.i) ⟨0#512, 0x00FF#16, false⟩

/-- MXLDB (R344). -/
def execMxldb (eng : EngId) (c : Cmd) (s : State) : Host.Outcome State Fault Refusal :=
  engRun 0x10#8 eng c (fun _ _ => if bitAt c.ops 61 then (bits c.ops 62 13).toNat + 1 else 0) (mxldbStep c) s

/-! ## Multiply (R345, R346, R129) -/

/-- K of a slice by KIND: 64 for 8-bit, 128 for 4-bit, 32 for 16-bit data. -/
def kindK (kind : Nat) : Nat :=
  match kind with
  | 0 => 64
  | 1 => 128
  | _ => 32

/-- The descriptor matches the KIND: a good code of the width, or 0x00FF. -/
def kindDesc (kind : Nat) (desc : BitVec 16) : Bool :=
  let code := bits desc 0 8
  match kind with
  | 0 => decide (0 ≤ narrowM code) && !bitAt code 7
  | 1 => decide (0 ≤ narrowM code) && bitAt code 7
  | _ => decide (desc = 0x00FF#16)

/-- Element `k` of a block of a KIND as a value: narrow ones as value × factor, exactly. -/
def kindElem (fmts : BitVec 128) (kind : Nat) (b : Block) (desc : BitVec 16) (k : Nat) : FVal :=
  let half := (bits b (16 * k) 16).toNat
  match kind with
  | 2 => fp16.unpack half
  | 3 => bf16.unpack half
  | _ => scaledVal ((nfmt fmts (bits desc 0 8)).value (narrowElem (if kind = 1 then 4 else 8) b k)) (bits desc 8 8)

/-- +0 as a value. -/
def vZero : FVal := .fin false 0 0

/-- Block `i` of the weight buffer. -/
def weight (m : Mx) (i : Nat) : Block × BitVec 16 := (Table.get 0#512 m.wdat i, Table.get 0x00FF#16 m.wdesc i)

/-- The metadata nibble of column `n` and group `g` of a 2-of-4 tile (R345). -/
def nibble (m : Mx) (base kk n g : Nat) : BitVec 4 :=
  let at0 := n * kk / 8 + g / 2
  let b := blockByte (weight m (base + 32 + at0 / 64)).1 (at0 % 64)
  if g % 2 = 0 then bits b 0 4 else bits b 4 4

/-- A nibble whose indices do not rise. -/
def badNibble (x : BitVec 4) : Bool := decide ((bits x 2 2).toNat ≤ (bits x 0 2).toNat)

/-- The column `n` of a dense or 2-of-4 tile, element 0 first (R345). -/
def column (fmts : BitVec 128) (kind : Nat) (sp : Bool) (m : Mx) (base n : Nat) : List FVal :=
  let kk := kindK kind
  if sp then
    let v := weight m (base + n / 2)
    let kept (i : Nat) : FVal := kindElem fmts kind v.1 v.2 ((n % 2) * (kk / 2) + i)
    (List.range kk).map fun k =>
      let g := k / 4
      let x := nibble m base kk n g
      if badNibble x then vZero
      else if k % 4 = (bits x 0 2).toNat then kept (2 * g)
      else if k % 4 = (bits x 2 2).toNat then kept (2 * g + 1)
      else vZero
  else
    let v := weight m (base + n)
    (List.range kk).map fun k => kindElem fmts kind v.1 v.2 k

/-- A value block of the tile has a bad or mismatched descriptor. -/
def tileBad (kind : Nat) (sp : Bool) (m : Mx) (base : Nat) : Bool :=
  (List.range (if sp then 32 else 64)).any fun i => !kindDesc kind (weight m (base + i)).2

/-- A metadata nibble of the tile is bad. -/
def nibblesBad (kind : Nat) (sp : Bool) (m : Mx) (base : Nat) : Bool :=
  sp && (List.range 64).any fun n => (List.range (kindK kind / 4)).any fun g => badNibble (nibble m base (kindK kind) n g)

/-- The key of an accumulator element. -/
def accKey (slot r n : Nat) : Nat := slot * 4096 + r * 64 + n

/-- An accumulator element. -/
def accAt (m : Mx) (slot r n : Nat) : Word := Table.get 0#32 m.acc (accKey slot r n)

/-- One row of one slice: every column takes one rounding of the exact sum (R129). -/
def mulRow (fmts : BitVec 128) (kind : Nat) (sp bad : Bool) (slot r base : Nat) (a : BlkVal) (m : Mx) : Mx :=
  let as := (List.range (kindK kind)).map fun k => kindElem fmts kind a.data a.desc k
  let put (acc : Table Word) (n : Nat) : Table Word :=
    let ps := if bad then [(vZero, vZero)] else as.zip (column fmts kind sp m base n)
    Table.set 0#32 acc (accKey slot r n) (dotRound rne ps (v32 (accAt m slot r n))).1
  { m with acc := (List.range 64).foldl put m.acc }

/-- Fields of a multiply. -/
structure MulArgs where
  slot : Nat
  base : Nat
  rows : Nat
  slices : Nat
  sp : Bool
  kind : Nat
  deriving DecidableEq, Repr

/-- The fields of a multiply's word. -/
def mulArgs (c : BitVec 88) : MulArgs :=
  ⟨mxSlot c, (bits c 56 13).toNat, (bits c 50 6).toNat + 1, (bits c 40 10).toNat + 1, bitAt c 39, (bits c 37 2).toNat⟩

/-- The count of the VF's bad descriptors rises once for a command (R414). -/
def mxBadDesc (s : State) (j : Job) : State :=
  let s := orStatus s j.id stBadDesc
  if j.run.bd then s else modRun (countBd s (jobNode s j)) j.id fun r => { r with bd := true }

/-- One A token of a multiply (DEDUCED, log 49). -/
def mulToken (x : MulArgs) (t : Token) (j : Job) (s : State) : State :=
  let site := engSite j.eng
  let base := x.base + j.run.i * mxTileBlocks x.sp (BitVec.ofNat 2 x.kind)
  let a := t.block
  let m := getMx s site
  let bad := !kindDesc x.kind a.desc || tileBad x.kind x.sp m base
  let s := setMx s site (mulRow (fmtsOf (jobNode s j)) x.kind x.sp bad x.slot j.run.j base a m)
  let s := if bad then mxBadDesc s j else s
  let s := if nibblesBad x.kind x.sp m base then orStatus s j.id stBadDesc else s
  let s := if t.psn then orStatus s j.id stPoison else s
  modRun s j.id fun r => if r.j + 1 < x.rows then { r with j := r.j + 1 } else { r with i := r.i + 1, j := 0 }

/-- One step of MXMUL or MXMULO: an A token, or an EOT that skips the rows left in its slice (R346). -/
def mulStep (c : Cmd) (j : Job) (s : State) : State :=
  let x := mulArgs c.ops
  if !j.run.started then s
  else if x.slices ≤ j.run.i then mxComplete s j x.slot
  else if dataTurn s j then
    match dataHead s j with
    | none => s
    | some t =>
      if t.isCode 1#8 then modRun (popData s j) j.id fun r => { r with i := r.i + 1, j := 0 }
      else if t.ctrl then popData s j
      else mulToken x t j (popData s j)
  else s

/-- The tokens that a multiply takes. -/
def mulTokens (c : Cmd) : Nat := (mulArgs c.ops).rows * (mulArgs c.ops).slices

/-- MXMUL (R346). -/
def execMxmul (eng : EngId) (c : Cmd) (s : State) : Host.Outcome State Fault Refusal :=
  engRun 0x11#8 eng c (fun _ _ => mulTokens c) (mulStep c) s

/-- MXMULO (R346, R343). -/
def execMxmulo (eng : EngId) (c : Cmd) (s : State) : Host.Outcome State Fault Refusal :=
  engRun 0x12#8 eng c (fun _ _ => mulTokens c) (mulStep c) s

/-! ## Drain (R347) -/

/-- The magnitude of an element in the choice of a scale: the finite ones count (R124). -/
def finiteMag (w : Word) : Dy :=
  match v32 w with
  | .fin _ m e => ⟨m, e⟩
  | _ => ⟨0, 0⟩

/-- The largest finite magnitude. -/
def largest (xs : List Word) : Dy := xs.foldl (fun a w => if a.lt (finiteMag w) then finiteMag w else a) ⟨0, 0⟩

/-- The row of a slot. -/
def accRow (m : Mx) (slot r : Nat) : List Word := (List.range 64).map fun n => accAt m slot r n

/-- A narrow token of the drain: quantised under a scale, with its descriptor (R123, R125, R347). -/
def drainNarrow (fmts : BitVec 128) (code : BitVec 8) (autos : Bool) (oscale : BitVec 8) (xs : List Word) : Block × BitVec 16 :=
  let f := nfmt fmts code
  let sc := if autos then f.scaleFor (largest xs) else oscale
  let q (e : Nat) : Nat := (f.quant (.mode f.rnd) sc (xs.getD e 0#32)).1
  let byte (i : Nat) : Byte := if f.w = 4 then BitVec.ofNat 8 (q i % 16 + 16 * (q (64 + i) % 16)) else BitVec.ofNat 8 (q i)
  (ofBytes byte, sc ++ code)

/-- Token `k` of a drain (R347). -/
def drainToken (fmts : BitVec 128) (c : BitVec 88) (m : Mx) (k : Nat) : Block × BitVec 16 :=
  let slot := mxSlot c
  let rows := (bits c 43 6).toNat + 1
  let code : BitVec 8 := bits c 61 8
  match (bits c 59 2).toNat with
  | 0 => (ofLanes fun l => accAt m slot (k / 4) (16 * (k % 4) + l), 0x00FF#16)
  | 3 =>
    if codeWidth code = 4 then
      let two := accRow m slot (2 * k) ++ (if 2 * k + 1 < rows then accRow m slot (2 * k + 1) else [])
      drainNarrow fmts code (bitAt c 57) (bits c 49 8) two
    else drainNarrow fmts code (bitAt c 57) (bits c 49 8) (accRow m slot k)
  | n =>
    let f := if n = 1 then fp16 else bf16
    let h (i : Nat) : Nat := (fp32.convert f rne (accAt m slot (k / 2) (32 * (k % 2) + i)).toNat).1
    (ofLanes fun l => BitVec.ofNat 32 (h (2 * l) + 65536 * h (2 * l + 1)), 0x00FF#16)

/-- The tokens of a drain. -/
def drainCount (c : BitVec 88) : Nat :=
  let rows := (bits c 43 6).toNat + 1
  match (bits c 59 2).toNat with
  | 0 => 4 * rows
  | 3 => if codeWidth (bits c 61 8) = 4 then (rows + 1) / 2 else rows
  | _ => 2 * rows

/-- Write +0 to rows of a slot. -/
def clearRows (m : Mx) (slot rows : Nat) : Mx :=
  { m with acc := m.acc.filter fun e => !(decide (accKey slot 0 0 ≤ e.1) && decide (e.1 < accKey slot rows 0)) }

/-- One step of MXDRN: a token leaves, and with the last one the version advances. -/
def mxdrnStep (c : Cmd) (j : Job) (s : State) : State :=
  if !j.run.started then s
  else if drainCount c.ops ≤ j.run.i then
    let s := if bitAt c.ops 58 then modMx s j fun m => clearRows m (mxSlot c.ops) ((bits c.ops 43 6).toNat + 1) else s
    mxComplete s j (mxSlot c.ops)
  else
    let x := drainToken (fmtsOf (jobNode s j)) c.ops (getMx s (engSite j.eng)) j.run.i
    match engSend s j (vectorTok x.1 0xFFFF#16 x.2 j.hyp j.refuted false) with
    | some s => modRun s j.id fun r => { r with i := r.i + 1 }
    | none => s

/-- MXDRN (R347). -/
def execMxdrn (eng : EngId) (c : Cmd) (s : State) : Host.Outcome State Fault Refusal := engRun 0x13#8 eng c (fun _ _ => 0) (mxdrnStep c) s

/-! ## Zero and version (R348) -/

/-- MXZERO (R348): +0 in all elements of a slot; the version then advances. -/
def execMxzero (eng : EngId) (c : Cmd) (s : State) : Host.Outcome State Fault Refusal :=
  engRun 0x14#8 eng c (fun _ _ => 0) (fun j s =>
    if !j.run.started then s else mxComplete (modMx s j fun m => clearRows m (mxSlot c.ops) 64) j (mxSlot c.ops)) s

/-- MXVER (R348): sets the version of a slot. -/
def execMxver (eng : EngId) (c : Cmd) (s : State) : Host.Outcome State Fault Refusal :=
  engRun 0x15#8 eng c (fun _ _ => 0) (fun j s =>
    if !j.run.started then s
    else actDone (modMx s j fun m => { m with ver := vset m.ver (mxSlot c.ops) (mxVer c.ops) }) j 0#16 []) s

end Sys2Proof.Machine
end

