-- ==== Sys2Proof/Machine/Cp.lean ====
section
/-! DEFINITION. The copy engines (R349 to R356, R411): copies between global memory, scratchpads, channels and peers, their credits,
the collectives, and the messages between ranks. -/

namespace Sys2Proof.Machine

/-! ## The copy descriptor (R349) -/

/-- CRED0 -/
def CopyDesc.cred0 (d : CopyDesc) : Nat := (bits d 321 7).toNat

/-- SYNCV -/
def CopyDesc.syncv (d : CopyDesc) : Bool := bitAt d 320

/-- SYNCSITE -/
def CopyDesc.syncSite (d : CopyDesc) : Site := bits d 288 12

/-- SYNCOFF -/
def CopyDesc.syncOff (d : CopyDesc) : Nat := (bits d 300 20).toNat

/-- NODE -/
def CopyDesc.node (d : CopyDesc) : BitVec 12 := bits d 352 12

/-- CHSITE -/
def CopyDesc.chSite (d : CopyDesc) : Site := bits d 336 12

/-- CHV -/
def CopyDesc.chv (d : CopyDesc) : Bool := bitAt d 348

/-- CHCMD -/
def CopyDesc.chcmd (d : CopyDesc) : BitVec 128 := bits d 384 128

/-- CPFILL, CPCHAIN, CPPUT and CPGET. -/
def isFill (opc : BitVec 8) : Bool := decide (opc = 0x21#8)

/-- CPCHAIN -/
def isChain (opc : BitVec 8) : Bool := decide (opc = 0x22#8)

/-- CPPUT -/
def isPut (opc : BitVec 8) : Bool := decide (opc = 0x23#8)

/-- CPGET -/
def isGet (opc : BitVec 8) : Bool := decide (opc = 0x24#8)

/-- The site is a memory tile of the issuing region. -/
def ownMt (s : State) (j : Job) (site : Site) : Bool := decide (siteKind site = .mt) && decide (regionOf s site = some j.inst)

/-- Every row of a scratchpad side lies within it. -/
def rowsInSpad (d : CopyDesc) (base : Nat) (str : Int) : Bool :=
  (List.range d.rows).all fun r =>
    let a : Int := (base : Int) + (r : Nat) * str
    decide (0 ≤ a) && decide (a + (d.rowb : Nat) ≤ (spadSize : Nat))

/-- The reserved bits of a copy descriptor. -/
def CopyDesc.clean (d : CopyDesc) : Bool :=
  decide (bits d 364 20 = 0#20) && decide (bits d 349 3 = 0#3) && decide (bits d 328 8 = 0#8) && decide (bits d 176 16 = 0#16) &&
  decide (bits d 156 4 = 0#4) && decide (bits d 120 8 = 0#8) && decide (bits d 56 8 = 0#8)

/-- The limits of fields that stand by themselves (R349). -/
def copyFields (opc : BitVec 8) (d : CopyDesc) : Bool :=
  d.clean && (isFill opc || decide (d.src % 64 = 0)) && decide (1 ≤ d.rows) && decide (1 ≤ d.rowb) &&
  decide (d.rowb % 64 = 0) && decide (d.sstr % 64 = 0) && decide (d.dstr % 64 = 0) && decide (d.dst % 64 = 0) &&
  decide (d.dkind ≠ 3) && (isFill opc || decide (d.skind ≠ 3)) && (isChain opc || decide (d.chcmd = 0#128)) &&
  (if isPut opc || isGet opc then decide (d.node ≠ 0#12) else decide (d.node = 0#12)) &&
  (decide (d.dkind ≠ 2) || (decide (1 ≤ d.cred0) && decide (d.cred0 ≤ 64))) &&
  (!d.syncv || (decide (d.syncOff % 16 = 0) && decide (d.syncOff + 16 ≤ spadSize)))

/-- The ends of a copy agree with its command and its region (R349, R352, R353). -/
def copyEnds (s : State) (j : Job) (opc : BitVec 8) (d : CopyDesc) : Bool :=
  let srcSpad := decide (d.skind = 1) && !isFill opc
  let dstSpad := decide (d.dkind = 1)
  (isFill opc || !(decide (d.skind = 2) && decide (d.dkind = 2))) &&
  (!isPut opc || (dstSpad && decide (siteKind d.dstSite = .mt))) && (!isGet opc || (srcSpad && decide (siteKind d.srcSite = .mt))) &&
  (!srcSpad || (rowsInSpad d d.src d.sstr && (isGet opc || ownMt s j d.srcSite))) &&
  (!dstSpad || (rowsInSpad d d.dst d.dstr && (isPut opc || ownMt s j d.dstSite))) &&
  (!d.syncv || (if isPut opc then decide (siteKind d.syncSite = .mt) else ownMt s j d.syncSite)) &&
  (!isChain opc || (d.chv && decide (siteKind d.chSite = .mx) && decide (regionOf s d.chSite = some j.inst)))

/-- The tokens that a copy takes from the data input, when ROWB determines them (R340). -/
def copyTokens (opc : BitVec 8) (d : CopyDesc) : Nat := if isFill opc ∨ d.skind ≠ 2 ∨ d.rowb % 64 ≠ 0 then 0 else d.blocks

/-! ## A copy's steps -/

/-- Change a copy engine. -/
def modCp (s : State) (j : Job) (f : Cp → Cp) : State := setCp s (engSite j.eng) (f (getCp s (engSite j.eng)))

/-- The copy is over: it runs no longer. -/
def cpStop (s : State) (j : Job) : State := modCp s j fun c => { c with running := false }

/-- The copy stops with a status that ends its job, still taking the tokens that it has not taken (R340). -/
def cpKill (s : State) (j : Job) (opc : BitVec 8) (d : CopyDesc) (b : BitVec 16) : State :=
  killCommand (cpStop s j) j b true (copyTokens opc d - (j.run.i + (j.run.taken.length - 1)))

/-- A global or scratchpad block for a copy, a poisoned one as such, with status POISON (R404). -/
def pushBlock (s : State) (j : Job) (b : BlkVal) : State :=
  let s := if b.psn then orStatus s j.id stPoison else s
  let t := vectorTok (if b.psn then 0#512 else b.data) 0xFFFF#16 b.desc 0#6 false b.psn
  modRun s j.id fun r => { r with taken := r.taken ++ [t] }

/-- A descriptor block of 64 bytes as a copy engine reads it: none while it waits; a failed translation and a TYPE 2 page read +0
(DEDUCED, log 76). -/
def cpRead (s : State) (j : Job) (va : Nat) : State × Option BlkVal :=
  match jobXlate s j va false with
  | (s, .ok t) =>
    if t.ty = 2#2 then (orStatus s j.id stPoison, some ⟨0#512, 0x00FF#16, false⟩)
    else
      let (s, b) := engLoad s (jobParty s j) (homeKey t) (ctxOf (jobNode s j)) j.hyp
      (if b.psn then orStatus s j.id stPoison else s, some b)
  | (s, .wait) => (s, none)
  | (s, .fail _) => (orStatus s j.id stPoison, some ⟨0#512, 0x00FF#16, false⟩)

/-- The first step of a command with a descriptor of 64 bytes: `start` follows when it is good. -/
def cpOpen (c : Cmd) (ok : State → BitVec 512 → Bool) (left : BitVec 512 → Nat) (start : State → BitVec 512 → State) (j : Job)
    (s : State) : State :=
  match cpRead s j (bits c.ops 0 56).toNat with
  | (s, none) => s
  | (s, some b) =>
    if b.psn then killCommand s j 0#16 false 0
    else if !ok s b.data then killCommand s j stBad true (left b.data)
    else modRun (start s b.data) j.id fun r => { r with taken := [blockTok b.data] }

/-- A copy starts: with the credits of its descriptor and the notices kept (R351) (DEDUCED, log 73). -/
def cpStart (j : Job) (s : State) (d : CopyDesc) : State :=
  if d.dkind = 2 then
    modCp s j fun c => { c with credits := addCredits (BitVec.ofNat 16 d.cred0) c.kept.toNat, kept := 0#16, running := true }
  else s

/-- The scratchpad offset of block `b` of a side. -/
def spadAt (d : CopyDesc) (base : Nat) (str : Int) (b : Nat) : Nat := (d.at base str b) % 2 ^ 20

/-- The blocks of a piece that goes to or comes from a peer (R353, R191): 4, 2 or 1, aligned, within the row. -/
def pieceOf (addr rest : Nat) : Nat := if addr % 256 = 0 ∧ 4 ≤ rest then 4 else if addr % 128 = 0 ∧ 2 ≤ rest then 2 else 1

/-- The blocks from `b` to the end of its row. -/
def rowRest (d : CopyDesc) (b : Nat) : Nat := d.rowBlocks - b % d.rowBlocks

/-- Queue a remote request of a copy and await its answer. -/
def cpRemote (s : State) (j : Job) (r : Remote) : State :=
  let idx := s.links.nextIdx
  modRun (pushRemote s r) j.id fun x => { x with awaits := [idx] }

/-- Request blocks of a peer's scratchpad (CPGET). -/
def cpAsk (s : State) (j : Job) (d : CopyDesc) (b : Nat) : State :=
  let off := spadAt d d.src d.sstr b
  let r := remoteOf s (.job j.id) (jobTenant s j) 6#3 0 (pieceOf off (rowRest d b))
  cpRemote s j { r with node := d.node, addr := d.srcSite.toNat * 2 ^ 20 + off }

/-- Fetch source block `b` of a copy. -/
def cpFetch (opc : BitVec 8) (d : CopyDesc) (b : Nat) (j : Job) (s : State) : State :=
  if isFill opc then
    let w := lane d 0
    pushBlock s j ⟨splat w, bits d 32 16, false⟩
  else if isGet opc then cpAsk s j d b
  else
    match d.skind with
    | 0 =>
      match jobXlate s j (d.srcAt b) false with
      | (s, .ok t) =>
        if t.ty = 2#2 then cpRemote s j (remoteOf s (.job j.id) (jobTenant s j) 0#3 (homeKey t) 1)
        else
          let (s, b) := engLoad s (jobParty s j) (homeKey t) (ctxOf (jobNode s j)) j.hyp
          pushBlock s j b
      | (s, .wait) => s
      | (s, .fail _) => pushBlock (orStatus s j.id stPoison) j ⟨0#512, 0x00FF#16, false⟩
    | 1 => pushBlock s j (spadBlock s d.srcSite (spadAt d d.src d.sstr b))
    | _ =>
      match takeData s j with
      | (s, some t) => pushBlock s j { t.block with data := if t.psn then 0#512 else t.block.data }
      | (s, none) => s

/-- The sync addition of landed blocks at a local sync word (R350). -/
def cpSync (s : State) (d : CopyDesc) (n : Nat) : State := if d.syncv then queueSync s d.syncSite d.syncOff (64 * n) else s

/-- `n` blocks leave the blocks in hand. -/
def cpGone (s : State) (j : Job) (n : Nat) : State :=
  modRun s j.id fun r => { r with i := r.i + n, taken := r.taken.take 1 ++ r.taken.drop (1 + n), awaits := [] }

/-- `n` blocks have landed: they leave the blocks in hand, and their sync additions are made. -/
def cpLanded (s : State) (j : Job) (d : CopyDesc) (put : Bool) (n : Nat) : State := cpGone (if put then s else cpSync s d n) j n

/-- The scope of a copy's global side (R339, R350, R353). -/
def cpScope (s : State) (j : Job) (opc : BitVec 8) (c : Cmd) : BitVec 3 :=
  if isPut opc || isGet opc then scopeTenant else jobScope s j c.lvl

/-- Write the first block in hand to its destination (R350, R351, R353): a block that lands nowhere counts nothing. -/
def cpStore (opc : BitVec 8) (c : Cmd) (d : CopyDesc) (b : Nat) (t : Token) (j : Job) (s : State) : State :=
  match d.dkind with
  | 0 =>
    match jobXlate s j (d.dstAt b) true with
    | (s, .ok x) =>
      let ctx := ctxOf (jobNode s j)
      let home := homeKey x
      let put (scope : BitVec 3) : State :=
        engStore s (jobParty s j) (.job j.id) (jobTenant s j) home (d.dstAt b) ctx j.hyp scope (BitVec.allOnes 64) t.pay (some t.desc) t.psn
      if x.ty = 2#2 ∧ j.hyp = 0#6 then modRun (put scopeTenant) j.id fun x => { x with awaits := [s.links.nextIdx] }
      else if engOvlWaits s ctx j.hyp home then ovlHold s ctx j.hyp
      else cpLanded (put (cpScope s j opc c)) j d false 1
    | (s, .wait) => s
    | (s, .fail _) => cpGone (orStatus s j.id stPoison) j 1
  | 1 =>
    if syncBusy s d.dstSite (spadAt d d.dst d.dstr b) 64 then s else
    let s := spadStore s d.dstSite (spadAt d d.dst d.dstr b) (BitVec.allOnes 64) t.pay (some t.desc) t.psn
    cpLanded s j d false 1
  | _ =>
    let k := getCp s (engSite j.eng)
    if k.credits = 0#16 then s
    else
      match engSend s j (vectorTok t.pay 0xFFFF#16 t.desc j.hyp j.refuted t.psn) with
      | some s => cpLanded (modCp s j fun c => { c with credits := c.credits - 1#16 }) j d false 1
      | none => s

/-- Send the blocks in hand to a peer's scratchpad, with the sync word that they count on there (CPPUT). -/
def cpSend (d : CopyDesc) (b n : Nat) (toks : List Token) (j : Job) (s : State) : State :=
  let off := spadAt d d.dst d.dstr b
  let r := remoteOf s (.job j.id) (jobTenant s j) 5#3 0 n
  let r := ((List.range n).zip toks).foldl (fun (r : Remote) p =>
    { r with data := setBits r.data (512 * p.1) p.2.pay, descs := setBits r.descs (16 * p.1) p.2.desc,
             psn := setBits r.psn p.1 (BitVec.ofBool p.2.psn) }) r
  let sync : BitVec 33 := BitVec.ofBool d.syncv ++ d.syncSite ++ BitVec.ofNat 20 d.syncOff
  cpRemote s j { r with node := d.node, addr := d.dstSite.toNat * 2 ^ 20 + off, dset := true, mask := sync.setWidth 256 }

/-- CPCHAIN's last step (R352): CHCMD is a job at its MX, with this job as its issuer (DEDUCED, log 48), which reaches the die's
distributor from the copy engine's site (R109). -/
def cpChainOut (s : State) (j : Job) (d : CopyDesc) : State :=
  arriveJob s (engSite j.eng) (newJob (d.chSite.setWidth 13) j.inst (issuerJob j.id) j.hyp j.refuted false d.chcmd none 0xFFFFFF#24)

/-- One step of a copy: fetch a block, land it, or end. A refuted job's copy stops at once (R411) (DEDUCED, log 72). -/
def copyStep (opc : BitVec 8) (c : Cmd) (j : Job) (s : State) : State :=
  match j.run.taken with
  | [] => cpOpen c (fun s d => copyFields opc d && copyEnds s j opc d) (copyTokens opc) (cpStart j) j s
  | d0 :: toks =>
    let d : CopyDesc := d0.pay
    if !j.run.awaits.isEmpty then s
    else if j.refuted then cpKill s j opc d stRefuted
    else if d.blocks ≤ j.run.i then
      if isChain opc && d.syncv && syncBusy s d.syncSite d.syncOff 16 then s
      else actDone (cpStop (if isChain opc then cpChainOut s j d else s) j) j 0#16 []
    else
      let want := if isPut opc then pieceOf (spadAt d d.dst d.dstr j.run.i) (rowRest d j.run.i) else 1
      if toks.length < want then cpFetch opc d (j.run.i + toks.length) j s
      else if isPut opc then cpSend d j.run.i want toks j s
      else
        match toks with
        | t :: _ => cpStore opc c d j.run.i t j s
        | [] => s

/-- The tokens of a copy's word whose place is bad, from its descriptor (R340). -/
def copyWordTokens (opc : BitVec 8) (c : Cmd) (s : State) (j : Job) : Nat :=
  match peekBlock s j (bits c.ops 0 56).toNat with
  | some b => copyTokens opc b.data
  | none => 0

/-- CPCOPY (R350). -/
def execCpcopy (eng : EngId) (c : Cmd) (s : State) : Host.Outcome State Fault Refusal :=
  engRun 0x20#8 eng c (copyWordTokens 0x20#8 c) (copyStep 0x20#8 c) s

/-- CPFILL (R350). -/
def execCpfill (eng : EngId) (c : Cmd) (s : State) : Host.Outcome State Fault Refusal :=
  engRun 0x21#8 eng c (copyWordTokens 0x21#8 c) (copyStep 0x21#8 c) s

/-- CPCHAIN (R352). -/
def execCpchain (eng : EngId) (c : Cmd) (s : State) : Host.Outcome State Fault Refusal :=
  engRun 0x22#8 eng c (copyWordTokens 0x22#8 c) (copyStep 0x22#8 c) s

/-- CPPUT (R353). -/
def execCpput (eng : EngId) (c : Cmd) (s : State) : Host.Outcome State Fault Refusal :=
  engRun 0x23#8 eng c (copyWordTokens 0x23#8 c) (copyStep 0x23#8 c) s

/-- CPGET (R353). -/
def execCpget (eng : EngId) (c : Cmd) (s : State) : Host.Outcome State Fault Refusal :=
  engRun 0x24#8 eng c (copyWordTokens 0x24#8 c) (copyStep 0x24#8 c) s

/-! ## Answers of peers to a job (R366, R411, R426) -/

/-- A peer's answer to a remote request of a job: blocks read, or a write done. -/
def landJob (s : State) (j : Job) (r : Remote) (bs : List BlkVal) : State :=
  let home := (2 + r.node.toNat) * 2 ^ 52 + r.addr
  let seen (b : BlkVal) : BlkVal := viewOver s (jobParty s j) home (ctxOf (jobNode s j)) j.hyp b
  if j.run.dead || decide (r.kind = 7#3) then modRun s j.id fun x => { x with awaits := [] }
  else if engIsMx j.eng then
    match bs with
    | b :: _ => loadWeight s j ((bits (jobWord s j) 75 13).toNat + j.run.i) (seen b)
    | [] => s
  else
    match j.run.taken with
    | [] => s
    | d0 :: _ =>
      let d : CopyDesc := d0.pay
      if r.kind = 0#3 ∨ r.kind = 6#3 then
        let bs := if r.kind = 0#3 then bs.map seen else bs
        modRun (bs.foldl (fun s b => pushBlock s j b.delivered) s) j.id fun x => { x with awaits := [] }
      else cpLanded s j d (decide (r.kind = 5#3)) r.blocks

/-- A remote request of a job is refused, times out or finds its peer lost: the job ends with REMOTE (R426). -/
def refuseJob (s : State) (j : Job) (r : Remote) : State :=
  if j.run.dead then modRun s j.id fun x => { x with awaits := [] }
  else if engIsMx j.eng then killCommand (modRun s j.id fun x => { x with awaits := [] }) j stRemote true 0
  else
    match j.run.taken with
    | [] => s
    | d0 :: _ =>
      if r.kind = 7#3 then killCommand (modRun s j.id fun x => { x with awaits := [] }) j stRemote true 0
      else cpKill (modRun s j.id fun x => { x with awaits := [] }) j (opcOfWord (jobWord s j)) d0.pay stRemote

/-! ## Collectives (R354 to R356, R130) -/

/-- COLL -/
def RedDesc.coll (d : RedDesc) : BitVec 8 := bits d 192 8

/-- OP -/
def RedDesc.op (d : RedDesc) : BitVec 2 := bits d 184 2

/-- RANK -/
def RedDesc.rank (d : RedDesc) : Nat := (bits d 160 12).toNat

/-- LEN -/
def RedDesc.len (d : RedDesc) : Nat := (bits d 128 32).toNat

/-- STGOFF -/
def RedDesc.stgOff (d : RedDesc) : Nat := (bits d 108 20).toNat

/-- STGSITE -/
def RedDesc.stgSite (d : RedDesc) : Site := bits d 96 12

/-- BUFOFF -/
def RedDesc.bufOff (d : RedDesc) : Nat := (bits d 76 20).toNat

/-- BUFSITE -/
def RedDesc.bufSite (d : RedDesc) : Site := bits d 64 12

/-- The limits of a reduction descriptor (R354); CPBAR ignores LEN, OP and the buffers (R356). -/
def redOk (s : State) (j : Job) (bar : Bool) (d : RedDesc) : Bool :=
  decide (bits d 200 312 = 0#312) && decide (bits d 186 6 = 0#6) && decide (bits d 56 8 = 0#8) && decide (1 ≤ d.nrank) &&
  decide (d.rank < d.nrank) && decide (d.rtab % 64 = 0) &&
  (bar || (decide (d.op.toNat < 2) && decide (d.len % 64 = 0) && decide (d.stgOff % 64 = 0) && decide (d.bufOff % 64 = 0) &&
    decide (d.stgOff + d.len ≤ spadSize) && decide (d.bufOff + d.len ≤ spadSize) && ownMt s j d.stgSite && ownMt s j d.bufSite))

/-- An act of a collective: receive and add, receive into BUF, or send, with the other rank and the phase. -/
inductive CollAct where
  | recvAdd (k : Nat)
  | recvCopy (k : Nat)
  | send (k : Nat) (phase : BitVec 1)
  deriving DecidableEq, Repr

/-- The first phase of rank `r` of `n`, with the w's that it passes through (R355). -/
def upPhase (r n : Nat) : Nat → Nat → List CollAct × List Nat
  | 0, _ => ([], [])
  | fuel + 1, w =>
    if n ≤ w then ([], [])
    else if r % (2 * w) = w then ([.send (r - w) 0#1], [w])
    else
      let x := upPhase r n fuel (2 * w)
      ((if r % (2 * w) = 0 ∧ r + w < n then [.recvAdd (r + w)] else []) ++ x.1, w :: x.2)

/-- All acts of a rank, in order: the first phase, then its w's descending (R355). -/
def collActs (r n : Nat) : List CollAct :=
  let x := upPhase r n 12 1
  x.1 ++ x.2.reverse.flatMap fun w =>
    (if r % (2 * w) = 0 ∧ r + w < n then [CollAct.send (r + w) 1#1] else []) ++
    (if r % (2 * w) = w then [CollAct.recvCopy (r - w)] else [])

/-- The node of a rank, from the rank table (R354). -/
def rankNode (s : State) (j : Job) (d : RedDesc) (k : Nat) : State × Option (BitVec 12) :=
  let a := d.rtab + 2 * k
  match cpRead s j (a / 64 * 64) with
  | (s, some b) => (s, some (bits b.delivered.data (8 * (a % 64)) 12))
  | (s, none) => (s, none)

/-- The bytes of `n` blocks of a scratchpad from an offset, a poisoned block as 0 (R403). -/
def spadData (s : State) (site : Site) (off : Nat) : Nat → List Byte
  | 0 => []
  | n + 1 =>
    let b := (spadBlock s site off).delivered
    (List.range 64).map (blockByte b.data) ++ spadData s site (off + 64) n

/-- Some of `n` blocks of a scratchpad from an offset is poisoned. -/
def spadAnyPsn (s : State) (site : Site) (off n : Nat) : Bool := (List.range n).any fun i => (spadBlock s site (off + 64 * i)).psn

/-- Write `n` blocks of bytes to a scratchpad. -/
def spadFill (site : Site) (bs : List Byte) (off : Nat) : Nat → State → State
  | 0, s => s
  | n + 1, s =>
    let b := ofBytes fun i => bs.getD i 0#8
    spadFill site (bs.drop 64) (off + 64) n (spadStore s site off (BitVec.allOnes 64) b none false)

/-- BUF[e] ← BUF[e] + STG[e] over `n` blocks from byte `o` on: rne for fp32, modulo 2^32 for int32 (R355). A poisoned block of either
leaves BUF's block poisoned (DEDUCED, log 75). -/
def addBuffers (d : RedDesc) (o : Nat) : Nat → State → State
  | 0, s => s
  | n + 1, s =>
    let a := (spadBlock s d.bufSite (d.bufOff + o)).delivered
    let b := (spadBlock s d.stgSite (d.stgOff + o)).delivered
    let add (x y : Word) : Word := if d.op = 0#2 then (fadd rne x y).1 else x + y
    let sum := ofLanes fun l => add (lane a.data l) (lane b.data l)
    addBuffers d (o + 64) n (spadStore s d.bufSite (d.bufOff + o) (BitVec.allOnes 64) sum none (a.psn || b.psn))

/-- Every part of a message has come. -/
def PeerMsg.whole (m : PeerMsg) : Bool := decide (m.len.toNat ≤ m.data.length)

/-- A message waits for this act of a job's rank. -/
def msgFor (s : State) (j : Job) (d : RedDesc) (k : Nat) (phase : BitVec 1) (m : PeerMsg) : Bool :=
  m.whole &&
  decide (m.tenant = jobTenant s j) && decide (m.coll = d.coll) && decide (m.src.toNat = k) && decide (m.dst.toNat = d.rank) &&
  decide (m.phase = phase)

/-- The act of a collective has been made. -/
def collNext (s : State) (j : Job) : State := modRun s j.id fun r => { r with i := r.i + 1, j := 1 }

/-- Receive from rank `k`: its message, BADCMD where it disagrees, REMOTE where its node is lost. -/
def collRecv (bar : Bool) (d : RedDesc) (k : Nat) (phase : BitVec 1) (j : Job) (s : State) : State :=
  match s.links.inbox.find? (msgFor s j d k phase) with
  | some m =>
    let busy := !bar && (decide (phase = 0#1) && syncBusy s d.stgSite d.stgOff d.len || syncBusy s d.bufSite d.bufOff d.len)
    if busy then s else
    let s := { s with links := { s.links with inbox := s.links.inbox.erase m } }
    if m.nrank.toNat ≠ d.nrank ∨ (!bar ∧ (m.op ≠ d.op ∨ m.len.toNat ≠ d.len)) then killCommand s j stBad true 0
    else if bar then collNext s j
    else if phase = 0#1 then
      let s := if spadAnyPsn s d.bufSite d.bufOff (d.len / 64) then orStatus s j.id stPoison else s
      collNext (addBuffers d 0 (d.len / 64) (spadFill d.stgSite m.data d.stgOff (d.len / 64) s)) j
    else collNext (spadFill d.bufSite m.data d.bufOff (d.len / 64) s) j
  | none =>
    match rankNode s j d k with
    | (s, some node) => if Table.get false s.links.lost node.toNat then killCommand s j stRemote true 0 else s
    | (_, none) => s

/-- The requests that carry a message of a collective to another package (R191, R355): 256 bytes in each, and one for an empty message. -/
def collParts (bar : Bool) (d : RedDesc) : Nat := if bar then 1 else Nat.max 1 ((d.len + 255) / 256)

/-- Send BUF, or an empty message, to rank `k` (R355, R356): at tenant scope under R192, one request after the other, each with a slot
and its reply; so a peer out of reach ends the job with REMOTE (DEDUCED, log 74). -/
def collSend (bar : Bool) (d : RedDesc) (k : Nat) (phase : BitVec 1) (j : Job) (s : State) : State :=
  match rankNode s j d k with
  | (_, none) => s
  | (s, some node) =>
    let m : PeerMsg :=
      ⟨jobTenant s j, d.coll, BitVec.ofNat 12 d.rank, BitVec.ofNat 12 k, BitVec.ofNat 12 d.nrank, d.op, if bar then 0#32 else BitVec.ofNat 32 d.len, phase, s.hub.nodeId,
        if bar then [] else spadData s d.bufSite d.bufOff (d.len / 64)⟩
    let s := if !bar && spadAnyPsn s d.bufSite d.bufOff (d.len / 64) then orStatus s j.id stPoison else s
    if node = s.hub.nodeId then collNext { s with links := { s.links with inbox := s.links.inbox ++ [m] } } j
    else if !j.run.awaits.isEmpty then s
    else if peerOut s (jobTenant s j) node then killCommand s j stRemote true 0
    else if j.run.j ≤ collParts bar d then
      let r := remoteOf s (.job j.id) (jobTenant s j) 7#3 0 4
      modRun (cpRemote s j { r with node := node }) j.id fun r => { r with j := r.j + 1 }
    else collNext { s with links := { s.links with outbox := s.links.outbox ++ [(node, m)] } } j

/-- One act of a collective. -/
def collAct (bar : Bool) (d : RedDesc) (a : CollAct) (j : Job) (s : State) : State :=
  match a with
  | .recvAdd k => collRecv bar d k 0#1 j s
  | .recvCopy k => collRecv bar d k 1#1 j s
  | .send k p => collSend bar d k p j s

/-- CPBAR's release and acquire at tenant scope (R356). -/
def barRelease (s : State) (j : Job) : State :=
  match jobInst s j with
  | some i => releaseRegion s i scopeTenant
  | none => s

/-- The acquire. -/
def barAcquire (s : State) (j : Job) : State :=
  match jobInst s j with
  | some i => acquireRegion s i
  | none => s

/-- One step of a collective: read the descriptor and its own rank's entry, then one act after the other. CPBAR's acts wait until
the writes of its release have arrived (R105, R356). -/
def collStep (bar : Bool) (c : Cmd) (j : Job) (s : State) : State :=
  match j.run.taken with
  | [] => cpOpen c (fun s d => redOk s j bar d) (fun _ => 0) (fun s _ => if bar then barRelease s j else s) j s
  | d0 :: _ =>
    let d : RedDesc := d0.pay
    if j.run.j = 0 then
      match rankNode s j d d.rank with
      | (_, none) => s
      | (s, some node) =>
        if node = s.hub.nodeId then modRun s j.id fun r => { r with j := 1 } else killCommand s j stBad true 0
    else if bar && writesAway s j.inst then s
    else
      match (collActs d.rank d.nrank)[j.run.i]? with
      | some a => collAct bar d a j s
      | none => actDone (if bar then barAcquire s j else s) j 0#16 []

/-- CPRED (R355). -/
def execCpred (eng : EngId) (c : Cmd) (s : State) : Host.Outcome State Fault Refusal := engRun 0x25#8 eng c (fun _ _ => 0) (collStep false c) s

/-- CPBAR (R356). -/
def execCpbar (eng : EngId) (c : Cmd) (s : State) : Host.Outcome State Fault Refusal := engRun 0x26#8 eng c (fun _ _ => 0) (collStep true c) s

end Sys2Proof.Machine
end

