-- ==== Sys2Proof/Machine/Hpu.lean ====
section
/-! DEFINITION. The commands of the hash probe units (R152 to R160, R359, R360, R404, R414, R419, R420): hashing, buckets and chains,
inserts and deletions, probes and migration. -/

namespace Sys2Proof.Machine

/-! ## The slot and the descriptor -/

/-- The slot number of a command. -/
def slotNo (c : Cmd) : Nat := (bits c.ops 56 4).toNat

/-- The number of row ids of HINS and HDEL. -/
def rowCount (c : Cmd) : Nat := (bits c.ops 64 16).toNat + 1

/-- The limits of R153. -/
def SetDesc.ok (d : SetDesc) : Bool :=
  ((List.range 8).all fun j => decide (bits d (568 + 64 * j) 8 = 0#8) && decide (d.bkt j % 64 = 0)) &&
  decide (bits d 504 8 = 0#8) && decide (bits d 376 8 = 0#8) && decide (bits d 210 6 = 0#6) && decide (bits d 176 2 = 0#2) &&
  decide (bits d 0 168 = 0#168) && decide (d.poolBase % 64 = 0) && decide (d.rowStride % 64 = 0) && decide (1 ≤ d.rows) &&
  decide (d.rows ≤ 2 ^ 31) && d.dinOk && (decide (d.nextReg < 8) || decide (d.nextReg = 15)) && decide (d.curReg < 8) &&
  decide (d.pol ≠ 3) && decide (4 ≤ d.cap) && decide (d.cap ≤ 64)

/-- The limits of a family register (R154). -/
def FamReg.ok (r : FamReg) : Bool :=
  decide (bits r 98 6 = 0#6) && decide (bits r 56 31 = 0#31) && decide (1 ≤ r.keyBits) && decide (r.keyBits ≤ 20) &&
  decide (r.hbase % 64 = 0)

/-- The register and the descriptor agree (R153): MPROBE is at most b, and DIN a power of two for a rotated family. -/
def famFits (d : SetDesc) (r : FamReg) : Bool := decide (d.mprobe ≤ r.keyBits) && (!r.rotated || decide (2 ^ Nat.log2 d.din = d.din))

/-- The set descriptor at hand. -/
def wSetD : WorkM SetDesc := do return (← get).desc

/-- The slot of a command. -/
def wSlotOf (k : Nat) : WorkM SetSlot := do
  let w ← get
  return vget SetSlot.empty (getHpu w.s (engSite w.job.eng)).slots k

/-- Change a slot. -/
def wModSlot (k : Nat) (f : SetSlot → SetSlot) : WorkM Unit := modify fun w =>
  let site := engSite w.job.eng
  let h := getHpu w.s site
  { w with s := setHpu w.s site { h with slots := vset h.slots k (f (vget SetSlot.empty h.slots k)) } }

/-- A family register of a slot. -/
def SetSlot.reg (x : SetSlot) (i : Nat) : FamReg := vget 0#128 x.regs i

/-- Some register of the slot is VALID. -/
def SetSlot.live (x : SetSlot) : Bool := x.regs.toList.any fun r => FamReg.valid r

/-! ## Exact vectors (R155) -/

/-- The exact value of element `e` of a block of a type; what has none is taken as 0 with NV, and a bad narrow block as 0 with BD. -/
def exactElem (fmts : BitVec 128) (ty : Nat) (code : BitVec 8) (b : BlkVal) (e : Nat) : Dy × Flags :=
  let half := (bits b.data (16 * e) 16).toNat
  let fin (v : FVal) : Dy × Flags := if v.isNaN || v.isInf then (⟨0, 0⟩, fNV) else (v.dy, fNone)
  match ty with
  | 0 => fin (v32 (lane b.data e))
  | 1 => fin (fp16.unpack half)
  | 2 => fin (bf16.unpack half)
  | _ =>
    if badBlock code b then (⟨0, 0⟩, fBD)
    else fin (scaledVal ((nfmt fmts code).value (narrowElem (codeWidth code) b.data e)) (bits b.desc 8 8))

/-- Deliver an exact element and keep its flags. -/
def wDy (r : Dy × Flags) : WorkM Dy := do
  modify fun w => { w with flags := w.flags ||| r.2 }
  return r.1

/-- The first `d` elements of a vector that stands in blocks; a narrow block has the code that `code` gives for it. -/
def exactVec (ty : Nat) (code : BlkVal → BitVec 8) : Nat → List BlkVal → WorkM (List Dy)
  | _, [] => pure []
  | d, b :: bs => do
    let w ← get
    let fmts := fmtsOf (jobNode w.s w.job)
    let k := code b
    let xs ← (List.range (Nat.min d (blockLen ty k))).mapM fun e => wDy (exactElem fmts ty k b e)
    let ys ← exactVec ty code (d - blockLen ty k) bs
    return xs ++ ys

/-- Read bytes from any address, as blocks that start there. -/
def wBytes (va n : Nat) : WorkM (List BlkVal) := do
  let sh := va % 64
  let bs ← wBlocks (va - sh) ((sh + n + 63) / 64)
  if sh = 0 then return bs
  else
    let one (k : Nat) : BlkVal :=
      let a := bs.getD k ⟨0#512, 0#16, false⟩
      let b := bs.getD (k + 1) ⟨0#512, 0#16, false⟩
      ⟨ofBytes fun i => if sh + i < 64 then blockByte a.data (sh + i) else blockByte b.data (sh + i - 64), a.desc, a.psn || b.psn⟩
    return (List.range ((n + 63) / 64)).map one

/-- A vector's exact elements from its blocks; with a poisoned block it hashes as 0 (R404). -/
def exactFrom (ty : Nat) (code : BitVec 8) (din : Nat) (bs : List BlkVal) : WorkM (List Dy) := do
  if bs.any fun b => b.psn then return List.replicate din ⟨0, 0⟩
  else exactVec ty (fun _ => code) din bs

/-- Hyperplane `h` of a register (R154): raw bf16 with HFMT = 0xFF. -/
def plane (d : SetDesc) (r : FamReg) (h : Nat) : WorkM (List Dy) := do
  let n := r.planeStep d.din
  let bs ← wBlocks ((r.hbase + h * n) % 2 ^ 56) (n / 64)
  exactFrom (if r.hfmt = 0xFF#8 then 2 else 3) r.hfmt d.din bs

/-- The bytes of a row vector (DEDUCED, log 67). -/
def rowBytes (d : SetDesc) : Nat :=
  match d.rowType with
  | 0 => 4 * d.din
  | 3 => 64 * ((d.din * codeWidth d.rowFmt + 511) / 512)
  | _ => 2 * d.din

/-- The vector of a row (R155). -/
def rowVec (d : SetDesc) (x : Nat) : WorkM (List Dy) := do
  exactFrom d.rowType d.rowFmt d.din (← wBytes ((d.rowBase + x * d.rowStride) % 2 ^ 56) (rowBytes d))

/-! ## Hashing (R155, R158) -/

/-- The exact dot product. -/
def dotDy (a b : List Dy) : Dy := Dy.sum ((a.zip b).map fun p => p.1.mul p.2)

/-- The parity of the ones of `i and j`. -/
def oddAnd (i j : Nat) : Bool := decide ((((List.range 13).filter fun k => (i / 2 ^ k % 2 == 1) && (j / 2 ^ k % 2 == 1)).length) % 2 = 1)

/-- The Hadamard-rotated vector of a family of TYPE 1. -/
def rotate (x : List Dy) : List Dy :=
  (List.range x.length).map fun i => Dy.sum (((List.range x.length).zip x).map fun p => if oddAnd i p.1 then p.2.neg else p.2)

/-- The dot products dp[t][j] of one table, bit 0 first. -/
def tableDots (d : SetDesc) (r : FamReg) (x : List Dy) (t : Nat) : WorkM (List Dy) :=
  (List.range r.keyBits).mapM fun j => do return dotDy x (← plane d r (t * r.keyBits + j))

/-- The key of a table: bit j is 1 when dp[t][j] > 0. -/
def keyOf : List Dy → Nat
  | [] => 0
  | x :: xs => (if 0 < x.m then 1 else 0) + 2 * keyOf xs

/-- The magnitude of a dot product. -/
def Dy.abs (x : Dy) : Dy := if x.m < 0 then x.neg else x

/-- Insert a bit by its margin, ties to the lower index. -/
def bitInsert (b : Nat × Dy) : List (Nat × Dy) → List (Nat × Dy)
  | [] => [b]
  | y :: ys => if y.2.lt b.2 then y :: bitInsert b ys else b :: y :: ys

/-- The key of the bucket itself and those with one of the `m` bits of least margin flipped (R158). -/
def probeKeys (dp : List Dy) (m : Nat) : List Nat :=
  let k := keyOf dp
  let order := ((List.range dp.length).zip (dp.map Dy.abs)).foldr bitInsert []
  k :: (order.take m).map fun b => k ^^^ 2 ^ b.1

/-- The input of a register's tables: as it is, or rotated. -/
def famInput (r : FamReg) (x : List Dy) : List Dy := if r.rotated then rotate x else x

/-! ## Buckets and chains (R156) -/

/-- The end of a chain or list. -/
def endMark : Nat := 0xFFFFFFFF

/-- A bucket as it reads: its address, NIDS, OLD, CHAIN and ids. -/
structure Bucket where
  at0 : Nat
  old : Nat
  chain : Nat
  ids : List Word
  deriving DecidableEq, Repr

/-- A pool block of a chain: its index, NEXT and ids. -/
structure PoolBlk where
  idx : Nat
  next : Nat
  ids : List Word
  deriving DecidableEq, Repr

/-- The address of bucket `k` of table `t` of register `j` (DEDUCED, log 65). -/
def bucketAt (d : SetDesc) (j : Nat) (r : FamReg) (t k : Nat) : Nat := d.bkt j + (t * 2 ^ r.keyBits + k) * d.bsz

/-- The address of a pool block. -/
def poolAt (d : SetDesc) (i : Nat) : Nat := d.poolBase + 64 * i

/-- Read a bucket; a poisoned or malformed one has nothing to give, with status POISON or CORRUPT. -/
def rdBucket (a : Nat) : WorkM (Option Bucket) := do
  let d ← wSetD
  let bs ← wBlocks a (d.bsz / 64)
  if bs.any fun b => b.psn then return none
  else
    let word (i : Nat) : Word := lane (bs.getD (i / 16) ⟨0#512, 0#16, false⟩).data (i % 16)
    let n := (bits (word 0) 0 16).toNat
    let old := (bits (word 0) 16 8).toNat
    if d.cap < n ∨ d.cap ≤ old then
      wStatus stCorrupt
      return none
    else return some ⟨a, old, (word 1).toNat, (List.range n).map fun i => word (2 + i)⟩

/-- Read a pool block of a chain or list of at most POOLN blocks. -/
def rdPool (i : Nat) : WorkM (Option PoolBlk) := do
  let d ← wSetD
  if d.poolN ≤ i then
    wStatus stCorrupt
    return none
  else
    let b ← wRead (poolAt d i)
    let n := (bits (lane b.data 1) 0 16).toNat
    if b.psn then return none
    else if 14 < n then
      wStatus stCorrupt
      return none
    else return some ⟨i, (lane b.data 0).toNat, (List.range n).map fun k => lane b.data (2 + k)⟩

/-- The blocks of a chain up to its end or to what is malformed or poisoned, and whether it ended. -/
def rdChain : Nat → Nat → WorkM (List PoolBlk × Bool)
  | 0, i =>
    if i = endMark then pure ([], true)
    else do
      wStatus stCorrupt
      return ([], false)
  | fuel + 1, i => do
    if i = endMark then return ([], true)
    else
      match ← rdPool i with
      | none => return ([], false)
      | some b =>
        let (bs, ok) ← rdChain fuel b.next
        return (b :: bs, ok)

/-- A bucket with its chain, and whether the whole of it reads well. -/
structure Place where
  bucket : Option Bucket
  blocks : List PoolBlk
  whole : Bool
  deriving DecidableEq, Repr

/-- The ids that a place holds as it reads. -/
def Place.ids (p : Place) : List Word := (match p.bucket with
  | some b => b.ids
  | none => []) ++ p.blocks.flatMap fun b => b.ids

/-- Read a bucket with its chain. -/
def rdPlace (a : Nat) : WorkM Place := do
  let d ← wSetD
  match ← rdBucket a with
  | none => return ⟨none, [], false⟩
  | some b =>
    let (bs, ok) ← rdChain d.poolN b.chain
    return ⟨some b, bs, ok⟩

/-- The places of a row or input in every table of a register, by its own keys. -/
def places (j : Nat) (r : FamReg) (x : List Dy) : WorkM (List Place) := do
  let d ← wSetD
  (List.range r.tabs).mapM fun t => do rdPlace (bucketAt d j r t (keyOf (← tableDots d r (famInput r x) t)))

/-! ## Writing buckets and blocks -/

/-- Write NIDS and OLD of a bucket. -/
def wHead (a n old : Nat) : WorkM Unit := wSetWord a (BitVec.ofNat 32 (n + 65536 * old))

/-- Replace POOLFREE. -/
def wPoolFree (i : Nat) : WorkM Unit := modify fun w => { w with desc := setBits w.desc 384 (BitVec.ofNat 32 i) }

/-- Write NEXT of a pool block. -/
def wNext (i n : Nat) : WorkM Unit := do
  let d ← wSetD
  wSetWord (poolAt d i) (BitVec.ofNat 32 n)

/-- Write the count of a pool block. -/
def wCount (i n : Nat) : WorkM Unit := do
  let d ← wSetD
  wSetWord (poolAt d i + 4) (BitVec.ofNat 32 n)

/-- Write an id of a pool block. -/
def wPoolId (i k : Nat) (x : Word) : WorkM Unit := do
  let d ← wSetD
  wSetWord (poolAt d i + 8 + 4 * k) x

/-- Take the first free pool block, with one id in it. -/
def takePool (x : Word) : WorkM Nat := do
  let d ← wSetD
  let i := d.poolFree
  let next ← wWord (poolAt d i)
  wPoolFree next.1.toNat
  wNext i endMark
  wCount i 1
  wPoolId i 0 x
  return i

/-- Append an id to a bucket's chain (R157, policy 2): into its last block, or into a block of its own behind it (DEDUCED, log 62). -/
def appendChain (b : Bucket) (bs : List PoolBlk) (x : Word) : WorkM Unit := do
  match bs.getLast? with
  | some k =>
    if k.ids.length < 14 then
      wPoolId k.idx k.ids.length x
      wCount k.idx (k.ids.length + 1)
    else wNext k.idx (← takePool x)
  | none => wSetWord (b.at0 + 4) (BitVec.ofNat 32 (← takePool x))

/-- The insert takes a new pool block at this place. -/
def Place.takes (d : SetDesc) (p : Place) : Bool :=
  match p.bucket with
  | some b =>
    decide (d.cap ≤ b.ids.length) && (match p.blocks.getLast? with
      | some k => decide (14 ≤ k.ids.length)
      | none => true)
  | none => false

/-- The insert would write what is malformed or poisoned here (R156, R404): the bucket, or under policy 2 the chain of a full one. -/
def Place.broken (d : SetDesc) (p : Place) : Bool :=
  match p.bucket with
  | none => true
  | some b => decide (d.pol = 2) && decide (d.cap ≤ b.ids.length) && !p.whole

/-- The bucket is full. -/
def Place.full (d : SetDesc) (p : Place) : Bool :=
  match p.bucket with
  | some b => decide (d.cap ≤ b.ids.length)
  | none => false

/-- Place an id in one table (R157). -/
def insertAt (k : Nat) (x : Word) (p : Place) : WorkM Unit := do
  let d ← wSetD
  match p.bucket with
  | none => pure ()
  | some b =>
    let n := b.ids.length
    if n < d.cap then
      wSetWord (b.at0 + 8 + 4 * n) x
      wHead b.at0 (n + 1) b.old
    else if d.pol = 1 then
      wSetWord (b.at0 + 8 + 4 * b.old) x
      wHead b.at0 n ((b.old + 1) % d.cap)
      wModSlot k fun sl => { sl with displaced := sl.displaced + 1#32 }
    else appendChain b p.blocks x

/-- An insert is refused as a whole, with a status (DEDUCED, log 64). -/
def refuse (k : Nat) (b : BitVec 16) : WorkM Bool := do
  wStatus b
  wModSlot k fun sl => { sl with refused := sl.refused + 1#32 }
  return false

/-- NEXT of a free block; none when it is malformed or poisoned, its count included (R156). -/
def rdFree (i : Nat) : WorkM (Option Nat) := do return (← rdPool i).map fun b => b.next

/-- The free list supplies `n` blocks behind those of `seen`: 0 yes, 1 it ends first, 2 a block of it is malformed or poisoned. A list that
comes back to a block of its own, or goes on beyond POOLN blocks, has not ended after POOLN blocks (R156). -/
def freeSupply (seen : List Nat) : Nat → Nat → WorkM Nat
  | 0, _ => pure 0
  | n + 1, i => do
    if i = endMark then return 1
    else if seen.contains i then
      wStatus stCorrupt
      return 2
    else
      match ← rdFree i with
      | none => return 2
      | some next => freeSupply (i :: seen) n next

/-- The free blocks, by following the list from POOLFREE, at most `fuel` of them (R360) (DEDUCED, log 66). -/
def freeCount : Nat → Nat → WorkM Nat
  | 0, i => do
    if i ≠ endMark then wStatus stCorrupt
    return 0
  | fuel + 1, i => do
    if i = endMark then return 0
    else
      match ← rdFree i with
      | none => return 0
      | some next => return (← freeCount fuel next) + 1

/-- Insert a row id into a register's version, in every table or in none (R157); false when it is refused. -/
def insertRow (k j : Nat) (r : FamReg) (x : Word) (v : List Dy) : WorkM Bool := do
  let d ← wSetD
  let ps := (← places j r v).filter fun p => !p.ids.contains x
  if ps.any fun p => p.broken d then refuse k 0#16
  else if d.pol = 0 ∧ ps.any (fun p => p.full d) then refuse k stFull
  else
    let take := if d.pol = 2 then (ps.filter fun p => p.takes d).length else 0
    match ← freeSupply [] take d.poolFree with
    | 0 =>
      ps.forM (insertAt k x)
      return true
    | 1 => refuse k stPoolFull
    | _ => refuse k 0#16

/-- Remove every copy of an id from a list, the last one moving into the vacated slot. -/
def removeId (x : Word) : Nat → List Word → List Word
  | 0, ids => ids
  | fuel + 1, ids =>
    match ids.findIdx? fun y => decide (y = x) with
    | none => ids
    | some i => removeId x fuel ((ids.set i (ids.getLastD 0#32)).dropLast)

/-- Write the ids of a list from an address. -/
def wIds : Nat → List Word → WorkM Unit
  | _, [] => pure ()
  | a, x :: xs => do
    wSetWord a x
    wIds (a + 4) xs

/-- Remove an id from the blocks of a chain; a block that empties leaves the chain and returns to POOLFREE. `link` is the address of
the word that names the next block. -/
def removeChain (x : Word) : Nat → List PoolBlk → WorkM Unit
  | _, [] => pure ()
  | link, b :: bs => do
    let d ← wSetD
    let ids := removeId x b.ids.length b.ids
    if ids.length = b.ids.length then removeChain x (poolAt d b.idx) bs
    else if ids.isEmpty then
      wSetWord link (BitVec.ofNat 32 b.next)
      wCount b.idx 0
      wNext b.idx d.poolFree
      wPoolFree b.idx
      removeChain x link bs
    else
      wIds (poolAt d b.idx + 8) ids
      wCount b.idx ids.length
      removeChain x (poolAt d b.idx) bs

/-- Remove an id from one place (DEDUCED, log 61). -/
def removeAt (x : Word) (p : Place) : WorkM Unit := do
  match p.bucket with
  | none => pure ()
  | some b =>
    let ids := removeId x b.ids.length b.ids
    if ids.length ≠ b.ids.length then
      wIds (b.at0 + 8) ids
      wHead b.at0 ids.length b.old
    removeChain x (b.at0 + 4) p.blocks

/-- A deletion of an id cannot be made at a place (R156, R404): its bucket is malformed or poisoned, or the id stands in a chain that is
(DEDUCED, log 63). -/
def Place.stuck (x : Word) (p : Place) : Bool := p.bucket.isNone || (!p.whole && p.blocks.any fun b => b.ids.contains x)

/-- Remove an id from all places that hold it; refused as a whole where it cannot be made at one (R156, R404). 0 removed, 1 absent,
2 refused (DEDUCED, log 63). -/
def removeRow (x : Word) (ps : List Place) : WorkM Nat := do
  if ps.any (Place.stuck x) then return 2
  else
    let hit := ps.filter fun p => p.ids.contains x
    hit.forM (removeAt x)
    return if hit.isEmpty then 1 else 0

/-! ## Commands -/

/-- The registers of the live versions, with their numbers (R158) (DEDUCED, log 54). -/
def liveRegs (d : SetDesc) (sl : SetSlot) : List (Nat × FamReg) :=
  (([d.curReg] ++ (if d.nextReg < 8 then [d.nextReg] else [])).map fun i => (i, sl.reg i)).filter fun p => p.2.valid

/-- Read the descriptor of a slot anew: a poisoned one ends the command's work, one outside its limits is BADCMD (DEDUCED, log 69). -/
def withSet (k : Nat) (act : SetDesc → SetSlot → WorkM (List Token)) : WorkM (List Token) := do
  let d ← wSetD
  let sl ← wSlotOf k
  if !(liveRegs d sl).all fun p => famFits d p.2 then throw .bad
  else act d sl

/-- HFAM (R360, R160): write register `n` of a slot, bind the slot, and start a version (DEDUCED, log 68). -/
def hfam (k n : Nat) (va : BitVec 56) (toks : List Token) : WorkM (List Token) := do
  let d ← wSetD
  let sl ← wSlotOf k
  let t ← match toks.head? with
    | some t => wTok t
    | none => pure ⟨0#512, 0#16, false⟩
  let r : FamReg := bits t.data 0 128
  let setD (at0 w : Nat) (v : Nat) : WorkM Unit := modify fun x => { x with desc := setBits x.desc at0 (BitVec.ofNat w v) }
  let put : WorkM Unit := wModSlot k fun sl => { sl with regs := vset sl.regs n r }
  if !r.ok || (sl.bound && decide (sl.va ≠ va) && sl.live) then throw .bad
  else if !sl.live then
    if !sl.bound || decide (sl.va ≠ va) then
      wModSlot k fun sl => { sl with bound := true, va := va, refused := 0#32, displaced := 0#32, absent := 0#32 }
    if r.valid then setD 184 4 n
    put
    return []
  else if n = d.curReg ∨ n = d.nextReg then throw .bad
  else if r.valid then
    if r.version ≠ (sl.reg d.curReg).version + 1#16 ∨ d.nextReg ≠ 15 then throw .bad
    else
      setD 188 4 n
      setD 224 32 0
      put
      return []
  else
    put
    return []

/-- The row ids of a command's tokens. -/
def rowIds (toks : List Token) : WorkM (List Word) := toks.mapM fun t => do return lane (← wTok t).data 0

/-- HINS (R157): each row id in turn, into the version being built or the current one. -/
def hins (k : Nat) (toks : List Token) : WorkM (List Token) := do
  let ids ← rowIds toks
  withSet k fun d sl => do
    ids.forM fun x => do
      if d.rows ≤ x.toNat then throw .bad
      else
        match (liveRegs d sl).getLast? with
        | some (j, r) =>
          let v ← rowVec d x.toNat
          let _ ← insertRow k j r x v
        | none => pure ()
    return []

/-- HDEL (R157): each row id in turn, from every bucket and chain of both live versions. -/
def hdel (k : Nat) (toks : List Token) : WorkM (List Token) := do
  let ids ← rowIds toks
  withSet k fun d sl => do
    ids.forM fun x => do
      if d.rows ≤ x.toNat then throw .bad
      else
        let v ← rowVec d x.toNat
        let ps ← (liveRegs d sl).mapM fun p => places p.1 p.2 v
        match ← removeRow x ps.flatten with
        | 1 => wModSlot k fun sl => { sl with absent := sl.absent + 1#32 }
        | _ => pure ()
    return []

/-- Insert an id into an ascending list without repeats. -/
def idInsert (x : Nat) : List Nat → List Nat
  | [] => [x]
  | y :: ys => if x < y then x :: y :: ys else if x = y then y :: ys else y :: idInsert x ys

/-- The input of a probe: narrow tokens are taken each under its own code (DEDUCED, log 70). -/
def probeInput (ity din : Nat) (toks : List Token) : WorkM (List Dy) := do
  let bs ← toks.mapM wTok
  exactVec ity (fun b => bits b.desc 0 8) din bs

/-- HPROBE (R155, R158): the row ids of the buckets, ascending and once each, then EOT. -/
def hprobe (k ity : Nat) (toks : List Token) : WorkM (List Token) := do
  let d ← wSetD
  let x ← probeInput ity d.din toks
  withSet k fun d sl => do
    let ids ← (liveRegs d sl).mapM fun p => do
      let y := famInput p.2 x
      let perTable ← (List.range p.2.tabs).mapM fun t => do
        let dp ← tableDots d p.2 y t
        let ps ← (probeKeys dp d.mprobe).mapM fun key => rdPlace (bucketAt d p.1 p.2 t key)
        return ps.flatMap Place.ids
      return perTable.flatten
    let j := (← get).job
    let out := ids.flatten.foldr (fun x xs => idInsert x.toNat xs) []
    return (out.map fun i => scalarTok (BitVec.ofNat 32 i) j.hyp j.refuted false) ++ [controlTok false cEOT j.hyp j.refuted]

/-- Migrate up to `n` rows from the cursor on (R160, R419); false when an insert was refused. -/
def migrate (k jo jn : Nat) (ro rn : FamReg) : Nat → WorkM Unit
  | 0 => pure ()
  | n + 1 => do
    let d ← wSetD
    if d.rows ≤ d.rehpos then pure ()
    else
      let x : Word := BitVec.ofNat 32 d.rehpos
      let v ← rowVec d d.rehpos
      let old ← places jo ro v
      let step : WorkM Unit := modify fun w => { w with desc := setBits w.desc 224 (BitVec.ofNat 32 (d.rehpos + 1)) }
      if !old.any fun p => p.ids.contains x then
        step
        migrate k jo jn ro rn n
      else if old.any (Place.stuck x) then pure ()
      else if ← insertRow k jn rn x v then
        let old ← places jo ro v
        let _ ← removeRow x old
        step
        migrate k jo jn ro rn n
      else pure ()

/-- HREH (R160): migrate N rows, and end the rehash when the cursor reaches ROWS. -/
def hreh (k n : Nat) : WorkM (List Token) :=
  withSet k fun d sl => do
    if n = 0 ∨ 8 ≤ d.nextReg then return []
    else
      migrate k d.curReg d.nextReg (sl.reg d.curReg) (sl.reg d.nextReg) n
      let e ← wSetD
      if e.rehpos < e.rows then return []
      else
        wModSlot k fun sl => { sl with regs := vset sl.regs d.curReg (setBits (sl.reg d.curReg) 97 0#1) }
        modify fun w => { w with desc := setBits (setBits w.desc 184 (BitVec.ofNat 4 d.nextReg)) 188 15#4 }
        return []

/-- HSTAT (R360): one token with the registers, the cursor, the free pool blocks and the counts. -/
def hstat (k : Nat) : WorkM (List Token) := do
  let d ← wSetD
  let sl ← wSlotOf k
  let free ← freeCount d.poolN d.poolFree
  let l0 := d.curReg + 16 * d.nextReg + 65536 * (sl.reg d.curReg).version.toNat
  let vals := [l0, d.rehpos, free, sl.refused.toNat, sl.displaced.toNat, sl.absent.toNat]
  let j := (← get).job
  return [vectorTok (ofLanes fun l => BitVec.ofNat 32 (vals.getD l 0)) 0x003F#16 0x00FF#16 j.hyp j.refuted false]

/-! ## Running them (R159) -/

/-- The elements that the tokens of a probe have brought. -/
def probeGot (ity : Nat) (toks : List Token) : Nat := (toks.map fun t => blockLen ity (bits t.desc 0 8)).sum

/-- The tokens are all present: a count, or for a probe its DIN elements. -/
def hpuFull (opc : BitVec 8) (c : Cmd) (d : SetDesc) (toks : List Token) : Bool :=
  match opc.toNat with
  | 0x40 => decide (1 ≤ toks.length)
  | 0x41 => decide (rowCount c ≤ toks.length)
  | 0x42 => decide (rowCount c ≤ toks.length)
  | 0x43 => decide (d.din ≤ probeGot (bits c.ops 60 2).toNat toks)
  | _ => true

/-- A command that changes its set: it waits at the HPU under a hypothesis (R159). -/
def hpuUpdates (opc : BitVec 8) : Bool := decide (opc ≠ 0x43#8) && decide (opc ≠ 0x45#8)

/-- The descriptor that an HFAM held before a job will bind to the job's slot (R159): a held update enters the order behind it. -/
def heldVa (s : State) (j : Job) (c : Cmd) : Option Nat :=
  let ks := s.dist.jobs.filter fun k => decide (k.eng = j.eng) && k.run.held && decide (k.id < j.id) &&
    decide (opcOfWord (jobWord s k) = 0x40#8) && decide (slotNo (cmdOfWord (jobWord s k)) = slotNo c)
  ks.getLast?.map fun k => (bits (cmdOfWord (jobWord s k)).ops 0 56).toNat

/-- The descriptor's address: SETVA of HFAM, or the bound one; none for a slot that no HFAM has bound. -/
def hpuVa (s : State) (opc : BitVec 8) (j : Job) (c : Cmd) : Option Nat :=
  if opc = 0x40#8 then some (bits c.ops 0 56).toNat
  else
    match (if hpuUpdates opc && decide (j.hyp ≠ 0#6) then heldVa s j c else none) with
    | some va => some va
    | none =>
      let sl := cmdSlot s j.eng c.ops
      if sl.bound then some sl.va.toNat else none

/-- The command has been found bad before its tokens came: it takes them and ends its job. -/
def hpuBad (j : Job) (s : State) : State :=
  modJob s j.id fun k => { k with status := k.status ||| stBad, run := { k.run with ends := true } }

/-- The first step: read the descriptor (R360, R340, R404). -/
def hpuOpen (opc : BitVec 8) (c : Cmd) (placeOk : Bool) (j : Job) (s : State) : State :=
  match hpuVa s opc j c with
  | none => killCommand s j stBad true 0
  | some va =>
    match (wPair va).run.run (newWork s j va 0#1024 0#6) with
    | (.error e, w) => workHeld s e w
    | (.ok (d, readable), w) =>
      let d : SetDesc := d
      if !readable then killCommand w.s j w.status false 0
      else if !d.dinOk then killCommand w.s j (w.status ||| stBad) true 0
      else
        let blocks := [blockTok (bits d 0 512), blockTok (bits d 512 512)]
        let s := modJob w.s j.id fun k => { k with status := k.status ||| w.status, run := { k.run with taken := blocks } }
        if placeOk && d.ok then s else hpuBad j s

/-- Perform a command whole, on its descriptor as it stands now. -/
def hpuAct (opc : BitVec 8) (c : Cmd) (act : List Token → WorkM (List Token)) (toks : List Token) (j : Job) (s : State) : State :=
  match hpuVa s opc j c with
  | none => workDone s j stBad fNone true []
  | some va =>
    match (wPair va).run.run (newWork s j va 0#1024 0#6) with
    | (.error e, w) => workHeld s e w
    | (.ok (d, readable), w) =>
      if !readable then workDone w.s j w.status fNone false []
      else if !SetDesc.ok d then workDone w.s j (w.status ||| stBad) fNone true []
      else runWork { newWork w.s j va d 0#6 with status := w.status } (fun _ => pure ()) (act toks)

/-- Another job runs at the HPU. -/
def hpuBusy (s : State) (j : Job) : Bool :=
  s.dist.jobs.any fun k => decide (k.eng = j.eng) && k.started && !k.ended && !k.run.held && decide (k.id ≠ j.id)

/-- A held update that its hypothesis has freed cannot enter the order yet (R159): its HPU runs another job, an earlier one enters first, or a
job with an overlapping footprint runs. -/
def heldWaits (s : State) (j : Job) : Bool :=
  hpuBusy s j || s.dist.jobs.any fun k => decide (k.id ≠ j.id) && !k.ended &&
    ((decide (k.eng = j.eng) && k.run.held && decide (k.id < j.id) && decide (k.hyp = 0#6)) ||
      (k.started && !k.run.held && decide (jobTenant s k = jobTenant s j) && footOverlap (jobFoot s k) (jobFoot s j)))

/-- One step of an HPU command. -/
def hpuStep (opc : BitVec 8) (c : Cmd) (act : List Token → WorkM (List Token)) (j : Job) (s : State) : State :=
  if j.run.held then
    if j.refuted then endJob s j stRefuted
    else if jobAborted s j then endJob s j 0#16
    else if j.hyp ≠ 0#6 ∨ heldWaits s j then s
    else hpuAct opc c act (j.run.taken.drop 2) j (modRun s j.id fun r => { r with held := false })
  else
    match j.run.taken with
    | a :: b :: toks =>
      if !hpuFull opc c (joinBlocks a.pay b.pay) toks then workTake j s
      else if j.run.ends then workDone s j 0#16 fNone true []
      else if hpuUpdates opc && decide (j.hyp ≠ 0#6) then modRun s j.id fun r => { r with held := true }
      else hpuAct opc c act toks j s
    | _ => hpuOpen opc c true j s

/-- Run an HPU command. -/
def hpuRun (opc : BitVec 8) (eng : EngId) (c : Cmd) (act : List Token → WorkM (List Token)) (s : State) :
    Host.Outcome State Fault Refusal :=
  engStep opc eng c (hpuOpen opc c false) (hpuStep opc c act) s

/-- HFAM (R360). -/
def execHfam (eng : EngId) (c : Cmd) (s : State) : Host.Outcome State Fault Refusal :=
  hpuRun 0x40#8 eng c (hfam (slotNo c) (bits c.ops 60 3).toNat (bits c.ops 0 56)) s

/-- HINS (R157, R360). -/
def execHins (eng : EngId) (c : Cmd) (s : State) : Host.Outcome State Fault Refusal := hpuRun 0x41#8 eng c (hins (slotNo c)) s

/-- HDEL (R157, R360). -/
def execHdel (eng : EngId) (c : Cmd) (s : State) : Host.Outcome State Fault Refusal := hpuRun 0x42#8 eng c (hdel (slotNo c)) s

/-- HPROBE (R158, R360). -/
def execHprobe (eng : EngId) (c : Cmd) (s : State) : Host.Outcome State Fault Refusal :=
  hpuRun 0x43#8 eng c (hprobe (slotNo c) (bits c.ops 60 2).toNat) s

/-- HREH (R160, R360). -/
def execHreh (eng : EngId) (c : Cmd) (s : State) : Host.Outcome State Fault Refusal :=
  hpuRun 0x44#8 eng c (fun _ => hreh (slotNo c) (bits c.ops 64 24).toNat) s

/-- HSTAT (R360). -/
def execHstat (eng : EngId) (c : Cmd) (s : State) : Host.Outcome State Fault Refusal :=
  hpuRun 0x45#8 eng c (fun _ => hstat (slotNo c)) s

end Sys2Proof.Machine
end

