-- ==== Sys2Proof/Machine/Tree.lean ====
section
/-! DEFINITION. Summary trees (R137 to R149): node headers and bodies, the checks on every node read (R389), allocation, the rightmost
path, sealing, and dropping references. -/

namespace Sys2Proof.Machine

/-! ## Node headers (R141) -/

/-- A node header. -/
abbrev Hdr := BitVec 1024

/-- COUNT -/
def Hdr.count (h : Hdr) : Nat := (bits h 0 32).toNat

/-- LEVEL -/
def Hdr.level (h : Hdr) : Nat := (bits h 32 8).toNat

/-- OPEN -/
def Hdr.isOpen (h : Hdr) : Bool := bitAt h 40

/-- SEALED -/
def Hdr.isSealed (h : Hdr) : Bool := bitAt h 41

/-- SUMMARY_ONLY -/
def Hdr.summaryOnly (h : Hdr) : Bool := bitAt h 42

/-- POISONED -/
def Hdr.poisoned (h : Hdr) : Bool := bitAt h 44

/-- NCH -/
def Hdr.nch (h : Hdr) : Nat := (bits h 48 6).toNat

/-- PARENT, of a free node the next free node -/
def Hdr.parent (h : Hdr) : Word := bits h 64 32

/-- REFS -/
def Hdr.refs (h : Hdr) : Nat := (bits h 96 32).toNat

/-- RADIUS -/
def Hdr.radius (h : Hdr) : Word := bits h 128 32

/-- POS0 -/
def Hdr.pos0 (h : Hdr) : Nat := (bits h 160 32).toNat

/-- CHILD j -/
def Hdr.child (h : Hdr) (j : Nat) : Nat := (bits h (256 + 32 * j) 32).toNat

/-- The children. -/
def Hdr.children (h : Hdr) : List Nat := (List.range h.nch).map h.child

/-- Replace a word of a header. -/
def Hdr.put (h : Hdr) (at0 : Nat) (v : Nat) : Hdr := setBits h at0 (BitVec.ofNat 32 v)

/-- Replace a flag. -/
def Hdr.flag (h : Hdr) (i : Nat) (v : Bool) : Hdr := setBits h i (BitVec.ofBool v)

/-- Replace NCH. -/
def Hdr.setNch (h : Hdr) (n : Nat) : Hdr := setBits h 48 (BitVec.ofNat 6 n)

/-- Replace REFS, with SHARED while it exceeds 1 (R141). -/
def Hdr.setRefs (h : Hdr) (n : Nat) : Hdr := (h.put 96 n).flag 43 (decide (1 < n))

/-- The reserved bits of a header at 0 (DESIGN CHOICE, log 12). -/
def Hdr.clean (h : Hdr) : Hdr :=
  setBits (setBits (setBits (setBits h 768 0#256) 192 0#64) 54 0#10) 45 0#3

/-- No node, in FREE and in the PARENT of the last free node. -/
def noNode : Nat := 0xFFFFFFFF

/-- The tree descriptor at hand. -/
def wTree : WorkM TreeDesc := do return (← get).desc

/-- Replace a word of the tree descriptor. -/
def wSetTree (at0 v : Nat) : WorkM Unit := modify fun w => { w with desc := setBits w.desc at0 (BitVec.ofNat 32 v) }

/-- Replace LEVELS. -/
def wSetLevels (v : Nat) : WorkM Unit := modify fun w => { w with desc := setBits w.desc 312 (BitVec.ofNat 8 v) }

/-- The address of a node (R140). -/
def nodeAt (d : TreeDesc) (i : Nat) : Nat := d.pool + i * d.size

/-- A node's header as it stands; an index at or above NODES is malformed (R389). -/
def rdHdr (i : Nat) : WorkM (Option Hdr) := do
  let d ← wTree
  if d.nodes ≤ i then throw .bad
  else
    let x ← wPair (nodeAt d i)
    return if x.2 then some x.1 else none

/-- A header that has been read before. -/
def hdr (i : Nat) : WorkM Hdr := do
  match ← rdHdr i with
  | some h => return h
  | none => throw (.unread none)

/-- Write a header. -/
def setHdr (i : Nat) (h : Hdr) : WorkM Unit := do
  let d ← wTree
  wSetPair (nodeAt d i) h

/-- Change a header. -/
def modHdr (i : Nat) (f : Hdr → Hdr) : WorkM Unit := do setHdr i (f (← hdr i))

/-- Read a node as a child of `par`, or as the root (R389): it must not name itself, its level is one below its parent's, the root's
LEVELS − 1, and NCH stays within F, or L in a leaf. -/
def rdNode (i : Nat) (par : Option (Nat × Hdr)) : WorkM (Option Hdr) := do
  let d ← wTree
  if (par.map fun p => p.1) = some i then throw .bad
  else
    match ← rdHdr i with
    | none => return none
    | some h =>
      let lv := match par with
        | some p => p.2.level
        | none => d.levels
      let lim := if h.level = 0 then d.leafCap else d.fan
      if h.level + 1 ≠ lv ∨ lim < h.nch then throw .bad else return some h

/-! ## Unreadable nodes (R417, R418) -/

/-- Submit the tenant's rebuild record for a range of positions (R418). -/
def wRebuild (first count : Nat) : WorkM Unit := do
  let w ← get
  let d ← wTree
  match jobNode w.s w.job with
  | none => pure ()
  | some n =>
    let rec0 := Table.get 0#2048 w.s.hub.rebuild n.tenant.toNat
    if rec0 = 0#2048 then pure ()
    else
      let va : BitVec 56 := BitVec.ofNat 56 w.va
      let log : BitVec 56 := BitVec.ofNat 56 d.log
      let hi (x : BitVec 56) : Word := (bits x 32 24).setWidth 32
      let lo (x : BitVec 56) : Word := bits x 0 32
      let args : BitVec 192 := hi log ++ lo log ++ BitVec.ofNat 32 count ++ BitVec.ofNat 32 first ++ hi va ++ lo va
      let r := setBits (setBits rec0 1024 args) 912 w.job.hyp
      let sub : Submit := ⟨nodeVf w.s n, false, false, r⟩
      set { w with s := { w.s with dist := { w.s.dist with subq := w.s.dist.subq ++ [sub] } } }

/-- Mark the parent of an unreadable node, or report an unreadable root (R417, R418). -/
def markUnread (par : Option Nat) : WorkM Unit := do
  let d ← wTree
  wStatus stPoison
  match par with
  | none => wRebuild 0 d.tokens
  | some p =>
    match ← rdHdr p with
    | none => pure ()
    | some h =>
      if h.poisoned || (← get).fresh.contains p then pure ()
      else
        wWrite (nodeAt d p) 0x20#64 (bits (h.flag 44 true) 0 512) none
        wRebuild h.pos0 h.count

/-- What a command that writes must be able to read (R417): otherwise it ends before any write. -/
def need {α : Type} (par : Option Nat) (x : WorkM (Option α)) : WorkM α := do
  match ← x with
  | some a => return a
  | none => throw (.unread (some par))

/-! ## Bodies (R140, R142) -/

/-- A block that an STE's cache holds for a job. -/
def SteBody.serves (w : Work) (va : Nat) (b : SteBody) : Bool :=
  decide (b.site = engSite w.job.eng) && decide (b.tenant = jobTenant w.s w.job) && decide (b.ctx = ctxOf (jobNode w.s w.job)) &&
    decide (b.hyp = w.hyp) && decide (b.va = va)

/-- Put the blocks of a body from an address on into the cache of a job's STE. -/
def keepBody (w : Work) : Nat → List BlkVal → List SteBody
  | _, [] => []
  | va, b :: bs => ⟨engSite w.job.eng, jobTenant w.s w.job, ctxOf (jobNode w.s w.job), w.hyp, va, b⟩ :: keepBody w (va + 64) bs

/-- Read `n` blocks of a node's body, unless one of them is poisoned: from the node cache, or from memory, and those of a SEALED node then
stand in the cache (R150) (DESIGN CHOICE, log 160). -/
def rdBlocks (i va n : Nat) : WorkM (Option (List BlkVal)) := do
  let w ← get
  let hits := (List.range n).filterMap fun k => w.s.hyps.bodies.find? (SteBody.serves w (va + 64 * k))
  if hits.length = n then return some (hits.map fun b => b.val)
  else
    modify fun v => { v with status := 0#16 }
    let bs ← wBlocks va n
    let met := (← get).status
    modify fun v => { v with status := w.status ||| met }
    if bs.any fun b => b.psn then return none
    else
      let h ← rdHdr i
      let keep := decide (met &&& stPoison = 0#16) && !w.job.refuted && (match h with
        | some h => h.isSealed
        | none => false)
      if keep then
        modify fun w => { w with s := { w.s with hyps := { w.s.hyps with bodies := keepBody w va bs ++ w.s.hyps.bodies } } }
      return some bs

/-- The centroid key, or with `v` the centroid value, of a node. -/
def centAt (d : TreeDesc) (i : Nat) (v : Bool) : Nat := nodeAt d i + 128 + (if v then ceil64 (4 * d.dim) else 0)

/-- Read a centroid. -/
def rdCent (i : Nat) (v : Bool) : WorkM (Option (List Word)) := do
  let d ← wTree
  match ← rdBlocks i (centAt d i v) (ceil64 (4 * d.dim) / 64) with
  | some bs => return some (← wVec 0 0#8 d.dim bs)
  | none => return none

/-- The type, the format code and the bytes of keys, or with `v` of values. -/
def TreeDesc.kind (d : TreeDesc) (v : Bool) : Nat × BitVec 8 × Nat :=
  if v then (d.vtype, d.vfmt, d.vb) else (d.ktype, d.kfmt, d.kb)

/-- The address of slot `j` of a leaf. -/
def slotAt (d : TreeDesc) (i j : Nat) (v : Bool) : Nat :=
  nodeAt d i + 128 + 2 * ceil64 (4 * d.dim) + (if v then d.leafCap * d.kb + j * d.vb else j * d.kb)

/-- The blocks of a slot. -/
def rdSlotBlocks (i j : Nat) (v : Bool) : WorkM (Option (List BlkVal)) := do
  let d ← wTree
  rdBlocks i (slotAt d i j v) ((d.kind v).2.2 / 64)

/-- The vector in a slot. -/
def rdSlot (i j : Nat) (v : Bool) : WorkM (Option (List Word)) := do
  let d ← wTree
  match ← rdSlotBlocks i j v with
  | some bs => return some (← wVec (d.kind v).1 (d.kind v).2.1 d.dim bs)
  | none => return none

/-- A narrow block as it is stored (R142, R414): under its own scale, or as zeros at scale 0 with BD when its descriptor is bad
(DEDUCED, log 58). -/
def storedBlock (code : BitVec 8) (b : BlkVal) : Block × BitVec 16 × Flags :=
  if badBlock code b then (0#512, code.setWidth 16, fBD) else (b.data, bits b.desc 8 8 ++ code, fNone)

/-- Store narrow blocks. -/
def wNarrow (code : BitVec 8) : Nat → List BlkVal → WorkM Unit
  | _, [] => pure ()
  | va, b :: bs => do
    let x := storedBlock code b
    let _ ← wFl (0#32, x.2.2)
    wWrite va (BitVec.allOnes 64) x.1 (some x.2.1)
    wNarrow code (va + 64) bs

/-- Store a vector into a slot. -/
def wSlot (i j : Nat) (v : Bool) (bs : List BlkVal) : WorkM Unit := do
  let d ← wTree
  let k := d.kind v
  if k.1 = 3 then wNarrow k.2.1 (slotAt d i j v) bs
  else wElems (slotAt d i j v) d.dim (if k.1 = 0 then 4 else 2) (some 0x00FF#16) 0 (bs.map fun b => b.data)

/-! ## Allocation (R139, R142) -/

/-- The header of a node that is allocated: REFS and OPEN 1, every other flag, COUNT and RADIUS 0; PARENT without a parent, and CHILD, are
free values. -/
def allocHdr (free level pos0 : Nat) (par : Option Nat) : Hdr :=
  let h : Hdr := ((((Hdr.clean (Config.freeHeader free)).put 0 0).put 96 1).put 128 0).put 160 pos0
  let h : Hdr := setBits (setBits h 32 (BitVec.ofNat 8 level)) 40 1#14
  match par with
  | some p => h.put 64 p
  | none => h

/-- Take the node at FREE. -/
def alloc (level pos0 : Nat) (par : Option Nat) : WorkM Nat := do
  let d ← wTree
  let i := d.free
  let old ← hdr i
  let w ← get
  set { w with s := { w.s with free := w.s.free + 1 }, fresh := i :: w.fresh }
  setHdr i (allocHdr w.s.free level pos0 par)
  wSetTree 352 old.parent.toNat
  wSetTree 416 (d.nfree - 1)
  return i

/-! ## The rightmost path -/

/-- The OPEN nodes below an open node on the rightmost path, from it downwards, the deepest last. -/
def pathDown : Nat → Nat → Hdr → WorkM (List (Nat × Hdr))
  | 0, i, h => pure [(i, h)]
  | fuel + 1, i, h => do
    if h.level = 0 ∨ h.nch = 0 then return [(i, h)]
    else
      let c := h.child (h.nch - 1)
      let hc ← need (some i) (rdNode c (some (i, h)))
      if hc.isOpen then return (i, h) :: (← pathDown fuel c hc) else return [(i, h)]

/-- The rightmost path's nodes from the root down while it is not sealed; none for an empty tree or a sealed root. -/
def openPath : WorkM (List (Nat × Hdr)) := do
  let d ← wTree
  if d.levels = 0 then return []
  else
    let h ← need none (rdNode d.root none)
    if h.isSealed then return [] else pathDown d.levels d.root h

/-! ## Sealing (R143) -/

/-- The sum of vectors, element by element, from +0. -/
def wSum (dim : Nat) (xs : List (List Word)) : WorkM (List Word) := xs.foldlM (fun acc x => zipM wAdd acc x) (List.replicate dim 0#32)

/-- The weighted sum of vectors, element by element, from +0. -/
def wWeighted (dim : Nat) (xs : List (Word × List Word)) : WorkM (List Word) :=
  xs.foldlM (fun acc x => zipM (fun a b => wFma x.1 b a) acc x.2) (List.replicate dim 0#32)

/-- Seal a leaf. One that holds no entries, as TFORK can leave it, is computed as it stands, with n = 0 (DESIGN CHOICE, log 184). -/
def sealLeaf (i n : Nat) (par : Option Nat) : WorkM (List Word × List Word × Word) := do
  let d ← wTree
  let ks ← (List.range n).mapM fun j => need par (rdSlot i j false)
  let vs ← (List.range n).mapM fun j => need par (rdSlot i j true)
  let rc ← wRcp (← wF32 n)
  let ck ← (← wSum d.dim ks).mapM fun x => wMul x rc
  let cv ← (← wSum d.dim vs).mapM fun x => wMul x rc
  let rs ← ks.mapM fun k => do wNorm (← zipM wSub k ck)
  return (ck, cv, ← wMaxOf rs)

/-- Seal an internal node. -/
def sealInner (i : Nat) (h : Hdr) : WorkM (List Word × List Word × Word) := do
  let d ← wTree
  let hs ← h.children.mapM fun c => need (some i) (rdNode c (some (i, h)))
  let cks ← h.children.mapM fun c => need (some i) (rdCent c false)
  let cvs ← h.children.mapM fun c => need (some i) (rdCent c true)
  let ns ← hs.mapM fun x => wF32 x.count
  let rc ← wRcp (← wF32 (hs.map fun x => x.count).sum)
  let ck ← (← wWeighted d.dim (ns.zip cks)).mapM fun x => wMul x rc
  let cv ← (← wWeighted d.dim (ns.zip cvs)).mapM fun x => wMul x rc
  let rs ← (hs.zip cks).mapM fun x => do wAdd x.1.radius (← wNorm (← zipM wSub x.2 ck))
  return (ck, cv, ← wMaxOf rs)

/-- Seal a node: OPEN clears, SEALED sets, and its centroids and radius are final. -/
def sealNode (i : Nat) (par : Option Nat) : WorkM Unit := do
  let d ← wTree
  let h ← hdr i
  let (ck, cv, r) ← if h.level = 0 then sealLeaf i h.nch par else sealInner i h
  wSetVec (centAt d i false) ck
  wSetVec (centAt d i true) cv
  modHdr i fun h => ((h.put 128 r.toNat).flag 40 false).flag 41 true

/-- Seal the nodes of a path, deepest first, while `go` holds of the next node's header: a list with the deepest first. -/
def sealUp (go : Hdr → Bool) : List Nat → WorkM Unit
  | [] => pure ()
  | i :: rest => do
    sealNode i rest.head?
    match rest.head? with
    | none => pure ()
    | some p => if go (← hdr p) then sealUp go rest else pure ()

/-! ## Dropping references (R146) -/

/-- The tenant's bodies between two addresses leave every node cache, under whichever context and hypothesis they were read (R150). -/
def dropBodyRange (lo hi : Nat) : WorkM Unit :=
  modify fun w =>
    let gone (b : SteBody) : Bool := decide (b.tenant = jobTenant w.s w.job) && decide (lo ≤ b.va) && decide (b.va < hi)
    { w with s := dropBodies w.s gone }

/-- Push a node onto the free list (R139). -/
def freeNode (i : Nat) : WorkM Unit := do
  let d ← wTree
  dropBodyRange (nodeAt d i) (nodeAt d i + d.size)
  modHdr i fun h => h.put 64 d.free
  wSetTree 352 i
  wSetTree 416 (d.nfree + 1)

/-- Drop a reference: a node left without one is freed and drops its own to its children, which a node with SUMMARY_ONLY has dropped
before; an unreadable node never returns to the free list (R417) (DESIGN CHOICE, log 170). -/
def dropRef : Nat → Nat → Option (Nat × Hdr) → WorkM Unit
  | 0, _, _ => pure ()
  | fuel + 1, i, par => do
    match ← rdNode i par with
    | none => markUnread (par.map fun p => p.1)
    | some h =>
      if h.refs = 0 then throw .bad
      else
        let h2 := h.setRefs (h.refs - 1)
        setHdr i h2
        if h.refs = 1 then
          freeNode i
          if h.level ≠ 0 ∧ ¬ h.summaryOnly then h.children.forM fun c => dropRef fuel c (some (i, h2)) else pure ()
        else pure ()

end Sys2Proof.Machine
end

