-- ==== Sys2Proof/Machine/Ste.lean ====
section
/-! DEFINITION. The commands of the summary tree engines (R139 to R149, R357, R358, R414 to R418). -/

namespace Sys2Proof.Machine

/-! ## Shared by the commands -/

/-- VA of a command. -/
def cmdVa (c : Cmd) : Nat := (bits c.ops 0 56).toNat

/-- OUTREL and DSTREL. -/
def cmdRel (c : Cmd) : Word := bits c.ops 56 32

/-- The tokens of a query: fp32 when KTYPE = 3 (R357). -/
def queryType (d : TreeDesc) : Nat := if d.ktype = 3 then 0 else d.ktype

/-- One step of a summary tree command that takes `cnt` tokens (R357, R340). -/
def steRun (opc : BitVec 8) (eng : EngId) (c : Cmd) (cnt : TreeDesc → Nat) (act : List Token → WorkM (List Token)) (s : State) :
    Host.Outcome State Fault Refusal :=
  let left (d : BitVec 1024) : Nat := if TreeDesc.dimOk d then cnt d else 0
  let tokens (s : State) (j : Job) : Nat :=
    match peekDesc s j (cmdVa c) with
    | some d => left d
    | none => 0
  engRun opc eng c tokens (fun j s => workStep (cmdVa c) j.hyp TreeDesc.ok left cnt markUnread act j s) s

/-! ## TNEW (R139) -/

/-- The header of a free node: REFS 0 and the next free node; what R139 does not name is a free value. -/
def freeHdr (free next : Nat) : Hdr := ((Hdr.clean (Config.freeHeader free)).setRefs 0).put 64 next

/-- Write the headers of all nodes as free, in ascending index order: `n` of them are still to come, the next one is `i`. -/
def linkFree : Nat → Nat → WorkM Unit
  | 0, _ => pure ()
  | n + 1, i => do
    let w ← get
    set { w with s := { w.s with free := w.s.free + 1 } }
    setHdr i (freeHdr w.s.free (if n = 0 then noNode else i + 1))
    linkFree n (i + 1)

/-- TNEW: link every node into the free list, and write STRIDE, FREE, NFREE, LEVELS and TOKENS. -/
def tnew : WorkM (List Token) := do
  let d ← wTree
  linkFree d.nodes 0
  dropBodyRange d.pool (d.pool + d.nodes * d.size)
  modify fun w => { w with s := leavePool w.s (jobTenant w.s w.job) d.pool }
  modify fun w => { w with desc := setBits w.desc 384 (BitVec.ofNat 16 (d.size / 64)) }
  wSetTree 352 0
  wSetTree 416 d.nodes
  wSetTree 160 0
  wSetLevels 0
  return []

/-- TNEW (R139, R358). -/
def execTnew (eng : EngId) (c : Cmd) (s : State) : Host.Outcome State Fault Refusal := steRun 0x30#8 eng c (fun _ => 0) (fun _ => tnew) s

/-! ## TAPP (R142) -/

/-- The nodes that an append will allocate (R416), found before its first write; a full node that is still open is malformed. -/
def tappNeed (path : List (Nat × Hdr)) : WorkM Nat := do
  let d ← wTree
  match path.getLast? with
  | none => return d.levels + 1
  | some (_, h) =>
    if (if h.level = 0 then d.leafCap else d.fan) ≤ h.nch then throw .bad else return h.level

/-- Allocate the nodes below a node with no open child, down to the leaf; the path grows at its deep end, the leaf first. -/
def growDown (p : Nat) : Nat → List Nat → WorkM (List Nat)
  | 0, path => pure path
  | lv + 1, path => do
    let x := path.headD 0
    let y ← alloc lv p (some x)
    modHdr x fun h => (h.put (256 + 32 * h.nch) y).setNch (h.nch + 1)
    growDown p lv (y :: path)

/-- Give the tree a root that can grow: the first leaf, or a level above a sealed root (R142). -/
def growRoot (p : Nat) : WorkM Nat := do
  let d ← wTree
  if d.levels = 0 then
    let x ← alloc 0 p none
    wSetTree 128 x
    wSetLevels 1
    return 0
  else
    let r ← hdr d.root
    let x ← alloc d.levels r.pos0 none
    modHdr x fun h => ((h.put 256 d.root).setNch 1).put 0 r.count
    modHdr d.root fun h => h.put 64 x
    wSetTree 128 x
    wSetLevels (d.levels + 1)
    return d.levels

/-- TAPP: one entry at position TOKENS, with what it seals. -/
def tapp (toks : List Token) : WorkM (List Token) := do
  let d ← wTree
  let p := d.tokens
  let open0 ← openPath
  if d.nfree < (← tappNeed open0) then throw .pool
  let path ←
    match open0.reverse with
    | (i, h) :: up => growDown p h.level (i :: up.map fun x => x.1)
    | [] => do
      let lv ← growRoot p
      growDown p lv [(← wTree).root]
  let leaf := path.headD 0
  let j := (← hdr leaf).nch
  let bs ← (toks.drop 1).mapM wTok
  let nk := vecBlocks d.ktype d.kfmt d.dim
  wSlot leaf j false (bs.take nk)
  wSlot leaf j true (bs.drop nk)
  modHdr leaf fun h => h.setNch (j + 1)
  path.forM fun i => modHdr i fun h => h.put 0 (h.count + 1)
  let t ← match toks.head? with
    | some t => wTok t
    | none => pure ⟨0#512, 0#16, false⟩
  wSetWord ((d.log + 4 * p) % 2 ^ 56) (lane t.data 0)
  wSetTree 160 (p + 1)
  if j + 1 = d.leafCap then sealUp (fun h => decide (h.nch = d.fan)) path
  return []

/-- TAPP (R142, R357): a token id, a key and a value. -/
def execTapp (eng : EngId) (c : Cmd) (s : State) : Host.Outcome State Fault Refusal :=
  steRun 0x31#8 eng c (fun d => 1 + vecBlocks d.ktype d.kfmt d.dim + vecBlocks d.vtype d.vfmt d.dim) tapp s

/-! ## TSEAL (R358) -/

/-- TSEAL: every OPEN node of the rightmost path, from the leaf upwards (DEDUCED, log 59). -/
def tseal : WorkM (List Token) := do
  let path ← openPath
  sealUp (fun _ => true) ((path.map fun x => x.1).reverse)
  return []

/-- TSEAL (R143, R358). -/
def execTseal (eng : EngId) (c : Cmd) (s : State) : Host.Outcome State Fault Refusal :=
  steRun 0x32#8 eng c (fun _ => 0) (fun _ => tseal) s

/-! ## TATT (R147 to R149) -/

/-- An item of the frontier: a node, or entry `ent` of a leaf; its header and parent; the count, score, bounds and B; unreadable,
SUMMARY_ONLY or POISONED, withdrawn. -/
structure Item where
  idx : Nat
  ent : Option Nat
  hd : Hdr
  par : Option (Nat × Hdr)
  sc : Word
  u : Word
  l : Word
  b : Word
  unread : Bool
  fixed : Bool
  out : Bool
  deriving DecidableEq, Repr

/-- An unreadable node: weight +0, B +0, never a candidate (R417). -/
def Item.lost (i : Nat) (par : Option (Nat × Hdr)) : Item := ⟨i, none, 0#1024, par, 0#32, 0#32, 0#32, 0#32, true, false, false⟩

/-- COUNT of a node's item, 1 for an entry. -/
def Item.n (x : Item) : Nat := if x.ent.isSome then 1 else x.hd.count

/-- The order of R148: by node index, the entries of a leaf by entry index. -/
def Item.before (a b : Item) : Bool :=
  decide (a.idx < b.idx) || (decide (a.idx = b.idx) && decide (a.ent.getD 0 < b.ent.getD 0))

/-- Put an item into the frontier's order. -/
def Item.insert (x : Item) : List Item → List Item
  | [] => [x]
  | y :: ys => if x.before y then x :: y :: ys else y :: Item.insert x ys

/-- The query as it is scored: its scaled elements and their norm. -/
structure Query where
  qs : List Word
  nq : Word
  deriving DecidableEq, Repr

/-- The entries of a leaf with their scores, or none when the leaf is unreadable, whose parent is then marked (DEDUCED, log 60). -/
def leafItems (q : Query) (i : Nat) (h : Hdr) (par : Option (Nat × Hdr)) : Nat → WorkM (Option (List Item))
  | 0 => pure (some [])
  | n + 1 => do
    match ← leafItems q i h par n with
    | none => return none
    | some xs =>
      match ← rdSlot i n false with
      | none =>
        markUnread (par.map fun p => p.1)
        return none
      | some k =>
        let sc ← wDot q.qs k
        return some (xs ++ [⟨i, some n, h, par, sc, sc, sc, 0#32, false, false, false⟩])

/-- What a frontier node stands for (R147): itself, or for an OPEN node its children or entries, recursively (DEDUCED, log 53). -/
def nodeItems (q : Query) : Nat → Nat → Option (Nat × Hdr) → WorkM (List Item)
  | 0, _, _ => pure []
  | fuel + 1, i, par => do
    match ← rdNode i par with
    | none =>
      markUnread (par.map fun p => p.1)
      return [Item.lost i par]
    | some h =>
      if h.isOpen then
        if h.level = 0 then return (← leafItems q i h par h.nch).getD [Item.lost i par]
        else return (← h.children.mapM fun c => nodeItems q fuel c (some (i, h))).flatten
      else
        match ← rdCent i false with
        | none =>
          markUnread (par.map fun p => p.1)
          return [Item.lost i par]
        | some ck =>
          let sc ← wDot q.qs ck
          let dl ← wMul q.nq h.radius
          return [⟨i, none, h, par, sc, ← wAdd sc dl, ← wSub sc dl, 0#32, false, h.summaryOnly || h.poisoned, false⟩]

/-- The frontier at the start: the children of ROOT, or ROOT itself in a tree of one level or with SUMMARY_ONLY set, or sealed with
POISONED set (R417) (DEDUCED, log 52; DESIGN CHOICE, log 172). -/
def rootItems (q : Query) : WorkM (List Item) := do
  let d ← wTree
  match ← rdNode d.root none with
  | none =>
    markUnread none
    return if d.levels = 1 then [Item.lost d.root none] else []
  | some h =>
    if h.level = 0 ∨ h.summaryOnly ∨ (h.poisoned ∧ !h.isOpen) then nodeItems q 1 d.root none
    else return (← h.children.mapM fun c => nodeItems q d.levels c (some (d.root, h))).flatten

/-- The bound B of an item (R147). -/
def bound (m : Word) (x : Item) : WorkM Item := do
  if x.ent.isSome ∨ x.unread then return x
  else
    let e ← wSub (← wExp (← wSub x.u m)) (← wExp (← wSub x.l m))
    return { x with b := ← wMul (← wF32 x.n) e }

/-- Smass over the frontier in order (R147); an unreadable node has weight +0. -/
def smass (m : Word) (xs : List Item) : WorkM Word :=
  xs.foldlM (fun acc x => do
    if x.unread then wAdd acc 0#32
    else wAdd acc (← wMul (← wF32 x.n) (← wExp (← wSub x.l m)))) 0#32

/-- The candidate with the largest B; the first one where they tie (DESIGN CHOICE, log 171). -/
def bestOf (xs : List Item) : Option Item :=
  (xs.filter fun x => x.ent.isNone && !x.unread && !x.out).foldl (fun v x =>
    match v with
    | none => some x
    | some y => if (fcompare 1 y.b x.b).1 then some x else some y) none

/-- What the loop of R147 has come to: the frontier, the expansions, and the two status bits. -/
structure Scan where
  front : List Item
  ex : Nat
  budgetx : Bool
  evict : Bool
  deriving DecidableEq, Repr

/-- Replace an item of the frontier, by itself changed or by what it expands to. -/
def Scan.swap (f : Scan) (x : Item) (ys : List Item) : List Item := ys.foldr Item.insert (f.front.filter fun y => decide (y ≠ x))

/-- What a node expands to: its entries or its children; none when it is unreadable (R417). -/
def expand (q : Query) (x : Item) : WorkM (Option (List Item)) := do
  let d ← wTree
  if x.hd.level = 0 then leafItems q x.idx x.hd x.par x.hd.nch
  else return some (← x.hd.children.mapM fun c => nodeItems q d.levels c (some (x.idx, x.hd))).flatten

/-- The loop of R147. An expansion that finds its leaf unreadable uses no budget (DESIGN CHOICE, log 187). -/
def scan (q : Query) (m : Word) : Nat → Scan → WorkM Scan
  | 0, f => pure f
  | fuel + 1, f => do
    let d ← wTree
    let mass ← smass m f.front
    match bestOf f.front with
    | none => return f
    | some x =>
      let lim ← wMul (bits d 192 32) mass
      if !(fcompare 1 lim x.b).1 then return f
      else if f.ex = (bits d 256 16).toNat then return { f with budgetx := true }
      else if x.fixed then scan q m fuel { f with front := f.swap x [{ x with out := true }], evict := true }
      else
        match ← expand q x with
        | none => scan q m fuel { f with front := f.swap x [{ x with unread := true, b := 0#32 }] }
        | some ys =>
          let zs ← ys.mapM (bound m)
          scan q m fuel { f with front := f.swap x zs, ex := f.ex + 1 }

/-- The sums over the final frontier (R148): num, Z, E and the two counts. -/
structure Acc where
  num : List Word
  z : Word
  e : Word
  nexact : Nat
  nsum : Nat
  deriving DecidableEq, Repr

/-- The vector of a frontier's item: its value, or the node's value centroid; none where it cannot be read. -/
def Item.vector (x : Item) : WorkM (Option (List Word)) :=
  if x.unread then pure (some [])
  else
    match x.ent with
    | some j => rdSlot x.idx j true
    | none => rdCent x.idx true

/-- The final frontier with its vectors: a node of which a block that is read here is poisoned is unreadable as a whole, the entries of
such a leaf included (R417) (DEDUCED, log 60). -/
def settleFront (xs : List Item) : WorkM (List (Item × List Word)) := do
  let vs ← xs.mapM fun x => do return (x, ← x.vector)
  let bad := vs.filter fun y => y.2.isNone
  let lost := (bad.map fun y => y.1.idx).eraseDups
  lost.forM fun i => do
    match bad.find? fun y => decide (y.1.idx = i) with
    | some y => markUnread (y.1.par.map fun p => p.1)
    | none => pure ()
  return vs.foldl (fun acc y =>
    if !lost.contains y.1.idx then acc ++ [(y.1, y.2.getD [])]
    else if acc.any fun z => decide (z.1.idx = y.1.idx) then acc
    else acc ++ [(Item.lost y.1.idx y.1.par, [])]) []

/-- Add one item's weight and vector; an unreadable node has weight +0 and B +0 (R417), and counts in NSUM (DESIGN CHOICE, log 185). -/
def Acc.add (m : Word) (a : Acc) (y : Item × List Word) : WorkM Acc := do
  let x := y.1
  let a ← if x.ent.isSome then pure { a with nexact := a.nexact + 1 } else do pure { a with nsum := a.nsum + 1, e := ← wAdd a.e x.b }
  if x.unread then return a
  else
    let e ← wExp (← wSub x.sc m)
    let w ← if x.ent.isSome then pure e else do wMul (← wF32 x.n) e
    return { a with num := ← zipM (fun n v => wFma w v n) a.num y.2, z := ← wAdd a.z w }

/-- The output record (R149). -/
def attRecord (m : Word) (a : Acc) (f : Scan) : Block :=
  let w (x : Word) (at0 : Nat) : Block := x.setWidth 512 <<< at0
  w m 0 ||| w a.z 32 ||| w a.e 64 ||| w (BitVec.ofNat 32 a.nsum) 96 ||| w (BitVec.ofNat 32 a.nexact) 128 |||
  w (BitVec.ofNat 32 f.ex) 160 ||| w (if f.evict then 1#32 else 0#32) 176 ||| w (if f.budgetx then 1#32 else 0#32) 177 |||
  w (if a.z = 0#32 then 1#32 else 0#32) 178

/-- The query's tokens as they are scored. -/
def wQuery (toks : List Token) : WorkM Query := do
  let d ← wTree
  let q ← wVec (queryType d) 0#8 d.dim (← toks.mapM wTok)
  let qs ← q.mapM fun x => wMul x (bits d 224 32)
  return ⟨qs, ← wNorm qs⟩

/-- The frontier, the loop and the sums of one query: M, the sums, and what the loop came to. -/
def attend (toks : List Token) : WorkM (Word × Acc × Scan) := do
  let d ← wTree
  let zeros : List Word := List.replicate d.dim 0#32
  if d.levels = 0 then return (0xFF800000#32, ⟨zeros, 0#32, 0#32, 0, 0⟩, ⟨[], 0, false, false⟩)
  else
    let q ← wQuery toks
    let xs ← rootItems q
    let us := (xs.filter fun x => !x.unread).map fun x => x.u
    let m ← if us.isEmpty then pure 0xFF800000#32 else wMaxOf us
    let xs ← xs.mapM (bound m)
    let f ← scan q m (xs.length + 16 * (bits d 256 16).toNat + 1) ⟨xs.foldr Item.insert [], 0, false, false⟩
    let a ← (← settleFront f.front).foldlM (Acc.add m) ⟨zeros, 0#32, 0#32, 0, 0⟩
    return (m, a, f)

/-- TATT: attention for one query, and its output record at VA + 64 × OUTREL (R149, R358). -/
def tatt (rel : Word) (toks : List Token) : WorkM (List Token) := do
  let d ← wTree
  let (m, a, f) ← attend toks
  let o ← if a.z = 0#32 then pure (List.replicate d.dim 0#32) else do
    let rz ← wRcp a.z
    a.num.mapM fun x => wMul x rz
  let out := relAddr (← get).va rel
  wWrite out (BitVec.allOnes 64) (attRecord m a f) none
  wSetVec (out + 64) o
  wSetVec (out + 64 + ceil64 (4 * d.dim)) a.num
  return []

/-- TATT (R147, R357). -/
def execTatt (eng : EngId) (c : Cmd) (s : State) : Host.Outcome State Fault Refusal :=
  steRun 0x33#8 eng c (fun d => vecBlocks (queryType d) 0#8 d.dim) (tatt (cmdRel c)) s

/-! ## TFORK (R144) -/

/-- The first position that no sealed node covers (DEDUCED, log 56). -/
def firstOpen (d : TreeDesc) (path : List (Nat × Hdr)) : Nat :=
  match path.getLast? with
  | some (_, h) => if h.level = 0 then h.pos0 else d.tokens
  | none => if d.levels = 0 then 0 else d.tokens

/-- A sealed node that gains a reference: REFS + 1, and SHARED (R144). -/
def share (i : Nat) (par : Option (Nat × Hdr)) : WorkM Unit := do
  let h ← need (par.map fun p => p.1) (rdNode i par)
  setHdr i (h.setRefs (h.refs + 1))

/-- Copy the entries of a leaf below slot `n`, blocks and descriptors. -/
def copySlots (src dst : Nat) (par : Option Nat) : Nat → WorkM Unit
  | 0 => pure ()
  | n + 1 => do
    copySlots src dst par n
    let d ← wTree
    [false, true].forM fun v => do
      let bs ← need par (rdSlotBlocks src n v)
      (bs.zip (List.range bs.length)).forM fun x => wWrite (slotAt d dst n v + 64 * x.2) (BitVec.allOnes 64) x.1.data (some x.1.desc)

/-- Copy the open nodes of a path, from the root down: `drop` positions go, and each copy becomes the last child of the one above. -/
def copyPath (p drop : Nat) : List (Nat × Hdr) → Option Nat → Option (Nat × Hdr) → WorkM (Option Nat)
  | [], _, _ => pure none
  | (i, h) :: rest, up, par => do
    let y ← alloc h.level h.pos0 up
    let n := if h.level = 0 then p - h.pos0 else h.nch
    let keep := if rest.isEmpty then n else n - 1
    let h2 ← hdr y
    let h2 : Hdr := setBits (h2.flag 44 h.poisoned) 256 (bits h 256 512)
    setHdr y ((h2.put 0 (h.count - drop)).setNch n)
    if h.level = 0 then copySlots i y (par.map fun x => x.1) n
    else ((List.range keep).map h.child).forM fun c => share c (some (i, h))
    match ← copyPath p drop rest (some y) (some (i, h)) with
    | some z => modHdr y fun g => g.put (256 + 32 * (n - 1)) z
    | none => pure ()
    return some y

/-- TFORK: a destination descriptor that holds positions 0 to p − 1 (R144, R358) (DEDUCED, log 55). -/
def tfork (rel : Word) (toks : List Token) : WorkM (List Token) := do
  let d ← wTree
  let t ← match toks.head? with
    | some t => wTok t
    | none => pure ⟨0#512, 0#16, false⟩
  let p := (lane t.data 0).toNat
  let path ← openPath
  if p < firstOpen d path ∨ d.tokens < p then throw .bad
  if d.nfree < path.length then throw .pool
  let root ←
    match ← copyPath p (d.tokens - p) path none none with
    | some y => pure y
    | none => do
      if d.levels ≠ 0 then share d.root none
      pure d.root
  let w ← get
  wSetPair (relAddr w.va rel) (setBits (setBits w.desc 160 (BitVec.ofNat 32 p)) 128 (BitVec.ofNat 32 root))
  modify fun w => { w with s := joinPool w.s (jobTenant w.s w.job) d.pool [w.va, relAddr w.va rel] }
  return []

/-- TFORK (R144, R358). -/
def execTfork (eng : EngId) (c : Cmd) (s : State) : Host.Outcome State Fault Refusal :=
  steRun 0x34#8 eng c (fun _ => 1) (tfork (cmdRel c)) s

/-! ## TEVICT (R145) -/

/-- The counts of an eviction, and whether the node visited last has SUMMARY_ONLY. -/
structure Evict where
  done : Nat
  skipped : Nat
  gone : Bool
  deriving DecidableEq, Repr

/-- Evict below a node, from the leaves upward: sealed leaves in the range with REFS 1, then sealed internal nodes with REFS 1 whose
children are all SUMMARY_ONLY. Shared, unreadable and POISONED nodes are skipped and counted (R145, R417) (DEDUCED, log 57;
DESIGN CHOICE, log 169). -/
def evictTree (a b : Nat) : Nat → Nat → Option (Nat × Hdr) → Evict → WorkM Evict
  | 0, _, _, e => pure { e with gone := false }
  | fuel + 1, i, par, e => do
    match ← rdNode i par with
    | none =>
      markUnread (par.map fun p => p.1)
      return { e with skipped := e.skipped + 1, gone := false }
    | some h =>
      if h.summaryOnly then return { e with gone := true }
      else if h.poisoned then return { e with skipped := e.skipped + 1, gone := false }
      else if h.level = 0 then
        if !h.isSealed || decide (h.pos0 < a) || decide (b < h.pos0 + h.count) then return { e with gone := false }
        else if h.refs ≠ 1 then return { e with skipped := e.skipped + 1, gone := false }
        else
          setHdr i (h.flag 42 true)
          return { e with done := e.done + 1, gone := true }
      else
        let (e, all) ← h.children.foldlM (fun (x : Evict × Bool) c => do
          let e ← evictTree a b fuel c (some (i, h)) x.1
          return (e, x.2 && e.gone)) (e, true)
        if !h.isSealed || !all then return { e with gone := false }
        else if h.refs ≠ 1 then return { e with skipped := e.skipped + 1, gone := false }
        else
          modHdr i fun h => h.flag 42 true
          h.children.forM fun c => dropRef fuel c (some (i, h))
          return { e with done := e.done + 1, gone := true }

/-- TEVICT over positions [a, b): one token with the evicted count in lane 0 and the skipped count in lane 1 (R358). -/
def tevict (toks : List Token) : WorkM (List Token) := do
  let d ← wTree
  let xs ← toks.mapM wTok
  let pos (k : Nat) : Nat := match xs[k]? with
    | some t => (lane t.data 0).toNat
    | none => 0
  let none0 : Evict := ⟨0, 0, false⟩
  let e ← if d.levels = 0 ∨ pos 1 ≤ pos 0 then pure none0 else evictTree (pos 0) (pos 1) d.levels d.root none none0
  let out := ofLanes fun l => if l = 0 then BitVec.ofNat 32 e.done else if l = 1 then BitVec.ofNat 32 e.skipped else 0#32
  let j := (← get).job
  return [vectorTok out 0x0003#16 0x00FF#16 j.hyp j.refuted false]

/-- TEVICT (R145, R358). -/
def execTevict (eng : EngId) (c : Cmd) (s : State) : Host.Outcome State Fault Refusal := steRun 0x35#8 eng c (fun _ => 2) tevict s

/-! ## TFREE and TSTAT -/

/-- TFREE: drop the descriptor's reference to ROOT and set LEVELS = 0 (R146). -/
def tfree : WorkM (List Token) := do
  let d ← wTree
  if d.levels ≠ 0 then dropRef d.levels d.root none
  wSetLevels 0
  return []

/-- TFREE (R146, R358). -/
def execTfree (eng : EngId) (c : Cmd) (s : State) : Host.Outcome State Fault Refusal :=
  steRun 0x36#8 eng c (fun _ => 0) (fun _ => tfree) s

/-- TSTAT: TOKENS, LEVELS, ROOT, NFREE and FREE in lanes 0 to 4 (R358). -/
def tstat : WorkM (List Token) := do
  let w ← get
  let d : TreeDesc := w.desc
  let vals := [d.tokens, d.levels, d.root, d.nfree, d.free]
  return [vectorTok (ofLanes fun l => BitVec.ofNat 32 (vals.getD l 0)) 0x001F#16 0x00FF#16 w.job.hyp w.job.refuted false]

/-- TSTAT (R358). -/
def execTstat (eng : EngId) (c : Cmd) (s : State) : Host.Outcome State Fault Refusal :=
  steRun 0x37#8 eng c (fun _ => 0) (fun _ => tstat) s

end Sys2Proof.Machine
end

