-- ==== Sys2Proof/Machine/Rows.lean ====
section
/-! DEFINITION. Where a router output leads, and the rows of user logit kernels (R166, R422): how a row aborts, and what becomes of what the
kernel has sent. -/

namespace Sys2Proof.Machine

/-! ## Where a router's local output leads -/

/-- The first input end below `n` of a CE that listens on a VC (R227). -/
def ceEndOf (s : State) (site : Site) (vc : Nat) : Option Nat :=
  (List.range 8).find? fun e => bitAt (ceEnd s site e) 0 && decide ((bits (ceEnd s site e) 12 4).toNat = vc)

/-- The input end of a memory tile that listens on a local port and VC (R232, R233): a port, or the ctl input of an AG. -/
def mtEndOf (s : State) (site : Site) (lp vc : Nat) : Option Nat :=
  let port (n : Nat) : Bool :=
    let b := portBinding s ⟨site, BitVec.ofNat 3 n⟩
    bitAt b 14 && decide (8 + (bits b 19 1).toNat = lp) && decide ((bits b 15 4).toNat = vc)
  let ctl (j : Nat) : Bool :=
    let b := agBinding s ⟨site, BitVec.ofNat 1 j⟩
    bitAt b 10 && decide (8 + (bits b 9 1).toNat = lp) && decide ((bits b 5 4).toNat = vc)
  match (List.range 8).find? port with
  | some n => some n
  | none => if ctl 0 then some 8 else if ctl 1 then some 9 else none

/-- The input of an engine that listens on a VC (R242): cmd, data or FREED. -/
def engEndOf (s : State) (site : Site) (vc : Nat) : Option Nat :=
  let b := engBinding s site
  if bitAt b 32 && decide ((bits b 8 4).toNat = vc) then some 0
  else if bitAt b 33 && decide ((bits b 12 4).toNat = vc) then some 1
  else if bitAt b 36 && decide ((bits b 24 4).toNat = vc) then some 2
  else none

/-- The input end of a site's element that listens on a local port and VC. -/
def endOf (s : State) (site : Site) (lp vc : Nat) : Option Nat :=
  match siteKind site with
  | .ce => ceEndOf s site vc
  | .mt => mtEndOf s site lp vc
  | _ => engEndOf s site vc

/-- The configuration of an operator slot (R239). -/
def opCfgOf (s : State) (loc : OpAt) : OpCfg :=
  let w := opFrame s loc
  ⟨bits w 4 4, bits w 8 5, bits w 32 128, bits w 160 96⟩

/-! ## The way of a row from its kernel -/

/-- A place on a channel's way: a buffer, or a REPLAY that records a first lap. -/
inductive Way where
  | buf (key : Nat)
  | lap (loc : OpAt)
  deriving DecidableEq, Repr

/-- The ways of a channel from a router input on, through its operators, to its consumers; a REPLAY in its second lap ends one. -/
def waysFrom (s : State) : Nat → Site → Nat → Nat → List (List Way)
  | 0, _, _, _ => []
  | fuel + 1, site, port, vc =>
    let here : Way := .buf (inKey site port vc)
    let go (q vc : Nat) : List (List Way) :=
      if q < 8 then waysFrom s fuel (linkSite site q) (linkInPort q) vc
      else match endOf s site q vc with
        | some e => [[.buf (endKey site e)]]
        | none => []
    match Table.get none s.fab.routes (inKey site port vc) with
    | none => [[here]]
    | some r =>
      if bitAt r.ent 14 then
        let loc : OpAt := ⟨site, bits r.ent 12 2⟩
        let i := (bits r.ent 10 2).toNat
        let c := opCfgOf s loc
        let head : List Way := [here, .buf (opInKey site loc.slot.toNat i)]
        let replay : Bool := decide (bits (opFrame s loc) 0 4 = 6#4)
        if replay && (getOp s loc).lap2 then [head]
        else
          (((List.range c.nout.toNat).flatMap fun j => go (c.outPort j) (c.outVc j)).map fun w =>
            head ++ (if replay then [.lap loc] else []) ++ w)
      else (go (bits r.ent 10 4).toNat (bits r.ent 6 4).toNat).map fun w => here :: w

/-- The ways of what a CE sends. -/
def ceWays (s : State) (site : Site) : List (List Way) :=
  ((List.range 5).filter fun o => bitAt (ceOut s site o) 0).flatMap fun o =>
    waysFrom s (s.fab.routes.length + 1) site 8 (bits (ceOut s site o) 4 4).toNat

/-- What is looked for, from the newest token backwards: an EOS that is to go, the tokens of its row, or nothing more. -/
inductive Scrub where
  | seek
  | drop
  | done
  deriving DecidableEq, Repr

/-- The tokens of a buffer, newest first, without those of the row that is looked for: an EOS that was sought, and what stands before it up
to the EOS of the row before. MARK and SWITCH stay. -/
def scrubQ : Scrub → List (Token × Nat) → List (Token × Nat) × Scrub
  | m, [] => ([], m)
  | m, x :: xs =>
    if m = .done then (x :: xs, m)
    else if x.1.isCode 3#8 then (if m = .seek then scrubQ .drop xs else (x :: xs, .done))
    else if m = .seek ∨ x.1.isMarkOrSwitch then ((x :: (scrubQ m xs).1), (scrubQ m xs).2)
    else scrubQ m xs

/-- Take the tokens of a row off a way; a REPLAY that has recorded some of them forgets its lap. -/
def scrub : Scrub → List Way → State → State
  | _, [], s => s
  | m, .buf k :: ws, s =>
    let b := getBuf s k
    let x := scrubQ m b.q.reverse
    scrub x.2 ws (setBuf s k { b with q := x.1.reverse })
  | m, .lap loc :: ws, s =>
    let o := getOp s loc
    scrub m ws (if m = .drop then setOp s loc { o with recorded := 0, stamps := [], lost := [], late := [] } else s)

/-- A row's EOS has not reached the sampler: it stands on a link, or before the last buffer of its way that leads up to a REPLAY or an input
end. -/
def eosAway (s : State) (w : List Way) : Bool :=
  let up := w.takeWhile fun x => match x with
    | .buf _ => true
    | .lap _ => false
  let holds (x : Way) (late : Bool) : Bool := match x with
    | .buf k => (getBuf s k).q.any fun y => y.1.isCode 3#8 && (!late || decide (now s < y.2))
    | .lap _ => false
  (up.dropLast.any fun x => holds x false) || (match up.getLast? with
    | some x => holds x true
    | none => false)

/-! ## Rows that abort -/

/-- Change the stage's task. -/
def modTask (s : State) (site : Site) (t : BitVec 3) (f : Task → Task) : State := setTask s site t (f (getTask s site t))

/-- The task is a user logit kernel (R228, R166). -/
def isLogitKernel (s : State) (site : Site) (t : BitVec 3) : Bool := bitAt (taskDesc s site t.toNat) 36

/-- KBUDGET of a task (R228). -/
def kernelBudget (s : State) (site : Site) (t : BitVec 3) : Nat := (bits (taskDesc s site t.toNat) 96 32 : Word).toNat

/-- A node runs one of a request's records: the sequencer has submitted it, and but for SYNCSITE, which a translation moves (R216), its
record is one of the request's with priority 7 (R167). -/
def GenReq.owns (n : Node) (g : GenReq) : Bool :=
  n.firmware && g.recs.any fun r => decide (setBits (setBits r 264 7#3) 948 0#12 = setBits n.lrec 948 0#12)

/-- An aborted row of a logit kernel (R166, R422): the sampler gives 0xFFFF_FFFF for it, the row's request is charged the full budget, and
ERR.SAMPLEAB is set (DEDUCED, log 25). -/
def failRow (s : State) (site : Site) (t : BitVec 3) : State :=
  let node := nodeOf s site 0
  let mine (g : GenReq) : Bool := match node with
    | some n => g.owns n
    | none => false
  let s := match s.dist.gens.find? mine with
    | some g => setSpadWord s g.site g.off 0xFFFFFFFF#32
    | none => s
  let gens := mapFirst mine (fun g => { g with budget := g.budget - kernelBudget s site t }) s.dist.gens
  setErr { s with dist := { s.dist with gens := gens } } node 64#16

/-- The row of a logit kernel aborts, once (R422): what the kernel has sent of it is discarded, and what it still sends up to its EOS. -/
def abortRow (s : State) (site : Site) (t : BitVec 3) : State :=
  if (getTask s site t).rowAborted then s
  else
    let s := (ceWays s site).foldl (fun s w => scrub .drop w s) s
    failRow (modTask s site t fun k => { k with rowAt := none, rowAborted := true }) site t

/-- A row whose EOS is on its way aborts (R422): the EOS is the last token of it that is discarded. -/
def abortSent (s : State) (site : Site) (t : BitVec 3) : State :=
  let s := (ceWays s site).foldl (fun s w => scrub .seek w s) s
  failRow (modTask s site t fun k => { k with rowOut := none }) site t

end Sys2Proof.Machine
end

