-- ==== Sys2Proof/Machine/Flags.lean ====
section
/-! DEFINITION. What a stage leaves behind (R251): the stage register p_k and flag f_k of its lanes, the sticky AFLAGS bits
(R115, R253, R266), the generator (R126), and the output or accumulator that OUT names. -/

namespace Sys2Proof.Machine

/-- The outcome of a stage over its lanes: results and flags, the lanes it writes, the lane mask it gives an outgoing token,
its AFLAGS bits and the generators after it. -/
structure StageRes where
  val : Block
  flg : BitVec 16
  wr : BitVec 16
  outMask : BitVec 16
  fl : Flags
  gen : Block
  deriving DecidableEq, Repr

/-- OUT 1 to 4 and 5: the latch of a vector output takes the lanes of the mask, so0 takes lane 0 of p_k (R251, R290). -/
def latchOut (o : OutLatch) (val : Block) (m : BitVec 16) : OutLatch :=
  { o with pay := mergeLanes o.pay val m, mask := o.mask ||| m }

/-- The effect of the OUT field on a firing's scratch, given p_k after the stage (R251). -/
def outEffect (fr : Firing) (out : BitVec 3) (pk : Block) (r : StageRes) : Firing :=
  match out.toNat with
  | 0 => fr
  | 5 => { fr with outs := vset fr.outs 4 { vget OutLatch.empty fr.outs 4 with pay := (lane pk 0).setWidth 512 } }
  | 6 => { fr with acc := vset fr.acc 0 (mergeLanes (vget 0#512 fr.acc 0) r.val r.wr) }
  | 7 => { fr with acc := vset fr.acc 1 (mergeLanes (vget 0#512 fr.acc 1) r.val r.wr) }
  | o => { fr with outs := vset fr.outs (o - 1) (latchOut (vget OutLatch.empty fr.outs (o - 1)) r.val r.outMask) }

/-- A task after one of its stages (R251): only the written lanes of p_k and f_k change. -/
def Task.afterStage (k : Task) (slot : BitVec 3) (out : BitVec 3) (r : StageRes) : Task :=
  let pk := mergeLanes (vget 0#512 k.p slot.toNat) r.val r.wr
  let fk := (vget 0#16 k.f slot.toNat &&& ~~~r.wr) ||| (r.flg &&& r.wr)
  { k with
    p := vset k.p slot.toNat pk
    f := vset k.f slot.toNat fk
    aflags := k.aflags ||| r.fl
    gen := r.gen
    fire := { outEffect k.fire out pk r with bd := k.fire.bd || decide (r.fl &&& fBD ≠ 0#6) } }

/-- The outcome of a stage that computes each active lane by itself (R250, R253). -/
def laneStage (act : BitVec 16) (a b c : Block) (gen : Block) (f : Word → Word → Word → LaneRes) : StageRes :=
  let r (l : Nat) : LaneRes := f (lane a l) (lane b l) (lane c l)
  ⟨ofLanes fun l => (r l).val, ofMask fun l => (r l).flg, act, act, orFlags act (fun l => (r l).fl) 16, gen⟩

/-- The outcome of an NQ stage: with stochastic rounding each active lane steps its generator (R276). -/
def genStage (act : BitVec 16) (a b c : Block) (gen : Block) (f : Word → Word → Word → Word → LaneRes × Word) : StageRes :=
  let r (l : Nat) : LaneRes × Word := f (lane gen l) (lane a l) (lane b l) (lane c l)
  ⟨ofLanes fun l => (r l).1.val, ofMask fun l => (r l).1.flg, act, act, orFlags act (fun l => (r l).1.fl) 16,
    ofLanes fun l => if bitAt act l then (r l).2 else lane gen l⟩

/-- The outcome of a cross-lane stage: it writes its active lanes (R281). -/
def crossStage (act : BitVec 16) (gen : Block) (x : XRes) : StageRes := ⟨x.val, x.flg, act, act, x.fl, gen⟩

/-- The outcome of LCOMP: all sixteen lanes are written, and the mask names the lanes filled (R286). -/
def lcompStage (gen : Block) (x : XRes) : StageRes := ⟨x.val, x.flg, 0xFFFF#16, x.flg, x.fl, gen⟩

end Sys2Proof.Machine
end

