-- ==== Sys2Proof/Machine/Stage.lean ====
section
/-! DEFINITION. The stage operations over the state: each reads its operands, computes its lanes and leaves the task of its
CE as R251 says. -/

namespace Sys2Proof.Machine

/-- Operand A, B and C of a stage in every lane (R249). -/
def stageA (s : State) (st : Stage) : Block := selBlock s st.site st.task (getTask s st.site st.task) st.a

/-- Operand B. -/
def stageB (s : State) (st : Stage) : Block := selBlock s st.site st.task (getTask s st.site st.task) st.b

/-- Operand C. -/
def stageC (s : State) (st : Stage) : Block := selBlock s st.site st.task (getTask s st.site st.task) st.c

/-- The stage's active lanes (R250). -/
def stageAct (s : State) (st : Stage) : BitVec 16 := activeMask (getTask s st.site st.task) st.pred

/-- The state after a stage with a given outcome. -/
def putStage (s : State) (st : Stage) (r : StageRes) : State :=
  setTask s st.site st.task ((getTask s st.site st.task).afterStage st.slot st.out r)

/-- A stage that computes each active lane by itself. -/
def runLane (st : Stage) (f : Word → Word → Word → LaneRes) (s : State) : Host.Outcome State Fault Refusal :=
  .next (putStage s st
    (laneStage (stageAct s st) (stageA s st) (stageB s st) (stageC s st) (getTask s st.site st.task).gen f))

/-- A stage that computes each active lane and may step its generator. -/
def runGen (st : Stage) (f : Word → Word → Word → Word → LaneRes × Word) (s : State) : Host.Outcome State Fault Refusal :=
  .next (putStage s st
    (genStage (stageAct s st) (stageA s st) (stageB s st) (stageC s st) (getTask s st.site st.task).gen f))

/-- A cross-lane stage. -/
def runCross (st : Stage) (f : BitVec 16 → Block → Block → Block → XRes) (s : State) : Host.Outcome State Fault Refusal :=
  .next (putStage s st
    (crossStage (stageAct s st) (getTask s st.site st.task).gen
      (f (stageAct s st) (stageA s st) (stageB s st) (stageC s st))))

/-- The format registers that a CE's conversions read (R29). -/
def ceFmts (s : State) (site : Site) : BitVec 128 := fmtsOf (nodeOf s site 0)

end Sys2Proof.Machine
end

