-- ==== Sys2Proof/Machine/CeControl.lean ====
section
/-! DEFINITION. The control operations of a CE (R293 to R304). Each reads lane 0 of its operands and acts only when lane 0 is
active. An operation that adds a firing condition (CMD, FORK, RDV, WAITC) leaves the state as it is while the condition fails;
within a firing BUNDLE_FIRE has tested the condition first (R288). -/

namespace Sys2Proof.Machine

/-- Lane 0 is active, so the operation takes effect (R293). -/
def ctlActive (s : State) (st : Stage) : Bool := bitAt (stageAct s st) 0

/-- Lane 0 of operand A. -/
def ctlA (s : State) (st : Stage) : Word := lane (stageA s st) 0

/-- Lane 0 of operand B. -/
def ctlB (s : State) (st : Stage) : Word := lane (stageB s st) 0

/-- Lane 0 of operand C. -/
def ctlC (s : State) (st : Stage) : Word := lane (stageC s st) 0

/-- p5 and f5 take a result in every active lane (R293). -/
def ctlResult (s : State) (st : Stage) (f : Nat → Word) : State :=
  putStage s st ⟨ofLanes f, ofMask fun l => decide (f l ≠ 0#32), stageAct s st, stageAct s st, fNone, (getTask s st.site st.task).gen⟩

/-- The fault record of a TRAP (R372). -/
def trapRecord (s : State) (st : Stage) (n : BitVec 7) (arg : Word) : BitVec 512 :=
  let k := getTask s st.site st.task
  setBits (faultRecord (recordHead s (nodeOf s st.site 0)) k.hyp st.site st.task 1#1 0#3 k.pc (FaultCode.trap n) 0#56) 32 arg

/-- TRAP (R304, R370 to R372): the task stops after its firing, and its record and FAULT token go to the corner. A logit kernel's
row aborts (R422). -/
def execTrap (st : Stage) (s : State) : Host.Outcome State Fault Refusal :=
  if ctlActive s st then
    let a := ctlA s st
    let n : BitVec 7 := bits a 0 7
    let s0 := if isLogitKernel s st.site st.task then abortRow s st.site st.task else s
    let s1 := takeFault s0 st.site st.task 1#1 (ownerOf s st.site 0) (trapRecord s st n a)
    .next (modTask s1 st.site st.task fun k => { k with st := .trapped, resume := k.st, trapSeq := none })
  else .next s

/-- Release and acquire of a region at a scope (R105), with the effects of a clamp (R108). -/
def fenceRegion (s : State) (i : Inst) (n : Node) (lvl : BitVec 3) : State :=
  let scope := n.scope lvl
  let s := releaseRegion s i scope
  let s := acquireRegion s i
  if n.clamps lvl then countClamp (setEstat s (some i) 1#32) n else s

/-- FENCE (R300, R105): the release and the acquire of the task's region; the task waits until FENCE_COMPLETE. -/
def execFence (st : Stage) (s : State) : Host.Outcome State Fault Refusal :=
  if ctlActive s st then
    let lvl : BitVec 3 := bits (ctlA s st) 0 3
    let s := match ownerOf s st.site 0, nodeOf s st.site 0 with
      | some i, some n => fenceRegion s i n lvl
      | _, _ => s
    .next (modTask s st.site st.task fun k => { k with fence := true })
  else .next s

/-- The completion counter that operand B names: −1 names none (R294). -/
def ccOf (b : Word) : Option (BitVec 3) := if b = 0xFFFFFFFF#32 then none else some (bits b 0 3)

/-- The CE's command port has a free entry (R294). -/
def cmdRoom (s : State) (site : Site) : Bool := decide ((getCe s site).cmdq.length < 4)

/-- Put an entry into the CE's command port (R294). -/
def pushCmd (s : State) (site : Site) (e : CmdEntry) : State :=
  let c := getCe s site
  setCe s site { c with cmdq := c.cmdq ++ [e] }

/-- CMD (R294): one command word from lanes 0 to 3 of A, with its target and its counter. -/
def execCmd (st : Stage) (s : State) : Host.Outcome State Fault Refusal :=
  if ctlActive s st && cmdRoom s st.site then
    .next (inject (pushCmd s st.site
      (.cmd st.task (bits (stageA s st) 0 128) (ctlC s st) (ccOf (ctlB s st)) (getTask s st.site st.task).hyp false))
      (ownerOf s st.site 0))
  else .next s

/-- FORK (R294, R48): one entry, whatever the number of engines that its mask starts. -/
def execFork (st : Stage) (s : State) : Host.Outcome State Fault Refusal :=
  if ctlActive s st && cmdRoom s st.site then
    .next (inject (pushCmd s st.site
      (.fork st.task (bits (ctlA s st) 0 16) (ccOf (ctlB s st)) (getTask s st.site st.task).hyp false)) (ownerOf s st.site 0))
  else .next s

/-- The end that RDV names (R293, R225). -/
def rdvEnd (st : Stage) : Nat := st.a.toNat - 24

/-- RDV (R296): (argument << 8) | code of the control token at the head of the end, which the bundle's DQ dequeues. -/
def execRdv (st : Stage) (s : State) : Host.Outcome State Fault Refusal :=
  match headAt s (endKey st.site (rdvEnd st)) with
  | some t =>
    if ctlActive s st && t.ctrl && !t.isMarkOrSwitch then .next (ctlResult s st fun _ => t.w0) else .next s
  | none => .next s

/-- A completion counter as a firing of this cycle sees it: completions that come in the same cycle are added after it (R295). -/
def ccView (s : State) (k : Task) (c : Nat) : Word := vget 0#32 k.cc c - (if k.ccAt = now s then vget 0#32 k.ccNew c else 0#32)

/-- WAITC (R295): with cc_c ≥ n, unsigned, cc_c falls by n, and p5 takes what is left. -/
def execWaitc (st : Stage) (s : State) : Host.Outcome State Fault Refusal :=
  let c := (bits (ctlA s st) 0 3).toNat
  let n := ctlB s st
  let v := ccView s (getTask s st.site st.task) c
  if ctlActive s st && decide (n.toNat ≤ v.toNat) then
    let s1 := ctlResult s st fun _ => v - n
    .next (modTask s1 st.site st.task fun k => { k with cc := vset k.cc c (vget 0#32 k.cc c - n) })
  else .next s

/-- GROUPINC (R301, R42, R397): the count rises, up to 2^32 − 1 with SAT, and p5 takes the count before. A CE of no node counts
nothing and returns 0. -/
def execGroupinc (st : Stage) (s : State) : Host.Outcome State Fault Refusal :=
  if ctlActive s st then
    let a := (ctlA s st).toNat
    match nodeOf s st.site 0 with
    | none => .next (ctlResult s st fun _ => 0#32)
    | some n =>
      let g := n.groups + a
      let s1 := ctlResult s st fun _ => BitVec.ofNat 32 n.groups
      let s2 := modNode s1 n.id fun n => { n with groups := Nat.min g 0xFFFFFFFF, bounds := n.bounds ++ (if n.bounds.getLast? = some n.groups then [] else [n.groups]) }
      .next (modTask s2 st.site st.task fun k =>
        { k with aflags := k.aflags ||| (if 0xFFFFFFFF < g then fSAT else fNone) })
  else .next s

/-- SETHYP (R299, R410): a live id becomes the task's hypothesis; any other sets BADHYP. -/
def execSethyp (st : Stage) (s : State) : Host.Outcome State Fault Refusal :=
  if ctlActive s st then
    let h : BitVec 6 := bits (ctlA s st) 0 6
    if hypLive s (ctxOf (nodeOf s st.site 0)) h then .next (modTask s st.site st.task fun k => { k with hyp := h })
    else .next (setEstat s (ownerOf s st.site 0) 4#32)
  else .next s

/-- A task without its trigger: it is not runnable until a BIND gives it one, nor is one that a TRAP has stopped when it resumes (R298). -/
def Task.unbound (k : Task) : Task :=
  let off (x : TaskSt) : TaskSt := match x with
    | .running => .asleep
    | x => x
  { k with trig := none, st := off k.st, resume := off k.resume }

/-- Bind an end to a task (R298): the end leaves any other task; the orphan entry is set. -/
def bindTask (s : State) (site : Site) (t e : BitVec 3) (orph : Option (BitVec 7)) : State :=
  let c := getCe s site
  let free (k : Task) : Task := if k.trig = some e then k.unbound else k
  let k := (getTask s site t)
  let tasks := (c.tasks.map free).set t.toNat { k with trig := some e, orph := orph } t.isLt
  setCe s site { c with tasks := tasks }

/-- BIND (R298, R398): a task without VALID or with a slot count of 0, or an end with USED = 0, sets BADBIND and binds nothing. -/
def execBind (st : Stage) (s : State) : Host.Outcome State Fault Refusal :=
  if ctlActive s st then
    let a := ctlA s st
    let t : BitVec 3 := bits a 0 3
    let e : BitVec 3 := bits a 3 3
    let d := taskDesc s st.site t.toNat
    if taskValid d && decide (taskSlots d ≠ 0) && bitAt (ceEnd s st.site e.toNat) 0 then
      .next (bindTask s st.site t e (if bitAt a 14 then some (bits a 7 7) else none))
    else .next (setEstat s (ownerOf s st.site 0) 2#32)
  else .next s

/-- UNBIND (R298): a task that has no trigger keeps as it is. -/
def execUnbind (st : Stage) (s : State) : Host.Outcome State Fault Refusal :=
  if ctlActive s st then
    let t : BitVec 3 := bits (ctlA s st) 0 3
    let k := getTask s st.site t
    if k.trig.isSome then .next (setTask s st.site t k.unbound) else .next s
  else .next s

/-- The control word that SIGNAL enqueues (R297). -/
def signalWord (k : Nat) (a : Word) : Word :=
  match k with
  | 1 => cEOT
  | 2 => cEOF
  | 3 => cEOS
  | _ => cRDV (bits a 0 24)

/-- SIGNAL (R297): the output that OUT names carries a control token. An EOS ends a logit kernel's row, once it has
reached the sampler (R166, R422). -/
def execSignal (st : Stage) (s : State) : Host.Outcome State Fault Refusal :=
  if ctlActive s st then
    let w := signalWord (ctlB s st).toNat (ctlA s st)
    let o := st.out.toNat - 1
    .next (modTask s st.site st.task fun k =>
      { k with
        fire := { k.fire with outs := vset k.fire.outs o { vget OutLatch.empty k.fire.outs o with sig := some w } }
        rowAt := if w = cEOS then none else k.rowAt
        rowOut := if w = cEOS ∧ !k.rowAborted then k.rowAt else k.rowOut
        rowAborted := k.rowAborted && decide (w ≠ cEOS)
        rowTaken := k.rowTaken && decide (w ≠ cEOS) })
  else .next s

/-- TIME (R304): one sample of the cycle counter, low half in even lanes and high half in odd ones (DEDUCED, log 137). -/
def execTime (st : Stage) (s : State) : Host.Outcome State Fault Refusal :=
  if ctlActive s st then
    .next (ctlResult s st fun l => if l % 2 = 0 then bits s.cycle 0 32 else bits s.cycle 32 32)
  else .next s

/-- The system register of a number, as a task reads it (R302) (DEDUCED, log 22; DESIGN CHOICE, log 189). -/
def sysReg (s : State) (site : Site) (t : BitVec 3) (num : Nat) : Word :=
  let k := getTask s site t
  let i := ownerOf s site 0
  if num = 0 then k.aflags.setWidth 32
  else if num = 1 then (match i with
    | some i => i.estat
    | none => 0#32)
  else if num = 2 then k.hyp.setWidth 32
  else if num = 3 then k.group
  else if num = 4 then site.setWidth 32
  else if num = 5 then (match i with
    | some i => i.slice.setWidth 32
    | none => 0#32)
  else if num = 6 then (match nodeOf s site 0 with
    | some n => n.tag
    | none => 0#32)
  else if 8 ≤ num ∧ num < 16 then ccView s k (num - 8)
  else if 0x40 ≤ num ∧ num < 0x80 ∧ isCorner site then handlerRead s (siteDie site) num
  else 0#32

/-- RDSYS (R302). -/
def execRdsys (st : Stage) (s : State) : Host.Outcome State Fault Refusal :=
  if ctlActive s st then .next (ctlResult s st fun _ => sysReg s st.site st.task (ctlA s st).toNat) else .next s

/-- WRSYS (R302, R374): a write to a handler register of the corner; every other number ignores it. -/
def execWrsys (st : Stage) (s : State) : Host.Outcome State Fault Refusal :=
  if ctlActive s st && isCorner st.site then
    .next (handlerWrite s (siteDie st.site) (ctlA s st).toNat (ctlB s st))
  else .next s

/-- BRK (R304, R392): with a debugger attached to the region, the CE halts after its firing. -/
def execBrk (st : Stage) (s : State) : Host.Outcome State Fault Refusal :=
  match ownerOf s st.site 0 with
  | some i =>
    if ctlActive s st && decide (s.hub.dbg = some i.id) then .next (setCe s st.site { getCe s st.site with halted := true })
    else .next s
  | none => .next s

end Sys2Proof.Machine
end

