-- ==== Sys2Proof/Machine/CeFloat.lean ====
section
/-! DEFINITION. The CE operations that round, that read or write narrow blocks, and that let one lane see another (R266 to
R287). -/

namespace Sys2Proof.Machine

/-- FADD (R267). -/
def execFadd (st : Stage) (s : State) : Host.Outcome State Fault Refusal :=
  runLane st (fun a b _ => fpRes (fadd (bits st.mod 0 2) a b)) s

/-- FSUB (R267). -/
def execFsub (st : Stage) (s : State) : Host.Outcome State Fault Refusal :=
  runLane st (fun a b _ => fpRes (fsub (bits st.mod 0 2) a b)) s

/-- FMUL (R267). -/
def execFmul (st : Stage) (s : State) : Host.Outcome State Fault Refusal :=
  runLane st (fun a b _ => fpRes (fmul (bits st.mod 0 2) a b)) s

/-- FMA (R267). -/
def execFma (st : Stage) (s : State) : Host.Outcome State Fault Refusal :=
  runLane st (fun a b c => fpRes (ffma (bits st.mod 0 2) a b c)) s

/-- FMS (R267). -/
def execFms (st : Stage) (s : State) : Host.Outcome State Fault Refusal :=
  runLane st (fun a b c => fpRes (ffms (bits st.mod 0 2) a b c)) s

/-- FNMA (R267). -/
def execFnma (st : Stage) (s : State) : Host.Outcome State Fault Refusal :=
  runLane st (fun a b c => fpRes (ffnma (bits st.mod 0 2) a b c)) s

/-- FMIN (R268). -/
def execFmin (st : Stage) (s : State) : Host.Outcome State Fault Refusal :=
  runLane st (fun a b _ => fpRes (fminmax false a b)) s

/-- FMAX (R268). -/
def execFmax (st : Stage) (s : State) : Host.Outcome State Fault Refusal :=
  runLane st (fun a b _ => fpRes (fminmax true a b)) s

/-- FABS (R269). -/
def execFabs (st : Stage) (s : State) : Host.Outcome State Fault Refusal :=
  runLane st (fun a _ _ => fpRes (a &&& 0x7FFFFFFF#32, fNone)) s

/-- FNEG (R269). -/
def execFneg (st : Stage) (s : State) : Host.Outcome State Fault Refusal :=
  runLane st (fun a _ _ => fpRes (a ^^^ 0x80000000#32, fNone)) s

/-- FCPS (R269). -/
def execFcps (st : Stage) (s : State) : Host.Outcome State Fault Refusal :=
  runLane st (fun a b _ => fpRes ((a &&& 0x7FFFFFFF#32) ||| (b &&& 0x80000000#32), fNone)) s

/-- FCEQ (R270). -/
def execFceq (st : Stage) (s : State) : Host.Outcome State Fault Refusal :=
  runLane st (fun a b _ => let r := fcompare 0 a b; ⟨if r.1 then 1#32 else 0#32, r.1, r.2⟩) s

/-- FCLT (R270). -/
def execFclt (st : Stage) (s : State) : Host.Outcome State Fault Refusal :=
  runLane st (fun a b _ => let r := fcompare 1 a b; ⟨if r.1 then 1#32 else 0#32, r.1, r.2⟩) s

/-- FCLE (R270). -/
def execFcle (st : Stage) (s : State) : Host.Outcome State Fault Refusal :=
  runLane st (fun a b _ => let r := fcompare 2 a b; ⟨if r.1 then 1#32 else 0#32, r.1, r.2⟩) s

/-- FCUN (R270). -/
def execFcun (st : Stage) (s : State) : Host.Outcome State Fault Refusal :=
  runLane st (fun a b _ => let r := fcompare 3 a b; ⟨if r.1 then 1#32 else 0#32, r.1, r.2⟩) s

/-- FCLASS (R270): it always sets f_k. -/
def execFclass (st : Stage) (s : State) : Host.Outcome State Fault Refusal :=
  runLane st (fun a _ _ => ⟨fclass a, true, fNone⟩) s

/-- FSCALE (R267). -/
def execFscale (st : Stage) (s : State) : Host.Outcome State Fault Refusal :=
  runLane st (fun a b _ => fpRes (fscale (bits st.mod 0 2) a b)) s

/-- FRCP (R271). -/
def execFrcp (st : Stage) (s : State) : Host.Outcome State Fault Refusal :=
  runLane st (fun a _ _ => fpRes (frcp a)) s

/-- FRSQ (R271). -/
def execFrsq (st : Stage) (s : State) : Host.Outcome State Fault Refusal :=
  runLane st (fun a _ _ => fpRes (frsq a)) s

/-- FEXP2 (R271). -/
def execFexp2 (st : Stage) (s : State) : Host.Outcome State Fault Refusal :=
  runLane st (fun a _ _ => fpRes (fexp2 a)) s

/-- FLOG2 (R271). -/
def execFlog2 (st : Stage) (s : State) : Host.Outcome State Fault Refusal :=
  runLane st (fun a _ _ => fpRes (flog2 a)) s

/-- FRND (R272). -/
def execFrnd (st : Stage) (s : State) : Host.Outcome State Fault Refusal :=
  runLane st (fun a _ _ => fpRes (frnd (bits st.mod 0 2) a)) s

/-- F2I (R272). -/
def execF2i (st : Stage) (s : State) : Host.Outcome State Fault Refusal :=
  runLane st (fun a _ _ => let r := f2int true (bits st.mod 0 2) a; ⟨r.1, decide (r.1 ≠ 0#32), r.2⟩) s

/-- F2U (R272). -/
def execF2u (st : Stage) (s : State) : Host.Outcome State Fault Refusal :=
  runLane st (fun a _ _ => let r := f2int false (bits st.mod 0 2) a; ⟨r.1, decide (r.1 ≠ 0#32), r.2⟩) s

/-- I2F (R272): its result is no integer, so its flag follows R266. -/
def execI2f (st : Stage) (s : State) : Host.Outcome State Fault Refusal :=
  runLane st (fun a _ _ => fpRes (int2f (bits st.mod 0 2) a.toInt)) s

/-- U2F (R272). -/
def execU2f (st : Stage) (s : State) : Host.Outcome State Fault Refusal :=
  runLane st (fun a _ _ => fpRes (int2f (bits st.mod 0 2) a.toNat)) s

/-- HADD2 (R273). -/
def execHadd2 (st : Stage) (s : State) : Host.Outcome State Fault Refusal :=
  runLane st (fun a b _ => hadd2 st.mod a b) s

/-- HMUL2 (R273). -/
def execHmul2 (st : Stage) (s : State) : Host.Outcome State Fault Refusal :=
  runLane st (fun a b _ => hmul2 st.mod a b) s

/-- HFMA2 (R273). -/
def execHfma2 (st : Stage) (s : State) : Host.Outcome State Fault Refusal :=
  runLane st (fun a b c => hfma2 st.mod a b c) s

/-- HMIN2 (R273). -/
def execHmin2 (st : Stage) (s : State) : Host.Outcome State Fault Refusal :=
  runLane st (fun a b _ => hminmax2 false st.mod a b) s

/-- HMAX2 (R273). -/
def execHmax2 (st : Stage) (s : State) : Host.Outcome State Fault Refusal :=
  runLane st (fun a b _ => hminmax2 true st.mod a b) s

/-- CVTH (R274). -/
def execCvth (st : Stage) (s : State) : Host.Outcome State Fault Refusal :=
  runLane st (fun a b _ => cvth st.mod a b) s

/-- CVTLO (R274). -/
def execCvtlo (st : Stage) (s : State) : Host.Outcome State Fault Refusal :=
  runLane st (fun a _ _ => cvtWide 0 st.mod a) s

/-- CVTHI (R274). -/
def execCvthi (st : Stage) (s : State) : Host.Outcome State Fault Refusal :=
  runLane st (fun a _ _ => cvtWide 1 st.mod a) s

/-- NQ8 (R276). -/
def execNq8 (st : Stage) (s : State) : Host.Outcome State Fault Refusal :=
  runGen st (fun g a b c => nqOp 8 st.mod (ceFmts s st.site) g a b c) s

/-- NQ4 (R276). -/
def execNq4 (st : Stage) (s : State) : Host.Outcome State Fault Refusal :=
  runGen st (fun g a b c => nqOp 4 st.mod (ceFmts s st.site) g a b c) s

/-- NDQ8 (R277). -/
def execNdq8 (st : Stage) (s : State) : Host.Outcome State Fault Refusal :=
  runLane st (fun a b c => ndqOp 8 (ceFmts s st.site) a b c) s

/-- NDQ4 (R277). -/
def execNdq4 (st : Stage) (s : State) : Host.Outcome State Fault Refusal :=
  runLane st (fun a b c => ndqOp 4 (ceFmts s st.site) a b c) s

/-- NDOT4 (R278). -/
def execNdot4 (st : Stage) (s : State) : Host.Outcome State Fault Refusal :=
  runLane st (fun a b c => ndotOp 8 st.mod (ceFmts s st.site) (dotDesc s st.site st.a 14) (dotDesc s st.site st.b 15) a b c) s

/-- NDOT8 (R278). -/
def execNdot8 (st : Stage) (s : State) : Host.Outcome State Fault Refusal :=
  runLane st (fun a b c => ndotOp 4 st.mod (ceFmts s st.site) (dotDesc s st.site st.a 14) (dotDesc s st.site st.b 15) a b c) s

/-- NSCL (R279). -/
def execNscl (st : Stage) (s : State) : Host.Outcome State Fault Refusal :=
  runLane st (fun a b _ => nsclOp (ceFmts s st.site) a b) s

/-- NAPS (R279). -/
def execNaps (st : Stage) (s : State) : Host.Outcome State Fault Refusal :=
  runLane st (fun a b _ => napsOp st.mod (ceFmts s st.site) a b) s

/-- NBLK (R280): mask and descriptor of the head token of the end that A selects. -/
def execNblk (st : Stage) (s : State) : Host.Outcome State Fault Refusal :=
  let h := headView s st.site (st.a.toNat - 24)
  runLane st (fun _ _ _ => fpRes (h.mask ++ h.desc, fNone)) s

/-- NSETD (R280): res = A; the descriptor of the token on the output that OUT names becomes A[15:0] of lane 0, whether or not
lane 0 is active. OUT writes no payload lanes. -/
def execNsetd (st : Stage) (s : State) : Host.Outcome State Fault Refusal :=
  let a := stageA s st
  let k := getTask s st.site st.task
  let r := laneStage (stageAct s st) a (stageB s st) (stageC s st) k.gen (fun a _ _ => fpRes (a, fNone))
  let k := k.afterStage st.slot 0#3 r
  let o := st.out.toNat - 1
  .next (setTask s st.site st.task
    { k with fire := { k.fire with outs := vset k.fire.outs o { vget OutLatch.empty k.fire.outs o with desc := bits (lane a 0) 0 16 } } })

/-- SHUF (R282). -/
def execShuf (st : Stage) (s : State) : Host.Outcome State Fault Refusal :=
  runCross st (fun _ a b _ => xShuf a b) s

/-- LROT (R282). -/
def execLrot (st : Stage) (s : State) : Host.Outcome State Fault Refusal :=
  runCross st (fun _ a b _ => xLrot a b) s

/-- BCAST (R282). -/
def execBcast (st : Stage) (s : State) : Host.Outcome State Fault Refusal :=
  runCross st (fun _ a b _ => xBcast a b) s

/-- XBF (R283). -/
def execXbf (st : Stage) (s : State) : Host.Outcome State Fault Refusal :=
  runCross st (fun act a b _ => xXbf st.mod act a b) s

/-- RSUM (R284). -/
def execRsum (st : Stage) (s : State) : Host.Outcome State Fault Refusal :=
  runCross st (fun act a _ _ => xRsum act a) s

/-- RMAX (R284). -/
def execRmax (st : Stage) (s : State) : Host.Outcome State Fault Refusal :=
  runCross st (fun act a _ _ => xMinmax true act a) s

/-- RMIN (R284). -/
def execRmin (st : Stage) (s : State) : Host.Outcome State Fault Refusal :=
  runCross st (fun act a _ _ => xMinmax false act a) s

/-- RSUMI (R284). -/
def execRsumi (st : Stage) (s : State) : Host.Outcome State Fault Refusal :=
  runCross st (fun act a _ _ => xRsumi act a) s

/-- SCANI (R285). -/
def execScani (st : Stage) (s : State) : Host.Outcome State Fault Refusal :=
  runCross st (fun act a _ _ => xScani act a) s

/-- FSCAN (R285). -/
def execFscan (st : Stage) (s : State) : Host.Outcome State Fault Refusal :=
  runCross st (fun act a _ _ => xFscan act a) s

/-- LCOMP (R286): the active lanes packed into the lowest, all sixteen lanes written. -/
def execLcomp (st : Stage) (s : State) : Host.Outcome State Fault Refusal :=
  .next (putStage s st (lcompStage (getTask s st.site st.task).gen (xLcomp (stageAct s st) (stageA s st))))

/-- PACKB (R287). -/
def execPackb (st : Stage) (s : State) : Host.Outcome State Fault Refusal :=
  runCross st (fun _ a b c => xPackb a b c) s

end Sys2Proof.Machine
end

