-- ==== Sys2Proof/Machine/CeInt.lean ====
section
/-! DEFINITION. The CE operations that do not round: moves, integer arithmetic, logic and bits, compares (R254 to R264). -/

namespace Sys2Proof.Machine

/-- MOD[2], the saturating form (R253). -/
def Stage.sat (st : Stage) : Bool := bitAt st.mod 2

/-- NOP (R254): p_k, f_k, the outputs and the accumulators are untouched in every lane. -/
def execNop (st : Stage) (s : State) : Host.Outcome State Fault Refusal :=
  let _ := st; .next s

/-- MOV (R254). -/
def execMov (st : Stage) (s : State) : Host.Outcome State Fault Refusal :=
  runLane st (fun a _ _ => nz a) s

/-- MOVI (R254): A, B and C hold the immediate and are no selectors. -/
def execMovi (st : Stage) (s : State) : Host.Outcome State Fault Refusal :=
  runLane st (fun _ _ _ => nz (moviImm st.a st.b st.c)) s

/-- SEL (R254). -/
def execSel (st : Stage) (s : State) : Host.Outcome State Fault Refusal :=
  runLane st (fun a b c => nz (if c ≠ 0#32 then a else b)) s

/-- ADD (R255). -/
def execAdd (st : Stage) (s : State) : Host.Outcome State Fault Refusal :=
  runLane st (fun a b _ => nz (a + b)) s

/-- SUB (R255). -/
def execSub (st : Stage) (s : State) : Host.Outcome State Fault Refusal :=
  runLane st (fun a b _ => nz (a - b)) s

/-- NEG (R255). -/
def execNeg (st : Stage) (s : State) : Host.Outcome State Fault Refusal :=
  runLane st (fun a _ _ => wrapOrSatS (Stage.sat st) (-a.toInt)) s

/-- ABS (R255). -/
def execAbs (st : Stage) (s : State) : Host.Outcome State Fault Refusal :=
  runLane st (fun a _ _ => wrapOrSatS (Stage.sat st) a.toInt.natAbs) s

/-- MIN (R255). -/
def execMin (st : Stage) (s : State) : Host.Outcome State Fault Refusal :=
  runLane st (fun a b _ => nz (if a.toInt ≤ b.toInt then a else b)) s

/-- MAX (R255). -/
def execMax (st : Stage) (s : State) : Host.Outcome State Fault Refusal :=
  runLane st (fun a b _ => nz (if a.toInt ≤ b.toInt then b else a)) s

/-- MINU (R255). -/
def execMinu (st : Stage) (s : State) : Host.Outcome State Fault Refusal :=
  runLane st (fun a b _ => nz (if a.toNat ≤ b.toNat then a else b)) s

/-- MAXU (R255). -/
def execMaxu (st : Stage) (s : State) : Host.Outcome State Fault Refusal :=
  runLane st (fun a b _ => nz (if a.toNat ≤ b.toNat then b else a)) s

/-- MUL (R255). -/
def execMul (st : Stage) (s : State) : Host.Outcome State Fault Refusal :=
  runLane st (fun a b _ => wrapOrSatS (Stage.sat st) (a.toInt * b.toInt)) s

/-- MULH (R255). -/
def execMulh (st : Stage) (s : State) : Host.Outcome State Fault Refusal :=
  runLane st (fun a b _ => nz (mulhS a b)) s

/-- MULHU (R255). -/
def execMulhu (st : Stage) (s : State) : Host.Outcome State Fault Refusal :=
  runLane st (fun a b _ => nz (mulhU a b)) s

/-- MAD (R255). -/
def execMad (st : Stage) (s : State) : Host.Outcome State Fault Refusal :=
  runLane st (fun a b c => wrapOrSatS (Stage.sat st) (a.toInt * b.toInt + c.toInt)) s

/-- ADDS (R256). -/
def execAdds (st : Stage) (s : State) : Host.Outcome State Fault Refusal :=
  runLane st (fun a b _ => wrapOrSatS true (a.toInt + b.toInt)) s

/-- SUBS (R256). -/
def execSubs (st : Stage) (s : State) : Host.Outcome State Fault Refusal :=
  runLane st (fun a b _ => wrapOrSatS true (a.toInt - b.toInt)) s

/-- ADDUS (R256). -/
def execAddus (st : Stage) (s : State) : Host.Outcome State Fault Refusal :=
  runLane st (fun a b _ => wrapOrSatU true ((a.toNat : Int) + b.toNat)) s

/-- SUBUS (R256). -/
def execSubus (st : Stage) (s : State) : Host.Outcome State Fault Refusal :=
  runLane st (fun a b _ => wrapOrSatU true ((a.toNat : Int) - b.toNat)) s

/-- LEA (R257). -/
def execLea (st : Stage) (s : State) : Host.Outcome State Fault Refusal :=
  runLane st (fun a b c => leaOp a b c) s

/-- ADD2 (R258). -/
def execAdd2 (st : Stage) (s : State) : Host.Outcome State Fault Refusal :=
  runLane st (fun a b _ => packedOp 16 (Stage.sat st) (fun x y => x + y) a b) s

/-- SUB2 (R258). -/
def execSub2 (st : Stage) (s : State) : Host.Outcome State Fault Refusal :=
  runLane st (fun a b _ => packedOp 16 (Stage.sat st) (fun x y => x - y) a b) s

/-- ADD4 (R258). -/
def execAdd4 (st : Stage) (s : State) : Host.Outcome State Fault Refusal :=
  runLane st (fun a b _ => packedOp 8 (Stage.sat st) (fun x y => x + y) a b) s

/-- SUB4 (R258). -/
def execSub4 (st : Stage) (s : State) : Host.Outcome State Fault Refusal :=
  runLane st (fun a b _ => packedOp 8 (Stage.sat st) (fun x y => x - y) a b) s

/-- DOT4 (R259). -/
def execDot4 (st : Stage) (s : State) : Host.Outcome State Fault Refusal :=
  runLane st (fun a b c => wrapOrSatS (Stage.sat st) (dotS 8 a b 4 + c.toInt)) s

/-- DOT4U (R259). -/
def execDot4u (st : Stage) (s : State) : Host.Outcome State Fault Refusal :=
  runLane st (fun a b c => wrapOrSatU (Stage.sat st) (dotU 8 a b 4 + c.toNat)) s

/-- DOT8 (R259). -/
def execDot8 (st : Stage) (s : State) : Host.Outcome State Fault Refusal :=
  runLane st (fun a b c => wrapOrSatS (Stage.sat st) (dotS 4 a b 8 + c.toInt)) s

/-- AND (R260). -/
def execAnd (st : Stage) (s : State) : Host.Outcome State Fault Refusal :=
  runLane st (fun a b _ => nz (a &&& b)) s

/-- OR (R260). -/
def execOr (st : Stage) (s : State) : Host.Outcome State Fault Refusal :=
  runLane st (fun a b _ => nz (a ||| b)) s

/-- XOR (R260). -/
def execXor (st : Stage) (s : State) : Host.Outcome State Fault Refusal :=
  runLane st (fun a b _ => nz (a ^^^ b)) s

/-- ANDN (R260). -/
def execAndn (st : Stage) (s : State) : Host.Outcome State Fault Refusal :=
  runLane st (fun a b _ => nz (a &&& ~~~b)) s

/-- SHL (R260). -/
def execShl (st : Stage) (s : State) : Host.Outcome State Fault Refusal :=
  runLane st (fun a b _ => nz (shlOp a b)) s

/-- SHR (R260). -/
def execShr (st : Stage) (s : State) : Host.Outcome State Fault Refusal :=
  runLane st (fun a b _ => nz (shrOp a b)) s

/-- SAR (R260). -/
def execSar (st : Stage) (s : State) : Host.Outcome State Fault Refusal :=
  runLane st (fun a b _ => nz (sarOp a b)) s

/-- ROL (R260). -/
def execRol (st : Stage) (s : State) : Host.Outcome State Fault Refusal :=
  runLane st (fun a b _ => nz (rolOp a b)) s

/-- CLZ (R261). -/
def execClz (st : Stage) (s : State) : Host.Outcome State Fault Refusal :=
  runLane st (fun a _ _ => nz (BitVec.ofNat 32 (clzFrom a 32))) s

/-- POPC (R261). -/
def execPopc (st : Stage) (s : State) : Host.Outcome State Fault Refusal :=
  runLane st (fun a _ _ => nz (BitVec.ofNat 32 (popFrom a 32))) s

/-- BREV (R261). -/
def execBrev (st : Stage) (s : State) : Host.Outcome State Fault Refusal :=
  runLane st (fun a _ _ => nz (BitVec.ofNat 32 (brevNat a 32))) s

/-- BFX (R262). -/
def execBfx (st : Stage) (s : State) : Host.Outcome State Fault Refusal :=
  runLane st (fun a b _ => nz (bfxOp a b)) s

/-- BFXS (R262). -/
def execBfxs (st : Stage) (s : State) : Host.Outcome State Fault Refusal :=
  runLane st (fun a b _ => nz (bfxsOp a b)) s

/-- BFI (R262). -/
def execBfi (st : Stage) (s : State) : Host.Outcome State Fault Refusal :=
  runLane st (fun a b c => nz (bfiOp a b c)) s

/-- PERMB (R263). -/
def execPermb (st : Stage) (s : State) : Host.Outcome State Fault Refusal :=
  runLane st (fun a b c => nz (permbOp a b c)) s

/-- BSWAP (R261). -/
def execBswap (st : Stage) (s : State) : Host.Outcome State Fault Refusal :=
  runLane st (fun a _ _ => nz (bswapOp a)) s

/-- CEQ (R264). -/
def execCeq (st : Stage) (s : State) : Host.Outcome State Fault Refusal :=
  runLane st (fun a b _ => relRes (decide (a = b))) s

/-- CNE (R264). -/
def execCne (st : Stage) (s : State) : Host.Outcome State Fault Refusal :=
  runLane st (fun a b _ => relRes (decide (a ≠ b))) s

/-- CLT (R264). -/
def execClt (st : Stage) (s : State) : Host.Outcome State Fault Refusal :=
  runLane st (fun a b _ => relRes (decide (a.toInt < b.toInt))) s

/-- CLE (R264). -/
def execCle (st : Stage) (s : State) : Host.Outcome State Fault Refusal :=
  runLane st (fun a b _ => relRes (decide (a.toInt ≤ b.toInt))) s

/-- CLTU (R264). -/
def execCltu (st : Stage) (s : State) : Host.Outcome State Fault Refusal :=
  runLane st (fun a b _ => relRes (decide (a.toNat < b.toNat))) s

/-- CLEU (R264). -/
def execCleu (st : Stage) (s : State) : Host.Outcome State Fault Refusal :=
  runLane st (fun a b _ => relRes (decide (a.toNat ≤ b.toNat))) s

/-- CTST (R264). -/
def execCtst (st : Stage) (s : State) : Host.Outcome State Fault Refusal :=
  runLane st (fun a b _ => relRes (decide (a &&& b ≠ 0#32))) s

end Sys2Proof.Machine
end

