-- ==== Sys2Proof/Machine/Bundle.lean ====
section
/-! DEFINITION. The firing of a bundle (R45, R46, R61, R62, R74, R288 to R292), activations (R45, R63), the end of a FENCE (R105,
R300), the diversion of an orphan (R164, R365) and the budget of a logit kernel (R166, R422). -/

namespace Sys2Proof.Machine

/-- The effect of one stage of a firing; anything but a stage has none here. -/
def stageExec (i : Instr) (s : State) : Host.Outcome State Fault Refusal :=
  match i with
  | .nop st => execNop st s
  | .mov st => execMov st s
  | .movi st => execMovi st s
  | .sel st => execSel st s
  | .add st => execAdd st s
  | .sub st => execSub st s
  | .neg st => execNeg st s
  | .abs st => execAbs st s
  | .min st => execMin st s
  | .max st => execMax st s
  | .minu st => execMinu st s
  | .maxu st => execMaxu st s
  | .mul st => execMul st s
  | .mulh st => execMulh st s
  | .mulhu st => execMulhu st s
  | .mad st => execMad st s
  | .adds st => execAdds st s
  | .subs st => execSubs st s
  | .addus st => execAddus st s
  | .subus st => execSubus st s
  | .lea st => execLea st s
  | .add2 st => execAdd2 st s
  | .sub2 st => execSub2 st s
  | .add4 st => execAdd4 st s
  | .sub4 st => execSub4 st s
  | .dot4 st => execDot4 st s
  | .dot4u st => execDot4u st s
  | .dot8 st => execDot8 st s
  | .and st => execAnd st s
  | .or st => execOr st s
  | .xor st => execXor st s
  | .andn st => execAndn st s
  | .shl st => execShl st s
  | .shr st => execShr st s
  | .sar st => execSar st s
  | .rol st => execRol st s
  | .clz st => execClz st s
  | .popc st => execPopc st s
  | .brev st => execBrev st s
  | .bfx st => execBfx st s
  | .bfxs st => execBfxs st s
  | .bfi st => execBfi st s
  | .permb st => execPermb st s
  | .bswap st => execBswap st s
  | .ceq st => execCeq st s
  | .cne st => execCne st s
  | .clt st => execClt st s
  | .cle st => execCle st s
  | .cltu st => execCltu st s
  | .cleu st => execCleu st s
  | .ctst st => execCtst st s
  | .fadd st => execFadd st s
  | .fsub st => execFsub st s
  | .fmul st => execFmul st s
  | .fma st => execFma st s
  | .fms st => execFms st s
  | .fnma st => execFnma st s
  | .fmin st => execFmin st s
  | .fmax st => execFmax st s
  | .fabs st => execFabs st s
  | .fneg st => execFneg st s
  | .fcps st => execFcps st s
  | .fceq st => execFceq st s
  | .fclt st => execFclt st s
  | .fcle st => execFcle st s
  | .fcun st => execFcun st s
  | .fclass st => execFclass st s
  | .fscale st => execFscale st s
  | .frcp st => execFrcp st s
  | .frsq st => execFrsq st s
  | .fexp2 st => execFexp2 st s
  | .flog2 st => execFlog2 st s
  | .frnd st => execFrnd st s
  | .f2i st => execF2i st s
  | .f2u st => execF2u st s
  | .i2f st => execI2f st s
  | .u2f st => execU2f st s
  | .hadd2 st => execHadd2 st s
  | .hmul2 st => execHmul2 st s
  | .hfma2 st => execHfma2 st s
  | .hmin2 st => execHmin2 st s
  | .hmax2 st => execHmax2 st s
  | .cvth st => execCvth st s
  | .cvtlo st => execCvtlo st s
  | .cvthi st => execCvthi st s
  | .nq8 st => execNq8 st s
  | .nq4 st => execNq4 st s
  | .ndq8 st => execNdq8 st s
  | .ndq4 st => execNdq4 st s
  | .ndot4 st => execNdot4 st s
  | .ndot8 st => execNdot8 st s
  | .nscl st => execNscl st s
  | .naps st => execNaps st s
  | .nblk st => execNblk st s
  | .nsetd st => execNsetd st s
  | .shuf st => execShuf st s
  | .lrot st => execLrot st s
  | .bcast st => execBcast st s
  | .xbf st => execXbf st s
  | .rsum st => execRsum st s
  | .rmax st => execRmax st s
  | .rmin st => execRmin st s
  | .rsumi st => execRsumi st s
  | .scani st => execScani st s
  | .fscan st => execFscan st s
  | .lcomp st => execLcomp st s
  | .packb st => execPackb st s
  | .trap st => execTrap st s
  | .fence st => execFence st s
  | .cmd st => execCmd st s
  | .fork st => execFork st s
  | .rdv st => execRdv st s
  | .waitc st => execWaitc st s
  | .groupinc st => execGroupinc st s
  | .sethyp st => execSethyp st s
  | .bind st => execBind st s
  | .unbind st => execUnbind st s
  | .signal st => execSignal st s
  | .time st => execTime st s
  | .rdsys st => execRdsys st s
  | .wrsys st => execWrsys st s
  | .brk st => execBrk st s
  | _ => .next s

/-- The state after stage slot `k` of a bundle: a slot that holds no well-formed stage does nothing (R220 keeps such a frame
out). -/
def runSlot (s : State) (site : Site) (t : BitVec 3) (b : BitVec 256) (k : Nat) : State :=
  match decodeSlot site t (BitVec.ofNat 3 k) (bundleSlot b k) with
  | .ok i =>
    if wf i then
      match stageExec i s with
      | .next s' => s'
      | _ => s
    else s
  | .error _ => s

/-- The state after the stage slots 0 to n − 1 of a bundle. -/
def runSlots (s : State) (site : Site) (t : BitVec 3) (b : BitVec 256) : Nat → State
  | 0 => s
  | n + 1 => runSlot (runSlots s site t b n) site t b n

/-! ## Bundle fields (R222, R223) -/

/-- NAS -/
def bNas (b : BitVec 256) : Nat := (bits b 253 3).toNat

/-- TA -/
def bTa (b : BitVec 256) : BitVec 7 := bits b 246 7

/-- TB -/
def bTb (b : BitVec 256) : BitVec 7 := bits b 239 7

/-- DQ: bit e is input end e (R222, R226). -/
def bDq (b : BitVec 256) : BitVec 8 := bits b 231 8

/-- EQ: bits 0 to 3 are vo0–vo3, bit 4 is so0. -/
def bEq (b : BitVec 256) : BitVec 8 := bits b 223 8

/-- LC -/
def bLc (b : BitVec 256) : BitVec 4 := bits b 219 4

/-- FS -/
def bFs (b : BitVec 256) : Nat := (bits b 216 3).toNat

/-- The opcode in s5. -/
def bOpc5 (b : BitVec 256) : BitVec 8 := bits b 28 8

/-! ## Firing conditions (R61, R288, R289) -/

/-- The head of an input end as a task sees it: MARK and SWITCH are the element's own (R52, R173) (DEDUCED, log 23). -/
def ceHead (s : State) (site : Site) (e : Nat) : Option Token :=
  match headAt s (endKey site e) with
  | some t => if t.isMarkOrSwitch then none else some t
  | none => none

/-- Every end of a mask below `n` satisfies a test. -/
def allBits (m : BitVec 8) (f : Nat → Bool) : Nat → Bool
  | 0 => true
  | n + 1 => allBits m f n && (!bitAt m n || f n)

/-- The end named in DQ shows a head that the bundle may dequeue (R61, R289): control only where NAS or an RDV consumes it. -/
def dqReady (s : State) (site : Site) (b : BitVec 256) (rdv : Option Nat) (e : Nat) : Bool :=
  match ceHead s site e with
  | none => false
  | some t => !t.ctrl || decide (rdv = some e) || (decide (e = 0) && (decide (bNas b = 4) || decide (bNas b = 6)))

/-- The output named in EQ shows a free entry in the first skid buffer of its channel (R61). -/
def eqReady (s : State) (site : Site) (o : Nat) : Bool := outRoom s site 8 (bits (ceOut s site o) 4 4).toNat

/-- The condition that a control operation in s5 adds (R288), on the state after stages s0 to s4: none when its lane 0 is not
active (R293). -/
def slot5Ready (s : State) (site : Site) (t : BitVec 3) (b : BitVec 256) : Bool :=
  let s4 := runSlots s site t b 5
  match decodeSlot site t 5#3 (bundleSlot b 5) with
  | .ok (.waitc st) =>
    !ctlActive s4 st ||
      decide ((ctlB s4 st).toNat ≤ (ccView s4 (getTask s4 site t) (bits (ctlA s4 st) 0 3).toNat).toNat)
  | .ok (.rdv st) => !ctlActive s4 st || (match ceHead s site (rdvEnd st) with
      | some x => x.ctrl
      | none => false)
  | .ok (.cmd st) => !ctlActive s4 st || cmdRoom s site
  | .ok (.fork st) => !ctlActive s4 st || cmdRoom s site
  | _ => true

/-- The end that an active RDV in s5 names. -/
def rdvOf (s : State) (site : Site) (t : BitVec 3) (b : BitVec 256) : Option Nat :=
  match decodeSlot site t 5#3 (bundleSlot b 5) with
  | .ok (.rdv st) => if ctlActive (runSlots s site t b 5) st then some (rdvEnd st) else none
  | _ => none

/-- What heads vi0 belongs to a row that an aborted logit kernel does not see (R422). -/
def rowBarred (k : Task) : Bool := k.rowDrop || (k.rowAborted && k.rowTaken)

/-- The bundle looks at vi0 or takes from it. -/
def usesVi0 (b : BitVec 256) : Bool := bitAt (bDq b) 0 || decide (bNas b = 4) || decide (bNas b = 6)

/-- The task's current bundle can fire (R45, R61, R288, R289, R300, R422). -/
def bundleReady (s : State) (site : Site) (t : BitVec 3) : Bool :=
  let k := getTask s site t
  let d := taskDesc s site t.toNat
  let b := bundleAt s site k.pc
  let rdv := rdvOf s site t b
  taskValid d && decide (taskSlots d ≠ 0) && decide (k.st = .running) && !k.fence &&
  !(rowBarred k && usesVi0 b) &&
  allBits (bDq b) (dqReady s site b rdv) 8 &&
  (!(decide (bNas b = 4) || decide (bNas b = 6)) || (ceHead s site 0).isSome) &&
  allBits (bEq b) (eqReady s site) 5 &&
  slot5Ready s site t b

/-- The task that fires next: round-robin from the one after the last (R46). -/
def nextTask (s : State) (site : Site) : Option (BitVec 3) :=
  let l := (getCe s site).last
  ([1, 2, 3, 4, 5, 6, 7, 8].map fun n => l + BitVec.ofNat 3 n).find? fun t => bundleReady s site t

/-- The CE may fire in this cycle (R46, R173, R392, R394). -/
def ceMayFire (s : State) (site : Site) : Bool :=
  let c := getCe s site
  !c.halted && !c.saved && !dieStops s site && decide (c.firedNext ≤ now s) && regionRuns (ownerOf s site 0)

/-! ## The parts of a firing -/

/-- Open the firing: nothing is on the outputs yet, and the accumulators start from what they hold (R251). -/
def openFiring (k : Task) : Task := { k with fire := ⟨Vector.replicate 5 OutLatch.empty, k.a, false⟩ }

/-- Dequeue an end of a CE; an end with FRD owes a FREED notice in the next cycle (R59). -/
def dequeueEnd (s : State) (site : Site) (e : Nat) : State :=
  let s := popBuf s (endKey site e)
  if bitAt (ceEnd s site e) 1 then
    let c := getCe s site
    setCe s site { c with notices := vset c.notices e (vget [] c.notices e ++ [(now s + 1, 1)]) }
  else s

/-- Dequeue the ends of a mask, below `n`. -/
def dequeueMask (s : State) (site : Site) (m : BitVec 8) : Nat → State
  | 0 => s
  | n + 1 => let s := dequeueMask s site m n; if bitAt m n then dequeueEnd s site n else s

/-- A data token with PSN stands at an end of the mask, below `n` (R404). -/
def anyPoison (s : State) (site : Site) (m : BitVec 8) : Nat → Bool
  | 0 => false
  | n + 1 => anyPoison s site m n || (bitAt m n && (match ceHead s site n with
      | some t => t.psn && !t.ctrl
      | none => false))

/-- The token of output `o` (R64, R66, R251, R280, R290, R297). -/
def outToken (o : Nat) (l : OutLatch) (hyp : BitVec 6) (psn : Bool) : Token :=
  match l.sig with
  | some w => controlTok (decide (o < 4)) w hyp false
  | none =>
    if o < 4 then vectorTok l.pay l.mask l.desc hyp false psn else scalarTok (lane l.pay 0) hyp false psn

/-- Enqueue the outputs of a mask, below `n`. -/
def enqueueMask (s : State) (site : Site) (outs : Vector OutLatch 5) (m : BitVec 8) (hyp : BitVec 6) (psn : Bool) : Nat → State
  | 0 => s
  | n + 1 =>
    let s := enqueueMask s site outs m hyp psn n
    if bitAt m n then
      sendOut s site (ownerOf s site 0) 8 (bits (ceOut s site n) 4 4).toNat
        (outToken n (vget OutLatch.empty outs n) hyp psn)
    else s

/-- One loop counter's step (R291): the counter, and whether it wrapped. A bound of 0 stands for 2^32. -/
def counterStep (inc : Bool) (lc bound : Word) : Word × Bool :=
  if inc then (if lc + 1#32 = bound then (0#32, true) else (lc + 1#32, false)) else (lc, false)

/-- The counters after a firing, with the ones that wrapped (R291): one that its mask bit and the chain would both step stays. -/
def stepCounters (lc : Vector Word 4) (d : BitVec 256) (m : BitVec 4) : Vector Word 4 × BitVec 4 :=
  let bound (j : Nat) : Word := bits d (128 + 32 * j) 32
  let r0 := counterStep (bitAt m 0) lc[0] (bound 0)
  let r1 := counterStep (bitAt m 1 ^^ (r0.2 && bitAt d 33)) lc[1] (bound 1)
  let r2 := counterStep (bitAt m 2 ^^ (r1.2 && bitAt d 34)) lc[2] (bound 2)
  let r3 := counterStep (bitAt m 3 ^^ (r2.2 && bitAt d 35)) lc[3] (bound 3)
  (#v[r0.1, r1.1, r2.1, r3.1], BitVec.ofBool r3.2 ++ BitVec.ofBool r2.2 ++ BitVec.ofBool r1.2 ++ BitVec.ofBool r0.2)

/-- The next bundle index (R292): `f` the flags after the firing, `w` the counters that wrapped, `h` the head of vi0. -/
def nextPc (b : BitVec 256) (pc : BitVec 7) (base n : Nat) (f : Vector (BitVec 16) 6) (w : BitVec 4) (h : Option Token) :
    BitVec 7 :=
  let ctl : Option (BitVec 8) := match h with
    | some t => t.code
    | none => none
  match bNas b with
  | 0 => if pc.toNat = base + n - 1 then BitVec.ofNat 7 base else pc + 1#7
  | 1 => bTa b
  | 2 => if bitAt w (bFs b) then bTb b else bTa b
  | 3 => if bitAt (vget 0#16 f (bFs b)) 0 then bTb b else bTa b
  | 4 => if ctl.isSome then bTb b else bTa b
  | 5 => bTa b
  | 6 =>
    match ctl with
    | some c => bTa b + BitVec.ofNat 7 (c.toNat % 8)
    | none => bTa b + 4#7
  | _ => pc

/-- The ends that the firing dequeues: DQ, and vi0 where CTRL or CODE consumes a control token there (R292). -/
def firingDq (b : BitVec 256) (h : Option Token) : BitVec 8 :=
  match h with
  | some t => if t.ctrl && (decide (bNas b = 4) || decide (bNas b = 6)) then bDq b ||| 1#8 else bDq b
  | none => bDq b

/-- The firing takes an EOS from vi0 (R292). -/
def takesEos (b : BitVec 256) (h : Option Token) : Bool :=
  match h with
  | some t => t.ctrl && decide (t.code = some (bits cEOS 0 8)) && (decide (bNas b = 4) || decide (bNas b = 6))
  | none => false

/-- The task's state after a firing whose NAS is `nas` (R45, R292). -/
def afterNas (nas : Nat) (trig : Bool) (st : TaskSt) : TaskSt :=
  match st with
  | .running => if nas = 7 then .done else if nas = 5 ∧ trig then .asleep else .running
  | .asleep => if nas = 7 then .done else .asleep
  | x => x

/-- The task after its firing: registers, counters, accumulators, the next bundle, and whether it goes on (R251, R291, R292,
R304). -/
def closeTask (s : State) (site : Site) (t : BitVec 3) (b : BitVec 256) (h : Option Token) (k : Task) : Task :=
  let d := taskDesc s site t.toNat
  let cs := stepCounters k.lc d (bLc b)
  let k1 := { k with
    a := k.fire.acc
    lc := cs.1
    pc := nextPc b k.pc (taskBase s site t.toNat) (taskSlots d) k.f cs.2 h }
  if k.st = .trapped then { k1 with resume := afterNas (bNas b) k.trig.isSome k.resume }
  else { k1 with st := afterNas (bNas b) k.trig.isSome k.st }

/-- Fire a task's current bundle (R288 to R292): its stages compute on the heads and registers, DQ is dequeued, EQ is enqueued,
the counters step and the next bundle is chosen. -/
def fireBundle (s : State) (site : Site) (t : BitVec 3) : State :=
  let k0 := getTask s site t
  let b := bundleAt s site k0.pc
  let h := ceHead s site 0
  let dq := firingDq b h
  let psn := anyPoison s site dq 8
  let s := modTask s site t fun k =>
    { openFiring k with
      rowAt := if isLogitKernel s site t && k.rowAt.isNone && !k.rowAborted then some (now s) else k.rowAt
      rowTaken := k.rowTaken || (k.rowAborted && takesEos b h) }
  let s := runSlots s site t b 6
  let k := getTask s site t
  let s := dequeueMask s site dq 8
  let s := enqueueMask s site k.fire.outs (if k0.rowAborted || k.rowAborted then 0#8 else bEq b) k0.hyp psn 5
  let s := if psn then setErr s (nodeOf s site 0) 16#16 else s
  let s := if k.fire.bd then countBd s (nodeOf s site 0) else s
  let s := setTask s site t (closeTask s site t b h k)
  let s := setCe s site { getCe s site with last := t, firedNext := now s + 1 }
  progress (discardDone s site) (ownerOf s site 0)

/-- BUNDLE_FIRE (R288, R46): the CE fires the bundle of its next runnable task; with none, or when it has fired in this cycle,
nothing happens. An orphan that stands first is left to its diversion (R365). -/
def execBundleFire (site : BitVec 12) (s : State) : Host.Outcome State Fault Refusal :=
  if !ceMayFire s site then .next s
  else
    match nextTask s site with
    | none => .next s
    | some t => if (getTask s site t).orphaned then .next s else .next (fireBundle s site t)

/-- TASK_ACTIVATION (R45, R63): a word at the head of a sleeping task's trigger end begins an activation. -/
def execTaskActivation (site : BitVec 12) (task : BitVec 3) (s : State) : Host.Outcome State Fault Refusal :=
  let k := getTask s site task
  match k.trig with
  | some e =>
    if k.st = .asleep ∧ (ceHead s site e.toNat).isSome ∧ !(getCe s site).halted ∧ !dieStops s site ∧ regionRuns (ownerOf s site 0) then
      .next (setTask s site task { k with st := .running })
    else .next s
  | none => .next s

/-- Write-backs of the region are still on their way to peers, so its release has not completed (R105). -/
def releasePending (s : State) (site : Site) : Bool := writesAway s ((regionOf s site).getD 0)

/-- FENCE_COMPLETE (R105, R300): the FENCE of the task's last firing completes once every write of its release has arrived. -/
def execFenceComplete (site : BitVec 12) (task : BitVec 3) (s : State) : Host.Outcome State Fault Refusal :=
  let k := getTask s site task
  if k.fence && !releasePending s site then .next (setTask s site task { k with fence := false }) else .next s

/-- An orphan goes to its orphan entry, or becomes Done (R164, R365); the refute has given it its ancestor. -/
def divert (k : Task) : Task :=
  match k.orph with
  | some e => { k with pc := e, orphaned := false }
  | none => { k with st := .done, orphaned := false }

/-- ORPHAN_DIVERSION (R164, R365, R410): in the first cycle in which its current bundle could fire, an orphan goes to its orphan
entry, under the ancestor that the refute gave it, or becomes Done. It performs nothing else. -/
def execOrphanDiversion (site : BitVec 12) (task : BitVec 3) (s : State) : Host.Outcome State Fault Refusal :=
  if ceMayFire s site ∧ (getTask s site task).orphaned ∧ nextTask s site = some task then
    let s := modTask s site task divert
    let s := setCe s site { getCe s site with last := task, firedNext := now s + 1 }
    .next (discardDone s site)
  else .next s

/-- The next token of a row that an aborted logit kernel does not see goes away at the kernel's input, one in a cycle, up to the row's EOS;
with its first token the row aborts and is charged (R422). -/
def dropRowToken (s : State) (site : Site) (t : BitVec 3) : State :=
  match ceHead s site 0, headToTake s (endKey site 0) with
  | some x, some _ =>
    let s := if (getTask s site t).rowDrop then s else failRow s site t
    let last := x.ctrl && decide (x.code = some (bits cEOS 0 8))
    dequeueEnd (modTask s site t fun k => { k with rowDrop := !last }) site 0
  | _, _ => s

/-- KERNEL_BUDGET (R166, R422): the row aborts once its cycles exceed the kernel's budget before its EOS has reached the sampler; a row that
comes after an aborted one and before the kernel's EOS aborts at once. -/
def execKernelBudget (site : BitVec 12) (task : BitVec 3) (s : State) : Host.Outcome State Fault Refusal :=
  let k := getTask s site task
  if !isLogitKernel s site task then .next s
  else if rowBarred k then .next (dropRowToken s site task)
  else
    match k.rowOut, k.rowAt with
    | some t0, _ =>
      if !(ceWays s site).any (eosAway s) then .next (modTask s site task fun k => { k with rowOut := none })
      else if kernelBudget s site task < now s - t0 then .next (abortSent s site task)
      else .next s
    | none, some t0 => if kernelBudget s site task < now s - t0 then .next (abortRow s site task) else .next s
    | none, none => .next s

end Sys2Proof.Machine
end

