-- ==== Sys2Proof/Machine/Router.lean ====
section
/-! DEFINITION. The routers: a token's way over a link (R55, R56, R70, R74), and the router operators (R71, R305 to R311). -/

namespace Sys2Proof.Machine

/-! ## Where an output leads -/

/-- The next buffer of an output: its key, its entries, and the cycles until a token stands there (R55, R60). -/
structure NextBuf where
  key : Nat
  cap : Nat
  delay : Nat
  /-- the input end of the site's element, when the output is local -/
  endp : Option Nat
  deriving DecidableEq, Repr

/-- The buffer behind an output port and VC of a router. -/
def nextBuf (s : State) (site : Site) (port vc : Nat) : Option NextBuf :=
  if port < 8 then
    let x := linkSite site port
    let ip := linkInPort port
    some ⟨inKey x ip vc, inDepth x ip, transit site port, none⟩
  else (endOf s site port vc).map fun e => ⟨endKey site e, endDepth s site e, 0, some e⟩

/-- The buffer shows a free entry (R55). -/
def NextBuf.room (s : State) (b : NextBuf) : Bool := (getBuf s b.key).room b.cap (now s)

/-- Put a token into the buffer; at the input of a CE whose tasks are all Done it is discarded (R74), but for MARK and SWITCH. -/
def putNext (s : State) (site : Site) (b : NextBuf) (t : Token) : State :=
  if b.endp.isSome && decide (siteKind site = .ce) && allDone s site && !t.isMarkOrSwitch then s
  else pushBuf s b.key t (now s + b.delay)

/-! ## Link transfer (R70) -/

/-- A head that a router output could send: where it stands, how long, and where it goes. `idx` numbers the inputs for the
round-robin: VC by input port, then the outputs of operator slots. -/
structure Cand where
  idx : Nat
  /-- the buffer key of a router input -/
  key : Nat
  since : Nat
  tok : Token
  dest : NextBuf
  deriving DecidableEq, Repr

/-- The number that stands in a routing entry for the firmware of a die's corner (R14), which no instance has. -/
def cornerId (d : BitVec 2) : Nat := 0xFFFFFF00 + d.toNat

/-- The instance may move tokens: its clocks run (R175); a corner's always do. -/
def instMoves (s : State) (id : Nat) : Bool :=
  match findInst s id with
  | some i => regionRuns (some i)
  | none => decide (cornerId 0#2 ≤ id)

/-- The destination of a routing entry at an output: a port, or for outputs 12 to 15 the input of an operator slot (R238). -/
def routeDest (s : State) (site : Site) (out : Nat) (ent : BitVec 16) : Option NextBuf :=
  if !bitAt ent 15 then none
  else if bitAt ent 14 then
    if 12 + (bits ent 12 2).toNat = out then
      some ⟨opInKey site (bits ent 12 2).toNat (bits ent 10 2).toNat, 2, 0, none⟩
    else none
  else if (bits ent 10 4).toNat = out then nextBuf s site out (bits ent 6 4).toNat
  else none

/-- The candidate at a router input (port, VC) for an output. -/
def inCand (s : State) (site : Site) (out k : Nat) : Option Cand :=
  let b := getBuf s (inKey site (k / 16) (k % 16))
  match b.q, Table.get none s.fab.routes (inKey site (k / 16) (k % 16)) with
  | (t, since) :: _, some r =>
    if since ≤ now s ∧ instMoves s r.inst then (routeDest s site out r.ent).map fun d => ⟨k, inKey site (k / 16) (k % 16), since, t, d⟩ else none
  | _, _ => none

/-- The instance that an operator slot serves (DEDUCED, log 37). -/
def opOwner (s : State) (loc : OpAt) : Option Inst :=
  s.dist.insts.find? fun i => decide (i.st ≠ .ended) && i.ops.contains (loc.site, loc.slot)

/-- The candidate at output `j` of an operator slot for a router output. -/
def opCand (s : State) (site : Site) (out k : Nat) : Option Cand :=
  let loc : OpAt := ⟨site, BitVec.ofNat 2 (k / 16)⟩
  let j := k % 16
  let c := opCfgOf s loc
  if c.outPort j = out ∧ regionRuns (opOwner s loc) then
    match (getOp s loc).outq.find? fun x => decide (x.1 = j) with
    | some x =>
      if x.2.2 ≤ now s then (nextBuf s site out (c.outVc j)).map fun d => ⟨160 + k, 0, x.2.2, x.2.1, d⟩ else none
    | none => none
  else none

/-- The region whose token a candidate is. -/
def candInst (s : State) (site : Site) (c : Cand) : Option Nat :=
  if c.idx < 160 then (Table.get none s.fab.routes c.key).map fun r => r.inst
  else (opOwner s ⟨site, BitVec.ofNat 2 ((c.idx - 160) / 16)⟩).map fun i => i.id

/-- A token of a region may cross a link into a router input (R69, R172): the input's channel is its own region's, or that of another
region that takes tokens. One whose save has begun takes none: what comes behind MARK stays outside. -/
def entryOpen (s : State) (from0 : Option Nat) (k : Nat) : Bool :=
  match Table.get none s.fab.routes k with
  | none => false
  | some r => decide (some r.inst = from0) || (match findInst s r.inst with
    | some i => decide (i.st = .running)
    | none => false)

/-- The link that a candidate would use, among the links' running states: the output, or for outputs 12 to 15 the one operator input it
goes to, since inputs of a slot do not contend (R56, R60). -/
def Cand.link (site : Site) (out : Nat) (c : Cand) : Nat := if out < 12 then site.toNat * 16 + out else 4194304 + c.dest.key

/-- The candidate can cross now: its next buffer shows room, its link has carried no token in this cycle (R55), and the router input that
it crosses to takes it. -/
def Cand.free (s : State) (site : Site) (out : Nat) (c : Cand) : Bool :=
  c.dest.room s && decide ((Table.get ⟨0, 0⟩ s.fab.outs (c.link site out)).usedNext ≤ now s) &&
  (decide (8 ≤ out) || entryOpen s (candInst s site c) c.dest.key)

/-- All heads that an output could send now: none of the data VCs on a fenced die (R394) (DEDUCED, log 113). -/
def candidates (s : State) (site : Site) (out : Nat) : List Cand :=
  let xs := (List.range 160).filterMap (inCand s site out)
  let ys := if out < 10 then (List.range 64).filterMap (opCand s site out) else []
  if (getDie s (siteDie site)).fenced then [] else (xs ++ ys).filter (Cand.free s site out)

/-- The first of two candidates (R70): the one that has waited longer; among equals the one nearer behind the pointer. -/
def Cand.before (rr : Nat) (a b : Cand) : Bool :=
  decide (a.since < b.since) ||
  (decide (a.since = b.since) && decide ((a.idx + 224 - rr) % 224 < (b.idx + 224 - rr) % 224))

/-- The winner of an output's arbitration. -/
def winner (rr : Nat) (cs : List Cand) : Option Cand :=
  cs.foldl (fun w c => match w with
    | none => some c
    | some x => if c.before rr x then some c else some x) none

/-- Take a candidate's token from where it stands. -/
def takeCand (s : State) (site : Site) (c : Cand) : State :=
  if c.idx < 160 then popBuf s (inKey site (c.idx / 16) (c.idx % 16))
  else
    let loc : OpAt := ⟨site, BitVec.ofNat 2 ((c.idx - 160) / 16)⟩
    let o := getOp s loc
    setOp s loc { o with outq := o.outq.erase ((c.idx - 160) % 16, c.tok, c.since) }

/-- A router output's running state. -/
def getOut (s : State) (site : Site) (out : Nat) : OutRun := Table.get ⟨0, 0⟩ s.fab.outs (site.toNat * 16 + out)

/-- The routing entry that a shadow bank holds for a router input (R52). -/
def shadowRoute (s : State) (old k : Nat) : Option Route :=
  match s.dist.insts.find? fun i => decide (i.onto = some old) && i.switched && decide (i.st ≠ .ended) with
  | some i => if Table.get 0#16 i.routes k = 0#16 then none else some ⟨i.id, Table.get 0#16 i.routes k⟩
  | none => Table.get none s.fab.routes k

/-- A SWITCH that leaves a router input takes its routing entry to the shadow bank (R52). -/
def flipRoute (s : State) (c : Cand) : State :=
  if c.tok.isCode 0x11#8 && decide (c.idx < 160) then
    match Table.get none s.fab.routes c.key with
    | some r => { s with fab := { s.fab with routes := Table.set none s.fab.routes c.key (shadowRoute s r.inst c.key) } }
    | none => s
  else s

/-- LINK_TRANSFER (R70, R55, R74): one token crosses an output of the router in a cycle, or, for outputs 12 to 15, one token enters each
input of that operator slot. -/
def execLinkTransfer (site : BitVec 12) (out : BitVec 4) (s : State) : Host.Outcome State Fault Refusal :=
  match winner (getOut s site out.toNat).rr (candidates s site out.toNat) with
  | none => .next s
  | some c =>
    let s := flipRoute (putNext (takeCand s site c) site c.dest c.tok) c
    let outs := Table.set ⟨0, 0⟩ s.fab.outs (c.link site out.toNat) ⟨now s + 1, (c.idx + 1) % 224⟩
    .next { s with fab := { s.fab with outs := outs } }

/-! ## Operators (R305 to R311) -/

/-- The head of an operator's input, as the operator's own rules see it: MARK and SWITCH follow R173 and R52. -/
def opHead (s : State) (loc : OpAt) (i : Nat) : Option Token :=
  match headAt s (opInKey loc.site loc.slot.toNat i) with
  | some t => if t.isMarkOrSwitch then none else some t
  | none => none

/-- Dequeue an operator's input. -/
def opPop (s : State) (loc : OpAt) (i : Nat) : State := popBuf s (opInKey loc.site loc.slot.toNat i)

/-- The buffer showed a free entry at the end of the last cycle (R55): tokens that have gone to it in this cycle do not count. -/
def NextBuf.roomBefore (s : State) (b : NextBuf) : Bool :=
  let x := getBuf s b.key
  decide ((x.q.filter fun y => decide (y.2 ≠ now s + b.delay)).length + (if x.freedAt = now s then x.freed else 0) < b.cap)

/-- An output of the operator shows a free entry as seen under registered ready (R61), and holds no token but one that leaves in this
cycle. -/
def opRoom (s : State) (loc : OpAt) (c : OpCfg) (j : Nat) : Bool :=
  let mine := (getOp s loc).outq.filter fun x => decide (x.1 = j)
  (match nextBuf s loc.site (c.outPort j) (c.outVc j) with
    | some b => b.roomBefore s
    | none => false) && decide (mine.length ≤ 1) && mine.all fun x => decide (x.2.2 ≤ now s)

/-- Every output below `n` shows a free entry. -/
def opRoomAll (s : State) (loc : OpAt) (c : OpCfg) (n : Nat) : Bool := (List.range n).all fun j => opRoom s loc c j

/-- Enqueue a token on an output: it leaves in the next cycle (R60). -/
def opSend (s : State) (loc : OpAt) (j : Nat) (t : Token) : State :=
  let o := getOp s loc
  inject (setOp s loc { o with outq := o.outq ++ [(j, t, now s + 1)] }) (opOwner s loc)

/-- Enqueue a token on every output below `n`. -/
def opSendAll (s : State) (loc : OpAt) (t : Token) (n : Nat) : State := (List.range n).foldl (fun s j => opSend s loc j t) s

/-- The operator may fire: once in a cycle, in a region that runs (R305, R173). -/
def opRuns (s : State) (loc : OpAt) : Bool :=
  decide ((getOp s loc).lastFire ≤ now s) && !(getOp s loc).saved && regionRuns (opOwner s loc)

/-- One firing of an operator; `f` answers none where it cannot fire. -/
def opFire (loc : OpAt) (f : State → Option State) (s : State) : Host.Outcome State Fault Refusal :=
  if !opRuns s loc then .next s
  else
    match f s with
    | none => .next s
    | some s => .next (progress (setOp s loc { getOp s loc with lastFire := now s + 1 }) (opOwner s loc))

/-- The predicate of STEER and MERGE: bit 0 of the payload, inverted by INV (R307). -/
def predOf (c : OpCfg) (t : Token) : Nat := if bitAt t.w0 0 != bitAt c.opt 0 then 1 else 0

/-- STEER (R307): a data token to the output of its predicate; a control token at the data input to both. -/
def execSteer (loc : OpAt) (cfg : OpCfg) (s : State) : Host.Outcome State Fault Refusal :=
  opFire loc (fun s =>
    match opHead s loc 1 with
    | some p =>
      if p.ctrl then some (opPop s loc 1)
      else
        match opHead s loc 0 with
        | some d =>
          if d.ctrl then (if opRoomAll s loc cfg 2 then some (opSendAll (opPop s loc 0) loc d 2) else none)
          else if opRoom s loc cfg (predOf cfg p) then some (opSend (opPop (opPop s loc 0) loc 1) loc (predOf cfg p) d)
          else none
        | none => none
    | none =>
      match opHead s loc 0 with
      | some d => if d.ctrl && opRoomAll s loc cfg 2 then some (opSendAll (opPop s loc 0) loc d 2) else none
      | none => none) s

/-- MERGE (R307): a predicate, then one token from the input that it selects. -/
def execMerge (loc : OpAt) (cfg : OpCfg) (s : State) : Host.Outcome State Fault Refusal :=
  opFire loc (fun s =>
    match opHead s loc 2 with
    | some p =>
      if p.ctrl then some (opPop s loc 2)
      else
        match opHead s loc (predOf cfg p) with
        | some d =>
          if opRoom s loc cfg 0 then some (opSend (opPop (opPop s loc 2) loc (predOf cfg p)) loc 0 d) else none
        | none => none
    | none => none) s

/-- The token that CARRY emits as INIT (R306). -/
def initTok (c : OpCfg) (hyp : BitVec 6) (refuted : Bool) : Token :=
  let w : Word := bits c.opt 0 32
  if bitAt c.opt 32 then vectorTok (splat w) 0xFFFF#16 0x00FF#16 hyp refuted false else scalarTok w hyp refuted false

/-- CARRY (R308): INIT once after START, then the feedback in order; with RST a fresh INIT in place of an EOS. -/
def execCarry (loc : OpAt) (cfg : OpCfg) (s : State) : Host.Outcome State Fault Refusal :=
  opFire loc (fun s =>
    if !opRoom s loc cfg 0 then none
    else
      match (getOp s loc).initDue with
      | some h => some (opSend (setOp s loc { getOp s loc with initDue := none }) loc 0 (initTok cfg h.1 h.2))
      | none =>
        match opHead s loc 0 with
        | some t =>
          let out := if t.isCode 3#8 && bitAt cfg.opt 33 then initTok cfg t.hyp t.refuted else t
          some (opSend (opPop s loc 0) loc 0 out)
        | none => none) s

/-- DUP (R308): a token to all outputs in one firing. -/
def execDup (loc : OpAt) (cfg : OpCfg) (s : State) : Host.Outcome State Fault Refusal :=
  opFire loc (fun s =>
    match opHead s loc 0 with
    | some t => if opRoomAll s loc cfg cfg.nout.toNat then some (opSendAll (opPop s loc 0) loc t cfg.nout.toNat) else none
    | none => none) s

/-- DROP (R308): the token is consumed. -/
def execDrop (loc : OpAt) (_cfg : OpCfg) (s : State) : Host.Outcome State Fault Refusal :=
  opFire loc (fun s =>
    match opHead s loc 0 with
    | some _ => some (opPop s loc 0)
    | none => none) s

/-- The output of RPART for a payload: the field [LO + W − 1 : LO], with 0 above bit 31 (R311). -/
def partOf (c : OpCfg) (w : Word) : Nat := (w.toNat / 2 ^ (bits c.opt 0 5).toNat) % 2 ^ (bits c.opt 5 3).toNat

/-- RPART (R311): a token to the output of its field; a control token to every output. -/
def execRpart (loc : OpAt) (cfg : OpCfg) (s : State) : Host.Outcome State Fault Refusal :=
  opFire loc (fun s =>
    match opHead s loc 0 with
    | some t =>
      if t.ctrl then
        if opRoomAll s loc cfg cfg.nout.toNat then some (opSendAll (opPop s loc 0) loc t cfg.nout.toNat) else none
      else if opRoom s loc cfg (partOf cfg t.w0) then some (opSend (opPop s loc 0) loc (partOf cfg t.w0) t) else none
    | none => none) s

/-! ## REPLAY (R310, R421) -/

/-- LEN of a REPLAY: its queue length. -/
def replayLen (c : OpCfg) : Nat := (bits c.opt 0 16).toNat + 1

/-- REPLAY.BUF -/
def replayBuf (c : OpCfg) : Nat := (bits c.opt 40 56).toNat

/-- REPLAY.MT, through whose port stream the queue is reached. -/
def replayMt (c : OpCfg) : Site := bits c.opt 16 12

/-- REPLAY.SCAL -/
def replayScal (c : OpCfg) : Bool := bitAt c.opt 28

/-- The sideband byte of a token (R65). -/
def Token.side (t : Token) : Byte := BitVec.ofBool t.ctrl ++ BitVec.ofBool t.psn ++ 0#6

/-- The second block of a record (R310): mask, descriptor, sideband and stamp; mask and descriptor are 0 for a scalar token. -/
def recordTail (t : Token) : Block :=
  let stamp : Byte := BitVec.ofBool t.refuted ++ 0#1 ++ t.hyp
  (stamp ++ t.side ++ (if t.vec then t.desc else 0#16) ++ (if t.vec then t.mask else 0#16)).setWidth 512

/-- The token that a record holds. -/
def recordToken (scal : Bool) (pay tail : Block) : Token :=
  let side : Byte := blockByte tail 4
  let st : Byte := blockByte tail 5
  { vec := !scal, pay := if scal then (lane pay 0).setWidth 512 else pay, mask := if scal then 0#16 else bits tail 0 16,
    desc := if scal then 0#16 else bits tail 16 16, ctrl := bitAt side 7, psn := bitAt side 6, hyp := bits st 0 6,
    refuted := bitAt st 7 }

/-- The translation of a REPLAY record (R310), by the die's cache or a walk. -/
def replayXlate (s : State) (loc : OpAt) (c : OpCfg) (t : Nat) (needW : Bool) : State × Xlat :=
  match opOwner s loc with
  | none => (s, .fail .transNp)
  | some i =>
    match findNode s i.node with
    | none => (s, .fail .transNp)
    | some n => xlate s (siteDie (replayMt c)) n (.op loc) (replayBuf c + 128 * t) needW

/-- Write a record through the stash of REPLAY.MT at region scope under hypothesis 0 (DESIGN CHOICE, log 36). -/
def putRecord (s : State) (loc : OpAt) (c : OpCfg) (t h : Nat) (tok : Token) : State :=
  let mt := replayMt c
  let p := opParty s mt loc
  let va := replayBuf c + 128 * t
  let pay : Block := if tok.vec then tok.pay else (lane tok.pay 0).setWidth 512
  let s := storeZero s p mt h va 4#3 scopeRegion (BitVec.allOnes 64) pay none false
  storeZero s p mt (h + 64) (va + 64) 4#3 scopeRegion (BitVec.allOnes 64) (recordTail tok) none false

/-- Record a token at an index: a record that cannot be written is lost, and one whose page moves is written later (R89, R310). -/
def recordAt (s : State) (loc : OpAt) (c : OpCfg) (t : Nat) (tok : Token) : State :=
  match replayXlate s loc c t true with
  | (s, .ok tr) => putRecord s loc c t (homeKey tr) tok
  | (s, .fail _) => setOp s loc { getOp s loc with lost := (getOp s loc).lost ++ [t] }
  | (s, .wait) => setOp s loc { getOp s loc with late := (getOp s loc).late ++ [(t, tok)] }

/-- Write the records that have waited for a page (R89). -/
def recordLate (s : State) (loc : OpAt) (c : OpCfg) : State :=
  let o := getOp s loc
  o.late.foldl (fun s x => recordAt s loc c x.1 x.2) (setOp s loc { o with late := [] })

/-- REPLAY (R310, R421): in lap one a token goes on at once and is recorded; tokens beyond the queue set REPLAYOVF; EOS begins lap
two. -/
def execReplay (loc : OpAt) (cfg : OpCfg) (s : State) : Host.Outcome State Fault Refusal :=
  opFire loc (fun s =>
    let o := getOp s loc
    if o.lap2 || !opRoom s loc cfg 0 then none
    else
      match opHead s loc 0 with
      | none => none
      | some t =>
        if t.isCode 3#8 then
          let s := opSend (opPop s loc 0) loc 0 t
          some (setOp s loc { getOp s loc with lap2 := true, emitted := 0, eosHyp := t.hyp, eosRef := t.refuted })
        else if replayLen cfg ≤ o.recorded then
          some (setEstat (opSend (opPop s loc 0) loc 0 t) (opOwner s loc) 16#32)
        else
          let s := recordAt (opSend (opPop (recordLate s loc cfg) loc 0) loc 0 t) loc cfg o.recorded t
          some (setOp s loc { getOp s loc with recorded := o.recorded + 1, stamps := o.stamps ++ [(t.hyp, t.refuted)] })) s

/-- What lap two re-emits for a record that cannot be used (R310). -/
def lostToken (scal : Bool) (hyp : BitVec 6) : Token :=
  if scal then scalarTok 0#32 hyp false true else vectorTok 0#512 0#16 0x00FF#16 hyp false true

/-- A block that the region does not hold: neither the tile's stash nor an unreleased version covers it. -/
def blockAway (s : State) (p : Party) (site : Site) (h : Nat) : Bool :=
  let held := (heldLayers s p h 0#8 0#6).foldl (fun m l => m ||| l.mask) (ownCover s site h 0#8 0#6)
  decide (held ≠ BitVec.allOnes 64)

/-- A record that a peer holds and the region does not. -/
def recordAway (s : State) (loc : OpAt) (c : OpCfg) (h : Nat) : Bool :=
  let p := opParty s (replayMt c) loc
  homeIsPeer h && (blockAway s p (replayMt c) h || blockAway s p (replayMt c) (h + 64))

/-- The stamp of a record at hand after the resolutions since it was made (R163, R310). -/
def renamed (o : OpRun) (h : BitVec 6 × Bool) : BitVec 6 × Bool :=
  o.renames.foldl (fun h r =>
    if o.emitted < r.1 ∧ h.1 = r.2.1 ∧ !h.2 then
      match r.2.2 with
      | some p => (p, false)
      | none => (h.1, true)
    else h) h

/-- The next token of lap two: none while its record is on its way from a peer, or its page moves. -/
def lapTwoToken (s : State) (loc : OpAt) (c : OpCfg) : State × Option Token :=
  let s := recordLate s loc c
  let o := getOp s loc
  let node := match opOwner s loc with
    | some i => findNode s i.node
    | none => none
  let bad (s : State) : State × Option Token :=
    (setErr s node 16#16, some (lostToken (replayScal c) (match node with
      | some n => n.hyp
      | none => 0#6)))
  if o.emitted < o.recorded then
    if o.lost.contains o.emitted then bad s
    else if o.late.any fun x => decide (x.1 = o.emitted) then (s, none)
    else
      match replayXlate s loc c o.emitted false with
      | (s, .wait) => (s, none)
      | (s, .fail _) => bad s
      | (s, .ok tr) =>
        let h := homeKey tr
        if recordAway s loc c h then
          if s.links.remotes.any fun r => decide (r.who = .op loc.site loc.slot) then (s, none)
          else (pushRemote s (remoteOf s (.op loc.site loc.slot) (tenantOf node) 0#3 h 2), none)
        else
          let p := opParty s (replayMt c) loc
          let a := view s p h 0#8 0#6
          let b := view s p (h + 64) 0#8 0#6
          let tok := recordToken (replayScal c) a.data b.data
          if a.psn || b.psn then bad s else (s, some { tok with hyp := (renamed o (tok.hyp, tok.refuted)).1, refuted := (renamed o (tok.hyp, tok.refuted)).2 })
  else (s, some (controlTok (!replayScal c) cEOS o.eosHyp o.eosRef))

/-- REPLAY_LAP_TWO (R310): the operator re-emits one recorded token, or at the end the EOS that closes the lap. -/
def execReplayLapTwo (site : BitVec 12) (slot : BitVec 2) (s : State) : Host.Outcome State Fault Refusal :=
  let loc : OpAt := ⟨site, slot⟩
  let cfg := opCfgOf s loc
  let o := getOp s loc
  if o.lap2 && opRuns s loc && opRoom s loc cfg 0 then
    match lapTwoToken s loc cfg with
    | (s, none) => .next s
    | (s, some t) =>
      let s := opSend s loc 0 t
      let o := getOp s loc
      let o := if o.emitted < o.recorded then { o with emitted := o.emitted + 1 }
        else { o with lap2 := false, recorded := 0, emitted := 0, stamps := [], lost := [], renames := [], late := [] }
      .next (progress (setOp s loc { o with lastFire := now s + 1 }) (opOwner s loc))
  else .next s

/-- A peer's answer to a REPLAY's read: its blocks come into the stash of REPLAY.MT, or the record is lost (R310). One that an acquire has
overtaken is read again (R105). -/
def landReplay (s : State) (loc : OpAt) (r : Remote) (ok : Bool) (data : BitVec 2048) (descs : BitVec 64) (psn : BitVec 4) :
    State :=
  let c := opCfgOf s loc
  let o := getOp s loc
  if ok then
    let home := (2 + r.node.toNat) * 2 ^ 52 + r.addr
    let va := replayBuf c + 128 * o.emitted
    let mt := replayMt c
    let p := opParty s mt loc
    let put (s : State) (i : Nat) : State :=
      loadInstall s p mt (home + 64 * i) (va + 64 * i) 0#8 0#6 (BitVec.allOnes 64) 4#3 scopeTenant (answerBlock data descs psn i)
    if r.stale then s else put (put s 0) 1
  else setOp s loc { o with lost := o.lost ++ [o.emitted] }

/-- The home of record `t` of a queue of an instance, whether or not its page moves. -/
def queueHome (s : State) (i : Inst) (buf t : Nat) : Option Nat :=
  match findNode s i.node with
  | none => none
  | some n =>
    let va := buf + 128 * t
    match walkTables s n.ptroot va with
    | .error _ => none
    | .ok l =>
      (leafBase (getFn s (nodeVf s n)).pasid l).map fun base =>
        homeKey ⟨entType l.ent, bits l.ent 52 12, base + va % 2 ^ l.lg, l.lg⟩

/-- The home of a REPLAY record's two blocks. -/
def recordHome (s : State) (loc : OpAt) (c : OpCfg) (t : Nat) : Option Nat :=
  match opOwner s loc with
  | none => none
  | some i => queueHome s i (replayBuf c) t

/-- The records of a REPLAY that stand in its queue, to be re-emitted. -/
def liveRecords (o : OpRun) : List Nat :=
  (List.range o.recorded).filter fun t => decide (o.emitted ≤ t) && !o.lost.contains t && !(o.late.any fun x => decide (x.1 = t))

/-- The records of a queue that lie in a block. -/
def recordsIn (o : OpRun) (at0 : Nat → Option Nat) (home : Nat) : List Nat :=
  (liveRecords o).filter fun t => match at0 t with
    | some h => decide (h = home) || decide (h + 64 = home)
    | none => false

/-- A write of a block to a peer has been refused or has timed out: the records of a REPLAY in it are lost (R310). -/
def loseRecords (home : Nat) (s : State) (k : Nat) : State :=
  let loc : OpAt := ⟨BitVec.ofNat 12 (k / 4), BitVec.ofNat 2 k⟩
  let o := getOp s loc
  let gone := recordsIn o (recordHome s loc (opCfgOf s loc)) home
  if gone.isEmpty then s else setOp s loc { o with lost := o.lost ++ gone }


end Sys2Proof.Machine
end

