-- ==== Sys2Proof/Machine/Check.lean ====
section
/-! DEFINITION. What the loader checks of an instance once its last frame has been written (R221, R388): slot counts, targets, channel
ends, programs, ports and operators, the cycles of operators (R72) and the scopes of channels that leave the region (R107). -/

namespace Sys2Proof.Machine

/-! ## The configuration under check -/

/-- A table with the entries of another put over it. -/
def overlayTable {α : Type} [DecidableEq α] (d : α) (t u : Table α) : Table α := u.foldl (fun t e => Table.set d t e.1 e.2) t

/-- A route of another instance than the one given over. -/
def routeStays (old : Option Nat) (r : Option Route) : Bool :=
  match r with
  | some r => decide (some r.inst ≠ old)
  | none => true

/-- The state as an instance will find it once it runs: for an instance that takes over another's elements, its shadow bank in place
of what the other has there (R52). -/
def bankView (s : State) (i : Inst) : State :=
  match i.onto with
  | none => s
  | some o =>
    let others (k : Nat) : Bool :=
      !instFrame i k && (match findInst s o with
        | some j => !(instFrame j k && decide (k / 262144 % 16 = 4))
        | none => true)
    let frames := overlayTable 0#256 (s.fab.frames.filter fun x => others x.1) (s.fab.shadow.filter fun x => instFrame i x.1)
    let mine : Table (Option Route) := i.routes.map fun x => (x.1, some ⟨i.id, x.2⟩)
    let routes := overlayTable none (s.fab.routes.filter fun x => routeStays (some o) x.2) mine
    { s with fab := { s.fab with frames := frames, routes := routes } }

/-! ## Where channels lead (R56, R60) -/

/-- Where a stretch of a channel ends: at an operator's input, or at an input end of a site's element. -/
inductive Dest where
  | op (loc : OpAt) (idx : Nat)
  | endp (site : BitVec 12) (e : Nat)
  deriving DecidableEq, Repr

/-- Follow plain routing from a router input. -/
def follow (v : State) : Nat → Site → Nat → Nat → Option Dest
  | 0, _, _, _ => none
  | n + 1, site, port, vc =>
    match Table.get none v.fab.routes (inKey site port vc) with
    | none => none
    | some r =>
      if bitAt r.ent 14 then some (.op ⟨site, bits r.ent 12 2⟩ (bits r.ent 10 2).toNat)
      else
        let q := (bits r.ent 10 4).toNat
        if q < 8 then follow v n (linkSite site q) (linkInPort q) (bits r.ent 6 4).toNat
        else (endOf v site q (bits r.ent 6 4).toNat).map fun e => .endp site e

/-- Steps that suffice to follow a route. -/
def routeFuel (v : State) : Nat := v.fab.routes.length + 1

/-- Where an output port and VC of a router leads. -/
def leave (v : State) (site : Site) (q vc : Nat) : Option Dest :=
  if q < 8 then follow v (routeFuel v) (linkSite site q) (linkInPort q) vc
  else (endOf v site q vc).map fun e => .endp site e

/-- The outputs of an operator, as places where its channels go on. -/
def opDests (v : State) (loc : OpAt) : List Dest :=
  let c := opCfgOf v loc
  (List.range c.nout.toNat).filterMap fun j => leave v loc.site (c.outPort j) (c.outVc j)

/-- The code of an operator slot. -/
def opCode (v : State) (loc : OpAt) : Nat := (bits (opFrame v loc) 0 4).toNat

/-- The node whose level table an operator's level names: a given one where an instance of it holds the slot, else that of the region
that does. -/
def slotNode (v : State) (n : Node) (loc : OpAt) : Node :=
  let holds (i : Inst) : Bool := decide (i.st ≠ .ended) && i.ops.contains (loc.site, loc.slot)
  if v.dist.insts.any fun i => decide (i.node = n.id) && holds i then n
  else
    match v.dist.insts.find? holds with
    | some i => (findNode v i.node).getD n
    | none => n

/-- The scope at which a place on a channel releases: that of a WIDEN, region scope elsewhere (R309). -/
def widenScope (v : State) (n : Node) (d : Dest) : Nat :=
  match d with
  | .op loc _ => if opCode v loc = 5 then ((slotNode v n loc).scope (bits (opFrame v loc) 160 3)).toNat else 0
  | .endp _ _ => 0

/-- The predicate input of a STEER or MERGE, where a channel ends (R307). -/
def predInput (v : State) (loc : OpAt) (idx : Nat) : Bool :=
  (decide (opCode v loc = 1) && decide (idx = 1)) || (decide (opCode v loc = 2) && decide (idx = 2))

/-- The consumer ends that a channel reaches through its operators, each with the widest scope released on the way; 16 + slot stands for
the predicate input of an operator. -/
def reaches (v : State) (n : Node) : Nat → Nat → Dest → List (BitVec 12 × Nat × Nat)
  | 0, _, _ => []
  | k + 1, w, d =>
    match d with
    | .endp site e => [(site, e, w)]
    | .op loc i =>
      if predInput v loc i then [(loc.site, 16 + loc.slot.toNat, w)]
      else (opDests v loc).flatMap fun x => reaches v n k (Nat.max w (widenScope v n d)) x

/-- The local links on which a site's element receives. -/
def localIns (v : State) (site : Site) : List (Nat × Nat) :=
  match siteKind site with
  | .ce => ((List.range 8).filter fun e => bitAt (ceEnd v site e) 0).map fun e => (8, (bits (ceEnd v site e) 12 4).toNat)
  | .mt =>
    let bind (n : Nat) := portBinding v ⟨site, BitVec.ofNat 3 n⟩
    let ctl (j : Nat) := agBinding v ⟨site, BitVec.ofNat 1 j⟩
    ((List.range 8).filter fun n => bitAt (bind n) 14).map (fun n => (8 + (bits (bind n) 19 1).toNat, (bits (bind n) 15 4).toNat)) ++
    ((List.range 2).filter fun j => bitAt (ctl j) 10).map fun j => (8 + (bits (ctl j) 9 1).toNat, (bits (ctl j) 5 4).toNat)
  | _ =>
    let b := engBinding v site
    ((List.range 2).filter fun e => bitAt b (32 + e)).map (fun e => (8, (bits b (8 + 4 * e) 4).toNat)) ++
    (if bitAt b 36 then [(8, (bits b 24 4).toNat)] else [])

/-- The output ports and VCs of a router that channels use: of routing entries and of operators. -/
def routerOuts (v : State) (site : Site) : List (Nat × Nat) :=
  ((List.range 160).filterMap fun k =>
    match Table.get none v.fab.routes (inKey site (k / 16) (k % 16)) with
    | some r => if bitAt r.ent 14 then none else some ((bits r.ent 10 4).toNat, (bits r.ent 6 4).toNat)
    | none => none) ++
  (List.range 4).flatMap fun k =>
    let c := opCfgOf v ⟨site, BitVec.ofNat 2 k⟩
    (List.range c.nout.toNat).map fun j => (c.outPort j, c.outVc j)

/-- No data VC of a site's links carries two channels (R57). -/
def linksOk (v : State) (site : Site) : Bool := (localOuts v site).Nodup && (localIns v site).Nodup && (routerOuts v site).Nodup

/-! ## Compute elements (R221, R228, R252, R388, R166) -/

/-- The tasks of a CE that exist. -/
def tasksOf (v : State) (site : Site) : List Nat := (List.range 8).filter fun t => taskValid (taskDesc v site t)

/-- SLOTS as the image gives it. -/
def slotsAsked (d : BitVec 256) : Nat := (bits d 13 8).toNat

/-- The slot counts of a CE (R388, R221). -/
def slotsCheck (v : State) (site : Site) : Check := do
  let ts := tasksOf v site
  eachOf ts fun t =>
    let d := taskDesc v site t
    if slotsAsked d = 0 then must lsHeader (!bitAt d 24 && !bitAt d 32 && decide (bits d 6 7 = 0#7))
    else must lsHeader (decide (slotsAsked d < 128) || decide (ts = [t]))
  must lsHeader (decide ((ts.map fun t => taskSlots (taskDesc v site t)).sum ≤ 128))

/-- A slot count of the CE was rounded (R388). -/
def slotsRounded (v : State) (site : Site) : Bool := (tasksOf v site).any fun t => decide (slotsAsked (taskDesc v site t) % 8 ≠ 0)

/-- The bundle indices that a bundle's NAS uses (R221, R223). -/
def nasTargets (b : BitVec 256) : List Nat :=
  match bNas b with
  | 1 => [(bTa b).toNat]
  | 2 => [(bTa b).toNat, (bTb b).toNat]
  | 3 => [(bTa b).toNat, (bTb b).toNat]
  | 4 => [(bTa b).toNat, (bTb b).toNat]
  | 5 => [(bTa b).toNat]
  | 6 => (List.range 8).map fun c => (bTa b).toNat + c
  | _ => []

/-- What a logit kernel's bundles may not hold (R166). -/
def kernelForbids (opc : BitVec 8) : Bool :=
  [0xA1, 0xA2, 0xA3, 0xA6, 0xA7, 0xA8, 0xA9, 0xAD].contains opc.toNat

/-- No bundle of a task steps a counter that the chain bit of the counter below it steps (R291). -/
def chainOk (d : BitVec 256) (bundles : List (BitVec 256)) : Bool :=
  bundles.all fun b => (List.range 3).all fun j => !bitAt d (33 + j) || !bitAt (bLc b) (j + 1)

/-- No two tasks of a CE share a trigger (R298). -/
def triggersApart (v : State) (site : Site) : Bool :=
  (((tasksOf v site).filter fun t => bitAt (taskDesc v site t) 24).map fun t => (bits (taskDesc v site t) 21 3).toNat).Nodup

/-- One task (R221, R228, R166). -/
def taskCheck (v : State) (site : Site) (t : Nat) : Check := do
  let d := taskDesc v site t
  let lo := taskBase v site t
  let inside (x : Nat) : Bool := decide (lo ≤ x) && decide (x < lo + taskSlots d)
  let bundles := (List.range (taskSlots d)).map fun k => frame v site 0 0 (lo + k)
  must lsBadSelector (decide (taskSlots d = 0) || (inside (bits d 6 7).toNat && (!bitAt d 32 || inside (bits d 25 7).toNat)))
  must lsBadSelector (bundles.all fun b => (nasTargets b).all inside)
  must lsBadSelector (chainOk d bundles)
  must lsBadSelector (!bitAt d 24 || bitAt (ceEnd v site (bits d 21 3).toNat) 0)
  must lsBadSelector (bitAt d 36 == decide (bits d 96 32 ≠ 0#32))
  must lsBadOpcode (!bitAt d 36 || bundles.all fun b => !(List.range 6).any fun k => kernelForbids (bits (bundleSlot b k) 28 8))

/-- The ends and outputs that a bundle names are in use (R252). -/
def bundleEndsOk (v : State) (site : Site) (b : BitVec 256) : Bool :=
  let sts := bundleStages site b
  let used (e : Nat) : Bool := bitAt (ceEnd v site e) 0
  let usedOut (o : Nat) : Bool := bitAt (ceOut v site o) 0
  ((List.range 8).all fun e => !bitAt (bDq b) e || used e) && ((List.range 5).all fun o => !bitAt (bEq b) o || usedOut o) &&
  sts.all fun x => (readEnds x.1 x.2).all used && (match outName x with
    | some o => usedOut o
    | none => true)

/-- What spans the frames of a CE. -/
def ceCheck (v : State) (site : Site) : Check := do
  slotsCheck v site
  eachOf (tasksOf v site) (taskCheck v site)
  must lsBadSelector (triggersApart v site)
  must lsBadSelector ((List.range 128).all fun k => bundleEndsOk v site (frame v site 0 0 k))

/-! ## Address generators (R236, R335) -/

/-- The words of an AG's program. -/
def agWords (v : State) (loc : AgAt) : List (BitVec 64) := (List.range 32).map fun i => agWordAt v loc i

/-- The opcode of an AG word. -/
def agOpc (w : BitVec 64) : Nat := (bits w 58 6).toNat

/-- The words up to the first AHALT. -/
def agProgram (v : State) (loc : AgAt) : List (BitVec 64) :=
  let ws := agWords v loc
  match ws.findIdx? fun w => decide (agOpc w = 10) with
  | some k => ws.take (k + 1)
  | none => []

/-- Loops nest: each opens below every open level, each AEND closes the innermost, and all are closed at the end (R335). -/
def agNest : List Nat → List (BitVec 64) → Bool
  | st, [] => st.isEmpty
  | st, w :: ws =>
    let l := (bits w 55 3).toNat
    if agOpc w = 1 then st.all (fun x => decide (l < x)) && agNest (l :: st) ws
    else if agOpc w = 2 then
      match st with
      | x :: rest => decide (x = l) && agNest rest ws
      | [] => false
    else agNest st ws

/-- A word that always sends (R331, R332): AEMIT, and AHALT with EOS. AIDX and AGRP send only what comes to them (R333). -/
def agSpeaks (w : BitVec 64) : Bool := decide (agOpc w = 7) || (decide (agOpc w = 10) && bitAt w 0)

/-- An AG's binding and program (R233, R235, R236, R335). An AG whose binding frame was never written has no out channel: a program
that sends fails here (DEDUCED, log 14). -/
def agCheck (v : State) (loc : AgAt) : Check := do
  let (opc, d) := portDescOf v (agPort v loc)
  must lsBadSelector (!agDirect v loc || (decide (opc ≠ 0#8) && !d.chan && decide (bits d.asrc 0 1 = loc.sub)))
  must lsBadSelector (agDirect v loc || decide (4 ≤ (agOut v loc).2) || !(agWords v loc).any agSpeaks)
  let ws := agWords v loc
  let p := agProgram v loc
  if ws.all fun w => decide (w = 0#64) then .ok ()
  else do
    must lsBadOpcode (!p.isEmpty && !p.any fun w => decide (agOpc w = 0))
    must lsBadOpcode ((ws.drop p.length).all fun w => decide (w = 0#64))
    must lsBadOpcode (agNest [] p)
    must lsBadOpcode (p.all fun w => !(decide (agOpc w = 5) || decide (agOpc w = 6)) || decide ((bits w 52 6).toNat < p.length))

/-- A site's element belongs to an instance. -/
def Inst.has (i : Inst) (site : Site) : Bool := i.elems.contains (site.toNat * 4)

/-- An AGRP that names a task names it at a CE of the region (R330). -/
def agrpOk (i : Inst) (w : BitVec 64) : Bool :=
  decide (agOpc w ≠ 6) || !bitAt w 51 || (decide (siteKind (bits w 36 12) = .ce) && i.has (bits w 36 12))

/-! ## Ports (R328) -/

/-- Vector or scalar tokens, where an end takes one kind alone: an AG's ctl reads a vector's lane 0 (R333), and an operand or a WID 0
data token may be of either kind (R315). The command input of an engine and the data input of an MX or a CP take vectors (R342, R344,
R350); a predicate input takes either kind (R307). -/
def endKind (v : State) (site : Site) (e : Nat) : Option Bool :=
  if 16 ≤ e then none else
  match siteKind site with
  | .ce => some (decide (e < 4))
  | .mt =>
    if 8 ≤ e then none
    else
      let (opc, d) := portDescOf v ⟨site, BitVec.ofNat 3 e⟩
      if (opc = 3#8 ∨ opc = 6#8 ∨ opc = 7#8) ∧ !d.chan ∧ d.wid then some true
      else if opc = 4#8 ∨ opc = 0x12#8 ∨ opc = 0x13#8 then some true
      else none
  | .mx => if e < 2 then some true else none
  | .cp => if e < 2 then some true else none
  | _ => if e = 0 then some true else none

/-- The kind of a port's reply tokens (R314). -/
def replyVec (opc : BitVec 8) (d : PortDesc) : Bool := (decide (opc = 1#8) || decide (opc = 2#8) || decide (opc = 5#8) || decide (opc = 0x11#8)) && d.wid

/-- Steps that suffice to pass every operator of every region once. -/
def opFuel (v : State) : Nat := (v.dist.insts.map fun i => i.ops.length).sum + 1

/-- The consumer ends of the channel that starts on a local link. -/
def consumers (v : State) (n : Node) (site : Site) (out : Nat × Nat) : List (BitVec 12 × Nat × Nat) :=
  match follow v (routeFuel v) site out.1 out.2 with
  | some d => reaches v n (opFuel v) 0 d
  | none => []

/-- Every consumer of a channel takes tokens of a kind. -/
def kindMeets (v : State) (xs : List (BitVec 12 × Nat × Nat)) (vec : Bool) : Bool :=
  xs.all fun x => match endKind v x.1 x.2.1 with
    | some k => k == vec
    | none => true

/-- The port that an AG drives directly. -/
def drives (v : State) (loc : PortAt) (asrc : BitVec 2) : Bool :=
  let ag : AgAt := ⟨loc.site, bits asrc 0 1⟩
  agDirect v ag && decide (agPort v ag = loc)

/-- One port (R328). -/
def portCheck (v : State) (n : Node) (loc : PortAt) : Check := do
  let (opc, d) := portDescOf v loc
  if opc = 0#8 then .ok ()
  else do
    let iused := bitAt (portBinding v loc) 14
    let ru := portRused v loc
    must lsBadSelector (!(opLoad opc || decide (opc = 0x15#8)) || ru)
    must lsBadSelector (opAtomic opc || decide (opc = 0x15#8) || opLoad opc || !d.ack || ru)
    must lsBadSelector (!d.chan || iused)
    must lsBadSelector (opLoad opc || decide (0x16 ≤ opc.toNat) || iused)
    must lsBadSelector (portRowOk opc.toNat d)
    must lsBadSelector (d.chan || drives v loc d.asrc)
    must lsBadSelector (d.chan || !(List.range 8).any fun k =>
      let (o2, d2) := portDescOf v ⟨loc.site, BitVec.ofNat 3 k⟩
      decide (k ≠ loc.port.toNat) && decide (o2 ≠ 0#8) && decide (d2.asrc = d.asrc))
    must lsBadSelector (!ru || kindMeets v (consumers v n loc.site (portReply v loc)) (replyVec opc d))

/-! ## Engines (R241, R242) -/

/-- An engine's program ends as R241 says; an engine whose program was never written has none. -/
def engCheck (v : State) (n : Node) (site : Site) : Check := do
  let words := (List.range 64).map fun k => engProgWord v site k
  let metas := (List.range 64).map fun k => engMeta v site k
  let last := lastEntry v site + 1
  if (words.all fun w => decide (w = 0#128)) && metas.all fun m => decide (m = 0#32) then .ok ()
  else do
    must lsBadOpcode ((words.take last).all fun w => decide (bits w 120 8 ≠ 0#8))
    must lsBadOpcode (((words.drop last).all fun w => decide (w = 0#128)) && (metas.drop last).all fun m => decide (m = 0#32))
  let b := engBinding v site
  must lsBadSelector (!bitAt b 35 || kindMeets v (consumers v n site (8, (bits b 20 4).toNat)) (!bitAt b 28))

/-! ## Operators (R239, R306, R72) -/

/-- The routing entries of an instance that lead to an input of an operator. -/
def opInputs (v : State) (i : Inst) (loc : OpAt) (idx : Nat) : Nat :=
  ((List.range 160).filter fun k =>
    match Table.get none v.fab.routes (inKey loc.site (k / 16) (k % 16)) with
    | some r => decide (r.inst = i.id) && bitAt r.ent 14 && decide (bits r.ent 12 2 = loc.slot) && decide ((bits r.ent 10 2).toNat = idx)
    | none => false).length

/-- One operator (R239, R306). -/
def opCheck (v : State) (i : Inst) (n : Node) (loc : OpAt) : Check := do
  let c := opCfgOf v loc
  must lsBadSelector ((List.range 4).all fun k => decide (opInputs v i loc k = if k < c.nin.toNat then 1 else 0))
  must lsBadSelector (decide (opCode v loc ≠ 6) ||
    (i.has (bits c.opt 16 12) && decide (siteKind (bits c.opt 16 12) = .mt) &&
      kindMeets v ((opDests v loc).flatMap fun d => reaches v n (opFuel v) 0 d) (!bitAt c.opt 28)))

/-- Every routing entry of an instance into an operator slot names a slot of its own and an input below its NIN (R239, R168). -/
def opEntriesOk (v : State) (i : Inst) : Bool :=
  v.fab.routes.all fun (x : Nat × Option Route) =>
    match x.2 with
    | none => true
    | some r =>
      let site : Site := BitVec.ofNat 12 ((x.1 - 65536) / 256)
      !(decide (r.inst = i.id) && bitAt r.ent 14) ||
        i.ops.contains (site, bits r.ent 12 2) && decide ((bits r.ent 10 2).toNat < (opCfgOf v ⟨site, bits r.ent 12 2⟩).nin.toNat)

/-- The operators that follow an operator directly, CARRY aside. -/
def opNext (v : State) (loc : OpAt) : List OpAt :=
  (opDests v loc).filterMap fun d => match d with
    | .op l _ => if opCode v l = 3 then none else some l
    | .endp _ _ => none

/-- The operators at the end of chains of `n` operators without a CARRY. -/
def opChains (v : State) : Nat → List OpAt → List OpAt
  | 0, xs => xs
  | n + 1, xs => opChains v n (xs.flatMap fun x => opNext v x).eraseDups

/-- A1 (R72): a cycle of operators alone passes a CARRY. A chain as long as there are operators closes a cycle. The bound on the tokens
of a cycle holds by R58 and R60: an end's initial tokens lie within its depth, and a CARRY has two entries of its own (DEDUCED,
log 97). -/
def cyclesOk (v : State) (i : Inst) : Bool :=
  let ops := (i.ops.map fun x => (⟨x.1, x.2⟩ : OpAt)).filter fun l => decide (opCode v l ≠ 3)
  (opChains v (ops.length + 1) ops).isEmpty

/-! ## Channels that leave the region (R107) -/

/-- The narrowest scope that holds two sites (DEDUCED, log 99). -/
def scopeBetween (a b : Site) : Nat := if siteDie a = siteDie b then 1 else 2

/-- The sites of an instance's elements. -/
def instSites (i : Inst) : List Site := ((i.elems.map fun e => e / 4).eraseDups).map fun k => BitVec.ofNat 12 k

/-- Every channel that starts at a site and crosses between regions, as `crosses` says of its consumer, passes a WIDEN that is wide
enough. -/
def widensOk (v : State) (n : Node) (site : Site) (crosses : Site → Bool) : Bool :=
  (localOuts v site).all fun out =>
    (consumers v n site out).all fun x => !crosses x.1 || decide (scopeBetween site x.1 ≤ x.2.2)

/-- Every channel between the region's elements and an element outside passes a WIDEN that is wide enough: those that leave it, and
those that enter it from a region configured earlier (R221). -/
def scopesOk (v : State) (i : Inst) (n : Node) : Bool :=
  ((instSites i).all fun site => widensOk v n site fun x => !i.has x) &&
  v.dist.insts.all fun j =>
    decide (j.id = i.id) || decide (j.st = .ended) || (instSites j).all fun site => i.has site || widensOk v n site i.has

/-! ## The whole check (R221) -/

/-- The memory tiles of an instance: those whose ports or stash belong to it. -/
def mtCheck (v : State) (n : Node) (site : Site) : Check := do
  eachOf (List.range 2) fun j => agCheck v ⟨site, BitVec.ofNat 1 j⟩
  eachOf (List.range 8) fun k => portCheck v n ⟨site, BitVec.ofNat 3 k⟩

/-- What spans the frames of one site's element. -/
def siteCheck (v : State) (n : Node) (site : Site) : Check :=
  match siteKind site with
  | .ce => ceCheck v site
  | .mt => mtCheck v n site
  | _ => engCheck v n site

/-- The instance check (R221). -/
def instCheck (v : State) (i : Inst) (n : Node) : Check := do
  eachOf (instSites i) (siteCheck v n)
  eachOf i.ops fun x => opCheck v i n ⟨x.1, x.2⟩
  must lsBadSelector (opEntriesOk v i)
  must lsCycle (cyclesOk v i)
  must lsScope (scopesOk v i n)

/-! ## WIDEN (R309) -/

/-- A channel passes an operator. -/
def throughOp (v : State) (loc : OpAt) : Nat → Dest → Bool
  | 0, _ => false
  | k + 1, d =>
    match d with
    | .endp _ _ => false
    | .op l _ => decide (l = loc) || (opDests v l).any (throughOp v loc k)

/-- An instance sends on a channel that passes an operator. -/
def sendsThrough (v : State) (loc : OpAt) (j : Inst) : Bool :=
  decide (j.st ≠ .ended) && (instSites j).any fun site => (localOuts v site).any fun out =>
    match follow v (routeFuel v) site out.1 out.2 with
    | some d => throughOp v loc (opFuel v) d
    | none => false

/-- The sender's region of a WIDEN (R107): that of the element whose channel passes it, which its slot may not belong to. -/
def widenSender (s : State) (loc : OpAt) : Option Inst :=
  match s.dist.insts.find? (sendsThrough s loc) with
  | some i => some i
  | none => opOwner s loc

/-- Begin a release of the sender's region at a level's scope (R105, R107), clamped under R108. -/
def beginRelease (s : State) (loc : OpAt) (lvl : BitVec 3) : State :=
  match opOwner s loc, widenSender s loc with
  | some i, some from0 =>
    match findNode s i.node with
    | none => s
    | some n =>
      let s := releaseRegion s from0 (n.scope lvl)
      if n.clamps lvl then countClamp (setEstat s (some i) 1#32) n else s
  | _, _ => s

/-- WIDEN (R309): with no release in progress a token at the head begins one; once that release has completed, the token goes on
in the next cycle. -/
def execWiden (loc : OpAt) (cfg : OpCfg) (s : State) : Host.Outcome State Fault Refusal :=
  opFire loc (fun s =>
    match opHead s loc 0 with
    | none => none
    | some t =>
      match (getOp s loc).widen with
      | .idle =>
        let s := beginRelease s loc (bits cfg.opt 0 3)
        some (setOp s loc { getOp s loc with widen := .releasing })
      | .releasing => none
      | .released _ =>
        if opRoom s loc cfg 0 then
          let s := opSend (opPop s loc 0) loc 0 t
          some (setOp s loc { getOp s loc with widen := .idle })
        else none) s

/-- WIDEN_RELEASE_COMPLETE (R309, R105): every write of the release has arrived, so the token it covers may emerge. -/
def execWidenReleaseComplete (site : BitVec 12) (slot : BitVec 2) (s : State) : Host.Outcome State Fault Refusal :=
  let loc : OpAt := ⟨site, slot⟩
  let busy := writesAway s (instNo (widenSender s loc))
  let o := getOp s loc
  if o.widen = .releasing ∧ !busy then .next (setOp s loc { o with widen := .released (now s), lastFire := now s }) else .next s

/-! ## Records of saved queues (R310) -/

/-- BUF of a saved operator, from the frames of its instance's image, where the save left it. -/
def savedBuf (v : Save) (i : Inst) (k : Nat) : Nat :=
  let site : Site := BitVec.ofNat 12 (k / 4)
  let t : Shift := ⟨i.dbx.toInt - v.dbx, i.dby.toInt - v.dby⟩
  match (i.image.map fun f : Frame => f).find? fun f => decide (f.cls = 4) && decide (f.idx = 16 + k % 4) && decide (t.index f.site = site) with
  | some f => replayBuf ⟨0#4, 0#5, 0#128, bits f.2 160 96⟩
  | none => 0

/-- The same for the records of a saved instance. -/
def loseSaved (home : Nat) (s : State) (v : Save) : Save :=
  match findInst s v.inst with
  | none => v
  | some i =>
    { v with ops := v.ops.map fun ko =>
        let gone := recordsIn ko.2 (queueHome s i (savedBuf v i ko.1)) home
        if gone.isEmpty then ko else (ko.1, { ko.2 with lost := ko.2.lost ++ gone }) }

/-- The same for every queue. -/
def loseAll (s : State) (home : Nat) : State :=
  let s := (s.fab.ops.map fun ko => ko.1).foldl (loseRecords home) s
  { s with dist := { s.dist with saves := s.dist.saves.map (loseSaved home s) } }

end Sys2Proof.Machine
end

