-- ==== Sys2Proof/Machine/Mapper.lean ====
section
/-! DEFINITION. The Colad mapper (R36, R212, R214, R219, R364): from a portable graph and a placement with routes to the image that it
places. Which placement and which routes the mapper finds is a free value (DESIGN CHOICE, log 94); what they make of the graph is
computed here, and whatever is no placement or no route of the graph makes nothing. -/

namespace Sys2Proof.Machine

/-- One stretch of a route: the port, and the VC on the link behind it. -/
structure Hop where
  port : Nat
  vc : Nat
  deriving DecidableEq, Repr

/-- What the mapper has found: for each ordinal its site, and in two further bits an AG's sub-index or an operator's slot; for each
channel record that is in use, in their order, the hops from the producer's output to the consumer. -/
structure Plan where
  places : List (BitVec 12 × BitVec 2)
  paths : List (List Hop)
  deriving DecidableEq, Repr

/-- A plan's bytes: the count of ordinals in 2 bytes, then 2 bytes an ordinal. -/
def planPlaces : Nat → List Byte → List (BitVec 12 × BitVec 2) × List Byte
  | 0, bs => ([], bs)
  | n + 1, bs =>
    let w : BitVec 16 := BitVec.ofNat 16 (leNat (bs.take 2))
    let r := planPlaces n (bs.drop 2)
    ((bits w 0 12, bits w 12 2) :: r.1, r.2)

/-- For each channel the count of its hops in a byte, then a byte a hop: port in [7:4], VC in [3:0]. -/
def planPaths : Nat → List Byte → List (List Hop)
  | 0, _ => []
  | n + 1, bs =>
    match bs with
    | [] => []
    | k :: rest =>
      ((rest.take k.toNat).map fun (b : Byte) => (⟨b.toNat / 16, b.toNat % 16⟩ : Hop)) :: planPaths n (rest.drop k.toNat)

/-- Read a plan (DESIGN CHOICE, log 94). -/
def parsePlan (bs : List Byte) : Plan :=
  let r := planPlaces (leNat (bs.take 2)) (bs.drop 2)
  ⟨r.1, planPaths r.2.length r.2⟩

/-- The place of an ordinal. -/
def Plan.place (p : Plan) (o : Nat) : BitVec 12 × BitVec 2 := p.places.getD o (0#12, 0#2)

/-- The site of an ordinal. -/
def Plan.site (p : Plan) (o : Nat) : Site := (p.place o).1

/-! ## Placement -/

/-- The kind of element at a site, as a kind code of R219. -/
def kindCode (x : Site) : Nat :=
  match siteKind x with
  | .ce => 1
  | .mt => 2
  | .ag => 3
  | .mx => 4
  | .ste => 5
  | .hpu => 6
  | .cp => 7

/-- The ordinals that a graph uses. -/
def ordinals (fs : List Frame) (n : Nat) : List Nat := (List.range n).filter fun o => decide (ordKind fs o ≠ 0)

/-- An ordinal stands at a place of its kind outside the corners; an AG in a memory tile of the graph. Which AG ordinal stands in which
tile the graph does not hold, so the plan says it (DESIGN CHOICE, log 151); in a tile the AG declared first is AG 0 (R200). -/
def placeOk (fs : List Frame) (p : Plan) (os : List Nat) (o : Nat) : Bool :=
  let x := p.place o
  let k := ordKind fs o
  !isCorner x.1 &&
  (if k = 8 then true
    else if k = 3 then
      (os.any fun m => decide (ordKind fs m = 2) && decide (p.site m = x.1)) &&
        (decide (x.2 = 0#2) || (decide (x.2 = 1#2) && os.any fun q => decide (q < o) && decide (ordKind fs q = 3) && decide (p.place q = (x.1, 0#2))))
    else decide (kindCode x.1 = k) && decide (x.2 = 0#2))

/-- An AG stands where a frame of its memory tile's ordinal has one's program. -/
def agPlaced (fs : List Frame) (p : Plan) (os : List Nat) (f : Frame) : Bool :=
  os.any fun o => decide (ordKind fs o = 3) && decide (p.place o = (p.site f.ordinal, BitVec.ofNat 2 f.sub))

/-- What an ordinal takes up, apart from every other: its element, or its slot. -/
def ordTakes (fs : List Frame) (p : Plan) (o : Nat) : Nat :=
  let x := p.place o
  if ordKind fs o = 8 then 16384 + 4 * x.1.toNat + x.2.toNat
  else if ordKind fs o = 3 then 4 * x.1.toNat + 1 + x.2.toNat
  else 4 * x.1.toNat

/-- The plan places every ordinal, each apart from the others. -/
def placesOk (fs : List Frame) (p : Plan) : Bool :=
  let os := ordinals fs 16384
  (os.all fun o => decide (o < p.places.length)) && os.all (placeOk fs p os) && (os.map (ordTakes fs p)).Nodup &&
    (fs.filter fun f => decide (f.cls = 3)).all (agPlaced fs p os)

/-! ## Routes -/

/-- The channel records in use, with their places: a record of zeros stands for a channel only where ordinal 0 is a CE that uses vo0 and
vi0 and no other record names either (DESIGN CHOICE, log 151). -/
def channels (fs : List Frame) : List (Nat × ChanRec) :=
  let cs := (chanPlaces fs).map fun c => (c, chanBits fs c)
  let named := (cs.filter fun x => decide (x.2 ≠ 0#64)).map fun x => (x.1, chanRec x.2)
  let ends := match fs.find? fun f => decide (f.cls = 1) && decide (f.ordinal = 0) && decide (f.idx = 3) with
    | some f => bitAt f.2 0 && bitAt f.2 128
    | none => false
  let loop := decide (ordKind fs 0 = 1) && ends &&
    !named.any fun x => (decide (x.2.src = 0) && decide (x.2.srcEnd = 0)) || (decide (x.2.dst = 0) && decide (x.2.dstEnd = 0))
  if loop then
    match cs.find? fun x => decide (x.2 = 0#64) with
    | some x => (x.1, chanRec x.2) :: named
    | none => named
  else named

/-- A routing entry at its place: site, input port, VC, and its bits (R238). -/
structure RouteBit where
  site : Site
  port : Nat
  vc : Nat
  ent : BitVec 16
  deriving DecidableEq, Repr

/-- An entry to an output port and VC. -/
def entPort (q w : Nat) : BitVec 16 := BitVec.ofNat 16 (32768 + 1024 * q + 64 * w)

/-- An entry to an input of an operator slot. -/
def entOp (slot : BitVec 2) (i : Nat) : BitVec 16 := BitVec.ofNat 16 (49152 + 4096 * slot.toNat + 1024 * i)

/-- Where a channel ends: at an element's site, behind a local port, or at an operator's input. -/
inductive Goal where
  | elem (x : Site)
  | op (x : Site) (slot : BitVec 2) (i : Nat)
  deriving DecidableEq, Repr

/-- A data VC and a port that the site has. -/
def Hop.ok (h : Hop) (x : Site) : Bool := portPresent x h.port && decide (4 ≤ h.vc) && decide (h.vc < 16)

/-- The entries of a channel from a router input on, with its last hop; none where the hops do not lead to its end. -/
def routeFrom (g : Goal) : List Hop → Site → Nat → Nat → Option (List RouteBit × Option Hop)
  | [], x, port, vc =>
    match g with
    | .op y slot i => if y = x then some ([⟨x, port, vc, entOp slot i⟩], none) else none
    | .elem _ => none
  | h :: hs, x, port, vc =>
    if !h.ok x then none
    else if 8 ≤ h.port then
      match g with
      | .elem y => if y = x ∧ hs.isEmpty then some ([⟨x, port, vc, entPort h.port h.vc⟩], some h) else none
      | .op _ _ _ => none
    else (routeFrom g hs (linkSite x h.port) (linkInPort h.port) h.vc).map fun r => (⟨x, port, vc, entPort h.port h.vc⟩ :: r.1, r.2)

/-- A routed channel: its record's place, the record, its entries, its first and its last hop. -/
structure Routed where
  place : Nat
  rcd : ChanRec
  ents : List RouteBit
  first : Hop
  last : Option Hop
  deriving DecidableEq, Repr

/-- Route one channel: an element sends on a local port of its router, an operator on any output. -/
def routeChan (fs : List Frame) (p : Plan) (x : Nat × ChanRec) (hs : List Hop) : Option Routed :=
  let c := x.2
  let g : Goal := if ordKind fs c.dst = 8 then .op (p.site c.dst) (p.place c.dst).2 c.dstEnd else .elem (p.site c.dst)
  let at0 := p.site c.src
  match hs with
  | [] => none
  | h :: rest =>
    if !h.ok at0 then none
    else if ordKind fs c.src = 8 then
      if 8 ≤ h.port then
        (match g with
          | .elem y => if y = at0 ∧ rest.isEmpty then some ⟨x.1, c, [], h, some h⟩ else none
          | .op _ _ _ => none)
      else (routeFrom g rest (linkSite at0 h.port) (linkInPort h.port) h.vc).map fun r => ⟨x.1, c, r.1, h, r.2⟩
    else if 8 ≤ h.port then (routeFrom g rest at0 h.port h.vc).map fun r => ⟨x.1, c, r.1, h, r.2⟩
    else none

/-- Route every channel; none where one has no route. -/
def routeAll (fs : List Frame) (p : Plan) : List (Nat × ChanRec) → List (List Hop) → Option (List Routed)
  | [], _ => some []
  | _ :: _, [] => none
  | x :: xs, h :: hs =>
    match routeChan fs p x h, routeAll fs p xs hs with
    | some r, some rs => some (r :: rs)
    | _, _ => none

/-! ## The frames of the image -/

/-- Whether a frame is that of an element, by its class, ordinal, sub-index and INDEX. -/
def Frame.isAt (f : Frame) (cls o sub idx : Nat) : Bool :=
  decide (f.cls = cls) && decide (f.ordinal = o) && decide (f.sub = sub) && decide (f.idx = idx)

/-- An AG's frame, by its place. -/
def agFrameAt (fs : List Frame) (p : Plan) (o : Nat) (f : Frame) : Bool :=
  decide (f.cls = 3) && decide (f.idx = 8) && decide (f.sub = (p.place o).2.toNat) && decide (ordKind fs f.ordinal = 2) &&
    decide (p.site f.ordinal = p.site o)

/-- Where the producer end of a channel stands in a payload: the VC, and the local port's bit where there is one (R227, R232, R233,
R242). -/
def srcField (fs : List Frame) (p : Plan) (c : ChanRec) (f : Frame) : Option (Nat × Option Nat) :=
  match ordKind fs c.src with
  | 1 => if c.srcEnd < 8 ∧ f.isAt 1 c.src 0 3 then some (128 + 8 * c.srcEnd + 4, none) else none
  | 2 => if c.srcEnd < 8 ∧ f.isAt 2 c.src 0 c.srcEnd then some (85, some 89) else none
  | 3 => if agFrameAt fs p c.src f then some (12, some 11) else none
  | 8 => none
  | _ => if f.isAt 6 c.src 0 0 then some (16 + 4 * c.srcEnd, none) else none

/-- Where the consumer end of a channel stands in a payload. -/
def dstField (fs : List Frame) (p : Plan) (c : ChanRec) (f : Frame) : Option (Nat × Option Nat) :=
  match ordKind fs c.dst with
  | 1 => if f.isAt 1 c.dst 0 3 then some (16 * c.dstEnd + 12, none) else none
  | 2 => if f.isAt 2 c.dst 0 c.dstEnd then some (79, some 83) else none
  | 3 => if agFrameAt fs p c.dst f then some (5, some 9) else none
  | 8 => none
  | _ => if f.isAt 6 c.dst 0 0 then some (if c.dstEnd = 2 then 24 else 8 + 4 * c.dstEnd, none) else none

/-- Write a hop into an end's fields. -/
def putEnd (w : BitVec 256) (at0 : Option (Nat × Option Nat)) (h : Hop) : BitVec 256 :=
  match at0 with
  | none => w
  | some (v, lp) =>
    let w := setBits w v (BitVec.ofNat 4 h.vc)
    match lp with
    | some b => setBits w b (BitVec.ofNat 1 (h.port - 8))
    | none => w

/-- The ends of a channel in a frame. -/
def putEnds (fs : List Frame) (p : Plan) (f : Frame) (w : BitVec 256) (r : Routed) : BitVec 256 :=
  let w := match r.last with
    | some h => putEnd w (dstField fs p r.rcd f) h
    | none => w
  putEnd w (srcField fs p r.rcd f) r.first

/-- A notice channel leaves on the VC and local port of its end's own channel (R59). -/
def noticeOk (fs : List Frame) (rs : List Routed) (r : Routed) : Bool :=
  let k := ordKind fs r.rcd.src
  !((decide (k = 1) || decide (k = 2)) && decide (8 ≤ r.rcd.srcEnd)) ||
  rs.any fun x => decide (x.rcd.dst = r.rcd.src) && decide (x.rcd.dstEnd = r.rcd.srcEnd - 8) && decide (x.last = some r.first)

/-- The outputs of an operator's frame: channel records become ports and VCs (R219); none where an entry names no channel of that
output. -/
def opOuts (rs : List Routed) (o : Nat) (w : BitVec 256) : Nat → Option (BitVec 256)
  | 0 => some w
  | j + 1 =>
    match opOuts rs o w j with
    | none => none
    | some x =>
      match rs.find? fun r => decide (r.place = (bits w (32 + 8 * j) 8 : BitVec 8).toNat) && decide (r.rcd.src = o) && decide (r.rcd.srcEnd = j) with
      | some r => some (setBits x (32 + 8 * j) (BitVec.ofNat 8 (16 * r.first.port + r.first.vc)))
      | none => none

/-- Rewrite the ordinals that a payload holds in site fields: fork tables (R364), and as R216 names them AGRP, SSITE and REPLAY.MT
(DEDUCED, log 153). -/
def Plan.payload (p : Plan) (f : Frame) (w : BitVec 256) : BitVec 256 := sitesOf (fun x => p.site x.toNat) (f.1, w)

/-- An address with its site, INDEX and bank, in place of an ordinal. -/
def siteAddr (a : BitVec 64) (x : Site) : BitVec 64 :=
  setBits (setBits (setBits a 58 (siteDie x)) 52 ((siteX x).setWidth 6)) 46 ((siteY x).setWidth 6)

/-- The address of a frame once its ordinal is placed: an operator's INDEX names its slot. -/
def Plan.addr (p : Plan) (a : BitVec 64) : BitVec 64 :=
  let o := Frame.ordinal (a, 0#256)
  let b := siteAddr a (p.site o)
  if Frame.cls (a, 0#256) = 4 then setBits b 0 (BitVec.ofNat 16 (16 + (p.place o).2.toNat)) else b

/-- One frame of an element or operator, placed. -/
def mapFrame (fs : List Frame) (p : Plan) (rs : List Routed) (f : Frame) : Option Frame :=
  if !classFits fs f then none
  else if f.cls = 4 then (opOuts rs f.ordinal f.2 (bits f.2 8 5).toNat).map fun w => (p.addr f.1, p.payload f w)
  else some (p.addr f.1, p.payload f (rs.foldl (putEnds fs p f) f.2))

/-- A binding's TARGET follows its frame. -/
def mapBinding (p : Plan) (w : BitVec 256) (at0 : Nat) : BitVec 256 :=
  let a : BitVec 64 := bits w at0 64
  if Frame.placed (a, 0#256) then setBits w at0 (p.addr a) else w

/-- The image control frames that stay: the header, as that of a placed image of `n` records, the bindings, and the data blocks. -/
def mapCtl (p : Plan) (n : Nat) (f : Frame) : Option Frame :=
  let i := f.idx
  if i = 0 then some (f.1, setBits (setBits f.2 160 (BitVec.ofNat 32 n)) 0 0#1)
  else if i ≤ 0x1FF then some (f.1, mapBinding p (mapBinding p f.2 0) 128)
  else if 0x4000 ≤ i then some f
  else none

/-- The routing frames of all channels: one for each router input port, in ascending site and port. -/
def routeFrames (es : List RouteBit) : List Frame :=
  let t : Table (BitVec 256) := es.foldl (fun t e =>
    let k := e.site.toNat * 16 + e.port
    Table.insert t k (setBits (Table.get 0#256 t k) (16 * e.vc) e.ent)) []
  t.map fun x => (siteAddr (BitVec.ofNat 64 (4 * 2 ^ 60 + x.1 % 16)) (BitVec.ofNat 12 (x.1 / 16)), x.2)

/-- All of a list, where each answers. -/
def allSome {α : Type} : List (Option α) → Option (List α)
  | [] => some []
  | none :: _ => none
  | some x :: xs => (allSome xs).map fun ys => x :: ys

/-- The image that a plan makes of a portable graph; none where it is no placement of it, two channels meet on a VC of a link, or the
image exceeds the limit of R218. -/
def mapGraph (fs : List Frame) (p : Plan) : Option (List Frame) :=
  if !placesOk fs p then none
  else
    match routeAll fs p (channels fs) p.paths with
    | none => none
    | some rs =>
      let es := rs.flatMap fun r => r.ents
      let apart := (es.map fun e => (e.site.toNat * 16 + e.port) * 16 + e.vc).Nodup
      let routes := routeFrames es
      match allSome ((fs.filter Frame.placed).map (mapFrame fs p rs)) with
      | none => none
      | some placed =>
        let n := ((fs.filter fun f => !f.placed).filter fun f => decide (f.idx ≤ 0x1FF) || decide (0x4000 ≤ f.idx)).length + placed.length + routes.length
        let out := (fs.filter fun f => !f.placed).filterMap (mapCtl p n) ++ placed ++ routes
        if apart && rs.all (noticeOk fs rs) && distinctAddr out && framesFit out then some out else none

/-! ## The cache (R36) -/

/-- The free allocatable elements, with those of a region that the graph is to take over. -/
def freeSet (s : State) (onto : Option Nat) : List Nat :=
  (List.range 16384).filter fun e =>
    decide (e % 4 = 0 ∨ (e % 4 < 3 ∧ siteKind (BitVec.ofNat 12 (e / 4)) = .mt)) &&
    (elemFree s e || (match onto with
      | some o => decide (Table.get 0 s.fab.owner e = o + 1)
      | none => false))

/-- What the cache holds for a digest and a set of sites. -/
def cached (s : State) (digest : BitVec 256) (free : List Nat) : Option Mapped :=
  s.dist.mapped.find? fun m => decide (m.digest = digest) && decide (m.free = free)

/-- The elements of an image lie in a set of sites, and its operator slots are free, or the other region's that it takes over. -/
def standsIn (s : State) (onto : Option Nat) (free : List Nat) (fs : List Frame) : Bool :=
  ((imageElems fs).all free.contains) && (imageOps fs).all fun x => s.dist.insts.all fun i => decide (some i.id = onto) || !i.ops.contains x

/-- What the mapper makes of a graph over a set of sites: the image of the plan that it finds (R36, R212) (DESIGN CHOICE, log 94). -/
def mapOver (s : State) (onto : Option Nat) (digest : BitVec 256) (fs : List Frame) (free : List Nat) : Option (List Frame) :=
  match mapGraph fs (parsePlan (Config.mapPlan digest free)) with
  | some image => if standsIn s onto free image then some image else none
  | none => none

/-- The mapper's image of a node's portable graph over the sites that are free: from its cache, or made now; none where it finds no
placement. -/
def mappedImage (s : State) (n : Node) (onto : Option Nat) : Option (List Frame) :=
  let free := freeSet s onto
  let digest : BitVec 256 := n.fld 0 256
  match cached s digest free with
  | some m => if standsIn s onto free m.image then some m.image else none
  | none => mapOver s onto digest (nodeImage s n) free

/-- The image with which a portable graph is dispatched, which the cache then holds under its digest and the set of sites (R36). -/
def mapNode (s : State) (n : Node) (onto : Option Nat) : State × Option (List Frame) :=
  match mappedImage s n onto with
  | none => (s, none)
  | some image =>
    let free := freeSet s onto
    if (cached s (n.fld 0 256) free).isSome then (s, some image)
    else ({ s with dist := { s.dist with mapped := s.dist.mapped ++ [⟨n.fld 0 256, free, image⟩] } }, some image)

end Sys2Proof.Machine
end

