-- ==== Sys2Proof/Machine/Waves.lean ====
section
/-! DEFINITION. The in-flight count and quiescence of a region (R73 to R75, R393), the completion of nodes (R51), budgets and the
watchdog (R382, R383, R391). -/

namespace Sys2Proof.Machine

/-! ## The in-flight count (R73) -/

/-- What a CE holds: FREED notices, FENCEs, entries of its command port. -/
def ceCount (c : Ce) : Nat :=
  (c.notices.toList.map Notices.total).sum + c.cmdq.length + (c.tasks.toList.filter fun k => k.fence).length

/-- What a port holds: requests, tokens taken, replies owed, notices. A reply that awaits an armed wait is not counted (R393). -/
def portCount (p : Port) : Nat :=
  p.reqs.length + p.part.length + p.held.length + (p.replies.filter fun e => e.after.isEmpty).length + p.notices.total

/-- What a memory tile holds. -/
def mtCount (m : Mt) : Nat := (m.ports.toList.map portCount).sum + m.syncq.length

/-- What an operator holds: tokens that have fired, an INIT that is due, the queue of REPLAY. -/
def opCount (o : OpRun) : Nat :=
  o.outq.length + (o.recorded - o.emitted) + (if o.initDue.isSome then 1 else 0) + (if o.lap2 then 1 else 0)

/-- The remote requests of a region whose answer is awaited and that no port or job holds an entry for: those of its operators, and the
write-backs of its tiles (R73). -/
def regionRequests (s : State) (i : Inst) : Nat :=
  (s.links.remotes.filter fun r =>
    match r.who with
    | .op site slot => i.ops.contains (site, slot)
    | .writeBack n => decide (n = i.id)
    | _ => false).length

/-- The elements of a region that are stopped on a fault: each counts 1 until its REPAIR is consumed (R373). -/
def regionFaults (s : State) (i : Inst) : Nat :=
  ((instAgs i).filter fun l =>
    match (getAg s l).st with
    | .faulted _ _ => true
    | _ => false).length +
  ((instCes i).map fun site => ((getCe s site).tasks.toList.filter fun k => decide (k.st = .trapped)).length).sum

/-- The in-flight count of a region. -/
def regionCount (s : State) (i : Inst) : Nat :=
  ((s.fab.bufs.filter fun kb => instBuf s i kb.1).map fun kb => kb.2.q.length).sum +
  ((s.fab.ces.filter fun kc => i.elems.contains (kc.1 * 4)).map fun kc => ceCount kc.2).sum +
  ((s.fab.mts.filter fun km => i.elems.contains (km.1 * 4)).map fun km => mtCount km.2).sum +
  (i.ops.map fun x => opCount (getOp s ⟨x.1, x.2⟩)).sum +
  (s.dist.jobs.filter fun j => decide (j.inst = i.id)).length + (s.dist.arrived.filter fun x => decide (x.2.inst = i.id)).length +
  regionRequests s i + regionFaults s i

/-- A fault of the instance is pending (R373). -/
def faultPending (s : State) (i : Inst) : Bool :=
  decide (0 < regionFaults s i) ||
  s.dies.toList.any fun d => (d.pend.any fun f => decide (f.inst = i.id)) || d.ring.any fun r => decide (r.inst = i.id) && !r.repaired

/-- An element of the instance is halted by a debugger (R392). -/
def anyHalted (s : State) (i : Inst) : Bool :=
  i.elems.any fun e =>
    let site : Site := BitVec.ofNat 12 (e / 4)
    if e % 4 ≠ 0 then (getAg s ⟨site, BitVec.ofNat 1 (e % 4 - 1)⟩).halted
    else
      match siteKind site with
      | .ce => (getCe s site).halted
      | .mt => (getMt s site).halted
      | .mx => (getMx s site).halted
      | .hpu => (getHpu s site).halted
      | .cp => (getCp s site).halted
      | .ste => (getSte s site).halted
      | _ => false

/-- An AG can go on without a token: its program runs, and it does not wait in AIDX for a token or for credits. -/
def agActive (s : State) (l : AgAt) : Bool :=
  let a := getAg s l
  let opc : BitVec 6 := bits (agWordAt s l a.pc.toNat) 58 6
  a.eos ||
  (decide (a.st = .running) && !(decide (opc = 5#6) && (headAt s (agCtl l)).isNone) && !(decide (opc = 7#6) && a.cren && decide (a.cr = 0#16)))

/-- Some element of the region is about to act: a bundle can fire, or an AG goes on. -/
def regionActive (s : State) (i : Inst) : Bool :=
  ((instCes i).any fun site => (nextTask s site).isSome) || (instAgs i).any (agActive s)

/-- A wave finds nothing: a count of 0, no injection, no fault pending, nothing halted, nothing about to act (R75, R393) (DEDUCED,
log 77). -/
def cleanWave (s : State) (i : Inst) : Bool :=
  !i.injected && decide (regionCount s i = 0) && !faultPending s i && !anyHalted s i && !regionActive s i

/-- DETECTION_WAVE (R75): two consecutive clean waves report the region quiescent. A region under a save or restore has none. -/
def execDetectionWave (inst : BitVec 32) (s : State) : Host.Outcome State Fault Refusal :=
  match findInst s inst.toNat with
  | none => .next s
  | some i =>
    if i.st ≠ .running then .next s
    else
      let n := if cleanWave s i then i.waves + 1 else 0
      .next (modInst s i.id fun i => { i with injected := false, waves := n, quiescent := decide (2 ≤ n) })

/-! ## Completion (R51) -/

/-- Every group index of a node has been issued (R41). -/
def allIssued (n : Node) : Bool :=
  decide (n.groups ≤ n.given) && n.reissue.isEmpty && n.ranges.all fun r => decide (r.hi ≤ r.lo)

/-- No AG of an instance waits for a group index or its end-of-stream answer (R393). -/
def noneHeld (s : State) (i : Inst) : Bool := (instAgs i).all fun l => decide ((getAg s l).st ≠ .heldGrp)

/-- The instance has stopped and none of its requests is under way: an aborted one completes like this (R383). -/
def instStopped (s : State) (i : Inst) : Bool :=
  decide (i.st = .ended) &&
  !(s.links.remotes.any fun r =>
    match r.who with
    | .port site _ => i.elems.contains (site.toNat * 4)
    | .op site slot => i.ops.contains (site, slot)
    | _ => false)

/-- A node can complete (R51). -/
def canComplete (s : State) (n : Node) : Bool :=
  let insts := nodeInsts s n
  decide (n.st = .pool) && allIssued n && !(insts.any fun i => decide (i.st ≠ .ended) && s.dist.insts.any (takesOver s i)) &&
  !(s.dist.jobs.any fun j => n.insts.contains j.inst) && !(s.dist.arrived.any fun x => n.insts.contains x.2.inst) &&
  (if n.aborting then insts.all (instStopped s)
    else
      (!insts.isEmpty || decide (n.groups = 0)) &&
      insts.all fun i => (i.quiescent && noneHeld s i) || instStopped s i)

/-- The writes of a closing node have arrived, and the sync unit of its completion sync word is free (R51, R85, R105). -/
def canFinish (s : State) (n : Node) : Bool :=
  decide (n.st = .closing) && !nodeWrites s n && syncReady s (syncSiteOf n)

/-- The later steps of a completion, once the first is done. -/
def finishWhenDone (s : State) (id : Nat) : State :=
  match findNode s id with
  | none => s
  | some n => if canFinish s n then finishNode s id else s

/-- NODE_COMPLETE (R51): a node that can complete makes its writes visible; once they have all arrived, the other steps follow. -/
def execNodeComplete (node : BitVec 32) (s : State) : Host.Outcome State Fault Refusal :=
  match findNode s node.toNat with
  | none => .next s
  | some n => .next (finishWhenDone (if canComplete s n then closeNode s n.id else s) n.id)

/-- BUDGET_EXHAUSTED (R382, R383): the cycles since first dispatch have reached a nonzero BUDGET. -/
def execBudgetExhausted (node : BitVec 32) (s : State) : Host.Outcome State Fault Refusal :=
  match findNode s node.toNat with
  | none => .next s
  | some n =>
    let budget := (n.fld 512 64 : BitVec 64).toNat
    match n.firstAt with
    | none => .next s
    | some t =>
      if budget ≠ 0 ∧ n.st = .pool ∧ !n.aborting ∧ t + budget ≤ now s then .next (abortNode s n.id 2#16) else .next s

/-! ## The watchdog (R391) -/

/-- The watchdog of an instance counts: it neither saves nor restores, no fault is pending, nothing is halted. -/
def dogCounts (s : State) (i : Inst) : Bool := decide (i.st = .running) && !i.frozen && !faultPending s i && !anyHalted s i

/-- One cycle of an instance's watchdog. -/
def dogTick (s : State) (i : Inst) : Inst :=
  if i.progress then { i with progress := false, dogs := 0 }
  else if !dogCounts s i then { i with dogs := 0 }
  else if regionCount s i = 0 then i
  else { i with dogs := i.dogs + 1 }

/-- One cycle of every watchdog. -/
def dogsTick (s : State) : State := { s with dist := { s.dist with insts := s.dist.insts.map (dogTick s) } }

/-- WATCHDOG_FIRE (R391): the count of an instance has reached N, and its node is aborted. -/
def execWatchdogFire (inst : BitVec 32) (s : State) : Host.Outcome State Fault Refusal :=
  match findInst s inst.toNat with
  | none => .next s
  | some i =>
    if 2 ^ s.hub.watchLg.toNat ≤ i.dogs ∧ i.st = .running then
      let s := { s with life := { s.life with live := { s.life.live with watchdogs := s.life.live.watchdogs + 1 } } }
      .next (abortNode s i.node 4#16)
    else .next s

end Sys2Proof.Machine
end

