-- ==== Sys2Proof/Machine/Loader.lean ====
section
/-! DEFINITION. From the pool to a running instance (R36, R37, R44, R45, R52, R220, R221, R387): dispatch, the global data blocks, the
writing of frames, the instance check, START, the switch to a shadow bank, and the residency gate (R386). -/

namespace Sys2Proof.Machine

/-! ## Placement (R36, R216) -/

/-- The even block translations of the package. -/
def allShifts : List Shift :=
  (List.range 15).flatMap fun a => (List.range 15).map fun b => ⟨Int.ofNat (2 * a) - 14, Int.ofNat (2 * b) - 14⟩

/-- Every element and operator slot of an image is free, or stands in the region that the new graph takes over. -/
def placeFree (s : State) (onto : Option Nat) (fs : List Frame) : Bool :=
  ((imageElems fs).all fun e => elemFree s e || (match onto with
    | some o => decide (Table.get 0 s.fab.owner e = o + 1)
    | none => false)) &&
  (imageOps fs).all fun x => s.dist.insts.all fun i => decide (some i.id = onto) || !i.ops.contains x

/-- The demand of an image is met by the free elements, with those of a region that it takes over (R36). -/
def demandHere (s : State) (onto : Option Nat) (fs : List Frame) : Bool :=
  allKinds.all fun k =>
    let held := match onto with
      | some o => (s.fab.owner.filter fun x => decide (x.2 = o + 1) && decide (elemKind x.1 = k)).length
      | none => 0
    decide (demand fs k ≤ freeElems s k + held)

/-- The node fits (R36, R38): the free elements meet its demand, and they hold a place for its image; a portable graph fits where the
mapper finds a placement over them. -/
def placeable (s : State) (n : Node) : Bool :=
  let fs := nodeImage s n
  demandFree s fs &&
  (if bitAt n.lrec 256 then
    (match mappedImage s n none with
      | some image => placeFree s none image
      | none => false)
  else allShifts.any fun t => t.ok fs && placeFree s none (fs.map t.frame))

/-! ## Virtual networks (R57, R69) -/

/-- The data VC of the link into a router input. -/
def vcIn (site : Site) (port vc : Nat) : Nat := inKey site port vc

/-- The data VC of the link behind a router output. -/
def vcOut (site : Site) (port vc : Nat) : Nat := 4194304 + (site.toNat * 16 + port) * 16 + vc

/-- The VCs that a routing entry at a router input names. -/
def entryVcs (site : Site) (port v : Nat) (w : BitVec 16) : List Nat :=
  if !bitAt w 15 then []
  else vcIn site port v :: (if bitAt w 14 then [] else [vcOut site (bits w 10 4).toNat (bits w 6 4).toNat])

/-- The VCs that a router frame names: of its entries, or of an operator's outputs. -/
def frameVcs (f : Frame) : List Nat :=
  if f.cls ≠ 4 then []
  else if f.idx < 10 then (List.range 16).flatMap fun v => entryVcs f.site f.idx v (bits f.2 (16 * v) 16)
  else (List.range (bits f.2 8 5).toNat).map fun j =>
    vcOut f.site (bits f.2 (36 + 8 * j) 4).toNat (bits f.2 (32 + 8 * j) 4).toNat

/-- The VC is one that a region with some elements can have: on a local link only at an element of its own. -/
def vcOwn (elems : List Nat) (k : Nat) : Bool :=
  let r := if k < 4194304 then k - 65536 else k - 4194304
  decide (r / 16 % 16 < 8) || elems.contains (r / 256 * 4)

/-- The VCs that the corners' routes carry (R14, R57). -/
def cornerVcs (s : State) : List Nat :=
  s.fab.routes.flatMap fun kr =>
    match kr.2 with
    | some r => if cornerId 0#2 ≤ r.inst then entryVcs (keyPlace kr.1).1 (keyPlace kr.1).2.1 (keyPlace kr.1).2.2 r.ent else []
    | none => []

/-- The VCs that other regions have reserved, until they are freed. -/
def vcsTaken (s : State) (me onto : Option Nat) : List Nat :=
  ((s.dist.insts.filter fun j => decide (some j.id ≠ me) && decide (some j.id ≠ onto)).flatMap fun j => j.vcs) ++ cornerVcs s

/-- The reservation of a region at its dispatch (R69): on every link that its routes cross, the data VCs that its routes name and no
other region has. -/
def reserve (s : State) (onto : Option Nat) (elems : List Nat) (fs : List Frame) : List Nat :=
  let taken := vcsTaken s none onto
  (fs.flatMap frameVcs).eraseDups.filter fun k => vcOwn elems k && !taken.contains k

/-- An element number after a translation. -/
def Shift.elem (t : Shift) (e : Nat) : Nat := (t.index (BitVec.ofNat 12 (e / 4))).toNat * 4 + e % 4

/-- Every VC that a saved instance's routes name is free after a translation: a restore that has begun completes (R178). -/
def restoreVcs (s : State) (i : Inst) (t : Shift) : Bool :=
  let taken := vcsTaken s (some i.id) none
  ((i.image.map t.frame).flatMap frameVcs).all fun k => !taken.contains k

/-- The sites of a save, and the VCs of its routes, are free after a translation that its image allows. -/
def restoreFits (s : State) (n : Node) (i : Inst) (v : Save) (t : Shift) : Bool :=
  let whole : Shift := ⟨i.dbx.toInt + t.dbx, i.dby.toInt + t.dby⟩
  whole.ok i.image && (!imageFixed (nodeImage s n) || decide (t = ⟨0, 0⟩)) &&
  ((v.elems.map t.elem).all (elemFree s)) && restoreVcs s i whole &&
  v.slots.all fun x => s.dist.insts.all fun j => !j.ops.contains (t.index x.1, x.2)

/-- A node of the pool has a saved instance that can be restored now (R176). -/
def restorable (s : State) (n : Node) : Bool :=
  decide (n.st = .pool) && !n.aborting && s.dist.saves.any fun v => n.insts.contains v.inst && (match findInst s v.inst with
    | some i => decide (i.st = .saved) && allShifts.any fun t => restoreFits s n i v t
    | none => false)

/-- The node is the first of the pool that can be dispatched (R38): no node before it can, and no placement hold keeps it. -/
def firstInPool (s : State) (n : Node) : Bool :=
  !heldBack s n && !(s.dist.nodes.any fun m =>
    poolBefore m n && gateMet s m && !heldBack s m && ((wantsInst m && placeable s m) || restorable s m))

/-! ## The residency gate (R386) -/

/-- One cycle of a node's gate: since when the gate alone holds it, as it could be dispatched otherwise, and since when its fraction
stands. -/
def gateOne (s : State) (n : Node) : Node :=
  if wantsInst n && n.insts.isEmpty && !gateMet s n && placeable s n && firstInPool s n then
    let f := residency s n.tenant
    match n.gateAt with
    | none => { n with gateAt := some (now s), fracLast := f, fracAt := now s }
    | some _ => if f = n.fracLast then n else { n with fracLast := f, fracAt := now s }
  else { n with gateAt := none }

/-- One cycle of every node's gate (DEDUCED, log 140). -/
def gatesTick (s : State) : State := { s with dist := { s.dist with nodes := s.dist.nodes.map (gateOne s) } }

/-- RESIDENCY_TIMEOUT (R386): held by the gate for 100 ms while otherwise dispatchable, with a fraction that has not changed in the
last 10 ms, the node is refused. -/
def execResidencyTimeout (node : BitVec 32) (s : State) : Host.Outcome State Fault Refusal :=
  match findNode s node.toNat with
  | none => .next s
  | some n =>
    match n.gateAt with
    | none => .next s
    | some t =>
      if n.st = .pool ∧ t + 100 * msCycles ≤ now s ∧ n.fracAt + 10 * msCycles ≤ now s then .next (refuseNode s n.id lsResidency)
      else .next s

/-! ## The image of a dispatch -/

/-- The image of a dispatch: the one that the record names, or what the mapper makes of a portable graph; none where it finds no
placement. -/
def dispatchImage (s : State) (n : Node) (onto : Option Nat) : State × Option (List Frame) :=
  if bitAt n.lrec 256 then mapNode s n onto else (s, some (nodeImage s n))

/-- Frames that name elements, in their order: the mapper keeps it. -/
def elemFrames (fs : List Frame) : List Frame := fs.filter fun f => decide (f.cls ≠ 4) && f.placed

/-- The name of each CE for R126: its site as the image names it, or its ordinal in the portable graph. -/
def ceNames (s : State) (n : Node) (fs moved : List Frame) : Table Nat :=
  let named : List Nat :=
    if bitAt n.lrec 256 then (elemFrames (nodeImage s n)).map Frame.ordinal else (elemFrames fs).map fun f => f.site.toNat
  (named.zip (elemFrames moved)).foldl
    (fun t x => if siteKind x.2.site = .ce then Table.insert t x.2.site.toNat x.1 else t) []

/-! ## Global data blocks (R210, R387) -/

/-- The payload of a control frame of an image after its bindings. -/
def globBlock (fs : List Frame) (k : Nat) : BitVec 256 × Block :=
  (ctlFrame fs (0x4000 + 4 * k), ctlFrame fs (0x4000 + 4 * k + 2) ++ ctlFrame fs (0x4000 + 4 * k + 1))

/-- The virtual address of a data block. -/
def globVa (fs : List Frame) (k : Nat) : Nat := (bits (globBlock fs k).1 0 56).toNat

/-- A data block waits for a page that moves, or that the Apsis engine holds at T2 and moves under R378 (R387). -/
def globWaits (s : State) (n : Node) (fs : List Frame) (k : Nat) : Bool :=
  (match walkTables s n.ptroot (globVa fs k) with
    | .ok l => bitAt l.ent 8
    | .error _ => false) || settles s n (globVa fs k)

/-- The pages of data blocks that stand at T2 under the engine begin to move (R378, R387). -/
def globMoves (s : State) (n : Node) (fs : List Frame) : State :=
  (List.range (globCount fs)).foldl (fun s k => if settles s n (globVa fs k) then raisePage s n.tenant (globVa fs k) else s) s

/-- Write one global data block as a whole-block store at system scope under hypothesis 0: false where it cannot be written. What the
walk leaves stays (R94). -/
def writeGlob (s : State) (n : Node) (fs : List Frame) (k : Nat) : State × Bool :=
  let (a, b) := globBlock fs k
  let va := (bits a 0 56).toNat
  let d : BitVec 16 := bits a 56 16
  match walkFor s 0#2 n va true with
  | (s, .ok t) =>
    (if t.ty = 2#2 then remoteWrite s (.loader n.id) n.tenant (homeKey t) (BitVec.allOnes 64) b (some d) false
     else engStore s loaderParty (.loader n.id) n.tenant (homeKey t) va 0#8 0#6 4#3 (BitVec.allOnes 64) b (some d) false, true)
  | (s, _) => (s, false)

/-- Write the first `k` data blocks: those before a block that fails stay written. -/
def writeGlobs (s : State) (n : Node) (fs : List Frame) : Nat → State × Bool
  | 0 => (s, true)
  | k + 1 =>
    match writeGlobs s n fs k with
    | (s, false) => (s, false)
    | (s, true) => writeGlob s n fs k

/-! ## Dispatch (R36, R37, R40, R44, R51) -/

/-- A tile invalidates its read-only lines at dispatch (R81, R407). -/
def dropReadOnly (s : State) (site : Site) : State :=
  let m := getMt s site
  setMt s site { m with lines := m.lines.filter fun l => !l.ro }

/-- What the record alone decides at the dispatch of an instance (R381, R385). -/
def dispatchCheck (s : State) (n : Node) : Check := do
  must lsBadSelector (decide ((n.fld 928 20 : BitVec 20).toNat ≤ 786400))
  must lsTopology (hypLive s n.hctx n.hyp)

/-- The slice length in force for a slice that begins now (R169, R171). -/
def sliceNow (s : State) (n : Node) : Nat := (bits (getFn s (nodeVf s n)).policy 160 32).toNat

/-- The limit of its marker phase (R169, R175). -/
def markNow (s : State) (n : Node) : Nat := (bits (getFn s (nodeVf s n)).policy 144 16).toNat

/-- The instance of a node over frames that stand at their sites. -/
def newInst (s : State) (n : Node) (t : Shift) (onto : Option Nat) (fs moved : List Frame) : Inst :=
  let gen : BitVec 24 := match onto with
    | some o => (match findInst s o with
      | some i => i.gen + 1#24
      | none => 1#24)
    | none => 0#24
  let put (f : Frame) : Frame := if onto.isSome then (setBits f.1 40 1#1, f.2) else f
  { id := s.dist.nextInst, node := n.id, st := .configuring, slice := 0#24, dbx := BitVec.ofInt 8 t.dbx, dby := BitVec.ofInt 8 t.dby,
    frames := (moved.filter Frame.placed).map put, onto := onto, switched := false, routes := [],
    vcs := reserve s onto (imageElems moved) moved, gen := gen, estat := 0#32,
    injected := false, waves := 0, quiescent := false, dogs := 0, progress := false, elems := imageElems moved, ops := imageOps moved,
    names := ceNames s n fs moved, image := fs.filter Frame.placed, startedAt := now s, sliceUs := sliceNow s n,
    markUs := markNow s n, marked := [], frozen := false, limitZero := [] }

/-- Open an instance: its free elements become its own. -/
def openInst (s : State) (n : Node) (i : Inst) : State :=
  let mine := i.elems.filter fun e => decide (Table.get 0 s.fab.owner e = 0)
  let owner := mine.foldl (fun t e => Table.set 0 t e (i.id + 1)) s.fab.owner
  let s := { s with
    fab := { s.fab with owner := owner }
    dist := { s.dist with insts := s.dist.insts ++ [i], nextInst := s.dist.nextInst + 1 } }
  let s := modNode s n.id fun n =>
    { n with insts := n.insts ++ [i.id], firstAt := (match n.firstAt with
      | some t => some t
      | none => some (now s)) }
  let s := (instMts i).foldl dropReadOnly s
  let s := acquireRegion s i
  { s with dist := { s.dist with holdback := s.dist.holdback.filter fun h => decide (h ≠ n.id) } }

/-- The additions that a completion sync word has seen, as its words tell them: generations of TARGET, and COUNT (R85). -/
def syncSeen (s : State) (site : Site) (off : Nat) : Nat :=
  (syncGen s site off).toNat * (syncTarget s site off).toNat + (syncCount s site off).toNat

/-- SYNCSITE and SYNCOFF of a record (R32). -/
def recSync (r : BitVec 2048) : Site × Nat := (bits r 948 12, (bits r 928 20 : BitVec 20).toNat)

/-- A completion sync word has moved with a block translation (R216): what the sequencer waits for at the old place it waits for at the new
one (R167). -/
def moveWait (s : State) (from0 dst : Site) (off : Nat) (ws : List SyncWait) : List SyncWait :=
  let old (w : SyncWait) : Bool := decide (w.site = from0) && decide (w.off = off)
  let new (w : SyncWait) : Bool := decide (w.site = dst) && decide (w.off = off)
  if from0 = dst ∨ !ws.any old then ws
  else
    let left := mapWhere old (fun w => { w with want := w.want - 1 }) ws
    if ws.any new then mapWhere new (fun w => { w with want := w.want + 1 }) left else left ++ [⟨dst, off, syncSeen s dst off + 1⟩]

/-- The waits of the generation loop follow a node's sync word. -/
def moveWaits (s : State) (n : Node) (dst : Site) : State :=
  if n.firmware then
    let x := recSync n.lrec
    { s with dist := { s.dist with gens := s.dist.gens.map fun g => { g with waiting := moveWait s x.1 dst x.2 g.waiting } } }
  else s

/-- The dispatch of a node's first instance writes its data blocks, and its image's translation moves SYNCSITE (R210, R216, R387). -/
def firstDispatch (s : State) (n : Node) (t : Shift) (fs : List Frame) : State × Bool :=
  let dst := t.index (n.fld 948 12)
  let s := moveWaits (modNode s n.id fun n => { n with lrec := setBits n.lrec 948 dst, dataWritten := true }) n dst
  writeGlobs s n fs (globCount fs)

/-- A dispatch of an image whose place is given: none where it cannot happen now. A mapped image stands where the mapper has put it. -/
def dispatchAt (s : State) (n : Node) (t : Shift) (onto : Option Nat) (image : List Frame) : Option State :=
  let fs := bindArgs n.lrec image
  let moved := fs.map t.frame
  let k := globCount fs
  let first := !n.dataWritten
  if !t.ok fs || !(!bitAt n.lrec 256 || decide (t = ⟨0, 0⟩)) || !demandHere s onto fs || !placeFree s onto moved ||
      (moved.filter Frame.placed).isEmpty then none
  else
    match dispatchCheck s n with
    | .error code => some (refuseNode s n.id code)
    | .ok _ =>
      if first && (List.range k).any fun j => globWaits s n fs j then some (globMoves s n fs)
      else
        let (s, good) := if first then firstDispatch s n t fs else (s, true)
        if good then some (openInst s n (newInst s n t onto fs moved)) else some (refuseNode s n.id lsDataFault)

/-- Regions of instances that were lost with a die and have come to a stop return to the free set (R396) (DEDUCED, log 115). -/
def sweepLost (s : State) (n : Node) : State :=
  let stopped (i : Inst) : Bool := instStopped s i && !s.dist.jobs.any fun j => decide (j.inst = i.id)
  let gone := if n.aborting then [] else (nodeInsts s n).filter stopped
  let ids := gone.map fun i => i.id
  let s := gone.foldl freeRegion s
  if gone.isEmpty then s else modNode s n.id fun n => { n with insts := n.insts.filter fun i => !ids.contains i }

/-- DISPATCH (R36 to R40): the distributors open an instance of a pool node at a translation of its image, over free elements, or,
for a configuration switch (R52), over those of a running instance of its tenant. A portable graph stands where the mapper puts it. A demand that the
package can no longer meet refuses the node (R385). -/
def execDispatch (node : BitVec 32) (dbx dby : BitVec 8) (onto : BitVec 32) (s : State) : Host.Outcome State Fault Refusal :=
  let s := match findNode s node.toNat with
    | some n => sweepLost s n
    | none => s
  match findNode s node.toNat with
  | none => .next s
  | some n =>
    let old : Option Nat := if onto = 0xFFFFFFFF#32 then none else some onto.toNat
    let oldOk := match old with
      | none => true
      | some o => (match findInst s o with
        | some i => decide (i.st = .running) && decide (tenantOf (findNode s i.node) = n.tenant) &&
            !s.dist.insts.any fun j => decide (j.onto = some o) && decide (j.st ≠ .ended)
        | none => false)
    if !wantsInst n then .next s
    else if !demandMet s (nodeImage s n) then .next (refuseNode s n.id lsNoResources)
    else if !gateMet s n || !firstInPool s n || !oldOk then .next s
    else
      match dispatchImage s n old with
      | (s, some fs) =>
        (match dispatchAt s n ⟨dbx.toInt, dby.toInt⟩ old fs with
        | some s => .next s
        | none => .next s)
      | (s, none) => .next s

/-! ## Writing a frame (R220) -/

/-- The level that a frame names lies below NLEVEL (R385): of FENCEs, ports, engine words and WIDEN. -/
def levelsBelow (n : Node) (f : Frame) : Bool :=
  let ok (l : Nat) : Bool := decide (l < n.nlevel)
  match f.cls with
  | 0 => (List.range 6).all fun k =>
      let w := bundleSlot f.2 k
      decide (bits w 28 8 ≠ 0xA1#8) || (bundleStages f.site f.2).all fun x => decide (x.1 ≠ 0xA1#8) || ok (x.2.a.toNat - 56)
  | 2 =>
    if f.idx < 8 then
      match decodePort ⟨f.site, BitVec.ofNat 3 f.idx⟩ (bits f.2 0 64) with
      | .ok _ => ok (bits f.2 53 3).toNat
      | .error _ => true
    else true
  | 4 => !(decide (16 ≤ f.idx) && decide (bits f.2 0 4 = 5#4)) || ok (bits f.2 160 3).toNat
  | 5 =>
    if f.idx < 32 then (List.range 2).all fun k =>
      let w : BitVec 128 := bits f.2 (128 * k) 128
      decide (bits w 120 8 = 0#8) || ok (bits w 117 3).toNat
    else true
  | _ => true

/-- The payload as it is stored: a port's level becomes its scope code (R32, R231). -/
def storedPayload (n : Node) (f : Frame) : BitVec 256 :=
  if f.cls = 2 ∧ f.idx < 8 ∧ bits f.2 56 8 ≠ 0#8 then
    let opc : BitVec 8 := bits f.2 56 8
    let d : PortDesc := ⟨bits f.2 53 3, bits f.2 50 3, bits f.2 48 2, bits f.2 0 48⟩
    if portIsSp opc.toNat d then f.2
    else setBits f.2 53 (bits (n.fld (384 + 8 * (bits f.2 53 3).toNat) 8 : BitVec 8) 3 3)
  else f.2

/-- The frame is one of the region's: its element or slot; one of zeros for a slot that is not the region's stores nothing (R168). -/
def frameOwned (i : Inst) (f : Frame) : Bool :=
  match f.cls with
  | 4 => decide (f.idx < 10) || i.ops.contains (f.site, BitVec.ofNat 2 f.idx) || decide (f.2 = 0#256)
  | 3 => i.elems.contains (f.site.toNat * 4 + 1 + f.sub)
  | _ => i.elems.contains (f.site.toNat * 4)

/-- A bank that may still be written (R220): active frames before START, shadow frames before SWITCH. -/
def bankOpen (i : Inst) (f : Frame) : Bool := if f.bank then !i.switched else decide (i.st = .configuring)

/-- What the receiver of a frame checks, with what it knows of its region (R220, R330, R385). -/
def receiverCheck (i : Inst) (n : Node) (f : Frame) : Check := do
  frameCheck false f
  must lsBadSelector (frameOwned i f && bankOpen i f && levelsBelow n f)
  must lsBadSelector (decide (f.cls ≠ 3) || decide (8 ≤ f.idx) || (List.range 4).all fun k => agrpOk i (bits f.2 (64 * k) 64))

/-- Write a scratchpad frame (R230). -/
def putSpadFrame (s : State) (site : Site) (idx : Nat) (p : BitVec 256) : State :=
  if idx < 0x2000 then (List.range 16).foldl (fun s b => setSpadDesc s site (64 * (16 * (idx - 0x1000) + b)) (bits p (16 * b) 16)) s
  else setSpadNat s site (32 * (idx - 0x2000)) p.toNat 32

/-- Write a frame into the active bank. -/
def putActive (s : State) (site : Site) (cls sub idx : Nat) (p : BitVec 256) : State :=
  if cls = 2 ∧ 8 ≤ idx then putSpadFrame s site idx p
  else { s with fab := { s.fab with frames := Table.set 0#256 s.fab.frames (frameKey site cls sub idx) p } }

/-- Put the valid entries of a routing frame into a region's routes; none where one names a VC that the region has not reserved, or that
carries a channel already (R57, R69) (DEDUCED, log 96). -/
def putRoutes (s : State) (i : Inst) (bank : Bool) (site : Site) (port : Nat) (p : BitVec 256) : Nat → Option State
  | 0 => some s
  | v + 1 =>
    match putRoutes s i bank site port p v with
    | none => none
    | some s =>
      let w : BitVec 16 := bits p (16 * v) 16
      let k := inKey site port v
      if !bitAt w 15 then some s
      else if !(entryVcs site port v w).all i.vcs.contains then none
      else if i.onto.isSome || bank then
        let taken := match Table.get none s.fab.routes k with
          | some r => decide (some r.inst ≠ i.onto) && decide (r.inst ≠ i.id)
          | none => false
        if taken then none else some (modInst s i.id fun i => { i with routes := Table.set 0#16 i.routes k w })
      else if (Table.get none s.fab.routes k).isSome then none
      else some { s with fab := { s.fab with routes := Table.set none s.fab.routes k (some ⟨i.id, w⟩) } }

/-- Write a frame into the shadow bank: one of zeros stands there too, and replaces the active one at the flip (R52, R210). -/
def putShadow (s : State) (f : Frame) (p : BitVec 256) : State :=
  { s with fab := { s.fab with shadow := Table.insert s.fab.shadow (frameKey f.site f.cls f.sub f.idx) p } }

/-- Store a frame that its receiver accepts; none where a VC of its links already carries a channel (R220). -/
def storeFrame (s : State) (i : Inst) (n : Node) (f : Frame) : Option State :=
  let p := storedPayload n f
  let t : Option State :=
    if f.cls = 4 ∧ f.idx < 10 then putRoutes s i f.bank f.site f.idx p 16
    else if f.cls = 4 ∧ !i.ops.contains (f.site, BitVec.ofNat 2 f.idx) then some s
    else if !(frameVcs f).all i.vcs.contains then none
    else if f.bank then some (putShadow s f p)
    else some (putActive s f.site f.cls f.sub f.idx p)
  match t with
  | none => none
  | some t =>
    match findInst t i.id with
    | none => none
    | some j => if linksOk (bankView t j) f.site then some t else none

/-! ## START (R44, R45) -/

/-- A task at its start (R44, R126). -/
def startTask (s : State) (n : Node) (i : Inst) (site : Site) (t : Nat) : Task :=
  let d := taskDesc s site t
  let name : Site := BitVec.ofNat 12 (Table.get site.toNat i.names site.toNat)
  let seed (l : Nat) : Word := genSeed (n.fld 576 32) (BitVec.ofNat 3 t) name l
  let acc (a : Nat) : Block := frame s site 1 0 (32 + 4 * t + 2 * a + 1) ++ frame s site 1 0 (32 + 4 * t + 2 * a)
  { Task.empty with
    st := if bitAt d 24 then .asleep else .running
    pc := bits d 6 7
    a := #v[acc 0, acc 1]
    gen := ofLanes seed
    hyp := n.hyp
    trig := if bitAt d 24 then some (bits d 21 3) else none
    orph := if bitAt d 32 then some (bits d 25 7) else none }

/-- The initial tokens of a CE input end (R226, R227). -/
def initTokens (s : State) (n : Node) (site : Site) (e : Nat) : List Token :=
  (List.range (bits (ceEnd s site e) 8 4).toNat).map fun j =>
    let lo := frame s site 1 0 (64 + 16 * e + 2 * j)
    let side : Word := bits (frame s site 1 0 (192 + e)) (32 * j) 32
    if e < 4 then vectorTok (frame s site 1 0 (65 + 16 * e + 2 * j) ++ lo) (bits side 0 16) (bits side 16 16) n.hyp false false
    else scalarTok (bits lo 0 32) n.hyp false false

/-- Put tokens at the head of a buffer. -/
def headTokens (s : State) (k : Nat) (ts : List Token) : State :=
  let b := getBuf s k
  setBuf s k { b with q := ts.map (fun t => (t, now s)) ++ b.q }

/-- A CE starts: its initial tokens stand, and its tasks take up the state of R44. With no task to run it discards them (R74). -/
def startCe (s : State) (n : Node) (i : Inst) (site : Site) : State :=
  let s := [0, 1, 2, 3, 4, 5, 6, 7].foldl (fun s e => headTokens s (endKey site e) (initTokens s n site e)) s
  let ts : Vector Task 8 := Vector.ofFn fun t => if taskValid (taskDesc s site t) then startTask s n i site t else Task.empty
  discardDone (setCe s site { Ce.empty with tasks := ts }) site

/-- The initial request tokens of a SYNCW port (R325). -/
def syncTokens (s : State) (n : Node) (loc : PortAt) : List Token :=
  let (_, d) := portDescOf s loc
  (List.range (bits (portBinding s loc) 7 7).toNat).map fun j => scalarTok (d.iv.setWidth 32 + BitVec.ofNat 32 j) n.hyp false false

/-- A memory tile starts: the initial tokens of its ports stand. -/
def startMt (s : State) (n : Node) (site : Site) : State :=
  (List.range 8).foldl (fun s k => headTokens s (endKey site k) (syncTokens s n ⟨site, BitVec.ofNat 3 k⟩)) s

/-- An AG starts: one with a program runs it from word 0 (R331). -/
def startAg (s : State) (n : Node) (loc : AgAt) : State :=
  let runs := (agWords s loc).any fun w => decide (w ≠ 0#64)
  setAg s loc { Ag.empty with hid := n.hyp, st := if runs then .running else .idle }

/-- An operator starts (R308). -/
def startOp (s : State) (n : Node) (loc : OpAt) : State :=
  setOp s loc { OpRun.empty with initDue := if opCode s loc = 3 then some (n.hyp, false) else none }

/-- An element starts. -/
def beginElem (s : State) (n : Node) (i : Inst) (e : Nat) : State :=
  let site : Site := BitVec.ofNat 12 (e / 4)
  if e % 4 ≠ 0 then startAg s n ⟨site, BitVec.ofNat 1 (e % 4 - 1)⟩
  else
    match siteKind site with
    | .ce => startCe s n i site
    | .mt => startMt s n site
    | _ => s

/-- A token of VC0 reaches an element: START starts it (R44, R66). -/
def startElem (s : State) (n : Node) (i : Inst) (t : Token) (e : Nat) : State :=
  if t.isCode 0x12#8 then beginElem s n i e else s

/-- START reaches every element and operator of an instance. -/
def startInst (s : State) (n : Node) (i : Inst) : State :=
  let s := i.elems.foldl (fun s e => startElem s n i startTok e) s
  let s := i.ops.foldl (fun s x => startOp s n ⟨x.1, x.2⟩) s
  modInst (inject s (some i)) i.id fun i => { i with st := .running, progress := true }

/-! ## SWITCH (R52) -/

/-- A SWITCH token. -/
def switchTok (vec : Bool) (gen : BitVec 24) : Token := controlTok vec (cSWITCH gen) 0#6 false

/-- The input ends of an instance's elements that are in use: site, end, and whether its tokens are vectors. -/
def usedEnds (v : State) (i : Inst) : List (BitVec 12 × Nat) :=
  (instSites i).flatMap fun site =>
    let es : List Nat :=
      match siteKind site with
      | .ce => (List.range 8).filter fun e => bitAt (ceEnd v site e) 0
      | .mt => ((List.range 8).filter fun k => bitAt (portBinding v ⟨site, BitVec.ofNat 3 k⟩) 14) ++
          ((List.range 2).filter fun j => bitAt (agBinding v ⟨site, BitVec.ofNat 1 j⟩) 10).map fun j => 8 + j
      | _ => [0, 1, 2].filter fun e => bitAt (engBinding v site) (if e = 2 then 36 else 32 + e)
    es.map fun e => (site, e)

/-- The router inputs behind the links that an instance's entries and operators send on. -/
def linkTargets (v : State) (i : Inst) : List Nat :=
  (v.fab.routes.filterMap fun kr =>
    match kr.2 with
    | some r =>
      let q := (bits r.ent 10 4).toNat
      let site := (keyPlace kr.1).1
      if r.inst = i.id ∧ ¬ bitAt r.ent 14 ∧ q < 8 then some (inKey (linkSite site q) (linkInPort q) (bits r.ent 6 4).toNat) else none
    | none => none) ++
  i.ops.flatMap fun x =>
    let c := opCfgOf v ⟨x.1, x.2⟩
    ((List.range c.nout.toNat).filter fun j => decide (c.outPort j < 8)).map fun j =>
      inKey (linkSite x.1 (c.outPort j)) (linkInPort (c.outPort j)) (c.outVc j)

/-- The router inputs at which a channel first crosses onto the region's reservation (R172). -/
def entryHeads (v : State) (i : Inst) : List Nat :=
  let ts := linkTargets v i
  (v.fab.routes.filter fun kr =>
    (match kr.2 with
      | some r => decide (r.inst = i.id)
      | none => false) && decide ((keyPlace kr.1).2.1 < 8) && !ts.contains kr.1).map fun kr => kr.1

/-- The consumer ends that channels feed, from the region's elements or from outside. -/
def fedEnds (v : State) (i : Inst) (n : Node) : List (BitVec 12 × Nat) :=
  ((instSites i).flatMap fun site => (localOuts v site).flatMap fun out => (consumers v n site out).map fun x => (x.1, x.2.1)) ++
  (entryHeads v i).flatMap fun k =>
    let p := keyPlace k
    match follow v (routeFuel v) p.1 p.2.1 p.2.2 with
    | some d => (reaches v n (opFuel v) 0 d).map fun x => (x.1, x.2.1)
    | none => []

/-- The ends in use that no channel feeds. -/
def bareEnds (v : State) (i : Inst) (n : Node) : List (BitVec 12 × Nat) :=
  let fed := fedEnds v i n
  (usedEnds v i).filter fun x => !fed.contains x

/-- The AGs of an instance that have a program. -/
def sourceAgs (v : State) (i : Inst) : List AgAt :=
  (instAgs i).filter fun l => (agWords v l).any fun w => decide (w ≠ 0#64)

/-- Inject a control token at each source of a region (R52, R172): where a channel enters, and, with `ags`, at the ctl input of each
AG. An end that no channel feeds takes it directly. -/
def injectSources (s : State) (i : Inst) (n : Node) (t : Token) (ags : Bool) : State :=
  let gs := if ags then sourceAgs s i else []
  let ends := (bareEnds s i n).filter fun x => decide (x.2 < 8)
  let heads := entryHeads s i
  let s := gs.foldl (fun s l => pushBuf s (agCtl l) t (now s + 1)) s
  let s := ends.foldl (fun s x => pushBuf s (endKey x.1 x.2) t (now s + 1)) s
  let s := heads.foldl (fun s k => pushBuf s k t (now s + 1)) s
  inject s (some i)

/-- The elements of a shadow instance that it owns already start at once; SWITCH goes to the sources of the region that it takes
over. Routing entries on inputs that the old graph does not use stand from now on (DEDUCED, log 102). -/
def switchInst (s : State) (n : Node) (i : Inst) (old : Inst) : State :=
  let own := i.elems.filter fun e => decide (Table.get 0 s.fab.owner e = i.id + 1)
  let isOwn (k : Nat) : Bool := own.any fun e => instFrame { i with elems := [e], ops := [] } k
  let newOps := i.ops.filter fun x => !old.ops.contains x
  let isNew (k : Nat) : Bool := isOwn k || instFrame { i with elems := [], ops := newOps } k
  let mine := s.fab.shadow.filter fun x => isNew x.1
  let routes := i.routes.foldl (fun t x => if (Table.get none t x.1).isSome then t else Table.insert t x.1 (some ⟨i.id, x.2⟩)) s.fab.routes
  let s := { s with fab := { s.fab with shadow := s.fab.shadow.filter fun x => !isNew x.1, routes := routes } }
  let s := mine.foldl (fun s x =>
    putActive s (BitVec.ofNat 12 (x.1 / 4194304)) (x.1 / 262144 % 16) (x.1 / 65536 % 4) (x.1 % 65536) x.2) s
  let s := own.foldl (fun s e => startElem s n i startTok e) s
  let s := newOps.foldl (fun s x => startOp s n ⟨x.1, x.2⟩) s
  let s := modInst s i.id fun i => { i with st := .running, switched := true, progress := true }
  match findNode s old.node with
  | some m => injectSources s old m (switchTok true i.gen) true
  | none => s

/-! ## The end of a restore (R176) -/

/-- A buffer key after a translation. -/
def Shift.bufKey (t : Shift) (k : Nat) : Nat :=
  let at0 (base per k : Nat) : Nat := base + (t.index (BitVec.ofNat 12 (k / per))).toNat * per + k % per
  if k < 65536 then at0 0 16 k else if k < 2097152 then at0 65536 256 (k - 65536) else at0 2097152 16 (k - 2097152)

/-- Put a saved table back under translated keys. -/
def putBack {α : Type} [DecidableEq α] (d : α) (f : Nat → Nat) (into t : Table α) : Table α :=
  t.foldl (fun m x => Table.set d m (f x.1) x.2) into

/-- A time that lay ahead when the save was made lies as far ahead now. -/
def rebase (at0 t x : Nat) : Nat := if at0 < x then t + (x - at0) else x

/-- Tokens keep what was left of their way (R175). -/
def rebaseBuf (at0 t : Nat) (b : Buf) : Buf := { b with q := b.q.map fun x => (x.1, rebase at0 t x.2) }

/-- So do an operator's. -/
def rebaseOp (at0 t : Nat) (o : OpRun) : OpRun := { o with outq := o.outq.map (fun x => (x.1, x.2.1, rebase at0 t x.2.2)), saved := false }

/-- A task that ran on a row keeps the cycles it has spent. -/
def rebaseTask (at0 t : Nat) (k : Task) : Task :=
  let keep (x : Option Nat) : Option Nat := x.map fun c => t - (at0 - c)
  { k with rowAt := keep k.rowAt, rowOut := keep k.rowOut }

/-- A saved CE. -/
def rebaseCe (at0 t : Nat) (c : Ce) : Ce := { c with tasks := c.tasks.map (rebaseTask at0 t), saved := false }

/-- A saved memory tile: emissions that wait translate afresh. -/
def rebaseMt (m : Mt) : Mt :=
  { m with saved := false, ports := m.ports.map fun p => { p with reqs := p.reqs.map fun e => { e with tr := none } } }

/-- A REPAIR or ring entry of a saved instance follows it to its new site (R377) (DEDUCED, log 105). -/
def moveRepairs (s : State) (v : Save) (t : Shift) : State :=
  let held (a : BitVec 24) : Bool := repairHeld { s with fab := State.reset.fab, dist := { s.dist with saves := [v] } } a
  let one (d : Die) : Die :=
    { d with
      repairs := d.repairs.map (fun r =>
        let a := r.arg
        if held a then repairTok (setBits a 12 (t.index (bits a 12 12))) else r)
      ring := d.ring.map fun r => if r.inst = v.inst then { r with site := t.index r.site } else r }
  { s with dies := s.dies.map one }

/-- A node that waits for elements: one that could take another instance, or one with a saved instance (R176). -/
def awaitsElems (s : State) (n : Node) : Bool :=
  wantsInst n || (decide (n.st = .pool) && !n.aborting && (nodeInsts s n).any fun i => decide (i.st = .saved))

/-- Element and channel state is written back, and START goes to every task: those that ran go on where they stood (R176). -/
def resumeInst (s : State) (n : Node) (i : Inst) (v : Save) : State :=
  let sh : Shift := ⟨v.dbx, v.dby⟩
  let now0 := now s
  let site (k : Nat) : Nat := (sh.index (BitVec.ofNat 12 k)).toNat
  let two (k : Nat) : Nat := site (k / 2) * 2 + k % 2
  let four (k : Nat) : Nat := site (k / 4) * 4 + k % 4
  let s := moveRepairs s v sh
  let fab : Fabric :=
    { s.fab with
      ces := putBack Ce.empty site s.fab.ces (v.ces.map fun x => (x.1, rebaseCe v.at0 now0 x.2))
      mts := putBack Mt.empty site s.fab.mts (v.mts.map fun x => (x.1, rebaseMt x.2))
      ags := putBack Ag.empty two s.fab.ags (v.ags.map fun x => (x.1, { x.2 with saved := false, utlb := [] }))
      cps := putBack Cp.empty site s.fab.cps v.cps
      stes := putBack Ste.empty site s.fab.stes v.stes
      bufs := putBack Buf.empty sh.bufKey s.fab.bufs (v.bufs.map fun x => (x.1, rebaseBuf v.at0 now0 x.2))
      ops := putBack OpRun.empty four s.fab.ops (v.ops.map fun x => (x.1, rebaseOp v.at0 now0 x.2)) }
  let s := { s with fab := fab, dist := { s.dist with saves := s.dist.saves.filter fun x => decide (x.inst ≠ v.inst) } }
  let us := sliceNow s n
  let limit := markNow s n
  let asked := s.dist.nodes.filter fun m => awaitsElems s m && decide (n.prio.toNat < m.prio.toNat) && decide (i.startedAt ≤ m.readyAt) && !placeable s m
  modInst (inject s (some i)) i.id fun i =>
    { i with st := .running, frozen := false, limitZero := asked.map fun m => m.id, startedAt := now0, sliceUs := us, markUs := limit, marked := [], progress := true, dogs := 0 }

/-- The last frame of an instance has been written: the checks that span frames, then START or SWITCH (R221, R45, R52). -/
def finishConfig (s : State) (i : Inst) (n : Node) : State :=
  let v := bankView s i
  match instCheck v i n with
  | .error code => refuseNode s n.id code
  | .ok _ =>
    let rounded := (instCes i).any (slotsRounded v)
    let s := if rounded then modNode s n.id fun n => { n with lscode := lsRounded } else s
    match i.onto with
    | none =>
      match s.dist.saves.find? fun v => decide (v.inst = i.id) with
      | some v => resumeInst s n i v
      | none => startInst s n i
    | some o =>
      match findInst s o with
      | some old => switchInst s n i old
      | none => startInst s n i

/-- Put the valid entries of a corner's routing frame into the fabric's routes; none where a VC that one names carries a channel or is a
region's (R57, R220). -/
def putCornerRoutes (s : State) (site : Site) (port : Nat) (p : BitVec 256) : Nat → Option State
  | 0 => some s
  | v + 1 =>
    match putCornerRoutes s site port p v with
    | none => none
    | some s =>
      let w : BitVec 16 := bits p (16 * v) 16
      let k := inKey site port v
      let taken := vcsTaken s none none
      if !bitAt w 15 then some s
      else if (Table.get none s.fab.routes k).isSome || (entryVcs site port v w).any taken.contains then none
      else some { s with fab := { s.fab with routes := Table.set none s.fab.routes k (some ⟨cornerId (siteDie site), w⟩) } }

/-- The boot chain has verified the firmware of a die's control cores, and it runs (R14, R25). -/
def coresRun (s : State) (d : BitVec 2) : Bool := (vget CtlCore.empty s.hub.cores (4 * d.toNat)).running

/-- A frame from a control core for its corner (R220, R14): the die, and the frame's 40 bytes. The active bank is closed once the corner's
subgraph has started. -/
def cornerFrame (s : State) (d : BitVec 2) : State :=
  let f : Frame := (s.opnd 0 64, s.opnd 8 256)
  match frameCheck true f with
  | .ok _ =>
    if siteDie f.site ≠ d ∨ !coresRun s d ∨ (!f.bank ∧ (getDie s d).corner) then s
    else if f.bank then (if f.cls = 4 ∧ f.idx < 10 then s else putShadow s f f.2)
    else
      let t := if f.cls = 4 ∧ f.idx < 10 then (putCornerRoutes s f.site f.idx f.2 16).getD s else putActive s f.site f.cls f.sub f.idx f.2
      if linksOk t f.site then t else s
  | .error _ => s

/-- The elements of a die's corner, as site × 4 + sub (R14). -/
def cornerElems (d : BitVec 2) : List Nat :=
  let at0 (x y : Nat) : Nat := (d.toNat * 1024 + y * 32 + x) * 4
  [at0 0 0, at0 1 0, at0 0 1, at0 1 1, at0 2 0, at0 2 0 + 1, at0 2 0 + 2]

/-- The node and the region that a corner's tasks see: of no tenant, with hypothesis 0 and seed 0 (DESIGN CHOICE, log 159). -/
def cornerNode (d : BitVec 2) : Node :=
  { id := cornerId d, lrec := 0#2048, sub := 0#10, fn := 0#10, tenant := 0#16, policy := 0#256, firmware := true, st := .pool, prio := 7#3,
    readyAt := 0, prioAt := 0, gateAt := none, fracLast := 0, fracAt := 0, foot := [], deps := [], rels := 0, groups := 0, given := 0,
    ranges := [], reissue := [], bounds := [], firstAt := none, dataWritten := true, insts := [], jobst := 0#16, afl := fNone, nfault := 0#32, err := 0#16,
    lscode := 0#8, accepted := 0#17, aborting := false }

/-- the region -/
def cornerInst (d : BitVec 2) : Inst :=
  { id := cornerId d, node := cornerId d, st := .running, slice := 0#24, dbx := 0#8, dby := 0#8, frames := [], onto := none, switched := false,
    routes := [], vcs := [], gen := 0#24, estat := 0#32, injected := false, waves := 0, quiescent := false, dogs := 0, progress := false,
    elems := cornerElems d, ops := [], names := [], image := [], startedAt := 0, sliceUs := 0, markUs := 0, marked := [],
    frozen := false, limitZero := [] }

/-- The corner subgraphs of all dies that take part are up, and the management core opens the PF, which is the last step of a boot (R25). -/
def openPf (s : State) : State :=
  if s.dies.toList.all fun d => d.corner || d.fenced || !d.live then { s with hub := { s.hub with pfOpen := true } } else s

/-- The control cores start a corner's handler subgraph (R14, R25): START reaches its elements, and they run it. -/
def startCorner (s : State) (d : BitVec 2) : State :=
  if !coresRun s d || (getDie s d).corner then s
  else
    let s := (cornerElems d).foldl (fun s e => startElem s (cornerNode d) (cornerInst d) startTok e) s
    openPf (setDie s d { getDie s d with corner := true })

/-- FRAME_WRITE (R220, R221): the next frame of an instance reaches its receiver, which stores or refuses it; a refused frame refuses
the node. After the last one, and once the data blocks are written, the instance is checked and starts. Instance 0xFFFFFF00 + die
is that die's control-core firmware, with the frame as input, or with none to start the corner's subgraph. -/
def execFrameWrite (inst : BitVec 32) (s : State) : Host.Outcome State Fault Refusal :=
  if 0xFFFFFF00 ≤ inst.toNat then .next (if s.input.isEmpty then startCorner s (bits inst 0 2) else cornerFrame s (bits inst 0 2))
  else
    match findInst s inst.toNat with
    | none => .next s
    | some i =>
      match findNode s i.node with
      | none => .next s
      | some n =>
        if i.st ≠ .configuring then .next s
        else
          match i.frames with
          | f :: rest =>
            match receiverCheck i n f with
            | .error code => .next (refuseNode s n.id code)
            | .ok _ =>
              match storeFrame s i n f with
              | none => .next (refuseNode s n.id lsNoResources)
              | some s => .next (modInst s i.id fun i => { i with frames := rest })
          | [] =>
            if s.links.remotes.any fun r => decide (r.who = .loader n.id) then .next s
            else .next (finishConfig s i n)

end Sys2Proof.Machine
end

