-- ==== Sys2Proof/Machine/Switch.lean ====
section
/-! DEFINITION. The flip of an element or operator to its shadow bank (R52). -/

namespace Sys2Proof.Machine

/-- The instance that waits to take over an element, and the one that has it. -/
def flipPair (s : State) (e : Nat) : Option (Inst × Inst) :=
  match s.dist.insts.find? fun j => j.switched && decide (j.st ≠ .ended) && j.onto.isSome && j.elems.contains e &&
      decide (Table.get 0 s.fab.owner e ≠ j.id + 1) with
  | none => none
  | some j =>
    match j.onto with
    | none => none
    | some o =>
      match findInst s o with
      | some i => if Table.get 0 s.fab.owner e = i.id + 1 then some (i, j) else none
      | none => none

/-- SWITCH heads an input end. -/
def switchHeads (s : State) (k : Nat) : Bool :=
  match headAt s k with
  | some t => t.isCode 0x11#8
  | none => false

/-- SWITCH has headed an input end since a cycle before this one (R52). -/
def switchStood (s : State) (k : Nat) : Bool := switchHeads s k && headedBefore s k

/-- The frames of an element's shadow bank become active. -/
def flipFrames (s : State) (e : Nat) (ops : List (BitVec 12 × BitVec 2)) (j : Inst) : State :=
  let part : Inst := { j with elems := if ops.isEmpty then [e] else [], ops := ops }
  let mine := s.fab.shadow.filter fun x => instFrame part x.1
  let fab : Fabric :=
    { s.fab with frames := s.fab.frames.filter (fun x => !instFrame part x.1), shadow := s.fab.shadow.filter fun x => !instFrame part x.1 }
  mine.foldl (fun s x =>
    putActive s (BitVec.ofNat 12 (x.1 / 4194304)) (x.1 / 262144 % 16) (x.1 / 65536 % 4) (x.1 % 65536) x.2) { s with fab := fab }

/-- What the old instance keeps of an element that flips: the arithmetic flags of a CE's tasks go to its node (R115, R381). -/
def keepFlags (s : State) (e : Nat) (i : Inst) : State :=
  if e % 4 = 0 ∧ elemKind e = .ce then
    let f := (getCe s (BitVec.ofNat 12 (e / 4))).tasks.toList.foldl (fun f k => f ||| k.aflags) fNone
    modNode s i.node fun n => { n with afl := n.afl ||| f }
  else s

/-- The new graph acts from the cycle after the flip on (R52). -/
def restNow (s : State) (e : Nat) : State :=
  let site : Site := BitVec.ofNat 12 (e / 4)
  if e % 4 ≠ 0 then
    let l : AgAt := ⟨site, BitVec.ofNat 1 (e % 4 - 1)⟩
    setAg s l { getAg s l with emitNext := now s + 1 }
  else if elemKind e = .ce then setCe s site { getCe s site with firedNext := now s + 1 }
  else s

/-- An element passes from the old instance to the new one and takes up its start state (R44, R52). -/
def flipOwner (s : State) (e : Nat) (i j : Inst) : State :=
  let s := keepFlags s e i
  let s := { s with fab := { s.fab with owner := Table.set 0 s.fab.owner e (j.id + 1) } }
  let s := modInst s i.id fun i => { i with elems := i.elems.filter fun x => decide (x ≠ e) }
  let s := flipFrames s e [] j
  match findNode s j.node with
  | some n => progress (restNow (beginElem s n j e) e) (some j)
  | none => s

/-- Enqueue SWITCH on local outputs, each with its kind. -/
def switchOuts (s : State) (site : Site) (i : Inst) (gen : BitVec 24) (outs : List (Nat × Nat × Bool)) : State :=
  outs.foldl (fun s o => sendOut s site (some i) o.1 o.2.1 (switchTok o.2.2 gen)) s

/-- Every one of some local outputs shows room. -/
def outsRoom (s : State) (site : Site) (outs : List (Nat × Nat × Bool)) : Bool := outs.all fun o => outRoom s site o.1 o.2.1

/-- The outputs of a CE in use, its notice channels among them, whose tokens are scalar (R59). -/
def ceOuts (s : State) (site : Site) : List (Nat × Nat × Bool) :=
  (((List.range 5).filter fun o => bitAt (ceOut s site o) 0).map fun o => (8, (bits (ceOut s site o) 4 4).toNat, decide (o < 4))) ++
  ((List.range 8).filter fun e => bitAt (ceEnd s site e) 0 && bitAt (ceEnd s site e) 1).map fun e =>
    (8, (bits (ceEnd s site e) 12 4).toNat, false)

/-- A CE flips: SWITCH has headed every input, no bundle of the old graph can fire or waits behind a FENCE, and neither its command port
nor an input end owes anything. -/
def flipCe (s : State) (site : Site) (i j : Inst) : Option State :=
  let ins := ((List.range 8).filter fun e => bitAt (ceEnd s site e) 0).map fun e => endKey site e
  let c := getCe s site
  if ins.all (switchStood s) && (nextTask s site).isNone && c.tasks.all (fun k => !k.fence) && c.cmdq.isEmpty && c.notices.all (fun x => x.isEmpty) && decide (c.firedNext ≤ now s) &&
      outsRoom s site (ceOuts s site) then
    let s := ins.foldl popBuf s
    some (flipOwner (switchOuts s site i j.gen (ceOuts s site)) (site.toNat * 4) i j)
  else none

/-- SWITCH has headed, since a cycle before this one, what a port takes its requests from: its channel, or the emissions of its AG. -/
def portSwitched (s : State) (loc : PortAt) : Bool :=
  let (opc, d) := portDescOf s loc
  let p := getPort s loc
  opc = 0#8 ||
  ((!bitAt (portBinding s loc) 14 || switchStood s (endKey loc.site loc.port.toNat)) &&
    (d.chan || (match p.reqs with
      | e :: _ => (match e.ctl with
        | some w => decide (bits w 0 8 = 0x11#8) && decide (e.seen < now s)
        | none => false)
      | [] => switchStood s (agCtl ⟨loc.site, bits d.asrc 0 1⟩) || decide ((getAg s ⟨loc.site, bits d.asrc 0 1⟩).st = .idle))) &&
    p.replies.isEmpty && p.part.isEmpty && p.held.isEmpty && p.notices.isEmpty)

/-- The reply and notice channels of a memory tile. -/
def mtOuts (s : State) (site : Site) : List (Nat × Nat × Bool) :=
  let port (k : Nat) : PortAt := ⟨site, BitVec.ofNat 3 k⟩
  let bind (k : Nat) := portBinding s (port k)
  (((List.range 8).filter fun k => portRused s (port k)).map fun k =>
    let (opc, d) := portDescOf s (port k)
    ((portReply s (port k)).1, (portReply s (port k)).2, replyVec opc d)) ++
  ((List.range 8).filter fun k => bitAt (bind k) 26).map fun k => (8 + (bits (bind k) 19 1).toNat, (bits (bind k) 15 4).toNat, false)

/-- A tile leaves its old node's region: its dirty bytes are written back, as at that node's completion, which waits for them to arrive
(R79, R106); unreleased versions stay with the old region, and the tile's copies of them go. -/
def leaveTile (s : State) (site : Site) : State :=
  let s := releaseTile s site
  let m := getMt s site
  setMt s site { m with lines := (m.lines.map fun l => l.without l.unrel).filter fun l => decide (l.valid ≠ 0#64) }

/-- A memory tile flips: SWITCH heads every port's input and no reply is owed; its stash and scratchpad stay. -/
def flipMt (s : State) (site : Site) (i j : Inst) : Option State :=
  let m := getMt s site
  if ((List.range 8).all fun k => portSwitched s ⟨site, BitVec.ofNat 3 k⟩) && m.syncq.isEmpty && decide (m.grantNext ≤ now s) && outsRoom s site (mtOuts s site) then
    let outs := mtOuts s site
    let s := (List.range 8).foldl (fun s k =>
      if bitAt (portBinding s ⟨site, BitVec.ofNat 3 k⟩) 14 then popBuf s (endKey site k) else s) s
    let s := leaveTile (setMt s site { m with ports := m.ports.map fun p => { Port.empty with reqs := p.reqs.tail } }) site
    some (flipOwner (switchOuts s site i j.gen outs) (site.toNat * 4) i j)
  else none

/-- The outputs of an engine in use. -/
def engOuts (s : State) (site : Site) : List (Nat × Nat × Bool) :=
  let b := engBinding s site
  (if bitAt b 34 then [(8, (bits b 16 4).toNat, true)] else []) ++ (if bitAt b 35 then [(8, (bits b 20 4).toNat, !bitAt b 28)] else [])

/-- An engine flips: SWITCH heads every input, and no job of the old instance stands at it. -/
def flipEng (s : State) (site : Site) (i j : Inst) : Option State :=
  let b := engBinding s site
  let ins := ([0, 1, 2].filter fun e => bitAt b (if e = 2 then 36 else 32 + e)).map fun e => endKey site e
  let jobs := (s.dist.jobs.any fun k => decide (k.eng = site.setWidth 13) && decide (k.inst = i.id)) || s.dist.arrived.any fun x => decide (x.1 = site)
  if ins.all (switchStood s) && !jobs && outsRoom s site (engOuts s site) then
    let outs := engOuts s site
    some (flipOwner (switchOuts (ins.foldl popBuf s) site i j.gen outs) (site.toNat * 4) i j)
  else none

/-- What follows the first SWITCH of a buffer. -/
def afterSwitch : List (Token × Nat) → List (Token × Nat)
  | [] => []
  | x :: xs => if x.1.isCode 0x11#8 then xs else afterSwitch xs

/-- An AG flips: its old program has ended, and SWITCH has arrived on its ctl input (R52). -/
def flipAg (s : State) (loc : AgAt) (i j : Inst) : Option State :=
  let a := getAg s loc
  let b := getBuf s (agCtl loc)
  let ended := (decide (a.st = .idle) || decide (a.st = .halted)) && decide (a.emitNext ≤ now s)
  let came := (b.q.any fun x => x.1.isCode 0x11#8 && decide (x.2 < now s)) || decide (a.st = .idle)
  let quiet := decide (a.st = .idle) || !agSendsOn s loc
  if ended && !a.eos && came && (quiet || agRoom s loc) then
    let s := setBuf s (agCtl loc) { b with q := afterSwitch b.q }
    let s := if quiet then s else emitCtl s loc (cSWITCH j.gen)
    some (flipOwner s (loc.site.toNat * 4 + 1 + loc.sub.toNat) i j)
  else none

/-- The two instances of an operator slot that is about to flip. -/
def opPair (s : State) (x : BitVec 12 × BitVec 2) : Option (Inst × Inst) :=
  match s.dist.insts.find? fun j => j.switched && decide (j.st ≠ .ended) && j.ops.contains x &&
      s.dist.insts.any fun i => decide (some i.id = j.onto) && i.ops.contains x with
  | none => none
  | some j =>
    match s.dist.insts.find? fun i => decide (some i.id = j.onto) with
    | some i => some (i, j)
    | none => none

/-- Enqueue SWITCH on every output of an operator: each stands behind its link in the next cycle. -/
def opSwitchOuts (s : State) (loc : OpAt) (c : OpCfg) (t : Token) : State :=
  (List.range c.nout.toNat).foldl (fun s j =>
    match nextBuf s loc.site (c.outPort j) (c.outVc j) with
    | some b => pushBuf s b.key t (now s + 1 + b.delay)
    | none => s) s

/-- An operator flips: SWITCH heads all its inputs, and nothing of the old graph is left in it. -/
def flipOp (s : State) (loc : OpAt) : Option State :=
  match opPair s (loc.site, loc.slot) with
  | none => none
  | some (i, j) =>
    let c := opCfgOf s loc
    let o := getOp s loc
    let ins := (List.range c.nin.toNat).map fun k => opInKey loc.site loc.slot.toNat k
    if ins.all (switchStood s) && decide (o.lastFire ≤ now s) && o.outq.isEmpty && !o.lap2 && o.initDue.isNone && decide (o.widen = .idle) && opRoomAll s loc c c.nout.toNat then
      let s := opSwitchOuts (inject (ins.foldl popBuf s) (some i)) loc c (switchTok true j.gen)
      let s := modInst s i.id fun i => { i with ops := i.ops.filter fun x => decide (x ≠ (loc.site, loc.slot)) }
      let s := flipFrames s 0 [(loc.site, loc.slot)] j
      match findNode s j.node with
      | some n =>
        let s := startOp s n loc
        some (setOp s loc { getOp s loc with lastFire := now s + 1 })
      | none => some s
    else none

/-- A SWITCH that comes to the ctl input of an AG that has flipped already is consumed there. -/
def lateSwitch (s : State) (loc : AgAt) : State := if switchHeads s (agCtl loc) then popBuf s (agCtl loc) else s

/-- BANK_FLIP (R52): an element, an AG (sub 1 and 2), or an operator of the site (sub 3), flips to its shadow bank in the cycle after
its last firing of the old graph and after SWITCH has headed the last of its inputs; it enqueues SWITCH on every output. -/
def execBankFlip (site : BitVec 12) (sub : BitVec 2) (s : State) : Host.Outcome State Fault Refusal :=
  if sub = 3#2 then
    match [0, 1, 2, 3].filterMap fun k => flipOp s ⟨site, BitVec.ofNat 2 k⟩ with
    | s :: _ => .next s
    | [] => .next s
  else
    match flipPair s (site.toNat * 4 + sub.toNat) with
    | none => .next (if sub = 0#2 then s else lateSwitch s ⟨site, BitVec.ofNat 1 (sub.toNat - 1)⟩)
    | some (i, j) =>
      if !regionRuns (some i) then .next s
      else
        let r :=
          if sub ≠ 0#2 then flipAg s ⟨site, BitVec.ofNat 1 (sub.toNat - 1)⟩ i j
          else
            match siteKind site with
            | .ce => flipCe s site i j
            | .mt => flipMt s site i j
            | _ => flipEng s site i j
        match r with
        | some s => .next s
        | none => .next s

end Sys2Proof.Machine
end

