-- ==== Sys2Proof/Machine/Preempt.lean ====
section
/-! DEFINITION. Pre-emption up to the save (R171 to R175, R178, R423): the choice of an instance, the space for its save, the marker
phase and its end, and the freeze. -/

namespace Sys2Proof.Machine

/-! ## Who waits, and whom it displaces (R171) -/

/-- A free region meets a node's demand. -/
def regionFree (s : State) (n : Node) : Bool := if bitAt n.lrec 256 then demandFree s (nodeImage s n) else placeable s n

/-- A configuration switch that involves the instance is under way (R52) (DEDUCED, log 107). -/
def switching (s : State) (i : Inst) : Bool :=
  (s.dist.insts.any fun j => takesOver s i j) || decide ((ownParts s i).elems ≠ i.elems) || decide ((ownParts s i).ops ≠ i.ops)

/-- The instances that may yield to a waiting node: the priority of an instance's node, against a test. -/
def yielding (s : State) (test : Node → Inst → Bool) : List Inst :=
  s.dist.insts.filter fun i => decide (i.st = .running) && !i.frozen && !switching s i && (match findNode s i.node with
    | some n => !n.aborting && test n i
    | none => false)

/-- An element is free, or one of those that yield holds it. -/
def elemYields (s : State) (ys : List Inst) (e : Nat) : Bool :=
  elemFree s e || ys.any fun i => decide (Table.get 0 s.fab.owner e = i.id + 1)

/-- A waiting node needs elements of an instance (R171): of a kind that it lacks, or at a place that its image can move to. -/
def needsOf (s : State) (ys : List Inst) (w : Node) (i : Inst) : Bool :=
  let fs := nodeImage s w
  ((lacks s w).any fun k => i.elems.any fun e => decide (elemKind e = k)) ||
  (!bitAt w.lrec 256 && demandFree s fs && allShifts.any fun t =>
    t.ok fs && (imageElems (fs.map t.frame)).all (elemYields s ys) &&
      (imageElems (fs.map t.frame)).any fun e => decide (Table.get 0 s.fab.owner e = i.id + 1))

/-- The priority of an instance. -/
def instPrio (s : State) (i : Inst) : Nat :=
  match findNode s i.node with
  | some n => n.prio.toNat
  | none => 0

/-- The order of choice (R171): lowest priority, then the earliest dispatch or restore; of two that share both, the lower instance id (DESIGN
CHOICE, log 188). -/
def yieldsBefore (s : State) (a b : Inst) : Bool :=
  decide (instPrio s a < instPrio s b) || (decide (instPrio s a = instPrio s b) &&
    (decide (a.startedAt < b.startedAt) || (decide (a.startedAt = b.startedAt) && decide (a.id < b.id))))

/-- The instance is the one that is chosen for a waiting node. -/
def chosenFor (s : State) (ys : List Inst) (w : Node) (i : Inst) : Bool :=
  (ys.any fun y => decide (y.id = i.id)) && needsOf s ys w i && !(ys.any fun y => needsOf s ys w y && yieldsBefore s y i)

/-! ## Space for the save (R423, R177) -/

/-- The SRAM bytes of an instance (R177). -/
def sramBytes (i : Inst) : Nat :=
  let count (k : Kind) : Nat := (i.elems.filter fun e => decide (elemKind e = k)).length
  1179648 * count .mt + 655360 * count .mx

/-- The SRAM bytes of a save. -/
def saveBytes (v : Save) : Nat :=
  let count (k : Kind) : Nat := (v.elems.filter fun e => decide (elemKind e = k)).length
  1179648 * count .mt + 655360 * count .mx

/-- The page of a recorded entry stands in module memory. -/
def SetPage.atT1 (s : State) (p : SetPage) : Bool :=
  !p.image && (match leafFor s p.tenant p.va with
    | some l => decide (entType l.ent = 0#2)
    | none => false)

/-- The instance is in its marker phase. -/
def Inst.marks (i : Inst) : Bool := match i.st with
  | .marking _ => true
  | _ => false

/-- T1 bytes that saves, the reservations of those that have begun (R423), and the copies of scratchpad images take. -/
def t1Images (s : State) : Nat :=
  (s.dist.saves.map saveBytes).sum + ((s.dist.insts.filter Inst.marks).map sramBytes).sum + spadSize * s.dist.copies.length

/-- T1 bytes that the Apsis engine accounts for: recorded pages that stand there, saves and image copies (DEDUCED, log 106). -/
def t1Used (s : State) : Nat := ((s.sets.filter fun p => p.atT1 s).map fun p => p.len).sum + t1Images s

/-- A tenant has no instance on the package: it is switched out. -/
def switchedOut (s : State) (tenant : BitVec 16) : Bool :=
  !s.dist.insts.any fun i => decide (i.st ≠ .saved) && decide (i.st ≠ .ended) && decide (tenantOf (findNode s i.node) = tenant)

/-- The host memory that the PF gave the engine, and what recorded pages take of it (R187, R412). -/
def t2Used (s : State) : Nat :=
  ((s.sets.filter fun p => !p.image && (match leafFor s p.tenant p.va with
    | some l => decide (entType l.ent = 1#2)
    | none => false)).map fun p => p.len).sum

/-- Start moves to T2 of unpinned pages of some tenants, earliest recorded first, as far as `need` bytes are wanted; a page that finds
the host pool full stays, and counts as a failed move (R89, R412). -/
def pushOut (s : State) (of : BitVec 16 → Bool) (need : Nat) : State :=
  let step (x : State × Nat × Nat) (p : SetPage) : State × Nat × Nat :=
    let (s, left, room) := x
    if left = 0 ∨ !of p.tenant ∨ holdsPinned s p ∨ p.moving ∨ !p.atT1 s then x
    else if room < p.len then (countTierErr s, left, room)
    else (startMove s p, left - p.len, room - p.len)
  (s.sets.foldl step (s, need, s.hub.t2size.toNat * 2 ^ 21 - t2Used s)).1

/-! ## The marker phase begins (R172) -/

/-- MARK with a slice number (R171). -/
def markTok (slice : BitVec 24) : Token := controlTok true (cMARK slice) 0#6 false

/-- Begin the save of an instance: MARK goes to the channels that enter the region, and its AGs inject it themselves. -/
def beginSave (s : State) (i : Inst) : State :=
  match findNode s i.node with
  | none => s
  | some n =>
    let s := injectSources s i n (markTok i.slice) false
    modInst s i.id fun i => { i with st := .marking (now s), marked := [], frozen := false }

/-- Pre-empt an instance if T1 has room for its save, else make room and pre-empt nothing now (R423). -/
def preemptInst (s : State) (i : Inst) : State :=
  let need := sramBytes i
  if t1Used s + need ≤ moduleTop then beginSave s i else pushOut s (switchedOut s) (t1Used s + need - moduleTop)

/-- PREEMPT (R171): a waiting node of strictly higher priority needs elements of the instance, and no free region meets its demand. -/
def execPreempt (inst : BitVec 32) (s : State) : Host.Outcome State Fault Refusal :=
  match findInst s inst.toNat with
  | none => .next s
  | some i =>
    let goes := s.dist.nodes.any fun w => awaitsElems s w && !regionFree s w &&
      chosenFor s (yielding s fun n _ => decide (n.prio.toNat < w.prio.toNat)) w i
    .next (if goes then preemptInst s i else s)

/-- SLICE_EXPIRY (R171): the instance has run its slice, and a node of another tenant, at equal or higher priority, waits for its
elements. -/
def execSliceExpiry (inst : BitVec 32) (s : State) : Host.Outcome State Fault Refusal :=
  match findInst s inst.toNat with
  | none => .next s
  | some i =>
    let spent (j : Inst) : Bool := decide (j.sliceUs ≠ 0) && decide (j.startedAt + j.sliceUs * usCycles ≤ now s)
    let goes := s.dist.nodes.any fun w => awaitsElems s w && !regionFree s w &&
      chosenFor s (yielding s fun n j => spent j && decide (n.tenant ≠ w.tenant) && decide (n.prio.toNat ≤ w.prio.toNat)) w i
    .next (if goes then preemptInst s i else s)

/-! ## Back-edge inputs (R173) -/

/-- Where the channels of a place go on: an element passes from any input to each of its outputs. -/
def onward (v : State) (i : Inst) (carry : Bool) (d : Dest) : List Dest :=
  match d with
  | .op loc _ => if opCode v loc = 3 ∧ !carry then [] else opDests v loc
  | .endp site _ => if i.has site then (localOuts v site).filterMap fun o => follow v (routeFuel v) site o.1 o.2 else []

/-- Places that are reached in at most `n` stretches. -/
def reached (v : State) (i : Inst) (carry : Bool) : Nat → List Dest → List Dest
  | 0, xs => xs
  | n + 1, xs => reached v i carry n (xs ++ xs.flatMap (onward v i carry)).eraseDups

/-- Stretches that suffice. -/
def reachFuel (i : Inst) : Nat := i.elems.length + i.ops.length + 1

/-- The input of a CARRY that a cycle passes (DEDUCED, log 104). -/
def backCarry (v : State) (i : Inst) (loc : OpAt) (k : Nat) : Bool :=
  decide (opCode v loc = 3) && (reached v i true (reachFuel i) (opDests v loc)).contains (.op loc k)

/-- The end of an element that holds the initial tokens of a cycle without a CARRY. -/
def backEnd (v : State) (i : Inst) (site : Site) (e : Nat) : Bool :=
  let n := match siteKind site with
    | .ce => (bits (ceEnd v site e) 8 4).toNat
    | .mt => if e < 8 then (bits (portBinding v ⟨site, BitVec.ofNat 3 e⟩) 7 7).toNat else 0
    | _ => 0
  decide (0 < n) && (reached v i false (reachFuel i) (onward v i false (.endp site e))).contains (.endp site e)

/-! ## An element saves (R173) -/

/-- MARK has headed a buffer since a cycle before this one (R173). -/
def markHeads (s : State) (k : Nat) : Bool :=
  match headAt s k with
  | some t => t.isCode 0x10#8 && headedBefore s k
  | none => false

/-- The number of an operator in an instance's list of what has saved. -/
def opMark (loc : OpAt) : Nat := 65536 + 4 * loc.site.toNat + loc.slot.toNat

/-- Note that an element or operator has saved. -/
def noteSaved (s : State) (i : Inst) (e : Nat) : State := modInst s i.id fun i => { i with marked := e :: i.marked }

/-- Enqueue MARK on local outputs, each with its kind. -/
def markOuts (s : State) (site : Site) (i : Inst) (outs : List (Nat × Nat × Bool)) : State :=
  outs.foldl (fun s o => sendOut s site (some i) o.1 o.2.1 (controlTok o.2.2 (cMARK i.slice) 0#6 false)) s

/-- The inputs of a list of ends at which an element waits for MARK. -/
def waitEnds (s : State) (i : Inst) (site : Site) (es : List Nat) : List Nat :=
  (es.filter fun e => !backEnd s i site e).map fun e => endKey site e

/-- A CE saves. -/
def markCe (s : State) (site : Site) (i : Inst) : State :=
  let ins := waitEnds s i site ((List.range 8).filter fun e => bitAt (ceEnd s site e) 0)
  let c := getCe s site
  if ins.all (markHeads s) && decide (c.firedNext ≤ now s) && outsRoom s site (ceOuts s site) then
    let s := markOuts (ins.foldl popBuf s) site i (ceOuts s site)
    setCe s site { getCe s site with saved := true }
  else s

/-- The AG of a port, where an AG drives it. -/
def portAg (s : State) (loc : PortAt) : Option AgAt :=
  let x := portDescOf s loc
  if x.1 ≠ 0#8 ∧ x.2.asrc.toNat < 2 then some ⟨loc.site, bits x.2.asrc 0 1⟩ else none

/-- An emission is MARK. -/
def Emission.isMark (e : Emission) : Bool :=
  match e.ctl with
  | some w => decide (bits w 0 8 = 0x10#8)
  | none => false

/-- A port has MARK on all that feeds it, and owes nothing but replies of armed waits. -/
def portMarked (s : State) (i : Inst) (loc : PortAt) : Bool :=
  let p := getPort s loc
  let k := endKey loc.site loc.port.toNat
  (!bitAt (portBinding s loc) 14 || backEnd s i loc.site loc.port.toNat || markHeads s k) &&
  (match portAg s loc with
    | some a => !i.elems.contains (a.site.toNat * 4 + 1 + a.sub.toNat) || (match p.reqs with
      | e :: _ => e.isMark
      | [] => false)
    | none => true) &&
  p.replies.all fun e => !e.after.isEmpty

/-- A port dequeues its MARKs. -/
def takeMarks (s : State) (i : Inst) (loc : PortAt) : State :=
  let k := endKey loc.site loc.port.toNat
  let s := if bitAt (portBinding s loc) 14 && !backEnd s i loc.site loc.port.toNat then popBuf s k else s
  let p := getPort s loc
  setPort s loc { p with reqs := p.reqs.filter fun e => !e.isMark }

/-- A memory tile saves. -/
def markMt (s : State) (site : Site) (i : Inst) : State :=
  let ports : List PortAt := (List.range 8).map fun k => ⟨site, BitVec.ofNat 3 k⟩
  if ports.all (portMarked s i) && outsRoom s site (mtOuts s site) then
    let s := ports.foldl (fun s loc => takeMarks s i loc) s
    let s := markOuts s site i (mtOuts s site)
    setMt s site { getMt s site with saved := true }
  else s

/-- The jobs of an instance at an engine. -/
def jobsAt (s : State) (site : Site) (i : Inst) : List Job :=
  s.dist.jobs.filter fun j => decide (j.eng = site.setWidth 13) && decide (j.inst = i.id)

/-- An engine has come to where it can save (R174): an MX between commands, a shared engine with no job of the region. -/
def engSettled (s : State) (site : Site) (i : Inst) : Bool :=
  if siteKind site = .mx then (jobsAt s site i).all fun j => !j.ended && j.run.fresh else (jobsAt s site i).isEmpty

/-- An engine saves. -/
def markEng (s : State) (site : Site) (i : Inst) : State :=
  let b := engBinding s site
  let ins := ([0, 1, 2].filter fun e => bitAt b (if e = 2 then 36 else 32 + e)).map fun e => endKey site e
  if ins.all (markHeads s) && engSettled s site i && outsRoom s site (engOuts s site) then
    noteSaved (markOuts (ins.foldl popBuf s) site i (engOuts s site)) i (site.toNat * 4)
  else s

/-- An AG injects MARK after its current emission and stops (R172); one that stands on a fault saves with the fault pending (R377). -/
def markAg (s : State) (loc : AgAt) (i : Inst) : State :=
  let a := getAg s loc
  if a.saved then (if markHeads s (agCtl loc) then popBuf s (agCtl loc) else s)
  else if !agSendsOn s loc then setAg s loc { a with saved := true }
  else if agSends s loc then
    let s := emitCtl s loc (cMARK i.slice)
    setAg s loc { getAg s loc with saved := true }
  else s

/-- An operator forwards MARK once it heads each input that is no back-edge. -/
def markOp (s : State) (loc : OpAt) (i : Inst) : State :=
  let c := opCfgOf s loc
  let o := getOp s loc
  let ins := ((List.range c.nin.toNat).filter fun k => !backCarry s i loc k).map fun k => opInKey loc.site loc.slot.toNat k
  if ins.all (markHeads s) && decide (o.lastFire ≤ now s) && opRoomAll s loc c c.nout.toNat then
    let s := opSendAll (ins.foldl popBuf s) loc (markTok i.slice) c.nout.toNat
    setOp s loc { getOp s loc with saved := true }
  else s

/-- The element or operator has saved. -/
def hasSaved (s : State) (i : Inst) (e : Nat) : Bool :=
  if e % 4 ≠ 0 then (getAg s ⟨BitVec.ofNat 12 (e / 4), BitVec.ofNat 1 (e % 4 - 1)⟩).saved
  else
    match elemKind e with
    | .ce => (getCe s (BitVec.ofNat 12 (e / 4))).saved
    | .mt => (getMt s (BitVec.ofNat 12 (e / 4))).saved
    | _ => i.marked.contains e

/-- Everything of the instance has saved. -/
def allSaved (s : State) (i : Inst) : Bool := i.elems.all (hasSaved s i) && i.ops.all fun x => (getOp s ⟨x.1, x.2⟩).saved

/-- MARK at an element of a marking region, by its number. -/
def markElem (s : State) (i : Inst) (e : Nat) : State :=
  let site : Site := BitVec.ofNat 12 (e / 4)
  if e % 4 ≠ 0 then markAg s ⟨site, BitVec.ofNat 1 (e % 4 - 1)⟩ i
  else if hasSaved s i e then s
  else
    match elemKind e with
    | .ce => markCe s site i
    | .mt => markMt s site i
    | _ => markEng s site i

/-- MARK (R173): in the cycle after MARK heads its inputs, an element (sub 0), an AG (sub 1 and 2) or an operator (sub 4 to 7) of a
region in its marker phase stops, dequeues the MARKs, saves, and enqueues MARK on every output. -/
def execMark (site : BitVec 12) (sub : BitVec 3) (s : State) : Host.Outcome State Fault Refusal :=
  let marks (i : Inst) : Bool := !i.frozen && i.marks
  if sub.toNat < 3 then
    match ownerOf s site sub.toNat with
    | some i => .next (if marks i then markElem s i (site.toNat * 4 + sub.toNat) else s)
    | none => .next s
  else if 4 ≤ sub.toNat then
    let loc : OpAt := ⟨site, bits sub 0 2⟩
    match opOwner s loc with
    | some i => .next (if marks i && !(getOp s loc).saved then markOp s loc i else s)
    | none => .next s
  else .next s

/-! ## The end of the marker phase (R174, R175) -/

/-- A remote request of a region is under way. -/
def regionRemotes (s : State) (i : Inst) : Bool :=
  s.links.remotes.any fun r =>
    match r.who with
    | .port site _ => i.elems.contains (site.toNat * 4)
    | .op site slot => i.ops.contains (site, slot)
    | .job id => (match findJob s id with
      | some j => decide (j.inst = i.id)
      | none => false)
    | _ => false

/-- Every memory request of a region has landed: what its ports still owe is the replies of armed waits, or, in a freeze, replies that
stand in their reserved space. -/
def requestsLanded (s : State) (i : Inst) : Bool :=
  (instMts i).all fun site => (getMt s site).ports.toList.all fun p => p.replies.all fun e => e.landed || !e.after.isEmpty

/-- A started job of a frozen region stands still: it is held, or waits for a token or for room that the region no longer gives
(DEDUCED, log 109). -/
def jobStuck (s : State) (j : Job) : Bool :=
  let b := engBinding s (engSite j.eng)
  j.run.held || engHalted s j.eng ||
  (engPlaced j.eng && ((bitAt b 33 && (dataHead s j).isNone) || (bitAt b 34 && !outRoom s (engSite j.eng) 8 (bits b 16 4).toNat)))

/-- The engine commands of a region have completed (R174, R423): shared engines have ended its jobs, an MX its current command. In a
freeze a started job that stands still stays as it is, and so does one that cannot start behind it (DEDUCED, log 109). -/
def commandsDone (s : State) (i : Inst) : Bool :=
  let jobs := s.dist.jobs.filter fun j => decide (j.inst = i.id)
  let stuck := jobs.any fun j => j.started && (if j.ended then !rdvReady s j else jobStuck s j)
  jobs.all fun j =>
    if engIsMx j.eng then i.frozen || (!j.ended && j.run.fresh)
    else i.frozen && (if j.ended then !rdvReady s j else if j.started then jobStuck s j else stuck && !startable s j)

/-- The marker phase or the freeze of an instance has come to its end. -/
def phaseOver (s : State) (i : Inst) : Bool :=
  (i.frozen || (allSaved s i && (instCes i).all fun site => (getCe s site).cmdq.isEmpty)) &&
  requestsLanded s i && commandsDone s i && !regionRemotes s i

/-- What stays of a buffer in a save: all but MARK (DEDUCED, log 108). -/
def unmarked (b : Buf) : Buf := { b with q := b.q.filter fun x => !x.1.isCode 0x10#8 }

/-- What stays of an operator. -/
def unmarkedOp (o : OpRun) : OpRun := { o with outq := o.outq.filter fun x => !x.2.1.isCode 0x10#8 }

/-- What stays of a memory tile. -/
def unmarkedMt (m : Mt) : Mt := { m with ports := m.ports.map fun p => { p with reqs := p.reqs.filter fun e => !e.isMark } }

/-- The save of an instance as it stands (R174). -/
def takeSave (s : State) (i : Inst) : Save :=
  let keep {α : Type} (own : Nat → Bool) (t : Table α) : Table α := t.filter fun x => own x.1
  let el (k : Nat) : Bool := i.elems.contains (k * 4)
  let bufs : Table Buf := ((keep (instBuf s i) s.fab.bufs).map fun x => (x.1, unmarked x.2)).filter fun x => !x.2.q.isEmpty
  let mts : Table Mt := (keep el s.fab.mts).map fun x => (x.1, unmarkedMt x.2)
  let ags : Table Ag := keep (fun k => i.elems.contains (k / 2 * 4 + 1 + k % 2)) s.fab.ags
  let isOp (k : Nat) : Bool := i.ops.contains (BitVec.ofNat 12 (k / 4), BitVec.ofNat 2 k)
  let ops : Table OpRun := (keep isOp s.fab.ops).map fun x => (x.1, unmarkedOp x.2)
  { inst := i.id, at0 := now s, elems := i.elems, slots := i.ops, dbx := 0, dby := 0, ces := keep el s.fab.ces, mts := mts, ags := ags,
    mxs := keep el s.fab.mxs, hpus := keep el s.fab.hpus, cps := keep el s.fab.cps,
    stes := keep el s.fab.stes, bufs := bufs, ops := ops,
    spad := keep (fun k => el (k / 2 ^ 20)) s.store.spad, spadDesc := keep (fun k => el (k / 2 ^ 14)) s.store.spadDesc,
    spadPsn := keep (fun k => el (k / 2 ^ 14)) s.store.spadPsn }

/-- The jobs of an instance stand still. -/
def parkJobs (s : State) (i : Inst) : State :=
  { s with dist := { s.dist with jobs := mapWhere (fun j => decide (j.inst = i.id)) (fun (j : Job) => { j with started := false }) s.dist.jobs } }

/-- MARKER_PHASE_END (R174, R175): every element and operator has saved, or the region is frozen, and every request and command has
completed; the stash's dirty lines are written back, and the SRAM part begins to move. -/
def execMarkerPhaseEnd (inst : BitVec 32) (s : State) : Host.Outcome State Fault Refusal :=
  match findInst s inst.toNat with
  | none => .next s
  | some i =>
    match i.st with
    | .marking _ =>
      if phaseOver s i then
        let s := parkJobs (dropWalks (emptyStash s i) i) i
        let v := takeSave s i
        let s := { s with dist := { s.dist with saves := s.dist.saves ++ [v] } }
        .next (modInst s i.id fun i => { i with st := .swapOut i.frozen, limitZero := [] })
      else .next s
    | _ => .next s

/-- The limit of a marker phase is reached (R175, R178, R392): MARKLIM; or 0 for a halted element, for a request of higher priority, or
for a restore that such a request has waited for. -/
def limitReached (s : State) (i : Inst) (at0 : Nat) : Bool :=
  match findNode s i.node with
  | none => false
  | some n =>
    let lim := i.markUs * usCycles
    let late (w : Node) : Bool := i.limitZero.contains w.id && awaitsElems s w && decide (n.prio.toNat < w.prio.toNat)
    let asked (w : Node) : Bool := awaitsElems s w && decide (n.prio.toNat < w.prio.toNat) && decide (at0 ≤ w.readyAt) &&
      needsOf s (i :: yielding s fun m _ => decide (m.prio.toNat < w.prio.toNat)) w i
    s.dist.nodes.any late || anyHalted s i || decide (at0 + lim ≤ now s) || s.dist.nodes.any asked

/-- FREEZE (R175): the marker phase has not ended within its limit: the region's clocks are gated. -/
def execFreeze (inst : BitVec 32) (s : State) : Host.Outcome State Fault Refusal :=
  match findInst s inst.toNat with
  | none => .next s
  | some i =>
    match i.st with
    | .marking at0 => .next (if !i.frozen && limitReached s i at0 then modInst s i.id fun i => { i with frozen := true } else s)
    | _ => .next s

end Sys2Proof.Machine
end

