-- ==== Sys2Proof/Machine/Tenancy.lean ====
section
/-! DEFINITION. The SRAM part of a save and the way back (R174, R176), and the switch of a tenant's recorded set (R88, R89, R412). -/

namespace Sys2Proof.Machine

/-! ## The SRAM part (R174, R176) -/

/-- The bytes of a matrix tile's image: its accumulator slots and its weight buffer (R174, R177). -/
def mxSize : Nat := 655360

/-- The images of a list of tiles, memory or matrix, join a tenant's recorded set at a tier (R88, R174) (DEDUCED, log 110). -/
def recordImages (s : State) (tenant : BitVec 16) (tier : BitVec 2) (sites : List Site) : State :=
  let one (site : Site) : SetPage :=
    { tenant := tenant, image := true, va := site.toNat, len := if siteKind site = .mx then mxSize else spadSize, tier := tier, at0 := now s,
      hint := false, pinned := false, resident := true, moving := false }
  sites.foldl (fun s site => recordEntry s (one site)) s

/-- The matrix tiles of an instance. -/
def instMxs (i : Inst) : List Site := (instSites i).filter fun site => decide (siteKind site = .mx)

/-- The save is complete: the slice number rises, the elements are freed, and the instance waits in the pool (R171, R176). -/
def saveComplete (s : State) (i : Inst) : State :=
  let tenant := tenantOf (findNode s i.node)
  let flags := instFlags s i
  let s := recordImages s tenant 1#2 (instMts i ++ instMxs i)
  let s := dropParts s i
  let s := modNode s i.node fun n => { n with afl := n.afl ||| flags }
  modInst s i.id fun i => { i with st := .saved, slice := i.slice + 1#24, elems := [], ops := [], vcs := [], frozen := false, marked := [] }

/-- Key of a table by site, with `per` entries to a site, after a translation. -/
def Shift.perSite (t : Shift) (per k : Nat) : Nat := (t.index (BitVec.ofNat 12 (k / per))).toNat * per + k % per

/-- The SRAM part is back (R176): scratchpads, matrix tiles and set slots stand at the new sites. -/
def sramBack (s : State) (v : Save) : State :=
  let t : Shift := ⟨v.dbx, v.dby⟩
  let site (k : Nat) : Nat := t.perSite 1 k
  let fab : Fabric :=
    { s.fab with
      mxs := putBack Mx.empty site s.fab.mxs v.mxs
      hpus := putBack Hpu.empty site s.fab.hpus v.hpus }
  let store : Store :=
    { s.store with
      spad := putBack 0#8 (t.perSite (2 ^ 20)) s.store.spad v.spad
      spadDesc := putBack 0x00FF#16 (t.perSite (2 ^ 14)) s.store.spadDesc v.spadDesc
      spadPsn := putBack false (t.perSite (2 ^ 14)) s.store.spadPsn v.spadPsn }
  { s with fab := fab, store := store }

/-- The frames that a restore writes: all but the data of scratchpads, which the SRAM part holds. -/
def restoreFrames (i : Inst) : List Frame :=
  let t : Shift := ⟨i.dbx.toInt, i.dby.toInt⟩
  (i.image.filter fun (f : Frame) => decide (f.cls ≠ 2) || decide (f.idx < 8)).map t.frame

/-- SRAM_SWAP_COMPLETE (R174 to R177): the SRAM part of a save has moved to T1, or that of a restore back to T0; then the frames are
written anew. -/
def execSramSwapComplete (inst : BitVec 32) (s : State) : Host.Outcome State Fault Refusal :=
  match findInst s inst.toNat with
  | none => .next s
  | some i =>
    match i.st with
    | .swapOut _ => .next (saveComplete s i)
    | .swapIn =>
      match s.dist.saves.find? fun v => decide (v.inst = i.id) with
      | some v =>
        let s := sramBack s v
        .next (modInst s i.id fun i => { i with st := .configuring, frames := restoreFrames i })
      | none => .next s
    | _ => .next s

/-! ## Restore (R176, R423) -/

/-- A job of a restored instance follows its engine and its task's site. -/
def moveJob (t : Shift) (j : Job) : Job :=
  let eng : EngId := if engPlaced j.eng then (t.index (engSite j.eng)).setWidth 13 else j.eng
  { j with eng := eng, cc := j.cc.map fun c => (t.index c.1, c.2) }

/-- A restore begins: the sites are taken, and the SRAM part begins to move back (DEDUCED, log 111). -/
def beginRestore (s : State) (n : Node) (i : Inst) (v : Save) (t : Shift) : State :=
  let elems := v.elems.map t.elem
  let ops := v.slots.map fun x => (t.index x.1, x.2)
  let owner := elems.foldl (fun o e => Table.set 0 o e (i.id + 1)) s.fab.owner
  let names : Table Nat := i.names.foldl (fun m x => Table.insert m (t.perSite 1 x.1) x.2) []
  let w : Save := { v with dbx := t.dbx, dby := t.dby }
  let saves := mapWhere (fun x => decide (x.inst = i.id)) (fun _ => w) s.dist.saves
  let jobs := mapWhere (fun (j : Job) => decide (j.inst = i.id)) (moveJob t) s.dist.jobs
  let s := { s with fab := { s.fab with owner := owner }, dist := { s.dist with saves := saves, jobs := jobs } }
  let own := v.elems.contains ((n.fld 948 12 : BitVec 12).toNat * 4)
  let s := if own then modNode s n.id fun n => { n with lrec := setBits n.lrec 948 (t.index (n.fld 948 12)) } else s
  modInst s i.id fun i =>
    { i with
      st := .swapIn
      elems := elems
      ops := ops
      vcs := reserve s none elems (restoreFrames { i with dbx := BitVec.ofInt 8 (i.dbx.toInt + t.dbx), dby := BitVec.ofInt 8 (i.dby.toInt + t.dby) })
      names := names
      onto := none
      startedAt := now s
      dbx := BitVec.ofInt 8 (i.dbx.toInt + t.dbx)
      dby := BitVec.ofInt 8 (i.dby.toInt + t.dby) }

/-- RESTORE (R176): a saved instance, in the order of the pool and past its residency gate, is restored on its sites or on a block
translation of them. -/
def execRestore (inst : BitVec 32) (dbx dby : BitVec 8) (s : State) : Host.Outcome State Fault Refusal :=
  match findInst s inst.toNat, s.dist.saves.find? fun v => decide (v.inst = inst.toNat) with
  | some i, some v =>
    match findNode s i.node with
    | none => .next s
    | some n =>
      let t : Shift := ⟨dbx.toInt, dby.toInt⟩
      if i.st = .saved ∧ !n.aborting ∧ gateMet s n ∧ firstInPool s n ∧ restoreFits s n i v t then .next (beginRestore s n i v t)
      else .next s
  | _, _ => .next s

/-! ## The switch of a tenant's set (R88, R89, R412) -/

/-- The valid entries of a table of `n` entries: index and entry. -/
def tableEntries (s : State) (base n : Nat) : List (Nat × BitVec 64) :=
  let inside := s.store.mem.filter fun x => decide (base ≤ x.1) && decide (x.1 < base + 8 * n)
  ((inside.map fun x => (x.1 - base) / 8).eraseDups).filterMap fun i =>
    match readEntry s (base + 8 * i) with
    | .ok e => some (i, e)
    | .error _ => none

/-- The addresses at which some table of a tenant has a valid entry of the last level or a leaf. -/
def mappedVas (s : State) (root : Nat) : List Nat :=
  (tableEntries s root 16384).flatMap fun a =>
    if bitAt a.2 1 || !tableOk a.2 32768 then []
    else (tableEntries s (entAddr a.2) 4096).flatMap fun b =>
      let vb := a.1 * 2 ^ 42 + b.1 * 2 ^ 30
      if bitAt b.2 1 then [vb]
      else if !tableOk b.2 4096 then []
      else (tableEntries s (entAddr b.2) 512).flatMap fun c =>
        let vc := vb + c.1 * 2 ^ 21
        if bitAt c.2 1 then [vc]
        else if !tableOk c.2 4096 then []
        else (tableEntries s (entAddr c.2) 512).map fun d => vc + d.1 * 4096

/-- The pages of a tenant whose A is set: their first address and leaf, each once. -/
def accessedPages (s : State) (tenant : BitVec 16) : List (Nat × Leaf) :=
  let ls := (mappedVas s (tenantRoot s tenant)).filterMap fun va =>
    match leafFor s tenant va with
    | some l => if bitAt l.ent 4 then some (va / 2 ^ l.lg * 2 ^ l.lg, l) else none
    | none => none
  ls.eraseDups

/-- Record an accessed page at the tier where it stands, and clear its A (R88). -/
def recordPage (s : State) (tenant : BitVec 16) (x : Nat × Leaf) : State :=
  let tier : BitVec 2 := if entType x.2.ent = 0#2 then 1#2 else 2#2
  let p : SetPage :=
    { tenant := tenant, image := false, va := x.1, len := 2 ^ x.2.lg, tier := tier, at0 := now s, hint := false, pinned := false,
      resident := false, moving := false }
  recordEntry (setMemByte s x.2.loc (memByte s x.2.loc &&& 0xEF#8)) p

/-- The instances of a tenant that stand on the package. -/
def tenantInsts (s : State) (tenant : BitVec 16) : List Inst :=
  s.dist.insts.filter fun i => decide (tenantOf (findNode s i.node) = tenant) && decide (i.st ≠ .saved)

/-- Build a tenant's recorded set as it is switched out (R88): accessed pages, scratchpad images, and the ranges of TIERHINT since the
last switch; pins stay (DEDUCED, log 112). -/
def buildSet (s : State) (tenant : BitVec 16) : State :=
  let saved (site : Nat) : Bool := s.dist.saves.any fun v =>
    v.elems.contains (site * 4) && (match findInst s v.inst with
      | some i => decide (tenantOf (findNode s i.node) = tenant)
      | none => false)
  let stays (p : SetPage) : Bool := decide (p.tenant ≠ tenant) || p.pinned || p.moving || p.hint || (p.image && saved p.va)
  let sets := (s.sets.filter stays).map fun p => if p.tenant = tenant then { p with hint := false } else p
  let s := { s with sets := sets }
  let s := (accessedPages s tenant).foldl (fun s x => recordPage s tenant x) s
  recordImages s tenant 0#2 ((tenantInsts s tenant).flatMap instMts)

/-- The image of a tile, as it is copied to T1 (R89). -/
def imageCopy (s : State) (tenant : BitVec 16) (site : Site) : ImageCopy :=
  { tenant := tenant, site := site, spad := s.store.spad.filter fun x => decide (x.1 / 2 ^ 20 = site.toNat),
    desc := s.store.spadDesc.filter fun x => decide (x.1 / 2 ^ 14 = site.toNat),
    psn := s.store.spadPsn.filter fun x => decide (x.1 / 2 ^ 14 = site.toNat) }

/-- Copy the scratchpad images of a tenant's instances to T1, in place of its earlier copies (R89). -/
def copyImages (s : State) (tenant : BitVec 16) : State :=
  let fresh := ((tenantInsts s tenant).flatMap instMts).map (imageCopy s tenant)
  { s with dist := { s.dist with copies := (s.dist.copies.filter fun c => decide (c.tenant ≠ tenant)) ++ fresh } }

/-- An entry of the incoming set that stands below its recorded tier. -/
def wantsUp (s : State) (tenant : BitVec 16) (p : SetPage) : Bool :=
  decide (p.tenant = tenant) && !p.image && !p.moving && decide (p.tier = 1#2) && (match engineLeaf s tenant p.va with
    | some l => decide (entType l.ent = 1#2)
    | none => false)

/-- An entry of the incoming set recorded at T1 for which the engine finds no translation: its move fails (R399, R412). -/
def noPage (s : State) (tenant : BitVec 16) (p : SetPage) : Bool :=
  decide (p.tenant = tenant) && !p.image && !p.moving && decide (p.tier = 1#2) && (engineLeaf s tenant p.va).isNone

/-- T1 bytes that stay taken once the moves under way have ended. -/
def t1Claimed (s : State) : Nat :=
  ((s.sets.filter fun p => !p.image && (p.atT1 s != p.moving)).map fun p => p.len).sum + t1Images s

/-- Start the moves of the incoming set to T1, earliest recorded first, as far as T1 has room; what does not fit is a failed move. Its
images that left T0 with a save return with the restore (R176); a copy of one that stands at T0 has served (DEDUCED, log 112). -/
def pullIn (s : State) (tenant : BitVec 16) : State :=
  let s := { s with dist := { s.dist with copies := s.dist.copies.filter fun c => decide (c.tenant ≠ tenant) } }
  let step (x : State × Nat) (p : SetPage) : State × Nat :=
    if noPage x.1 tenant p then (countTierErr x.1, x.2)
    else if !wantsUp x.1 tenant p then x
    else if x.2 < p.len then (countTierErr x.1, x.2)
    else (startMove x.1 p, x.2 - p.len)
  (s.sets.foldl step (s, moduleTop - t1Claimed s)).1

/-- A page of a tenant moves to T2. -/
def movesOut (s : State) (tenant : BitVec 16) : Bool := s.sets.any fun p => decide (p.tenant = tenant) && p.moving && p.atT1 s

/-- The incoming set of a switch moves once the outgoing pages have moved (R89). -/
def switchOn (s : State) (x : BitVec 16 × BitVec 16) : State :=
  if movesOut s x.1 then { s with dist := { s.dist with switches := s.dist.switches ++ [x] } } else pullIn s x.2

/-- The switches that wait, in every cycle. -/
def switchesTick (s : State) : State :=
  s.dist.switches.foldl switchOn { s with dist := { s.dist with switches := [] } }

/-- TENANT_SWITCH (R88, R89, R412): the outgoing tenant's set is recorded, its dirty lines are written back and its images copied to T1;
its pages move to T2 as far as the incoming set needs their room, and then the incoming set begins to move to its tiers. -/
def execTenantSwitch (outgoing incoming : BitVec 16) (s : State) : Host.Outcome State Fault Refusal :=
  let s := (tenantInsts s outgoing).foldl (fun s i => emptyStash s (ownParts s i)) s
  let s := copyImages (buildSet s outgoing) outgoing
  let want := ((s.sets.filter (wantsUp s incoming)).map fun p => p.len).sum
  let s := if outgoing = incoming then s else pushOut s (fun t => decide (t = outgoing)) (t1Used s + want - moduleTop)
  .next (switchOn s (outgoing, incoming))

end Sys2Proof.Machine
end

