-- ==== Sys2Proof/Machine/Clock.lean ====
section
/-! DEFINITION. What happens in every cycle of itself, and an engine's command word that its engine refuses on arrival. -/

namespace Sys2Proof.Machine

/-- One cycle passes (R3, R304): the counter rises by 1, firmware's answer stands (R186), every command port gives up one entry
(R294), and the watchdogs (R391) and the residency gates (R386) count, and the incoming sets of tenant switches move once the outgoing
pages have (R89) (DESIGN CHOICE, log 147; DESIGN CHOICE, log 150). Held nodes look again at what they wait for (R35). -/
def tick (s : State) : State :=
  let s := { s with cycle := s.cycle + 1#64, hub := { s.hub with fwBusy := false } }
  gatesTick (dogsTick (drainPorts (mergeAll (switchesTick (depsTick s)))))

/-! ## The host's accesses (R98, R99) -/

/-- The host reaches a home: a block of its own memory, or of module memory. -/
def hostReaches (home : Nat) : Bool :=
  decide (home % 64 = 0) && (homeIsHost home || (homeIsModule home && decide (home < moduleTop)))

/-- What a move does that runs no record: a host agent's access to a block, at system scope in the order of its function's requests
(R98, R99) (DESIGN CHOICE, log 156). -/
def outsideMove (s : State) : Move → State
  | .host fn write home mask data =>
    if !hostReaches home then s
    else if write then engStore s (hostParty fn) (.writeBack 0) 0#16 home 0 0#8 0#6 scopeSystem mask data none false
    else
      let x := engLoad s (hostParty fn) home 0#8 0#6
      { x.1 with links := { x.1.links with hostGot := x.2.delivered.data } }
  | .tick => s
  | .stage _ _ _ => s
  | .ag _ _ => s
  | .port _ _ => s
  | .engine _ => s
  | .op _ _ => s
  | .event _ => s

/-! ## BADCMD on arrival (R244, R340) -/

/-- The tokens that a summary tree command takes (R357), from its descriptor. -/
def steTokens (opc : Nat) (d : TreeDesc) : Nat :=
  if !d.dimOk then 0
  else
    match opc with
    | 0x31 => 1 + vecBlocks d.ktype d.kfmt d.dim + vecBlocks d.vtype d.vfmt d.dim
    | 0x33 => vecBlocks (queryType d) 0#8 d.dim
    | 0x34 => 1
    | 0x35 => 2
    | _ => 0

/-- The tokens that a refused word takes, as far as its fields and its descriptor determine them (R340): none for a reserved
opcode or one of another class. -/
def badTokens (s : State) (j : Job) : Nat :=
  let w := jobWord s j
  let c := cmdOfWord w
  let opc := (opcOfWord w).toNat
  if opc / 16 ≠ engineClass j.eng then 0
  else if opc = 0x10 then (if bitAt c.ops 61 then (bits c.ops 62 13).toNat + 1 else 0)
  else if opc = 0x11 ∨ opc = 0x12 then mulTokens c
  else if 0x20 ≤ opc ∧ opc ≤ 0x24 then copyWordTokens (opcOfWord w) c s j
  else if 0x30 ≤ opc ∧ opc ≤ 0x37 then
    match peekDesc s j (cmdVa c) with
    | some d => steTokens opc d
    | none => 0
  else 0

/-- The word is one of an HPU's commands. -/
def hpuWord (s : State) (j : Job) : Bool :=
  let opc := (opcOfWord (jobWord s j)).toNat
  decide (engineClass j.eng = 4) && decide (0x40 ≤ opc) && decide (opc ≤ 0x45)

/-- A step of a job whose word its engine refuses (R244): it performs no access, takes the tokens that it determines, and ends its
job with BADCMD (DEDUCED, log 133). -/
def badWord (s : State) (j : Job) : State :=
  let w := jobWord s j
  if !j.started || j.ended || !engMayRun s j then s
  else if j.run.dead || j.run.acted then finishStep s j
  else if j.run.fresh && (j.refuted || jobAborted s j) then endJob s j (if j.refuted then stRefuted else 0#16)
  else if !hpuWord s j then killCommand s j stBad true (badTokens s j)
  else if j.run.taken.isEmpty then hpuOpen (opcOfWord w) (cmdOfWord w) false j s
  else hpuStep (opcOfWord w) (cmdOfWord w) (fun _ => pure []) j s

/-- What a move does whose record is no well-formed instruction: an engine ends the job (R244); no other element holds such a
word, since its frame receiver refuses it (R220). -/
def onIllFormed (m : Move) (r : Fault) (s : State) : Host.Outcome State Fault Refusal :=
  match m with
  | .engine id =>
    match findJob s id with
    | some j => .next (badWord s j)
    | none => .next s
  | _ => .fault r

end Sys2Proof.Machine
end

