-- ==== Sys2Proof/Machine/Hyp.lean ====
section
/-! DEFINITION. The hypothesis controller (R161 to R164, R361, R408 to R411) and the commands of the Apsis engine (R91, R362). -/

namespace Sys2Proof.Machine

/-! ## Stamps (R316, R409) -/

/-- What a resolution makes of a stamp: an id and its refuted bit. -/
abbrev Restamp := BitVec 6 → Bool → BitVec 6 × Bool

/-- Restamp a token. -/
def Token.restamp (f : Restamp) (t : Token) : Token := { t with hyp := (f t.hyp t.refuted).1, refuted := (f t.hyp t.refuted).2 }

/-- Restamp a buffer. -/
def Buf.restamp (f : Restamp) (b : Buf) : Buf := { b with q := b.q.map fun x => (x.1.restamp f, x.2) }

/-- Restamp what an operator holds. -/
def OpRun.restamp (f : Restamp) (o : OpRun) : OpRun :=
  let eos := f o.eosHyp o.eosRef
  { o with
    outq := o.outq.map fun x => (x.1, x.2.1.restamp f, x.2.2)
    initDue := o.initDue.map fun h => f h.1 h.2
    late := o.late.map fun x => (x.1, x.2.restamp f)
    eosHyp := eos.1
    eosRef := eos.2 }

/-- Restamp an emission that stands in a port. -/
def Emission.restamp (f : Restamp) (e : Emission) : Emission :=
  { e with hyp := (f e.hyp e.refuted).1, refuted := (f e.hyp e.refuted).2 }

/-- Restamp a request whose reply a port owes. -/
def ReplyEnt.restamp (f : Restamp) (r : ReplyEnt) : ReplyEnt :=
  { r with hyp := (f r.hyp r.refuted).1, refuted := (f r.hyp r.refuted).2, toks := r.toks.map (fun t => t.restamp f),
           dat := r.dat.map fun t => t.restamp f }

/-- Restamp a port. -/
def Port.restamp (f : Restamp) (p : Port) : Port :=
  { p with
    reqs := p.reqs.map fun e => e.restamp f
    part := p.part.map fun t => t.restamp f
    held := p.held.map fun t => t.restamp f
    replies := p.replies.map fun r => r.restamp f }

/-- Restamp a memory tile. -/
def Mt.restamp (f : Restamp) (m : Mt) : Mt :=
  { m with
    ports := m.ports.map fun p => p.restamp f
    waiters := m.waiters.map fun w => { w with hyp := (f w.hyp w.refuted).1, refuted := (f w.hyp w.refuted).2 } }

/-- Restamp an AG: its HID. -/
def Ag.restamp (f : Restamp) (a : Ag) : Ag := { a with hid := (f a.hid a.hidRef).1, hidRef := (f a.hid a.hidRef).2 }

/-- Restamp an entry of a command port. -/
def CmdEntry.restamp (f : Restamp) : CmdEntry → CmdEntry
  | .cmd task word target cc hyp refuted => .cmd task word target cc (f hyp refuted).1 (f hyp refuted).2
  | .fork task mask cc hyp refuted => .fork task mask cc (f hyp refuted).1 (f hyp refuted).2

/-- A task under a resolved id (R163, R164, R410): it goes on under the id's new name, or is orphaned under `anc`, the nearest
surviving ancestor. -/
def Task.restamp (f : Restamp) (anc : BitVec 6) (k : Task) : Task :=
  if (f k.hyp false).2 then { k with hyp := anc, orphaned := k.orphaned || (decide (k.st ≠ .done) && decide (k.st ≠ .idle)) }
  else { k with hyp := (f k.hyp false).1 }

/-- Restamp a CE. -/
def Ce.restamp (f : Restamp) (anc : BitVec 6) (c : Ce) : Ce :=
  { c with tasks := c.tasks.map (fun k => k.restamp f anc), cmdq := c.cmdq.map fun e => e.restamp f }

/-- Restamp a job: a refuted one ends at its next command boundary (R164). -/
def Job.restamp (f : Restamp) (j : Job) : Job :=
  { j with
    hyp := (f j.hyp j.refuted).1
    refuted := (f j.hyp j.refuted).2
    run := { j.run with taken := j.run.taken.map (fun t => t.restamp f), outq := j.run.outq.map fun t => t.restamp f } }

/-- Weights loaded under an id (R411): they take its new name, or become +0 with descriptor 0x00FF. -/
def Mx.restamp (f : Restamp) (m : Mx) : Mx :=
  m.whyp.foldl (fun m kh =>
    let r := f kh.2 false
    if r.2 then
      { m with wdat := Table.set 0#512 m.wdat kh.1 0#512, wdesc := Table.set 0x00FF#16 m.wdesc kh.1 0x00FF#16,
               whyp := Table.set 0#6 m.whyp kh.1 0#6 }
    else { m with whyp := Table.set 0#6 m.whyp kh.1 r.1 }) m

/-- Change the entries of a table whose keys a test selects; entries at the default leave it. -/
def Table.mapAt {α : Type} [DecidableEq α] (dflt : α) (sel : Nat → Bool) (f : α → α) (t : Table α) : Table α :=
  (t.map fun ka => if sel ka.1 then (ka.1, f ka.2) else ka).filter fun ka => decide (ka.2 ≠ dflt)

/-! ## The regions of a context -/

/-- The instance works under a hypothesis context. -/
def instOfCtx (s : State) (ctx : BitVec 8) (i : Inst) : Bool := decide (ctxOf (findNode s i.node) = ctx)

/-- So does an instance by its number. -/
def idOfCtx (s : State) (ctx : BitVec 8) (id : Nat) : Bool :=
  match findInst s id with
  | some i => instOfCtx s ctx i
  | none => false

/-- So does the owner of an element. -/
def ownOfCtx (s : State) (ctx : BitVec 8) (site sub : Nat) : Bool :=
  match ownerOf s (BitVec.ofNat 12 site) sub with
  | some i => instOfCtx s ctx i
  | none => false

/-- The sub-index of the element behind an endpoint: the ctl inputs of an MT belong to its AGs. -/
def endSub (e : Nat) : Nat := if e = 8 then 1 else if e = 9 then 2 else 0

/-- A buffer belongs to a region of the context: by its element, its routing entry, or its operator. -/
def bufOfCtx (s : State) (ctx : BitVec 8) (k : Nat) : Bool :=
  if k < 65536 then ownOfCtx s ctx (k / 16) (endSub (k % 16))
  else if k < 2097152 then
    match Table.get none s.fab.routes k with
    | some r => idOfCtx s ctx r.inst
    | none => false
  else
    let q := k - 2097152
    match opOwner s ⟨BitVec.ofNat 12 (q / 16), BitVec.ofNat 2 (q / 4)⟩ with
    | some i => instOfCtx s ctx i
    | none => false

/-- An operator of a region of the context, by its key. -/
def opOfCtx (s : State) (ctx : BitVec 8) (k : Nat) : Bool :=
  match opOwner s ⟨BitVec.ofNat 12 (k / 4), BitVec.ofNat 2 k⟩ with
  | some i => instOfCtx s ctx i
  | none => false

/-- Restamp a saved instance. -/
def Save.restamp (f : Restamp) (anc : BitVec 6) (v : Save) : Save :=
  let every (_ : Nat) : Bool := true
  { v with
    ces := Table.mapAt Ce.empty every (fun c => c.restamp f anc) v.ces
    mts := Table.mapAt Mt.empty every (fun m => m.restamp f) v.mts
    ags := Table.mapAt Ag.empty every (fun a => a.restamp f) v.ags
    mxs := Table.mapAt Mx.empty every (fun m => m.restamp f) v.mxs
    bufs := Table.mapAt Buf.empty every (fun b => b.restamp f) v.bufs
    ops := Table.mapAt OpRun.empty every (fun o => o.restamp f) v.ops }

/-- Restamp everything that the regions of a context hold (R163, R409 to R411): tokens, emissions, queued requests and jobs, HIDs,
tasks, weights (DEDUCED, log 33). -/
def restampAll (s : State) (ctx : BitVec 8) (f : Restamp) (anc : BitVec 6) : State :=
  let fab := s.fab
  let fab2 : Fabric :=
    { fab with
      bufs := Table.mapAt Buf.empty (bufOfCtx s ctx) (fun b => b.restamp f) fab.bufs
      ops := Table.mapAt OpRun.empty (opOfCtx s ctx) (fun o => o.restamp f) fab.ops
      ces := Table.mapAt Ce.empty (fun k => ownOfCtx s ctx k 0) (fun c => c.restamp f anc) fab.ces
      mts := Table.mapAt Mt.empty (fun k => ownOfCtx s ctx k 0) (fun m => m.restamp f) fab.mts
      ags := Table.mapAt Ag.empty (fun k => ownOfCtx s ctx (k / 2) (1 + k % 2)) (fun a => a.restamp f) fab.ags
      mxs := Table.mapAt Mx.empty (fun k => ownOfCtx s ctx k 0) (fun m => m.restamp f) fab.mxs }
  let jobs := mapWhere (fun j => idOfCtx s ctx j.inst) (fun j => j.restamp f) s.dist.jobs
  let arrived := mapWhere (fun x => idOfCtx s ctx x.2.inst) (fun x => (x.1, x.2.restamp f)) s.dist.arrived
  let saves := mapWhere (fun v => idOfCtx s ctx v.inst) (fun v => v.restamp f anc) s.dist.saves
  { s with fab := fab2, dist := { s.dist with jobs := jobs, arrived := arrived, saves := saves } }

/-! ## Records of REPLAY (R310) -/

/-- Byte 69 of the record at index `t`, with the refuted bit, as a block and its mask (R310). -/
def refutedByte (o : OpRun) (t : Nat) : Block := (2#2 ++ (o.stamps.getD t (0#6, false)).1).setWidth 512 <<< 40

/-- The record's token has an id among the dead, as resolutions have left it, and no refuted bit. -/
def recordDies (dead : BitVec 6 → Bool) (o : OpRun) (t : Nat) : Bool :=
  let id := renamed { o with emitted := t } (o.stamps.getD t (0#6, false))
  dead id.1 && !id.2

/-- Set the refuted bit in every record that a REPLAY holds in its queue and whose id is among the dead (R310, R409): a store of the byte
at region scope through the stash of REPLAY.MT, as its records are stored. -/
def refuteRecords (dead : BitVec 6 → Bool) (s : State) (k : Nat) : State :=
  let loc : OpAt := ⟨BitVec.ofNat 12 (k / 4), BitVec.ofNat 2 k⟩
  let o := getOp s loc
  let c := opCfgOf s loc
  ((liveRecords o).filter (recordDies dead o)).foldl (fun s t =>
    match recordHome s loc c t with
    | none => s
    | some h =>
      storeZero s (opParty s (replayMt c) loc) (replayMt c) (h + 64) (replayBuf c + 128 * t + 64) 4#3 scopeRegion (32#64) (refutedByte o t) none false) s

/-- The same in the queues of a saved instance, whose records stand at their homes: a store of the byte there, which to a peer is a
write that the resolution waits for. -/
def refuteSaved (dead : BitVec 6 → Bool) (ctx : BitVec 8) (who : Requester) (s : State) (v : Save) : State :=
  match findInst s v.inst with
  | none => s
  | some i =>
    if !instOfCtx s ctx i then s
    else
      v.ops.foldl (fun s ko => ((liveRecords ko.2).filter (recordDies dead ko.2)).foldl (fun s t =>
        match queueHome s i (savedBuf v i ko.1) t with
        | none => s
        | some h =>
          engStore s controlParty who (tenantOf (findNode s i.node)) (h + 64) 0 0#8 0#6 scopeDevice (32#64) (refutedByte ko.2 t) none false) s) s

/-- Note a resolution with an operator, for the records of its queue (R163, R310). -/
def OpRun.noted (h : BitVec 6) (p : Option (BitVec 6)) (o : OpRun) : OpRun :=
  if o.recorded = 0 then o else { o with renames := o.renames ++ [(o.recorded, h, p)] }

/-- Note resolutions with every operator of a context's regions, the saved ones too. -/
def noteRecords (s : State) (ctx : BitVec 8) (hs : List (BitVec 6)) (p : Option (BitVec 6)) : State :=
  let note (o : OpRun) : OpRun := hs.foldl (fun o h => o.noted h p) o
  let saves := mapWhere (fun v => idOfCtx s ctx v.inst) (fun v => { v with ops := v.ops.map fun ko => (ko.1, note ko.2) }) s.dist.saves
  { s with
    fab := { s.fab with ops := s.fab.ops.map fun ko => if opOfCtx s ctx ko.1 then (ko.1, note ko.2) else ko }
    dist := { s.dist with saves := saves } }

/-- The keys of the operators of a context's regions. -/
def ctxOps (s : State) (ctx : BitVec 8) : List Nat := (s.fab.ops.map fun ko => ko.1).filter (opOfCtx s ctx)

/-! ## Confirm and refute (R112, R163) -/

/-- The tenant whose regions work under a context. -/
def ctxTenant (s : State) (ctx : BitVec 8) : BitVec 16 :=
  tenantOf (s.dist.nodes.find? fun n => decide (n.hctx = ctx))

/-- The live ids of a context. -/
def liveIds (s : State) (ctx : BitVec 8) : List (BitVec 6) :=
  ((List.range 64).map fun i => BitVec.ofNat 6 i).filter fun h => decide (h ≠ 0#6) && hypLive s ctx h

/-- Write the entries of a context's table. -/
def setParents (s : State) (ctx : BitVec 8) (ids : List (BitVec 6)) (f : BitVec 6 → Option (BitVec 6)) : State :=
  ids.foldl (fun s h =>
    { s with hyps := { s.hyps with parent := Table.set none s.hyps.parent (hypKey ctx h) (f h) } }) s

/-- Confirm a live `h` into its parent `p` on every die; `who` writes confirmed overlay entries back to peers. What `p` and the ids below
it read changes with it, so their bodies leave the node caches, with `p` = 0 those of the whole tenant (DESIGN CHOICE, log 160). -/
def confirmHyp (who : Requester) (s0 : State) (ctx : BitVec 8) (h p : BitVec 6) : State :=
  let s := freeSegs (confirmData s0 (idOfCtx s0 ctx) who (ctxTenant s0 ctx) ctx h p) ctx
  let s := setParents s ctx (liveIds s0 ctx) fun x =>
    if x = h then none
    else if hypParent s0 ctx x = some h then some p else hypParent s0 ctx x
  let s := dropBodies (noteRecords s ctx [h] (some p)) fun b =>
    decide (b.ctx = ctx) || (decide (p = 0#6) && decide (b.tenant = ctxTenant s0 ctx))
  restampAll s ctx (fun id refuted => if !refuted ∧ id = h then (p, false) else (id, refuted)) p

/-- Refute a live `h`, whose parent is `p`, with its descendants on every die; `who` writes to peers. -/
def refuteHyp (who : Requester) (s0 : State) (ctx : BitVec 8) (h p : BitVec 6) : State :=
  let dead (x : BitVec 6) : Bool := hypUnder s0 ctx h x
  let s := (ctxOps s0 ctx).foldl (refuteRecords dead) s0
  let s := s0.dist.saves.foldl (refuteSaved dead ctx who) s
  let s := noteRecords s ctx ((liveIds s0 ctx).filter dead) none
  let s := dropBodies s fun b => decide (b.ctx = ctx) && decide (b.hyp ≠ 0#6) && dead b.hyp
  let s := freeSegs (refuteData s ctx dead) ctx
  let s := restampAll s ctx (fun id refuted => (id, refuted || dead id)) p
  setParents s ctx (liveIds s0 ctx) fun x => if dead x then none else hypParent s0 ctx x

/-! ## Commands of the hypothesis controller (R361) -/

/-- The context of a job's node. -/
def jobCtx (s : State) (j : Job) : BitVec 8 := ctxOf (jobNode s j)

/-- HYPNEW (R161): the new id becomes live under its parent, or TOPOLOGY is set. -/
def hypNewBody (c : BitVec 88) (j : Job) (s : State) : State :=
  let parent : BitVec 6 := bits c 8 6
  let child : BitVec 6 := bits c 0 6
  let ctx := jobCtx s j
  if parent.toNat < child.toNat ∧ !hypLive s ctx child ∧ hypLive s ctx parent then
    actDone (setParents s ctx [child] fun _ => some parent) j 0#16 []
  else actDone s j stTopology []

/-- The resolution of a job is over once every overlay entry that it wrote back has reached its tier (R163). -/
def resolved (s : State) (j : Job) : State :=
  if s.links.remotes.any fun r => decide (r.who = .resolve j.id) then s else actDone s j 0#16 []

/-- HYPRES (R361): a confirm or a refute of a live id other than 0; any other is BADCMD (DEDUCED, log 138). -/
def hypResBody (act : State → BitVec 8 → BitVec 6 → BitVec 6 → State) (c : BitVec 88) (j : Job) (s : State) : State :=
  let h : BitVec 6 := bits c 0 6
  let ctx := jobCtx s j
  if j.run.i = 1 then resolved s j
  else if h = 0#6 then killCommand s j stBad true 0
  else
    match hypParent s ctx h with
    | none => killCommand s j stBad true 0
    | some p =>
      let s := modRun (act s ctx h p) j.id fun r => { r with i := 1 }
      match findJob s j.id with
      | some j => resolved s j
      | none => s

/-- The 64 bytes that HYPQRY writes (R361). -/
def hypTable (s : State) (ctx : BitVec 8) : Block :=
  ofBytes fun i =>
    match hypParent s ctx (BitVec.ofNat 6 i) with
    | some p => 2#2 ++ p
    | none => 0#8

/-- HYPQRY (R361): the context's table, written at device scope under hypothesis 0. -/
def hypQryBody (c : BitVec 88) (j : Job) (s : State) : State :=
  let va := (bits c 0 56).toNat
  if va % 64 ≠ 0 then killCommand s j stBad true 0
  else
    let act : WorkM (List Token) := do
      wWrite va (BitVec.allOnes 64) (hypTable s (jobCtx s j)) none
      return []
    runWork (newWork s j va 0#1024 0#6) (fun _ => pure ()) act

/-- HYPNEW (R161, R361). -/
def execHypnew (eng : EngId) (c : Cmd) (s : State) : Host.Outcome State Fault Refusal :=
  engRun 0x50#8 eng c (fun _ _ => 0) (hypNewBody c.ops) s

/-- CONFIRM (R163, R361). -/
def execConfirm (eng : EngId) (c : Cmd) (s : State) : Host.Outcome State Fault Refusal :=
  engRun 0x51#8 eng c (fun _ _ => 0) (fun j s => hypResBody (confirmHyp (.resolve j.id)) c.ops j s) s

/-- REFUTE (R163, R361). -/
def execRefute (eng : EngId) (c : Cmd) (s : State) : Host.Outcome State Fault Refusal :=
  engRun 0x51#8 eng c (fun _ _ => 0) (fun j s => hypResBody (refuteHyp (.resolve j.id)) c.ops j s) s

/-- HYPQRY (R361). -/
def execHypqry (eng : EngId) (c : Cmd) (s : State) : Host.Outcome State Fault Refusal :=
  engRun 0x52#8 eng c (fun _ _ => 0) (hypQryBody c.ops) s

/-! ## Commands of the Apsis engine (R91, R362) -/

/-- The pages of a command's range. -/
def tierPages (c : BitVec 88) : List Nat :=
  (List.range ((bits c 64 24).toNat + 1)).map fun i => (bits c 0 56).toNat + 4096 * i

/-- TIER of a command. -/
def tierOf (c : BitVec 88) : BitVec 2 := bits c 56 2

/-- The range and tier of a command are good (R362). -/
def tierOk (c : BitVec 88) : Bool :=
  decide ((bits c 0 56).toNat % 4096 = 0) && (decide (tierOf c = 1#2) || decide (tierOf c = 2#2))

/-- An entry for one page of a range. -/
def pageEntry (s : State) (tenant : BitVec 16) (va : Nat) (tier : BitVec 2) (pinned : Bool) : SetPage :=
  { tenant := tenant, image := false, va := va, len := 4096, tier := tier, at0 := now s, hint := !pinned, pinned := pinned, resident := false,
    moving := false }

/-- TIERHINT (R91): the range joins the recorded set. -/
def tierHintBody (c : BitVec 88) (j : Job) (s : State) : State :=
  if tierOk c then
    let s := (tierPages c).foldl (fun s va => recordEntry s (pageEntry s (jobTenant s j) va (tierOf c) false)) s
    actDone s j 0#16 []
  else killCommand s j stBad true 0

/-- An entry is a page of the range of a command. -/
def SetPage.inRange (p : SetPage) (tenant : BitVec 16) (c : BitVec 88) : Bool :=
  decide (p.tenant = tenant) && !p.image && meets p.va p.len (bits c 0 56).toNat (4096 * ((bits c 64 24).toNat + 1))

/-- The limit on a tenant's pinned bytes (R169, R170). -/
def pinLimit (s : State) (j : Job) : Nat :=
  match jobNode s j with
  | some n => (bits n.policy 32 16).toNat * 2 ^ 21
  | none => 0

/-- Pin one page at T1: a page that stands at T2 starts its move (R91). -/
def pinPage (s : State) (tenant : BitVec 16) (va : Nat) : State :=
  let s := recordEntry s (pageEntry s tenant va 1#2 true)
  let sets := mapWhere (fun q => decide (q.tenant = tenant) && !q.image && decide (q.va = va) && decide (q.len = 4096))
    (fun q => { q with pinned := true, tier := 1#2 }) s.sets
  let s := { s with sets := sets }
  raisePage s tenant va

/-- TIERPIN at T1 (R91, R170): over the limit nothing is pinned; else the command is over once no page of the range moves. -/
def pinBody (c : BitVec 88) (j : Job) (s : State) : State :=
  let ten := jobTenant s j
  if j.run.i = 0 then
    let has (va : Nat) : Bool :=
      s.sets.any fun p => decide (p.tenant = ten) && p.pinned && decide (p.va = va)
    let more := ((tierPages c).filter fun va => !has va).length * 4096
    if pinLimit s j < pinnedBytes s ten + more then actDone s j 0#16 []
    else modRun ((tierPages c).foldl (fun s va => pinPage s ten va) s) j.id fun r => { r with i := 1 }
  else if s.sets.any fun p => p.inRange ten c && p.moving then s
  else actDone s j 0#16 []

/-- TIERPIN (R91, R362). -/
def tierPinBody (c : BitVec 88) (j : Job) (s : State) : State :=
  if !tierOk c then killCommand s j stBad true 0
  else if tierOf c = 2#2 then
    let sets := mapWhere (fun p => p.inRange (jobTenant s j) c) (fun p => { p with pinned := false }) s.sets
    actDone { s with sets := sets } j 0#16 []
  else pinBody c j s

/-- TIERHINT (R362). -/
def execTierhint (eng : EngId) (c : Cmd) (s : State) : Host.Outcome State Fault Refusal :=
  engRun 0x60#8 eng c (fun _ _ => 0) (tierHintBody c.ops) s

/-- TIERPIN (R362). -/
def execTierpin (eng : EngId) (c : Cmd) (s : State) : Host.Outcome State Fault Refusal :=
  engRun 0x61#8 eng c (fun _ _ => 0) (tierPinBody c.ops) s

/-! ## Overlays that are full (R408) -/

/-- The id of a store of a context that was held back in this cycle for want of an overlay entry. -/
def ovlWaiter (s : State) (ctx : BitVec 8) : Option (BitVec 6) :=
  (s.hyps.waits.find? fun w => decide (w.1 = ctx) && decide (w.2.2 = now s)).map fun w => w.2.1

/-- OVERLAY_ENLARGE (R408): a store of the context that waits for an overlay entry has the overlay doubled; at its limit the
controller refutes the store's hypothesis (DEDUCED, log 139). -/
def execOverlayEnlarge (ctx : BitVec 8) (s : State) : Host.Outcome State Fault Refusal :=
  match ovlWaiter s ctx with
  | none => .next s
  | some h =>
    let s1 := { s with hyps := { s.hyps with waits := s.hyps.waits.filter fun w => decide (w.1 ≠ ctx) } }
    match enlargeOvl s1 ctx with
    | some s => .next s
    | none =>
      match hypParent s ctx h with
      | some p => .next (refuteHyp (.writeBack 0) s1 ctx h p)
      | none => .next s1

end Sys2Proof.Machine
end

