-- ==== Sys2Proof/Machine/Dies.lean ====
section
/-! DEFINITION. The dies as a whole (R50, R394 to R396): heartbeats, the loss of a die, its nodes and its return; and errors of the
memories (R403). -/

namespace Sys2Proof.Machine

/-- HEARTBEAT (R50): a live die's distributor exchanges heartbeats with the others, every 10 µs. -/
def execHeartbeat (die : BitVec 2) (s : State) : Host.Outcome State Fault Refusal :=
  let d := getDie s die
  if d.live ∧ d.beatAt + 10 * usCycles ≤ now s then .next (setDie s die { d with beatAt := now s }) else .next s

/-! ## The loss of a die (R394 to R396) -/

/-- The lowest-numbered live die. -/
def lowestLive (s : State) : Option (BitVec 2) :=
  ([0, 1, 2, 3].map fun k => (BitVec.ofNat 2 k : BitVec 2)).find? fun d => (getDie s d).live

/-- The instance has an element or an operator on a die (DEDUCED, log 113). -/
def instOnDie (i : Inst) (d : BitVec 2) : Bool := (i.elems.any fun e => decide (elemDie e = d)) || i.ops.any fun x => decide (siteDie x.1 = d)

/-- The instances that a die takes with it. -/
def dieInsts (s : State) (d : BitVec 2) : List Inst := s.dist.insts.filter fun i => decide (i.st ≠ .ended) && instOnDie i d

/-- A node is reissuable (R28). -/
def reissuable (n : Node) : Bool := bitAt n.lrec 257

/-- Insert a range in ascending order. -/
def insertRange (r : GroupRange) : List GroupRange → List GroupRange
  | [] => [r]
  | x :: xs => if r.first ≤ x.first then r :: x :: xs else x :: insertRange r xs

/-- The ranges that a die was given, to be given out again from their first index, in ascending order (R396). -/
def givenAgain (n : Node) (d : BitVec 2) : List GroupRange :=
  ((n.ranges.filter fun r => decide (r.die = d)).map fun r => { r with lo := r.first }).foldr insertRange []

/-- Some instances of a node end as under R383, with what they have reported kept in the node. -/
def loseInsts (s : State) (n : Node) (sel : Inst → Bool) : State :=
  let lost := (nodeInsts s n).filter sel
  let e := lost.foldl (fun e i => e ||| estatErr i.estat) n.err
  let fl := lost.foldl (fun f i => f ||| instFlags s i) n.afl
  let ids := lost.map fun i => i.id
  let insts := mapWhere (fun (i : Inst) => ids.contains i.id) (fun i => { i with st := .ended }) s.dist.insts
  let s := withdrawFaults s ids.contains
  modNode { s with dist := { s.dist with insts := insts } } n.id fun n => { n with err := e, afl := fl }

/-- A node loses an instance with its die (R396) (DEDUCED, log 113; DEDUCED, log 114). -/
def nodeLosesDie (s : State) (d : BitVec 2) (n : Node) : State :=
  if !reissuable n then abortNode s n.id 0x400#16
  else if n.hyp = 0#6 then
    let s := loseInsts s n fun i => instOnDie i d
    modNode s n.id fun n =>
      { n with ranges := n.ranges.filter (fun r => decide (r.die ≠ d)), reissue := n.reissue ++ givenAgain n d, err := n.err ||| 32#16 }
  else
    let s := loseInsts s n fun _ => true
    let s := match hypParent s n.hctx n.hyp with
      | some p => setParents (refuteHyp (.writeBack 0) s n.hctx n.hyp p) n.hctx [n.hyp] fun _ => some p
      | none => s
    modNode s n.id fun n =>
      { n with ranges := [], reissue := [], bounds := [], given := 0, groups := (n.fld 320 32 : BitVec 32).toNat, err := n.err ||| 32#16 }

/-- The stash of a tile on a fenced die is gone. -/
def dropStash (s : State) (d : BitVec 2) : State :=
  let mts := s.fab.mts.map fun km =>
    if siteDie (BitVec.ofNat 12 km.1) = d then (km.1, { km.2 with lines := [] }) else km
  { s with fab := { s.fab with mts := mts.filter fun km => decide (km.2 ≠ Mt.empty) } }

/-- The control cores of a die stop (R394). -/
def haltCores (s : State) (d : BitVec 2) : State :=
  { s with hub := { s.hub with cores := Vector.ofFn fun i =>
      let c := vget CtlCore.empty s.hub.cores i.val
      if i.val / 4 = d.toNat then { c with running := false } else c } }

/-- An engine of a die holds a job. -/
def jobOnDie (d : BitVec 2) (j : Job) : Bool := engPlaced j.eng && decide (siteDie (engSite j.eng) = d)

/-- The jobs that the engines of a die hold go with it (R394): nothing runs them to their end (DEDUCED, log 113). -/
def dropJobs (s : State) (d : BitVec 2) : State :=
  { s with dist := { s.dist with jobs := s.dist.jobs.filter fun j => !jobOnDie d j } }

/-- The hub fences a die (R394): its elements, distributor and cores stop, its pending records are discarded, and a master that is
lost gives way to the lowest live die (R395). -/
def fenceDie (s : State) (d : BitVec 2) : State :=
  let x := getDie s d
  let x : Die := { x with live := false, fenced := true, ring := [], fhead := x.ftail, pend := [], repairs := [], escalq := [], walks := [], failed := [] }
  let s := dropJobs (haltCores (setDie s d x) d) d
  let live := { s.life.live with fenced := s.life.live.fenced + 1 }
  let m := if s.dist.master = d then (lowestLive s).getD d else s.dist.master
  { s with dist := { s.dist with master := m }, life := { s.life with live := live } }

/-- DIE_LOST (R394 to R396): three heartbeats in a row are missing: the die is fenced, the PF and every function with work on it take vector 2
(R369), and each node with an instance on it ends, is reissued, or is dispatched anew. Input: whether the die's bridges fail link training,
which puts its modules out of reach and raises a further event of the PF (R394, R384). -/
def execDieLost (die : BitVec 2) (s : State) : Host.Outcome State Fault Refusal :=
  let d := getDie s die
  if d.live ∧ d.beatAt + 30 * usCycles ≤ now s then
    let lost := dieInsts s die
    let nodes := s.dist.nodes.filter fun n => decide (n.st = .pool) && !n.aborting && lost.any fun i => decide (i.node = n.id)
    let jobNodes := (s.dist.jobs.filter (jobOnDie die)).filterMap fun j => (jobNode s j).map fun n => n.sub
    let fns := (0#10 :: (s.dist.nodes.filter fun n => lost.any fun i => decide (i.node = n.id)).map (fun n => n.sub) ++ jobNodes).eraseDups
    let s := dropStash (fenceDie s die) die
    let s := nodes.foldl (fun s n => nodeLosesDie s die n) s
    let s := if (s.opnd 0 1 : BitVec 1) = 1#1 then raiseMsix (setDie s die { getDie s die with cut := true }) 0#10 2 else s
    .next (fns.foldl (fun s f => raiseMsix s f 2) s)
  else .next s

/-- DIE_REJOIN (R395): a repaired die takes part again, not as master. Input: the die. -/
def execDieRejoin (s : State) : Host.Outcome State Fault Refusal :=
  let k : BitVec 2 := s.opnd 0 2
  let d := getDie s k
  if d.fenced then .next (setDie s k { d with live := true, fenced := false, beatAt := now s, cut := false }) else .next s

/-! ## Memory errors (R403, R430) -/

/-- Add 1 to a count of a table. -/
def bump (t : Table Nat) (k : Nat) : Table Nat := Table.set 0 t k (Table.get 0 t k + 1)

/-- Poison the line that stands at a place of a tile's stash. -/
def poisonLine (s : State) (site : Site) (k : Nat) : State :=
  let m := getMt s site
  match m.lines[k]? with
  | some l => setMt s site { m with lines := m.lines.set k { l with psn := true } }
  | none => s

/-- The mark of an error's block (R403): a module block, a scratchpad block, or a stash line. -/
def poisonBlock (s : State) (space : BitVec 2) (a : Nat) : State :=
  match space.toNat with
  | 0 => if a < moduleTop then { s with store := { s.store with memPsn := Table.set false s.store.memPsn (a / 64) true } } else s
  | 1 => if a % 2 ^ 20 < spadSize then setSpadPoison s (BitVec.ofNat 12 (a / 2 ^ 20)) (a % 2 ^ 20) true else s
  | 2 => poisonLine s (BitVec.ofNat 12 (a / 2 ^ 20)) (a % 2 ^ 20)
  | _ => s

/-- Count an error (R430): by site for SRAM, by module for corrected module errors. -/
def countEcc (c : Counts) (space : BitVec 2) (a : Nat) (unc : Bool) : Counts :=
  if space = 0#2 then (if unc then c else { c with corrModule := bump c.corrModule (moduleOf a) })
  else
    let site := a / 2 ^ 20 % 4096
    if unc then { c with uncSite := bump c.uncSite site } else { c with corrSite := bump c.corrSite site }

/-- ECC_ERROR (R403): an error is counted; one that cannot be corrected poisons its block. Input: the memory (0 a module, 1 a
scratchpad, 2 a stash, 3 other SRAM of a site), the address at byte 1 (a physical address, or site × 2^20 + offset or line), and at
byte 9 whether it cannot be corrected (DESIGN CHOICE, log 116). -/
def execEccError (s : State) : Host.Outcome State Fault Refusal :=
  let space : BitVec 2 := s.opnd 0 2
  let a := (s.opnd 1 64 : BitVec 64).toNat
  let unc := decide ((s.opnd 9 1 : BitVec 1) = 1#1)
  let s := { s with life := { s.life with live := countEcc s.life.live space a unc } }
  .next (if unc then poisonBlock s space a else s)

end Sys2Proof.Machine
end

