-- ==== Sys2Proof/Machine/HostRegs.lean ====
section
/-! DEFINITION. The windows of the functions (R181 to R185, R188): writes to the registers, their reads, and the invalidation of
translations (R96). A write to any part of a window is given with the function, an offset and its bytes. -/

namespace Sys2Proof.Machine

/-- The function and value of a write to a register of 8 bytes, as the input gives them: the function, the value at byte 2. -/
def regFn (s : State) : BitVec 10 := s.opnd 0 10

/-- The value written. -/
def regVal (s : State) : BitVec 64 := s.opnd 2 64

/-- A write to a window: its function must have one that is open, and a first half of a launch record that waits is discarded (R183). -/
def windowWrite (s : State) (fn : BitVec 10) (f : State → State) : Host.Outcome State Fault Refusal :=
  if windowOpen s fn then .next (f (breakHalf s fn)) else .next s

/-- Change a function. -/
def modFn (s : State) (fn : BitVec 10) (f : Fn → Fn) : State := setFn s fn (f (getFn s fn))

/-- LSTAT_CLEAR (R184): ones in [34:32] clear BADW, DROP and REJ. -/
def execLstatClear (s : State) : Host.Outcome State Fault Refusal :=
  let v := regVal s
  windowWrite s (regFn s) fun s => modFn s (regFn s) fun f =>
    { f with badw := f.badw && !bitAt v 32, drop := f.drop && !bitAt v 33, rej := f.rej && !bitAt v 34 }

/-- INVSTAT_CLEAR (R182): a one in [1] clears LOST. -/
def execInvstatClear (s : State) : Host.Outcome State Fault Refusal :=
  let v := regVal s
  windowWrite s (regFn s) fun s => modFn s (regFn s) fun f => { f with invLost := f.invLost && !bitAt v 1 }

/-- CQTAIL_CLEAR (R188): a one in [32] clears OVF. -/
def execCqtailClear (s : State) : Host.Outcome State Fault Refusal :=
  let v := regVal s
  windowWrite s (regFn s) fun s => modFn s (regFn s) fun f => { f with cqovf := f.cqovf && !bitAt v 32 }

/-- PFERR_CLEAR (R181): a one in [0] clears LOCKED. Input: the value at byte 2. -/
def execPferrClear (s : State) : Host.Outcome State Fault Refusal :=
  let v := regVal s
  windowWrite s 0#10 fun s => { s with hub := { s.hub with pferrLocked := s.hub.pferrLocked && !bitAt v 0 } }

/-! ## Invalidation (R96, R185) -/

/-- The tenant whose tables a function's accesses use; the PF has none of its own. -/
def fnTenant (s : State) (fn : BitVec 10) : Option (BitVec 16) :=
  if fn = 0#10 then none else some (bits (getFn s fn).policy 48 16)

/-- The range under invalidation: first address and length. -/
def invRange (f : Fn) : Nat × Nat := (f.inv.1.toNat * 4096, f.inv.2 * 4096)

/-- INVAL (R185, R96): the invalidation of a range begins, and its translations are dropped; while one runs, the write is discarded
with LOST (DEDUCED, log 118; DEDUCED, log 146). -/
def execInval (s : State) : Host.Outcome State Fault Refusal :=
  let fn := regFn s
  let v := regVal s
  windowWrite s fn fun s =>
    let f := getFn s fn
    if f.invBusy then setFn s fn { f with invLost := true }
    else
      let g := { f with invBusy := true, inv := (bits v 0 44, (bits v 44 20).toNat + 1) }
      let s := setFn s fn g
      match fnTenant s fn with
      | some t => dropTrans s t (invRange g).1 (invRange g).2
      | none => s

/-- INVALIDATION_COMPLETE (R96): every cache has dropped the range, and every access that used an old translation has completed: BUSY
clears. Input: the function. -/
def execInvalidationComplete (s : State) : Host.Outcome State Fault Refusal :=
  let fn := regFn s
  let f := getFn s fn
  if !f.invBusy then .next s
  else
    match fnTenant s fn with
    | none => .next (setFn s fn { f with invBusy := false })
    | some t =>
      if accessPending s t (invRange f).1 (invRange f).2 then .next s
      else .next (modFn (dropTrans s t (invRange f).1 (invRange f).2) fn fun f => { f with invBusy := false })

/-! ## Policy blocks (R169, R181) -/

/-- A word of a policy block after a write: the counts and the reserved bits keep as they are (DEDUCED, log 119). -/
def policyWord (p : BitVec 256) (w : Nat) (v : BitVec 64) : BitVec 256 :=
  match w with
  | 0 => setBits p 0 (bits v 4 60 ++ 0#3 ++ bits v 0 1)
  | 1 => setBits p 64 (bits v 0 35)
  | 2 => setBits p 144 (bits v 16 48)
  | _ => p

/-- One word of a write to the POLICY range: word `k` of the range. In the TDISP state RUN it is discarded with LOCKED. -/
def putPolicy (s : State) (k : Nat) (v : BitVec 64) : State :=
  let vf : BitVec 10 := BitVec.ofNat 10 (k / 4 + 1)
  if (getFn s vf).tdispRun then { s with hub := { s.hub with pferrLocked := true } }
  else modFn s vf fun f => { f with policy := policyWord f.policy (k % 4) v }

/-- Apply a write of whole words to words `k`, `k + 1`, …. -/
def putWords (put : State → Nat → BitVec 64 → State) (data : BitVec 4096) (k : Nat) (s : State) : Nat → State
  | 0 => s
  | n + 1 => put (putWords put data k s n) (k + n) (bits data (64 * n) 64)

/-- A write of whole aligned words within a range of `n` words, of at most the maximum payload of 512 bytes (R180): its first word and
count. -/
def wholeWords (base n off len : Nat) : Option (Nat × Nat) :=
  if base ≤ off ∧ off % 8 = 0 ∧ len % 8 = 0 ∧ 0 < len ∧ len ≤ 512 ∧ off + len ≤ base + 8 * n then some ((off - base) / 8, len / 8)
  else none

/-- POLICY (R169, R182): a write of the PF to the policy blocks, in whole aligned words. Input: the offset in the window, the length at
byte 2, the data at byte 4. -/
def execPolicy (s : State) : Host.Outcome State Fault Refusal :=
  let off := (s.opnd 0 16 : BitVec 16).toNat
  let len := (s.opnd 2 16 : BitVec 16).toNat
  let data : BitVec 4096 := s.opnd 4 4096
  windowWrite s 0#10 fun s =>
    match wholeWords 0x4000 2048 off len with
    | some (k, n) => putWords putPolicy data k s n
    | none => s

/-! ## The other registers (R182, R188) -/

/-- One word of a write to FWARG. -/
def putFwarg (s : State) (k : Nat) (v : BitVec 64) : State := { s with hub := { s.hub with fwarg := vset s.hub.fwarg k v } }

/-- A write to one of the registers that have no behaviour of their own (R182, R188) (DEDUCED, log 117). -/
def plainWrite (s : State) (fn : BitVec 10) (off len : Nat) (data : BitVec 4096) : State :=
  let v : BitVec 64 := bits data 0 64
  if off = 0x400 ∧ len = 8 then modFn s fn fun f => { f with cqbase := bits v 12 52 ++ 0#12 }
  else if off = 0x408 ∧ len = 8 then modFn s fn fun f => { f with cqsz := BitVec.ofNat 4 (Nat.min (bits v 0 4).toNat 8), cqen := bitAt v 8 }
  else if off = 0x410 ∧ len = 8 then modFn s fn fun f => { f with cqhead := bits v 0 12 }
  else if fn = 0#10 then
    match wholeWords 0x9100 32 off len with
    | some (k, n) => putWords putFwarg data k s n
    | none => s
  else s

/-- REGISTER_WRITE (R182): a write to CQBASE, CQCTL, CQHEAD or FWARG, one that is not of a register's whole width, or one to a reserved
offset, which are discarded. Input: the function, the offset at byte 2, the length at byte 4, the data at byte 6. -/
def execRegisterWrite (s : State) : Host.Outcome State Fault Refusal :=
  let fn := regFn s
  let off := (s.opnd 2 16 : BitVec 16).toNat
  let len := (s.opnd 4 16 : BitVec 16).toNat
  let data : BitVec 4096 := s.opnd 6 4096
  windowWrite s fn fun s => plainWrite s fn off len data

/-! ## Reads (R182, R184, R186) -/

/-- LSTAT of a function (R184). -/
def lstat (f : Fn) : BitVec 64 :=
  0#29 ++ BitVec.ofBool f.rej ++ BitVec.ofBool f.drop ++ BitVec.ofBool f.badw ++ f.lasterr ++ f.accepted ++ f.credits

/-- The register of 8 bytes at an offset of a window; reserved ones and those that are only written read 0. -/
def windowReg (s : State) (fn : BitVec 10) (off : Nat) : BitVec 64 :=
  let f := getFn s fn
  if off = 0x100 then lstat f
  else if off = 0x208 then 0#62 ++ BitVec.ofBool f.invLost ++ BitVec.ofBool f.invBusy
  else if off = 0x300 then bits f.policy 192 64
  else if off = 0x400 then f.cqbase
  else if off = 0x408 then 0#55 ++ BitVec.ofBool f.cqen ++ 0#4 ++ f.cqsz
  else if off = 0x410 then f.cqhead.setWidth 64
  else if off = 0x418 then 0#31 ++ BitVec.ofBool f.cqovf ++ 0#20 ++ f.cqtail
  else if fn ≠ 0#10 then 0#64
  else if 0x4000 ≤ off ∧ off < 0x8000 then
    bits (getFn s (BitVec.ofNat 10 ((off - 0x4000) / 32 + 1))).policy (64 * (off / 8 % 4)) 64
  else if off = 0x8000 then (BitVec.ofBool s.hub.pferrLocked).setWidth 64
  else if off = 0x9008 then 0#48 ++ s.hub.fwResult ++ 0#7 ++ BitVec.ofBool s.hub.fwBusy
  else if 0x9100 ≤ off ∧ off < 0x9200 then vget 0#64 s.hub.fwarg ((off - 0x9100) / 8)
  else 0#64

/-- A byte of a function's window as the host reads it. -/
def windowByte (s : State) (fn : BitVec 10) (a : Nat) : Byte := bits (windowReg s fn (a / 8 * 8)) (8 * (a % 8)) 8

/-- The bytes that a read of an aligned size returns (R182); a window that is not open is none of the machine's (log 91). -/
def windowRead (s : State) (fn : BitVec 10) (off len : Nat) : List Byte := (List.range len).map fun i => windowByte s fn (off + i)

/-! ## TDISP (R180, R181) and class 4 (R369) -/

/-- TDISP_TRANSITION (R181): a VF enters or leaves the state RUN. Input: the VF, the state at byte 2. -/
def execTdispTransition (s : State) : Host.Outcome State Fault Refusal :=
  let vf := regFn s
  if 1 ≤ vf.toNat ∧ vf.toNat ≤ 512 then .next (modFn s vf fun f => { f with tdispRun := decide ((s.opnd 2 1 : BitVec 1) = 1#1) })
  else .next s

/-- PACKAGE_FAULT (R369, R384): a class 4 event raises vector 2 of the PF (DEDUCED, log 125). -/
def execPackageFault (s : State) : Host.Outcome State Fault Refusal := .next (raiseMsix s 0#10 2)

end Sys2Proof.Machine
end

