-- ==== Sys2Proof/Machine/Firmware.lean ====
section
/-! DEFINITION. The commands of the PF firmware interface (R186, R187): each is a write to FWCMD, whose arguments stand in FWARG. -/

namespace Sys2Proof.Machine

/-! ## The interface -/

/-- FN of the FWCMD value that the input gives. -/
def fwFn (s : State) : Nat := (s.opnd 2 16 : BitVec 16).toNat

/-- The reserved half of the FWCMD value. -/
def fwTop (s : State) : Word := s.opnd 4 32

/-- Argument word `i`. -/
def fwArg (s : State) (i : Nat) : BitVec 64 := vget 0#64 s.hub.fwarg i

/-- Argument word `i` as a number. -/
def fwNat (s : State) (i : Nat) : Nat := (fwArg s i).toNat

/-- What a command comes to: its new state, or a RESULT other than 0. -/
abbrev FwOut := Except (BitVec 8) State

/-- A write to FWCMD (R186): while BUSY it is discarded with RESULT 3; a reserved bit gives 2. The command takes its effect, and BUSY
stands until the next cycle (DEDUCED, log 120; DEDUCED, log 121). -/
def fwRun (s : State) (act : State → FwOut) : Host.Outcome State Fault Refusal :=
  windowWrite s 0#10 fun s =>
    if s.hub.fwBusy then { s with hub := { s.hub with fwResult := 3#8 } }
    else
      let out : FwOut := if fwTop s = 0#32 then act s else .error 2#8
      let (t, r) := match out with
        | .ok t => (t, 0#8)
        | .error r => (s, r)
      { t with hub := { t.hub with fwResult := r, fwBusy := true } }

/-- The function of a command that acts for one (R186): the PF or a VF, from `least` on; not one in the TDISP state RUN. -/
def fwFor (s : State) (least : Nat) (ok : Bool) (act : BitVec 10 → State) : FwOut :=
  let n := fwFn s
  let fn : BitVec 10 := BitVec.ofNat 10 n
  if n < least ∨ 512 < n ∨ !ok then .error 2#8
  else if (getFn s fn).tdispRun then .error 4#8
  else .ok (act fn)

/-- A command for the package whose arguments are in range or not. -/
def fwAll (ok : Bool) (t : State) : FwOut := if ok then .ok t else .error 2#8

/-- Change the hub. -/
def modHub (s : State) (f : Hub → Hub) : State := { s with hub := f s.hub }

/-! ## Settings -/

/-- FAULTRING (R186, R379). -/
def execFaultring (s : State) : Host.Outcome State Fault Refusal :=
  fwRun s fun s =>
    let b := fwArg s 0
    let c := fwArg s 1
    let ok := decide (bits b 0 12 = 0#12) && decide (bits c 9 55 = 0#55) && decide (bits c 4 4 = 0#4) && decide ((bits c 0 4).toNat ≤ 8)
    fwFor s 0 ok fun fn => modFn s fn fun f => { f with ringBase := b, ringLg := bits c 0 4, ringEn := bitAt c 8 }

/-- PASID (R186, R180). -/
def execPasid (s : State) : Host.Outcome State Fault Refusal :=
  fwRun s fun s => fwFor s 1 (decide (fwNat s 0 < 2 ^ 20)) fun fn => modFn s fn fun f => { f with pasid := bits (fwArg s 0) 0 20 }

/-- WATCHDOG (R186, R391). -/
def execWatchdog (s : State) : Host.Outcome State Fault Refusal :=
  fwRun s fun s => fwAll (decide (20 ≤ fwNat s 0) && decide (fwNat s 0 ≤ 30)) (modHub s fun h => { h with watchLg := bits (fwArg s 0) 0 5 })

/-- WATCHSET (R186, R374): a watch entry of all four dies (DEDUCED, log 122). -/
def execWatchset (s : State) : Host.Outcome State Fault Refusal :=
  fwRun s fun s =>
    let m := fwArg s 3
    let ok := decide (fwNat s 0 < 4) && decide (fwNat s 1 < 2 ^ 56) && decide (fwNat s 2 < 2 ^ 32) && decide (bits m 18 46 = 0#46) &&
      (decide (bits m 16 2 ≠ 0#2) || decide (fwNat s 2 = 0))
    let w : Watch := ⟨bits (fwArg s 1) 0 56, bits (fwArg s 2) 0 32, bits m 0 16, bits m 16 2⟩
    fwAll ok { s with dies := s.dies.map fun d => { d with watch := vset d.watch (fwNat s 0) w } }

/-- REBUILD (R186, R418): the tenant's rebuild record is copied from host memory, or removed. -/
def execRebuild (s : State) : Host.Outcome State Fault Refusal :=
  fwRun s fun s =>
    let a := fwNat s 0
    let r : BitVec 2048 := if a = 0 then 0#2048 else BitVec.ofNat 2048 (hostGet s 0#10 a 256)
    fwAll (decide (fwNat s 1 < 2 ^ 16)) (modHub s fun h => { h with rebuild := Table.set 0#2048 h.rebuild (fwNat s 1) r })

/-- ATSTIMEOUT (R186, R401). -/
def execAtstimeout (s : State) : Host.Outcome State Fault Refusal :=
  fwRun s fun s => fwAll (decide (1 ≤ fwNat s 0) && decide (fwNat s 0 ≤ 64)) (modHub s fun h => { h with atsMs := bits (fwArg s 0) 0 7 })

/-- NODEID (R186, R191). -/
def execNodeid (s : State) : Host.Outcome State Fault Refusal :=
  fwRun s fun s => fwAll (decide (1 ≤ fwNat s 0) && decide (fwNat s 0 ≤ 4095)) (modHub s fun h => { h with nodeId := bits (fwArg s 0) 0 12 })

/-- ROUTE (R186, R191). -/
def execRoute (s : State) : Host.Outcome State Fault Refusal :=
  fwRun s fun s =>
    fwAll (decide (1 ≤ fwNat s 0) && decide (fwNat s 0 ≤ 4095) && decide (fwNat s 1 < 2 ^ 18))
      (modHub s fun h => { h with zroute := Table.set 0#18 h.zroute (fwNat s 0) (bits (fwArg s 1) 0 18) })

/-- SLOTS (R186, R192). -/
def execSlots (s : State) : Host.Outcome State Fault Refusal :=
  fwRun s fun s =>
    let w := fwArg s 0
    let key := (bits w 0 16).toNat * 4096 + (bits w 16 12).toNat
    fwAll (decide (bits w 28 36 = 0#36) && decide (fwNat s 1 ≤ 64)) (modHub s fun h => { h with farSlots := Table.set 0 h.farSlots key (fwNat s 1) })

/-- RTIMEOUT (R186, R426). -/
def execRtimeout (s : State) : Host.Outcome State Fault Refusal :=
  fwRun s fun s => fwAll (decide (100 ≤ fwNat s 0) && decide (fwNat s 0 ≤ 100000)) (modHub s fun h => { h with rtimeoutUs := bits (fwArg s 0) 0 17 })

/-- T2POOL (R186, R412). -/
def execT2pool (s : State) : Host.Outcome State Fault Refusal :=
  fwRun s fun s =>
    fwAll (decide (fwNat s 0 % 2 ^ 21 = 0)) (modHub s fun h => { h with t2base := fwArg s 0, t2size := fwArg s 1 })

/-- OVLRES (R186, R408). -/
def execOvlres (s : State) : Host.Outcome State Fault Refusal :=
  fwRun s fun s =>
    let ok := decide (fwNat s 0 % 2 ^ 26 = 0) && decide (fwNat s 0 + fwNat s 1 * 2 ^ 26 ≤ moduleTop)
    fwFor s 0 ok fun fn => modFn s fn fun f => { f with ovlBase := fwNat s 0, ovlSize := fwNat s 1 }

/-! ## Contexts (R187) -/

/-- An entry of the context table is in order: reserved bits, sizes, the segment's place, an owner that owns the context (R169, R187). -/
def ctxEntryOk (s : State) (ctx : Nat) (e : BitVec 256) : Bool :=
  let o : BitVec 10 := bits e 0 10
  let p := (getFn s o).policy
  let base := (bits p 24 8).toNat
  decide (bits e 168 88 = 0#88) && decide (bits e 116 36 = 0#36) && decide (bits e 10 54 = 0#54) &&
  decide ((bits e 160 8).toNat ≤ 10) && decide ((bits e 152 8).toNat ≤ (bits e 160 8).toNat) &&
  decide ((bits e 64 52).toNat % 2 ^ 26 = 0) && decide ((bits e 64 52).toNat < moduleTop) && decide (o.toNat ≤ 512) &&
  (decide (o = 0#10) || (decide (base ≤ ctx) && decide (ctx ≤ base + (bits p 20 4).toNat)))

/-- CTXSET (R186, R187). -/
def execCtxset (s : State) : Host.Outcome State Fault Refusal :=
  fwRun s fun s =>
    let c := fwNat s 0
    let e : BitVec 256 := fwArg s 4 ++ fwArg s 3 ++ fwArg s 2 ++ fwArg s 1
    let old : BitVec 10 := bits (Table.get 0#256 s.hub.ctxs c) 0 10
    if 256 ≤ c ∨ !ctxEntryOk s c e then .error 2#8
    else if (getFn s old).tdispRun ∨ (getFn s (bits e 0 10)).tdispRun then .error 4#8
    else .ok (modHub s fun h => { h with ctxs := Table.set 0#256 h.ctxs c e })

/-- CTXREAD (R186, R187). -/
def execCtxread (s : State) : Host.Outcome State Fault Refusal :=
  fwRun s fun s =>
    let e := Table.get 0#256 s.hub.ctxs (fwNat s 0)
    let a := vset (vset (vset (vset s.hub.fwarg 0 (bits e 0 64)) 1 (bits e 64 64)) 2 (bits e 128 64)) 3 (bits e 192 64)
    fwAll (decide (fwNat s 0 < 256)) (modHub s fun h => { h with fwarg := a })

/-! ## The debugger (R392) -/

/-- The instance to attach to: of the first node with the tag and tenant, counted from 0 in dispatch order. -/
def dbgTarget (s : State) : Option Nat :=
  let w := fwArg s 0
  match s.dist.nodes.find? fun n => decide (n.tag = bits w 0 32) && decide (n.tenant = bits w 32 16) && decide (n.st ≠ .complete) with
  | some n => n.insts[fwNat s 1]?
  | none => none

/-- The attached region, while it exists. -/
def dbgInst (s : State) : Option Inst := s.hub.dbg.bind fun id => findInst s id

/-- DBGATTACH (R186, R392). -/
def execDbgattach (s : State) : Host.Outcome State Fault Refusal :=
  fwRun s fun s =>
    match dbgTarget s with
    | none => .error 2#8
    | some i =>
      if bits (fwArg s 0) 48 16 ≠ 0#16 ∨ 2 ^ 16 ≤ fwNat s 1 then .error 2#8
      else if (dbgInst s).isSome then .error 5#8
      else .ok (modHub s fun h => { h with dbg := some i })

/-- Halt or resume an element by its number. -/
def setHalt (s : State) (e : Nat) (h : Bool) : State :=
  let site : Site := BitVec.ofNat 12 (e / 4)
  if e % 4 ≠ 0 then
    let loc : AgAt := ⟨site, BitVec.ofNat 1 (e % 4 - 1)⟩
    setAg s loc { getAg s loc with halted := h }
  else
    match siteKind site with
    | .ce => setCe s site { getCe s site with halted := h }
    | .mt => setMt s site { getMt s site with halted := h }
    | .mx => setMx s site { getMx s site with halted := h }
    | .ste => setSte s site { getSte s site with halted := h }
    | .hpu => setHpu s site { getHpu s site with halted := h }
    | .cp => setCp s site { getCp s site with halted := h }
    | _ => s

/-- The element number that a site and sub-index name: 0 and 1 are the AGs of a memory tile, 2 the tile itself; elsewhere 0 names the
element (DEDUCED, log 123). -/
def dbgElem (w : BitVec 64) : Option Nat :=
  let site : Site := bits w 0 12
  let sub := (bits w 12 2).toNat
  if bits w 14 50 ≠ 0#50 then none
  else if siteKind site = .mt then
    (if sub = 2 then some (site.toNat * 4) else if sub < 2 then some (site.toNat * 4 + 1 + sub) else none)
  else if sub = 0 then some (site.toNat * 4) else none

/-- Act on an element of the attached region. -/
def dbgOn (s : State) (h : Bool) : FwOut :=
  match dbgInst s, dbgElem (fwArg s 0) with
  | some i, some e => if i.elems.contains e then .ok (setHalt s e h) else .error 2#8
  | _, _ => .error 2#8

/-- Resume every element of an instance. -/
def resumeAll (s : State) (i : Option Inst) : State :=
  match i with
  | some i => i.elems.foldl (fun s e => setHalt s e false) s
  | none => s

/-- DBGHALT (R186, R392). -/
def execDbghalt (s : State) : Host.Outcome State Fault Refusal := fwRun s fun s => dbgOn s true

/-- DBGRESUME (R186, R392): site 0xFFF names every halted element. -/
def execDbgresume (s : State) : Host.Outcome State Fault Refusal :=
  fwRun s fun s =>
    if bits (fwArg s 0) 0 12 = 0xFFF#12 then fwAll (decide (bits (fwArg s 0) 12 52 = 0#52) && (dbgInst s).isSome) (resumeAll s (dbgInst s))
    else dbgOn s false

/-- DBGDETACH (R186, R392). -/
def execDbgdetach (s : State) : Host.Outcome State Fault Refusal :=
  fwRun s fun s => .ok (modHub (resumeAll s (dbgInst s)) fun h => { h with dbg := none })

/-! ## Records and reports (R26, R431) -/

/-- Write bytes to the PF's host memory. -/
def hostBytes (s : State) (a : Nat) : List Byte → State
  | [] => s
  | b :: bs => hostBytes (setHostByte s a b) (a + 1) bs

/-- The lifetime record that is current (R428): the one with the higher number. -/
def currentRec (l : Life) : Option LifeRec :=
  match l.a, l.b with
  | some x, some y => if x.seq < y.seq then some y else some x
  | some x, none => some x
  | none, y => y

/-- The identity public key (R26) (PRESUMED, log 144). -/
def publicKeyBytes : List Byte := (List.range 1952).map Config.publicKey

/-- LIFEREAD (R186, R431): the current record whole, then the public key (DEDUCED, log 124). -/
def execLiferead (s : State) : Host.Outcome State Fault Refusal :=
  fwRun s fun s =>
    match currentRec s.life with
    | none => .error 2#8
    | some r =>
      let out := r.bytes ++ publicKeyBytes
      fwAll (decide (out.length ≤ fwNat s 1)) (hostBytes s (fwNat s 0) out)

/-- The number in `n` bytes, little-endian. -/
def leBytes (v n : Nat) : List Byte := (List.range n).map fun i => BitVec.ofNat 8 (v / 2 ^ (8 * i))

/-- The 3,309-byte signature of the device identity key over the SHAKE256 digest of a text (R26) (PRESUMED, log 144). -/
def identitySignature (text : List Byte) : List Byte := (List.range 3309).map (Config.signature (Config.shake256 text))

/-- What an attestation report holds (R26): the nonce, the part number and serial, the security version number, and every measurement of
the boot chain in step order; its layout is the model's (DESIGN CHOICE, log 7). -/
def reportText (s : State) (nonce : BitVec 512) : List Byte :=
  leBytes nonce.toNat 64 ++ s.hub.conf.part ++ s.hub.conf.serial ++ leBytes s.hub.conf.svn.toNat 4 ++
    s.hub.measured.flatMap fun d => leBytes d.toNat 32

/-- An attestation report, signed (R26). -/
def attestReport (s : State) (nonce : BitVec 512) : List Byte := reportText s nonce ++ identitySignature (reportText s nonce)

/-- ATTEST (R186, R26): a signed report over the nonce. -/
def execAttest (s : State) : Host.Outcome State Fault Refusal :=
  fwRun s fun s =>
    let nonce : BitVec 512 := fwArg s 7 ++ fwArg s 6 ++ fwArg s 5 ++ fwArg s 4 ++ fwArg s 3 ++ fwArg s 2 ++ fwArg s 1 ++ fwArg s 0
    let out := attestReport s nonce
    fwAll (decide (out.length ≤ fwNat s 9)) (hostBytes s (fwNat s 8) out)

/-- FWCMD_RESERVED_CODE (R186): every other code gives RESULT 1. Input: the FWCMD value. -/
def execFwcmdReservedCode (s : State) : Host.Outcome State Fault Refusal :=
  let code := (s.opnd 0 16 : BitVec 16).toNat
  if 1 ≤ code ∧ code ≤ 0x14 then .next s else fwRun s fun _ => .error 1#8

end Sys2Proof.Machine
end

