-- ==== Sys2Proof/Machine/Lifetime.lean ====
section
/-! DEFINITION. The management core: lifetime records (R428 to R430), the configuration record (R24), boot and package reset (R25), loss
of power (R428), and the generation loop of the sequencer firmware (R167). -/

namespace Sys2Proof.Machine

/-! ## Lifetime records (R428 to R430) -/

/-- A count at its maximum value saturates (R428). -/
def satNat (w n : Nat) : Nat := Nat.min n (2 ^ w - 1)

/-- A table of counts of `w` bits, for keys 0 to n − 1. -/
def countBytes (t : Table Nat) (n w : Nat) : List Byte := (List.range n).flatMap fun k => leBytes (satNat w (Table.get 0 t k)) (w / 8)

/-- The body of a record (R430): the histograms have 16 bins for each die, at key 16 × die + bin. -/
def recordBody (c : Counts) : List Byte :=
  countBytes c.corrSite 4096 32 ++ countBytes c.uncSite 4096 32 ++ countBytes c.corrModule 32 32 ++ countBytes c.retrains 64 32 ++
  countBytes c.thermal 64 64 ++ countBytes c.droop 64 64 ++
  leBytes (satNat 64 c.watchdogs) 8 ++ leBytes (satNat 64 c.clamps) 8 ++ leBytes (satNat 64 c.tierErrs) 8 ++ leBytes (satNat 64 c.fenced) 8

/-- PARTID (R429): the digest of part number and serial in the configuration record. -/
def partId (r : ConfigRec) : BitVec 256 := Config.shake256 (r.part ++ r.serial)

/-- The header of a record (R429). -/
def recordHeader (part : BitVec 256) (seq poh : Nat) (cycles : BitVec 64) : List Byte :=
  leBytes part.toNat 32 ++ leBytes 0 2 ++ leBytes 1 2 ++ leBytes 34208 4 ++ leBytes cycles.toNat 8 ++
  leBytes (satNat 64 poh) 8 ++ leBytes (satNat 64 seq) 8

/-- Fabric cycles in a second (R3). -/
def secondCycles : Nat := 4000000000

/-- Power-on seconds since manufacture (R429): those before this reset, and those since (DEDUCED, log 129). -/
def pohNow (s : State) : Nat := s.life.live.poh + now s / secondCycles

/-- The record that a snapshot writes now (DEDUCED, log 129). -/
def newRecord (s : State) : LifeRec :=
  let seq := match currentRec s.life with
    | some r => r.seq + 1
    | none => 1
  let c := { s.life.live with poh := pohNow s }
  let text := recordHeader (partId s.hub.conf) seq c.poh s.cycle ++ recordBody s.life.live
  ⟨seq, s.cycle, c, text ++ identitySignature text⟩

/-- The slot of the current record is A. -/
def currentIsA (l : Life) : Bool :=
  match l.a, l.b with
  | some x, some y => decide (y.seq ≤ x.seq)
  | some _, none => true
  | none, _ => false

/-- SNAPSHOT (R428): every 60 s the counts go to the record slot that is not current. -/
def execSnapshot (s : State) : Host.Outcome State Fault Refusal :=
  if s.life.snapAt + 60 * secondCycles ≤ now s then
    let r := newRecord s
    let l := s.life
    .next { s with life := if currentIsA l then { l with b := some r, lastB := true, snapAt := now s }
      else { l with a := some r, lastB := false, snapAt := now s } }
  else .next s

/-- The bin of a temperature in tenths of a degree (R430). -/
def thermalBin (t : Int) : Nat := if t < 450 then 0 else Nat.min ((t.toNat - 400) / 50) 15

/-- The bin of a droop in tenths of a millivolt. -/
def droopBin (d : Nat) : Nat := Nat.min (d / 50) 15

/-- Add one sample of a die. -/
def sampleDie (c : Counts) (d : Nat) (t : Int) (v : Nat) : Counts :=
  { c with thermal := bump c.thermal (16 * d + thermalBin t), droop := bump c.droop (16 * d + droopBin v) }

/-- ENVIRONMENT_SAMPLE (R430): once in a millisecond each die's highest temperature and deepest droop are counted. Input: four signed
temperatures of 16 bits in tenths of a degree, then four droops in tenths of a millivolt (DESIGN CHOICE, log 130). -/
def execEnvironmentSample (s : State) : Host.Outcome State Fault Refusal :=
  if s.life.sampleAt + msCycles ≤ now s then
    let one (c : Counts) (d : Nat) : Counts := sampleDie c d (s.opnd (2 * d) 16 : BitVec 16).toInt (s.opnd (8 + 2 * d) 16 : BitVec 16).toNat
    .next { s with life := { s.life with live := one (one (one (one s.life.live 0) 1) 2) 3, sampleAt := now s } }
  else .next s

/-! ## The configuration record (R24) -/

/-- The map of disabled sites as 512 bytes, site k at bit k. -/
def siteMapBytes (t : Table Bool) : List Byte :=
  (List.range 512).map fun i => BitVec.ofNat 8 (((List.range 8).map fun b => if Table.get false t (8 * i + b) then 2 ^ b else 0).sum)

/-- The sites that a map of 512 bytes disables. -/
def siteMapOf (bs : List Byte) : Table Bool :=
  ((List.range 4096).filter fun k => bitAt (bs.getD (k / 8) 0#8) (k % 8)).map fun k => (k, true)

/-- The signed text of a configuration record, whose layout is the model's (DESIGN CHOICE, log 126). -/
def ConfigRec.text (r : ConfigRec) : List Byte :=
  leBytes r.svn.toNat 4 ++ siteMapBytes r.disabled ++ leBytes r.keyDigest.toNat 32 ++
    [r.part, r.serial, r.memLanes, r.zwLanes, r.pcieLanes, r.vfTable, r.power].flatMap fun f => leBytes f.length 2 ++ f

/-- Its SHAKE256 digest (R24). -/
def ConfigRec.digest (r : ConfigRec) : BitVec 256 := Config.shake256 r.text

/-- Its signature verifies (R24, R25). -/
def ConfigRec.good (r : ConfigRec) : Bool := Config.sweoriSigned r.digest r.sig

/-- Fields of a byte string, each after its length of two bytes, and what follows them. -/
def lenFields : Nat → List Byte → List (List Byte) × List Byte
  | 0, bs => ([], bs)
  | n + 1, bs =>
    let k := leNat (bs.take 2)
    let r := lenFields n (bs.drop (2 + k))
    (((bs.drop 2).take k) :: r.1, r.2)

/-- The same with lengths of four bytes. -/
def longFields : Nat → List Byte → List (List Byte) × List Byte
  | 0, bs => ([], bs)
  | n + 1, bs =>
    let k := leNat (bs.take 4)
    let r := longFields n (bs.drop (4 + k))
    (((bs.drop 4).take k) :: r.1, r.2)

/-- The record that a text and its signature give. -/
def readRecord (bs : List Byte) : ConfigRec :=
  let r := lenFields 7 (bs.drop 548)
  let at0 (k : Nat) : List Byte := r.1.getD k []
  { part := at0 0, serial := at0 1, svn := BitVec.ofNat 32 (leNat (bs.take 4)), disabled := siteMapOf ((bs.drop 4).take 512),
    memLanes := at0 2, zwLanes := at0 3, pcieLanes := at0 4, vfTable := at0 5, power := at0 6,
    keyDigest := BitVec.ofNat 256 (leNat ((bs.drop 516).take 32)), sig := r.2 }

/-- CONFIG_RECORD_UPDATE (R24): an update with a good Sweori signature becomes the record; boot applies it. Input: the record's text, then
its signature (DESIGN CHOICE, log 126). -/
def execConfigRecordUpdate (s : State) : Host.Outcome State Fault Refusal :=
  .next (if (readRecord s.input).good then { s with hub := { s.hub with nv := readRecord s.input } } else s)

/-! ## Reset and power (R25, R428) -/

/-- The counts with which the management core begins after a loss of power: those of the current record (R428). -/
def bootCounts (l : Life) : Counts :=
  match currentRec l with
  | some r => r.counts
  | none => Counts.empty

/-- The state that a package reset leaves before its boot chain: that of `State.reset`, with the non-volatile memory, the counts of the
management core, which only a loss of power takes (R428), what the memories hold, and the model's own fields (DEDUCED, log 127; DESIGN CHOICE, log 148). -/
def afterReset (s : State) : State :=
  let r := State.reset
  { r with
    agenda := s.agenda
    input := s.input
    free := s.free
    store := { r.store with mem := s.store.mem, memDesc := s.store.memDesc, memPsn := s.store.memPsn, host := s.store.host, hostPsn := s.store.hostPsn }
    hub := { r.hub with nv := s.hub.nv }
    life := { s.life with live := { s.life.live with poh := pohNow s }, snapAt := 0, sampleAt := 0 } }

/-- The firmware images that a boot finds: the management core's and the control cores'. Input: for each its security version number of
4 bytes, then image and signature, each after its length of four bytes (DESIGN CHOICE, log 158). -/
def bootFirm (s : State) (k : Nat) : FirmImage :=
  let one (bs : List Byte) : FirmImage × List Byte :=
    let r := longFields 2 (bs.drop 4)
    (⟨BitVec.ofNat 32 (leNat (bs.take 4)), r.1.getD 0 [], r.1.getD 1 []⟩, r.2)
  let first := one s.input
  if k = 0 then first.1 else (one first.2).1

/-- The digest that stage `k` verifies and records: the management firmware's, the configuration record's, the control-core firmware's
(R25). -/
def bootDigest (s : State) (k : Nat) : BitVec 256 :=
  if k = 1 then s.hub.nv.digest else Config.shake256 (bootFirm s (k / 2)).image

/-- The signature that stage `k` verifies is good. -/
def bootGood (s : State) (k : Nat) : Bool :=
  if k = 1 then s.hub.nv.good else Config.sweoriSigned (bootDigest s k) (bootFirm s (k / 2)).sig

/-- No firmware is older than the record allows (R25). -/
def bootNew (s : State) : Bool :=
  decide (s.hub.nv.svn ≤ (bootFirm s 0).svn) && decide (s.hub.nv.svn ≤ (bootFirm s 1).svn)

/-- A core's TCM with an image from address 0 on (R22, R25) (DESIGN CHOICE, log 158). -/
def loadTcm (image : List Byte) (c : CtlCore) : CtlCore :=
  { c with tcm := ((image.take 262144).zipIdx.filter fun x => decide (x.1 ≠ 0#8)).map fun x => (x.2, x.1), running := true }

/-- Cores from `lo` below `hi` load a firmware image. -/
def loadCores (s : State) (lo hi : Nat) (image : List Byte) : State :=
  modHub s fun h => { h with cores := Vector.ofFn fun i => if lo ≤ i.val ∧ i.val < hi then loadTcm image (vget CtlCore.empty h.cores i.val) else vget CtlCore.empty h.cores i.val }

/-- The control cores bring up the distributors and the memory links of their dies (R25): each distributor begins its heartbeats, the lowest
die is master, and every module is in reach. The corner subgraphs are frames that they then write and start (R14, R220), and with the
last of them the PF opens (`openPf`). -/
def bringUp (s : State) : State :=
  { s with
    dist := { s.dist with master := 0#2 }
    dies := s.dies.map fun d => { d with live := true, fenced := false, beatAt := now s, cut := false } }

/-- Record a measurement. -/
def measure (s : State) (d : BitVec 256) : State := modHub s fun h => { h with measured := h.measured ++ [d] }

/-- The boot chain (R25): the management firmware, the configuration record with its site map, trims and limits, the firmware's security
version, the control-core firmware into every TCM, each only after the one before; then the dies come up. -/
def bootChain (s : State) : State :=
  if !bootGood s 0 then s
  else
    let s := loadCores (measure s (bootDigest s 0)) 16 17 (bootFirm s 0).image
    if !bootGood s 1 then s
    else
      let s := modHub (measure s (bootDigest s 1)) fun h => { h with conf := h.nv }
      if !bootNew s || !bootGood s 2 then s
      else bringUp (loadCores (measure s (bootDigest s 2)) 0 16 (bootFirm s 1).image)

/-- PACKAGE_RESET (R25, R50): the package is reset and boots; die 0 is master. Input: the two firmware images. -/
def execPackageReset (s : State) : Host.Outcome State Fault Refusal := .next (bootChain (afterReset s))

/-- POWER_LOSS (R428): everything volatile is lost. When a record was being written, its slot is no longer valid, and the other one is
current. Input: bit 0 tells whether a record was being written (DEDUCED, log 128). -/
def execPowerLoss (s : State) : Host.Outcome State Fault Refusal :=
  let l := s.life
  let l :=
    if (s.opnd 0 1 : BitVec 1) = 1#1 then (if currentIsA l then { l with b := none } else { l with a := none }) else l
  let t := afterReset { s with life := { l with live := bootCounts l } }
  .next { t with
    life := { t.life with live := bootCounts l }
    store := { State.reset.store with host := s.store.host, hostPsn := s.store.hostPsn } }

/-! ## The generation loop (R167) -/

/-- The sequencer submits a record through the PF at priority 7. -/
def seqSubmit (s : State) (r : BitVec 2048) : State :=
  { s with dist := { s.dist with subq := s.dist.subq ++ [⟨0#10, true, false, setBits r 264 7#3⟩] } }

/-- The waits for the completion sync words of some records: for every word in a memory tile, as many additions as records name it. -/
def syncWaits (s : State) (rs : List (BitVec 2048)) : List SyncWait :=
  let ws := (rs.map recSync).filter fun w => decide (siteKind w.1 = .mt)
  ws.eraseDups.map fun w => ⟨w.1, w.2, syncSeen s w.1 w.2 + ws.count w⟩

/-- The sync word has seen the additions that a wait is for. -/
def SyncWait.met (s : State) (w : SyncWait) : Bool := decide (w.want ≤ syncSeen s w.site w.off)

/-- The sampled token of a request, as its scratchpad holds it. -/
def sampled (s : State) (g : GenReq) : Word := spadWord s g.site g.off

/-- A request takes its sampled token, and its position advances; an aborted row, which was charged as it aborted, appends nothing
(R166, R422). -/
def takeSample (s : State) (ws : List SyncWait) (g : GenReq) : GenReq :=
  let t := sampled s g
  if t = 0xFFFFFFFF#32 then { g with phase := 2#2, waiting := ws }
  else
    { g with tokens := g.tokens ++ [t], position := g.position + 1#32, left := g.left - 1, phase := 2#2, waiting := ws }

/-- The records that append a request's token: arg0 is the token. -/
def appendRecs (s : State) (g : GenReq) : List (BitVec 2048) :=
  if sampled s g = 0xFFFFFFFF#32 then [] else g.appends.map fun r => setBits r 1024 (sampled s g)

/-- A request has produced its stop token, reached its length, or spent its budget. -/
def GenReq.over (g : GenReq) : Bool := decide (g.left = 0) || decide (g.budget = 0) || decide (g.tokens.getLast? = some g.stop)

/-- The records of 256 bytes of a list. -/
def inputRecs (bs : List Byte) : Nat → List (BitVec 2048)
  | 0 => []
  | n + 1 => BitVec.ofNat 2048 (leNat (bs.take 256)) :: inputRecs (bs.drop 256) n

/-- The request that the input brings: id, length, stop token, budget, position, site, offset, the counts of its records, of the records
that append, and of its hypotheses, then the hypotheses and the records. -/
def inputReq (s : State) : GenReq :=
  let n := (s.opnd 26 8 : BitVec 8).toNat
  let h := (s.opnd 28 8 : BitVec 8).toNat
  let rest := s.input.drop (29 + h)
  { id := (s.opnd 0 32 : Word).toNat, tokens := [], left := (s.opnd 4 32 : Word).toNat, stop := s.opnd 8 32,
    budget := (s.opnd 12 32 : Word).toNat, position := s.opnd 16 32, hyps := ((s.input.drop 29).take h).map fun b => bits b 0 6, recs := inputRecs rest n,
    appends := inputRecs (rest.drop (256 * n)) (s.opnd 27 8 : BitVec 8).toNat, site := s.opnd 20 12,
    off := (s.opnd 22 32 : Word).toNat, waiting := [], phase := 0#2 }

/-- GENERATION_ITERATION (R167): the sequencer takes in a request that the input brings; else, once every completion sync word that its requests wait
on has come, it submits the records of an iteration, or reads the sampled tokens and submits their appends, or ends the requests that are over
(DEDUCED, log 131). -/
def execGenerationIteration (s : State) : Host.Outcome State Fault Refusal :=
  let gs := s.dist.gens
  let put (s : State) (gs : List GenReq) : State := { s with dist := { s.dist with gens := gs } }
  if s.input ≠ [] then .next (put s (gs ++ [inputReq s]))
  else if gs.any fun g => !g.waiting.all fun w => w.met s then .next s
  else if gs.any fun g => decide (g.phase = 2#2) then
    .next (put s ((gs.filter fun g => decide (g.phase ≠ 2#2) || !g.over).map fun g => { g with phase := 0#2 }))
  else if gs.any fun g => decide (g.phase = 1#2) then
    let recs := (gs.filter fun g => decide (g.phase = 1#2)).flatMap fun g => appendRecs s g
    .next (recs.foldl seqSubmit (put s (gs.map fun g => if g.phase = 1#2 then takeSample s (syncWaits s recs) g else g)))
  else
    let recs := gs.flatMap fun g => g.recs
    .next (recs.foldl seqSubmit (put s (gs.map fun g => { g with phase := 1#2, waiting := syncWaits s recs })))

end Sys2Proof.Machine
end

