-- ==== Sys2Proof/Machine/Links.lean ====
section
/-! DEFINITION. The links to peers (R189 to R192, R366, R367, R425 to R427): flits and their retry, remote requests of this package
with their slots, and the requests of peers. -/

namespace Sys2Proof.Machine

/-! ## Ports and flits (R189, R190, R425) -/

/-- A Zwitia port. -/
def getZp (s : State) (p : Nat) : ZPort := vget ZPort.empty s.links.zports p

/-- Replace a Zwitia port. -/
def setZp (s : State) (p : Nat) (z : ZPort) : State := { s with links := { s.links with zports := vset s.links.zports p z } }

/-- SEQ of a flit. -/
def flitSeq (f : BitVec 2048) : BitVec 12 := bits f 0 12

/-- The acknowledged sequence of a flit. -/
def flitAck (f : BitVec 2048) : BitVec 12 := bits f 12 12

/-- A flit with its CRC (DESIGN CHOICE, log 13). -/
def sealFlit (low : BitVec 1984) : BitVec 2048 := Config.crc64 low ++ low

/-- The CRC of a flit is right. -/
def flitOk (f : BitVec 2048) : Bool := decide (bits f 1984 64 = Config.crc64 (bits f 0 1984))

/-- A port sends a flit of a VC (R190): it stays for retry, and acknowledges what the port has received. -/
def sendFlit (s : State) (p : Nat) (vc : BitVec 4) : State :=
  let z := getZp s p
  let low : BitVec 1984 := Config.flitPayload s.free ++ (0#36 ++ vc ++ (z.expect - 1#12) ++ z.nextSeq)
  let f := sealFlit low
  let ackAt := if z.retry.isEmpty then now s else z.ackAt
  let z := { z with nextSeq := z.nextSeq + 1#12, retry := z.retry ++ [⟨z.nextSeq, f, 0⟩], sent := z.sent ++ [f], ackAt := ackAt }
  { setZp s p z with free := s.free + 1 }

/-- The port that a message to a node takes: the lowest of its route that is up (R191) (DESIGN CHOICE, log 81). -/
def portTo (s : State) (node : BitVec 12) : Option Nat :=
  let mask := Table.get 0#18 s.hub.zroute node.toNat
  (List.range 18).find? fun p => bitAt mask p && !(getZp s p).down

/-- That port can keep one more flit for retry (R190). -/
def linkRoom (s : State) (node : BitVec 12) : Bool :=
  match portTo s node with
  | some p => decide ((getZp s p).retry.length < 512)
  | none => false

/-- The two answers to a request of a node find room for retry, or go nowhere (R190). -/
def answerRoom (s : State) (node : BitVec 12) : Bool :=
  match portTo s node with
  | some p => decide ((getZp s p).retry.length + 2 ≤ 512) || Table.get false s.links.lost node.toNat
  | none => true

/-- Send a message to a node (DEDUCED, log 143). -/
def sendTo (s : State) (node : BitVec 12) (vc : BitVec 4) : State :=
  match portTo s node with
  | some p => sendFlit s p vc
  | none => s

/-- The acknowledgement of a flit takes every flit up to it out of the retry buffer (R189, R190). -/
def ackUpTo (s : State) (p : Nat) (ack : BitVec 12) : State :=
  let z := getZp s p
  let left := z.retry.filter fun x => decide (2048 ≤ (ack - x.seq).toNat)
  if left.length < z.retry.length then setZp s p { z with retry := left, ackAt := now s } else s

/-- FLIT_RECEIVE (R190): a flit with a right CRC and the expected sequence is delivered; any other is answered with a NAK that
carries the sequence expected. Input: the port, then the flit at byte 1. -/
def execFlitReceive (s : State) : Host.Outcome State Fault Refusal :=
  let p := (s.opnd 0 5 : BitVec 5).toNat
  let f : BitVec 2048 := s.opnd 1 2048
  if 18 ≤ p then .next s
  else if !flitOk f then
    let z := getZp s p
    .next (setZp s p { z with nakDue := some z.expect })
  else
    let s := ackUpTo s p (flitAck f)
    let z := getZp s p
    if flitSeq f = z.expect then .next (setZp s p { z with expect := z.expect + 1#12, delivered := z.delivered ++ [f], nakDue := none })
    else .next (setZp s p { z with nakDue := some z.expect })

/-- A kept flit stands at a sequence number or after it. -/
def KeptFlit.from (x : KeptFlit) (seq : BitVec 12) : Bool := decide ((x.seq - seq).toNat < 2048)

/-- Send every kept flit from a sequence number on again, in order; each counts its resends (R190, R425). -/
def resendFrom (z : ZPort) (seq : BitVec 12) : ZPort :=
  { z with
    sent := z.sent ++ ((z.retry.filter fun x => x.from seq).map fun x => x.flit)
    retry := mapWhere (fun x => x.from seq) (fun x => { x with resent := x.resent + 1 }) z.retry }

/-- One flit has been resent 16 times without acknowledgement (R425). -/
def ZPort.worn (z : ZPort) : Bool := z.retry.any fun x => decide (16 ≤ x.resent)

/-- NAK (R190): the flits from the sequence that it carries on are sent again. Input: the port, then the sequence at byte 1. -/
def execNak (s : State) : Host.Outcome State Fault Refusal :=
  let p := (s.opnd 0 5 : BitVec 5).toNat
  if 18 ≤ p then .next s
  else
    .next (setZp s p (resendFrom (getZp s p) (s.opnd 1 12)))

/-- Sending resumes from the oldest unacknowledged flit (R425); the resends are counted anew. -/
def resume (s : State) (p : Nat) : State :=
  let z := getZp s p
  setZp s p { z with
    sent := z.sent ++ z.retry.map fun x => x.flit
    retry := z.retry.map fun x => { x with resent := 0 }
    ackAt := now s, fails := 0, down := false }

/-- Count a retrain at its entry of the lifetime records (R425, R430). -/
def countRetrain (s : State) (k : Nat) : State :=
  { s with life := { s.life with live := { s.life.live with retrains := Table.set 0 s.life.live.retrains k (Table.get 0 s.life.live.retrains k + 1) } } }

/-- LINK_RETRAIN (R425): after 16 resends of a flit, or 10 µs with flits outstanding and no acknowledgement, the link retrains; a
third failure in a row puts the port down, and the PF receives vector 2. Input: the port, then whether it succeeds at byte 1. Byte 2
tells the link: 0 a Zwitia port, whose count stands at 32 + port; 1 a memory link, at its number; 2 the PCI Express link, at 50 (R430).
The last two retrain as the outside tells (DESIGN CHOICE, log 180). -/
def execLinkRetrain (s : State) : Host.Outcome State Fault Refusal :=
  let p := (s.opnd 0 5 : BitVec 5).toNat
  let z := getZp s p
  if (s.opnd 2 2 : BitVec 2) = 1#2 then .next (countRetrain s p)
  else if (s.opnd 2 2 : BitVec 2) = 2#2 then .next (countRetrain s 50)
  else if 18 ≤ p ∨ z.down then .next s
  else if !z.worn ∧ (z.retry.isEmpty ∨ now s < z.ackAt + 10 * usCycles) then .next s
  else
    let s := countRetrain s (32 + p)
    let s := setZp s p { z with retrains := z.retrains + 1 }
    if (s.opnd 1 1 : BitVec 1) = 1#1 then .next (resume s p)
    else
      let z := getZp s p
      let s := setZp s p { z with fails := z.fails + 1, down := decide (3 ≤ z.fails + 1) }
      .next (if 3 ≤ z.fails + 1 then raiseMsix s 0#10 2 else s)

/-! ## Answers to remote requests (R192, R366, R426) -/

/-- The blocks of an answer. -/
def answerBlocks (r : Remote) (data : BitVec 2048) (descs : BitVec 64) (psn : BitVec 4) : List BlkVal :=
  (List.range r.blocks).map (answerBlock data descs psn)

/-- A port whose requests have all issued, or failed before, frees the entry of their emission (R368). -/
def entryFree (s : State) (r : Remote) : State :=
  match r.who with
  | .port site n => if portUnissued s ⟨site, n⟩ then s else freeEntry s ⟨site, n⟩
  | _ => s

/-- A remote request is over: its answer, or its failure, reaches its requester. -/
def landAnswer (s : State) (r : Remote) (ok : Bool) (data : BitVec 2048) (descs : BitVec 64) (psn : BitVec 4) : State :=
  let s := { s with links := { s.links with remotes := s.links.remotes.filter fun x => decide (x.idx ≠ r.idx) } }
  let s := if r.issued.isNone then entryFree s r else s
  match r.who with
  | .port site n => landRemote s ⟨site, n⟩ r ok data descs psn
  | .op site slot => landReplay s ⟨site, slot⟩ r ok data descs psn
  | .job id =>
    match findJob s id with
    | none => s
    | some j => if ok then landJob s j r (answerBlocks r data descs psn) else refuseJob s j r
  | .writeBack _ => if ok then s else loseAll s ((2 + r.node.toNat) * 2 ^ 52 + r.addr)
  | .resolve _ => s
  | .loader id => if ok then s else refuseNode s id 0x0A#8

/-- A remote request fails (R426). -/
def failRemote (s : State) (r : Remote) : State := landAnswer s r false 0#2048 0#64 0#4

/-! ## Slots (R192, R367) -/

/-- The key of a (tenant, node) pair. -/
def pairKey (tenant : BitVec 16) (node : BitVec 12) : Nat := tenant.toNat * 4096 + node.toNat

/-- The free slots of a pair. -/
def freeSlots (s : State) (k : Nat) : Nat := Table.get 0 s.hub.nearFree k

/-- Set the free slots of a pair, up to its reservation. -/
def setSlots (s : State) (k n : Nat) : State :=
  { s with hub := { s.hub with nearFree := Table.set 0 s.hub.nearFree k (Nat.min n (Table.get 0 s.hub.nearRes k)) } }

/-- A slot of a pair returns. -/
def giveSlot (s : State) (k : Nat) : State := setSlots s k (freeSlots s k + 1)

/-- The pair of a remote request. -/
def Remote.pair (r : Remote) : Nat := pairKey r.tenant r.node

/-- The place of a requester in the order in which free slots are given (R367): ports in ascending site and port, then the others. -/
def Requester.order : Requester → Nat
  | .port site n => site.toNat * 8 + n.toNat
  | .op site slot => 2 ^ 20 + site.toNat * 4 + slot.toNat
  | .job id => 2 ^ 24 + id
  | .writeBack _ => 2 ^ 23
  | .resolve _ => 2 ^ 23
  | .loader id => 2 ^ 25 + id

/-- The bytes of a peer that a request names. -/
def Remote.meets (r q : Remote) : Bool :=
  decide (r.node = q.node) && decide (r.addr / 64 < q.addr / 64 + q.blocks) && decide (q.addr / 64 < r.addr / 64 + r.blocks)

/-- A write-back of the request's bytes came before it and has not issued: the request waits for it, or its stream could read bytes
older than those it has read (R104) (DEDUCED, log 157). -/
def Remote.behind (s : State) (r : Remote) : Bool :=
  (s.links.remotes.takeWhile fun q => decide (q.idx ≠ r.idx)).any fun q =>
    q.issued.isNone && decide (q.kind = 1#3) && decide (q.who ≠ r.who) && r.meets q &&
    (match q.who with
      | .writeBack _ => true
      | .resolve _ => true
      | _ => false)

/-- The requester's first request that has not issued: requests of one requester issue in arrival order (R367). -/
def firstWaiting (s : State) (who : Requester) : Option Remote :=
  s.links.remotes.find? fun r => decide (r.who = who) && r.issued.isNone

/-- The port has issued a remote request in this cycle (R367). -/
def issuedNow (s : State) (who : Requester) : Bool :=
  s.links.remotes.any fun r => decide (r.who = who) && decide (r.issued = some (now s))

/-- Only a slot keeps a requester's first request from issuing. -/
def Remote.ready (s : State) (r : Remote) : Bool :=
  r.issued.isNone && decide (firstWaiting s r.who = some r) && !issuedNow s r.who && linkRoom s r.node && !r.behind s

/-- Requests that wait before a requester for a slot of a pair. -/
def slotsAhead (s : State) (who : Requester) (k : Nat) : Nat :=
  (s.links.remotes.filter fun r => decide (r.pair = k) && decide (r.who.order < who.order) && r.ready s).length

/-- A requester may have a slot of a pair in this cycle: one is free beside those of the requesters before it. -/
def slotFor (s : State) (who : Requester) (k : Nat) : Bool := decide (slotsAhead s who k < freeSlots s k)

/-- A request of the pair that a requester of a later place has issued in this cycle: the last of them. -/
def takenAfter (s : State) (who : Requester) (k : Nat) : Option Remote :=
  (s.links.remotes.filter fun q => decide (q.pair = k) && decide (q.issued = some (now s)) && decide (who.order < q.who.order)).foldl
    (fun b q => match b with
      | none => some q
      | some x => if x.who.order < q.who.order then some q else some x) none

/-- A write-back of a tile's bytes or of confirmed overlay entries, or a write of the loader. -/
def Requester.isBack : Requester → Bool
  | .writeBack _ => true
  | .resolve _ => true
  | .loader _ => true
  | _ => false

/-- The requester that an issue step names: a port of a memory tile, the operators of a site's MT, the running job of an engine, or
(0x1FFF) the first of the write-backs and the loader that can go on: each waits for the slots of its own pair only (R192). -/
def issuer (s : State) (eng : EngId) (port : BitVec 3) : Requester :=
  if eng = 0x1FFF#13 then
    match s.links.remotes.find? fun r =>
        r.who.isBack && (peerOut s r.tenant r.node && decide (firstWaiting s r.who = some r) || r.ready s && slotFor s r.who r.pair) with
    | some r => r.who
    | none => .writeBack 0
  else if eng.toNat < 4096 ∧ siteKind (engSite eng) = .mt then .port (engSite eng) port
  else
    match s.links.remotes.find? fun r =>
        match r.who with
        | .op site slot => decide (site = engSite eng) && decide (slot = bits port 0 2)
        | _ => false with
    | some r => r.who
    | none =>
      match s.dist.jobs.find? fun j => decide (j.eng = eng) && j.started && !j.ended && !j.run.awaits.isEmpty with
      | some j => .job j.id
      | none => .writeBack 0

/-- A request issues in this cycle. -/
def issueRemote (s : State) (r : Remote) : State :=
  let rs := mapWhere (fun x => decide (x.idx = r.idx)) (fun x => { x with issued := some (now s) }) s.links.remotes
  entryFree { s with links := { s.links with remotes := rs } } r

/-- REMOTE_REQUEST_ISSUE (R367): the requester's first request takes a slot and goes out on VC3; one whose tenant holds no
reservation at the node, or whose node is lost, fails at once. When a requester of a later place has taken the last slot in this same
cycle, the slot, and the flit that it stands for, are this request's, and the other one waits again. -/
def execRemoteRequestIssue (eng : BitVec 13) (port : BitVec 3) (s : State) : Host.Outcome State Fault Refusal :=
  let who := issuer s eng port
  match firstWaiting s who with
  | none => .next s
  | some r =>
    if peerOut s r.tenant r.node then .next (failRemote s r)
    else if !r.ready s then .next s
    else if slotFor s who r.pair then .next (sendTo (issueRemote (setSlots s r.pair (freeSlots s r.pair - 1)) r) r.node 3#4)
    else
      match takenAfter s who r.pair with
      | some q =>
        let rs := mapWhere (fun x => decide (x.idx = q.idx)) (fun x => { x with issued := none }) s.links.remotes
        .next (issueRemote { s with links := { s.links with remotes := rs } } r)
      | none => .next s

/-- SLOT_CREDIT (R192, R367): a slot of a pair returns. Input: the tenant, then the node at byte 2. -/
def execSlotCredit (s : State) : Host.Outcome State Fault Refusal := .next (giveSlot s (pairKey (s.opnd 0 16) (s.opnd 2 12)))

/-- REMOTE_REPLY (R192, R426): the reply to an issued request arrives. A refusal, for which the far end sends no credit, returns the slot
also where the request has timed out; a late reply is discarded otherwise. Input: the request's index, the status at byte 2 (0 done,
1 refused), data at byte 3, descriptors at byte 259, poison at byte 267. -/
def execRemoteReply (s : State) : Host.Outcome State Fault Refusal :=
  let idx := (s.opnd 0 16 : BitVec 16).toNat
  let ok := decide ((s.opnd 2 2 : BitVec 2) = 0#2)
  match s.links.remotes.find? fun r => decide (r.idx % 65536 = idx) && r.issued.isSome with
  | some r => .next (landAnswer (if ok then s else giveSlot s r.pair) r ok (s.opnd 3 2048) (s.opnd 259 64) (s.opnd 267 4))
  | none =>
    match s.links.late.find? fun x => decide (x.1 % 65536 = idx) with
    | none => .next s
    | some x =>
      let s := { s with links := { s.links with late := s.links.late.erase x } }
      .next (if ok then s else giveSlot s x.2)

/-- REMOTE_TIMEOUT (R426): an issued request whose reply has not come within the remote timeout fails; it keeps its slot until the
credit. Input: its index. -/
def execRemoteTimeout (s : State) : Host.Outcome State Fault Refusal :=
  let idx := (s.opnd 0 16 : BitVec 16).toNat
  match s.links.remotes.find? fun r => decide (r.idx % 65536 = idx) with
  | none => .next s
  | some r =>
    match r.issued with
    | some c =>
      if c + s.hub.rtimeoutUs.toNat * usCycles ≤ now s then
        .next (failRemote { s with links := { s.links with late := s.links.late ++ [(r.idx, r.pair)] } } r)
      else .next s
    | none => .next s

/-- The rank that an act of a collective needs. -/
def CollAct.rank : CollAct → Nat
  | .recvAdd k => k
  | .recvCopy k => k
  | .send k _ => k

/-- A running CPRED or CPBAR still needs a rank at a node (R427). -/
def collWaits (s : State) (node : BitVec 12) (j : Job) : Bool :=
  let opc := opcOfWord (jobWord s j)
  (decide (opc = 0x25#8) || decide (opc = 0x26#8)) && j.started && !j.ended && !j.run.acted && !j.run.dead &&
    (match j.run.taken with
      | [] => false
      | d0 :: _ =>
        let d : RedDesc := d0.pay
        ((collActs d.rank d.nrank).drop j.run.i).any fun a => decide ((rankNode s j d a.rank).2 = some node))

/-- The functions that have work addressed to a node (R427): requests, and collectives that wait on its ranks. -/
def fnsTo (s : State) (node : BitVec 12) : List (BitVec 10) :=
  (s.fns.map fun kf => BitVec.ofNat 10 kf.1).filter fun f =>
    decide (f ≠ 0#10) &&
      ((s.links.remotes.any fun r => decide (r.node = node) && decide (tenantVf s r.tenant = f)) ||
        s.dist.jobs.any fun j => collWaits s node j && decide (tenantVf s (jobTenant s j) = f))

/-- PEER_LOST (R427): every outstanding request to the node fails at once, and the PF and the functions with work addressed to it
receive vector 2. Collectives that wait on its ranks end with REMOTE at their next step. Input: the node. -/
def execPeerLost (s : State) : Host.Outcome State Fault Refusal :=
  let node : BitVec 12 := s.opnd 0 12
  let fns := fnsTo s node
  let late := s.links.late.filter fun x => decide (x.2 % 4096 ≠ node.toNat)
  let s := { s with links := { s.links with lost := Table.set false s.links.lost node.toNat true, late := late } }
  let gone := s.links.remotes.filter fun r => decide (r.node = node)
  let s := gone.foldl failRemote s
  .next (fns.foldl (fun s f => raiseMsix s f 2) (raiseMsix s 0#10 2))

/-- The nodes that a port leads to. -/
def nodesVia (s : State) (p : Nat) : List Nat := (s.hub.zroute.filter fun x => bitAt x.2 p).map fun x => x.1

/-- The reservations that a peer tells as its port trains: tenant, node and slots, 5 bytes each (R367). -/
def toldSlots : List Byte → State → State
  | t0 :: t1 :: n0 :: n1 :: k :: rest, s =>
    let key := pairKey (t1 ++ t0) (bits (n1 ++ n0) 0 12)
    let n := Nat.min k.toNat 64
    toldSlots rest { s with hub := { s.hub with nearRes := Table.set 0 s.hub.nearRes key n, nearFree := Table.set 0 s.hub.nearFree key n } }
  | _, s => s

/-- LINK_TRAINED (R425, R427): the port resumes from its oldest unacknowledged flit; a lost node that it leads to is lost no longer,
and the slot counts of that node's pairs are their reservations again. Input: the port, then what the peer tells of its
reservations (DESIGN CHOICE, log 80). -/
def execLinkTrained (s : State) : Host.Outcome State Fault Refusal :=
  let p := (s.opnd 0 5 : BitVec 5).toNat
  if 18 ≤ p then .next s
  else
    let back := (nodesVia s p).filter fun n => Table.get false s.links.lost n
    let free := s.hub.nearRes.foldl (fun f x => if back.contains (x.1 % 4096) then Table.set 0 f x.1 x.2 else f) s.hub.nearFree
    let lost := back.foldl (fun l n => Table.set false l n false) s.links.lost
    let s := resume { s with hub := { s.hub with nearFree := free }, links := { s.links with lost := lost } } p
    .next (toldSlots (s.input.drop 1) s)

/-! ## Requests of peers (R192, R353, R366, R426) -/

/-- A request of a peer, as it arrives. -/
structure FarReq where
  peer : BitVec 12
  tenant : BitVec 16
  kind : BitVec 3
  addr : Nat
  blocks : Nat
  mask : BitVec 256
  dset : Bool
  descs : BitVec 64
  data : BitVec 2048
  sync : BitVec 33
  psn : BitVec 4
  deriving DecidableEq, Repr

/-- The request that the input presents. -/
def farReq (s : State) : FarReq :=
  { peer := s.opnd 0 12, tenant := s.opnd 2 16, kind := s.opnd 4 3, addr := (s.opnd 5 52 : BitVec 52).toNat,
    blocks := 2 ^ Nat.min (s.opnd 12 2 : BitVec 2).toNat 2, mask := s.opnd 13 256, dset := decide ((s.opnd 45 1 : BitVec 1) = 1#1),
    descs := s.opnd 46 64, data := s.opnd 54 2048, sync := s.opnd 310 33, psn := s.opnd 315 4 }

/-- A memory tile works for a tenant. -/
def mtOfTenant (s : State) (site : Site) (tenant : BitVec 16) : Bool :=
  decide (siteKind site = .mt) && (nodeOf s site 0).isSome && decide (tenantOf (nodeOf s site 0) = tenant)

/-- The far end refuses a request (R426). -/
def farRefuses (s : State) (r : FarReq) : Bool :=
  decide (Table.get 0 s.hub.farSlots (pairKey r.tenant r.peer) = 0) ||
  (if r.kind.toNat < 5 then decide (moduleTop < r.addr / 64 * 64 + 64 * r.blocks)
    else
      !mtOfTenant s (BitVec.ofNat 12 (r.addr / 2 ^ 20)) r.tenant ||
      decide (spadSize < r.addr % 2 ^ 20 / 64 * 64 + 64 * r.blocks) ||
      (decide (r.kind = 5#3) && bitAt r.sync 32 && !mtOfTenant s (bits r.sync 20 12) r.tenant))

/-- A block of module memory as a peer finds it: the device's order (R101, R104). -/
def farBlock (s : State) (home : Nat) : BlkVal := deviceView s home (homeBlock s home)

/-- A peer's write to a block, after every store in the device's order. -/
def farWrite (s : State) (peer : BitVec 12) (home : Nat) (m : BitVec 64) (b : Block) (desc : Option (BitVec 16)) (psn : Bool) : State :=
  engStore s (peerParty peer) (.writeBack 0) 0#16 home 0 0#8 0#6 scopeTenant m b desc psn

/-- The blocks that a peer reads, from block `i` of `n`. -/
def farBlocks (get : Nat → BlkVal) (n : Nat) : BitVec 2048 × BitVec 64 × BitVec 4 :=
  (List.range n).foldl (fun x i =>
    let b := get i
    (setBits x.1 (512 * i) b.data, setBits x.2.1 (16 * i) b.desc, setBits x.2.2 i (BitVec.ofBool b.psn))) (0#2048, 0#64, 0#4)

/-- A peer's atomic on a word of module memory (R321, R366, R404). -/
def farAtomic (s : State) (r : FarReq) : State × (BitVec 2048 × BitVec 64 × BitVec 4) :=
  let home := r.addr / 64 * 64
  let b := farBlock s home
  if b.psn then (s, (0#2048, 0#64, 1#4))
  else
    let opc : BitVec 8 := bits r.descs 0 8
    let old := lane b.data (r.addr % 64 / 4)
    let x : Word := bits r.data 0 32
    let new := atomNew opc (bitAt r.descs 8) old x (bits r.data 32 32)
    let s := if atomWrites opc old x new then farWrite s r.peer home (needMask false r.addr) (wordBlock r.addr new) none false else s
    (s, (old.setWidth 2048, 0#64, 0#4))

/-- A peer's additions to block `i` of a row (R320, R366): on a poisoned block none is made, and the reply says so (R404). -/
def farAdd (r : FarReq) (x : State × BitVec 4) (i : Nat) : State × BitVec 4 :=
  let home := r.addr / 64 * 64 + 64 * i
  let b := farBlock x.1 home
  let m : BitVec 64 := bits r.mask (64 * i) 64
  let lanes := ofMask fun l => bitAt m (4 * l)
  if m = 0#64 then x
  else if b.psn then (x.1, setBits x.2 i 1#1)
  else (farWrite x.1 r.peer home m (addLanes (decide (r.kind = 4#3)) b.data (lane (bits r.data (512 * i) 512)) lanes) none false, x.2)

/-- Perform a peer's request. -/
def farPerform (s : State) (r : FarReq) : State × (BitVec 2048 × BitVec 64 × BitVec 4) :=
  let none3 : BitVec 2048 × BitVec 64 × BitVec 4 := (0#2048, 0#64, 0#4)
  let home := r.addr / 64 * 64
  let site : Site := BitVec.ofNat 12 (r.addr / 2 ^ 20)
  let off := r.addr % 2 ^ 20 / 64 * 64
  match r.kind.toNat with
  | 0 =>
    ((List.range r.blocks).foldl (fun s i => stampLoad s (peerParty r.peer) (home + 64 * i)) s,
      farBlocks (fun i => farBlock s (home + 64 * i)) r.blocks)
  | 1 =>
    ((List.range r.blocks).foldl (fun s i =>
      farWrite s r.peer (home + 64 * i) (bits r.mask (64 * i) 64) (bits r.data (512 * i) 512)
        (if r.dset then some (bits r.descs (16 * i) 16) else none) (bitAt r.psn i)) s, none3)
  | 2 => farAtomic s r
  | 3 =>
    let x := (List.range r.blocks).foldl (farAdd r) (s, 0#4)
    (x.1, (0#2048, 0#64, x.2))
  | 4 =>
    let x := (List.range r.blocks).foldl (farAdd r) (s, 0#4)
    (x.1, (0#2048, 0#64, x.2))
  | 5 =>
    ((List.range r.blocks).foldl (fun s i =>
      let s := spadStore s site (off + 64 * i) (BitVec.allOnes 64) (bits r.data (512 * i) 512) (some (bits r.descs (16 * i) 16)) (bitAt r.psn i)
      if bitAt r.sync 32 then queueSync s (bits r.sync 20 12) (bits r.sync 0 20).toNat 64 else s) s, none3)
  | _ => (s, farBlocks (fun i => spadBlock s site (off + 64 * i)) r.blocks)

/-- Send an answer to a peer; nothing goes to one that is lost (R427). -/
def sendAnswer (s : State) (a : Answer) : State :=
  if Table.get false s.links.lost a.node.toNat then s
  else sendTo { s with links := { s.links with answers := s.links.answers ++ [a] } } a.node 2#4

/-- FAR_END_REQUEST (R192, R426): a peer's request enters this package's memory pipeline: its slot returns as a credit, and its reply
follows; a refusal is the reply and returns the slot itself. Input: node, tenant at byte 2, kind at 4, address at 5, size at 12, byte
mask at 13, descriptor flag at 45, descriptors at 46, data at 54, sync word at 310, poisoned blocks at 315. It waits at the link while its
answers would find no room for retry (R190). -/
def execFarEndRequest (s : State) : Host.Outcome State Fault Refusal :=
  let r := farReq s
  let site : Site := BitVec.ofNat 12 (r.addr / 2 ^ 20)
  if !answerRoom s r.peer || (decide (r.kind = 5#3) && syncBusy s site (r.addr % 2 ^ 20 / 64 * 64) (64 * r.blocks)) then .next s
  else if farRefuses s r then .next (sendAnswer s ⟨r.peer, r.tenant, 1#2, 0#2048, 0#64, 0#4⟩)
  else
    let x := farPerform s r
    let s := sendAnswer x.1 ⟨r.peer, r.tenant, 2#2, 0#2048, 0#64, 0#4⟩
    .next (sendAnswer s ⟨r.peer, r.tenant, 0#2, x.2.1, x.2.2.1, x.2.2.2⟩)

/-- Two parts belong to one message of a collective. -/
def PeerMsg.same (a b : PeerMsg) : Bool := decide ({ a with data := [] } = { b with data := [] })

/-- A part of a message joins those that have come before it. -/
def joinPart (m : PeerMsg) : List PeerMsg → List PeerMsg
  | [] => [m]
  | x :: xs => if x.same m && !x.whole then { x with data := x.data ++ m.data } :: xs else x :: joinPart m xs

/-- COLLECTIVE_MESSAGE (R192, R355): a request arrives that carries a rank's message, or 256 bytes of it in order; the whole waits until
its receiver's job reaches it. The request is answered like any other. Input: the message's fields, the sending node at byte 15, the
data from byte 17 on. -/
def execCollectiveMessage (s : State) : Host.Outcome State Fault Refusal :=
  let m : PeerMsg :=
    ⟨s.opnd 0 16, s.opnd 2 8, s.opnd 3 12, s.opnd 5 12, s.opnd 7 12, s.opnd 9 2, s.opnd 11 32, s.opnd 10 1, s.opnd 15 12, s.input.drop 17⟩
  if !answerRoom s m.node then .next s
  else
    let s := { s with links := { s.links with inbox := joinPart m s.links.inbox } }
    let s := sendAnswer s ⟨m.node, m.tenant, 2#2, 0#2048, 0#64, 0#4⟩
    .next (sendAnswer s ⟨m.node, m.tenant, 0#2, 0#2048, 0#64, 0#4⟩)

end Sys2Proof.Machine
end

