-- ==== Sys2Proof/Machine/Dispatch.lean ====
section
/-! DEFINITION. The dispatch: one arm per constructor of Instr, each a direct call of its meaning. -/

namespace Sys2Proof.Machine

/-- The effect of one instruction on a state. -/
def exec (i : Instr) (s : State) : Host.Outcome State Fault Refusal :=
  match i with
  | .dispatch node dbx dby onto => Sys2Proof.Machine.execDispatch node dbx dby onto s
  | .promotion node => Sys2Proof.Machine.execPromotion node s
  | .residencyTimeout node => Sys2Proof.Machine.execResidencyTimeout node s
  | .frameWrite inst => Sys2Proof.Machine.execFrameWrite inst s
  | .bankFlip site sub => Sys2Proof.Machine.execBankFlip site sub s
  | .linkTransfer site out => Sys2Proof.Machine.execLinkTransfer site out s
  | .taskActivation site task => Sys2Proof.Machine.execTaskActivation site task s
  | .bundleFire site => Sys2Proof.Machine.execBundleFire site s
  | .nop st => Sys2Proof.Machine.execNop st s
  | .mov st => Sys2Proof.Machine.execMov st s
  | .movi st => Sys2Proof.Machine.execMovi st s
  | .sel st => Sys2Proof.Machine.execSel st s
  | .add st => Sys2Proof.Machine.execAdd st s
  | .sub st => Sys2Proof.Machine.execSub st s
  | .neg st => Sys2Proof.Machine.execNeg st s
  | .abs st => Sys2Proof.Machine.execAbs st s
  | .min st => Sys2Proof.Machine.execMin st s
  | .max st => Sys2Proof.Machine.execMax st s
  | .minu st => Sys2Proof.Machine.execMinu st s
  | .maxu st => Sys2Proof.Machine.execMaxu st s
  | .mul st => Sys2Proof.Machine.execMul st s
  | .mulh st => Sys2Proof.Machine.execMulh st s
  | .mulhu st => Sys2Proof.Machine.execMulhu st s
  | .mad st => Sys2Proof.Machine.execMad st s
  | .adds st => Sys2Proof.Machine.execAdds st s
  | .subs st => Sys2Proof.Machine.execSubs st s
  | .addus st => Sys2Proof.Machine.execAddus st s
  | .subus st => Sys2Proof.Machine.execSubus st s
  | .lea st => Sys2Proof.Machine.execLea st s
  | .add2 st => Sys2Proof.Machine.execAdd2 st s
  | .sub2 st => Sys2Proof.Machine.execSub2 st s
  | .add4 st => Sys2Proof.Machine.execAdd4 st s
  | .sub4 st => Sys2Proof.Machine.execSub4 st s
  | .dot4 st => Sys2Proof.Machine.execDot4 st s
  | .dot4u st => Sys2Proof.Machine.execDot4u st s
  | .dot8 st => Sys2Proof.Machine.execDot8 st s
  | .and st => Sys2Proof.Machine.execAnd st s
  | .or st => Sys2Proof.Machine.execOr st s
  | .xor st => Sys2Proof.Machine.execXor st s
  | .andn st => Sys2Proof.Machine.execAndn st s
  | .shl st => Sys2Proof.Machine.execShl st s
  | .shr st => Sys2Proof.Machine.execShr st s
  | .sar st => Sys2Proof.Machine.execSar st s
  | .rol st => Sys2Proof.Machine.execRol st s
  | .clz st => Sys2Proof.Machine.execClz st s
  | .popc st => Sys2Proof.Machine.execPopc st s
  | .brev st => Sys2Proof.Machine.execBrev st s
  | .bfx st => Sys2Proof.Machine.execBfx st s
  | .bfxs st => Sys2Proof.Machine.execBfxs st s
  | .bfi st => Sys2Proof.Machine.execBfi st s
  | .permb st => Sys2Proof.Machine.execPermb st s
  | .bswap st => Sys2Proof.Machine.execBswap st s
  | .ceq st => Sys2Proof.Machine.execCeq st s
  | .cne st => Sys2Proof.Machine.execCne st s
  | .clt st => Sys2Proof.Machine.execClt st s
  | .cle st => Sys2Proof.Machine.execCle st s
  | .cltu st => Sys2Proof.Machine.execCltu st s
  | .cleu st => Sys2Proof.Machine.execCleu st s
  | .ctst st => Sys2Proof.Machine.execCtst st s
  | .fadd st => Sys2Proof.Machine.execFadd st s
  | .fsub st => Sys2Proof.Machine.execFsub st s
  | .fmul st => Sys2Proof.Machine.execFmul st s
  | .fma st => Sys2Proof.Machine.execFma st s
  | .fms st => Sys2Proof.Machine.execFms st s
  | .fnma st => Sys2Proof.Machine.execFnma st s
  | .fmin st => Sys2Proof.Machine.execFmin st s
  | .fmax st => Sys2Proof.Machine.execFmax st s
  | .fabs st => Sys2Proof.Machine.execFabs st s
  | .fneg st => Sys2Proof.Machine.execFneg st s
  | .fcps st => Sys2Proof.Machine.execFcps st s
  | .fceq st => Sys2Proof.Machine.execFceq st s
  | .fclt st => Sys2Proof.Machine.execFclt st s
  | .fcle st => Sys2Proof.Machine.execFcle st s
  | .fcun st => Sys2Proof.Machine.execFcun st s
  | .fclass st => Sys2Proof.Machine.execFclass st s
  | .fscale st => Sys2Proof.Machine.execFscale st s
  | .frcp st => Sys2Proof.Machine.execFrcp st s
  | .frsq st => Sys2Proof.Machine.execFrsq st s
  | .fexp2 st => Sys2Proof.Machine.execFexp2 st s
  | .flog2 st => Sys2Proof.Machine.execFlog2 st s
  | .frnd st => Sys2Proof.Machine.execFrnd st s
  | .f2i st => Sys2Proof.Machine.execF2i st s
  | .f2u st => Sys2Proof.Machine.execF2u st s
  | .i2f st => Sys2Proof.Machine.execI2f st s
  | .u2f st => Sys2Proof.Machine.execU2f st s
  | .hadd2 st => Sys2Proof.Machine.execHadd2 st s
  | .hmul2 st => Sys2Proof.Machine.execHmul2 st s
  | .hfma2 st => Sys2Proof.Machine.execHfma2 st s
  | .hmin2 st => Sys2Proof.Machine.execHmin2 st s
  | .hmax2 st => Sys2Proof.Machine.execHmax2 st s
  | .cvth st => Sys2Proof.Machine.execCvth st s
  | .cvtlo st => Sys2Proof.Machine.execCvtlo st s
  | .cvthi st => Sys2Proof.Machine.execCvthi st s
  | .nq8 st => Sys2Proof.Machine.execNq8 st s
  | .nq4 st => Sys2Proof.Machine.execNq4 st s
  | .ndq8 st => Sys2Proof.Machine.execNdq8 st s
  | .ndq4 st => Sys2Proof.Machine.execNdq4 st s
  | .ndot4 st => Sys2Proof.Machine.execNdot4 st s
  | .ndot8 st => Sys2Proof.Machine.execNdot8 st s
  | .nscl st => Sys2Proof.Machine.execNscl st s
  | .naps st => Sys2Proof.Machine.execNaps st s
  | .nblk st => Sys2Proof.Machine.execNblk st s
  | .nsetd st => Sys2Proof.Machine.execNsetd st s
  | .shuf st => Sys2Proof.Machine.execShuf st s
  | .lrot st => Sys2Proof.Machine.execLrot st s
  | .bcast st => Sys2Proof.Machine.execBcast st s
  | .xbf st => Sys2Proof.Machine.execXbf st s
  | .rsum st => Sys2Proof.Machine.execRsum st s
  | .rmax st => Sys2Proof.Machine.execRmax st s
  | .rmin st => Sys2Proof.Machine.execRmin st s
  | .rsumi st => Sys2Proof.Machine.execRsumi st s
  | .scani st => Sys2Proof.Machine.execScani st s
  | .fscan st => Sys2Proof.Machine.execFscan st s
  | .lcomp st => Sys2Proof.Machine.execLcomp st s
  | .packb st => Sys2Proof.Machine.execPackb st s
  | .trap st => Sys2Proof.Machine.execTrap st s
  | .fence st => Sys2Proof.Machine.execFence st s
  | .fenceComplete site task => Sys2Proof.Machine.execFenceComplete site task s
  | .cmd st => Sys2Proof.Machine.execCmd st s
  | .fork st => Sys2Proof.Machine.execFork st s
  | .rdv st => Sys2Proof.Machine.execRdv st s
  | .waitc st => Sys2Proof.Machine.execWaitc st s
  | .groupinc st => Sys2Proof.Machine.execGroupinc st s
  | .sethyp st => Sys2Proof.Machine.execSethyp st s
  | .bind st => Sys2Proof.Machine.execBind st s
  | .unbind st => Sys2Proof.Machine.execUnbind st s
  | .signal st => Sys2Proof.Machine.execSignal st s
  | .time st => Sys2Proof.Machine.execTime st s
  | .rdsys st => Sys2Proof.Machine.execRdsys st s
  | .wrsys st => Sys2Proof.Machine.execWrsys st s
  | .brk st => Sys2Proof.Machine.execBrk st s
  | .orphanDiversion site task => Sys2Proof.Machine.execOrphanDiversion site task s
  | .steer loc cfg => Sys2Proof.Machine.execSteer loc cfg s
  | .merge loc cfg => Sys2Proof.Machine.execMerge loc cfg s
  | .carry loc cfg => Sys2Proof.Machine.execCarry loc cfg s
  | .dup loc cfg => Sys2Proof.Machine.execDup loc cfg s
  | .widen loc cfg => Sys2Proof.Machine.execWiden loc cfg s
  | .widenReleaseComplete site slot => Sys2Proof.Machine.execWidenReleaseComplete site slot s
  | .replay loc cfg => Sys2Proof.Machine.execReplay loc cfg s
  | .replayLapTwo site slot => Sys2Proof.Machine.execReplayLapTwo site slot s
  | .rpart loc cfg => Sys2Proof.Machine.execRpart loc cfg s
  | .drop loc cfg => Sys2Proof.Machine.execDrop loc cfg s
  | .freedNotice site endp => Sys2Proof.Machine.execFreedNotice site endp s
  | .freedCredit site sub => Sys2Proof.Machine.execFreedCredit site sub s
  | .ld loc d => Sys2Proof.Machine.execLd loc d s
  | .ldro loc d => Sys2Proof.Machine.execLdro loc d s
  | .st loc d => Sys2Proof.Machine.execSt loc d s
  | .stm loc d => Sys2Proof.Machine.execStm loc d s
  | .spld loc d => Sys2Proof.Machine.execSpld loc d s
  | .spst loc d => Sys2Proof.Machine.execSpst loc d s
  | .spadd loc d => Sys2Proof.Machine.execSpadd loc d s
  | .atadd loc d => Sys2Proof.Machine.execAtadd loc d s
  | .atfadd loc d => Sys2Proof.Machine.execAtfadd loc d s
  | .atmin loc d => Sys2Proof.Machine.execAtmin loc d s
  | .atmax loc d => Sys2Proof.Machine.execAtmax loc d s
  | .atand loc d => Sys2Proof.Machine.execAtand loc d s
  | .ator loc d => Sys2Proof.Machine.execAtor loc d s
  | .atxor loc d => Sys2Proof.Machine.execAtxor loc d s
  | .atxchg loc d => Sys2Proof.Machine.execAtxchg loc d s
  | .atcas loc d => Sys2Proof.Machine.execAtcas loc d s
  | .gath loc d => Sys2Proof.Machine.execGath loc d s
  | .scat loc d => Sys2Proof.Machine.execScat loc d s
  | .scatadd loc d => Sys2Proof.Machine.execScatadd loc d s
  | .syncset loc d => Sys2Proof.Machine.execSyncset loc d s
  | .syncw loc d => Sys2Proof.Machine.execSyncw loc d s
  | .pref loc d => Sys2Proof.Machine.execPref loc d s
  | .stfl loc d => Sys2Proof.Machine.execStfl loc d s
  | .stinv loc d => Sys2Proof.Machine.execStinv loc d s
  | .replySend site port => Sys2Proof.Machine.execReplySend site port s
  | .portControlToken site port => Sys2Proof.Machine.execPortControlToken site port s
  | .syncAdd site => Sys2Proof.Machine.execSyncAdd site s
  | .aloop loc lvl count stride => Sys2Proof.Machine.execAloop loc lvl count stride s
  | .aend loc lvl => Sys2Proof.Machine.execAend loc lvl s
  | .abase loc base => Sys2Proof.Machine.execAbase loc base s
  | .aoff loc delta => Sys2Proof.Machine.execAoff loc delta s
  | .aidx loc exit isgn istr => Sys2Proof.Machine.execAidx loc exit isgn istr s
  | .agrp loc exit tv task tsite gstr => Sys2Proof.Machine.execAgrp loc exit tv task tsite gstr s
  | .agrpEndOfStream node => Sys2Proof.Machine.execAgrpEndOfStream node s
  | .aemit loc disp => Sys2Proof.Machine.execAemit loc disp s
  | .acred loc en cadd => Sys2Proof.Machine.execAcred loc en cadd s
  | .amask loc lvl tmask mask => Sys2Proof.Machine.execAmask loc lvl tmask mask s
  | .ahalt loc eos => Sys2Proof.Machine.execAhalt loc eos s
  | .jobStart eng => Sys2Proof.Machine.execJobStart eng s
  | .engineCmdWord site => Sys2Proof.Machine.execEngineCmdWord site s
  | .jobEnd eng => Sys2Proof.Machine.execJobEnd eng s
  | .mxCommandStart site => Sys2Proof.Machine.execMxCommandStart site s
  | .mxldb eng cmd => Sys2Proof.Machine.execMxldb eng cmd s
  | .mxmul eng cmd => Sys2Proof.Machine.execMxmul eng cmd s
  | .mxmulo eng cmd => Sys2Proof.Machine.execMxmulo eng cmd s
  | .mxdrn eng cmd => Sys2Proof.Machine.execMxdrn eng cmd s
  | .mxzero eng cmd => Sys2Proof.Machine.execMxzero eng cmd s
  | .mxver eng cmd => Sys2Proof.Machine.execMxver eng cmd s
  | .cpcopy eng cmd => Sys2Proof.Machine.execCpcopy eng cmd s
  | .cpfill eng cmd => Sys2Proof.Machine.execCpfill eng cmd s
  | .cpchain eng cmd => Sys2Proof.Machine.execCpchain eng cmd s
  | .cpput eng cmd => Sys2Proof.Machine.execCpput eng cmd s
  | .cpget eng cmd => Sys2Proof.Machine.execCpget eng cmd s
  | .cpred eng cmd => Sys2Proof.Machine.execCpred eng cmd s
  | .cpbar eng cmd => Sys2Proof.Machine.execCpbar eng cmd s
  | .tnew eng cmd => Sys2Proof.Machine.execTnew eng cmd s
  | .tapp eng cmd => Sys2Proof.Machine.execTapp eng cmd s
  | .tseal eng cmd => Sys2Proof.Machine.execTseal eng cmd s
  | .tatt eng cmd => Sys2Proof.Machine.execTatt eng cmd s
  | .tfork eng cmd => Sys2Proof.Machine.execTfork eng cmd s
  | .tevict eng cmd => Sys2Proof.Machine.execTevict eng cmd s
  | .tfree eng cmd => Sys2Proof.Machine.execTfree eng cmd s
  | .tstat eng cmd => Sys2Proof.Machine.execTstat eng cmd s
  | .hfam eng cmd => Sys2Proof.Machine.execHfam eng cmd s
  | .hins eng cmd => Sys2Proof.Machine.execHins eng cmd s
  | .hdel eng cmd => Sys2Proof.Machine.execHdel eng cmd s
  | .hprobe eng cmd => Sys2Proof.Machine.execHprobe eng cmd s
  | .hreh eng cmd => Sys2Proof.Machine.execHreh eng cmd s
  | .hstat eng cmd => Sys2Proof.Machine.execHstat eng cmd s
  | .hypnew eng cmd => Sys2Proof.Machine.execHypnew eng cmd s
  | .confirm eng cmd => Sys2Proof.Machine.execConfirm eng cmd s
  | .refute eng cmd => Sys2Proof.Machine.execRefute eng cmd s
  | .hypqry eng cmd => Sys2Proof.Machine.execHypqry eng cmd s
  | .tierhint eng cmd => Sys2Proof.Machine.execTierhint eng cmd s
  | .tierpin eng cmd => Sys2Proof.Machine.execTierpin eng cmd s
  | .overlayEnlarge ctx => Sys2Proof.Machine.execOverlayEnlarge ctx s
  | .tenantSwitch outgoing incoming => Sys2Proof.Machine.execTenantSwitch outgoing incoming s
  | .pageMoveComplete ok => Sys2Proof.Machine.execPageMoveComplete ok s
  | .detectionWave inst => Sys2Proof.Machine.execDetectionWave inst s
  | .nodeComplete node => Sys2Proof.Machine.execNodeComplete node s
  | .budgetExhausted node => Sys2Proof.Machine.execBudgetExhausted node s
  | .watchdogFire inst => Sys2Proof.Machine.execWatchdogFire inst s
  | .sliceExpiry inst => Sys2Proof.Machine.execSliceExpiry inst s
  | .preempt inst => Sys2Proof.Machine.execPreempt inst s
  | .mark site sub => Sys2Proof.Machine.execMark site sub s
  | .markerPhaseEnd inst => Sys2Proof.Machine.execMarkerPhaseEnd inst s
  | .freeze inst => Sys2Proof.Machine.execFreeze inst s
  | .restore inst dbx dby => Sys2Proof.Machine.execRestore inst dbx dby s
  | .ownerChangeZeroing site sub ok => Sys2Proof.Machine.execOwnerChangeZeroing site sub ok s
  | .heartbeat die => Sys2Proof.Machine.execHeartbeat die s
  | .dieLost die => Sys2Proof.Machine.execDieLost die s
  | .faultRecord die => Sys2Proof.Machine.execFaultRecord die s
  | .fault die => Sys2Proof.Machine.execFault die s
  | .fpop die => Sys2Proof.Machine.execFpop die s
  | .repairToken die => Sys2Proof.Machine.execRepairToken die s
  | .kernelBudget site task => Sys2Proof.Machine.execKernelBudget site task s
  | .remoteRequestIssue eng port => Sys2Proof.Machine.execRemoteRequestIssue eng port s
  | .memoryReply site port => Sys2Proof.Machine.execMemoryReply site port s
  | .sramSwapComplete inst => Sys2Proof.Machine.execSramSwapComplete inst s
  | .packageReset => Sys2Proof.Machine.execPackageReset s
  | .powerLoss => Sys2Proof.Machine.execPowerLoss s
  | .launch => Sys2Proof.Machine.execLaunch s
  | .recordAccept => Sys2Proof.Machine.execRecordAccept s
  | .placementHold => Sys2Proof.Machine.execPlacementHold s
  | .pageWalk => Sys2Proof.Machine.execPageWalk s
  | .atsTimeout => Sys2Proof.Machine.execAtsTimeout s
  | .eccError => Sys2Proof.Machine.execEccError s
  | .collectiveMessage => Sys2Proof.Machine.execCollectiveMessage s
  | .repair => Sys2Proof.Machine.execRepair s
  | .escal => Sys2Proof.Machine.execEscal s
  | .watch => Sys2Proof.Machine.execWatch s
  | .respPoll => Sys2Proof.Machine.execRespPoll s
  | .generationIteration => Sys2Proof.Machine.execGenerationIteration s
  | .lstatClear => Sys2Proof.Machine.execLstatClear s
  | .inval => Sys2Proof.Machine.execInval s
  | .invalidationComplete => Sys2Proof.Machine.execInvalidationComplete s
  | .invstatClear => Sys2Proof.Machine.execInvstatClear s
  | .cqtailClear => Sys2Proof.Machine.execCqtailClear s
  | .policy => Sys2Proof.Machine.execPolicy s
  | .pferrClear => Sys2Proof.Machine.execPferrClear s
  | .registerWrite => Sys2Proof.Machine.execRegisterWrite s
  | .faultring => Sys2Proof.Machine.execFaultring s
  | .pasid => Sys2Proof.Machine.execPasid s
  | .watchdog => Sys2Proof.Machine.execWatchdog s
  | .dbgattach => Sys2Proof.Machine.execDbgattach s
  | .dbghalt => Sys2Proof.Machine.execDbghalt s
  | .dbgresume => Sys2Proof.Machine.execDbgresume s
  | .dbgdetach => Sys2Proof.Machine.execDbgdetach s
  | .watchset => Sys2Proof.Machine.execWatchset s
  | .rebuild => Sys2Proof.Machine.execRebuild s
  | .liferead => Sys2Proof.Machine.execLiferead s
  | .attest => Sys2Proof.Machine.execAttest s
  | .atstimeout => Sys2Proof.Machine.execAtstimeout s
  | .nodeid => Sys2Proof.Machine.execNodeid s
  | .route => Sys2Proof.Machine.execRoute s
  | .slots => Sys2Proof.Machine.execSlots s
  | .rtimeout => Sys2Proof.Machine.execRtimeout s
  | .t2pool => Sys2Proof.Machine.execT2pool s
  | .ovlres => Sys2Proof.Machine.execOvlres s
  | .ctxset => Sys2Proof.Machine.execCtxset s
  | .ctxread => Sys2Proof.Machine.execCtxread s
  | .slotCredit => Sys2Proof.Machine.execSlotCredit s
  | .remoteReply => Sys2Proof.Machine.execRemoteReply s
  | .farEndRequest => Sys2Proof.Machine.execFarEndRequest s
  | .remoteTimeout => Sys2Proof.Machine.execRemoteTimeout s
  | .peerLost => Sys2Proof.Machine.execPeerLost s
  | .flitReceive => Sys2Proof.Machine.execFlitReceive s
  | .nak => Sys2Proof.Machine.execNak s
  | .linkRetrain => Sys2Proof.Machine.execLinkRetrain s
  | .snapshot => Sys2Proof.Machine.execSnapshot s
  | .environmentSample => Sys2Proof.Machine.execEnvironmentSample s
  | .linkTrained => Sys2Proof.Machine.execLinkTrained s
  | .dieRejoin => Sys2Proof.Machine.execDieRejoin s
  | .tdispTransition => Sys2Proof.Machine.execTdispTransition s
  | .packageFault => Sys2Proof.Machine.execPackageFault s
  | .configRecordUpdate => Sys2Proof.Machine.execConfigRecordUpdate s
  | .fwcmdReservedCode => Sys2Proof.Machine.execFwcmdReservedCode s

end Sys2Proof.Machine
end

