-- ==== Sys2Proof/Machine/Sampler.lean ====
section
/-! DEFINITION. The draw of one token from a row of logits (R165), as the Sweori sampler subgraph makes it. The subgraph itself is an
image's: its stages, its REPLAY operator and its tokens are those of the CE and the router; this file says what they have drawn at the end of
lap two. A row is its vector tokens in order, each with its mask. -/

namespace Sys2Proof.Machine

/-- A row of logits: vector tokens with their lane masks. -/
abbrev LogitRow := List (Block × BitVec 16)

/-- Every lane of a block through a function. -/
def mapLanes (f : Word → Word) (a : Block) : Block := ofLanes fun l => f (lane a l)

/-- y = rne(x · KT). -/
def scaled (kt x : Word) : Word := (fmul rne x kt).1

/-- The larger of the maximum so far and a token's (R165, R268). -/
def rowMaxStep (kt : Word) (m : Option Word) (x : Block × BitVec 16) : Option Word :=
  match xMinmaxFrom true x.2 (mapLanes (scaled kt) x.1) 16, m with
  | none, _ => m
  | some v, none => some v.1
  | some v, some u => some (fminmax true u v.1).1

/-- M: the largest y of the row's unmasked lanes; with none, no lane has a weight and M is not read. -/
def rowMax (kt : Word) (row : LogitRow) : Word := (row.foldl (rowMaxStep kt) none).getD 0#32

/-- The weights of one token: fexp2(rne(y − M)), and +0 in a masked lane. -/
def weights (kt m : Word) (x : Block × BitVec 16) : Block :=
  ofLanes fun l => if bitAt x.2 l then (fexp2 (fsub rne (scaled kt (lane x.1 l)) m).1).1 else 0#32

/-- A base after a token: rne(base + RSUM(w)). -/
def addWeights (base : Word) (w : Block) : Word := (fadd rne base (treeSum (lane w) 4 0).1).1

/-- Z: the sum that lap one leaves. -/
def rowSum (ws : List Block) : Word := ws.foldl addWeights 0#32

/-- a > b as binary32 numbers (R270). -/
def fGt (a b : Word) : Bool := (fcompare 1 b a).1

/-- u = G[31:8] · 2^−24, which is exact. -/
def drawU (g : Word) : Word := BitVec.ofNat 32 (fp32.roundDy rne false ⟨((g.toNat / 256 : Nat) : Int), -24⟩).1

/-- The first unmasked lane of a token whose running sum passes the target. -/
def firstOver (base tgt : Word) (mask : BitVec 16) (w : Block) : Option Nat :=
  (List.range 16).find? fun j => bitAt mask j && fGt (fadd rne base (fscanLane 0xFFFF#16 w j).1).1 tgt

/-- Lap two: the index of the first element, over the tokens in order, whose sum passes the target. -/
def lapTwo (tgt : Word) : Nat → Word → List (BitVec 16 × Block) → Option Nat
  | _, _, [] => none
  | i, base, (mask, w) :: rest =>
    match firstOver base tgt mask w with
    | some j => some (i + j)
    | none => lapTwo tgt (i + 16) (addWeights base w) rest

/-- The last unmasked element with a weight above +0. -/
def lastWeighted (ws : List (BitVec 16 × Block)) : Option Nat :=
  ((List.range (16 * ws.length)).filter fun i =>
    match ws[i / 16]? with
    | some x => bitAt x.1 (i % 16) && fGt (lane x.2 (i % 16)) 0#32
    | none => false).getLast?

/-- The element that a row draws at a value u (R165): none when no element has a weight above +0. -/
def drawAt (kt u : Word) (row : LogitRow) : Option Nat :=
  let m := rowMax kt row
  let ws := row.map fun x => (x.2, weights kt m x)
  let tgt := (fmul rne u (rowSum (ws.map fun x => x.2))).1
  (lapTwo tgt 0 0#32 ws).orElse fun _ => lastWeighted ws

/-- The draw of a sampler task with generator `g` in lane 0 (R165, R126): the generator after it, and the index that goes out as one
scalar token. -/
def draw (kt g : Word) (row : LogitRow) : Word × Option Word :=
  let g := advance g
  (g, (drawAt kt (drawU g) row).map fun i => BitVec.ofNat 32 i)

end Sys2Proof.Machine
end

