-- ==== Sys2Proof/Machine/Step.lean ====
section
/-! DEFINITION. One step: the move at the front of the agenda takes its indivisible step, or, with an empty agenda, a cycle
passes. -/

namespace Sys2Proof.Machine

/-- Run the record of a move: decode it, check it, and execute the instruction. -/
def runRecord (m : Move) (bs : List Byte) (s : State) : Host.Outcome State Fault Refusal :=
  match decode bs with
  | .ok i => if wf i then exec i s else onIllFormed m .illFormed s
  | .error r => onIllFormed m (.badRecord r) s

/-- One step of the machine (DESIGN CHOICE, log 1; DEDUCED, log 132). -/
def step (s : State) : Host.Outcome State Fault Refusal :=
  match s.agenda with
  | [] => .next (tick s)
  | m :: ms =>
    let t := { s with agenda := ms, input := moveInput m }
    match m with
    | .tick => .next (tick t)
    | _ =>
      match moveRecord t m with
      | none => .next (outsideMove t m)
      | some bs => runRecord m bs t

/-- The state with a word of the opcode table placed where the next step fetches it (DESIGN CHOICE, log 16). -/
def State.withFetchWord (s : State) (nbits w : Nat) : State :=
  match tableRecord nbits w with
  | some bs => placeRecord s bs
  | none => s

end Sys2Proof.Machine
end

