-- ==== Sys2Proof/Safety.lean ====
section
/-! DEFINITION. What counts as a safe run, and the terms in which the statements speak: completing with a next state, and what an
instruction leaves alone. -/

namespace Sys2Proof.Machine

/-- One step answers a next state. -/
def Steps (s t : State) : Prop := step s = .next t

/-- A run: any number of steps that answer next states. -/
inductive Runs : State → State → Prop where
  /-- no step -/
  | refl (s : State) : Runs s s
  /-- one step more -/
  | tail {s t u : State} : Runs s t → Steps t u → Runs s u

/-- Nothing that a run from a state reaches makes the step fault or refuse at once. -/
def Safe (s : State) : Prop := ∀ t, Runs s t → ∃ u, Steps t u

/-- The instruction completes: it answers a next state, and that state meets a condition. -/
def Completes (i : Instr) (s : State) (P : State → Prop) : Prop := ∃ t, exec i s = .next t ∧ P t

/-- Every byte of module memory, host memory and the scratchpads reads as before. -/
def MemSame (s t : State) : Prop :=
  (∀ a, memByte t a = memByte s a) ∧ (∀ a, hostByte t a = hostByte s a) ∧ ∀ site a, spadByte t site a = spadByte s site a

/-- Outside the running state of one CE nothing of the machine has changed. -/
def OnlyCe (site : Site) (s t : State) : Prop :=
  t = { s with fab := { s.fab with ces := t.fab.ces } } ∧ (∀ x, x ≠ site → getCe t x = getCe s x) ∧ MemSame s t

/-- Within a CE nothing but one of its tasks has changed, and outside it nothing at all. -/
def OnlyTask (site : Site) (task : BitVec 3) (s t : State) : Prop :=
  OnlyCe site s t ∧ getCe t site = { getCe s site with tasks := (getCe t site).tasks } ∧
  ∀ x, x ≠ task → getTask t site x = getTask s site x

/-- A live hypothesis has a parent of a lower number, so that its chain ends at id 0 (R111, R161). -/
def HypsDown (s : State) : Prop := ∀ (ctx : BitVec 8) (h p : BitVec 6), h ≠ 0#6 → hypParent s ctx h = some p → p < h

/-- What every step keeps: storage in its canonical form, and hypotheses below their parents. -/
def Inv (s : State) : Prop := Memory.wf s.store = true ∧ HypsDown s

end Sys2Proof.Machine

/-! ## CE stages (R249 to R253) -/

namespace Sys2Proof.Claims

open Sys2Proof Sys2Proof.Machine

/-- What a stage changes in its task: p_k and f_k of its own slot, AFLAGS, the generator and the firing's outputs; every other register
of the task, every other task and everything outside the CE stay. -/
def StageFrame (st : Stage) (s t : State) : Prop :=
  let k := getTask s st.site st.task
  let k' := getTask t st.site st.task
  OnlyTask st.site st.task s t ∧
  k' = { k with p := k'.p, f := k'.f, aflags := k'.aflags, gen := k'.gen, fire := k'.fire } ∧
  (∀ j, j ≠ st.slot.toNat → vget 0#512 k'.p j = vget 0#512 k.p j) ∧
  (∀ j, j ≠ st.slot.toNat → vget 0#16 k'.f j = vget 0#16 k.f j) ∧
  k'.fire.outs.toList.map (fun o => (o.desc, o.sig)) = k.fire.outs.toList.map fun o => (o.desc, o.sig)

/-- The lanes of the mask hold the results and flags in p_k and f_k; the others keep what they held. -/
def StageWrites (st : Stage) (s t : State) (m : BitVec 16) (val : Nat → Word) (flg : Nat → Bool) : Prop :=
  let k := getTask s st.site st.task
  let k' := getTask t st.site st.task
  let j := st.slot.toNat
  ∀ l, l < 16 →
    lane (vget 0#512 k'.p j) l = (if bitAt m l then val l else lane (vget 0#512 k.p j) l) ∧
    bitAt (vget 0#16 k'.f j) l = (if bitAt m l then flg l else bitAt (vget 0#16 k.f j) l)

/-- What OUT does with the results of the lanes of a mask (R251): 1 to 4 put them into the token of that output and set their bits in its
lane mask, 5 takes lane 0 of p_k for so0, 6 and 7 put them into what the accumulator will hold; every other output and accumulator
keeps what it had. -/
def StageOut (st : Stage) (s t : State) (m : BitVec 16) (val : Nat → Word) : Prop :=
  let k := getTask s st.site st.task
  let k' := getTask t st.site st.task
  let out (x : Task) (o : Nat) : OutLatch := vget OutLatch.empty x.fire.outs o
  (∀ o, o < 5 →
    if o + 1 = st.out.toNat then
      (∀ l, l < 16 → o < 4 →
        lane (out k' o).pay l = (if bitAt m l then val l else lane (out k o).pay l) ∧
        bitAt (out k' o).mask l = (bitAt (out k o).mask l || bitAt m l)) ∧
      (o = 4 → lane (out k' o).pay 0 = lane (vget 0#512 k'.p st.slot.toNat) 0)
    else out k' o = out k o) ∧
  ∀ j, j < 2 → ∀ l, l < 16 →
    lane (vget 0#512 k'.fire.acc j) l =
      (if st.out.toNat = 6 + j ∧ bitAt m l = true then val l else lane (vget 0#512 k.fire.acc j) l)

/-- AFLAGS gains the bits that the active lanes set, and keeps every other (R115, R253). -/
def StageFlags (st : Stage) (s t : State) (fl : Nat → Flags) : Prop :=
  ∀ i, bitAt (getTask t st.site st.task).aflags i =
    (bitAt (getTask s st.site st.task).aflags i || (List.range 16).any fun l => bitAt (stageAct s st) l && bitAt (fl l) i)

/-- A stage whose lanes compute each by itself: in every active lane the result of the operation on the lane's operands. -/
def LaneStage (st : Stage) (s t : State) (r : Nat → LaneRes) : Prop :=
  StageFrame st s t ∧ StageWrites st s t (stageAct s st) (fun l => (r l).val) (fun l => (r l).flg) ∧
  StageFlags st s t (fun l => (r l).fl) ∧ StageOut st s t (stageAct s st) (fun l => (r l).val) ∧
  (getTask t st.site st.task).gen = (getTask s st.site st.task).gen

/-- An operation on the lanes' operands A, B and C, by the instruction that names it. -/
abbrev LaneOp := (Stage → Instr) × (State → Stage → Word → Word → Word → LaneRes)

/-- Every operation of a list completes with its result in the active lanes. -/
def LaneOps (ops : List LaneOp) : Prop :=
  ∀ e, e ∈ ops → ∀ (st : Stage) (s : State), wf (e.1 st) = true →
    Completes (e.1 st) s fun t =>
      LaneStage st s t fun l => e.2 s st (lane (stageA s st) l) (lane (stageB s st) l) (lane (stageC s st) l)

end Sys2Proof.Claims
end

