-- ==== Sys2Proof/Certificates/Slice0/Obligations.lean ====
section
/-! DEFINITION. The statements for the provers. Each says in its docstring which rules of the spec it formalises; `Completes` says that
the instruction answers a next state. -/

namespace Sys2Proof.Claims

open Sys2Proof Sys2Proof.Machine

/-! ## Results of the lanes -/

/-- A result with the nonzero rule for its flag, and SAT when `sat` (R251, R253). -/
def res (x : Word) (sat : Bool) : LaneRes := ⟨x, decide (x ≠ 0#32), if sat then fSAT else fNone⟩
/-- sats(x, n) (R253). -/
def clampS (n : Nat) (x : Int) : Int := max (-(2 ^ (n - 1) : Int)) (min x ((2 ^ (n - 1) : Int) - 1))
/-- satu(x, n) (R253). -/
def clampU (n : Nat) (x : Int) : Int := max 0 (min x ((2 ^ n : Int) - 1))
/-- A form that always clamps its exact signed result. -/
def satS (x : Int) : LaneRes := res (BitVec.ofInt 32 (clampS 32 x)) (decide (clampS 32 x ≠ x))
/-- A form that always clamps its exact unsigned result. -/
def satU (x : Int) : LaneRes := res (BitVec.ofInt 32 (clampU 32 x)) (decide (clampU 32 x ≠ x))
/-- A form that wraps, or clamps with MOD[2]. -/
def wrapS (st : Stage) (x : Int) : LaneRes := if bitAt st.mod 2 then satS x else res (BitVec.ofInt 32 x) false
/-- A form that wraps, or clamps without a sign with MOD[2]. -/
def wrapU (st : Stage) (x : Int) : LaneRes := if bitAt st.mod 2 then satU x else res (BitVec.ofInt 32 x) false
/-- A compare: 1 or 0 in p_k, and the same bit in f_k (R264). -/
def rel (c : Bool) : LaneRes := ⟨if c then 1#32 else 0#32, c, fNone⟩

/-! ## Control operations and firings -/

/-- Nothing has changed but one task, which is now the one given. -/
def TaskIs (site : Site) (task : BitVec 3) (s t : State) (k : Task) : Prop := OnlyTask site task s t ∧ getTask t site task = k

/-- Whether counter `j` steps in a firing with step mask `m` (R291): its mask bit, or the chain from a counter below that wraps. -/
def lcSteps (lc : Vector Word 4) (d : BitVec 256) (m : BitVec 4) : Nat → Bool
  | 0 => bitAt m 0
  | j + 1 => bitAt m (j + 1) ^^
      (lcSteps lc d m j && decide (vget 0#32 lc j + 1#32 = (bits d (128 + 32 * j) 32 : Word)) && bitAt d (33 + j))

/-- Counter `j` steps and reaches its bound, where 0 stands for 2^32 (R291). -/
def lcWraps (lc : Vector Word 4) (d : BitVec 256) (m : BitVec 4) (j : Nat) : Bool :=
  lcSteps lc d m j && decide (vget 0#32 lc j + 1#32 = (bits d (128 + 32 * j) 32 : Word))

/-- What a task is after a firing (R292): HALT makes it Done, YIELD makes one with a trigger wait. -/
def goesOn (nas : Nat) (trig : Bool) (x : TaskSt) : TaskSt :=
  if x = .running ∨ x = .asleep then (if nas = 7 then .done else if nas = 5 ∧ trig = true then .asleep else x) else x

/-- The next bundle (R292): `w` the counters that wrapped, `f` the flags after the firing, `h` the head of vi0. -/
def Branches (b : BitVec 256) (pc pc' : BitVec 7) (base n : Nat) (f : Vector (BitVec 16) 6) (w : Nat → Bool) (h : Option Token) : Prop :=
  (bNas b = 0 → pc' = if pc.toNat = base + n - 1 then BitVec.ofNat 7 base else pc + 1#7) ∧
  (bNas b = 1 → pc' = bTa b) ∧
  (bNas b = 2 → pc' = if w (bFs b) = true ∧ bFs b < 4 then bTb b else bTa b) ∧
  (bNas b = 3 → pc' = if bitAt (vget 0#16 f (bFs b)) 0 = true then bTb b else bTa b) ∧
  (bNas b = 4 → pc' = if ∃ x, h = some x ∧ x.ctrl = true then bTb b else bTa b) ∧
  (bNas b = 5 → pc' = bTa b) ∧
  (bNas b = 6 → (∀ x, h = some x → x.ctrl = true → pc' = bTa b + BitVec.ofNat 7 ((bits x.pay 0 8 : BitVec 8).toNat % 8)) ∧
    ((∀ x, h = some x → x.ctrl = false) → pc' = bTa b + 4#7))

/-- A control operation that gives p5 and f5 a result in every active lane and changes nothing else (R293). -/
def CtlResult (st : Stage) (s t : State) (f : Nat → Word) : Prop :=
  let k := getTask s st.site st.task
  let k' := getTask t st.site st.task
  OnlyTask st.site st.task s t ∧ k' = { k with p := k'.p, f := k'.f } ∧
  (∀ j, j ≠ 5 → vget 0#512 k'.p j = vget 0#512 k.p j ∧ vget 0#16 k'.f j = vget 0#16 k.f j) ∧
  StageWrites st s t (stageAct s st) f fun l => decide (f l ≠ 0#32)

/-! ## Address generators -/

/-- Nothing has changed but one AG, which is now the one given. -/
def AgIs (loc : AgAt) (s t : State) (a : Ag) : Prop :=
  t = { s with fab := { s.fab with ags := t.fab.ags } } ∧ getAg t loc = a ∧ (∀ x, x ≠ loc → getAg t x = getAg s x) ∧ MemSame s t

/-- What goes out along the path of an AG's emissions (R332): a request at its port, or a token on its out channel. -/
def SentByAg (loc : AgAt) (s t : State) (e : Emission) (tok : Token) : Prop :=
  if agDirect s loc then (getPort t (agPort s loc)).reqs = (getPort s (agPort s loc)).reqs ++ [e]
  else
    let key := inKey loc.site (agOut s loc).1 (agOut s loc).2
    (getBuf t key).q = (getBuf s key).q ++ [(tok, localAt s loc.site (agOut s loc).1 + 1)]

/-- The control token that an AG sends with its own stamp. -/
def AgControl (loc : AgAt) (s t : State) (w : Word) : Prop :=
  let a := getAg s loc
  SentByAg loc s t ⟨0#56, 0xFFFF#16, a.hid, a.hidRef, some w, none, 0#2, now s + 1⟩ (controlTok true w a.hid a.hidRef)

/-- A walk of a die has failed with a code, and nothing else has changed. -/
def WalkFails (s t : State) (die : BitVec 2) (w : Walk) (c : FaultCode) : Prop :=
  getDie t die = { getDie s die with walks := (getDie s die).walks.erase w, failed := (getDie s die).failed ++ [(w, c)] } ∧
  (∀ d, d ≠ die → getDie t d = getDie s d) ∧ t = { s with dies := t.dies }

/-! ## Routers -/

/-- One firing of an operator: its head leaves each of the inputs named, its tokens stand last at its outputs, it fires no more in this
cycle, and nothing else but the marks of its region has changed. -/
def OpFired (loc : OpAt) (s t : State) (ins : List Nat) (outs : List (Nat × Token)) (o : OpRun) : Prop :=
  let key (i : Nat) : Nat := opInKey loc.site loc.slot.toNat i
  getOp t loc = { o with outq := (getOp s loc).outq ++ outs.map (fun x => (x.1, x.2, now s + 1)), lastFire := now s + 1 } ∧
  (∀ x, x ≠ loc → getOp t x = getOp s x) ∧
  (∀ i, i ∈ ins → (getBuf t (key i)).q = (getBuf s (key i)).q.tail) ∧
  (∀ k, (∀ i, i ∈ ins → k ≠ key i) → getBuf t k = getBuf s k) ∧
  t = { s with fab := { s.fab with bufs := t.fab.bufs, ops := t.fab.ops }, dist := { s.dist with insts := t.dist.insts } } ∧
  MemSame s t

/-! ## Memory-tile ports -/

/-- The request `r` stands whole at a port that may run and before which no lower port of its tile goes (R312, R315), `u` is the state with its tokens taken, and its reply finds an
entry free. -/
def Serves (opc : BitVec 8) (loc : PortAt) (d : PortDesc) (s u : State) (r : PReq) : Prop :=
  portMayRun s loc = true ∧ lowerWaits s loc = false ∧ gather s loc opc d = (u, some r) ∧ (owesReply u loc opc d = true → portRoom u loc = true)

/-- No wait is armed on a sync word of the block at an offset. -/
def NoWait (s : State) (site : Site) (off : Nat) : Prop := ∀ w, w ∈ (getMt s site).waiters → w.off / 64 ≠ off / 64

/-- Nothing but one scratchpad's bytes, descriptors and poison marks has changed. -/
def OnlySpad (site : Site) (s t : State) : Prop :=
  t = { s with store := { s.store with spad := t.store.spad, spadDesc := t.store.spadDesc, spadPsn := t.store.spadPsn } } ∧
  ∀ x off, x ≠ site → off < spadSize → spadByte t x off = spadByte s x off ∧ spadDescOf t x off = spadDescOf s x off ∧
    spadPoisoned t x off = spadPoisoned s x off

/-- The bytes of a block's words, by their place in the block, that an access of one data token touches (R319, R320). -/
def touches (d : PortDesc) (r : PReq) (k : Token) (off : Nat) : Bool :=
  decide (off / 64 = r.va / 64) &&
  (if d.wid then bitAt (k.mask &&& r.mask) (off % 64 / 4) else decide (off / 4 = r.va / 4))

/-- The lanes of a block that an access of one data token writes or adds to (R319): with WID 0 the one of its word. -/
def laneWrites (d : PortDesc) (r : PReq) (k : Token) : BitVec 16 :=
  if d.wid then k.mask &&& r.mask else BitVec.ofNat 16 (2 ^ (r.va % 64 / 4))
/-- Four bytes for each lane of a mask. -/
def laneCount (m : BitVec 16) : Word := BitVec.ofNat 32 (4 * ((List.range 16).filter fun l => bitAt m l).length)

/-- What an atomic computes of the old word, X and Y under UNS (R321). -/
def atomics : List ((PortAt → PortDesc → Instr) × BitVec 8 × (Bool → Word → Word → Word → Word)) :=
  [(.atadd, 0x08#8, fun _ old x _ => BitVec.ofNat 32 (old.toNat + x.toNat)),
   (.atfadd, 0x09#8, fun _ old x _ => (fadd 0#2 old x).1),
   (.atmin, 0x0A#8, fun uns old x _ => if uns then BitVec.ofNat 32 (min old.toNat x.toNat) else BitVec.ofInt 32 (min old.toInt x.toInt)),
   (.atmax, 0x0B#8, fun uns old x _ => if uns then BitVec.ofNat 32 (max old.toNat x.toNat) else BitVec.ofInt 32 (max old.toInt x.toInt)),
   (.atand, 0x0C#8, fun _ old x _ => old &&& x),
   (.ator, 0x0D#8, fun _ old x _ => old ||| x),
   (.atxor, 0x0E#8, fun _ old x _ => old ^^^ x),
   (.atxchg, 0x0F#8, fun _ _ x _ => x),
   (.atcas, 0x10#8, fun _ old x y => if old = x then y else old)]

/-! ## Engines -/

/-- The job `j` stands at a command of its engine that it may carry on: it is not at an end, its region and engine let it run, and
where nothing of the command has happened yet, the job is live and the word's place is its region's (R164, R244, R339, R383). -/
def AtCommand (s : State) (eng : EngId) (opc : BitVec 8) (c : Cmd) (j : Job) : Prop :=
  runningJob s eng opc c = some j ∧ engMayRun s j = true ∧ j.run.dead = false ∧ j.run.acted = false ∧
  (j.run.fresh = true → j.refuted = false ∧ jobAborted s j = false ∧ cmdPlaceOk s j c = true)

/-- The work of a command, from its first access to the writing of its descriptor, comes to its end with tokens to send and the state
and status that it has made. -/
def WorkEnds (w : Work) (act : WorkM (List Token)) (out : List Token) (w' : Work) : Prop :=
  (act >>= fun o => wFlush w.desc >>= fun _ => pure o).run.run w = (.ok out, w')

/-- The commands of a summary tree engine: opcode, the tokens that they take under a descriptor, and their work (R357, R358). -/
def treeCommands : List ((EngId → Cmd → Instr) × BitVec 8 × (TreeDesc → Nat) × (Cmd → List Token → WorkM (List Token))) :=
  [(.tnew, 0x30#8, fun _ => 0, fun _ _ => tnew),
   (.tapp, 0x31#8, fun d => 1 + vecBlocks d.ktype d.kfmt d.dim + vecBlocks d.vtype d.vfmt d.dim, fun _ => tapp),
   (.tseal, 0x32#8, fun _ => 0, fun _ _ => tseal),
   (.tatt, 0x33#8, fun d => vecBlocks (queryType d) 0#8 d.dim, fun c => tatt (cmdRel c)),
   (.tfork, 0x34#8, fun _ => 1, fun c => tfork (cmdRel c)),
   (.tevict, 0x35#8, fun _ => 2, fun _ => tevict),
   (.tfree, 0x36#8, fun _ => 0, fun _ _ => tfree),
   (.tstat, 0x37#8, fun _ => 0, fun _ _ => tstat)]

/-- An access of a job's work to a block: a read that gives some data, or a write of bytes with a descriptor. -/
inductive Access where
  | rd (va : Nat) (data : Block)
  | wr (va : Nat) (mask : BitVec 64) (data : Block) (desc : Option (BitVec 16))

/-- The state after a job's accesses, one after the other, where each of them goes through: its page translates at once to memory of this
package, a read gives unpoisoned data as named, and a write finds its overlay entry; nothing where one does not. -/
def afterAll (j : Job) : State → List Access → Option State
  | s, [] => some s
  | s, .rd va data :: rest =>
    match jobXlate s j va false with
    | (u, .ok x) =>
      let v := engLoad u (jobParty u j) (homeKey x) (ctxOf (jobNode u j)) j.hyp
      if x.ty ≠ 2#2 ∧ v.2.psn = false ∧ v.2.data = data then afterAll j v.1 rest else none
    | _ => none
  | s, .wr va m b desc :: rest =>
    match jobXlate s j va true with
    | (u, .ok x) =>
      if x.ty ≠ 2#2 ∧ engOvlWaits u (ctxOf (jobNode u j)) j.hyp (homeKey x) = false then
        afterAll j (engStore u (jobParty u j) (.job j.id) (jobTenant u j) (homeKey x) va (ctxOf (jobNode u j)) j.hyp 2#3 m b desc false) rest
      else none
    | _ => none

/-- Reads of 128 bytes, a header or a descriptor. -/
def pairRead (va : Nat) (x : BitVec 1024) : List Access := [.rd va (bits x 0 512), .rd (va + 64) (bits x 512 512)]
/-- Writes of 128 bytes. -/
def pairWrite (va : Nat) (x : BitVec 1024) : List Access :=
  [.wr va (BitVec.allOnes 64) (bits x 0 512) none, .wr (va + 64) (BitVec.allOnes 64) (bits x 512 512) none]
/-- Writes of `n` elements of `w` bytes that stand in blocks, from block `i` on: the bytes of the elements alone. -/
def elemWrites (va n w : Nat) (desc : Option (BitVec 16)) : Nat → List Block → List Access
  | _, [] => []
  | i, b :: bs => .wr (va + 64 * i) (ofMask64 fun k => decide (64 * i + k < n * w)) b desc :: elemWrites va n w desc (i + 1) bs
/-- Writes of a vector of fp32 elements. -/
def vecWrites (va : Nat) (xs : List Word) : List Access :=
  elemWrites va xs.length 4 none 0 ((List.range ((4 * xs.length + 63) / 64)).map (packVec xs))
/-- Writes of narrow blocks, each under its own scale (R142). -/
def narrowWrites (code : BitVec 8) : Nat → List BlkVal → List Access
  | _, [] => []
  | va, b :: bs => .wr va (BitVec.allOnes 64) (storedBlock code b).1 (some (storedBlock code b).2.1) :: narrowWrites code (va + 64) bs
/-- Writes of a key, or with `v` of a value, into slot `k` of leaf `i` (R142). -/
def slotWrites (d : TreeDesc) (i k : Nat) (v : Bool) (bs : List BlkVal) : List Access :=
  if (d.kind v).1 = 3 then narrowWrites (d.kind v).2.1 (slotAt d i k v) bs
  else elemWrites (slotAt d i k v) d.dim (if (d.kind v).1 = 0 then 4 else 2) (some 0x00FF#16) 0 (bs.map fun b => b.data)
/-- The headers of `n` nodes from node `i` on have been written as free, each naming the next one (R139). -/
def linkedFree (j : Job) (d : TreeDesc) : Nat → Nat → State → Option State
  | 0, _, s => some s
  | n + 1, i, s =>
    match afterAll j { s with free := s.free + 1 } (pairWrite (nodeAt d i) (freeHdr s.free (if n = 0 then 0xFFFFFFFF else i + 1))) with
    | some u => linkedFree j d n (i + 1) u
    | none => none
/-- No other tree shares the pool of the descriptor at `va` (R144). -/
def soleOwner (s : State) (j : Job) (d : TreeDesc) (va : Nat) : Prop :=
  ∀ x, x ∈ s.hyps.trees → x.1 = jobTenant s j → x.2.1 = d.pool → x.2.2 = va

/-- The job has made its command's effect: status bits and flags are set, and the tokens wait to be sent. -/
def JobActed (s t : State) (j : Job) (st : BitVec 16) (out : List Token) : Prop :=
  t.dist.jobs.length = s.dist.jobs.length ∧
  ∀ k, k ∈ t.dist.jobs → k.id = j.id → k.run.acted = true ∧ k.run.outq = out ∧ (k.status &&& st) = st

/-- The commands of a hash probe unit: opcode and work (R360). -/
def setCommands : List ((EngId → Cmd → Instr) × BitVec 8 × (Cmd → List Token → WorkM (List Token))) :=
  [(.hfam, 0x40#8, fun c => hfam (slotNo c) (bits c.ops 60 3).toNat (bits c.ops 0 56)),
   (.hins, 0x41#8, fun c => hins (slotNo c)),
   (.hdel, 0x42#8, fun c => hdel (slotNo c)),
   (.hprobe, 0x43#8, fun c => hprobe (slotNo c) (bits c.ops 60 2).toNat),
   (.hreh, 0x44#8, fun c _ => hreh (slotNo c) (bits c.ops 64 24).toNat),
   (.hstat, 0x45#8, fun c _ => hstat (slotNo c))]

/-- The commands that copy blocks (R350, R352, R353). -/
def copyCommands : List ((EngId → Cmd → Instr) × BitVec 8) :=
  [(.cpcopy, 0x20#8), (.cpfill, 0x21#8), (.cpchain, 0x22#8), (.cpput, 0x23#8), (.cpget, 0x24#8)]

/-! ## Faults -/

/-- Nothing has changed but one die, which is now the one given. -/
def DieIs (die : BitVec 2) (s t : State) (d : Die) : Prop :=
  t = { s with dies := t.dies } ∧ getDie t die = d ∧ ∀ x, x ≠ die → getDie t x = getDie s x

/-- A die whose oldest ring record has been popped (R374). -/
def popped (d : Die) : Die :=
  match d.ring with
  | [] => d
  | [_] => { d with ring := [], fhead := d.ftail }
  | _ :: r :: rest => { d with ring := r :: rest, fhead := r.slot }

/-- A die that sends one REPAIR more (R376). -/
def repairing (d : Die) (arg : BitVec 24) : Die := { d with repairs := d.repairs ++ [repairTok arg] }

/-- A die that has changed the ring records of a slot. -/
def remarked (d : Die) (slot : BitVec 8) (f : RingEnt → RingEnt) : Die :=
  { d with ring := d.ring.map fun x => if x.slot = slot then f x else x }
/-- A die whose control core has answered a record, with a REPAIR or without; with `auto` its handler has popped the record where it is the
oldest (R375, R380). -/
def answered (d : Die) (r : RingEnt) (auto : Bool) (action : Option (BitVec 2)) : Die :=
  let d1 := match action with
    | some a => repairing d (repairArg r a)
    | none => d
  let d2 := remarked d1 r.slot fun x => { x with answered := true }
  match d2.ring with
  | x :: _ => if auto ∧ x.slot = r.slot then popped d2 else d2
  | [] => d2
/-- A die at which a record is under escalation at its core. -/
def escalating (d : Die) (r : RingEnt) (e : Escal) : Die :=
  let d1 := remarked d r.slot fun x => { x with escalated := true }
  { d1 with escalq := (d1.escalq.filter fun x => decide (x.slot ≠ e.slot)) ++ [e] }

/-- What its control core makes of a record that the handler copies to it (R378, R379, R380): refused when it names no stopped element;
settled by a larger overlay, or by a page that the Apsis engine brings up; else posted to its function's ring, kept back while that is
full, or answered with ABORT for a function without one. ESCALS counts it. -/
def AtCore (die : BitVec 2) (s t : State) (r : RingEnt) (auto : Bool) : Prop :=
  let counted : Die := { getDie s die with escals := (getDie s die).escals + 1#32 }
  let seen := setDie s die counted
  let rcd := ringRecord s die r.slot
  let code : BitVec 8 := bits rcd 368 8
  let fn : BitVec 10 := bits rcd 422 10
  let fresh : Escal := ⟨r.slot, bits r.site 0 2, rcd, fn, none, 0, 0, auto, false⟩
  let host := (code ≠ 1#8 ∧ code ≠ 6#8) ∨ (code = 6#8 ∧ enlargeOvl seen (bits rcd 414 8) = none) ∨
    (code = 1#8 ∧ heldAtT2 seen (bits rcd 432 16) (bits rcd 296 56 : BitVec 56).toNat = none)
  (elementStopped s r.site r.subt r.kind = false → DieIs die s t (answered counted r auto none)) ∧
  (elementStopped s r.site r.subt r.kind = true →
    (∀ u, code = 6#8 → enlargeOvl seen (bits rcd 414 8) = some u → DieIs die u t (answered counted r auto (some 0#2))) ∧
    (∀ p, code = 1#8 → heldAtT2 seen (bits rcd 432 16) (bits rcd 296 56 : BitVec 56).toNat = some p →
      let v := if p.moving then seen else startMove seen p
      let d := remarked (getDie v die) r.slot fun x => { x with escalated := true }
      DieIs die v t { d with escalq := d.escalq ++ [{ fresh with moving := true }] }) ∧
    (host → (getFn s fn).ringEn = false → DieIs die s t (answered counted r auto (some 3#2))) ∧
    (host → (getFn s fn).ringEn = true → ringBusy s fn = true → DieIs die s t (escalating counted r fresh)) ∧
    (host → (getFn s fn).ringEn = true → ringBusy s fn = false →
      let k := (getFn s fn).posts.toNat % 2 ^ ((getFn s fn).ringLg.toNat + 4)
      let a := (getFn s fn).ringBase.toNat + 128 * k
      t = { s with dies := t.dies, fns := t.fns, store := { s.store with host := t.store.host } } ∧
      getDie t die = escalating counted r { fresh with posted := some k, polledAt := now s } ∧ (∀ x, x ≠ die → getDie t x = getDie s x) ∧
      (getFn t fn).posts = (getFn s fn).posts + 1#32 ∧
      vget 0 (getFn t fn).msix 1 = vget 0 (getFn s fn).msix 1 + (if (recordNode s rcd).any fun n => n.firmware then 0 else 1) ∧
      (fn = 0#10 → hostGet t 0#10 a 64 = rcd.toNat ∧ hostGet t 0#10 (a + 64) 4 = 0 ∧
        hostGet t 0#10 (a + 68) 4 = ((getFn s fn).posts + 1#32).toNat)))
/-- A die at which an element has consumed the REPAIR of its record (R373, R377). -/
def consumed (d : Die) (site : Site) (subt : BitVec 3) (kind : BitVec 1) (seq : BitVec 16) : Die :=
  { d with ring := d.ring.map fun r =>
      if r.site = site ∧ r.subt = subt ∧ r.kind = kind ∧ r.seq = seq then { r with repaired := true } else r }

/-- A watch entry with one field written, as a read of each field then gives it (R374). -/
def WatchWritten (s t : State) (die : BitVec 2) (j i : Nat) (v : Word) : Prop :=
  let w (x : State) (n : Nat) : Watch := vget ⟨0#56, 0#32, 0#16, 0#2⟩ (getDie x die).watch n
  DieIs die s t { getDie s die with watch := (getDie t die).watch } ∧
  (∀ n, n < 4 → n ≠ j → w t n = w s n) ∧ (∀ n, n < 4 → n ≠ i → (w t j).field n = (w s j).field n) ∧
  (w t j).field i = (if i = 1 then v &&& 0xFFFFFF#32 else if i = 3 then v &&& 0x3FFFF#32 else v)

/-! ## Pre-emption, restore and the switch of tenants -/

/-- The instance may save: it stands in its marker phase, and nothing has frozen it. -/
def Marking (i : Inst) : Prop := i.frozen = false ∧ ∃ at0, i.st = .marking at0
/-- Every instance of a number stands in a marker phase that has begun now. -/
def BeginsSave (s t : State) (id : Nat) : Prop :=
  (∀ k, k ∈ t.dist.insts → k.id = id → k.st = .marking (now s) ∧ k.marked = [] ∧ k.frozen = false) ∧
  t.dist.nodes = s.dist.nodes ∧ MemSame s t
/-- Another entry of a recorded set, the same but for moves. -/
def SameEntry (p q : SetPage) : Prop := q = { p with moving := q.moving }

/-! ## Links -/

/-- Nothing of the links has changed but one port, which is now the one given. -/
def PortIs (p : Nat) (s t : State) (z : ZPort) : Prop :=
  getZp t p = z ∧ (∀ q, q < 18 → q ≠ p → getZp t q = getZp s q) ∧ t.links = { s.links with zports := t.links.zports }
/-- A port that resumes from its oldest unacknowledged flit (R425). -/
def resumed (s : State) (z : ZPort) : ZPort :=
  { z with sent := z.sent ++ z.retry.map (fun x => x.flit), retry := z.retry.map fun x => { x with resent := 0 }
           ackAt := now s, fails := 0, down := false }
/-- Nothing has changed but the count of one link's retrains in the lifetime records, which is one higher (R430). -/
def RetrainCounted (k : Nat) (s t : State) : Prop :=
  Table.get 0 t.life.live.retrains k = Table.get 0 s.life.live.retrains k + 1 ∧
  (∀ j, j ≠ k → Table.get 0 t.life.live.retrains j = Table.get 0 s.life.live.retrains j)

/-! ## The host's registers and the firmware interface -/

/-- A function after a write to its window, by what the write does to it: a waiting half of a launch record is gone, with BADW (R183). -/
def afterHalf (f : Fn) : Fn := { f with half := none, badw := f.badw || f.half.isSome }
/-- Nothing has changed but one function, which is now the one given. -/
def FnIs (fn : BitVec 10) (s t : State) (f : Fn) : Prop :=
  t = { s with fns := t.fns } ∧ getFn t fn = f ∧ ∀ x, x ≠ fn → getFn t x = getFn s x
/-- No cache holds a translation of a range of a tenant (R96). -/
def NoTrans (t : State) (tenant : BitVec 16) (va len : Nat) : Prop :=
  (∀ d e, e ∈ (getDie t d).tlb → e.within tenant va len = false) ∧
  ∀ loc e, e ∈ (getAg t loc).utlb → e.within tenant va len = false

/-- A firmware command can run: the PF's window is open, none is busy, and its reserved bits are 0 (R186). -/
def FwOpen (s : State) : Prop := windowOpen s 0#10 = true ∧ s.hub.fwBusy = false ∧ fwTop s = 0#32
/-- A command has set the hub and RESULT (R186); a first half of a launch record that waited at the PF is gone. -/
def FwHub (s t : State) (h : Hub) (result : BitVec 8) : Prop :=
  t = { breakHalf s 0#10 with hub := { h with fwResult := result, fwBusy := true } }
/-- A command that, with arguments in range, changes only the hub, and otherwise gives RESULT 2 (R186). -/
def FwSets (i : Instr) (ok : State → Prop) (h : State → Hub) : Prop :=
  ∀ s, FwOpen s → (ok s → Completes i s fun t => FwHub s t (h s) 0#8) ∧ (¬ ok s → Completes i s fun t => FwHub s t s.hub 2#8)
/-- A command that changes one function: RESULT 2 for arguments out of range, 4 for a function in the TDISP state RUN (R186). -/
def FwSetsFn (i : Instr) (least : Nat) (ok : State → Prop) (f : State → Fn → Fn) : Prop :=
  ∀ s, FwOpen s →
    let n := fwFn s
    let fn : BitVec 10 := BitVec.ofNat 10 n
    let b := breakHalf s 0#10
    (least ≤ n → n ≤ 512 → ok s → (getFn s fn).tdispRun = false → Completes i s fun t =>
      t = { b with fns := t.fns, hub := { s.hub with fwResult := 0#8, fwBusy := true } } ∧
      getFn t fn = f s (getFn b fn) ∧ ∀ x, x ≠ fn → getFn t x = getFn b x) ∧
    (least ≤ n → n ≤ 512 → ok s → (getFn s fn).tdispRun = true → Completes i s fun t => FwHub s t s.hub 4#8) ∧
    (n < least ∨ 512 < n ∨ ¬ ok s → Completes i s fun t => FwHub s t s.hub 2#8)
/-- The commands of R186. -/
def fwCommands : List Instr :=
  [.faultring, .pasid, .watchdog, .dbgattach, .dbghalt, .dbgresume, .dbgdetach, .watchset, .rebuild, .liferead, .attest, .atstimeout,
   .nodeid, .route, .slots, .rtimeout, .t2pool, .ovlres, .ctxset, .ctxread]
/-- The element's halt flag stands as given (R392). -/
def Halted (t : State) (e : Nat) (h : Bool) : Prop :=
  (∀ loc : AgAt, e = loc.site.toNat * 4 + 1 + loc.sub.toNat → (getAg t loc).halted = h) ∧
  ∀ site : Site, e = site.toNat * 4 →
    (siteKind site = .ce → (getCe t site).halted = h) ∧ (siteKind site = .mt → (getMt t site).halted = h) ∧
    (siteKind site = .mx → (getMx t site).halted = h) ∧ (siteKind site = .ste → (getSte t site).halted = h) ∧
    (siteKind site = .hpu → (getHpu t site).halted = h) ∧ (siteKind site = .cp → (getCp t site).halted = h)

end Sys2Proof.Claims

open Sys2Proof Sys2Proof.Machine Sys2Proof.Claims

/-- For every well-formed MOV, MOVI and SEL stage and every state, exec answers a next state in which p_k and f_k of every active lane
hold the result (A; the 18-bit immediate sign-extended; A if C is nonzero, else B) and the nonzero flag, OUT acts on the firing as R251
says, and every inactive lane, every other register, task, element and every byte of memory is unchanged; NOP answers the state itself. -/
def Obligations.Moves : Prop :=
  LaneOps [
    (Instr.mov, fun _ _ a _ _ => res a false),
    (Instr.movi, fun _ st _ _ _ => res ((st.a ++ st.b ++ st.c).signExtend 32) false),
    (Instr.sel, fun _ _ a b c => res (if c = 0#32 then b else a) false)] ∧
  ∀ (st : Stage) (s : State), wf (Instr.nop st) = true → exec (.nop st) s = .next s

/-- For ADD, SUB, NEG, ABS, MIN, MAX, MINU, MAXU, MUL, MULH, MULHU and MAD, every well-formed stage and every state, exec answers a next
state whose active lanes hold the rule's result and flag, with SAT where MOD[2] clamps a lane, with OUT as R251 says and everything else
unchanged. -/
def Obligations.IntegerArithmetic : Prop :=
  LaneOps [
    (Instr.add, fun _ _ a b _ => res (a + b) false), (Instr.sub, fun _ _ a b _ => res (a - b) false),
    (Instr.neg, fun _ st a _ _ => wrapS st (-a.toInt)), (Instr.abs, fun _ st a _ _ => wrapS st a.toInt.natAbs),
    (Instr.min, fun _ _ a b _ => res (if b.slt a then b else a) false), (Instr.max, fun _ _ a b _ => res (if a.slt b then b else a) false),
    (Instr.minu, fun _ _ a b _ => res (if b < a then b else a) false), (Instr.maxu, fun _ _ a b _ => res (if a < b then b else a) false),
    (Instr.mul, fun _ st a b _ => wrapS st (a.toInt * b.toInt)),
    (Instr.mulh, fun _ _ a b _ => res (((a.signExtend 64 * b.signExtend 64) >>> 32).setWidth 32) false),
    (Instr.mulhu, fun _ _ a b _ => res (((a.setWidth 64 * b.setWidth 64) >>> 32).setWidth 32) false),
    (Instr.mad, fun _ st a b c => wrapS st (a.toInt * b.toInt + c.toInt))]

/-- For ADDS, SUBS, ADDUS and SUBUS, every well-formed stage, whatever its MOD, and every state, exec answers a next state whose active
lanes hold the exact signed or unsigned sum or difference clamped to 32 bits, with SAT set in AFLAGS when a clamp changed it; everything
else is unchanged. -/
def Obligations.SaturatingAdds : Prop :=
  LaneOps [
    (Instr.adds, fun _ _ a b _ => satS (a.toInt + b.toInt)), (Instr.subs, fun _ _ a b _ => satS (a.toInt - b.toInt)),
    (Instr.addus, fun _ _ a b _ => satU ((a.toNat : Int) + b.toNat)), (Instr.subus, fun _ _ a b _ => satU ((a.toNat : Int) - b.toNat))]

/-- For every well-formed LEA stage and every state, exec answers a next state whose active lanes hold the low 32 bits of the exact u32(A)
+ u32(B) × 2^C[2:0] in p_k, and in f_k whether it reaches 2^32; everything else is unchanged. -/
def Obligations.LoadEffectiveAddress : Prop :=
  LaneOps [(Instr.lea, fun _ _ a b c =>
    let x := a.toNat + b.toNat * 2 ^ (bits c 0 3).toNat
    ⟨BitVec.ofNat 32 x, decide (2 ^ 32 ≤ x), fNone⟩)]

/-- For ADD2, SUB2, ADD4, SUB4, DOT4, DOT4U and DOT8, every well-formed stage and every state, exec answers a next state whose active
lanes hold the fields' sums or differences without carries between them, or the exact sum of the fields' products plus C, each wrapped or
clamped by MOD[2]; everything else is unchanged. -/
def Obligations.PackedAndDots : Prop :=
  LaneOps [
    (Instr.add2, fun _ st a b _ => packedOp 16 (bitAt st.mod 2) (fun x y => x + y) a b),
    (Instr.sub2, fun _ st a b _ => packedOp 16 (bitAt st.mod 2) (fun x y => x - y) a b),
    (Instr.add4, fun _ st a b _ => packedOp 8 (bitAt st.mod 2) (fun x y => x + y) a b),
    (Instr.sub4, fun _ st a b _ => packedOp 8 (bitAt st.mod 2) (fun x y => x - y) a b),
    (Instr.dot4, fun _ st a b c => wrapS st (([0, 1, 2, 3].map fun i => fieldS 8 a i * fieldS 8 b i).sum + c.toInt)),
    (Instr.dot4u, fun _ st a b c => wrapU st (([0, 1, 2, 3].map fun i => (fieldU 8 a i * fieldU 8 b i : Int)).sum + c.toNat)),
    (Instr.dot8, fun _ st a b c => wrapS st (([0, 1, 2, 3, 4, 5, 6, 7].map fun i => fieldS 4 a i * fieldS 4 b i).sum + c.toInt))]

/-- For AND, OR, XOR, ANDN, SHL, SHR, SAR, ROL, CLZ, POPC, BREV, BSWAP, BFX, BFXS, BFI and PERMB, every well-formed stage and every state,
exec answers a next state whose active lanes hold the rule's result, where a shift by 32 or more gives 0 or the sign, and the nonzero
flag; everything else is unchanged. -/
def Obligations.LogicAndBits : Prop :=
  LaneOps [
    (Instr.and, fun _ _ a b _ => res (a &&& b) false), (Instr.or, fun _ _ a b _ => res (a ||| b) false),
    (Instr.xor, fun _ _ a b _ => res (a ^^^ b) false), (Instr.andn, fun _ _ a b _ => res (a &&& ~~~b) false),
    (Instr.shl, fun _ _ a b _ => res (a <<< b.toNat) false), (Instr.shr, fun _ _ a b _ => res (a >>> b.toNat) false),
    (Instr.sar, fun _ _ a b _ => res (a.sshiftRight b.toNat) false), (Instr.rol, fun _ _ a b _ => res (a.rotateLeft (b.toNat % 32)) false),
    (Instr.clz, fun _ _ a _ _ => res (BitVec.ofNat 32 (clzFrom a 32)) false),
    (Instr.popc, fun _ _ a _ _ => res (BitVec.ofNat 32 ((List.range 32).filter fun i => bitAt a i).length) false),
    (Instr.brev, fun _ _ a _ _ => res a.reverse false),
    (Instr.bswap, fun _ _ a _ _ => res (bits a 0 8 ++ bits a 8 8 ++ bits a 16 8 ++ bits a 24 8) false),
    (Instr.bfx, fun _ _ a b _ => res (bfxOp a b) false), (Instr.bfxs, fun _ _ a b _ => res (bfxsOp a b) false),
    (Instr.bfi, fun _ _ a b c => res (bfiOp a b c) false), (Instr.permb, fun _ _ a b c => res (permbOp a b c) false)]

/-- For CEQ, CNE, CLT, CLE, CLTU, CLEU and CTST, every well-formed stage and every state, exec answers a next state in which p_k of every
active lane is 1 when the relation holds and 0 when it does not, and f_k is the same bit; everything else is unchanged. -/
def Obligations.Compares : Prop :=
  LaneOps [
    (Instr.ceq, fun _ _ a b _ => rel (decide (a = b))), (Instr.cne, fun _ _ a b _ => rel (decide (a ≠ b))),
    (Instr.clt, fun _ _ a b _ => rel (a.slt b)), (Instr.cle, fun _ _ a b _ => rel (a.sle b)),
    (Instr.cltu, fun _ _ a b _ => rel (decide (a < b))), (Instr.cleu, fun _ _ a b _ => rel (decide (a ≤ b))),
    (Instr.ctst, fun _ _ a b _ => rel (decide (a &&& b ≠ 0#32)))]

/-- For FADD, FSUB, FMUL, FMA, FMS, FNMA, FMIN, FMAX, FABS, FNEG, FCPS, FCEQ, FCLT, FCLE, FCUN, FCLASS, FSCALE, FRCP, FRSQ, FEXP2, FLOG2,
FRND, F2I, F2U, I2F and U2F, every well-formed stage and every state, exec answers a next state whose active lanes hold the result that
the model's number formats give under MOD's rounding, with the flag of R266, R270 or R272 and the sticky AFLAGS bits; everything else is
unchanged. What the rules leave open is read as the model has it, its own choice: log 19. -/
def Obligations.FloatingPoint : Prop :=
  LaneOps [
    (Instr.fadd, fun _ st a b _ => fpRes (fadd (bits st.mod 0 2) a b)), (Instr.fsub, fun _ st a b _ => fpRes (fsub (bits st.mod 0 2) a b)),
    (Instr.fmul, fun _ st a b _ => fpRes (fmul (bits st.mod 0 2) a b)), (Instr.fma, fun _ st a b c => fpRes (ffma (bits st.mod 0 2) a b c)),
    (Instr.fms, fun _ st a b c => fpRes (ffms (bits st.mod 0 2) a b c)), (Instr.fnma, fun _ st a b c => fpRes (ffnma (bits st.mod 0 2) a b c)),
    (Instr.fmin, fun _ _ a b _ => fpRes (fminmax false a b)), (Instr.fmax, fun _ _ a b _ => fpRes (fminmax true a b)),
    (Instr.fabs, fun _ _ a _ _ => fpRes (0#1 ++ bits a 0 31, fNone)), (Instr.fneg, fun _ _ a _ _ => fpRes (~~~(bits a 31 1) ++ bits a 0 31, fNone)),
    (Instr.fcps, fun _ _ a b _ => fpRes (bits b 31 1 ++ bits a 0 31, fNone)),
    (Instr.fceq, fun _ _ a b _ => let r := fcompare 0 a b; ⟨if r.1 then 1#32 else 0#32, r.1, r.2⟩),
    (Instr.fclt, fun _ _ a b _ => let r := fcompare 1 a b; ⟨if r.1 then 1#32 else 0#32, r.1, r.2⟩),
    (Instr.fcle, fun _ _ a b _ => let r := fcompare 2 a b; ⟨if r.1 then 1#32 else 0#32, r.1, r.2⟩),
    (Instr.fcun, fun _ _ a b _ => let r := fcompare 3 a b; ⟨if r.1 then 1#32 else 0#32, r.1, r.2⟩),
    (Instr.fclass, fun _ _ a _ _ => ⟨fclass a, true, fNone⟩), (Instr.fscale, fun _ st a b _ => fpRes (fscale (bits st.mod 0 2) a b)),
    (Instr.frcp, fun _ _ a _ _ => fpRes (frcp a)), (Instr.frsq, fun _ _ a _ _ => fpRes (frsq a)),
    (Instr.fexp2, fun _ _ a _ _ => fpRes (fexp2 a)), (Instr.flog2, fun _ _ a _ _ => fpRes (flog2 a)),
    (Instr.frnd, fun _ st a _ _ => fpRes (frnd (bits st.mod 0 2) a)),
    (Instr.f2i, fun _ st a _ _ => let r := f2int true (bits st.mod 0 2) a; ⟨r.1, decide (r.1 ≠ 0#32), r.2⟩),
    (Instr.f2u, fun _ st a _ _ => let r := f2int false (bits st.mod 0 2) a; ⟨r.1, decide (r.1 ≠ 0#32), r.2⟩),
    (Instr.i2f, fun _ st a _ _ => fpRes (int2f (bits st.mod 0 2) a.toInt)), (Instr.u2f, fun _ st a _ _ => fpRes (int2f (bits st.mod 0 2) a.toNat))]

/-- For HADD2, HMUL2, HFMA2, HMIN2, HMAX2, CVTH, CVTLO, CVTHI, NDQ8, NDQ4, NDOT4, NDOT8, NSCL, NAPS and NBLK, every well-formed stage and
every state, exec answers a next state whose active lanes hold the result over the node's format registers and the operands' descriptors
(for NBLK the lane mask and descriptor of the head that A names), with its flag and AFLAGS bits; everything else is unchanged. The flag of
CVTH is the model's choice (assumption 9). What the rules leave open is read as the model has it, its own choice: log 9, 19, 20, 21. -/
def Obligations.HalfAndNarrow : Prop :=
  LaneOps [
    (Instr.hadd2, fun _ st a b _ => hadd2 st.mod a b), (Instr.hmul2, fun _ st a b _ => hmul2 st.mod a b),
    (Instr.hfma2, fun _ st a b c => hfma2 st.mod a b c), (Instr.hmin2, fun _ st a b _ => hminmax2 false st.mod a b),
    (Instr.hmax2, fun _ st a b _ => hminmax2 true st.mod a b), (Instr.cvth, fun _ st a b _ => cvth st.mod a b),
    (Instr.cvtlo, fun _ st a _ _ => cvtWide 0 st.mod a), (Instr.cvthi, fun _ st a _ _ => cvtWide 1 st.mod a),
    (Instr.ndq8, fun s st a b c => ndqOp 8 (ceFmts s st.site) a b c), (Instr.ndq4, fun s st a b c => ndqOp 4 (ceFmts s st.site) a b c),
    (Instr.ndot4, fun s st a b c =>
      ndotOp 8 st.mod (ceFmts s st.site) (dotDesc s st.site st.a 14) (dotDesc s st.site st.b 15) a b c),
    (Instr.ndot8, fun s st a b c =>
      ndotOp 4 st.mod (ceFmts s st.site) (dotDesc s st.site st.a 14) (dotDesc s st.site st.b 15) a b c),
    (Instr.nscl, fun s st a b _ => nsclOp (ceFmts s st.site) a b), (Instr.naps, fun s st a b _ => napsOp st.mod (ceFmts s st.site) a b),
    (Instr.nblk, fun s st _ _ _ => let h := headView s st.site (st.a.toNat - 24); fpRes (h.mask ++ h.desc, fNone))]

/-- For NQ8 and NQ4, every well-formed stage and every state, exec answers a next state whose active lanes hold the code shifted into C,
with its flag and AFLAGS bits; the generator of an active lane is what the quantisation left, that of an inactive lane is unchanged, and
without MOD[2] every generator is unchanged. What the rules leave open is read as the model has it, its own choice: log 20, 21, 168, 182.
-/
def Obligations.Quantise : Prop :=
  ∀ e, e ∈ [(Instr.nq8, 8), (Instr.nq4, 4)] → ∀ (st : Stage) (s : State), wf (e.1 st) = true →
    let r (l : Nat) : LaneRes × Word :=
      nqOp e.2 st.mod (ceFmts s st.site) (lane (getTask s st.site st.task).gen l) (lane (stageA s st) l) (lane (stageB s st) l)
        (lane (stageC s st) l)
    Completes (e.1 st) s fun t =>
      StageFrame st s t ∧ StageWrites st s t (stageAct s st) (fun l => (r l).1.val) (fun l => (r l).1.flg) ∧
      StageFlags st s t (fun l => (r l).1.fl) ∧ StageOut st s t (stageAct s st) (fun l => (r l).1.val) ∧
      ∀ l, l < 16 → lane (getTask t st.site st.task).gen l =
        (if bitAt (stageAct s st) l && bitAt st.mod 2 then (r l).2 else lane (getTask s st.site st.task).gen l)

/-- For every well-formed NSETD stage and every state, exec answers a next state whose active lanes hold A in p_k, and in f_k whether A is
other than a zero of either sign; the token on the output that OUT names takes A[15:0] of lane 0 as its descriptor, whether or not lane 0
is active, and keeps its payload and mask; every other output, register, task, element and byte of memory is unchanged. What the rules
leave open is read as the model has it, its own choice: log 21. -/
def Obligations.SetDescriptor : Prop :=
  ∀ (st : Stage) (s : State), wf (Instr.nsetd st) = true →
    Completes (.nsetd st) s fun t =>
      let k := getTask s st.site st.task
      let k' := getTask t st.site st.task
      OnlyTask st.site st.task s t ∧ k' = { k with p := k'.p, f := k'.f, fire := { k.fire with outs := k'.fire.outs } } ∧
      (∀ j, j ≠ st.slot.toNat → vget 0#512 k'.p j = vget 0#512 k.p j ∧ vget 0#16 k'.f j = vget 0#16 k.f j) ∧
      StageWrites st s t (stageAct s st) (fun l => lane (stageA s st) l) (fun l => fpFlag (lane (stageA s st) l)) ∧
      ∀ o, o < 5 → vget OutLatch.empty k'.fire.outs o =
        (if o + 1 = st.out.toNat then { vget OutLatch.empty k.fire.outs o with desc := bits (lane (stageA s st) 0) 0 16 }
          else vget OutLatch.empty k.fire.outs o)

/-- For SHUF, LROT, BCAST, RSUM, RMAX, RMIN, RSUMI, SCANI, FSCAN and PACKB, every well-formed stage and every state, exec answers a next
state whose active lanes hold the result over the lanes of A, B and C (a shuffle, rotation or broadcast of A; a tree sum, maximum, minimum
or integer sum over the active lanes; the prefix sums; the gathered bytes) with its flag, AFLAGS gains the operation's bits and everything
else is unchanged. What the rules leave open is read as the model has it, its own choice: log 19, 21. -/
def Obligations.CrossLane : Prop :=
  let sum (act : BitVec 16) (a : Block) (n : Nat) : Word :=
    ((List.range n).map fun l => if bitAt act l then lane a l else 0#32).sum
  let int (f : BitVec 16 → Block → Block → Block → Nat → Word) : BitVec 16 → Block → Block → Block → XRes :=
    fun act a b c => ⟨ofLanes (f act a b c), ofMask fun l => decide (f act a b c l ≠ 0#32), fNone⟩
  ∀ e, e ∈ ([
      (Instr.shuf, int fun _ a b _ l => lane a ((lane b l).toNat % 16)),
      (Instr.lrot, int fun _ a b _ l => lane a ((l + (lane b 0).toNat) % 16)),
      (Instr.bcast, int fun _ a b _ _ => lane a ((lane b 0).toNat % 16)),
      (Instr.rsumi, int fun act a _ _ _ => sum act a 16), 
      (Instr.scani, fun act a _ _ => ⟨ofLanes fun l => sum act a (l + 1), ofMask fun l => fpFlag (sum act a (l + 1)), fNone⟩),
      (Instr.packb, fun _ a b c => xPackb a b c), (Instr.rsum, fun act a _ _ => xRsum act a),
      (Instr.rmax, fun act a _ _ => xMinmax true act a), (Instr.rmin, fun act a _ _ => xMinmax false act a),
      (Instr.fscan, fun act a _ _ => xFscan act a)] : List ((Stage → Instr) × (BitVec 16 → Block → Block → Block → XRes))) →
    ∀ (st : Stage) (s : State), wf (e.1 st) = true →
    let r := e.2 (stageAct s st) (stageA s st) (stageB s st) (stageC s st)
    Completes (e.1 st) s fun t =>
      StageFrame st s t ∧ StageWrites st s t (stageAct s st) (lane r.val) (bitAt r.flg) ∧
      (getTask t st.site st.task).aflags = (getTask s st.site st.task).aflags ||| r.fl ∧
      (getTask t st.site st.task).gen = (getTask s st.site st.task).gen ∧
      StageOut st s t (stageAct s st) (lane r.val)

/-- For every well-formed XBF stage, exec answers a next state whose active lanes l hold A[l] + A[l + w] or A[l - w] - A[l] with w =
2^B[0][1:0], with its flag, its AFLAGS bits and OUT as R251 says; for every well-formed LCOMP stage, all sixteen lanes of p_k take, in
ascending order, A of the active lanes and then 0, f_k marks the lanes filled; with OUT 1 to 4 the output takes the filled lanes as its
lane mask and their results as its payload there, with OUT 5 so0 carries lane 0, with OUT 6 or 7 all sixteen lanes of the accumulator take
the result, and every other output and accumulator keeps what it had. Everything else is unchanged. What the rules leave open is read as
the model has it, its own choice: log 19. -/
def Obligations.ButterflyAndCompress : Prop :=
  (∀ (st : Stage) (s : State), wf (Instr.xbf st) = true →
    let r := xXbf st.mod (stageAct s st) (stageA s st) (stageB s st)
    Completes (.xbf st) s fun t =>
      StageFrame st s t ∧ StageWrites st s t (stageAct s st) (lane r.val) (bitAt r.flg) ∧
      (getTask t st.site st.task).aflags = (getTask s st.site st.task).aflags ||| r.fl ∧
      StageOut st s t (stageAct s st) (lane r.val)) ∧
  ∀ (st : Stage) (s : State), wf (Instr.lcomp st) = true →
    let ls := (List.range 16).filter fun l => bitAt (stageAct s st) l
    let res (l : Nat) : Word := match ls[l]? with
      | some x => lane (stageA s st) x
      | none => 0#32
    Completes (.lcomp st) s fun t =>
      let k := getTask s st.site st.task
      let k' := getTask t st.site st.task
      let out (x : Task) (o : Nat) : OutLatch := vget OutLatch.empty x.fire.outs o
      StageFrame st s t ∧ k'.aflags = k.aflags ∧ k'.gen = k.gen ∧
      (∀ l, l < 16 →
        lane (vget 0#512 k'.p st.slot.toNat) l = res l ∧ bitAt (vget 0#16 k'.f st.slot.toNat) l = decide (l < ls.length)) ∧
      (∀ o, o < 5 →
        if o + 1 = st.out.toNat then
          (∀ l, l < 16 → o < 4 →
            lane (out k' o).pay l = (if l < ls.length then res l else lane (out k o).pay l) ∧
            bitAt (out k' o).mask l = (bitAt (out k o).mask l || decide (l < ls.length))) ∧
          (o = 4 → lane (out k' o).pay 0 = res 0)
        else out k' o = out k o) ∧
      ∀ j, j < 2 → ∀ l, l < 16 →
        lane (vget 0#512 k'.fire.acc j) l = (if st.out.toNat = 6 + j then res l else lane (vget 0#512 k.fire.acc j) l)

/-- For a well-formed TIME, RDSYS or RDV whose lane 0 is active, exec answers a next state in which p5 and f5 of every active lane take
the result and nothing else changes: TIME the low half of the cycle counter in even lanes and the high half in odd ones; RDSYS the
register that A names; RDV, when a control token other than MARK or SWITCH stands at its end, (argument << 8) | code. The registers of
RDSYS are AFLAGS (0), ESTAT of the region (1), HYP (2), GROUP (3), the site (4), the instance's slice number (5), the node's tag (6), the
completion counters as a firing sees them, those of a task whose counters no completion of this cycle has raised (8 to 15), the handler
registers in a Charon corner and 0 elsewhere (0x40 to 0x7F); every other number reads 0. On a CE of no region 1, 5 and 6 read 0, the
model's reading (log 189). What the rules leave open is read as the model has it, its own choice: log 22, 137, 189. -/
def Obligations.ControlReads : Prop :=
  (∀ (st : Stage) (s : State), wf (Instr.time st) = true → bitAt (stageAct s st) 0 = true →
    Completes (.time st) s fun t => CtlResult st s t fun l => if l % 2 = 0 then bits s.cycle 0 32 else bits s.cycle 32 32) ∧
  (∀ (st : Stage) (s : State), wf (Instr.rdsys st) = true → bitAt (stageAct s st) 0 = true →
    Completes (.rdsys st) s fun t => CtlResult st s t fun _ => sysReg s st.site st.task (ctlA s st).toNat) ∧
  (∀ (s : State) (site : Site) (task : BitVec 3),
    let k := getTask s site task
    sysReg s site task 0 = k.aflags.setWidth 32 ∧ sysReg s site task 2 = k.hyp.setWidth 32 ∧ sysReg s site task 3 = k.group ∧
    sysReg s site task 4 = site.setWidth 32 ∧
    (∀ i, ownerOf s site 0 = some i → sysReg s site task 1 = i.estat ∧ sysReg s site task 5 = i.slice.setWidth 32) ∧
    (ownerOf s site 0 = none → sysReg s site task 1 = 0#32 ∧ sysReg s site task 5 = 0#32) ∧
    (∀ n, nodeOf s site 0 = some n → sysReg s site task 6 = n.tag) ∧ (nodeOf s site 0 = none → sysReg s site task 6 = 0#32) ∧
    (k.ccAt ≠ now s → ∀ j, j < 8 → sysReg s site task (8 + j) = vget 0#32 k.cc j) ∧
    ∀ num, 6 < num → num < 8 ∨ 16 ≤ num →
      sysReg s site task num = (if 0x40 ≤ num ∧ num < 0x80 ∧ isCorner site = true then handlerRead s (siteDie site) num else 0#32)) ∧
  ∀ (st : Stage) (s : State) (tok : Token), wf (Instr.rdv st) = true → bitAt (stageAct s st) 0 = true →
    headAt s (endKey st.site (st.a.toNat - 24)) = some tok → tok.ctrl = true → tok.isMarkOrSwitch = false →
    Completes (.rdv st) s fun t => CtlResult st s t fun _ => tok.arg ++ bits tok.pay 0 8

/-- For a well-formed WAITC whose lane 0 is active and whose counter cc_c, as it stood before this cycle's completions, is at least n,
unsigned, exec answers a next state in which cc_c has fallen by n, p5 and f5 of the active lanes take the counter after it, this cycle's
completions aside, and every other register, task and element is unchanged. For a well-formed GROUPINC whose lane 0 is active on a CE of a
node, exec answers a next state in which the node's group count has grown by A, up to 2^32 - 1, with SAT set in AFLAGS when the sum lies
above; p5 and f5 of the active lanes take the count before; every other task and register, every other node and every other field of the
node but its record of where indices were created is unchanged. On a CE of no node GROUPINC gives 0 (the model's reading). With lane 0
inactive WAITC, GROUPINC, FENCE, BRK, CMD, FORK, TRAP, TIME, RDSYS, SETHYP, BIND, UNBIND and SIGNAL answer the state itself. -/
def Obligations.CountersAndGroups : Prop :=
  (∀ (st : Stage) (s : State), wf (Instr.waitc st) = true → bitAt (stageAct s st) 0 = true →
    let k := getTask s st.site st.task
    let c := (bits (ctlA s st) 0 3).toNat
    let v := ccView s k c - ctlB s st
    ctlB s st ≤ ccView s k c →
    Completes (.waitc st) s fun t =>
      let k' := getTask t st.site st.task
      OnlyTask st.site st.task s t ∧ k' = { k with p := k'.p, f := k'.f, cc := vset k.cc c (vget 0#32 k.cc c - ctlB s st) } ∧
      (∀ j, j ≠ 5 → vget 0#512 k'.p j = vget 0#512 k.p j ∧ vget 0#16 k'.f j = vget 0#16 k.f j) ∧
      StageWrites st s t (stageAct s st) (fun _ => v) fun _ => decide (v ≠ 0#32)) ∧
  (∀ (s : State) (k : Task) (c : Nat), k.ccAt ≠ now s → ccView s k c = vget 0#32 k.cc c) ∧
  (∀ (st : Stage) (s : State), wf (Instr.groupinc st) = true → bitAt (stageAct s st) 0 = true → nodeOf s st.site 0 = none →
    Completes (.groupinc st) s fun t => CtlResult st s t fun _ => 0#32) ∧
  (∀ i, i ∈ [Instr.waitc, .groupinc, .fence, .brk, .cmd, .fork, .trap, .time, .rdsys, .sethyp, .bind, .unbind, .signal] →
    ∀ (st : Stage) (s : State), bitAt (stageAct s st) 0 = false → exec (i st) s = .next s) ∧
  ∀ (st : Stage) (s : State) (n : Node), wf (Instr.groupinc st) = true → bitAt (stageAct s st) 0 = true → nodeOf s st.site 0 = some n →
    let g := n.groups + (ctlA s st).toNat
    Completes (.groupinc st) s fun t =>
      let k := getTask s st.site st.task
      let k' := getTask t st.site st.task
      k' = { k with p := k'.p, f := k'.f, aflags := k.aflags ||| (if 2 ^ 32 ≤ g then fSAT else fNone) } ∧
      (∀ j, j ≠ 5 → vget 0#512 k'.p j = vget 0#512 k.p j ∧ vget 0#16 k'.f j = vget 0#16 k.f j) ∧
      StageWrites st s t (stageAct s st) (fun _ => BitVec.ofNat 32 n.groups) (fun _ => decide (BitVec.ofNat 32 n.groups ≠ 0#32)) ∧
      (∀ site task, site ≠ st.site ∨ task ≠ st.task → getTask t site task = getTask s site task) ∧
      (∀ m, m ∈ t.dist.nodes → m.id = n.id → m.groups = min g (2 ^ 32 - 1)) ∧
      (∀ m, m.id ≠ n.id → (m ∈ t.dist.nodes ↔ m ∈ s.dist.nodes)) ∧
      t.dist.nodes.map (fun m => { m with groups := 0, bounds := [] }) = s.dist.nodes.map (fun m => { m with groups := 0, bounds := [] }) ∧
      t = { s with fab := { s.fab with ces := t.fab.ces }, dist := { s.dist with nodes := t.dist.nodes } } ∧ MemSame s t

/-- With lane 0 active: SETHYP of a live id makes it the task's hypothesis, and of any other id sets bit 2 of the region's ESTAT and
nothing else; BIND of a task with VALID and slots to an end in use gives the task that trigger and orphan entry, takes the trigger from
any other task of the CE, and otherwise sets bit 1 of ESTAT and nothing else; UNBIND removes the trigger of a task that has one. Each
completes, and every other register and element is unchanged. -/
def Obligations.HypothesisAndTriggers : Prop :=
  (∀ (st : Stage) (s : State), wf (Instr.sethyp st) = true → bitAt (stageAct s st) 0 = true →
    let h : BitVec 6 := bits (ctlA s st) 0 6
    if hypLive s (ctxOf (nodeOf s st.site 0)) h then
      Completes (.sethyp st) s fun t => TaskIs st.site st.task s t { getTask s st.site st.task with hyp := h }
    else exec (.sethyp st) s = .next (setEstat s (ownerOf s st.site 0) 4#32)) ∧
  (∀ (st : Stage) (s : State), wf (Instr.bind st) = true → bitAt (stageAct s st) 0 = true →
    let a := ctlA s st
    let task : BitVec 3 := bits a 0 3
    let e : BitVec 3 := bits a 3 3
    let d := taskDesc s st.site task.toNat
    if taskValid d ∧ taskSlots d ≠ 0 ∧ bitAt (ceEnd s st.site e.toNat) 0 then
      Completes (.bind st) s fun t => OnlyCe st.site s t ∧
        getTask t st.site task = { getTask s st.site task with trig := some e, orph := if bitAt a 14 then some (bits a 7 7) else none } ∧
        ∀ x, x ≠ task → getTask t st.site x =
          (if (getTask s st.site x).trig = some e then (getTask s st.site x).unbound else getTask s st.site x)
    else exec (.bind st) s = .next (setEstat s (ownerOf s st.site 0) 2#32)) ∧
  ∀ (st : Stage) (s : State), wf (Instr.unbind st) = true → bitAt (stageAct s st) 0 = true →
    let task : BitVec 3 := bits (ctlA s st) 0 3
    (getTask s st.site task).trig.isSome = true →
    Completes (.unbind st) s fun t => TaskIs st.site task s t (getTask s st.site task).unbound ∧ (getTask t st.site task).trig = none

/-- With lane 0 active: SIGNAL gives the output that OUT names the control word of its kind, 1 EOT, 2 EOF, 3 EOS, 4 RDV with A[23:0]; CMD
and FORK, while the command port has a free entry, append one entry that carries the word or mask, the target, the counter and the task's
hypothesis, and mark the region as having injected. Each completes; SIGNAL also ends, with EOS, a logit kernel's row, and changes no other
register, task, element or byte of memory; CMD and FORK change nothing but the port and the mark. -/
def Obligations.SignalAndCommands : Prop :=
  (∀ (st : Stage) (s : State), wf (Instr.signal st) = true → bitAt (stageAct s st) 0 = true →
    let w : Word := match (ctlB s st).toNat with
      | 1 => 1#32
      | 2 => 2#32
      | 3 => 3#32
      | _ => bits (ctlA s st) 0 24 ++ 0x13#8
    Completes (.signal st) s fun t =>
      let k := getTask s st.site st.task
      let k' := getTask t st.site st.task
      OnlyTask st.site st.task s t ∧
      k' = { k with
        fire := { k.fire with outs := k'.fire.outs }
        rowAt := k'.rowAt
        rowOut := k'.rowOut
        rowAborted := k'.rowAborted
        rowTaken := k'.rowTaken } ∧
      (w ≠ 3#32 → k'.rowAt = k.rowAt ∧ k'.rowOut = k.rowOut ∧ k'.rowAborted = k.rowAborted ∧ k'.rowTaken = k.rowTaken) ∧
      (w = 3#32 → k'.rowAt = none ∧ k'.rowOut = (if k.rowAborted = true then k.rowOut else k.rowAt) ∧ k'.rowAborted = false ∧
        k'.rowTaken = false) ∧
      ∀ o, o < 5 → vget OutLatch.empty k'.fire.outs o =
        (if o + 1 = st.out.toNat then { vget OutLatch.empty k.fire.outs o with sig := some w } else vget OutLatch.empty k.fire.outs o)) ∧
  (∀ (st : Stage) (s : State), wf (Instr.cmd st) = true → bitAt (stageAct s st) 0 = true → (getCe s st.site).cmdq.length < 4 →
    let c := getCe s st.site
    let x : CmdEntry := .cmd st.task (bits (stageA s st) 0 128) (ctlC s st) (ccOf (ctlB s st)) (getTask s st.site st.task).hyp false
    exec (.cmd st) s = .next (inject (setCe s st.site { c with cmdq := c.cmdq ++ [x] }) (ownerOf s st.site 0))) ∧
  ∀ (st : Stage) (s : State), wf (Instr.fork st) = true → bitAt (stageAct s st) 0 = true → (getCe s st.site).cmdq.length < 4 →
    let c := getCe s st.site
    let x : CmdEntry := .fork st.task (bits (ctlA s st) 0 16) (ccOf (ctlB s st)) (getTask s st.site st.task).hyp false
    exec (.fork st) s = .next (inject (setCe s st.site { c with cmdq := c.cmdq ++ [x] }) (ownerOf s st.site 0))

/-- For a well-formed TRAP whose lane 0 is active, exec answers a next state in which the task is trapped and remembers the state it
resumes in, and its record (with code 0x80 | n, the task's pc and hypothesis, the site, the task and the whole of A in bits [63:32]) waits
last at the corner of its die. In a task that is no logit kernel, NFAULT of its node has risen by 1, saturating, and every other register,
task, element, buffer and byte of memory is unchanged. In a logit kernel the row has also aborted: ERR.SAMPLEAB of its node is set when no
abort came before, and every byte of module memory is unchanged. What the rules leave open is read as the model has it, its own choice:
log 25. -/
def Obligations.TrapEntry : Prop :=
  ∀ (st : Stage) (s : State), wf (Instr.trap st) = true → bitAt (stageAct s st) 0 = true →
    let k := getTask s st.site st.task
    let d := siteDie st.site
    let own := ownerOf s st.site 0
    Completes (.trap st) s fun t =>
      (∃ r, (getDie t d).pend = (getDie s d).pend ++ [⟨st.site, st.task, 1#1, instNo own, r, faultTok st.site st.task 1#1 (bits r 368 8)⟩] ∧
        bits r 368 8 = 1#1 ++ bits (ctlA s st) 0 7 ∧ bits r 378 7 = k.pc ∧ bits r 408 6 = k.hyp ∧ bits r 392 12 = st.site ∧
        bits r 389 3 = st.task ∧ bits r 448 64 = s.cycle ∧ bits r 32 32 = ctlA s st) ∧
      (∀ d', d' ≠ d → getDie t d' = getDie s d') ∧
      getDie t d = { getDie s d with pend := (getDie t d).pend } ∧
      (isLogitKernel s st.site st.task = false →
        getTask t st.site st.task = { k with st := .trapped, resume := k.st, trapSeq := none } ∧
        (∀ site task, site ≠ st.site ∨ task ≠ st.task → getTask t site task = getTask s site task) ∧
        getCe t st.site = { getCe s st.site with tasks := (getCe t st.site).tasks } ∧ (∀ site, site ≠ st.site → getCe t site = getCe s site) ∧
        t.dist.nodes = s.dist.nodes.map (fun m =>
          if some m.id = own.map (fun i => i.node) then { m with nfault := if m.nfault = 0xFFFFFFFF#32 then m.nfault else m.nfault + 1#32 } else m) ∧
        t = { s with fab := { s.fab with ces := t.fab.ces }, dist := { s.dist with nodes := t.dist.nodes }, dies := t.dies } ∧
        MemSame s t) ∧
      (isLogitKernel s st.site st.task = true →
        getTask t st.site st.task =
          { k with st := .trapped, resume := k.st, trapSeq := none, rowAborted := true, rowAt := if k.rowAborted = true then k.rowAt else none } ∧
        (∀ site task, site ≠ st.site ∨ task ≠ st.task → getTask t site task = getTask s site task) ∧
        (k.rowAborted = false → ∀ m, m ∈ t.dist.nodes → some m.id = own.map (fun i => i.node) → bitAt m.err 6 = true) ∧
        ∀ a, memByte t a = memByte s a)

/-- With lane 0 active, FENCE completes with its task marked as waiting and every other register of every task unchanged; of the task's
region, a level of device scope or wider leaves no version of a store unreleased, its tiles hold no untagged line with data of tenant or
system scope, read-only lines aside, and a clamped level sets SCOPECLAMP. FENCE_COMPLETE, with no write of the region's release still on
its way, clears the mark and changes nothing else. BRK halts the CE and changes nothing else where the debugger is attached to the region,
and changes nothing where it is not. -/
def Obligations.FenceAndBreak : Prop :=
  (∀ (st : Stage) (s : State), wf (Instr.fence st) = true → bitAt (stageAct s st) 0 = true →
    Completes (.fence st) s fun t =>
      getTask t st.site st.task = { getTask s st.site st.task with fence := true } ∧
      (∀ site task, site ≠ st.site ∨ task ≠ st.task → getTask t site task = getTask s site task) ∧
      ∀ i n, ownerOf s st.site 0 = some i → findNode s i.node = some n →
        (2 ≤ (n.scope (bits (ctlA s st) 0 3)).toNat → ∀ x, x ∈ t.store.pend → x.inst ≠ some i.id) ∧
        (∀ site, site ∈ instMts i → ∀ l, l ∈ (getMt t site).lines → l.tag = 0#6 → l.ro = false → l.wide = false) ∧
        (n.clamps (bits (ctlA s st) 0 3) = true → ∀ j, j ∈ t.dist.insts → j.id = i.id → bitAt j.estat 0 = true)) ∧
  (∀ (site : Site) (task : BitVec 3) (s : State), (getTask s site task).fence = true → releasePending s site = false →
    Completes (.fenceComplete site task) s fun t => TaskIs site task s t { getTask s site task with fence := false }) ∧
  ∀ (st : Stage) (s : State) (i : Inst), wf (Instr.brk st) = true → bitAt (stageAct s st) 0 = true →
    ownerOf s st.site 0 = some i →
    (s.hub.dbg = some i.id →
      Completes (.brk st) s fun t => OnlyCe st.site s t ∧ getCe t st.site = { getCe s st.site with halted := true }) ∧
    (s.hub.dbg ≠ some i.id → exec (.brk st) s = .next s)

/-- TASK_ACTIVATION of a sleeping task whose trigger end shows a head, in a region that runs, makes the task run and changes nothing else.
ORPHAN_DIVERSION of an orphan that stands next to fire takes the task to its orphan entry, or makes it Done where it has none, and spends
the CE's firing of the cycle. KERNEL_BUDGET of a logit kernel whose row has run longer than its budget before the kernel's EOS aborts the
row, sets ERR.SAMPLEAB of its node, charges the full budget to the generation request whose record the node runs, the first that has it,
and gives that request 0xFFFF_FFFF as its sampled token; only the tokens on the ways from the kernel's outputs go away, and no byte of
module memory changes. What the rules leave open is read as the model has it, its own choice: log 24, 25. -/
def Obligations.TaskEvents : Prop :=
  (∀ (site : Site) (task : BitVec 3) (s : State) (e : BitVec 3), (getTask s site task).trig = some e → (getTask s site task).st = .asleep →
    (ceHead s site e.toNat).isSome = true → (getCe s site).halted = false → dieStops s site = false → regionRuns (ownerOf s site 0) = true →
    Completes (.taskActivation site task) s fun t => TaskIs site task s t { getTask s site task with st := .running }) ∧
  (∀ (site : Site) (task : BitVec 3) (s : State), ceMayFire s site = true → (getTask s site task).orphaned = true →
    nextTask s site = some task →
    Completes (.orphanDiversion site task) s fun t =>
      getTask t site task = (match (getTask s site task).orph with
        | some e => { getTask s site task with pc := e, orphaned := false }
        | none => { getTask s site task with st := .done, orphaned := false }) ∧
      (∀ x, x ≠ task → getTask t site x = getTask s site x) ∧
      (getCe t site).last = task ∧ (getCe t site).firedNext = now s + 1 ∧ MemSame s t) ∧
  ∀ (site : Site) (task : BitVec 3) (s : State) (t0 : Nat) (n : Node), (getTask s site task).rowAt = some t0 →
    isLogitKernel s site task = true → (bits (taskDesc s site task.toNat) 96 32).toNat < now s - t0 →
    (getTask s site task).rowAborted = false → (getTask s site task).rowDrop = false → (getTask s site task).rowOut = none →
    nodeOf s site 0 = some n →
    Completes (.kernelBudget site task) s fun t =>
      getTask t site task = { getTask s site task with rowAt := none, rowAborted := true } ∧
      t.dist.nodes = s.dist.nodes.map (fun m => if m.id = n.id then { m with err := m.err ||| 64#16 } else m) ∧
      t.dist.gens = mapFirst (fun g => g.owns n) (fun g => { g with budget := g.budget - (bits (taskDesc s site task.toNat) 96 32).toNat })
        s.dist.gens ∧
      (∀ g, s.dist.gens.find? (fun g => g.owns n) = some g → spadWord t g.site g.off = 0xFFFFFFFF#32) ∧
      (∀ k, (∀ w, w ∈ ceWays s site → Way.buf k ∉ w) → getBuf t k = getBuf s k) ∧ (∀ k, (getBuf t k).q.Sublist (getBuf s k).q) ∧
      (∀ a, memByte t a = memByte s a)

/-- For every CE that may fire and whose next runnable task is no orphan, BUNDLE_FIRE completes: with u the state after the stages,
computed on the heads and registers that the firing finds, each loop counter that its mask bit or the chain steps has risen by 1, or
become 0 at its bound, and every other keeps its value (R291); the next bundle is that of SEQ, JMP, WRAP, FLAG, CTRL, YIELD or CODE
(R292); HALT makes the task Done and YIELD makes one with a trigger wait, at once or, after a TRAP, when it resumes; the accumulators are
what OUT has put into them and every other register is as the stages left it; the CE has fired in this cycle and remembers the task;
unless every task of the CE is now Done, when R74 discards what is left, every end of DQ, and vi0 where CTRL or CODE finds a control token
there, has lost exactly its head; a token for every output of EQ, with the payload, mask, descriptor or control word that the stages have
put on it, the task's hypothesis as the firing found it and the poison of its sources, stands in the first skid buffer of the output's
channel, unless a logit kernel's row has aborted; every buffer that is neither an end of DQ nor such a skid buffer is unchanged, but for
what a logit kernel's TRAP takes back (R422); and memory is as the stages left it. What the rules leave open is read as the model has it,
its own choice: log 23, 24, 30. -/
def Obligations.BundleFiring : Prop :=
  ∀ (site : Site) (s : State) (task : BitVec 3), ceMayFire s site = true → nextTask s site = some task →
    (getTask s site task).orphaned = false →
    let k0 := getTask s site task
    let b := bundleAt s site k0.pc
    let h := ceHead s site 0
    let ctl : Bool := match h with
      | some x => x.ctrl && (decide (bNas b = 4) || decide (bNas b = 6))
      | none => false
    let dq : BitVec 8 := if ctl then bDq b ||| 1#8 else bDq b
    Completes (.bundleFire site) s fun t =>
      let u := runSlots (modTask s site task fun k =>
        { openFiring k with
          rowAt := if isLogitKernel s site task && k.rowAt.isNone && !k.rowAborted then some (now s) else k.rowAt
          rowTaken := k.rowTaken || (k.rowAborted && takesEos b h) }) site task b 6
      let k := getTask u site task
      let k' := getTask t site task
      let d := taskDesc s site task.toNat
      let skid (o : Nat) : Nat := inKey site 8 (bits (ceOut u site o) 4 4).toNat
      k' = { k with a := k.fire.acc, lc := k'.lc, pc := k'.pc, st := k'.st, resume := k'.resume } ∧
      (∀ j, j < 4 → vget 0#32 k'.lc j = (if lcWraps k.lc d (bLc b) j then 0#32
        else if lcSteps k.lc d (bLc b) j then vget 0#32 k.lc j + 1#32 else vget 0#32 k.lc j)) ∧
      Branches b k.pc k'.pc (taskBase s site task.toNat) (taskSlots d) k.f (lcWraps k.lc d (bLc b)) h ∧
      (k.st ≠ .trapped → k'.st = goesOn (bNas b) k.trig.isSome k.st ∧ k'.resume = k.resume) ∧
      (k.st = .trapped → k'.st = .trapped ∧ k'.resume = goesOn (bNas b) k.trig.isSome k.resume) ∧
      (getCe t site).last = task ∧ (getCe t site).firedNext = now s + 1 ∧
      (isLogitKernel s site task = false → ∀ x, getBuf u x = getBuf s x) ∧
      (allDone t site = false → ∀ e, e < 8 → (getBuf t (endKey site e)).q =
        (if bitAt dq e then (getBuf u (endKey site e)).q.tail else (getBuf u (endKey site e)).q)) ∧
      (k0.rowAborted = false → k.rowAborted = false → ∀ o, o < 5 → bitAt (bEq b) o = true →
        ∃ c, (outToken o (vget OutLatch.empty k.fire.outs o) k0.hyp (anyPoison s site dq 8), c) ∈ (getBuf t (skid o)).q) ∧
      (∀ x, (∀ e, e < 8 → x ≠ endKey site e) → (∀ o, o < 5 → bitAt (bEq b) o = true → x ≠ skid o) → (getBuf t x).q = (getBuf u x).q) ∧
      t.store = u.store

/-- For an AG that runs, each of these words completes and changes nothing but that AG: ALOOP opens its level with counter 0, its count,
stride and body; AEND steps the counter and goes back to the body while it stays below the count, else closes the level with counter 0 and
goes on; ABASE sets BASE; AOFF adds the signed DELTA modulo 2^56; ACRED sets EN and adds credits up to 65,535; AMASK sets both masks and
the level; AHALT with EOS = 0 halts the AG. -/
def Obligations.GeneratorWords : Prop :=
  ∀ (loc : AgAt) (s : State), agRuns s loc = true →
    let a := getAg s loc
    let next := a.pc + 1#5
    (∀ (l : BitVec 3) (count : BitVec 25) (stride : BitVec 30), l.toNat < 6 →
      Completes (.aloop loc l count stride) s fun t => AgIs loc s t
        { a with g := vset a.g l.toNat 0#25, cnt := vset a.cnt l.toNat count, str := vset a.str l.toNat stride,
                 top := vset a.top l.toNat next, opened := setBits a.opened l.toNat 1#1, pc := next }) ∧
    (∀ l : BitVec 3, l.toNat < 6 →
      let g := vget 0#25 a.g l.toNat + 1#25
      Completes (.aend loc l) s fun t => AgIs loc s t
        (if g < vget 0#25 a.cnt l.toNat then { a with g := vset a.g l.toNat g, pc := vget 0#5 a.top l.toNat }
          else { a with g := vset a.g l.toNat 0#25, opened := setBits a.opened l.toNat 0#1, pc := next })) ∧
    (∀ b : BitVec 56, Completes (.abase loc b) s fun t => AgIs loc s t { a with base := b, pc := next }) ∧
    (∀ d : BitVec 48, Completes (.aoff loc d) s fun t => AgIs loc s t { a with base := a.base + d.signExtend 56, pc := next }) ∧
    (∀ (en : BitVec 1) (n : BitVec 16), Completes (.acred loc en n) s fun t => AgIs loc s t
      { a with cren := decide (en = 1#1), cr := BitVec.ofNat 16 (min (a.cr.toNat + n.toNat) 65535), pc := next }) ∧
    (∀ (l : BitVec 3) (tm m : BitVec 16), Completes (.amask loc l tm m) s fun t => AgIs loc s t
      { a with mask := m, tmask := tm, tlvl := l, pc := next }) ∧
    Completes (.ahalt loc 0#1) s fun t => AgIs loc s t { a with st := .halted }

/-- For an AG that runs: AIDX with a data token at its ctl input that it may take in this cycle takes it, sets IDX, HID, ISGN and ISTR and
goes on, while EOT, EOF, EOS and RDV, with room to send, go out with the AG's stamp and set ISTR and ISGN, and the program goes on at
EXIT, after RDV at the AIDX itself; AGRP, with an index to be had for the AG's die, sets GRP and GSTR, charges the index to the node,
gives it with TV = 1 to the task's group register and goes on; with the end-of-stream answer and room it sends EOS, sets GSTR and goes on
at EXIT; AHALT with EOS = 1 and room sends EOS and halts the AG. What the rules leave open is read as the model has it, its own choice:
log 34. -/
def Obligations.GeneratorInputs : Prop :=
  ∀ (loc : AgAt) (s : State), agRuns s loc = true →
    let a := getAg s loc
    (∀ (exit : BitVec 6) (isgn : BitVec 1) (istr : Word) (tok : Token), headToTake s (agCtl loc) = some tok → tok.ctrl = false →
      Completes (.aidx loc exit isgn istr) s fun t =>
        getAg t loc = { a with idx := tok.w0, hid := tok.hyp, hidRef := tok.refuted, isgn := decide (isgn = 1#1), istr := istr, pc := a.pc + 1#5 } ∧
        (∀ x, x ≠ loc → getAg t x = getAg s x) ∧ (getBuf t (agCtl loc)).q = (getBuf s (agCtl loc)).q.tail ∧
        (∀ k, k ≠ agCtl loc → getBuf t k = getBuf s k) ∧ MemSame s t) ∧
    (∀ (exit : BitVec 6) (isgn : BitVec 1) (istr : Word) (tok : Token) (c : BitVec 8), headToTake s (agCtl loc) = some tok → tok.code = some c →
      (c = 1#8 ∨ c = 2#8 ∨ c = 3#8 ∨ c = 0x13#8) → agSends s loc = true →
      Completes (.aidx loc exit isgn istr) s fun t =>
        getAg t loc = { a with istr := istr, isgn := decide (isgn = 1#1), pc := if c = 0x13#8 then a.pc else bits exit 0 5, emitNext := now s + 1 } ∧ AgControl loc s t tok.w0 ∧
        (getBuf t (agCtl loc)).q = (getBuf s (agCtl loc)).q.tail ∧ MemSame s t) ∧
    (∀ (exit : BitVec 6) (tv : BitVec 1) (task : BitVec 3) (site : Site) (gstr : BitVec 36) (n n2 : Node) (i : Nat),
      a.eos = false → agNode s loc = some n → nextGroup n (siteDie loc.site) = some (i, n2) →
      Completes (.agrp loc exit tv task site gstr) s fun t =>
        getAg t loc = { a with st := .running, grp := BitVec.ofNat 32 i, gstr := gstr, pc := a.pc + 1#5 } ∧
        (∀ x, x ≠ loc → getAg t x = getAg s x) ∧ t.dist.nodes = s.dist.nodes.map (fun m => if m.id = n.id then n2 else m) ∧
        (tv = 1#1 → getTask t site task = { getTask s site task with group := BitVec.ofNat 32 i }) ∧
        (∀ site' task', tv = 0#1 ∨ site' ≠ site ∨ task' ≠ task → getTask t site' task' = getTask s site' task') ∧ MemSame s t) ∧
    (∀ (exit : BitVec 6) (tv : BitVec 1) (task : BitVec 3) (site : Site) (gstr : BitVec 36), a.eos = true → agSends s loc = true →
      Completes (.agrp loc exit tv task site gstr) s fun t =>
        getAg t loc = { a with st := .running, eos := false, gstr := gstr, pc := bits exit 0 5, emitNext := now s + 1 } ∧
        AgControl loc s t 3#32 ∧ MemSame s t) ∧
    (agSends s loc = true →
      Completes (.ahalt loc 1#1) s fun t =>
        getAg t loc = { a with st := .halted, emitNext := now s + 1 } ∧ AgControl loc s t 3#32 ∧ MemSame s t)

/-- For an AG that runs, may send and has a credit where it needs one: without DIRECT, AEMIT sends a vector request with the address in
lanes 0 and 1; with DIRECT, an address that passes its checks and issues without a fault becomes the last request of the AG's port with
the emission's mask, stamp and translation. Either way the AG uses a credit where EN is set, counts the emission, sends no more in this
cycle and goes to its next word. With DIRECT and an action with which a REPAIR has answered the emission, the request carries that action
and no translation. The address is BASE plus the open levels' counters times their strides, IDX (read signed after an AIDX with ISGN)
times ISTR, GRP times GSTR and DISP, modulo 2^56; the mask is TMASK where level TLVL is open and in its last round, else MASK. What the
rules leave open is read as the model has it, its own choice: log 34, 181. -/
def Obligations.Emission : Prop :=
  (∀ (loc : AgAt) (disp : BitVec 48) (s : State), agRuns s loc = true → agDirect s loc = false → agSends s loc = true →
    ((getAg s loc).cren = false ∨ (getAg s loc).cr ≠ 0#16) →
    let a := getAg s loc
    let va := a.addr disp
    let key := inKey loc.site (agOut s loc).1 (agOut s loc).2
    Completes (.aemit loc disp) s fun t =>
      getAg t loc = { a with cr := if a.cren then a.cr - 1#16 else a.cr, emits := a.emits + 1#32, emitNext := now s + 1, repair := none,
                             pc := a.pc + 1#5 } ∧
      (∃ tok, (getBuf t key).q = (getBuf s key).q ++ [(tok, localAt s loc.site (agOut s loc).1 + 1)] ∧ tok.vec = true ∧ tok.ctrl = false ∧
        tok.hyp = a.hid ∧ tok.mask = 0x000F#16 ∧ lane tok.pay 0 = bits va 0 32 ∧ lane tok.pay 1 = (bits va 32 24).setWidth 32 ∧
        lane tok.pay 2 = 0#32 ∧ lane tok.pay 3 = 0#32) ∧
      MemSame s t) ∧
  (∀ (a : Ag) (disp : BitVec 48),
    a.addr disp = BitVec.ofInt 56 (a.base.toNat +
      ((List.range 6).map fun j => if bitAt a.opened j then (vget 0#25 a.g j).toNat * (vget 0#30 a.str j).toInt else 0).sum +
      (if a.isgn then a.idx.toInt else a.idx.toNat) * a.istr.toNat + a.grp.toNat * a.gstr.toInt + disp.toInt)) ∧
  (∀ a : Ag, a.emask =
    if bitAt a.opened a.tlvl.toNat = true ∧ (vget 0#25 a.g a.tlvl.toNat).toNat + 1 = (vget 0#25 a.cnt a.tlvl.toNat).toNat then a.tmask
    else a.mask) ∧
  (∀ (loc : AgAt) (disp : BitVec 48) (s : State) (act : BitVec 2), agRuns s loc = true → agDirect s loc = true →
    (getAg s loc).repair = some act → agSends s loc = true → ((getAg s loc).cren = false ∨ (getAg s loc).cr ≠ 0#16) →
    let a := getAg s loc
    Completes (.aemit loc disp) s fun t =>
      getAg t loc = { a with cr := if a.cren then a.cr - 1#16 else a.cr, emits := a.emits + 1#32, emitNext := now s + 1, repair := none,
                             pc := a.pc + 1#5 } ∧
      (getPort t (agPort s loc)).reqs = (getPort s (agPort s loc)).reqs ++ [⟨a.addr disp, a.emask, a.hid, a.hidRef, none, none, act, now s + 1⟩] ∧
      MemSame s t) ∧
  ∀ (loc : AgAt) (disp : BitVec 48) (s u : State) (x : Option Trans), agRuns s loc = true → agDirect s loc = true →
    (getAg s loc).repair = none → emitCheck s loc ((getAg s loc).addr disp).toNat = (u, .go x) → agSends u loc = true →
    ((getAg s loc).cren = false ∨ (getAg s loc).cr ≠ 0#16) → issueFault u loc x = none →
    let a := getAg u loc
    Completes (.aemit loc disp) s fun t =>
      getAg t loc = { a with cr := if a.cren then a.cr - 1#16 else a.cr, emits := a.emits + 1#32, emitNext := now s + 1, repair := none,
                             pc := a.pc + 1#5 } ∧
      (getPort t (agPort s loc)).reqs = (getPort u (agPort s loc)).reqs ++
        [⟨(getAg s loc).addr disp, a.emask, a.hid, a.hidRef, none, x, 0#2, now s + 1⟩] ∧
      MemSame s t

/-- For an AG that runs with DIRECT, has no REPAIR to apply and emits an address that is not a multiple of its port operation's alignment,
AEMIT answers a next state in which the AG is faulted with ALIGN, its port has no new request, and its record (code 0x04, kind 0, the
site, sub-index, pc, hypothesis and address) waits last at the corner of its die; memory is unchanged. -/
def Obligations.AlignmentFault : Prop :=
  ∀ (loc : AgAt) (disp : BitVec 48) (s : State), agRuns s loc = true → agDirect s loc = true → (getAg s loc).repair = none →
    let x := portDescOf s (agPort s loc)
    let a := getAg s loc
    let va := a.addr disp
    let d := siteDie loc.site
    addrless x.1 x.2 = false → va.toNat % accAlign x.1 x.2 ≠ 0 →
    Completes (.aemit loc disp) s fun t =>
      getAg t loc = { a with st := .faulted .align none } ∧ (∀ y, y ≠ loc → getAg t y = getAg s y) ∧
      (∃ r, (getDie t d).pend = (getDie s d).pend ++ [⟨loc.site, loc.sub.setWidth 3, 0#1, instNo (agOwner s loc), r,
          faultTok loc.site (loc.sub.setWidth 3) 0#1 (bits r 368 8)⟩] ∧
        bits r 368 8 = 4#8 ∧ bits r 296 56 = va ∧ bits r 378 7 = a.pc.setWidth 7 ∧ bits r 408 6 = a.hid ∧ bits r 392 12 = loc.site ∧
        bits r 389 3 = loc.sub.setWidth 3 ∧ bits r 388 1 = 0#1) ∧
      getPort t (agPort s loc) = getPort s (agPort s loc) ∧ MemSame s t

/-- PAGE_WALK of a waiting walk whose tables hold a leaf that permits the access, does not move and is no host page, completes: the walk
has left its die, the die's cache holds the translation first, and so does the micro-TLB where an AG asked, and A (and D for an access
that needs W) is set in the entry; where the leaf is a host page (TYPE 1) and the walk has asked nothing, with fewer than 64 requests
outstanding, A (and D) is set and the walk asks for its ATS translation; with 64 outstanding it leaves its walker and waits for one of
them; with tables that hold none, the walk fails with its code, whoever asked. ATS_TIMEOUT of a walk that has waited out the timeout makes
it fail as TRANS_NP. A failed walk stands with its die until its access takes the code up, and nothing else changes. What the rules leave
open is read as the model has it, its own choice: log 8, 10, 29. -/
def Obligations.Walks : Prop :=
  (∀ (s : State) (die : BitVec 2) (w : Walk) (l : Leaf), s.opnd 0 2 = die →
    (getDie s die).served[(s.opnd 2 8 : BitVec 8).toNat]? = some w →
    walkTables s w.root w.va.toNat = .ok l → leafPermits l w.needW = true → bitAt l.ent 8 = false → entType l.ent ≠ 1#2 →
    let e := tlbOf w.tenant w.va.toNat l (entAddr l.ent) w.needW
    Completes .pageWalk s fun t =>
      (getDie t die).walks = (getDie s die).walks.erase w ∧ (getDie t die).tlb = tlbPut (getDie s die).tlb e 16384 ∧
      (∀ loc, getAg t loc = if w.who = .ag loc then { getAg s loc with utlb := tlbPut (getAg s loc).utlb e 32 } else getAg s loc) ∧
      bitAt (memByte t l.loc) 4 = true ∧ (w.needW = true → bitAt (memByte t l.loc) 5 = true) ∧
      ∀ a, a ≠ l.loc → memByte t a = memByte s a) ∧
  (∀ (s : State) (die : BitVec 2) (w : Walk) (l : Leaf), s.opnd 0 2 = die →
    (getDie s die).served[(s.opnd 2 8 : BitVec 8).toNat]? = some w →
    walkTables s w.root w.va.toNat = .ok l → leafPermits l w.needW = true → bitAt l.ent 8 = false → entType l.ent = 1#2 →
    w.ats = none → w.parked = false →
    Completes .pageWalk s fun t =>
      ((getDie s die).onAts.length < 64 → { w with ats := some (now s) } ∈ (getDie t die).walks) ∧
      (64 ≤ (getDie s die).onAts.length → { w with parked := true } ∈ (getDie t die).walks) ∧
      (getDie t die).walks.length = (getDie s die).walks.length ∧ bitAt (memByte t l.loc) 4 = true ∧
      (w.needW = true → bitAt (memByte t l.loc) 5 = true) ∧ ∀ a, a ≠ l.loc → memByte t a = memByte s a) ∧
  (∀ (s : State) (die : BitVec 2) (w : Walk) (c : FaultCode), s.opnd 0 2 = die →
    (getDie s die).served[(s.opnd 2 8 : BitVec 8).toNat]? = some w → walkTables s w.root w.va.toNat = .error c →
    Completes .pageWalk s fun t => WalkFails s t die w c) ∧
  ∀ (s : State) (die : BitVec 2) (w : Walk), s.opnd 0 2 = die →
    (getDie s die).walks.find? (fun w => match w.ats with
      | some t => decide (t + s.hub.atsMs.toNat * msCycles ≤ now s)
      | none => false) = some w →
    Completes .atsTimeout s fun t => WalkFails s t die w .transNp

/-- FREED_NOTICE of an end of a CE or a port of an MT whose first waiting notice is due, with a notice channel that can take a token in
this cycle and a region that runs, completes: one FREED token with that notice's count goes out and the notices after it stay.
FREED_CREDIT with a FREED token at the ctl input of an AG, or at the freed input of a copy engine, that may be taken in this cycle takes
it and adds its argument to the credits, up to 65,535; a copy engine that runs no copy keeps them for its next. AGRP_END_OF_STREAM, when
every asking AG of the node is held and finds no index, or is halted, and the node's instances are otherwise quiescent, gives every held
AG the answer. -/
def Obligations.Credits : Prop :=
  (∀ (site : Site) (e : BitVec 4) (s : State) (x : Nat × Nat) (rest : Notices), e.toNat < 8 →
    vget [] (getCe s site).notices e.toNat = x :: rest → x.1 ≤ now s → regionRuns (ownerOf s site 0) = true →
    (getCe s site).halted = false → (getMt s site).halted = false → dieStops s site = false →
    let key := inKey site 8 (bits (ceEnd s site e.toNat) 12 4).toNat
    sendReady s site 8 (bits (ceEnd s site e.toNat) 12 4).toNat = true →
    Completes (.freedNotice site e) s fun t =>
      vget [] (getCe t site).notices e.toNat = rest ∧
      (getBuf t key).q = (getBuf s key).q ++ [(controlTok false (cFREED x.2) 0#6 false, localAt s site 8 + 1)] ∧
      (∀ task, getTask t site task = getTask s site task) ∧ MemSame s t) ∧
  (∀ (loc : PortAt) (s : State) (x : Nat × Nat) (rest : Notices), (getPort s loc).notices = x :: rest → x.1 ≤ now s →
    regionRuns (ownerOf s loc.site 0) = true → (getCe s loc.site).halted = false → (getMt s loc.site).halted = false →
    dieStops s loc.site = false →
    let b := portBinding s loc
    let lp := 8 + (bits b 19 1).toNat
    let key := inKey loc.site lp (bits b 15 4).toNat
    sendReady s loc.site lp (bits b 15 4).toNat = true →
    Completes (.freedNotice loc.site (1#1 ++ loc.port)) s fun t =>
      (getPort t loc).notices = rest ∧
      (getBuf t key).q = (getBuf s key).q ++ [(controlTok false (cFREED x.2) 0#6 false, localAt s loc.site lp + 1)] ∧ MemSame s t) ∧
  (∀ (loc : AgAt) (s : State) (tok : Token), headToTake s (agCtl loc) = some tok → tok.isCode 0x20#8 = true → regionRuns (agOwner s loc) = true →
    (getAg s loc).halted = false → dieStops s loc.site = false →
    Completes (.freedCredit loc.site (0#1 ++ loc.sub)) s fun t =>
      getAg t loc = { getAg s loc with cr := BitVec.ofNat 16 (min ((getAg s loc).cr.toNat + tok.arg.toNat) 65535) } ∧
      (getBuf t (agCtl loc)).q = (getBuf s (agCtl loc)).q.tail ∧ MemSame s t) ∧
  (∀ (site : Site) (s : State) (tok : Token), headToTake s (endKey site 2) = some tok → tok.isCode 0x20#8 = true →
    regionRuns (ownerOf s site 0) = true → (getCp s site).halted = false → dieStops s site = false →
    Completes (.freedCredit site 2#2) s fun t =>
      let c := getCp s site
      getCp t site = (if c.running = true then { c with credits := BitVec.ofNat 16 (min (c.credits.toNat + tok.arg.toNat) 65535) }
        else { c with kept := BitVec.ofNat 16 (min (c.kept.toNat + tok.arg.toNat) 65535) }) ∧
      (getBuf t (endKey site 2)).q = (getBuf s (endKey site 2)).q.tail ∧ MemSame s t) ∧
  ∀ (node : BitVec 32) (s : State) (n : Node), findNode s node.toNat = some n →
    let is := s.dist.insts.filter fun i => decide (i.node = n.id) && decide (i.st ≠ .ended)
    (∃ i ∈ is, ∃ l ∈ instAgs i, (getAg s l).st = .heldGrp) → (∀ i ∈ is, allHeld s n i = true ∧ i.quiescent = true) →
    Completes (.agrpEndOfStream node) s fun t =>
      (∀ i ∈ is, ∀ l ∈ instAgs i, (getAg s l).st = .heldGrp → getAg t l = { getAg s l with eos := true }) ∧
      (∀ l, (∀ i ∈ is, l ∉ instAgs i) → getAg t l = getAg s l) ∧ MemSame s t

/-- For an operator that may fire and whose outputs have room: STEER sends a data token to output 1 or 0 by bit 0 of its predicate,
inverted by INV, sends a control token to both and drops a control token among the predicates; MERGE takes a predicate and one token of
the input that it selects, and drops a control token among the predicates; CARRY sends INIT while one is due, else the head of its
feedback, an INIT in place of EOS with RST; DUP copies its head to every output; DROP consumes its head; RPART sends a data token to the
output that the payload's field names and a control token to every output. Each completes with exactly those heads gone and those tokens
added, and nothing else changed but the marks of progress of its region. What the rules leave open is read as the model has it, its own
choice: log 23, 30. -/
def Obligations.OperatorFirings : Prop :=
  ∀ (loc : OpAt) (cfg : OpCfg) (s : State), opRuns s loc = true →
    (∀ p d : Token, opHead s loc 1 = some p → p.ctrl = false → opHead s loc 0 = some d → d.ctrl = false →
      let j := if bitAt p.w0 0 != bitAt cfg.opt 0 then 1 else 0
      opRoom s loc cfg j = true →
      Completes (.steer loc cfg) s fun t => OpFired loc s t [0, 1] [(j, d)] (getOp s loc)) ∧
    (∀ d : Token, (∀ p, opHead s loc 1 = some p → p.ctrl = false) → opHead s loc 0 = some d → d.ctrl = true →
      opRoomAll s loc cfg 2 = true →
      Completes (.steer loc cfg) s fun t => OpFired loc s t [0] [(0, d), (1, d)] (getOp s loc)) ∧
    (∀ p : Token, opHead s loc 1 = some p → p.ctrl = true →
      Completes (.steer loc cfg) s fun t => OpFired loc s t [1] [] (getOp s loc)) ∧
    (∀ p d : Token, opHead s loc 2 = some p → p.ctrl = false →
      let j := if bitAt p.w0 0 != bitAt cfg.opt 0 then 1 else 0
      opHead s loc j = some d → opRoom s loc cfg 0 = true →
      Completes (.merge loc cfg) s fun t => OpFired loc s t [2, j] [(0, d)] (getOp s loc)) ∧
    (∀ p : Token, opHead s loc 2 = some p → p.ctrl = true →
      Completes (.merge loc cfg) s fun t => OpFired loc s t [2] [] (getOp s loc)) ∧
    (∀ h : BitVec 6 × Bool, (getOp s loc).initDue = some h → opRoom s loc cfg 0 = true →
      Completes (.carry loc cfg) s fun t =>
        OpFired loc s t [] [(0, initTok cfg h.1 h.2)] { getOp s loc with initDue := none }) ∧
    (∀ d : Token, (getOp s loc).initDue = none → opHead s loc 0 = some d → opRoom s loc cfg 0 = true →
      let x := if d.isCode 3#8 && bitAt cfg.opt 33 then initTok cfg d.hyp d.refuted else d
      Completes (.carry loc cfg) s fun t => OpFired loc s t [0] [(0, x)] (getOp s loc)) ∧
    (∀ d : Token, opHead s loc 0 = some d → opRoomAll s loc cfg cfg.nout.toNat = true →
      Completes (.dup loc cfg) s fun t =>
        OpFired loc s t [0] ((List.range cfg.nout.toNat).map fun j => (j, d)) (getOp s loc)) ∧
    (∀ d : Token, opHead s loc 0 = some d → Completes (.drop loc cfg) s fun t => OpFired loc s t [0] [] (getOp s loc)) ∧
    (∀ d : Token, opHead s loc 0 = some d → d.ctrl = false →
      let j := d.w0.toNat / 2 ^ (bits cfg.opt 0 5).toNat % 2 ^ (bits cfg.opt 5 3).toNat
      opRoom s loc cfg j = true →
      Completes (.rpart loc cfg) s fun t => OpFired loc s t [0] [(j, d)] (getOp s loc)) ∧
    ∀ d : Token, opHead s loc 0 = some d → d.ctrl = true → opRoomAll s loc cfg cfg.nout.toNat = true →
      Completes (.rpart loc cfg) s fun t =>
        OpFired loc s t [0] ((List.range cfg.nout.toNat).map fun j => (j, d)) (getOp s loc)

/-- For an operator that may fire: WIDEN with a head begins a release where none is in progress, after which a level of device scope or
wider leaves no version of a store of the sender's region unreleased, and keeps the token, and once the release has completed sends the
token and is idle again; WIDEN_RELEASE_COMPLETE marks the release as complete once no write of it is under way. REPLAY in lap one, where
no earlier record still waits for its page, sends its head on at once: EOS begins lap two, a token beyond LEN sets ESTAT bit 4, and any
other whose place translates is written as the next record at BUF + 128 t through the stash of REPLAY.MT; in lap two it sends the next
token of the queue, and after the last one EOS, with which lap one begins anew. What the rules leave open is read as the model has it, its
own choice: log 33, 36. -/
def Obligations.WidenAndReplay : Prop :=
  (∀ (loc : OpAt) (cfg : OpCfg) (s : State) (d : Token), opRuns s loc = true → opHead s loc 0 = some d →
    ((getOp s loc).widen = .idle →
      Completes (.widen loc cfg) s fun t =>
        getOp t loc = { getOp s loc with widen := .releasing, lastFire := now s + 1 } ∧ (∀ x, x ≠ loc → getOp t x = getOp s x) ∧
        (∀ k, getBuf t k = getBuf s k) ∧
        ∀ i j n, opOwner s loc = some i → widenSender s loc = some j → findNode s i.node = some n → 2 ≤ (n.scope (bits cfg.opt 0 3)).toNat →
          ∀ x, x ∈ t.store.pend → x.inst ≠ some j.id) ∧
    ∀ c, (getOp s loc).widen = .released c → opRoom s loc cfg 0 = true →
      Completes (.widen loc cfg) s fun t => OpFired loc s t [0] [(0, d)] { getOp s loc with widen := .idle }) ∧
  (∀ (loc : OpAt) (s : State), (getOp s loc).widen = .releasing →
    writesAway s (instNo (widenSender s loc)) = false →
    exec (.widenReleaseComplete loc.site loc.slot) s =
      .next (setOp s loc { getOp s loc with widen := .released (now s), lastFire := now s })) ∧
  (∀ (loc : OpAt) (cfg : OpCfg) (s : State) (d : Token), opRuns s loc = true → opHead s loc 0 = some d → (getOp s loc).lap2 = false →
    opRoom s loc cfg 0 = true →
    let o := getOp s loc
    let len := (bits cfg.opt 0 16).toNat + 1
    (d.isCode 3#8 = true →
      Completes (.replay loc cfg) s fun t =>
        OpFired loc s t [0] [(0, d)] { o with lap2 := true, emitted := 0, eosHyp := d.hyp, eosRef := d.refuted }) ∧
    (d.isCode 3#8 = false → len ≤ o.recorded →
      Completes (.replay loc cfg) s fun t =>
        OpFired loc s t [0] [(0, d)] o ∧ ∀ i, opOwner s loc = some i → ∃ j ∈ t.dist.insts, j.id = i.id ∧ bitAt j.estat 4 = true) ∧
    ∀ (u : State) (tr : Trans), d.isCode 3#8 = false → o.recorded < len → o.late = [] →
      replayXlate (opSend (opPop (recordLate s loc cfg) loc 0) loc 0 d) loc cfg o.recorded true = (u, .ok tr) →
      Completes (.replay loc cfg) s fun t =>
        getOp t loc = { o with outq := o.outq ++ [(0, d, now s + 1)], recorded := o.recorded + 1
                               stamps := o.stamps ++ [(d.hyp, d.refuted)], lastFire := now s + 1 } ∧
        (getBuf t (opInKey loc.site loc.slot.toNat 0)).q = (getBuf s (opInKey loc.site loc.slot.toNat 0)).q.tail ∧
        let v := putRecord u loc cfg o.recorded (homeKey tr) d
        t.store = v.store ∧ t.hyps = v.hyps ∧ t.fab.mts = v.fab.mts) ∧
  ∀ (loc : OpAt) (s : State), opRuns s loc = true → (getOp s loc).lap2 = true → opRoom s loc (opCfgOf s loc) 0 = true → (getOp s loc).late = [] →
    let o := getOp s loc
    (∀ (u : State) (d : Token), o.emitted < o.recorded → lapTwoToken s loc (opCfgOf s loc) = (u, some d) →
      Completes (.replayLapTwo loc.site loc.slot) s fun t =>
        OpFired loc u t [] [(0, d)] { o with emitted := o.emitted + 1 }) ∧
    (o.recorded ≤ o.emitted →
      Completes (.replayLapTwo loc.site loc.slot) s fun t =>
        OpFired loc s t [] [(0, controlTok (!replayScal (opCfgOf s loc)) 3#32 o.eosHyp o.eosRef)]
          { o with lap2 := false, recorded := 0, emitted := 0, stamps := [], lost := [], renames := [] })

/-- For an output that has a candidate, LINK_TRANSFER completes: the token sent is a candidate that no other candidate has waited longer
than, its next buffer showed a free entry, and its link (the output, or the one input of an operator slot that it enters) had carried
nothing in this cycle; it stood at the head of its input, or on its operator's output, and leaves it; it stands last in the next buffer,
to be seen after the link's transit time, unless that is an input of a CE whose tasks are all Done, where it is discarded (but MARK and
SWITCH); a SWITCH takes its input's routing entry to the shadow bank; and that link carries no more in this cycle. BANK_FLIP of a CE whose
inputs SWITCH has headed since before this cycle, which has nothing to fire, no FENCE to wait for, no command and no notice to send, and
whose outputs have room, completes: the CE belongs to the new region, with an empty command port, and every other CE is as it was. What
the rules leave open is read as the model has it, its own choice: log 4, 24, 30. -/
def Obligations.LinkTransfer : Prop :=
  (∀ (site : Site) (out : BitVec 4) (s : State) (c : Cand),
    winner (getOut s site out.toNat).rr (candidates s site out.toNat) = some c →
    let gone := c.dest.endp.isSome && decide (siteKind site = .ce) && allDone s site && !c.tok.isMarkOrSwitch
    Completes (.linkTransfer site out) s fun t =>
      c ∈ candidates s site out.toNat ∧ (∀ x, x ∈ candidates s site out.toNat → c.since ≤ x.since) ∧
      c.dest.room s = true ∧ (Table.get ⟨0, 0⟩ s.fab.outs (c.link site out.toNat)).usedNext ≤ now s ∧
      Table.get ⟨0, 0⟩ t.fab.outs (c.link site out.toNat) = ⟨now s + 1, (c.idx + 1) % 224⟩ ∧
      (out.toNat < 12 → getOut t site out.toNat = ⟨now s + 1, (c.idx + 1) % 224⟩) ∧
      (c.idx < 160 → (getBuf s (inKey site (c.idx / 16) (c.idx % 16))).q.head? = some (c.tok, c.since) ∧ ∀ x, getOp t x = getOp s x) ∧
      (160 ≤ c.idx → let loc : OpAt := ⟨site, BitVec.ofNat 2 ((c.idx - 160) / 16)⟩
        ((c.idx - 160) % 16, c.tok, c.since) ∈ (getOp s loc).outq ∧
        getOp t loc = { getOp s loc with outq := (getOp s loc).outq.erase ((c.idx - 160) % 16, c.tok, c.since) }) ∧
      (∀ k, (getBuf t k).q =
        (if c.idx < 160 ∧ k = inKey site (c.idx / 16) (c.idx % 16) then (getBuf s k).q.tail else (getBuf s k).q) ++
        (if k = c.dest.key ∧ gone = false then [(c.tok, now s + c.dest.delay)] else [])) ∧
      (∀ k, Table.get none t.fab.routes k =
        match Table.get none s.fab.routes k with
        | some r => if c.tok.isCode 0x11#8 = true ∧ c.idx < 160 ∧ k = c.key then shadowRoute s r.inst k else some r
        | none => none) ∧
      t = { s with fab := { s.fab with bufs := t.fab.bufs, ops := t.fab.ops, outs := t.fab.outs, routes := t.fab.routes } } ∧
      MemSame s t) ∧
  ∀ (site : Site) (s : State) (i j : Inst), siteKind site = .ce → flipPair s (site.toNat * 4) = some (i, j) →
    regionRuns (some i) = true →
    let ins := ((List.range 8).filter fun e => bitAt (ceEnd s site e) 0).map fun e => endKey site e
    (∀ k, k ∈ ins → switchStood s k = true) → nextTask s site = none → (getCe s site).tasks.all (fun k => !k.fence) = true → (getCe s site).cmdq = [] →
    (getCe s site).notices.all (fun x => x.isEmpty) = true → (getCe s site).firedNext ≤ now s →
    outsRoom s site (ceOuts s site) = true →
    Completes (.bankFlip site 0#2) s fun t =>
      Table.get 0 t.fab.owner (site.toNat * 4) = j.id + 1 ∧
      (∀ e, e ≠ site.toNat * 4 → Table.get 0 t.fab.owner e = Table.get 0 s.fab.owner e) ∧
      (getCe t site).cmdq = [] ∧ ∀ x, x ≠ site → getCe t x = getCe s x

/-- For a port that serves a whole request, aligned and within the scratchpad: SPLD answers a token with the word at the address, or with
the lanes of the mask of its block and 0 in the others, with the block's descriptor and poison; SPST writes the bytes of the token's lanes
under both masks, or of the word, and acknowledges their number; a vector SPST that writes a lane writes the block's descriptor, DESC with
DOV and else the token's, and one that writes any byte marks the block poisoned when its token is, and clears the mark only when it writes
all 64 bytes; SPADD adds to those words, modulo 2^32 or as fp32 rounded to nearest even, and acknowledges their bytes; on a poisoned block
that it would add to it adds nothing and answers 0 with poison; it leaves every descriptor and mark. An SPST and an SPADD are those of a
block for which no addition to a sync word waits. With no wait armed on the block every other byte, descriptor and poison mark of every
scratchpad is unchanged; the port then has its request behind it. An address outside its alignment or the scratchpad completes as poison.
What the rules leave open is read as the model has it, its own choice: log 40. -/
def Obligations.ScratchpadPort : Prop :=
  (∀ (loc : PortAt) (d : PortDesc) (s u : State) (r : PReq), Serves 5#8 loc d s u r → r.act = 0#2 →
    r.va % (if d.wid then 64 else 4) = 0 → r.va + (if d.wid then 64 else 4) ≤ spadSize →
    Completes (.spld loc d) s fun t =>
      ∃ tok, t = portDone (replyNow u loc 5#8 d r [tok]) loc d ∧ tok.vec = d.wid ∧ tok.hyp = r.hyp ∧
        tok.psn = spadPoisoned u loc.site (r.va / 64 * 64) ∧
        (tok.psn = false →
          if d.wid then tok.mask = r.mask ∧ tok.desc = spadDescOf u loc.site r.va ∧
            ∀ l, l < 16 → lane tok.pay l = (if bitAt r.mask l then spadWord u loc.site (r.va + 4 * l) else 0#32)
          else tok.w0 = spadWord u loc.site r.va)) ∧
  (∀ (loc : PortAt) (d : PortDesc) (s u : State) (r : PReq) (k : Token), Serves 6#8 loc d s u r → r.act = 0#2 → r.toks = [k] →
    r.va % (if d.wid then 64 else 4) = 0 → r.va + (if d.wid then 64 else 4) ≤ spadSize → NoWait u loc.site r.va →
    rowBusy u loc r = false →
    Completes (.spst loc d) s fun t =>
      let m := laneWrites d r k
      ∃ v, t = portDone (replyNow v loc 6#8 d r [scalarTok (laneCount m) r.hyp r.refuted false]) loc d ∧ OnlySpad loc.site u v ∧
        (∀ off, off < spadSize → spadDescOf v loc.site off =
          (if off / 64 = r.va / 64 ∧ d.wid = true ∧ m ≠ 0#16 then (if d.dov then d.desc else k.desc) else spadDescOf u loc.site off)) ∧
        (∀ off, off < spadSize → spadPoisoned v loc.site off =
          (if off / 64 = r.va / 64 ∧ m ≠ 0#16 then k.psn || (spadPoisoned u loc.site off && decide (m ≠ 0xFFFF#16))
            else spadPoisoned u loc.site off)) ∧
        ∀ off, off < spadSize → spadByte v loc.site off =
          (if touches d r k off then (if d.wid then blockByte k.pay (off % 64) else bits k.operand.1 (8 * (off % 4)) 8)
            else spadByte u loc.site off)) ∧
  (∀ (loc : PortAt) (d : PortDesc) (s u : State) (r : PReq) (k : Token), Serves 7#8 loc d s u r → r.act = 0#2 → r.toks = [k] →
    r.va % (if d.wid then 64 else 4) = 0 → r.va + (if d.wid then 64 else 4) ≤ spadSize → NoWait u loc.site r.va →
    rowBusy u loc r = false →
    let m := laneWrites d r k
    let poisoned := spadPoisoned u loc.site (r.va / 64 * 64) && decide (m ≠ 0#16)
    Completes (.spadd loc d) s fun t =>
      ∃ v, t = portDone (replyNow v loc 7#8 d r [scalarTok (if poisoned then 0#32 else laneCount m) r.hyp r.refuted poisoned]) loc d ∧
        OnlySpad loc.site u v ∧
        (∀ off, off < spadSize → spadDescOf v loc.site off = spadDescOf u loc.site off ∧ spadPoisoned v loc.site off = spadPoisoned u loc.site off) ∧
        (poisoned = true → ∀ off, off < spadSize → spadByte v loc.site off = spadByte u loc.site off) ∧
        (poisoned = false → ∀ i, 4 * i < spadSize →
          let old := spadWord u loc.site (4 * i)
          let x := if d.wid then lane k.pay (i % 16) else k.operand.1
          spadWord v loc.site (4 * i) =
            (if touches d r k (4 * i) then (if d.addf then (fadd 0#2 old x).1 else old + x) else old))) ∧
  ∀ (loc : PortAt) (d : PortDesc) (s u : State) (r : PReq), r.act = 0#2 →
    (r.va % (if d.wid then 64 else 4) ≠ 0 ∨ spadSize < r.va + (if d.wid then 64 else 4)) →
    (Serves 5#8 loc d s u r → exec (.spld loc d) s = .next (portDone (poisonDone u loc 5#8 d r).1 loc d)) ∧
    (Serves 6#8 loc d s u r → exec (.spst loc d) s = .next (portDone (poisonDone u loc 6#8 d r).1 loc d)) ∧
    (Serves 7#8 loc d s u r → exec (.spadd loc d) s = .next (portDone (poisonDone u loc 7#8 d r).1 loc d))

/-- For a port that serves a whole, aligned request, not refuted, whose block translates: LD answers a token with what the request's
hypothesis reads of the block, at once where the stash holds it and else with the memory's reply; on a peer's page that the stash does not
hold it queues one remote read of that block; LDRO under hypothesis 0 with no line at hand answers what a load returns; ST and STM whose
store stays in this package make one store of the bytes that the masks select and acknowledge their number; an ST without an allocate hint
to a peer's page queues one remote write of those bytes. A refuted request of each of the four answers a blank reply and makes no access.
What the rules leave open is read as the model has it, its own choice: log 11, 28, 32, 35, 145. -/
def Obligations.GlobalAccess : Prop :=
  ∀ (loc : PortAt) (d : PortDesc) (s u v : State) (r : PReq) (tr : Trans), r.act = 0#2 → r.refuted = false →
    r.va % (if d.wid then 64 else 4) = 0 →
    let h := homeKey tr
    let seen := view v (portParty v loc) h (portCtx v loc) r.hyp
    let hit := loadHits v loc.site h (portCtx v loc) r.hyp (needMask d.wid r.va)
    (Serves 1#8 loc d s u r → portXlates u loc r false r.va 1 = (v, .ok [tr]) → (hit = true ∨ homeIsPeer h = false) →
      Completes (.ld loc d) s fun t =>
        t = portDone (replyLands (loadInstall v (portParty v loc) loc.site h r.va (portCtx v loc) r.hyp
          (needMask d.wid r.va) d.hint (accScope v loc d h) (homeBlock v h)) loc 1#8 d r
          [loadTok d.wid r.va r.mask r.hyp r.refuted seen] hit) loc d) ∧
    (Serves 1#8 loc d s u r → portXlates u loc r false r.va 1 = (v, .ok [tr]) → hit = false → homeIsPeer h = true →
      Completes (.ld loc d) s fun t =>
        (∃ q, t.links.remotes = v.links.remotes ++ [q] ∧ q.idx = v.links.nextIdx ∧ q.who = .port loc.site loc.port ∧ q.kind = 0#3 ∧
          q.node = homeNode h ∧ q.addr = homeAddr h ∧ q.blocks = 1 ∧ q.issued = none) ∧
        (∃ e, e ∈ (getPort t loc).replies ∧ e.remote = [v.links.nextIdx] ∧ e.landed = false ∧ e.opc = 1#8) ∧ MemSame v t) ∧
    (Serves 2#8 loc d s u r → portXlates u loc r false r.va 1 = (v, .ok [tr]) → r.hyp = 0#6 → homeIsPeer h = false →
      lineOf (getMt v loc.site) h 0#8 0#6 = none →
      Completes (.ldro loc d) s fun t =>
        ∃ w, t = portDone (replyLands w loc 2#8 d r [loadTok d.wid r.va r.mask r.hyp r.refuted seen] false) loc d ∧
          (hintAlloc d.hint = false → w = v)) ∧
    (∀ k : Token, Serves 3#8 loc d s u r → portXlates u loc r true r.va 1 = (v, .ok [tr]) → r.toks = [k] →
      let x : StOne := ⟨r.va, h, k.hyp, k.refuted, storeData 3#8 d r.va r.mask k k⟩
      x.goes d = false → (k.refuted = false → ovlStop v loc [(k.hyp, h)] = none) →
      (∀ i, i < 64 → bitAt x.dat.mask i = (if d.wid then bitAt (k.mask &&& r.mask) (i / 4) else decide (i / 4 = r.va % 64 / 4))) ∧
      exec (.st loc d) s = .next (portDone (ackNow (storeOne v loc d x) loc 3#8 d r
        (if k.refuted then 0 else countBits x.dat.mask)) loc d)) ∧
    (∀ k m : Token, Serves 4#8 loc d s u r → portXlates u loc r true r.va 1 = (v, .ok [tr]) → r.toks = [m, k] →
      let x : StOne := ⟨r.va, h, k.hyp, k.refuted, storeData 4#8 d r.va r.mask m k⟩
      x.goes d = false → (k.refuted = false → ovlStop v loc [(k.hyp, h)] = none) →
      (∀ i, i < 64 → bitAt x.dat.mask i = (if m.vec then bitAt m.pay i else decide (i < 32) && bitAt m.pay i)) ∧
      exec (.stm loc d) s = .next (portDone (ackNow (storeOne v loc d x) loc 4#8 d r
        (if k.refuted then 0 else countBits x.dat.mask)) loc d)) ∧
    (∀ k : Token, Serves 3#8 loc d s u r → portXlates u loc r true r.va 1 = (v, .ok [tr]) → r.toks = [k] →
      let x : StOne := ⟨r.va, h, k.hyp, k.refuted, storeData 3#8 d r.va r.mask k k⟩
      x.goes d = true →
      Completes (.st loc d) s fun t =>
        (∃ q, t.links.remotes = v.links.remotes ++ [q] ∧ q.who = .port loc.site loc.port ∧ q.kind = 1#3 ∧ q.node = homeNode h ∧
          q.addr = homeAddr h ∧ q.blocks = 1 ∧ bits q.mask 0 64 = x.dat.mask ∧ bits q.data 0 512 = x.dat.data ∧ q.issued = none) ∧
        ∀ a, memByte t a = memByte v a) ∧
    ∀ q : PReq, q.act = 0#2 → q.refuted = true →
      let w := loseWalks u (siteDie loc.site) fun x => decide (x.who = .port loc)
      (Serves 2#8 loc d s u q → exec (.ldro loc d) s = .next (portDone (replyNow w loc 2#8 d q (blankToks 2#8 d q 0#16 false)) loc d)) ∧
      (Serves 4#8 loc d s u q → exec (.stm loc d) s = .next (portDone (replyNow w loc 4#8 d q (blankToks 4#8 d q 0#16 false)) loc d)) ∧
      (Serves 1#8 loc d s u q → exec (.ld loc d) s = .next (portDone (replyNow w loc 1#8 d q (blankToks 1#8 d q 0#16 false)) loc d)) ∧
      (Serves 3#8 loc d s u q → exec (.st loc d) s = .next (portDone (replyNow w loc 3#8 d q (blankToks 3#8 d q 0#16 false)) loc d))

/-- For a port that serves a whole, aligned, unrefuted atomic whose word translates to a page of this package, with room in the overlay
and no host page at tenant scope: the reply is a scalar token with the old word under the request's hypothesis, and the word becomes the
sum modulo 2^32, the fp32 sum, the lesser or the greater (unsigned with UNS), the and, or or exclusive or, X, or Y where X stood; no store
is made where the value does not change, but for ATXCHG and a matching ATCAS, and an access in the stash then touches its line as a load
does; a poisoned word answers 0 with poison and is not written. On a row in one page of this package: GATH answers a token for each block,
read in the state that the blocks before it leave, with an EOT behind them where ROWEOT is set; SCAT makes one store for each token, at
the address 64 bytes further on, under the token's stamp, and acknowledges the bytes of those not refuted; SCATADD adds one token after
the other, none that is refuted, and acknowledges the bytes performed, or 0 with poison where poison kept one from being made. On a row in
the scratchpad GATH answers the row's blocks in order, with the EOT, and SCAT and SCATADD, with no addition to a sync word waiting there,
store or add the tokens in order and acknowledge the bytes. What the rules leave open is read as the model has it, its own choice: log 8,
11. -/
def Obligations.Atomics : Prop :=
  (∀ e, e ∈ atomics → ∀ (loc : PortAt) (d : PortDesc) (s u v : State) (r : PReq) (tr : Trans), d.wid = false → r.act = 0#2 →
    r.refuted = false → r.va % 4 = 0 → Serves e.2.1 loc d s u r → portXlates u loc r true r.va 1 = (v, .ok [tr]) →
    let h := homeKey tr
    homeIsPeer h = false → (homeIsHost h = false ∨ r.hyp ≠ 0#6 ∨ (accScope v loc d h).toNat < 3) → ovlStop v loc [(r.hyp, h)] = none →
    let b := view v (portParty v loc) h (portCtx v loc) r.hyp
    let v1 := stampLoad v (portParty v loc) h
    let hit := loadHits v loc.site h (portCtx v loc) r.hyp (needMask false r.va)
    let old := lane b.data (r.va % 64 / 4)
    let new := e.2.2 d.addf old r.x r.y
    let stores := decide (new ≠ old) || decide (e.2.1 = 0x0F#8) || (decide (e.2.1 = 0x10#8) && decide (old = r.x))
    Completes (e.1 loc d) s fun t =>
      if b.psn then t = portDone (replyLands v1 loc e.2.1 d r [scalarTok 0#32 r.hyp r.refuted true] hit) loc d
      else
        let w := if stores then rmwBlock v1 loc d r.hyp h r.va (needMask false r.va) (wordBlock r.va new)
          else if r.hyp ≠ 0#6 ∨ (accScope v1 loc d h).toNat < 3 then
            loadInstall v1 (portParty v1 loc) loc.site h r.va (portCtx v1 loc) r.hyp (needMask false r.va) d.hint (accScope v1 loc d h) (homeBlock v h)
          else v1
        t = portDone (replyLands w loc e.2.1 d r [scalarTok old r.hyp r.refuted false] hit) loc d) ∧
  (∀ (loc : PortAt) (d : PortDesc) (s u v : State) (r : PReq) (tr : Trans) (ts : List Trans), d.sp = false → r.act = 0#2 →
    r.va % (if d.wid then 64 else 4) = 0 → r.va % 2 ^ tr.lg + 64 * d.rows ≤ 2 ^ tr.lg →
    let homes := (tr :: ts).map homeKey
    (∀ h, h ∈ homes → homeIsPeer h = false) →
    (Serves 0x11#8 loc d s u r → r.refuted = false → portXlates u loc r false r.va d.rows = (v, .ok (tr :: ts)) →
      let after (i : Nat) : State := (loadBlocks v loc d r r.va (homes.take i)).1
      Completes (.gath loc d) s fun t =>
        ∃ bs : List BlkVal, t = portDone (replyLands (after homes.length) loc 0x11#8 d r
            (bs.map (fun b => loadTok d.wid r.va r.mask r.hyp r.refuted b) ++ if d.roweot then [controlTok true 1#32 r.hyp r.refuted] else [])
            (allHit v loc r (needMask d.wid r.va) homes)) loc d ∧
          bs.length = homes.length ∧
          ∀ i h, homes[i]? = some h → bs[i]? = some (view (after i) (portParty (after i) loc) h (portCtx (after i) loc) r.hyp)) ∧
    (Serves 0x12#8 loc d s u r → (∃ k, k ∈ r.toks ∧ k.refuted = false) →
      portXlates u loc (rowReq r) true r.va d.rows = (v, .ok (tr :: ts)) →
      let xs := rowStores 0x12#8 d r.mask r.va (tr :: ts) r.toks
      ovlStop v loc ((xs.filter fun x => !x.refuted).map fun x => (x.hyp, x.home)) = none →
      (∀ i x, xs[i]? = some x → ∃ (tr' : Trans) (k : Token), (tr :: ts)[i]? = some tr' ∧ r.toks[i]? = some k ∧ x.va = r.va + 64 * i ∧ x.home = homeKey tr' ∧
        x.hyp = k.hyp ∧ x.refuted = k.refuted ∧ x.dat = storeData 0x12#8 d (r.va + 64 * i) r.mask k k) ∧
      exec (.scat loc d) s = .next (portDone (ackNow (xs.foldl (fun s x => storeOne s loc d x) v) loc 0x12#8 d r
        ((xs.filter fun x => !x.refuted).map fun x => countBits x.dat.mask).sum) loc d)) ∧
    (Serves 0x13#8 loc d s u r → (∃ k, k ∈ r.toks ∧ k.refuted = false) →
      portXlates u loc (rowReq r) true r.va d.rows = (v, .ok (tr :: ts)) →
      ovlStop v loc (((homes.zip r.toks).filter fun x => !x.2.refuted).map fun x => (x.2.hyp, x.1)) = none →
      let x := addRow loc d r 0 homes r.toks ⟨v, 0, false, []⟩
      (∀ i h k y, homeIsPeer h = false → addPlace loc d r i h k y =
        if k.refuted then { y with wait := y.wait ++ [k] }
        else
          let z := addOver loc d r.mask (r.va + 64 * i) h k (homeBlock y.s h) y.s
          { s := z.1, bytes := y.bytes + z.2.1, psn := y.psn || z.2.2, wait := y.wait ++ [{ k with refuted := true }] }) ∧
      exec (.scatadd loc d) s = .next (portDone (replyNow x.s loc 0x13#8 d r
        [scalarTok (BitVec.ofNat 32 (if x.psn then 0 else x.bytes)) r.hyp r.refuted x.psn]) loc d))) ∧
  ∀ (loc : PortAt) (d : PortDesc) (s u : State) (r : PReq), d.sp = true → r.act = 0#2 → r.va % (if d.wid then 64 else 4) = 0 →
    r.va + (if d.wid then 64 * d.rows else 4) ≤ spadSize →
    (Serves 0x11#8 loc d s u r →
      let row := (List.range d.rows).map fun i => loadTok d.wid r.va r.mask r.hyp r.refuted (spadBlock u loc.site (r.va + 64 * i))
      exec (.gath loc d) s = .next (portDone (replyNow u loc 0x11#8 d r
        (row ++ if d.roweot then [controlTok true 1#32 r.hyp r.refuted] else [])) loc d)) ∧
    (Serves 0x12#8 loc d s u r → rowBusy u loc r = false →
      let x := spStores 0x12#8 loc d r.mask r.va r.toks u
      exec (.scat loc d) s = .next (portDone (ackNow x.1 loc 0x12#8 d r x.2) loc d)) ∧
    (Serves 0x13#8 loc d s u r → rowBusy u loc r = false →
      let x := spAdds loc d r.mask r.va r.toks u
      exec (.scatadd loc d) s = .next (portDone (replyNow x.1 loc 0x13#8 d r
        [scalarTok (BitVec.ofNat 32 (if x.2.2 then 0 else x.2.1)) r.hyp r.refuted x.2.2]) loc d))

/-- For a port that serves a whole request at an offset that is a multiple of 16 within the scratchpad: SYNCSET, on a word that no wait
stands on and for which no addition waits, sets TARGET to X and COUNT and WAITERS to 0, keeps GEN and answers it; SYNCW with a free waiter
slot and a generation beyond V, as R86 says, answers GEN at once and leaves its slot free, and otherwise holds the slot with its bit set
in WAITERS. SYNC_ADD of a tile that has applied none in this cycle takes the addition that came first: COUNT grows, saturating; when it
reaches a nonzero TARGET, TARGET is taken off once and GEN rises by 1, and a remainder sets ESTAT bit 3; TARGET stays. What the rules
leave open is read as the model has it, its own choice: log 39, 40. -/
def Obligations.SyncWords : Prop :=
  (∀ (loc : PortAt) (d : PortDesc) (s u : State) (r : PReq), Serves 0x14#8 loc d s u r → r.act = 0#2 → r.va % 16 = 0 →
    r.va + 16 ≤ spadSize → (∀ w, w ∈ (getMt u loc.site).waiters → w.off % 16 = 0 ∧ w.off ≠ r.va) → syncBusy u loc.site r.va 16 = false →
    Completes (.syncset loc d) s fun t =>
      (∃ v, t = portDone (replyNow v loc 0x14#8 d r [scalarTok (syncGen u loc.site r.va) r.hyp r.refuted false]) loc d) ∧
      syncTarget t loc.site r.va = r.x ∧ syncCount t loc.site r.va = 0#32 ∧ syncWaiters t loc.site r.va = 0#32 ∧
      syncGen t loc.site r.va = syncGen u loc.site r.va) ∧
  (∀ (loc : PortAt) (d : PortDesc) (s u : State) (r : PReq) (slot : Nat), Serves 0x15#8 loc d s u r → r.act = 0#2 →
    let off := if d.sfix then d.soff.toNat else r.va
    let v := if d.sfix then r.v else r.x
    let gen := syncGen u loc.site off
    let age := (gen.toNat + 2 ^ 32 - v.toNat) % 2 ^ 32
    off % 16 = 0 → off + 16 ≤ spadSize → freeSlot (getMt u loc.site) = some slot →
    ((1 ≤ age ∧ age < 2 ^ 31) → (∀ w, w ∈ (getMt u loc.site).waiters → w.off ≠ off) →
      Completes (.syncw loc d) s fun t =>
        (getMt t loc.site).waiters = (getMt u loc.site).waiters ∧
        syncWaiters t loc.site off = syncWaiters u loc.site off &&& ~~~(1#32 <<< slot) ∧
        ∃ e, e ∈ (getPort t loc).replies ∧ e.landed = true ∧ e.toks = [scalarTok gen r.hyp r.refuted false]) ∧
    (¬ (1 ≤ age ∧ age < 2 ^ 31) → (∀ w, w ∈ (getMt u loc.site).waiters → w.off = off → syncSatisfied gen w.v = false) →
      Completes (.syncw loc d) s fun t =>
        (getMt t loc.site).waiters = (getMt u loc.site).waiters ++ [⟨slot, loc.port, off, v, r.hyp, r.refuted⟩] ∧
        syncWaiters t loc.site off = syncWaiters u loc.site off ||| (1#32 <<< slot) ∧ syncGen t loc.site off = gen)) ∧
  ∀ (site : Site) (s : State) (off amt : Nat) (q : List (Nat × Nat)), (getMt s site).syncq = (off, amt) :: q → syncFree s site = true →
    let target := (syncTarget s site off).toNat
    let sum := min ((syncCount s site off).toNat + amt) 0xFFFFFFFF
    let fires := decide (target ≠ 0) && decide (target ≤ sum)
    Completes (.syncAdd site) s fun t =>
      syncTarget t site off = syncTarget s site off ∧
      syncCount t site off = BitVec.ofNat 32 (if fires then sum - target else sum) ∧
      syncGen t site off = (if fires then syncGen s site off + 1#32 else syncGen s site off) ∧
      (getMt t site).syncq = q ∧
      (fires = true → sum ≠ target → ∀ i, ownerOf s site 0 = some i → ∃ j, j ∈ t.dist.insts ∧ j.id = i.id ∧ bitAt j.estat 3 = true) ∧
      ∀ a, memByte t a = memByte s a

/-- For a port that serves a whole, unrefuted request: STFL with ALL leaves every untagged line of the tile clean, with its data and valid
bytes as they were, and STINV with ALL leaves no untagged line; without ALL the same holds of the lines of the blocks named; PREF whose
HINT allocates nothing acknowledges 0, and one whose hint allocates, over blocks of this package, acknowledges the bytes that it installs.
REPLY_SEND with a landed reply first and a reply channel that can take a token in this cycle sends its first token; PORT_CONTROL_TOKEN
takes a control token from the port's channel and puts it behind the replies owed, or discards it where the port has no reply channel;
MEMORY_REPLY lands the oldest access that awaits memory. What the rules leave open is read as the model has it, its own choice: log 27. -/
def Obligations.FlushAndReplies : Prop :=
  (∀ (loc : PortAt) (d : PortDesc) (s u : State) (r : PReq), d.all = true → r.act = 0#2 → r.refuted = false →
    (Serves 0x17#8 loc d s u r →
      Completes (.stfl loc d) s fun t =>
        (∀ l, l ∈ (getMt t loc.site).lines → l.tag = 0#6 → l.dirty = 0#64) ∧
        (getMt t loc.site).lines.map (fun l => (l.home, l.tag, l.data, l.valid)) =
          (getMt u loc.site).lines.map fun l => (l.home, l.tag, l.data, l.valid)) ∧
    (Serves 0x18#8 loc d s u r →
      Completes (.stinv loc d) s fun t =>
        (getMt t loc.site).lines = (getMt u loc.site).lines.filter fun l => decide (l.tag ≠ 0#6))) ∧
  (∀ (loc : PortAt) (d : PortDesc) (s u v : State) (r : PReq) (ts : List Trans), d.all = false → r.act = 0#2 → r.refuted = false →
    r.va % (if d.wid then 64 else 4) = 0 → portXlates u loc r false r.va d.rows = (v, .ok ts) →
    (Serves 0x17#8 loc d s u r →
      Completes (.stfl loc d) s fun t =>
        ∀ l, l ∈ (getMt t loc.site).lines → l.tag = 0#6 → l.home ∈ ts.map homeKey → l.dirty = 0#64) ∧
    (Serves 0x18#8 loc d s u r →
      Completes (.stinv loc d) s fun t =>
        (getMt t loc.site).lines = (getMt v loc.site).lines.filter fun l => !(decide (l.tag = 0#6) && (ts.map homeKey).contains l.home)) ∧
    (Serves 0x16#8 loc d s u r → hintAlloc d.hint = true → (∀ h, h ∈ ts.map homeKey → homeIsPeer h = false) →
      let x := prefRow loc d r r.va (ts.map homeKey) v
      exec (.pref loc d) s = .next (portDone (replyLands x.1 loc 0x16#8 d r [scalarTok (BitVec.ofNat 32 x.2) r.hyp r.refuted false]
        ((ts.map homeKey).all fun h => !prefAbsent v loc r h)) loc d))) ∧
  (∀ (loc : PortAt) (d : PortDesc) (s u : State) (r : PReq), Serves 0x16#8 loc d s u r → hintAlloc d.hint = false →
    exec (.pref loc d) s = .next (portDone (ackNow u loc 0x16#8 d r 0) loc d)) ∧
  (∀ (loc : PortAt) (s : State) (e : ReplyEnt) (tok : Token) (more : List Token),
    (getPort s loc).replies.find? (fun e => !e.silent s loc) = some e → e.toks = tok :: more → e.landed = true → e.after = [] →
    regionRuns (ownerOf s loc.site 0) = true → (getMt s loc.site).halted = false → dieStops s loc.site = false →
    let ch := portReply s loc
    sendReady s loc.site ch.1 ch.2 = true →
    Completes (.replySend loc.site loc.port) s fun t =>
      (getBuf t (inKey loc.site ch.1 ch.2)).q = (getBuf s (inKey loc.site ch.1 ch.2)).q ++ [(tok, localAt s loc.site ch.1 + 1)] ∧
      (getPort t loc) = { getPort s loc with replies := dropReplyTok s loc (getPort s loc).replies } ∧ MemSame s t) ∧
  (∀ (loc : PortAt) (s : State) (tok : Token), portMayRun s loc = true →
    let key := endKey loc.site loc.port.toNat
    headToTake s key = some tok → tok.ctrl = true → tok.isMarkOrSwitch = false →
    Completes (.portControlToken loc.site loc.port) s fun t =>
      (getBuf t key).q = (getBuf s key).q.tail ∧ MemSame s t ∧
      (portRused s loc = false → (getPort t loc).replies = (getPort s loc).replies) ∧
      (portRused s loc = true → (getPort s loc).part = [] →
        ∃ e, (getPort t loc).replies = (getPort s loc).replies ++ [e] ∧ e.toks = [tok] ∧ e.landed = true) ∧
      (portRused s loc = true → (getPort s loc).part ≠ [] → (getPort t loc).held = (getPort s loc).held ++ [tok])) ∧
  ∀ (loc : PortAt) (s : State) (before : List ReplyEnt) (e : ReplyEnt) (behind : List ReplyEnt),
    (getPort s loc).replies = before ++ e :: behind → (∀ x, x ∈ before → x.landed = true ∨ x.remote ≠ []) → e.landed = false →
    e.remote = [] →
    exec (.memoryReply loc.site loc.port) s =
      .next (setPort s loc { getPort s loc with replies := before ++ { e with landed := true } :: behind })

/-- At an engine that is not halted, on a die that runs: ENGINE_CMD_WORD takes the token at an engine's cmd input that may be taken in
this cycle: a vector token becomes a job that has reached its die's distributor, the last in this cycle so far, with the word in its low
128 bits and the token's hypothesis, a scalar token a job that has ended with BADCMD, and a control token none. JOB_START starts the job
that its scheduler picks, and no other. JOB_END of an ended job whose RDV channel can take a token in this cycle removes the job and no
other, adds 1 to its completion counter, enqueues RDV with its argument where the engine has that channel, and ORs its status into its
node; where the channel cannot, the release and the final sync addition are made, once, and the job stays. Each completes. What the rules
leave open is read as the model has it, its own choice: log 42, 43, 44, 46. -/
def Obligations.EngineJobs : Prop :=
  (∀ (site : Site) (s : State) (tok : Token), bitAt (engBinding s site) 32 = true → regionRuns (ownerOf s site 0) = true →
    engHalted s (site.setWidth 13) = false → dieStops s site = false → headToTake s (endKey site 0) = some tok → tok.isMarkOrSwitch = false →
    Completes (.engineCmdWord site) s fun t =>
      (getBuf t (endKey site 0)).q = (getBuf s (endKey site 0)).q.tail ∧ MemSame s t ∧
      t.dist.jobs = s.dist.jobs ∧ (tok.ctrl = true → t.dist.arrived = s.dist.arrived) ∧
      (tok.ctrl = false → ∃ j, t.dist.arrived = s.dist.arrived ++ [(site, j)] ∧ j.eng = site.setWidth 13 ∧ j.hyp = tok.hyp ∧
        j.prog = false ∧ j.word = bits tok.pay 0 128 ∧ j.ended = !tok.vec ∧ j.status = (if tok.vec then 0#16 else 1#16))) ∧
  (∀ (eng : EngId) (s : State) (j : Job) (anew : Bool), pickJob s eng = some (j, anew) →
    engHalted s eng = false → (eng.toNat < 4096 → dieStops s (bits eng 0 12) = false) →
    Completes (.jobStart eng) s fun t =>
      j ∈ s.dist.jobs ∧ j.eng = eng ∧ startable s j = true ∧
      t.dist.jobs = s.dist.jobs.map (fun k =>
        if k.id = j.id then { k with started := true, run := if k.run.fresh then { CmdRun.empty with arr := now s } else k.run } else k) ∧
      t = { s with dist := { s.dist with jobs := t.dist.jobs, sched := t.dist.sched } }) ∧
  ∀ (eng : EngId) (s : State) (j : Job), s.dist.jobs.find? (fun j => decide (j.eng = eng) && j.ended && !jobParked s j) = some j →
    engHalted s eng = false →
    let site : Site := bits eng 0 12
    let key := inKey site 8 (bits (engBinding s site) 20 4).toNat
    (rdvReady s j = false →
      (j.released = true → exec (.jobEnd eng) s = .next s) ∧
      (j.released = false →
        exec (.jobEnd eng) s = .next (modJob (sjAdd (releaseJob s j) j (jobWord s j)) j.id fun k => { k with released := true }))) ∧
    (rdvReady s j = true → Completes (.jobEnd eng) s fun t =>
      t.dist.jobs = s.dist.jobs.filter (fun k => decide (k.id ≠ j.id)) ∧
      (∀ x task c, j.cc = some (x, task, c) →
        vget 0#32 (getTask t x task).cc c.toNat = vget 0#32 (getTask s x task).cc c.toNat + 1#32) ∧
      (eng.toNat < 4096 → bitAt (engBinding s site) 35 = true →
        (getBuf t key).q = (getBuf s key).q ++ [(controlTok (!bitAt (engBinding s site) 28) (j.arg ++ 0x13#8) j.hyp false, localAt s site 8 + 1)]) ∧
      ∀ i n, jobInst s j = some i → n ∈ s.dist.nodes → n.id = i.node →
        ∃ m, m ∈ t.dist.nodes ∧ m.id = n.id ∧ m.jobst = n.jobst ||| j.status ∧ m.afl = n.afl ||| bits j.status 9 6)

/-- MX_COMMAND_START in a cycle in which the array is free starts the startable command that arrived first. For a started command of its
job: MXVER sets its slot's version and no other; MXZERO writes +0 to the 4,096 elements of its slot, leaves every other element, and
advances the version; MXLDB with DIN stores the block of its next data token at WOFF + i, or +0 with descriptor 0x00FF for a poisoned one;
MXMUL and MXMULO of a token and a tile with good descriptors add to each column of the next row the products of the A token's elements and
the column's, with one rounding, leave every other element, and after the last slice advance the version; MXDRN sends the next token of
the slot's rows and after the last one advances the version. Each completes. What the rules leave open is read as the model has it, its
own choice: log 46, 47, 49, 50. -/
def Obligations.MatrixCommands : Prop :=
  (∀ (site : Site) (s : State) (j : Job), (getMx s site).startNext ≤ now s →
    ((mxRunning s (site.setWidth 13)).any fun j => mxIsMul (jobWord s j)) = false →
    earliest (mxStartable s (site.setWidth 13)) = some j →
    Completes (.mxCommandStart site) s fun t =>
      j ∈ mxStartable s (site.setWidth 13) ∧ (∀ k, k ∈ mxStartable s (site.setWidth 13) → j.run.arr ≤ k.run.arr) ∧
      getMx t site = { getMx s site with startNext := now s + 1 } ∧
      t.dist.jobs = s.dist.jobs.map fun k => if k.id = j.id then { k with run := { k.run with started := true, at0 := now s } } else k) ∧
  ∀ (eng : EngId) (c : Cmd) (s : State) (j : Job), j.run.started = true →
    let site : Site := bits j.eng 0 12
    let m := getMx s site
    let slot := (bits c.ops 85 3).toNat
    let acted (t : State) : Prop := ∀ k, k ∈ t.dist.jobs → k.id = j.id → k.run.acted = true
    (AtCommand s eng 0x15#8 c j →
      Completes (.mxver eng c) s fun t => getMx t site = { m with ver := vset m.ver slot (bits c.ops 69 16) } ∧ acted t) ∧
    (AtCommand s eng 0x14#8 c j →
      Completes (.mxzero eng c) s fun t =>
        (∀ x r n, x < 8 → r < 64 → n < 64 → accAt (getMx t site) x r n = (if x = slot then 0#32 else accAt m x r n)) ∧
        (getMx t site).ver = vset m.ver slot (vget 0#16 m.ver slot + 1#16) ∧ acted t) ∧
    (∀ tok, AtCommand s eng 0x10#8 c j → j.run.awaits = [] → j.refuted = false → bitAt c.ops 61 = true →
      j.run.i < (bits c.ops 62 13).toNat + 1 →
      dataTurn s j = true → dataHead s j = some tok → tok.ctrl = false →
      Completes (.mxldb eng c) s fun t =>
        let at0 := (bits c.ops 75 13).toNat + j.run.i
        weight (getMx t site) at0 = (if tok.psn then (0#512, 0x00FF#16) else (tok.block.data, tok.block.desc)) ∧
        (∀ i, i ≠ at0 → weight (getMx t site) i = weight m i) ∧ (getMx t site).acc = m.acc ∧
        (getBuf t (endKey site 1)).q = (getBuf s (endKey site 1)).q.tail) ∧
    (∀ (op : EngId → Cmd → Instr) (opc : BitVec 8) (tok : Token), ((op = .mxmul ∧ opc = 0x11#8) ∨ (op = .mxmulo ∧ opc = 0x12#8)) →
      AtCommand s eng opc c j →
      let x := mulArgs c.ops
      let base := x.base + j.run.i * mxTileBlocks x.sp (BitVec.ofNat 2 x.kind)
      let fmts := fmtsOf (jobNode s j)
      let as := (List.range (kindK x.kind)).map fun k => kindElem fmts x.kind tok.block.data tok.block.desc k
      (j.run.i < x.slices → j.run.j < 64 → dataTurn s j = true → dataHead s j = some tok → tok.ctrl = false →
        kindDesc x.kind tok.block.desc = true → tileBad x.kind x.sp m base = false →
        Completes (op eng c) s fun t =>
          (∀ y r n, y < 8 → r < 64 → n < 64 → accAt (getMx t site) y r n =
            (if y = slot ∧ r = j.run.j then
              (dotRound rne (as.zip (column fmts x.kind x.sp m base n)) (v32 (accAt m slot r n))).1 else accAt m y r n)) ∧
          (getMx t site).ver = m.ver ∧ (getBuf t (endKey site 1)).q = (getBuf s (endKey site 1)).q.tail) ∧
      (x.slices ≤ j.run.i →
        Completes (op eng c) s fun t =>
          getMx t site = { m with ver := vset m.ver slot (vget 0#16 m.ver slot + 1#16) } ∧ acted t)) ∧
    (AtCommand s eng 0x13#8 c j →
      let key := inKey site 8 (bits (engBinding s site) 16 4).toNat
      (j.run.i < drainCount c.ops → bitAt (engBinding s site) 34 = true → sendReady s site 8 (bits (engBinding s site) 16 4).toNat = true →
        let x := drainToken (fmtsOf (jobNode s j)) c.ops m j.run.i
        Completes (.mxdrn eng c) s fun t =>
          (getBuf t key).q = (getBuf s key).q ++ [(vectorTok x.1 0xFFFF#16 x.2 j.hyp j.refuted false, localAt s site 8 + 1)] ∧ getMx t site = m) ∧
      (drainCount c.ops ≤ j.run.i →
        Completes (.mxdrn eng c) s fun t =>
          (∀ y r n, y < 8 → r < 64 → n < 64 → accAt (getMx t site) y r n =
            (if y = slot ∧ bitAt c.ops 58 = true ∧ r < (bits c.ops 43 6).toNat + 1 then 0#32 else accAt m y r n)) ∧
          (getMx t site).ver = vset m.ver slot (vget 0#16 m.ver slot + 1#16) ∧ acted t))

/-- For a command of a summary tree engine that has its descriptor and all its tokens: when its work comes to its end, the command answers
a next state with the storage, the stashes and the scratchpads as the work has left them, its job's effect made and its tokens waiting to
be sent; when its work finds the node pool too small (R416), nothing has been written but the marks of its page walks, and the job ends
with NODEPOOL. Of a live job whose accesses go through: TNEW writes the header of every node as free, each naming the next, and then
STRIDE, FREE 0, NFREE, LEVELS 0 and TOKENS 0; TAPP to an empty tree takes the node at FREE as an open leaf, stores key and value in its
slot 0 and the token at LOG, and writes the descriptor with one level and one token more; TSEAL of an empty tree writes nothing, and of an
open root leaf its centroids and radius, with OPEN clear and SEALED set; TATT of an empty tree writes the record with M = −inf, Z = 0 and
EMPTY, and zero vectors; TFORK of an empty tree writes the destination descriptor; TFREE of a tree whose root is shared drops one
reference to it and writes LEVELS 0. Each makes its effect and sends nothing. TSTAT's work always ends: one token with TOKENS, LEVELS,
ROOT, NFREE and FREE in lanes 0 to 4, and nothing written; and so does that of a TEVICT of an empty range, with both counts 0. What the
rules leave open is read as the model has it, its own choice: log 12, 52 to 60, 160, 183 to 187. -/
def Obligations.SummaryTreeCommands : Prop :=
  (∀ x, x ∈ treeCommands → ∀ (eng : EngId) (c : Cmd) (s : State) (j : Job) (a b : Token) (toks : List Token),
    AtCommand s eng x.2.1 c j → j.run.taken = a :: b :: toks →
    let d := joinBlocks a.pay b.pay
    let w := newWork s j (bits c.ops 0 56).toNat d j.hyp
    x.2.2.1 d ≤ toks.length →
    (∀ (out : List Token) (w' : Work), WorkEnds w (x.2.2.2 c toks) out w' →
      Completes (x.1 eng c) s fun t =>
        t.store = w'.s.store ∧ t.fab = w'.s.fab ∧ t.hyps = w'.s.hyps ∧ t.links = w'.s.links ∧
        t.dist.jobs.length = w'.s.dist.jobs.length ∧
        ∀ k, k ∈ t.dist.jobs → k.id = w'.job.id → k.run.acted = true ∧ k.run.outq = out) ∧
    (∀ w', (x.2.2.2 c toks >>= fun o => wFlush d >>= fun _ => pure o).run.run w = (.error .pool, w') →
      Completes (x.1 eng c) s fun t => t.store = (keptWalks s w').store ∧ t.fab = (keptWalks s w').fab ∧ JobActed (keptWalks s w') t j 32#16 [] ∧
        ∀ k, k ∈ t.dist.jobs → k.id = j.id → k.run.ends = true)) ∧
  (∀ (eng : EngId) (c : Cmd) (s : State) (j : Job) (a b : Token) (toks : List Token), j.refuted = false → j.run.taken = a :: b :: toks →
    let d : TreeDesc := joinBlocks a.pay b.pay
    let va := (bits c.ops 0 56 : BitVec 56).toNat
    let node := nodeAt d d.root
    let made (u t : State) : Prop := t.store = u.store ∧ t.fab = u.fab ∧ JobActed u t j 0#16 []
    (∀ v u, let d' : TreeDesc := setBits (setBits (setBits (setBits (setBits d 384 (BitVec.ofNat 16 (d.size / 64))) 352 0#32) 416
          (BitVec.ofNat 32 d.nodes)) 160 0#32) 312 0#8
      AtCommand s eng 0x30#8 c j → d' ≠ d → linkedFree j d d.nodes 0 s = some v →
      afterAll j (leavePool (dropBodies v fun x => decide (x.tenant = jobTenant v j) && decide (d.pool ≤ x.va) &&
        decide (x.va < d.pool + d.nodes * d.size)) (jobTenant v j) d.pool) (pairWrite va d') = some u → soleOwner u j d va →
      Completes (.tnew eng c) s (made u)) ∧
    (∀ (old : Hdr) (tok : Token) (kv : List Token) v u,
      let leaf : Hdr := allocHdr v.free 0 d.tokens none
      let at0 := nodeAt d d.free
      let d' : TreeDesc := setBits (setBits (setBits (setBits (setBits d 352 old.parent) 416 (BitVec.ofNat 32 (d.nfree - 1))) 128
          (BitVec.ofNat 32 d.free)) 312 1#8) 160 (BitVec.ofNat 32 (d.tokens + 1))
      let word := (d.log + 4 * d.tokens) % 2 ^ 56
      let keys := (kv.take (vecBlocks d.ktype d.kfmt d.dim)).map Token.block
      let vals := (kv.drop (vecBlocks d.ktype d.kfmt d.dim)).map Token.block
      AtCommand s eng 0x31#8 c j → toks = tok :: kv → kv.length = vecBlocks d.ktype d.kfmt d.dim + vecBlocks d.vtype d.vfmt d.dim →
      d.levels = 0 → 1 ≤ d.nfree → d.free < d.nodes → afterAll j s (pairRead at0 old) = some v →
      afterAll j { v with free := v.free + 1 } (pairWrite at0 leaf ++ pairRead at0 leaf ++ slotWrites d d.free 0 false keys ++
        slotWrites d d.free 0 true vals ++ pairRead at0 leaf ++ pairWrite at0 (leaf.setNch 1) ++ pairRead at0 (leaf.setNch 1) ++
        pairWrite at0 ((leaf.setNch 1).put 0 1) ++
        [.wr (word / 64 * 64) (needMask false word) (wordBlock word (lane tok.block.data 0)) none] ++ pairWrite va d') = some u →
      soleOwner u j d va → Completes (.tapp eng c) s (made u)) ∧
    (AtCommand s eng 0x32#8 c j → d.levels = 0 → Completes (.tseal eng c) s (made s)) ∧
    (∀ (root : Hdr) v (ck cv : List Word) (radius : Word) (w : Work) u,
      AtCommand s eng 0x32#8 c j → d.levels = 1 → d.root < d.nodes → root.level = 0 → root.nch ≤ d.leafCap → root.isSealed = false →
      afterAll j s (pairRead node root ++ pairRead node root) = some v →
      (sealLeaf d.root root.nch none).run.run { newWork v j va d j.hyp with
        seen := [(node + 64, false), (node, false), (node + 64, false), (node, false)] } = (.ok (ck, cv, radius), w) →
      w.job = j → w.desc = d → w.hyp = j.hyp →
      afterAll j w.s (vecWrites (centAt d d.root false) ck ++ vecWrites (centAt d d.root true) cv ++ pairRead node root ++
        pairWrite node (((root.put 128 radius.toNat).flag 40 false).flag 41 true)) = some u →
      Completes (.tseal eng c) s (made u)) ∧
    (∀ u, AtCommand s eng 0x33#8 c j → vecBlocks (queryType d) 0#8 d.dim ≤ toks.length → d.levels = 0 →
      let out := relAddr va (bits c.ops 56 32)
      let zeros : List Word := List.replicate d.dim 0#32
      afterAll j s (.wr out (BitVec.allOnes 64) (setBits (setBits 0#512 0 0xFF800000#32) 178 1#1) none ::
        vecWrites (out + 64) zeros ++ vecWrites (out + 64 + ceil64 (4 * d.dim)) zeros) = some u →
      Completes (.tatt eng c) s (made u)) ∧
    (∀ (tok : Token) u, AtCommand s eng 0x34#8 c j → toks = [tok] → d.levels = 0 →
      let p := lane tok.block.data 0
      let dst := relAddr va (bits c.ops 56 32)
      p.toNat ≤ d.tokens → afterAll j s (pairWrite dst (setBits (setBits d 160 p) 128 (BitVec.ofNat 32 d.root))) = some u →
      Completes (.tfork eng c) s fun t => made u t ∧ ∀ x, x = va ∨ x = dst → (jobTenant u j, d.pool, x) ∈ t.hyps.trees) ∧
    ∀ (root : Hdr) u, AtCommand s eng 0x36#8 c j → d.levels ≠ 0 → d.root < d.nodes → root.level + 1 = d.levels →
      root.nch ≤ (if root.level = 0 then d.leafCap else d.fan) → 2 ≤ root.refs →
      afterAll j s (pairRead node root ++ pairWrite node (root.setRefs (root.refs - 1)) ++ pairWrite va (setBits d 312 0#8)) = some u →
      Completes (.tfree eng c) s (made u)) ∧
  (∀ (eng : EngId) (c : Cmd) (s : State) (j : Job) (a b : Token), AtCommand s eng 0x37#8 c j → j.run.taken = [a, b] →
    let d : TreeDesc := joinBlocks a.pay b.pay
    Completes (.tstat eng c) s fun t =>
      t.store = s.store ∧ t.fab = s.fab ∧
      ∃ tok, JobActed s t j 0#16 [tok] ∧ tok.vec = true ∧ tok.mask = 0x001F#16 ∧ tok.hyp = j.hyp ∧
        lane tok.pay 0 = bits d 160 32 ∧ lane tok.pay 1 = (bits d 312 8).setWidth 32 ∧ lane tok.pay 2 = bits d 128 32 ∧
        lane tok.pay 3 = bits d 416 32 ∧ lane tok.pay 4 = bits d 352 32) ∧
  ∀ (eng : EngId) (c : Cmd) (s : State) (j : Job) (a b lo hi : Token), AtCommand s eng 0x35#8 c j → j.run.taken = [a, b, lo, hi] →
    lane hi.block.data 0 ≤ lane lo.block.data 0 →
    Completes (.tevict eng c) s fun t =>
      t.store = s.store ∧ t.fab = s.fab ∧
      ∃ tok, JobActed s t j 0#16 [tok] ∧ lane tok.pay 0 = 0#32 ∧ lane tok.pay 1 = 0#32 ∧ tok.mask = 0x0003#16

/-- For a command of a hash probe unit that has its descriptor and all its tokens, whose set descriptor as it stands now is readable and
within its limits: when its work comes to its end, the command answers a next state with the storage and the unit's slots as the work has
left them, its job's effect made and its tokens waiting to be sent. HFAM, HINS, HDEL and HREH under a nonzero hypothesis are held instead
and change nothing else; a held update of a refuted job ends it with REFUTED; and a set slot that no HFAM has bound, nor one held before
it will bind, makes every command but HFAM BADCMD. Of a set whose descriptor is readable: HPROBE of a set with no valid version sends EOT
alone, and HSTAT of one with an empty pool list sends one token with the registers, the cursor, 0 and the three counts; neither writes.
What the rules leave open is read as the model has it, its own choice: log 54, 61 to 71. -/
def Obligations.HashProbeCommands : Prop :=
  (∀ x, x ∈ setCommands → ∀ (eng : EngId) (c : Cmd) (s : State) (j : Job) (a b : Token) (toks : List Token) (va : Nat)
      (d : BitVec 1024) (v w' : Work) (out : List Token),
    AtCommand s eng x.2.1 c j → j.run.held = false → j.run.ends = false → j.run.taken = a :: b :: toks →
    hpuFull x.2.1 c (joinBlocks a.pay b.pay) toks = true → (hpuUpdates x.2.1 = false ∨ j.hyp = 0#6) → hpuVa s x.2.1 j c = some va →
    (wPair va).run.run (newWork s j va 0#1024 0#6) = (.ok (d, true), v) → SetDesc.ok d = true →
    WorkEnds { newWork v.s j va d 0#6 with status := v.status } (x.2.2 c toks) out w' →
    Completes (x.1 eng c) s fun t =>
      t.store = w'.s.store ∧ t.fab = w'.s.fab ∧ t.links = w'.s.links ∧ t.dist.jobs.length = w'.s.dist.jobs.length ∧
      ∀ k, k ∈ t.dist.jobs → k.id = w'.job.id → k.run.acted = true ∧ k.run.outq = out) ∧
  (∀ x, x ∈ setCommands → ∀ (eng : EngId) (c : Cmd) (s : State) (j : Job) (a b : Token) (toks : List Token),
    AtCommand s eng x.2.1 c j → j.run.held = false → j.run.ends = false → j.run.taken = a :: b :: toks →
    hpuFull x.2.1 c (joinBlocks a.pay b.pay) toks = true → (x.2.1 = 0x40#8 ∨ x.2.1 = 0x41#8 ∨ x.2.1 = 0x42#8 ∨ x.2.1 = 0x44#8) →
    j.hyp ≠ 0#6 →
    exec (x.1 eng c) s = .next (modRun s j.id fun r => { r with held := true })) ∧
  (∀ (eng : EngId) (c : Cmd) (s : State) (j : Job) (a b : Token) (toks : List Token) (va : Nat) (d : BitVec 1024) (v : Work),
    j.run.held = false → j.run.ends = false → j.run.taken = a :: b :: toks →
    (wPair va).run.run (newWork s j va 0#1024 0#6) = (.ok (d, true), v) → SetDesc.ok d = true →
    let sl := vget SetSlot.empty (getHpu v.s (bits j.eng 0 12)).slots (bits c.ops 56 4).toNat
    (AtCommand s eng 0x43#8 c j → hpuVa s 0x43#8 j c = some va → hpuFull 0x43#8 c (joinBlocks a.pay b.pay) toks = true → liveRegs d sl = [] →
      Completes (.hprobe eng c) s fun t =>
        t.store = v.s.store ∧ t.fab = v.s.fab ∧ JobActed v.s t j 0#16 [controlTok false 1#32 j.hyp j.refuted]) ∧
    (AtCommand s eng 0x45#8 c j → hpuVa s 0x45#8 j c = some va → (bits d 384 32 : Word) = 0xFFFFFFFF#32 →
      Completes (.hstat eng c) s fun t =>
        t.store = v.s.store ∧ t.fab = v.s.fab ∧ ∃ tok, JobActed v.s t j 0#16 [tok] ∧ tok.vec = true ∧ tok.mask = 0x003F#16 ∧
          lane tok.pay 0 = (sl.reg (SetDesc.curReg d)).version ++ (0#8 ++ (bits d 188 4 ++ bits d 184 4 : Byte)) ∧ lane tok.pay 1 = bits d 224 32 ∧
          lane tok.pay 2 = 0#32 ∧ lane tok.pay 3 = sl.refused ∧ lane tok.pay 4 = sl.displaced ∧ lane tok.pay 5 = sl.absent)) ∧
  (∀ x, x ∈ setCommands → ∀ (eng : EngId) (c : Cmd) (s : State) (j : Job), AtCommand s eng x.2.1 c j → j.run.held = true →
    j.refuted = true → exec (x.1 eng c) s = .next (endJob s j 2#16)) ∧
  ∀ x, x ∈ setCommands → x.2.1 ≠ 0x40#8 → ∀ (eng : EngId) (c : Cmd) (s : State) (j : Job), AtCommand s eng x.2.1 c j →
    j.run.held = false → j.run.taken = [] → hpuVa s x.2.1 j c = none →
    exec (x.1 eng c) s = .next (killCommand s j 1#16 true 0)

/-- For a copy command with its descriptor and no answer awaited, and no addition waiting for a sync word that it would write past: when
all its blocks have landed it makes its effect, its engine is free, and CPCHAIN's CHCMD, a job of its MX, has reached the distributor from
the engine's site; a block in hand for a scratchpad stands at its destination with its descriptor, no other byte of a scratchpad changing
while no wait is armed on the block; CPFILL's block holds its pattern in every word; CPGET requests its next blocks of the peer and CPPUT
sends those in hand, 4, 2 or 1, and awaits the answer. CPRED that receives in its first phase adds the whole message to BUF, word by word;
CPRED and CPBAR that have made all their acts, CPBAR once the writes of its release have arrived, have made their effect.
COLLECTIVE_MESSAGE whose answers find room puts a message last into the inbox, or joins a part to the message that it continues. What the
rules leave open is read as the model has it, its own choice: log 32, 48, 51, 72 to 76. -/
def Obligations.CopyEngineCommands : Prop :=
  (∀ x, x ∈ copyCommands → ∀ (eng : EngId) (c : Cmd) (s : State) (j : Job) (d0 : Token) (toks : List Token),
    AtCommand s eng x.2 c j → j.refuted = false → j.run.taken = d0 :: toks → j.run.awaits = [] →
    let d : CopyDesc := d0.pay
    let site : Site := bits j.eng 0 12
    (d.blocks ≤ j.run.i → (x.2 = 0x22#8 → d.syncv = true → syncBusy s d.syncSite d.syncOff 16 = false) →
      Completes (x.1 eng c) s fun t =>
        (getCp t site).running = false ∧ t.store = s.store ∧
        (∀ k, k ∈ t.dist.jobs → k.id = j.id → k.run.acted = true) ∧
        (x.2 = 0x22#8 → ∃ k, t.dist.arrived = s.dist.arrived ++ [(site, k)] ∧ k.eng = d.chSite.setWidth 13 ∧ k.word = d.chcmd)) ∧
    (∀ tok more, toks = tok :: more → j.run.i < d.blocks → x.2 ≠ 0x23#8 → d.dkind = 1 →
      let off := spadAt d d.dst d.dstr j.run.i
      off % 64 = 0 → off + 64 ≤ spadSize → NoWait s d.dstSite off → syncBusy s d.dstSite off 64 = false →
      Completes (x.1 eng c) s fun t =>
        (∀ i, i < spadSize → spadByte t d.dstSite i =
          (if off ≤ i ∧ i < off + 64 then blockByte tok.pay (i - off) else spadByte s d.dstSite i)) ∧
        spadDescOf t d.dstSite off = tok.desc ∧ spadPoisoned t d.dstSite off = tok.psn ∧
        (∀ y i, y ≠ d.dstSite → i < spadSize → spadByte t y i = spadByte s y i) ∧ (∀ i, memByte t i = memByte s i) ∧
        ∃ k, k ∈ t.dist.jobs ∧ k.id = j.id ∧ k.run.i = j.run.i + 1)) ∧
  (∀ (eng : EngId) (c : Cmd) (s : State) (j : Job) (d0 : Token), AtCommand s eng 0x21#8 c j → j.refuted = false → j.run.taken = [d0] →
    j.run.awaits = [] → j.run.i < CopyDesc.blocks d0.pay →
    Completes (.cpfill eng c) s fun t =>
      ∀ k, k ∈ t.dist.jobs → k.id = j.id → ∃ tok, k.run.taken.getLast? = some tok ∧ tok.desc = bits d0.pay 32 16 ∧
        ∀ l, l < 16 → lane tok.pay l = lane d0.pay 0) ∧
  (∀ (eng : EngId) (c : Cmd) (s : State) (j : Job) (d0 : Token), AtCommand s eng 0x24#8 c j → j.refuted = false → j.run.taken = [d0] →
    j.run.awaits = [] → let d : CopyDesc := d0.pay
    j.run.i < d.blocks →
    Completes (.cpget eng c) s fun t =>
      ∃ q, t.links.remotes = s.links.remotes ++ [q] ∧ q.who = .job j.id ∧ q.kind = 6#3 ∧ q.node = d.node ∧
        q.blocks = pieceOf (spadAt d d.src d.sstr j.run.i) (rowRest d j.run.i)) ∧
  (∀ (eng : EngId) (c : Cmd) (s : State) (j : Job) (d0 : Token) (toks : List Token), AtCommand s eng 0x23#8 c j → j.refuted = false →
    j.run.taken = d0 :: toks → j.run.awaits = [] → let d : CopyDesc := d0.pay
    let n := pieceOf (spadAt d d.dst d.dstr j.run.i) (rowRest d j.run.i)
    j.run.i < d.blocks → n ≤ toks.length →
    Completes (.cpput eng c) s fun t =>
      ∃ q, t.links.remotes = s.links.remotes ++ [q] ∧ q.who = .job j.id ∧ q.kind = 5#3 ∧ q.node = d.node ∧ q.blocks = n) ∧
  (∀ (eng : EngId) (c : Cmd) (s : State) (j : Job) (d0 : Token) (m : PeerMsg) (k : Nat), AtCommand s eng 0x25#8 c j →
    j.run.taken = [d0] → j.run.j ≠ 0 → let d : RedDesc := d0.pay
    (collActs d.rank d.nrank)[j.run.i]? = some (.recvAdd k) → s.links.inbox.find? (msgFor s j d k 0#1) = some m →
    m.nrank.toNat = d.nrank → m.op = d.op → m.len.toNat = d.len → d.len % 64 = 0 → d.bufOff % 64 = 0 → d.stgOff % 64 = 0 →
    d.bufOff + d.len ≤ spadSize → d.stgOff + d.len ≤ spadSize →
    (d.stgSite ≠ d.bufSite ∨ d.stgOff + d.len ≤ d.bufOff ∨ d.bufOff + d.len ≤ d.stgOff) →
    (getMt s d.stgSite).waiters = [] → (getMt s d.bufSite).waiters = [] →
    syncBusy s d.stgSite d.stgOff d.len = false → syncBusy s d.bufSite d.bufOff d.len = false → spadAnyPsn s d.bufSite d.bufOff (d.len / 64) = false →
    Completes (.cpred eng c) s fun t =>
      (∀ e, 4 * e < d.len →
        let x := spadWord s d.bufSite (d.bufOff + 4 * e)
        let y := BitVec.ofNat 32 (leNat ((m.data.drop (4 * e)).take 4))
        spadWord t d.bufSite (d.bufOff + 4 * e) = (if d.op = 0#2 then (fadd 0#2 x y).1 else x + y)) ∧
      t.links.inbox = s.links.inbox.erase m) ∧
  (∀ (op : EngId → Cmd → Instr) (opc : BitVec 8) (eng : EngId) (c : Cmd) (s : State) (j : Job) (d0 : Token),
    ((op = .cpred ∧ opc = 0x25#8) ∨ (op = .cpbar ∧ opc = 0x26#8)) → AtCommand s eng opc c j → j.run.taken = [d0] → j.run.j ≠ 0 →
    let d : RedDesc := d0.pay
    (collActs d.rank d.nrank).length ≤ j.run.i → (opc = 0x26#8 → writesAway s j.inst = false) →
    Completes (op eng c) s fun t => ∀ k, k ∈ t.dist.jobs → k.id = j.id → k.run.acted = true) ∧
  ∀ s : State, answerRoom s (s.opnd 15 12) = true → Completes .collectiveMessage s fun t =>
    ∃ m : PeerMsg, m.tenant = s.opnd 0 16 ∧ m.coll = s.opnd 2 8 ∧ m.src = s.opnd 3 12 ∧ m.dst = s.opnd 5 12 ∧ m.node = s.opnd 15 12 ∧
      m.data = s.input.drop 17 ∧ MemSame s t ∧
      ((∀ x, x ∈ s.links.inbox → x.same m = true → x.whole = true) → t.links.inbox = s.links.inbox ++ [m]) ∧
      ∀ before x behind, s.links.inbox = before ++ x :: behind → (∀ y, y ∈ before → y.same m = true → y.whole = true) →
        x.same m = true → x.whole = false → t.links.inbox = before ++ { x with data := x.data ++ m.data } :: behind

/-- For a live job at the controller: HYPNEW of a dead child above a live parent makes the child live under that parent and changes no
other id, and otherwise sets TOPOLOGY and changes no id; CONFIRM of a live id other than 0 makes it dead, gives its children its parent,
leaves every other id, and names its tasks by the parent; REFUTE makes the id and all its descendants dead, leaves every other id, leaves
no stash line or overlay entry of a dead id, and orphans their tasks under the parent; each makes its effect once every write-back of its
resolution has reached its tier; either of id 0 or a dead id ends its job with BADCMD; HYPQRY writes for each id 0x80 with its parent, or
0 where it is not live. OVERLAY_ENLARGE for a store held back in this cycle doubles the overlay within its limit and its owner's reserve,
whose segments it takes, and at the limit refutes the store's hypothesis; with none held back it changes nothing. What the rules leave
open is read as the model has it, its own choice: log 45, 138, 139, 162. -/
def Obligations.HypothesisCommands : Prop :=
  (∀ (eng : EngId) (c : Cmd) (s : State) (j : Job), AtCommand s eng 0x50#8 c j →
    let ctx := ctxOf (jobNode s j)
    let parent : BitVec 6 := bits c.ops 8 6
    let child : BitVec 6 := bits c.ops 0 6
    let ok := parent < child ∧ hypLive s ctx child = false ∧ hypLive s ctx parent = true
    Completes (.hypnew eng c) s fun t =>
      (ok → hypParent t ctx child = some parent ∧ JobActed s t j 0#16 []) ∧ (¬ ok → t.hyps = s.hyps ∧ JobActed s t j 16#16 []) ∧
      (∀ x h, x ≠ ctx ∨ h ≠ child → hypParent t x h = hypParent s x h) ∧ MemSame s t) ∧
  (∀ (eng : EngId) (c : Cmd) (s : State) (j : Job), AtCommand s eng 0x51#8 c j →
    let ctx := ctxOf (jobNode s j)
    let h : BitVec 6 := bits c.ops 0 6
    (j.run.i = 1 → (∀ r, r ∈ s.links.remotes → r.who ≠ .resolve j.id) →
      (Completes (.confirm eng c) s fun t => JobActed s t j 0#16 [] ∧ t.hyps = s.hyps) ∧
      (Completes (.refute eng c) s fun t => JobActed s t j 0#16 [] ∧ t.hyps = s.hyps)) ∧
    (∀ p, j.run.i ≠ 1 → h ≠ 0#6 → hypParent s ctx h = some p →
      (Completes (.confirm eng c) s fun t =>
        hypParent t ctx h = none ∧
        (∀ x, x ≠ h → x ≠ 0#6 → hypParent t ctx x = (if hypParent s ctx x = some h then some p else hypParent s ctx x)) ∧
        (∀ y x, y ≠ ctx → hypParent t y x = hypParent s y x) ∧
        (Table.wf Ce.empty s.fab.ces = true → ∀ site task, ownOfCtx s ctx site.toNat 0 = true →
          (getTask t site task).hyp = (if (getTask s site task).hyp = h then p else (getTask s site task).hyp)) ∧
        ((∀ r, r ∈ t.links.remotes → r.who ≠ .resolve j.id) → ∀ k, k ∈ t.dist.jobs → k.id = j.id → k.run.acted = true)) ∧
      (Completes (.refute eng c) s fun t =>
        (∀ x, x ≠ 0#6 → hypParent t ctx x = (if hypUnder s ctx h x then none else hypParent s ctx x)) ∧
        (∀ y x, y ≠ ctx → hypParent t y x = hypParent s y x) ∧
        (∀ site l, l ∈ (getMt t site).lines → l.ctx = ctx → l.tag ≠ 0#6 → hypUnder s ctx h l.tag = false) ∧
        (∀ o, o ∈ t.hyps.ovl → o.ctx = ctx → hypUnder s ctx h o.tag = false) ∧
        (Table.wf Ce.empty s.fab.ces = true → ∀ site task, ownOfCtx s ctx site.toNat 0 = true →
          hypUnder s ctx h (getTask s site task).hyp = true → (getTask s site task).st = .running →
          (getTask t site task).orphaned = true ∧ (getTask t site task).hyp = p) ∧
        ((∀ r, r ∈ t.links.remotes → r.who ≠ .resolve j.id) → ∀ k, k ∈ t.dist.jobs → k.id = j.id → k.run.acted = true))) ∧
    (j.run.i ≠ 1 → (h = 0#6 ∨ hypParent s ctx h = none) →
      exec (.confirm eng c) s = .next (killCommand s j 1#16 true 0) ∧
      exec (.refute eng c) s = .next (killCommand s j 1#16 true 0))) ∧
  (∀ (eng : EngId) (c : Cmd) (s u : State) (j : Job) (x : Trans), AtCommand s eng 0x52#8 c j → (bits c.ops 0 56).toNat % 64 = 0 →
    j.refuted = false → jobXlate s j (bits c.ops 0 56).toNat true = (u, .ok x) → x.ty ≠ 2#2 →
    ∃ b : Block, (∀ i, i < 64 → blockByte b i = match hypParent s (ctxOf (jobNode s j)) (BitVec.ofNat 6 i) with
        | some p => 2#2 ++ p
        | none => 0#8) ∧
      Completes (.hypqry eng c) s fun t =>
        JobActed u t j 0#16 [] ∧
        t.store = (engStore u (jobParty u j) (.job j.id) (jobTenant u j) (homeKey x) (bits c.ops 0 56).toNat (ctxOf (jobNode u j)) 0#6 2#3
          (BitVec.allOnes 64) b none false).store) ∧
  ∀ (ctx : BitVec 8) (s : State),
    ((∀ w, w ∈ s.hyps.waits → w.1 = ctx → w.2.2 ≠ now s) → exec (.overlayEnlarge ctx) s = .next s) ∧
    ∀ h, ovlWaiter s ctx = some h →
    let e := ctxEntry s ctx
    let size := (bits e 152 8 : BitVec 8).toNat
    let grows := decide (size < (bits e 160 8 : BitVec 8).toNat) && !noReserve s ctx (2 ^ (size + 1))
    let served : State := { s with hyps := { s.hyps with waits := s.hyps.waits.filter fun w => decide (w.1 ≠ ctx) } }
    (grows = true →
      Completes (.overlayEnlarge ctx) s fun t => ctxEntry t ctx = setBits e 152 (BitVec.ofNat 8 (size + 1)) ∧
        segsOf t ctx = 2 ^ (size + 1) ∧ (∀ x, x ≠ ctx → segsOf t x = segsOf s x) ∧
        t = { served with hub := { s.hub with ctxs := t.hub.ctxs }, hyps := { served.hyps with segs := t.hyps.segs } } ∧
        ∀ x, x ≠ ctx → ctxEntry t x = ctxEntry s x) ∧
    ∀ p, grows = false → hypParent s ctx h = some p → exec (.overlayEnlarge ctx) s = .next (refuteHyp (.writeBack 0) served ctx h p)

/-- For a live job at the Apsis engine with an aligned range and TIER 1 or 2: TIERHINT puts every page of its range into the tenant's
recorded set and makes its effect; TIERPIN at T2 takes the pin from the recorded pages of the range and makes its effect; TIERPIN at T1
over the tenant's limit makes its effect and pins nothing, within it pins the pages of the range, and makes its effect once no page of the
range moves. TENANT_SWITCH to another tenant completes: the scratchpad image of every tile of the outgoing tenant's instances stands in
its set and is copied to T1, every entry of another tenant stands as before but for moves that begin, and the incoming set waits while a
page of the outgoing one moves to T2. PAGE_MOVE_COMPLETE of a moving page, with no access pending under the old translation: the move to
T2 of a page that has been pinned meanwhile only clears MV and ends; else a failed move clears MV in its entry, counts one failure and
ends the move, and no other byte changes; one that succeeds, at a place that fits, leaves the entry with the new type and address, or
fails where the host's translation agent refuses its page. A moving page for which no translation is found is a failed move. What the
rules leave open is read as the model has it, its own choice: log 45, 82 to 85, 112, 176 to 178. -/
def Obligations.TiersAndTenants : Prop :=
  ((∀ (eng : EngId) (c : Cmd) (s : State) (j : Job), AtCommand s eng 0x60#8 c j → tierOk c.ops = true →
    Completes (.tierhint eng c) s fun t =>
      JobActed s t j 0#16 [] ∧ t = { s with sets := t.sets, dist := { s.dist with jobs := t.dist.jobs } } ∧
      ∀ i, i ≤ (bits c.ops 64 24).toNat →
        ∃ p, p ∈ t.sets ∧ p.tenant = jobTenant s j ∧ p.image = false ∧ p.va = (bits c.ops 0 56).toNat + 4096 * i ∧ p.len = 4096) ∧
  ∀ (eng : EngId) (c : Cmd) (s : State) (j : Job), AtCommand s eng 0x61#8 c j → tierOk c.ops = true →
    (bits c.ops 56 2 = 2#2 →
      Completes (.tierpin eng c) s fun t =>
        JobActed s t j 0#16 [] ∧
        t.sets = s.sets.map (fun p => if p.inRange (jobTenant s j) c.ops then { p with pinned := false } else p)) ∧
    (bits c.ops 56 2 = 1#2 → j.run.i = 0 →
      let fresh := (tierPages c.ops).filter fun va => !s.sets.any fun p => decide (p.tenant = jobTenant s j) && p.pinned && decide (p.va = va)
      (pinLimit s j < pinnedBytes s (jobTenant s j) + fresh.length * 4096 →
        Completes (.tierpin eng c) s fun t => JobActed s t j 0#16 [] ∧ t.sets = s.sets) ∧
      (pinnedBytes s (jobTenant s j) + fresh.length * 4096 ≤ pinLimit s j →
        exec (.tierpin eng c) s = .next (modRun ((tierPages c.ops).foldl (fun s va => pinPage s (jobTenant s j) va) s) j.id fun r =>
          { r with i := 1 }))) ∧
    (bits c.ops 56 2 = 1#2 → j.run.i ≠ 0 → (∀ p, p ∈ s.sets → p.inRange (jobTenant s j) c.ops = true → p.moving = false) →
      Completes (.tierpin eng c) s fun t => JobActed s t j 0#16 [] ∧ t.sets = s.sets)) ∧
  (∀ (outgoing incoming : BitVec 16) (s : State), outgoing ≠ incoming →
    Completes (.tenantSwitch outgoing incoming) s fun t =>
      (∀ p, p ∈ s.sets → p.tenant ≠ outgoing → ∃ q, q ∈ t.sets ∧ SameEntry p q) ∧
      (∀ i site, i ∈ s.dist.insts → tenantOf (findNode s i.node) = outgoing → i.st ≠ .saved → site ∈ instMts i →
        (∃ q, q ∈ t.sets ∧ q.tenant = outgoing ∧ q.image = true ∧ q.va = site.toNat ∧ q.len = 786432) ∧
        ∃ c, c ∈ t.dist.copies ∧ c.tenant = outgoing ∧ c.site = site ∧
          c.spad = s.store.spad.filter fun x => decide (x.1 / 2 ^ 20 = site.toNat)) ∧
      (t.dist.switches = s.dist.switches ∨ (t.dist.switches = s.dist.switches ++ [(outgoing, incoming)] ∧ movesOut t outgoing = true)) ∧
      t.dist.nodes = s.dist.nodes) ∧
  ∀ (s : State) (p : SetPage) (l : Leaf),
    let tenant : BitVec 16 := s.opnd 0 16
    let va := (s.opnd 2 56 : BitVec 56).toNat
    let base := (s.opnd 9 52 : BitVec 52).toNat
    (s.sets.find? fun p => decide (p.tenant = tenant) && !p.image && p.moving && decide (p.va = va)) = some p →
    (engineLeaf s tenant va = none → ∀ ok, Completes (.pageMoveComplete ok) s fun t =>
      t.life.live.tierErrs = s.life.live.tierErrs + 1 ∧ t.store = s.store) ∧
    (engineLeaf s tenant va = some l → accessPending s tenant (va / 2 ^ l.lg * 2 ^ l.lg) (2 ^ l.lg) = false →
    (entType l.ent = 0#2 → holdsPinned s p = true → ∀ ok, Completes (.pageMoveComplete ok) s fun t =>
      t.life = s.life ∧ memByte t (l.loc + 1) = memByte s (l.loc + 1) &&& 0xFE#8 ∧ (∀ a, a ≠ l.loc + 1 → memByte t a = memByte s a) ∧
      (∀ q, q ∈ t.sets → q.tenant = tenant → q.image = false → q.va = va → q.len ≠ 0 → q.moving = false)) ∧
    ((entType l.ent = 0#2 → holdsPinned s p = false) →
    (Completes (.pageMoveComplete 0#1) s fun t =>
      t.life.live.tierErrs = s.life.live.tierErrs + 1 ∧ memByte t (l.loc + 1) = memByte s (l.loc + 1) &&& 0xFE#8 ∧
      (∀ a, a ≠ l.loc + 1 → memByte t a = memByte s a) ∧ (∀ a, hostByte t a = hostByte s a) ∧
      (∀ q, q ∈ t.sets → q.tenant = tenant → q.image = false → q.va = va → q.len ≠ 0 → q.moving = false)) ∧
    let toHost := decide (entType l.ent = 0#2)
    let e := movedEntry l.ent (if toHost then 1#2 else 0#2) base
    frameOk s toHost l.lg base = true →
      Completes (.pageMoveComplete 1#1) s fun t =>
        match leafBase (getFn s (tenantVf s tenant)).pasid l, leafBase (getFn s (tenantVf s tenant)).pasid { l with ent := e } with
        | some _, some _ => ∀ k, k < 8 → memByte t (l.loc + k) = bits e (8 * k) 8
        | _, _ => t.life.live.tierErrs = s.life.live.tierErrs + 1 ∧ memByte t (l.loc + 1) = memByte s (l.loc + 1) &&& 0xFE#8))

/-- For a function whose window is open: LAUNCH of 256 bytes at offset 0 with a credit queues the record last and takes the credit;
without a credit it sets DROP and queues nothing; where the payload limit is below 256 bytes, 128 bytes at offset 0 become the waiting
first half, and 128 bytes at offset 128 complete it, queue the record whose low half it is, and take a credit, or set DROP without one;
and every other write queues nothing and sets BADW. A waiting half that another write overtakes is dropped with BADW. Each completes and
changes only that function and the queue. What the rules leave open is read as the model has it, its own choice: log 90, 91. -/
def Obligations.Submission : Prop :=
  ∀ s : State,
    let fn : BitVec 10 := s.opnd 0 10
    let off := (s.opnd 2 16 : BitVec 16).toNat
    let low := bitAt (s.opnd 4 16 : BitVec 16) 15
    let len := (bits (s.opnd 4 16 : BitVec 16) 0 15).toNat
    let data : BitVec 2048 := s.opnd 6 2048
    let f := getFn s fn
    windowOpen s fn = true → off < 256 →
    Completes .launch s fun t =>
      t = { s with fns := t.fns, dist := { s.dist with subq := t.dist.subq } } ∧ (∀ g, g ≠ fn → getFn t g = getFn s g) ∧
      (off = 0 → len = 256 → f.credits ≠ 0#7 →
        t.dist.subq = s.dist.subq ++ [⟨fn, false, true, data⟩] ∧
        getFn t fn = { f with half := none, credits := f.credits - 1#7, badw := f.badw || f.half.isSome }) ∧
      (off = 0 → len = 256 → f.credits = 0#7 →
        t.dist.subq = s.dist.subq ∧ getFn t fn = { f with half := none, drop := true, badw := f.badw || f.half.isSome }) ∧
      (low = true → off = 0 → len = 128 →
        t.dist.subq = s.dist.subq ∧ getFn t fn = { f with half := some (bits data 0 1024), badw := f.badw || f.half.isSome }) ∧
      (∀ h, low = true → off = 128 → len = 128 → f.half = some h → f.credits ≠ 0#7 →
        t.dist.subq = s.dist.subq ++ [⟨fn, false, true, bits data 0 1024 ++ h⟩] ∧
        getFn t fn = { f with half := none, credits := f.credits - 1#7 }) ∧
      (∀ h, low = true → off = 128 → len = 128 → f.half = some h → f.credits = 0#7 →
        t.dist.subq = s.dist.subq ∧ getFn t fn = { f with half := none, drop := true }) ∧
      ((off ≠ 0 ∨ len ≠ 256) → (low = false ∨ ((off ≠ 0 ∨ len ≠ 128) ∧ (off ≠ 128 ∨ len ≠ 128 ∨ f.half = none))) →
        t.dist.subq = s.dist.subq ∧ getFn t fn = { f with half := none, badw := true })

/-- RECORD_ACCEPT of a record that passes its checks, with no footprint list and no image received with it, takes it off the queue,
returns its credit, and adds a node with the next number, the record, its group count and no dependence, which stands in the pool where
PRED is 0; a record that fails a check completes at once with the check's code. PROMOTION of a pool node without an instance that has
waited 2 ms at a priority below 6 raises it by 1; PLACEMENT_HOLD after 1 ms of the first node of the pool that has no instance and no hold
yet adds its hold to those that stand; RESIDENCY_TIMEOUT of a gate-held node refuses it. What the rules leave open is read as the model
has it, its own choice: log 86 to 90, 92 to 94, 173 to 175. -/
def Obligations.Acceptance : Prop :=
  (∀ (s : State) (u : Submit) (rest : List Submit), s.input = [] → s.dist.subq = u :: rest →
    let r := takenRecord s u
    (∀ x, acceptCheck s u r = .ok x → bits r 376 8 = 0#8 →
      Completes .recordAccept s fun t =>
        t.dist.subq = rest ∧ t.dist.nextSeq = s.dist.nextSeq + 1 ∧
        (u.window = true → (getFn t u.fn).credits = (getFn s u.fn).credits + 1#7 ∧ (getFn t u.fn).accepted = (getFn s u.fn).accepted + 1#17) ∧
        ∃ n, n ∈ t.dist.nodes ∧ n.id = s.dist.nextSeq ∧ n.lrec = r ∧ n.groups = (bits r 320 32).toNat ∧ n.given = 0 ∧ n.deps = [] ∧
          n.insts = [] ∧ n.sub = u.fn ∧ n.tenant = bits r 288 16 ∧ (bits r 352 16 = 0#16 → n.st = .pool ∧ n.readyAt = now s)) ∧
    (∀ code, acceptCheck s u r = .error code → exec .recordAccept s = .next (refuseRecord s u r code))) ∧
  (∀ (node : BitVec 32) (s : State) (n : Node), findNode s node.toNat = some n → n.st = .pool → n.insts = [] → n.aborting = false →
    n.prio.toNat < 6 → n.prioAt + 8000000 ≤ now s →
    Completes (.promotion node) s fun t =>
      t.dist.nodes = s.dist.nodes.map (fun m => if m.id = n.id then { m with prio := m.prio + 1#3, prioAt := now s } else m) ∧
      t = { s with dist := { s.dist with nodes := t.dist.nodes } }) ∧
  (∀ (s : State) (n : Node), firstUnplaced s = some n → n.readyAt + 4000000 ≤ now s → s.dist.holdback.contains n.id = false →
    exec .placementHold s = .next { s with dist := { s.dist with holdback := s.dist.holdback ++ [n.id] } } ∧
    n ∈ s.dist.nodes ∧ n.st = .pool ∧ n.insts = [] ∧
    ∀ m, m ∈ s.dist.nodes → m.st = .pool → m.aborting = false → m.insts = [] → untaken m = true → poolBefore m n = false) ∧
  ∀ (node : BitVec 32) (s : State) (n : Node) (t0 : Nat), findNode s node.toNat = some n → n.gateAt = some t0 → n.st = .pool →
    t0 + 400000000 ≤ now s → n.fracAt + 40000000 ≤ now s →
    exec (.residencyTimeout node) s = .next (refuseNode s n.id lsResidency)

/-- DISPATCH of a node that wants an instance and stands first in the pool with its gate met, whose image (the record's, or the mapper's)
has a place at the given translation on elements that are free and meet its demand, adds a new instance that is being configured with the
image's frames and elements, of which those that no one owned are now its own, and which is the node's last; on the node's first dispatch
its data blocks are written before. A demand that the package cannot meet refuses the node. FRAME_WRITE of the next frame of such an
instance that passes its receiver's checks stores it and leaves the later ones; one that fails, or whose place another region holds,
refuses the node; and after the last frame, with the data blocks written, an instance that passes the checks over frames runs. For a die
whose control cores run it stores a corner frame that passes its checks, in the shadow bank with BANK 1, and with BANK 0 only until the
corner has started; or it starts the corner's subgraph, and the last die of those that take part opens the PF. What the rules leave open
is read as the model has it, its own choice: log 94 to 102. -/
def Obligations.Dispatching : Prop :=
  (∀ (node : BitVec 32) (dbx dby : BitVec 8) (s : State) (n : Node), findNode (sweepLost s n) node.toNat = some n →
    findNode s node.toNat = some n → let v := sweepLost s n
    wantsInst n = true →
    (demandMet v (nodeImage v n) = false → exec (.dispatch node dbx dby 0xFFFFFFFF#32) s = .next (refuseNode v n.id lsNoResources)) ∧
    (demandMet v (nodeImage v n) = true → gateMet v n = true → firstInPool v n = true →
      let sh : Shift := ⟨dbx.toInt, dby.toInt⟩
      ∀ (w u : State) (image : List Frame) (x : Unit), dispatchImage v n none = (w, some image) →
        let fs := bindArgs n.lrec image
        let moved := fs.map sh.frame
        sh.ok fs = true → (bitAt n.lrec 256 = true → dbx = 0#8 ∧ dby = 0#8) → demandHere w none fs = true →
        placeFree w none moved = true → (moved.filter Frame.placed).isEmpty = false → dispatchCheck w n = .ok x →
        (n.dataWritten = true → u = w) →
        (n.dataWritten = false → (∀ k, k < globCount fs → globWaits w n fs k = false) ∧ firstDispatch w n sh fs = (u, true)) →
        Completes (.dispatch node dbx dby 0xFFFFFFFF#32) s fun t =>
          ∃ i, t.dist.insts = u.dist.insts ++ [i] ∧ i.id = u.dist.nextInst ∧ i.node = n.id ∧ i.st = .configuring ∧
            i.elems = imageElems moved ∧ i.frames = moved.filter Frame.placed ∧
            (∀ e, e ∈ i.elems → Table.get 0 u.fab.owner e = 0 → Table.get 0 t.fab.owner e = i.id + 1) ∧
            ∀ m, m ∈ t.dist.nodes → m.id = n.id → m.insts.getLast? = some i.id)) ∧
  (∀ (inst : BitVec 32) (s : State) (i : Inst) (n : Node), inst.toNat < 0xFFFFFF00 → findInst s inst.toNat = some i →
    findNode s i.node = some n → i.st = .configuring →
    (∀ (f : Frame) (rest : List Frame) (u : State) (x : Unit), i.frames = f :: rest → receiverCheck i n f = .ok x →
      storeFrame s i n f = some u →
      Completes (.frameWrite inst) s fun t =>
        (∀ k, k ∈ t.dist.insts → k.id = i.id → k.frames = rest) ∧ t.fab = u.fab ∧ t.store = u.store ∧
        t = { u with dist := { u.dist with insts := t.dist.insts } }) ∧
    (∀ (f : Frame) (rest : List Frame) (x : Unit), i.frames = f :: rest → receiverCheck i n f = .ok x → storeFrame s i n f = none →
      exec (.frameWrite inst) s = .next (refuseNode s n.id lsNoResources)) ∧
    (∀ (f : Frame) (rest : List Frame) (code : BitVec 8), i.frames = f :: rest → receiverCheck i n f = .error code →
      exec (.frameWrite inst) s = .next (refuseNode s n.id code)) ∧
    (∀ x : Unit, i.frames = [] → (∀ r, r ∈ s.links.remotes → r.who ≠ .loader n.id) → instCheck (bankView s i) i n = .ok x →
      Completes (.frameWrite inst) s fun t => ∀ k, k ∈ t.dist.insts → k.id = i.id → k.st = .running)) ∧
  ∀ (d : BitVec 2) (s : State), let inst : BitVec 32 := 0xFFFFFF00#32 + d.setWidth 32
    let part (x : BitVec 2) : Prop := (getDie s x).live = true ∧ (getDie s x).fenced = false ∧ (getDie s x).corner = false
    (coresRun s d = true → s.input = [] → Completes (.frameWrite inst) s fun t =>
      (getDie t d).corner = true ∧
      ((getDie s d).corner = false → (∀ x, x ≠ d → ¬ part x) → t.hub = { s.hub with pfOpen := true }) ∧
      ((∃ x, x ≠ d ∧ part x) → t.hub = s.hub)) ∧
    (∀ x : Unit, s.input ≠ [] → let f : Frame := (s.opnd 0 64, s.opnd 8 256)
      frameCheck true f = .ok x → siteDie f.site = d → f.cls ≠ 4 → coresRun s d = true →
      (f.bank = true → exec (.frameWrite inst) s = .next (putShadow s f f.2)) ∧
      (f.bank = false → (getDie s d).corner = true → exec (.frameWrite inst) s = .next s) ∧
      (f.bank = false → (getDie s d).corner = false → linksOk (putActive s f.site f.cls f.sub f.idx f.2) f.site = true →
        exec (.frameWrite inst) s = .next (putActive s f.site f.cls f.sub f.idx f.2))) ∧
    (coresRun s d = false → exec (.frameWrite inst) s = .next s)

/-- DETECTION_WAVE of a running region counts one more clean wave, or none after an unclean one, and reports the region quiescent from the
second on. NODE_COMPLETE of a node that can complete releases its writes and lets it close; once a closing node's writes have arrived and
its sync unit is free, it is complete, its instances are removed, it is off every node's dependences, and, with SYNCSITE a memory tile and
no other sync word's wait armed there, its completion record stands behind the sync word at SYNCOFF; until then nothing more happens to
it. BUDGET_EXHAUSTED and WATCHDOG_FIRE at their limits abort the node: its instances end, it issues no further index, and ERR takes
ABORTED with bit 1 or 2. OWNER_CHANGE_ZEROING frees an element that was to be zeroed, and withdraws it after a read-back error. What the
rules leave open is read as the model has it, its own choice: log 15, 77 to 79, 86, 141. -/
def Obligations.NodeEnd : Prop :=
  (∀ (inst : BitVec 32) (s : State) (i : Inst), findInst s inst.toNat = some i → i.st = .running →
    let n := if cleanWave s i then i.waves + 1 else 0
    Completes (.detectionWave inst) s fun t =>
      t.dist.insts = s.dist.insts.map (fun k => if k.id = i.id then { k with injected := false, waves := n, quiescent := decide (2 ≤ n) } else k) ∧
      t = { s with dist := { s.dist with insts := t.dist.insts } }) ∧
  (∀ (node : BitVec 32) (s : State) (n m : Node), findNode s node.toNat = some n →
    let u := if canComplete s n = true then closeNode s n.id else s
    (canComplete s n = true → ∀ k, k ∈ u.dist.nodes → k.id = n.id → k.st = .closing) ∧
    (findNode u n.id = some m → m.st = .closing → nodeWrites u m = false → syncReady u (syncSiteOf m) = true →
      Completes (.nodeComplete node) s fun t =>
        (∀ k, k ∈ t.dist.nodes → k.id = n.id → k.st = .complete) ∧ (∀ i, i ∈ t.dist.insts → i.id ∉ m.insts) ∧
        (∀ k, k ∈ t.dist.nodes → n.id ∉ k.deps) ∧
        let site := syncSiteOf m
        let off := syncOffOf m
        (siteKind site = .mt → off % 16 = 0 → off + 32 ≤ spadSize → (∀ w, w ∈ (getMt u site).waiters → w.off = off) →
          spadNat t site (off + 16) 16 = (completionRecord u m).toNat)) ∧
    (findNode u n.id = some m → (nodeWrites u m = true ∨ syncReady u (syncSiteOf m) = false) →
      exec (.nodeComplete node) s = .next u)) ∧
  (∀ (node : BitVec 32) (s : State) (n : Node) (t0 : Nat), findNode s node.toNat = some n → n.firstAt = some t0 → n.st = .pool →
    n.aborting = false → bits n.lrec 512 64 ≠ 0#64 → t0 + (bits n.lrec 512 64).toNat ≤ now s →
    Completes (.budgetExhausted node) s fun t =>
      (∀ m, m ∈ t.dist.nodes → m.id = n.id → m.aborting = true ∧ m.given = m.groups ∧ (m.err &&& 3#16) = 3#16) ∧
      (∀ i, i ∈ t.dist.insts → i.id ∈ n.insts → i.st = .ended) ∧ MemSame s t) ∧
  (∀ (inst : BitVec 32) (s : State) (i : Inst) (n : Node), findInst s inst.toNat = some i → i.st = .running →
    2 ^ s.hub.watchLg.toNat ≤ i.dogs → findNode s i.node = some n →
    Completes (.watchdogFire inst) s fun t =>
      (∀ m, m ∈ t.dist.nodes → m.id = n.id → m.aborting = true ∧ m.given = m.groups ∧ (m.err &&& 5#16) = 5#16) ∧
      (∀ k, k ∈ t.dist.insts → k.id ∈ n.insts → k.st = .ended) ∧
      t.life.live.watchdogs = s.life.live.watchdogs + 1 ∧ MemSame s t) ∧
  ∀ (site : Site) (sub : BitVec 2) (ok : BitVec 1) (s : State), Table.get false s.fab.zeroing (site.toNat * 4 + sub.toNat) = true →
    (getDie s (siteDie site)).fenced = false →
    let k := site.toNat * 4 + sub.toNat
    Completes (.ownerChangeZeroing site sub ok) s fun t =>
      Table.get false t.fab.zeroing k = false ∧ (∀ j, j ≠ k → Table.get false t.fab.zeroing j = Table.get false s.fab.zeroing j) ∧
      Table.get false t.fab.withdrawn k = (Table.get false s.fab.withdrawn k || decide (ok = 0#1)) ∧
      (sub = 0#2 → siteKind site = .ce → getCe t site = Ce.empty) ∧
      (sub = 0#2 → siteKind site = .mt → getMt t site = Mt.empty ∧ ∀ o, o < spadSize → spadByte t site o = 0#8)

/-- FAULT_RECORD of the first waiting record, with its slot free, writes the record with its sequence number into the corner's scratchpad
at 64 times FTAIL, advances FTAIL and the sequence, and gives a stopped AG that number; every other scratchpad byte stays. A write of
FPOP, from a task or by itself, frees the slot at FHEAD; REPAIR sends its argument; WATCH sets the named field of an entry; ESCAL of an
index without a record only counts, and of a record that its core has not had yet hands it to its core: a record of no stopped element is
answered without a REPAIR, one that the device can settle with RETRY or by a move of its page, and every other is posted to its function's
ring, kept back while that is full, or answered with ABORT. WRSYS of a number without a register, in an inactive lane or away from the
corner, changes nothing. What the rules leave open is read as the model has it, its own choice: log 134, 135. -/
def Obligations.FaultRing : Prop :=
  (∀ (die : BitVec 2) (s : State) (f : PendFault), let d := getDie s die
    firstPend d.pend = some f → (∀ r, r ∈ d.ring → r.slot ≠ d.ftail) →
    Completes (.faultRecord die) s fun t =>
      t = { s with dies := t.dies, store := { s.store with spad := t.store.spad }, fab := { s.fab with ags := t.fab.ags, ces := t.fab.ces } } ∧
      getDie t die = { d with pend := d.pend.erase f, ftail := d.ftail + 1#8, seq := d.seq + 1#16
                              ring := d.ring ++ [⟨d.ftail, d.seq, f.site, f.subt, f.kind, f.inst, f.tok, false, false, false⟩] } ∧
      (∀ x, x ≠ die → getDie t x = getDie s x) ∧
      spadNat t (cornerMt die) (64 * d.ftail.toNat) 64 = (setBits f.rcd 352 d.seq).toNat ∧
      (∀ site a, a < spadSize → (site ≠ cornerMt die ∨ a < 64 * d.ftail.toNat ∨ 64 * d.ftail.toNat + 64 ≤ a) → spadByte t site a = spadByte s site a) ∧
      (∀ code old, f.kind = 0#1 → (getAg s ⟨f.site, bits f.subt 0 1⟩).st = .faulted code old →
        (getAg t ⟨f.site, bits f.subt 0 1⟩).st = .faulted code (some d.seq)) ∧
      (f.kind = 1#1 → (getTask s f.site f.subt).st = .trapped → (getTask t f.site f.subt).trapSeq = some d.seq)) ∧
  (∀ (die : BitVec 2) (s : State), Completes (.fpop die) s fun t => DieIs die s t (popped (getDie s die))) ∧
  (∀ s : State, let die : BitVec 2 := s.opnd 0 2
    Completes .repair s (fun t => DieIs die s t (repairing (getDie s die) (s.opnd 1 24))) ∧
    Completes .watch s (fun t => WatchWritten s t die (s.opnd 1 2 : BitVec 2).toNat (s.opnd 2 2 : BitVec 2).toNat (s.opnd 3 32)) ∧
    ((∀ r, r ∈ (getDie s die).ring → r.slot ≠ s.opnd 1 8) →
      Completes .escal s fun t => DieIs die s t { getDie s die with escals := (getDie s die).escals + 1#32 }) ∧
    ∀ r, ((getDie s die).ring.find? fun r => decide (r.slot = s.opnd 1 8)) = some r →
      (r.escalated = true ∨ r.answered = true → exec .escal s = .next s) ∧
      (r.escalated = false → r.answered = false → Completes .escal s fun t => AtCore die s t r false)) ∧
  ∀ (st : Stage) (s : State),
    let die := siteDie st.site
    let num := (ctlA s st).toNat
    let v := ctlB s st
    let live := bitAt (stageAct s st) 0 = true ∧ isCorner st.site = true
    (live → num = 0x42 → Completes (.wrsys st) s fun t => DieIs die s t (popped (getDie s die))) ∧
    (live → num = 0x43 → Completes (.wrsys st) s fun t => DieIs die s t (repairing (getDie s die) (bits v 0 24))) ∧
    (live → num = 0x44 → (∀ r, r ∈ (getDie s die).ring → r.slot ≠ bits v 0 8) →
      Completes (.wrsys st) s fun t => DieIs die s t { getDie s die with escals := (getDie s die).escals + 1#32 }) ∧
    (∀ r, live → num = 0x44 → ((getDie s die).ring.find? fun r => decide (r.slot = (bits v 0 8 : BitVec 8))) = some r →
      (r.escalated = true ∨ r.answered = true → exec (.wrsys st) s = .next s) ∧
      (r.escalated = false → r.answered = false → Completes (.wrsys st) s fun t => AtCore die s t r false)) ∧
    (∀ j i, j < 4 → i < 4 → live → num = 0x50 + 4 * j + i → Completes (.wrsys st) s fun t => WatchWritten s t die j i v) ∧
    ((¬ live ∨ num < 0x42 ∨ (0x44 < num ∧ num < 0x50) ∨ 0x60 ≤ num) → exec (.wrsys st) s = .next s)

/-- FAULT of the ring's oldest record pops it and sends ABORT for BOUNDS and ALIGN and POISON for POISON, and RETRY for a trap of a logit
kernel; any other is handed to its control core, which counts it and refuses it where its element is not stopped, answers with RETRY where
a larger overlay settles it, waits for the page where the Apsis engine brings it up, and else posts it to its function's ring, or answers
with ABORT for a function without one. A record that its core has answered is popped; one under escalation stands. RESP_POLL of a valid
ABORT, ZERO or POISON sends it; of RETRY too, unless the walk of a translation fault would fail again, and ABORT after the third such
answer; a page that has moved is answered with RETRY; a RESP that is not valid is read again a microsecond later. REPAIR_TOKEN at a
stopped AG whose sequence matches makes it run: 0 to repeat its emission, 1 to complete it as zero, 2 as poison, with POISON in ERR; at a
trapped task it resumes the task, and where every task of the CE is then Done, what stands at its inputs is discarded; ABORT aborts the
node; a REPAIR that matches nothing is counted as discarded. What the rules leave open is read as the model has it, its own choice: log
136. -/
def Obligations.FaultHandling : Prop :=
  (∀ (die : BitVec 2) (s : State) (r : RingEnt) (rest : List RingEnt),
    let d := getDie s die
    let rcd := ringRecord s die r.slot
    let code : BitVec 8 := bits rcd 368 8
    let kernel := r.kind = 1#1 ∧ bitAt (taskDesc s r.site r.subt.toNat) 36 = true
    d.ring = r :: rest →
    (r.answered = true → Completes (.fault die) s fun t => DieIs die s t (popped d)) ∧
    (r.answered = false → r.escalated = true → exec (.fault die) s = .next s) ∧
    (r.answered = false → r.escalated = false →
      (code = 3#8 ∨ code = 4#8 → Completes (.fault die) s fun t => DieIs die s t (popped (repairing d (repairArg r 3#2)))) ∧
      (code = 5#8 → Completes (.fault die) s fun t => DieIs die s t (popped (repairing d (repairArg r 2#2)))) ∧
      (code ≠ 3#8 → code ≠ 4#8 → code ≠ 5#8 → kernel →
        Completes (.fault die) s fun t => DieIs die s t (popped (repairing d (repairArg r 0#2)))) ∧
      (code ≠ 3#8 → code ≠ 4#8 → code ≠ 5#8 → ¬ kernel → Completes (.fault die) s fun t => AtCore die s t r true))) ∧
  (∀ (s : State) (e : Escal) (r : RingEnt),
    let die : BitVec 2 := s.opnd 0 2
    let d := getDie s die
    let left : Die := { d with escalq := d.escalq.filter fun x => decide (x.slot ≠ e.slot) }
    let code : BitVec 8 := bits e.rcd 368 8
    let mapping := code = 1#8 ∨ code = 2#8 ∨ code = 5#8
    (d.escalq.find? fun e => decide (e.core = s.opnd 1 2) && escalDue s e) = some e → (d.ring.find? fun r => decide (r.slot = e.slot)) = some r →
    (e.moving = true → wouldFault s r e.rcd = false → Completes .respPoll s fun t => DieIs die s t (answered left r e.auto (some 0#2))) ∧
    ∀ idx, e.moving = false → e.posted = some idx →
      let resp : Word := BitVec.ofNat 32 (hostGet s e.fn ((getFn s e.fn).ringBase.toNat + 128 * idx + 64) 4)
      (bitAt resp 31 = false → Completes .respPoll s fun t =>
        DieIs die s t { d with escalq := d.escalq.map fun x => if x.slot = e.slot then { x with polledAt := now s } else x }) ∧
      (bitAt resp 31 = true → bits resp 0 2 ≠ 0#2 →
        Completes .respPoll s fun t => DieIs die s t (answered left r e.auto (some (bits resp 0 2)))) ∧
      (bitAt resp 31 = true → bits resp 0 2 = 0#2 →
        (¬ mapping ∨ wouldFault s r e.rcd = false → Completes .respPoll s fun t => DieIs die s t (answered left r e.auto (some 0#2))) ∧
        (mapping → wouldFault s r e.rcd = true → 2 ≤ e.tries →
          Completes .respPoll s fun t => DieIs die s t (answered left r e.auto (some 3#2))))) ∧
  ∀ (die : BitVec 2) (s : State) (tok : Token), let d := getDie s die
    let arg := tok.arg
    (d.repairs.find? fun a => !repairHeld s a.arg) = some tok → repairDead s arg = false →
    let site : Site := bits arg 12 12
    let subt : BitVec 3 := bits arg 9 3
    let loc : AgAt := ⟨site, bits arg 9 1⟩
    let action := (bits arg 0 2 : BitVec 2).toNat
    let taken : Die := { d with repairs := d.repairs.erase tok }
    (∀ code seq, bitAt arg 8 = false → (subt = 0#3 ∨ subt = 1#3) → (getAg s loc).st = .faulted code (some seq) → bits seq 0 6 = bits arg 2 6 →
      action ≠ 3 → Completes (.repairToken die) s fun t =>
        getAg t loc = { getAg s loc with st := .running, repair := if action = 0 then none else some (bits arg 0 2) } ∧
        (∀ l, l ≠ loc → getAg t l = getAg s l) ∧
        (∀ x, getDie t x = consumed (if x = die then taken else getDie s x) site subt 0#1 seq) ∧
        (∀ n m, action = 2 → nodeOf s site (1 + loc.sub.toNat) = some n → m ∈ t.dist.nodes → m.id = n.id → m.err &&& 16#16 = 16#16) ∧
        t = { s with dies := t.dies, fab := { s.fab with ags := t.fab.ags }, dist := { s.dist with nodes := t.dist.nodes } }) ∧
    (∀ code seq i n, bitAt arg 8 = false → (subt = 0#3 ∨ subt = 1#3) → (getAg s loc).st = .faulted code (some seq) → bits seq 0 6 = bits arg 2 6 →
      action = 3 → ownerOf s site (1 + loc.sub.toNat) = some i → findNode s i.node = some n →
      Completes (.repairToken die) s fun t =>
        (∀ m, m ∈ t.dist.nodes → m.id = n.id → m.aborting = true ∧ m.err &&& 1#16 = 1#16) ∧
        (∀ j, j ∈ t.dist.insts → j.id ∈ n.insts → j.st = .ended) ∧ MemSame s t) ∧
    (∀ seq, bitAt arg 8 = true → (getTask s site subt).st = .trapped → (getTask s site subt).trapSeq = some seq → bits seq 0 6 = bits arg 2 6 →
      action ≠ 3 → Completes (.repairToken die) s fun t =>
        getTask t site subt = { getTask s site subt with st := (getTask s site subt).resume, trapSeq := none } ∧
        (∀ x k, (x ≠ site ∨ k ≠ subt) → getTask t x k = getTask s x k) ∧
        (∀ x, getDie t x = consumed (if x = die then taken else getDie s x) site subt 1#1 seq) ∧
        (allDone { s with fab := { s.fab with ces := t.fab.ces } } site = false → t.fab.bufs = s.fab.bufs) ∧
        (allDone { s with fab := { s.fab with ces := t.fab.ces } } site = true →
          ∀ e, e < 8 → (getBuf t (endKey site e)).q = (getBuf s (endKey site e)).q.filter fun y => y.1.isMarkOrSwitch) ∧
        t = { s with dies := t.dies, fab := { s.fab with ces := t.fab.ces, bufs := t.fab.bufs } }) ∧
    ((bitAt arg 8 = false → (2 ≤ subt.toNat ∨ ∀ code seq, (getAg s loc).st = .faulted code (some seq) → bits seq 0 6 ≠ bits arg 2 6)) →
      (bitAt arg 8 = true → (getTask s site subt).st ≠ .trapped ∨ ∀ seq, (getTask s site subt).trapSeq = some seq → bits seq 0 6 ≠ bits arg 2 6) →
      Completes (.repairToken die) s fun t => DieIs die s t { taken with discards := d.discards + 1#32 })

/-- PREEMPT and SLICE_EXPIRY of an instance that is chosen for a waiting node, with room for its save, begin its marker phase now; PREEMPT
does nothing where no node of higher priority waits. MARK at a CE that every input but back-edges shows it, at an AG that can send, or at
an operator makes it save; the CE dequeues the MARKs and enqueues one on every output. FREEZE after the limit gates the region.
MARKER_PHASE_END adds a save that holds the state of the instance's CEs and scratchpads, and its jobs stand still; SRAM_SWAP_COMPLETE
frees the elements and raises the slice number; RESTORE takes the sites of a translation, and SRAM_SWAP_COMPLETE then begins the
configuration. What the rules leave open is read as the model has it, its own choice: log 104 to 111, 188. -/
def Obligations.Preemption : Prop :=
  (∀ (inst : BitVec 32) (s : State) (i : Inst) (w : Node), findInst s inst.toNat = some i → findNode s i.node ≠ none →
    w ∈ s.dist.nodes → awaitsElems s w = true → regionFree s w = false → t1Used s + sramBytes i ≤ moduleTop →
    (chosenFor s (yielding s fun n _ => decide (n.prio.toNat < w.prio.toNat)) w i = true →
      Completes (.preempt inst) s fun t => BeginsSave s t i.id) ∧
    (chosenFor s (yielding s fun n j => decide (j.sliceUs ≠ 0) && decide (j.startedAt + j.sliceUs * 4000 ≤ now s) &&
        decide (n.tenant ≠ w.tenant) && decide (n.prio.toNat ≤ w.prio.toNat)) w i = true →
      Completes (.sliceExpiry inst) s fun t => BeginsSave s t i.id)) ∧
  (∀ (inst : BitVec 32) (s : State),
    (∀ w j n, w ∈ s.dist.nodes → awaitsElems s w = true → j ∈ s.dist.insts → j.id = inst.toNat → findNode s j.node = some n →
      w.prio.toNat ≤ n.prio.toNat) → exec (.preempt inst) s = .next s) ∧
  (∀ (site : Site) (s : State) (i : Inst), ownerOf s site 0 = some i → Marking i → siteKind site = .ce → (getCe s site).saved = false →
    let ins := (List.range 8).filter fun e => bitAt (ceEnd s site e) 0 && !backEnd s i site e
    (∀ e, e ∈ ins → markHeads s (endKey site e) = true) → (getCe s site).firedNext ≤ now s → outsRoom s site (ceOuts s site) = true →
    Completes (.mark site 0#3) s fun t =>
      getCe t site = { getCe s site with saved := true } ∧ (∀ x, x ≠ site → getCe t x = getCe s x) ∧
      (∀ e, e ∈ ins → getBuf t (endKey site e) = (getBuf s (endKey site e)).pop (now s)) ∧
      (∀ o, o ∈ ceOuts s site → ∃ x, x ∈ (getBuf t (inKey site o.1 o.2.1)).q ∧ x.1.isCode 0x10#8 = true ∧ x.1.arg = i.slice) ∧ MemSame s t) ∧
  (∀ (loc : AgAt) (s : State) (i : Inst), ownerOf s loc.site (1 + loc.sub.toNat) = some i → Marking i → (getAg s loc).saved = false →
    agSendsOn s loc = false ∨ agSends s loc = true →
    Completes (.mark loc.site (1#3 + loc.sub.setWidth 3)) s fun t => (getAg t loc).saved = true ∧ MemSame s t) ∧
  (∀ (loc : OpAt) (s : State) (i : Inst), opOwner s loc = some i → Marking i → (getOp s loc).saved = false →
    (∀ k, k < (opCfgOf s loc).nin.toNat → backCarry s i loc k = false → markHeads s (opInKey loc.site loc.slot.toNat k) = true) →
    (getOp s loc).lastFire ≤ now s → opRoomAll s loc (opCfgOf s loc) (opCfgOf s loc).nout.toNat = true →
    Completes (.mark loc.site (4#3 + loc.slot.setWidth 3)) s fun t => (getOp t loc).saved = true ∧ MemSame s t) ∧
  (∀ (inst : BitVec 32) (s : State) (i : Inst) (at0 : Nat), findInst s inst.toNat = some i → i.st = .marking at0 →
    (i.frozen = false → limitReached s i at0 = true → Completes (.freeze inst) s fun t =>
      t.dist.insts = s.dist.insts.map (fun k => if k.id = i.id then { k with frozen := true } else k) ∧
      t = { s with dist := { s.dist with insts := t.dist.insts } }) ∧
    (phaseOver s i = true → Completes (.markerPhaseEnd inst) s fun t =>
      (∀ k, k ∈ t.dist.insts → k.id = i.id → k.st = .swapOut k.frozen) ∧ (∀ j, j ∈ t.dist.jobs → j.inst = i.id → j.started = false) ∧
      ∃ v, t.dist.saves = s.dist.saves ++ [v] ∧ v.inst = i.id ∧ v.elems = i.elems ∧ v.slots = i.ops ∧ v.at0 = now s ∧
        ∀ site : Site, site.toNat * 4 ∈ i.elems →
          Table.get Ce.empty v.ces site.toNat = getCe s site ∧
          ∀ o, o < 2 ^ 20 → Table.get 0#8 v.spad (site.toNat * 2 ^ 20 + o) = spadByte s site o)) ∧
  (∀ (inst : BitVec 32) (s : State) (i : Inst) (frozen : Bool), findInst s inst.toNat = some i → i.st = .swapOut frozen →
    Completes (.sramSwapComplete inst) s fun t =>
      t.dist.insts = s.dist.insts.map (fun k =>
        if k.id = i.id then { k with st := .saved, slice := k.slice + 1#24, elems := [], ops := [], vcs := [], frozen := false, marked := [] } else k) ∧
      (∀ e, e ∈ i.elems → Table.get 0 s.fab.owner e = i.id + 1 → Table.get 0 t.fab.owner e = 0 ∧ Table.get false t.fab.zeroing e = true) ∧
      MemSame s t) ∧
  (∀ (inst : BitVec 32) (s : State) (i : Inst) (v : Save), findInst s inst.toNat = some i → i.st = .swapIn →
    (s.dist.saves.find? fun v => decide (v.inst = i.id)) = some v →
    Completes (.sramSwapComplete inst) s fun t =>
      (∀ k, k ∈ t.dist.insts → k.id = i.id → k.st = .configuring ∧ k.frames = restoreFrames k) ∧
      (∀ a, memByte t a = memByte s a) ∧
      ∀ site : Site, (∀ k, k ∈ v.spad → (Shift.perSite ⟨v.dbx, v.dby⟩ (2 ^ 20) k.1) / 2 ^ 20 ≠ site.toNat) → ∀ o, o < 2 ^ 20 →
        spadByte t site o = spadByte s site o) ∧
  ∀ (inst : BitVec 32) (dbx dby : BitVec 8) (s : State) (i : Inst) (v : Save) (n : Node), findInst s inst.toNat = some i →
    (s.dist.saves.find? fun v => decide (v.inst = inst.toNat)) = some v → findNode s i.node = some n → i.st = .saved → n.aborting = false →
    gateMet s n = true → firstInPool s n = true →
    let sh : Shift := ⟨dbx.toInt, dby.toInt⟩
    restoreFits s n i v sh = true →
    Completes (.restore inst dbx dby) s fun t =>
      (∀ k, k ∈ t.dist.insts → k.id = i.id → k.st = .swapIn ∧ k.elems = v.elems.map sh.elem ∧ k.startedAt = now s) ∧
      (∀ e, e ∈ v.elems → Table.get 0 t.fab.owner (sh.elem e) = i.id + 1) ∧ MemSame s t

/-- HEARTBEAT after 10 µs renews a live die's mark. DIE_LOST after 30 µs without one fences the die, discards its records, counts it,
moves the master to the lowest live die, aborts each node with an instance there that is not reissuable, raises vector 2 of the PF and of
the function of every node with one, and takes the die's modules out of reach where its bridges fail too; DIE_REJOIN makes a fenced die
live, with its modules. ECC_ERROR counts a corrected error by module or site and poisons an uncorrectable one's block. SNAPSHOT after 60 s
writes the next record, which is then current; ENVIRONMENT_SAMPLE after 1 ms counts one bin for each die; CONFIG_RECORD_UPDATE stores an
update whose signature is good, and no other. PACKAGE_RESET keeps the memories, the records and the counts, applies the configuration
record and starts the control cores only after a good boot chain, and leaves the PF closed until the corner subgraphs stand; POWER_LOSS
clears module memory and keeps the current record. GENERATION_ITERATION takes a request, or, with every request between iterations,
submits every request's records at priority 7 and waits for their completion sync words. What the rules leave open is read as the model
has it, its own choice: log 16, 113 to 116, 125 to 131. -/
def Obligations.DiesAndManagement : Prop :=
  (∀ (die : BitVec 2) (s : State), let d := getDie s die
    d.live = true → d.beatAt + 40000 ≤ now s → Completes (.heartbeat die) s fun t => DieIs die s t { d with beatAt := now s }) ∧
  (∀ (die : BitVec 2) (s : State), let d := getDie s die
    d.live = true → d.beatAt + 120000 ≤ now s → Completes (.dieLost die) s fun t =>
      let d' := getDie t die
      d'.live = false ∧ d'.fenced = true ∧ d'.ring = [] ∧ d'.pend = [] ∧ d'.repairs = [] ∧ d'.escalq = [] ∧
      ((s.opnd 0 1 : BitVec 1) = 1#1 → d'.cut = true) ∧
      vget 0 (getFn t 0#10).msix 2 = vget 0 (getFn s 0#10).msix 2 + (if (s.opnd 0 1 : BitVec 1) = 1#1 then 2 else 1) ∧
      t.life.live.fenced = s.life.live.fenced + 1 ∧ (s.dist.master ≠ die → t.dist.master = s.dist.master) ∧
      (s.dist.master = die → ∀ x, x ≠ die → (getDie s x).live = true →
        (getDie t t.dist.master).live = true ∧ ∀ y, y < t.dist.master → (getDie t y).live = false) ∧
      ∀ n i, n ∈ s.dist.nodes → (∀ m, m ∈ s.dist.nodes → m.id = n.id → m = n) → n.st = .pool → n.aborting = false →
        i ∈ s.dist.insts → i.node = n.id → i.st ≠ .ended → instOnDie i die = true →
        vget 0 (getFn t n.sub).msix 2 = vget 0 (getFn s n.sub).msix 2 + (if (s.opnd 0 1 : BitVec 1) = 1#1 ∧ n.sub = 0#10 then 2 else 1) ∧
        (bitAt n.lrec 257 = false → ∀ m, m ∈ t.dist.nodes → m.id = n.id → m.aborting = true ∧ m.err &&& 0x401#16 = 0x401#16)) ∧
  (∀ s : State, let die : BitVec 2 := s.opnd 0 2
    (getDie s die).fenced = true →
    Completes .dieRejoin s fun t => DieIs die s t { getDie s die with live := true, fenced := false, beatAt := now s, cut := false }) ∧
  (∀ s : State,
    let a := (s.opnd 1 64 : BitVec 64).toNat
    let space : BitVec 2 := s.opnd 0 2
    let unc : BitVec 1 := s.opnd 9 1
    (space = 0#2 → unc = 0#1 → Completes .eccError s fun t =>
      t.life.live = { s.life.live with corrModule := bump s.life.live.corrModule (a / 4096 % 32) } ∧ t.store = s.store) ∧
    (space ≠ 0#2 → unc = 0#1 → Completes .eccError s fun t =>
      t.life.live = { s.life.live with corrSite := bump s.life.live.corrSite (a / 2 ^ 20 % 4096) } ∧ t.store = s.store) ∧
    (space = 0#2 → unc = 1#1 → a < moduleTop → Completes .eccError s fun t =>
      memPoisoned t a = true ∧ (∀ b, b / 64 ≠ a / 64 → memPoisoned t b = memPoisoned s b) ∧ MemSame s t) ∧
    (space = 1#2 → unc = 1#1 → a % 2 ^ 20 < spadSize → Completes .eccError s fun t =>
      spadPoisoned t (BitVec.ofNat 12 (a / 2 ^ 20)) (a % 2 ^ 20) = true ∧
      t.life.live = { s.life.live with uncSite := bump s.life.live.uncSite (a / 2 ^ 20 % 4096) } ∧ MemSame s t)) ∧
  (∀ s : State, s.life.snapAt + 240000000000 ≤ now s → Completes .snapshot s fun t =>
    ∃ r, currentRec t.life = some r ∧ r.bytes.length = 37581 ∧ t.life.snapAt = now s ∧
      (∀ c, currentRec s.life = some c → r.seq = c.seq + 1 ∧ (t.life.a = some c ∨ t.life.b = some c)) ∧
      (currentRec s.life = none → r.seq = 1) ∧ t = { s with life := t.life }) ∧
  (∀ s : State, s.life.sampleAt + 4000000 ≤ now s →
    let hot (d : Nat) : Nat := 16 * d + thermalBin (s.opnd (2 * d) 16 : BitVec 16).toInt
    let low (d : Nat) : Nat := 16 * d + droopBin (s.opnd (8 + 2 * d) 16 : BitVec 16).toNat
    Completes .environmentSample s fun t =>
      t.life.sampleAt = now s ∧
      (∀ k, Table.get 0 t.life.live.thermal k =
        Table.get 0 s.life.live.thermal k + if k = hot 0 ∨ k = hot 1 ∨ k = hot 2 ∨ k = hot 3 then 1 else 0) ∧
      (∀ k, Table.get 0 t.life.live.droop k =
        Table.get 0 s.life.live.droop k + if k = low 0 ∨ k = low 1 ∨ k = low 2 ∨ k = low 3 then 1 else 0) ∧
      t = { s with life := t.life }) ∧
  (∀ s : State,
    ((readRecord s.input).good = true →
      exec .configRecordUpdate s = .next { s with hub := { s.hub with nv := readRecord s.input } }) ∧
    ((readRecord s.input).good = false → exec .configRecordUpdate s = .next s)) ∧
  (∀ s : State, Completes .packageReset s fun t =>
    t.fab = State.reset.fab ∧ t.dist = State.reset.dist ∧ t.hyps = State.reset.hyps ∧ t.dies = State.reset.dies ∧ t.fns = [] ∧
    t.links = State.reset.links ∧ t.cycle = 0#64 ∧ t.store.spad = [] ∧ (∀ a, memByte t a = memByte s a ∧ hostByte t a = hostByte s a) ∧
    t.life.a = s.life.a ∧ t.life.b = s.life.b ∧ t.hub.nv = s.hub.nv ∧
    (let good := bootGood s 0 && bootGood s 1 && bootNew s && bootGood s 2
     t.hub.pfOpen = false ∧ t.life.live = { s.life.live with poh := t.life.live.poh } ∧
     (good = true → t.hub.conf = s.hub.nv ∧ ∀ d, coresRun t d = true) ∧
     (good = false → ∀ d, coresRun t d = false))) ∧
  (∀ s : State, Completes .powerLoss s fun t =>
    (∀ a, memByte t a = 0#8 ∧ hostByte t a = hostByte s a) ∧ currentRec t.life = currentRec s.life ∧ t.fab = State.reset.fab ∧
    t.dist = State.reset.dist ∧ t.hub.pfOpen = false ∧ t.hub.nv = s.hub.nv) ∧
  ∀ s : State,
    (s.input ≠ [] → exec .generationIteration s = .next { s with dist := { s.dist with gens := s.dist.gens ++ [inputReq s] } }) ∧
    (s.input = [] → (∀ g, g ∈ s.dist.gens → g.waiting = [] ∧ g.phase = 0#2) → Completes .generationIteration s fun t =>
      t.dist.subq = s.dist.subq ++ (s.dist.gens.flatMap fun g => g.recs).map (fun r => ⟨0#10, true, false, setBits r 264 7#3⟩) ∧
      t.dist.gens = s.dist.gens.map (fun g => { g with phase := 1#2, waiting := syncWaits s (s.dist.gens.flatMap fun g => g.recs) }) ∧
      t = { s with dist := { s.dist with subq := t.dist.subq, gens := t.dist.gens } })

/-- FLIT_RECEIVE with a right CRC and the expected sequence delivers the flit, advances the sequence and drops what it acknowledges from
the retry buffer; a wrong CRC makes a NAK due with the expected sequence and changes nothing else. NAK sends the kept flits from its
sequence on again, and counts a resend of each. LINK_RETRAIN of a port with a flit resent 16 times, or with flits outstanding for 10 µs,
counts a retraining at 32 plus the port; success resumes from the oldest kept flit and counts the resends anew; a third failure in a row
puts the port down and raises vector 2 of the PF; a retrain of a memory link or of the PCI Express link counts at its number or at 50 and
changes nothing else. LINK_TRAINED resumes, and a lost node that the port leads to is lost no longer. What the rules leave open is read as
the model has it, its own choice: log 13, 143, 180. -/
def Obligations.LinkPorts : Prop :=
  ∀ s : State, let p := (s.opnd 0 5 : BitVec 5).toNat
    let z := getZp s p
    let f : BitVec 2048 := s.opnd 1 2048
    p < 18 →
    (flitOk f = true → bits f 0 12 = z.expect → Completes .flitReceive s fun t =>
      let z' := getZp t p
      z'.expect = z.expect + 1#12 ∧ z'.delivered = z.delivered ++ [f] ∧ z'.nakDue = none ∧
      z'.retry = z.retry.filter (fun x => decide (2048 ≤ (bits f 12 12 - x.seq).toNat)) ∧ z'.sent = z.sent ∧ z'.nextSeq = z.nextSeq ∧
      PortIs p s t z' ∧ t = { s with links := t.links }) ∧
    (flitOk f = false → Completes .flitReceive s fun t =>
      PortIs p s t { z with nakDue := some z.expect } ∧ t = { s with links := t.links }) ∧
    (flitOk f = true → bits f 0 12 ≠ z.expect → Completes .flitReceive s fun t =>
      (getZp t p).nakDue = some z.expect ∧ (getZp t p).delivered = z.delivered ∧ (getZp t p).expect = z.expect) ∧
    (Completes .nak s fun t =>
      let late (x : KeptFlit) : Bool := decide ((x.seq - s.opnd 1 12).toNat < 2048)
      PortIs p s t { z with sent := z.sent ++ (z.retry.filter late).map (fun x => x.flit)
                            retry := z.retry.map fun x => if late x then { x with resent := x.resent + 1 } else x } ∧
      t = { s with links := t.links }) ∧
    ((s.opnd 2 2 : BitVec 2) = 0#2 → z.down = false → ((∃ x, x ∈ z.retry ∧ 16 ≤ x.resent) ∨ (z.retry ≠ [] ∧ z.ackAt + 40000 ≤ now s)) →
      Completes .linkRetrain s fun t => RetrainCounted (32 + p) s t ∧
      ((s.opnd 1 1 : BitVec 1) = 1#1 → PortIs p s t (resumed s { z with retrains := z.retrains + 1 })) ∧
      ((s.opnd 1 1 : BitVec 1) = 0#1 →
        PortIs p s t { z with retrains := z.retrains + 1, fails := z.fails + 1, down := decide (2 ≤ z.fails) } ∧
        vget 0 (getFn t 0#10).msix 2 = vget 0 (getFn s 0#10).msix 2 + if 2 ≤ z.fails then 1 else 0)) ∧
    ((s.opnd 2 2 : BitVec 2) = 0#2 → z.down = true ∨ ((∀ x, x ∈ z.retry → x.resent < 16) ∧ (z.retry = [] ∨ now s < z.ackAt + 40000)) →
      exec .linkRetrain s = .next s) ∧
    (∀ k, (s.opnd 2 2 : BitVec 2) = 1#2 ∧ k = p ∨ (s.opnd 2 2 : BitVec 2) = 2#2 ∧ k = 50 → Completes .linkRetrain s fun t =>
      RetrainCounted k s t ∧ t = { s with life := { s.life with live := { s.life.live with retrains := t.life.live.retrains } } }) ∧
    Completes .linkTrained s fun t =>
      getZp t p = resumed s z ∧ (∀ q, q < 18 → q ≠ p → getZp t q = getZp s q) ∧
      ∀ n, n ∈ nodesVia s p → Table.get false t.links.lost n = false

/-- REMOTE_REQUEST_ISSUE of the first waiting request of a requester, with a slot free for it and room on its link, marks it issued now,
takes the slot and keeps one flit more; where only a requester of a later place has taken the last slot in this cycle, that slot is its
and the other one waits again; one behind an older write-back of its bytes waits; a write-back to a peer that is out is over at once.
SLOT_CREDIT returns a slot, up to the reservation. REMOTE_REPLY lands an issued request's answer and returns the slot of a refused one,
also of one that has timed out; REMOTE_TIMEOUT fails it after the timeout, and a port's failure sets POISON in its node's ERR; a request
that is not issued or not due changes nothing. PEER_LOST marks the node, fails every request to it and raises vector 2 of the PF.
FAR_END_REQUEST answers a refused request, and for a write to modules in reach stores the masked bytes of every block and sends credit and
reply; it waits where its answers find no room. What the rules leave open is read as the model has it, its own choice: log 32, 80, 81,
157. -/
def Obligations.RemoteRequests : Prop :=
  (∀ (eng : BitVec 13) (port : BitVec 3) (s : State) (r : Remote), firstWaiting s (issuer s eng port) = some r →
    (peerOut s r.tenant r.node = false → issuedNow s (issuer s eng port) = false → linkRoom s r.node = true → r.behind s = false →
      (slotsAhead s (issuer s eng port) r.pair < freeSlots s r.pair → Completes (.remoteRequestIssue eng port) s fun t =>
        (∀ x, x ∈ t.links.remotes → x.idx = r.idx → x.issued = some (now s)) ∧
        freeSlots t r.pair = min (freeSlots s r.pair - 1) (Table.get 0 s.hub.nearRes r.pair) ∧
        (∀ k, k ≠ r.pair → freeSlots t k = freeSlots s k) ∧
        (∀ p, portTo s r.node = some p → (getZp t p).retry.length = (getZp s p).retry.length + 1) ∧ MemSame s t) ∧
      ∀ q, freeSlots s r.pair ≤ slotsAhead s (issuer s eng port) r.pair → takenAfter s (issuer s eng port) r.pair = some q →
        Completes (.remoteRequestIssue eng port) s fun t =>
          (∀ x, x ∈ t.links.remotes → (x.idx = r.idx → x.issued = some (now s)) ∧ (x.idx = q.idx → x.idx ≠ r.idx → x.issued = none)) ∧
          t.hub = s.hub ∧ t.links.zports = s.links.zports ∧ MemSame s t) ∧
    (peerOut s r.tenant r.node = true → exec (.remoteRequestIssue eng port) s = .next (failRemote s r)) ∧
    (peerOut s r.tenant r.node = false → r.behind s = true → exec (.remoteRequestIssue eng port) s = .next s) ∧
    (∀ id, peerOut s r.tenant r.node = true → r.who = .writeBack id → Completes (.remoteRequestIssue eng port) s fun t =>
      t.links = { s.links with remotes := s.links.remotes.filter fun x => decide (x.idx ≠ r.idx) } ∧ MemSame s t)) ∧
  (∀ s : State, let k := pairKey (s.opnd 0 16) (s.opnd 2 12)
    Completes .slotCredit s fun t =>
      freeSlots t k = min (freeSlots s k + 1) (Table.get 0 s.hub.nearRes k) ∧ (∀ j, j ≠ k → freeSlots t j = freeSlots s j) ∧
      t = { s with hub := { s.hub with nearFree := t.hub.nearFree } }) ∧
  (∀ (s : State) (r : Remote), let idx := (s.opnd 0 16 : BitVec 16).toNat
    ((s.links.remotes.find? fun r => decide (r.idx % 65536 = idx) && r.issued.isSome) = some r →
      ((s.opnd 2 2 : BitVec 2) = 0#2 →
        exec .remoteReply s = .next (landAnswer s r true (s.opnd 3 2048) (s.opnd 259 64) (s.opnd 267 4)) ∧
        (∀ id, r.who = .writeBack id → Completes .remoteReply s fun t =>
          t = { s with links := { s.links with remotes := s.links.remotes.filter fun x => decide (x.idx ≠ r.idx) } })) ∧
      (∀ id, (s.opnd 2 2 : BitVec 2) ≠ 0#2 → r.who = .writeBack id → Completes .remoteReply s fun t =>
        freeSlots t r.pair = min (freeSlots s r.pair + 1) (Table.get 0 s.hub.nearRes r.pair) ∧ ∀ x, x ∈ t.links.remotes → x.idx ≠ r.idx)) ∧
    ((∀ x, x ∈ s.links.remotes → x.idx % 65536 = idx → x.issued = none) →
      exec .remoteTimeout s = .next s ∧
      ((∀ x, x ∈ s.links.late → x.1 % 65536 ≠ idx) → exec .remoteReply s = .next s) ∧
      ∀ x, (s.links.late.find? fun x => decide (x.1 % 65536 = idx)) = some x → Completes .remoteReply s fun t =>
        t = { s with hub := { s.hub with nearFree := t.hub.nearFree }, links := { s.links with late := s.links.late.erase x } } ∧
        freeSlots t x.2 = (if (s.opnd 2 2 : BitVec 2) = 0#2 then freeSlots s x.2
          else min (freeSlots s x.2 + 1) (Table.get 0 s.hub.nearRes x.2)) ∧ ∀ k, k ≠ x.2 → freeSlots t k = freeSlots s k) ∧
    ∀ c, (s.links.remotes.find? fun r => decide (r.idx % 65536 = idx)) = some r → r.issued = some c →
      (now s < c + s.hub.rtimeoutUs.toNat * 4000 → exec .remoteTimeout s = .next s) ∧
      (c + s.hub.rtimeoutUs.toNat * 4000 ≤ now s →
        exec .remoteTimeout s = .next (failRemote { s with links := { s.links with late := s.links.late ++ [(r.idx, r.pair)] } } r) ∧
        ∀ site n, r.who = .port site n → (∃ e, e ∈ (getPort s ⟨site, n⟩).replies ∧ r.idx ∈ e.remote) →
          Completes .remoteTimeout s fun t =>
            (∀ x, x ∈ t.links.remotes → x.idx ≠ r.idx) ∧
            ∀ m0 m, nodeOf s site 0 = some m0 → m ∈ t.dist.nodes → m.id = m0.id → m.err &&& 16#16 = 16#16)) ∧
  (∀ s : State, let node : BitVec 12 := s.opnd 0 12
    (∀ r id, r ∈ s.links.remotes → r.node = node → r.who ≠ .loader id) →
    Completes .peerLost s fun t =>
      Table.get false t.links.lost node.toNat = true ∧ (∀ r, r ∈ t.links.remotes → r.node ≠ node) ∧
      vget 0 (getFn t 0#10).msix 2 = vget 0 (getFn s 0#10).msix 2 + 1) ∧
  ∀ s : State, let r := farReq s
    Table.get false s.links.lost r.peer.toNat = false →
    (answerRoom s r.peer = false → exec .farEndRequest s = .next s) ∧
    (answerRoom s r.peer = true →
    (r.kind = 5#3 → syncBusy s (BitVec.ofNat 12 (r.addr / 2 ^ 20)) (r.addr % 2 ^ 20 / 64 * 64) (64 * r.blocks) = false) →
    (farRefuses s r = true → Completes .farEndRequest s fun t =>
      t.links.answers = s.links.answers ++ [⟨r.peer, r.tenant, 1#2, 0#2048, 0#64, 0#4⟩] ∧ MemSame s t) ∧
    (farRefuses s r = false → Completes .farEndRequest s fun t =>
      let d := (farPerform s r).2
      t.links.answers = s.links.answers ++ [⟨r.peer, r.tenant, 2#2, 0#2048, 0#64, 0#4⟩, ⟨r.peer, r.tenant, 0#2, d.1, d.2.1, d.2.2⟩] ∧
      (r.kind = 0#3 → MemSame s t) ∧
      (r.kind = 1#3 → ∀ i j, i < r.blocks → j < 64 → let a := r.addr / 64 * 64 + 64 * i + j
        moduleCut s a = false →
        memByte t a = if bitAt r.mask (64 * i + j) then bits r.data (8 * (64 * i + j)) 8 else memByte s a)))

/-- For an open window: LSTAT_CLEAR, INVSTAT_CLEAR and CQTAIL_CLEAR clear the flags whose ones are written, PFERR_CLEAR clears LOCKED;
INVAL of an idle function makes it busy with the range and leaves no cached translation of it, and of a busy one sets LOST; a plain write
sets CQBASE without its low 12 bits, CQSZ up to 8 with the enable, CQHEAD, or a word of FWARG. POLICY of one word writes its writable bits
unless the VF is in RUN, which sets LOCKED. INVALIDATION_COMPLETE with no access pending clears BUSY; TDISP_TRANSITION sets RUN;
PACKAGE_FAULT raises vector 2 of the PF. A closed window changes nothing. What the rules leave open is read as the model has it, its own
choice: log 91, 117 to 119, 146. -/
def Obligations.HostRegisters : Prop :=
  (∀ s : State, let fn := regFn s
    let v := regVal s
    let g := afterHalf (getFn s fn)
    windowOpen s fn = true →
    Completes .lstatClear s (fun t => FnIs fn s t { g with badw := g.badw && !bitAt v 32, drop := g.drop && !bitAt v 33, rej := g.rej && !bitAt v 34 }) ∧
    Completes .invstatClear s (fun t => FnIs fn s t { g with invLost := g.invLost && !bitAt v 1 }) ∧
    Completes .cqtailClear s (fun t => FnIs fn s t { g with cqovf := g.cqovf && !bitAt v 32 }) ∧
    (g.invBusy = true → Completes .inval s fun t => FnIs fn s t { g with invLost := true }) ∧
    (g.invBusy = false → Completes .inval s fun t =>
      getFn t fn = { g with invBusy := true, inv := (bits v 0 44, (bits v 44 20).toNat + 1) } ∧ (∀ x, x ≠ fn → getFn t x = getFn s x) ∧
      (fn ≠ 0#10 → NoTrans t (bits g.policy 48 16) ((bits v 0 44).toNat * 4096) (((bits v 44 20).toNat + 1) * 4096)) ∧ MemSame s t)) ∧
  (∀ s : State, windowOpen s (regFn s) = false →
    exec .lstatClear s = .next s ∧ exec .invstatClear s = .next s ∧ exec .cqtailClear s = .next s ∧ exec .inval s = .next s ∧
    exec .registerWrite s = .next s) ∧
  (∀ s : State, windowOpen s 0#10 = true → Completes .pferrClear s fun t =>
    t = { breakHalf s 0#10 with hub := { s.hub with pferrLocked := s.hub.pferrLocked && !bitAt (regVal s) 0 } }) ∧
  (∀ s : State, let fn := regFn s
    let f := getFn s fn
    (f.invBusy = false → exec .invalidationComplete s = .next s) ∧
    (f.invBusy = true → fn = 0#10 ∨ accessPending s (bits f.policy 48 16) (f.inv.1.toNat * 4096) (f.inv.2 * 4096) = false →
      Completes .invalidationComplete s fun t =>
        getFn t fn = { f with invBusy := false } ∧ (∀ x, x ≠ fn → getFn t x = getFn s x) ∧
        (fn ≠ 0#10 → NoTrans t (bits f.policy 48 16) (f.inv.1.toNat * 4096) (f.inv.2 * 4096)) ∧ MemSame s t)) ∧
  (∀ s : State, let off := (s.opnd 0 16 : BitVec 16).toNat
    let v : BitVec 64 := bits (s.opnd 4 4096) 0 64
    let vf : BitVec 10 := BitVec.ofNat 10 ((off - 0x4000) / 32 + 1)
    let w := off / 8 % 4
    windowOpen s 0#10 = true → 0x4000 ≤ off → off < 0x8000 → off % 8 = 0 → (s.opnd 2 16 : BitVec 16) = 8#16 →
    ((getFn s vf).tdispRun = true → Completes .policy s fun t =>
      t = { breakHalf s 0#10 with hub := { s.hub with pferrLocked := true } }) ∧
    ((getFn s vf).tdispRun = false → Completes .policy s fun t =>
      getFn t vf = { getFn s vf with policy := (getFn t vf).policy } ∧ t = { breakHalf s 0#10 with fns := t.fns } ∧
      ∀ k, k < 256 → bitAt (getFn t vf).policy k =
        if k / 64 = w ∧ (k = 0 ∨ (4 ≤ k ∧ k < 99) ∨ (144 ≤ k ∧ k < 192)) then bitAt v (k % 64)
        else if k / 64 = w ∧ k < 4 then false else bitAt (getFn s vf).policy k)) ∧
  (∀ s : State, let fn := regFn s
    let off := (s.opnd 2 16 : BitVec 16).toNat
    let len := (s.opnd 4 16 : BitVec 16).toNat
    let v : BitVec 64 := bits (s.opnd 6 4096) 0 64
    let g := afterHalf (getFn s fn)
    windowOpen s fn = true →
    (len = 8 → off = 0x400 → Completes .registerWrite s fun t => FnIs fn s t { g with cqbase := v &&& 0xFFFFFFFFFFFFF000#64 }) ∧
    (len = 8 → off = 0x408 → Completes .registerWrite s fun t =>
      FnIs fn s t { g with cqsz := BitVec.ofNat 4 (min (bits v 0 4).toNat 8), cqen := bitAt v 8 }) ∧
    (len = 8 → off = 0x410 → Completes .registerWrite s fun t => FnIs fn s t { g with cqhead := bits v 0 12 }) ∧
    (∀ k, k < 32 → fn = 0#10 → len = 8 → off = 0x9100 + 8 * k → Completes .registerWrite s fun t =>
      t = { breakHalf s 0#10 with hub := { s.hub with fwarg := t.hub.fwarg } } ∧ vget 0#64 t.hub.fwarg k = v ∧
      ∀ j, j ≠ k → vget 0#64 t.hub.fwarg j = vget 0#64 s.hub.fwarg j) ∧
    (len ≠ 8 ∨ (off ≠ 0x400 ∧ off ≠ 0x408 ∧ off ≠ 0x410) → fn ≠ 0#10 → Completes .registerWrite s fun t => FnIs fn s t g)) ∧
  ∀ s : State,
    (1 ≤ (regFn s).toNat → (regFn s).toNat ≤ 512 → Completes .tdispTransition s fun t =>
      FnIs (regFn s) s t { getFn s (regFn s) with tdispRun := decide ((s.opnd 2 1 : BitVec 1) = 1#1) }) ∧
    Completes .packageFault s fun t =>
      FnIs 0#10 s t { getFn s 0#10 with msix := vset (getFn s 0#10).msix 2 (vget 0 (getFn s 0#10).msix 2 + 1) }

/-- For an open PF window: a command while another is busy gives RESULT 3, one with a reserved bit or an argument out of range 2, one for
a function in RUN 4, and a reserved code 1, each without another effect. WATCHDOG, ATSTIMEOUT, NODEID, ROUTE, SLOTS, RTIMEOUT, T2POOL,
REBUILD, CTXREAD and CTXSET set their part of the hub; FAULTRING, PASID and OVLRES theirs of a function; WATCHSET the entry of every die.
DBGATTACH names the region, DBGHALT and DBGRESUME set an element's halt flag, site 0xFFF and DBGDETACH resume all. LIFEREAD and ATTEST
write their bytes to host memory. What the rules leave open is read as the model has it, its own choice: log 7, 120 to 124. -/
def Obligations.FirmwareCommands : Prop :=
  (∀ i, i ∈ fwCommands → ∀ s,
    (windowOpen s 0#10 = false → exec i s = .next s) ∧
    (windowOpen s 0#10 = true → s.hub.fwBusy = true → Completes i s fun t =>
      t = { breakHalf s 0#10 with hub := { s.hub with fwResult := 3#8 } }) ∧
    (windowOpen s 0#10 = true → s.hub.fwBusy = false → fwTop s ≠ 0#32 → Completes i s fun t => FwHub s t s.hub 2#8)) ∧
  (∀ s, FwOpen s → ((s.opnd 0 16 : BitVec 16) = 0#16 ∨ 0x14#16 < (s.opnd 0 16 : BitVec 16)) →
    Completes .fwcmdReservedCode s fun t => FwHub s t s.hub 1#8) ∧
  FwSets .watchdog (fun s => 20 ≤ fwNat s 0 ∧ fwNat s 0 ≤ 30) (fun s => { s.hub with watchLg := bits (fwArg s 0) 0 5 }) ∧
  FwSets .atstimeout (fun s => 1 ≤ fwNat s 0 ∧ fwNat s 0 ≤ 64) (fun s => { s.hub with atsMs := bits (fwArg s 0) 0 7 }) ∧
  FwSets .nodeid (fun s => 1 ≤ fwNat s 0 ∧ fwNat s 0 ≤ 4095) (fun s => { s.hub with nodeId := bits (fwArg s 0) 0 12 }) ∧
  FwSets .route (fun s => 1 ≤ fwNat s 0 ∧ fwNat s 0 ≤ 4095 ∧ fwNat s 1 < 2 ^ 18)
    (fun s => { s.hub with zroute := Table.set 0#18 s.hub.zroute (fwNat s 0) (bits (fwArg s 1) 0 18) }) ∧
  FwSets .slots (fun s => bits (fwArg s 0) 28 36 = 0#36 ∧ fwNat s 1 ≤ 64)
    (fun s => { s.hub with farSlots := Table.set 0 s.hub.farSlots (pairKey (bits (fwArg s 0) 0 16) (bits (fwArg s 0) 16 12)) (fwNat s 1) }) ∧
  FwSets .rtimeout (fun s => 100 ≤ fwNat s 0 ∧ fwNat s 0 ≤ 100000) (fun s => { s.hub with rtimeoutUs := bits (fwArg s 0) 0 17 }) ∧
  FwSets .t2pool (fun s => fwNat s 0 % 2097152 = 0) (fun s => { s.hub with t2base := fwArg s 0, t2size := fwArg s 1 }) ∧
  FwSets .rebuild (fun s => fwNat s 1 < 65536) (fun s =>
    let r : BitVec 2048 := if fwNat s 0 = 0 then 0#2048 else BitVec.ofNat 2048 (hostGet s 0#10 (fwNat s 0) 256)
    { s.hub with rebuild := Table.set 0#2048 s.hub.rebuild (fwNat s 1) r }) ∧
  FwSets .ctxread (fun s => fwNat s 0 < 256) (fun s =>
    let e := Table.get 0#256 s.hub.ctxs (fwNat s 0)
    { s.hub with fwarg := vset (vset (vset (vset s.hub.fwarg 0 (bits e 0 64)) 1 (bits e 64 64)) 2 (bits e 128 64)) 3 (bits e 192 64) }) ∧
  (∀ s, FwOpen s → let c := fwNat s 0
    let e : BitVec 256 := fwArg s 4 ++ fwArg s 3 ++ fwArg s 2 ++ fwArg s 1
    let run := (getFn s (bits (Table.get 0#256 s.hub.ctxs c) 0 10)).tdispRun || (getFn s (bits e 0 10)).tdispRun
    (c < 256 → ctxEntryOk s c e = true → run = false → Completes .ctxset s fun t =>
      FwHub s t { s.hub with ctxs := Table.set 0#256 s.hub.ctxs c e } 0#8) ∧
    (c < 256 → ctxEntryOk s c e = true → run = true → Completes .ctxset s fun t => FwHub s t s.hub 4#8) ∧
    (256 ≤ c ∨ ctxEntryOk s c e = false → Completes .ctxset s fun t => FwHub s t s.hub 2#8)) ∧
  FwSetsFn .faultring 0 (fun s => bits (fwArg s 0) 0 12 = 0#12 ∧ bits (fwArg s 1) 9 55 = 0#55 ∧ bits (fwArg s 1) 4 4 = 0#4 ∧
      (bits (fwArg s 1) 0 4).toNat ≤ 8)
    (fun s f => { f with ringBase := fwArg s 0, ringLg := bits (fwArg s 1) 0 4, ringEn := bitAt (fwArg s 1) 8 }) ∧
  FwSetsFn .pasid 1 (fun s => fwNat s 0 < 1048576) (fun s f => { f with pasid := bits (fwArg s 0) 0 20 }) ∧
  FwSetsFn .ovlres 0 (fun s => fwNat s 0 % 67108864 = 0 ∧ fwNat s 0 + fwNat s 1 * 67108864 ≤ moduleTop)
    (fun s f => { f with ovlBase := fwNat s 0, ovlSize := fwNat s 1 }) ∧
  (∀ s, FwOpen s → fwNat s 0 < 4 → fwNat s 1 < 2 ^ 56 → fwNat s 2 < 2 ^ 32 → bits (fwArg s 3) 18 46 = 0#46 →
    (bits (fwArg s 3) 16 2 ≠ 0#2 ∨ fwNat s 2 = 0) → Completes .watchset s fun t =>
      t = { breakHalf s 0#10 with dies := t.dies, hub := { s.hub with fwResult := 0#8, fwBusy := true } } ∧
      ∀ d j, j < 4 → vget ⟨0#56, 0#32, 0#16, 0#2⟩ (getDie t d).watch j =
        if j = fwNat s 0 then ⟨bits (fwArg s 1) 0 56, bits (fwArg s 2) 0 32, bits (fwArg s 3) 0 16, bits (fwArg s 3) 16 2⟩
        else vget ⟨0#56, 0#32, 0#16, 0#2⟩ (getDie s d).watch j) ∧
  (∀ s, FwOpen s → (4 ≤ fwNat s 0 ∨ 2 ^ 56 ≤ fwNat s 1 ∨ 2 ^ 32 ≤ fwNat s 2 ∨ bits (fwArg s 3) 18 46 ≠ 0#46 ∨
    (bits (fwArg s 3) 16 2 = 0#2 ∧ fwNat s 2 ≠ 0)) → Completes .watchset s fun t => FwHub s t s.hub 2#8) ∧
  (∀ s, FwOpen s → bits (fwArg s 0) 48 16 = 0#16 → fwNat s 1 < 65536 →
    (∀ i, dbgTarget s = some i → dbgInst s = none → Completes .dbgattach s fun t => FwHub s t { s.hub with dbg := some i } 0#8) ∧
    (∀ i, dbgTarget s = some i → dbgInst s ≠ none → Completes .dbgattach s fun t => FwHub s t s.hub 5#8) ∧
    (dbgTarget s = none → Completes .dbgattach s fun t => FwHub s t s.hub 2#8)) ∧
  (∀ s, FwOpen s → (bits (fwArg s 0) 48 16 ≠ 0#16 ∨ 65536 ≤ fwNat s 1) → Completes .dbgattach s fun t => FwHub s t s.hub 2#8) ∧
  (∀ s, FwOpen s → (∀ i e, dbgInst s = some i → dbgElem (fwArg s 0) = some e → e ∉ i.elems) →
    Completes .dbghalt s (fun t => FwHub s t s.hub 2#8) ∧
    (bits (fwArg s 0) 0 12 ≠ 0xFFF#12 → Completes .dbgresume s fun t => FwHub s t s.hub 2#8)) ∧
  (∀ s, FwOpen s → bits (fwArg s 0) 0 12 = 0xFFF#12 → (dbgInst s = none ∨ bits (fwArg s 0) 12 52 ≠ 0#52) →
    Completes .dbgresume s fun t => FwHub s t s.hub 2#8) ∧
  (∀ s, FwOpen s → dbgInst s = none → Completes .dbgdetach s fun t => FwHub s t { s.hub with dbg := none } 0#8) ∧
  (∀ s i e, FwOpen s → dbgInst s = some i → dbgElem (fwArg s 0) = some e → e ∈ i.elems →
    Completes .dbghalt s (fun t => Halted t e true ∧ t.hub = { s.hub with fwResult := 0#8, fwBusy := true } ∧ MemSame s t) ∧
    (bits (fwArg s 0) 0 12 ≠ 0xFFF#12 → Completes .dbgresume s fun t =>
      Halted t e false ∧ t.hub = { s.hub with fwResult := 0#8, fwBusy := true } ∧ MemSame s t)) ∧
  (∀ s i, FwOpen s → dbgInst s = some i →
    (fwArg s 0 = 0xFFF#64 → Completes .dbgresume s fun t =>
      (∀ e, e ∈ i.elems → e < 16384 → Halted t e false) ∧ t.hub = { s.hub with fwResult := 0#8, fwBusy := true }) ∧
    Completes .dbgdetach s fun t =>
      (∀ e, e ∈ i.elems → e < 16384 → Halted t e false) ∧ t.hub = { s.hub with dbg := none, fwResult := 0#8, fwBusy := true }) ∧
  (∀ s r, FwOpen s → currentRec s.life = some r →
    let out := r.bytes ++ publicKeyBytes
    out.length ≤ fwNat s 1 → Completes .liferead s fun t =>
      (∀ k b, out[k]? = some b → hostByte t (fwNat s 0 + k) = b) ∧ t.hub = { s.hub with fwResult := 0#8, fwBusy := true } ∧
      ∀ a, memByte t a = memByte s a) ∧
  (∀ s, FwOpen s → (∀ r, currentRec s.life = some r → fwNat s 1 < (r.bytes ++ publicKeyBytes).length) →
    Completes .liferead s fun t => FwHub s t s.hub 2#8) ∧
  ∀ s, FwOpen s →
    let nonce : BitVec 512 := fwArg s 7 ++ fwArg s 6 ++ fwArg s 5 ++ fwArg s 4 ++ fwArg s 3 ++ fwArg s 2 ++ fwArg s 1 ++ fwArg s 0
    let out := attestReport s nonce
    Completes .attest s fun t =>
      (out.length ≤ fwNat s 9 → (∀ k b, out[k]? = some b → hostByte t (fwNat s 8 + k) = b) ∧
        t.hub = { s.hub with fwResult := 0#8, fwBusy := true } ∧ ∀ a, memByte t a = memByte s a) ∧
      (fwNat s 9 < out.length → FwHub s t s.hub 2#8)

/-- In the state after reset nothing is placed, no element holds state, an AG's masks are 0xFFFF, each die is live with an empty fault
ring, indices, sequence and watch entries at 0, die 0 is master, each function has 64 credits and a policy block with MARKLIM 40 and
weights 1, the watchdog exponent is 24, the ATS timeout 50 ms and the remote timeout 1,000 µs, only hypothesis 0 is live, the cycle
counter is 0, and the PF is not open. What the rules leave open is read as the model has it, its own choice: log 3, 148. -/
def Obligations.ResetState : Prop :=
  let s := State.reset
  s.cycle = 0#64 ∧ s.dist.nodes = [] ∧ s.dist.insts = [] ∧ s.dist.jobs = [] ∧ s.dist.master = 0#2 ∧ s.hub.pfOpen = false ∧
  s.hub.watchLg = 24#5 ∧ s.hub.atsMs = 50#7 ∧ s.hub.rtimeoutUs = 1000#17 ∧ s.hub.nodeId = 0#12 ∧
  (∀ site task, getTask s site task = Task.empty ∧ ownerOf s site 0 = none) ∧
  (∀ loc, (getAg s loc).mask = 0xFFFF#16 ∧ (getAg s loc).tmask = 0xFFFF#16 ∧ (getAg s loc).pc = 0#5 ∧ (getAg s loc).base = 0#56) ∧
  (∀ d, (getDie s d).live = true ∧ (getDie s d).ring = [] ∧ (getDie s d).fhead = 0#8 ∧ (getDie s d).ftail = 0#8 ∧
    (getDie s d).seq = 0#16 ∧ (getDie s d).discards = 0#32 ∧ (getDie s d).escals = 0#32 ∧
    ∀ j, j < 4 → vget ⟨1#56, 0#32, 0#16, 0#2⟩ (getDie s d).watch j = ⟨0#56, 0#32, 0#16, 0#2⟩) ∧
  (∀ f, (getFn s f).credits = 64#7 ∧ bits (getFn s f).policy 144 16 = 40#16 ∧ bits (getFn s f).policy 4 16 = 0x1111#16 ∧
    (getFn s f).ringEn = false ∧ (getFn s f).cqen = false) ∧
  ∀ ctx h, hypLive s ctx h = decide (h = 0#6)

/-- After reset storage has its canonical form, and every live hypothesis other than id 0 has a parent of a lower number. What the rules
leave open is read as the model has it, its own choice: log 5. -/
def Obligations.ResetKeepsInvariant : Prop :=
  Inv State.reset

/-- With an empty agenda or a tick at its front the step is one cycle of the clock. With any other move at its front whose record, read
from the element's store, decodes to a well-formed instruction, the step is exec of that instruction at the state with the move taken off
and its input presented; a move without a record is only taken off; a record that does not decode or is ill-formed faults by name, but for
an engine's command word. The model's own order of moves is its choice (log 1). -/
def Obligations.StepRunsDecoded : Prop :=
  ∀ s : State,
    (s.agenda = [] → step s = .next (tick s)) ∧
    ∀ m ms, s.agenda = m :: ms →
      let t : State := { s with agenda := ms, input := moveInput m }
      (m = .tick → step s = .next (tick t)) ∧
      (m ≠ .tick → moveRecord t m = none → step s = .next t) ∧
      (∀ bs i, m ≠ .tick → moveRecord t m = some bs → decode bs = .ok i → wf i = true → step s = exec i t) ∧
      (∀ bs i, m ≠ .tick → (∀ j, m ≠ .engine j) → moveRecord t m = some bs → decode bs = .ok i → wf i = false → step s = .fault .illFormed) ∧
      (∀ bs r, m ≠ .tick → (∀ j, m ≠ .engine j) → moveRecord t m = some bs → decode bs = .error r → step s = .fault (.badRecord r)) ∧
      (∀ site task slot, m = .stage site task slot → moveRecord t m = some (slotRecord site task slot
        (bits (frame t site 0 0 (getTask t site task).pc.toNat) (180 - 36 * slot.toNat) 36))) ∧
      (∀ site sub, m = .ag site sub → let pc := (getAg t ⟨site, sub⟩).pc.toNat
        moveRecord t m = some (agRecord ⟨site, sub⟩ (bits (frame t site 3 sub.toNat (pc / 4)) (64 * (pc % 4)) 64)))

/-- A stage slot of ADD with A = 24, B = 25, OUT = 1 and PRED = 7 (R224); a port descriptor of LD with LVL 2, HINT 1 and ASRC 1 (R231); an
AG word of ALOOP at level 5 with COUNT 3 and STRIDE 64 (R330); an engine word of MXZERO with SJ and SOFF 16 (R339); an operator frame of
DUP with one input and two outputs (R239): each decodes to that instruction with those fields; a reserved opcode of each space is refused,
and so is an AG word with a bit that its operation does not name. -/
def Obligations.DecodeWords : Prop :=
  (∀ site task slot, decodeSlot site task slot 0b00001000_011000_011001_000000_001_0111_000#36 =
    .ok (.add ⟨site, task, slot, 24#6, 25#6, 0#6, 1#3, 7#4, 0#3⟩)) ∧
  (∀ loc, decodePort loc (0b00000001_010_001_01#16 ++ 0#48) = .ok (.ld loc ⟨2#3, 1#3, 1#2, 0#48⟩)) ∧
  (∀ loc, decodeAg loc 0b000001_101_0000000000000000000000011_000000000000000000000001000000#64 = .ok (.aloop loc 5#3 3#25 64#30)) ∧
  (∀ eng, decodeEng eng (0b00010100_000_1_000000000000_0000000000010000#40 ++ 0#88) = .ok (.mxzero eng ⟨0#3, 1#1, 0#12, 16#16, 0#88⟩)) ∧
  (∀ loc, decodeOp loc (0#243 ++ 0b00010_0001_0100#13) = .ok (.dup loc ⟨1#4, 2#5, 0#128, 0#96⟩)) ∧
  (∀ site task slot, decodeSlot site task slot 0xFF0000000#36 = .error .reservedOpcode) ∧
  (∀ loc, decodePort loc 0x1900000000000000#64 = .error .reservedOpcode) ∧
  (∀ loc, decodeAg loc 0x0400000000000000#64 = .ok (.aloop loc 0#3 0#25 0#30) ∧ decodeAg loc 0x0800000000000001#64 = .error .reservedBits) ∧
  ∀ eng, decodeEng eng 0#128 = .error .reservedOpcode

/-- For every well-formed instruction, with every operand at every value that its encoding admits, the decoder reads the instruction back
from its record; and a record that decodes, other than that of a step whose input comes from outside, is the record of the instruction it
decodes to. The record around the spec's words is the model's own form (log 2). -/
def Obligations.RoundTrip : Prop :=
  (∀ i : Instr, wf i = true → decode (encode i) = .ok i) ∧
  ∀ (bs : List Byte) (i : Instr), bs.head? ≠ some 7#8 → decode bs = .ok i → encode i = bs

/-- From every state, reached or not, in which all storage tables list rising addresses and no default, and in which every live hypothesis
has a parent of a lower number, a step that answers a next state answers one with both properties. The form of the tables is the model's
own (log 5). -/
def Obligations.StepKeepsInvariant : Prop :=
  ∀ s t : State, Inv s → step s = .next t → Inv t
end

