-- ==== Sys2Proof/Laws/Table.lean ====
section
/-! SUPPORT. The sparse table: what a read after a write gives, and that a write keeps the canonical form. -/

namespace Sys2Proof.Laws

variable {α : Type}

/-- The keys of a table that rises from `lo` are at least `lo`: a key below holds the default. -/
theorem get_below (d : α) (t : Table α) (lo k : Nat) (h : Table.sortedFrom lo t = true) (hk : k < lo) :
    Table.get d t k = d := by
  induction t generalizing lo with
  | nil => rfl
  | cons e t ih =>
    simp only [Table.sortedFrom, Bool.and_eq_true, decide_eq_true_eq] at h
    have : e.1 ≠ k := by omega
    simp only [Table.get, this, if_false]
    exact ih (e.1 + 1) h.2 (by omega)

/-- A lower bound may be lowered. -/
theorem sortedFrom_mono {t : Table α} {a b : Nat} (h : Table.sortedFrom b t = true) (hab : a ≤ b) :
    Table.sortedFrom a t = true := by
  cases t with
  | nil => rfl
  | cons e t =>
    simp only [Table.sortedFrom, Bool.and_eq_true, decide_eq_true_eq] at h ⊢
    exact ⟨by omega, h.2⟩

/-- Reading what was inserted. -/
theorem get_insert_self (d : α) (t : Table α) (k : Nat) (v : α) : Table.get d (Table.insert t k v) k = v := by
  induction t with
  | nil => simp [Table.insert, Table.get]
  | cons e t ih =>
    simp only [Table.insert]
    split
    · simp [Table.get]
    · split
      · simp [Table.get]
      · simp [Table.get, *]

/-- An insertion leaves every other key. -/
theorem get_insert_other (d : α) (t : Table α) {k j : Nat} (v : α) (h : j ≠ k) :
    Table.get d (Table.insert t k v) j = Table.get d t j := by
  have h' : ¬ k = j := fun e => h e.symm
  induction t with
  | nil => simp [Table.insert, Table.get, h']
  | cons e t ih =>
    simp only [Table.insert]
    split
    · simp [Table.get, h']
    · split
      · rename_i hk
        have : ¬ e.1 = j := by omega
        simp [Table.get, h', this]
      · simp only [Table.get, ih]

/-- An erased key holds the default. -/
theorem get_erase_self (d : α) (t : Table α) (k : Nat) : Table.get d (Table.erase t k) k = d := by
  induction t with
  | nil => rfl
  | cons e t ih =>
    simp only [Table.erase]
    split
    · exact ih
    · rename_i hk
      simp only [Table.get, hk, if_false, ih]

/-- Erasing a key leaves every other one. -/
theorem get_erase_other (d : α) (t : Table α) {k j : Nat} (h : j ≠ k) : Table.get d (Table.erase t k) j = Table.get d t j := by
  induction t with
  | nil => rfl
  | cons e t ih =>
    simp only [Table.erase]
    split
    · rename_i hk
      have : ¬ e.1 = j := by omega
      simp [Table.get, this, ih]
    · simp only [Table.get, ih]

/-- An insertion keeps the order of the keys. -/
theorem insert_sorted {t : Table α} {lo k : Nat} (v : α) (h : Table.sortedFrom lo t = true) (hk : lo ≤ k) :
    Table.sortedFrom lo (Table.insert t k v) = true := by
  induction t generalizing lo with
  | nil => simpa [Table.insert, Table.sortedFrom] using hk
  | cons e t ih =>
    simp only [Table.sortedFrom, Bool.and_eq_true, decide_eq_true_eq] at h
    simp only [Table.insert]
    split
    · simp only [Table.sortedFrom, Bool.and_eq_true, decide_eq_true_eq]
      exact ⟨hk, by omega, h.2⟩
    · split
      · rename_i h1 h2
        simp only [Table.sortedFrom, Bool.and_eq_true, decide_eq_true_eq]
        exact ⟨hk, by rw [← h2]; exact h.2⟩
      · simp only [Table.sortedFrom, Bool.and_eq_true, decide_eq_true_eq]
        exact ⟨h.1, ih h.2 (by omega)⟩

/-- Erasing keeps the order of the keys. -/
theorem erase_sorted {t : Table α} {lo k : Nat} (h : Table.sortedFrom lo t = true) :
    Table.sortedFrom lo (Table.erase t k) = true := by
  induction t generalizing lo with
  | nil => rfl
  | cons e t ih =>
    simp only [Table.sortedFrom, Bool.and_eq_true, decide_eq_true_eq] at h
    simp only [Table.erase]
    split
    · exact sortedFrom_mono (ih h.2) (by omega)
    · simp only [Table.sortedFrom, Bool.and_eq_true, decide_eq_true_eq]
      exact ⟨h.1, ih h.2⟩

/-- What an insertion holds of every entry: the new one and the old ones. -/
theorem insert_all {p : Nat × α → Bool} {t : Table α} {k : Nat} {v : α} (h : t.all p = true) (hv : p (k, v) = true) :
    (Table.insert t k v).all p = true := by
  induction t with
  | nil => simpa [Table.insert] using hv
  | cons e t ih =>
    simp only [List.all_cons, Bool.and_eq_true] at h
    simp only [Table.insert]
    split
    · simp [hv, h]
    · split <;> simp_all [List.all_cons]

/-- Erasing keeps what holds of every entry. -/
theorem erase_all {p : Nat × α → Bool} {t : Table α} {k : Nat} (h : t.all p = true) : (Table.erase t k).all p = true := by
  induction t with
  | nil => rfl
  | cons e t ih =>
    simp only [List.all_cons, Bool.and_eq_true] at h
    simp only [Table.erase]
    split
    · exact ih h.2
    · simp [h.1, ih h.2]

/-- Keeping some entries keeps the order of the keys. -/
theorem filter_sorted {t : Table α} {lo : Nat} (p : Nat × α → Bool) (h : Table.sortedFrom lo t = true) :
    Table.sortedFrom lo (t.filter p) = true := by
  induction t generalizing lo with
  | nil => rfl
  | cons e t ih =>
    simp only [Table.sortedFrom, Bool.and_eq_true, decide_eq_true_eq] at h
    rw [List.filter_cons]
    split
    · simp only [Table.sortedFrom, Bool.and_eq_true, decide_eq_true_eq]
      exact ⟨h.1, ih h.2⟩
    · exact sortedFrom_mono (ih h.2) (by omega)

variable [DecidableEq α]

/-- The canonical form has rising keys. -/
theorem wf_sorted {d : α} {t : Table α} (h : Table.wf d t = true) : Table.sortedFrom 0 t = true := by
  simp only [Table.wf, Bool.and_eq_true] at h
  exact h.1

/-- Reading a key just written gives the value written. -/
theorem get_set_self (d : α) (t : Table α) (k : Nat) (v : α) :
    Table.get d (Table.set d t k v) k = v := by
  unfold Table.set
  split
  · rename_i e
    rw [e]
    exact get_erase_self d t k
  · exact get_insert_self d t k v

/-- A write leaves every other key. -/
theorem get_set_other (d : α) (t : Table α) {k j : Nat} (v : α) (h : j ≠ k) :
    Table.get d (Table.set d t k v) j = Table.get d t j := by
  unfold Table.set
  split
  · exact get_erase_other d t h
  · exact get_insert_other d t v h

/-- A write keeps the canonical form. -/
theorem set_wf {d : α} {t : Table α} (k : Nat) (v : α) (h : Table.wf d t = true) : Table.wf d (Table.set d t k v) = true := by
  simp only [Table.wf, Bool.and_eq_true] at h
  unfold Table.set
  split
  · simp only [Table.wf, Bool.and_eq_true]
    exact ⟨erase_sorted h.1, erase_all h.2⟩
  · rename_i hv
    simp only [Table.wf, Bool.and_eq_true]
    exact ⟨insert_sorted v h.1 (by omega), insert_all h.2 (by simpa using hv)⟩

/-- Keeping some entries keeps the canonical form. -/
theorem filter_wf {d : α} {t : Table α} (p : Nat × α → Bool) (h : Table.wf d t = true) : Table.wf d (t.filter p) = true := by
  simp only [Table.wf, Bool.and_eq_true] at h ⊢
  refine ⟨filter_sorted p h.1, ?_⟩
  rw [List.all_eq_true] at h ⊢
  exact fun e he => h.2 e (List.mem_filter.1 he).1

/-- The empty table is canonical. -/
theorem nil_wf (d : α) : Table.wf d ([] : Table α) = true := rfl

end Sys2Proof.Laws
end

