-- ==== Sys2Proof/Laws/State.lean ====
section
/-! SUPPORT. The small laws of the state's updates: what each leaves alone, by field, and what the reads of a part give after a write
of it. -/

namespace Sys2Proof.Machine

open Sys2Proof

/-! ## setCe -/

@[simp] theorem setCe_agenda (s : State) (site : Site) (c : Ce) : (setCe s site c).agenda = s.agenda := rfl
@[simp] theorem setCe_input (s : State) (site : Site) (c : Ce) : (setCe s site c).input = s.input := rfl
@[simp] theorem setCe_free (s : State) (site : Site) (c : Ce) : (setCe s site c).free = s.free := rfl
@[simp] theorem setCe_cycle (s : State) (site : Site) (c : Ce) : (setCe s site c).cycle = s.cycle := rfl
@[simp] theorem setCe_store (s : State) (site : Site) (c : Ce) : (setCe s site c).store = s.store := rfl
@[simp] theorem setCe_dist (s : State) (site : Site) (c : Ce) : (setCe s site c).dist = s.dist := rfl
@[simp] theorem setCe_hyps (s : State) (site : Site) (c : Ce) : (setCe s site c).hyps = s.hyps := rfl
@[simp] theorem setCe_dies (s : State) (site : Site) (c : Ce) : (setCe s site c).dies = s.dies := rfl
@[simp] theorem setCe_fns (s : State) (site : Site) (c : Ce) : (setCe s site c).fns = s.fns := rfl
@[simp] theorem setCe_hub (s : State) (site : Site) (c : Ce) : (setCe s site c).hub = s.hub := rfl
@[simp] theorem setCe_links (s : State) (site : Site) (c : Ce) : (setCe s site c).links = s.links := rfl
@[simp] theorem setCe_life (s : State) (site : Site) (c : Ce) : (setCe s site c).life = s.life := rfl
@[simp] theorem setCe_sets (s : State) (site : Site) (c : Ce) : (setCe s site c).sets = s.sets := rfl
@[simp] theorem setCe_fab_bufs (s : State) (site : Site) (c : Ce) : (setCe s site c).fab.bufs = s.fab.bufs := rfl
@[simp] theorem setCe_fab_routes (s : State) (site : Site) (c : Ce) : (setCe s site c).fab.routes = s.fab.routes := rfl
@[simp] theorem setCe_fab_outs (s : State) (site : Site) (c : Ce) : (setCe s site c).fab.outs = s.fab.outs := rfl
@[simp] theorem setCe_fab_ops (s : State) (site : Site) (c : Ce) : (setCe s site c).fab.ops = s.fab.ops := rfl
@[simp] theorem setCe_fab_frames (s : State) (site : Site) (c : Ce) : (setCe s site c).fab.frames = s.fab.frames := rfl
@[simp] theorem setCe_fab_shadow (s : State) (site : Site) (c : Ce) : (setCe s site c).fab.shadow = s.fab.shadow := rfl
@[simp] theorem setCe_fab_owner (s : State) (site : Site) (c : Ce) : (setCe s site c).fab.owner = s.fab.owner := rfl
@[simp] theorem setCe_fab_zeroing (s : State) (site : Site) (c : Ce) : (setCe s site c).fab.zeroing = s.fab.zeroing := rfl
@[simp] theorem setCe_fab_withdrawn (s : State) (site : Site) (c : Ce) : (setCe s site c).fab.withdrawn = s.fab.withdrawn := rfl
@[simp] theorem setCe_fab_mts (s : State) (site : Site) (c : Ce) : (setCe s site c).fab.mts = s.fab.mts := rfl
@[simp] theorem setCe_fab_ags (s : State) (site : Site) (c : Ce) : (setCe s site c).fab.ags = s.fab.ags := rfl
@[simp] theorem setCe_fab_mxs (s : State) (site : Site) (c : Ce) : (setCe s site c).fab.mxs = s.fab.mxs := rfl
@[simp] theorem setCe_fab_hpus (s : State) (site : Site) (c : Ce) : (setCe s site c).fab.hpus = s.fab.hpus := rfl
@[simp] theorem setCe_fab_cps (s : State) (site : Site) (c : Ce) : (setCe s site c).fab.cps = s.fab.cps := rfl
@[simp] theorem setCe_fab_stes (s : State) (site : Site) (c : Ce) : (setCe s site c).fab.stes = s.fab.stes := rfl
@[simp] theorem getMt_setCe (s : State) (site : Site) (c : Ce) (site' : Site) : getMt (setCe s site c) site' = getMt s site' := rfl
@[simp] theorem getAg_setCe (s : State) (site : Site) (c : Ce) (loc : AgAt) : getAg (setCe s site c) loc = getAg s loc := rfl
@[simp] theorem getMx_setCe (s : State) (site : Site) (c : Ce) (site' : Site) : getMx (setCe s site c) site' = getMx s site' := rfl
@[simp] theorem getHpu_setCe (s : State) (site : Site) (c : Ce) (site' : Site) : getHpu (setCe s site c) site' = getHpu s site' := rfl
@[simp] theorem getCp_setCe (s : State) (site : Site) (c : Ce) (site' : Site) : getCp (setCe s site c) site' = getCp s site' := rfl
@[simp] theorem getSte_setCe (s : State) (site : Site) (c : Ce) (site' : Site) : getSte (setCe s site c) site' = getSte s site' := rfl
@[simp] theorem getOp_setCe (s : State) (site : Site) (c : Ce) (loc : OpAt) : getOp (setCe s site c) loc = getOp s loc := rfl
@[simp] theorem getBuf_setCe (s : State) (site : Site) (c : Ce) (k : Nat) : getBuf (setCe s site c) k = getBuf s k := rfl

/-! ## setMt -/

@[simp] theorem setMt_agenda (s : State) (site : Site) (c : Mt) : (setMt s site c).agenda = s.agenda := rfl
@[simp] theorem setMt_input (s : State) (site : Site) (c : Mt) : (setMt s site c).input = s.input := rfl
@[simp] theorem setMt_free (s : State) (site : Site) (c : Mt) : (setMt s site c).free = s.free := rfl
@[simp] theorem setMt_cycle (s : State) (site : Site) (c : Mt) : (setMt s site c).cycle = s.cycle := rfl
@[simp] theorem setMt_store (s : State) (site : Site) (c : Mt) : (setMt s site c).store = s.store := rfl
@[simp] theorem setMt_dist (s : State) (site : Site) (c : Mt) : (setMt s site c).dist = s.dist := rfl
@[simp] theorem setMt_hyps (s : State) (site : Site) (c : Mt) : (setMt s site c).hyps = s.hyps := rfl
@[simp] theorem setMt_dies (s : State) (site : Site) (c : Mt) : (setMt s site c).dies = s.dies := rfl
@[simp] theorem setMt_fns (s : State) (site : Site) (c : Mt) : (setMt s site c).fns = s.fns := rfl
@[simp] theorem setMt_hub (s : State) (site : Site) (c : Mt) : (setMt s site c).hub = s.hub := rfl
@[simp] theorem setMt_links (s : State) (site : Site) (c : Mt) : (setMt s site c).links = s.links := rfl
@[simp] theorem setMt_life (s : State) (site : Site) (c : Mt) : (setMt s site c).life = s.life := rfl
@[simp] theorem setMt_sets (s : State) (site : Site) (c : Mt) : (setMt s site c).sets = s.sets := rfl
@[simp] theorem setMt_fab_bufs (s : State) (site : Site) (c : Mt) : (setMt s site c).fab.bufs = s.fab.bufs := rfl
@[simp] theorem setMt_fab_routes (s : State) (site : Site) (c : Mt) : (setMt s site c).fab.routes = s.fab.routes := rfl
@[simp] theorem setMt_fab_outs (s : State) (site : Site) (c : Mt) : (setMt s site c).fab.outs = s.fab.outs := rfl
@[simp] theorem setMt_fab_ops (s : State) (site : Site) (c : Mt) : (setMt s site c).fab.ops = s.fab.ops := rfl
@[simp] theorem setMt_fab_frames (s : State) (site : Site) (c : Mt) : (setMt s site c).fab.frames = s.fab.frames := rfl
@[simp] theorem setMt_fab_shadow (s : State) (site : Site) (c : Mt) : (setMt s site c).fab.shadow = s.fab.shadow := rfl
@[simp] theorem setMt_fab_owner (s : State) (site : Site) (c : Mt) : (setMt s site c).fab.owner = s.fab.owner := rfl
@[simp] theorem setMt_fab_zeroing (s : State) (site : Site) (c : Mt) : (setMt s site c).fab.zeroing = s.fab.zeroing := rfl
@[simp] theorem setMt_fab_withdrawn (s : State) (site : Site) (c : Mt) : (setMt s site c).fab.withdrawn = s.fab.withdrawn := rfl
@[simp] theorem setMt_fab_ces (s : State) (site : Site) (c : Mt) : (setMt s site c).fab.ces = s.fab.ces := rfl
@[simp] theorem setMt_fab_ags (s : State) (site : Site) (c : Mt) : (setMt s site c).fab.ags = s.fab.ags := rfl
@[simp] theorem setMt_fab_mxs (s : State) (site : Site) (c : Mt) : (setMt s site c).fab.mxs = s.fab.mxs := rfl
@[simp] theorem setMt_fab_hpus (s : State) (site : Site) (c : Mt) : (setMt s site c).fab.hpus = s.fab.hpus := rfl
@[simp] theorem setMt_fab_cps (s : State) (site : Site) (c : Mt) : (setMt s site c).fab.cps = s.fab.cps := rfl
@[simp] theorem setMt_fab_stes (s : State) (site : Site) (c : Mt) : (setMt s site c).fab.stes = s.fab.stes := rfl
@[simp] theorem getCe_setMt (s : State) (site : Site) (c : Mt) (site' : Site) : getCe (setMt s site c) site' = getCe s site' := rfl
@[simp] theorem getAg_setMt (s : State) (site : Site) (c : Mt) (loc : AgAt) : getAg (setMt s site c) loc = getAg s loc := rfl
@[simp] theorem getMx_setMt (s : State) (site : Site) (c : Mt) (site' : Site) : getMx (setMt s site c) site' = getMx s site' := rfl
@[simp] theorem getHpu_setMt (s : State) (site : Site) (c : Mt) (site' : Site) : getHpu (setMt s site c) site' = getHpu s site' := rfl
@[simp] theorem getCp_setMt (s : State) (site : Site) (c : Mt) (site' : Site) : getCp (setMt s site c) site' = getCp s site' := rfl
@[simp] theorem getSte_setMt (s : State) (site : Site) (c : Mt) (site' : Site) : getSte (setMt s site c) site' = getSte s site' := rfl
@[simp] theorem getOp_setMt (s : State) (site : Site) (c : Mt) (loc : OpAt) : getOp (setMt s site c) loc = getOp s loc := rfl
@[simp] theorem getBuf_setMt (s : State) (site : Site) (c : Mt) (k : Nat) : getBuf (setMt s site c) k = getBuf s k := rfl

/-! ## setAg -/

@[simp] theorem setAg_agenda (s : State) (loc : AgAt) (c : Ag) : (setAg s loc c).agenda = s.agenda := rfl
@[simp] theorem setAg_input (s : State) (loc : AgAt) (c : Ag) : (setAg s loc c).input = s.input := rfl
@[simp] theorem setAg_free (s : State) (loc : AgAt) (c : Ag) : (setAg s loc c).free = s.free := rfl
@[simp] theorem setAg_cycle (s : State) (loc : AgAt) (c : Ag) : (setAg s loc c).cycle = s.cycle := rfl
@[simp] theorem setAg_store (s : State) (loc : AgAt) (c : Ag) : (setAg s loc c).store = s.store := rfl
@[simp] theorem setAg_dist (s : State) (loc : AgAt) (c : Ag) : (setAg s loc c).dist = s.dist := rfl
@[simp] theorem setAg_hyps (s : State) (loc : AgAt) (c : Ag) : (setAg s loc c).hyps = s.hyps := rfl
@[simp] theorem setAg_dies (s : State) (loc : AgAt) (c : Ag) : (setAg s loc c).dies = s.dies := rfl
@[simp] theorem setAg_fns (s : State) (loc : AgAt) (c : Ag) : (setAg s loc c).fns = s.fns := rfl
@[simp] theorem setAg_hub (s : State) (loc : AgAt) (c : Ag) : (setAg s loc c).hub = s.hub := rfl
@[simp] theorem setAg_links (s : State) (loc : AgAt) (c : Ag) : (setAg s loc c).links = s.links := rfl
@[simp] theorem setAg_life (s : State) (loc : AgAt) (c : Ag) : (setAg s loc c).life = s.life := rfl
@[simp] theorem setAg_sets (s : State) (loc : AgAt) (c : Ag) : (setAg s loc c).sets = s.sets := rfl
@[simp] theorem setAg_fab_bufs (s : State) (loc : AgAt) (c : Ag) : (setAg s loc c).fab.bufs = s.fab.bufs := rfl
@[simp] theorem setAg_fab_routes (s : State) (loc : AgAt) (c : Ag) : (setAg s loc c).fab.routes = s.fab.routes := rfl
@[simp] theorem setAg_fab_outs (s : State) (loc : AgAt) (c : Ag) : (setAg s loc c).fab.outs = s.fab.outs := rfl
@[simp] theorem setAg_fab_ops (s : State) (loc : AgAt) (c : Ag) : (setAg s loc c).fab.ops = s.fab.ops := rfl
@[simp] theorem setAg_fab_frames (s : State) (loc : AgAt) (c : Ag) : (setAg s loc c).fab.frames = s.fab.frames := rfl
@[simp] theorem setAg_fab_shadow (s : State) (loc : AgAt) (c : Ag) : (setAg s loc c).fab.shadow = s.fab.shadow := rfl
@[simp] theorem setAg_fab_owner (s : State) (loc : AgAt) (c : Ag) : (setAg s loc c).fab.owner = s.fab.owner := rfl
@[simp] theorem setAg_fab_zeroing (s : State) (loc : AgAt) (c : Ag) : (setAg s loc c).fab.zeroing = s.fab.zeroing := rfl
@[simp] theorem setAg_fab_withdrawn (s : State) (loc : AgAt) (c : Ag) : (setAg s loc c).fab.withdrawn = s.fab.withdrawn := rfl
@[simp] theorem setAg_fab_ces (s : State) (loc : AgAt) (c : Ag) : (setAg s loc c).fab.ces = s.fab.ces := rfl
@[simp] theorem setAg_fab_mts (s : State) (loc : AgAt) (c : Ag) : (setAg s loc c).fab.mts = s.fab.mts := rfl
@[simp] theorem setAg_fab_mxs (s : State) (loc : AgAt) (c : Ag) : (setAg s loc c).fab.mxs = s.fab.mxs := rfl
@[simp] theorem setAg_fab_hpus (s : State) (loc : AgAt) (c : Ag) : (setAg s loc c).fab.hpus = s.fab.hpus := rfl
@[simp] theorem setAg_fab_cps (s : State) (loc : AgAt) (c : Ag) : (setAg s loc c).fab.cps = s.fab.cps := rfl
@[simp] theorem setAg_fab_stes (s : State) (loc : AgAt) (c : Ag) : (setAg s loc c).fab.stes = s.fab.stes := rfl
@[simp] theorem getCe_setAg (s : State) (loc : AgAt) (c : Ag) (site : Site) : getCe (setAg s loc c) site = getCe s site := rfl
@[simp] theorem getMt_setAg (s : State) (loc : AgAt) (c : Ag) (site : Site) : getMt (setAg s loc c) site = getMt s site := rfl
@[simp] theorem getMx_setAg (s : State) (loc : AgAt) (c : Ag) (site : Site) : getMx (setAg s loc c) site = getMx s site := rfl
@[simp] theorem getHpu_setAg (s : State) (loc : AgAt) (c : Ag) (site : Site) : getHpu (setAg s loc c) site = getHpu s site := rfl
@[simp] theorem getCp_setAg (s : State) (loc : AgAt) (c : Ag) (site : Site) : getCp (setAg s loc c) site = getCp s site := rfl
@[simp] theorem getSte_setAg (s : State) (loc : AgAt) (c : Ag) (site : Site) : getSte (setAg s loc c) site = getSte s site := rfl
@[simp] theorem getOp_setAg (s : State) (loc : AgAt) (c : Ag) (loc' : OpAt) : getOp (setAg s loc c) loc' = getOp s loc' := rfl
@[simp] theorem getBuf_setAg (s : State) (loc : AgAt) (c : Ag) (k : Nat) : getBuf (setAg s loc c) k = getBuf s k := rfl

/-! ## setMx -/

@[simp] theorem setMx_agenda (s : State) (site : Site) (c : Mx) : (setMx s site c).agenda = s.agenda := rfl
@[simp] theorem setMx_input (s : State) (site : Site) (c : Mx) : (setMx s site c).input = s.input := rfl
@[simp] theorem setMx_free (s : State) (site : Site) (c : Mx) : (setMx s site c).free = s.free := rfl
@[simp] theorem setMx_cycle (s : State) (site : Site) (c : Mx) : (setMx s site c).cycle = s.cycle := rfl
@[simp] theorem setMx_store (s : State) (site : Site) (c : Mx) : (setMx s site c).store = s.store := rfl
@[simp] theorem setMx_dist (s : State) (site : Site) (c : Mx) : (setMx s site c).dist = s.dist := rfl
@[simp] theorem setMx_hyps (s : State) (site : Site) (c : Mx) : (setMx s site c).hyps = s.hyps := rfl
@[simp] theorem setMx_dies (s : State) (site : Site) (c : Mx) : (setMx s site c).dies = s.dies := rfl
@[simp] theorem setMx_fns (s : State) (site : Site) (c : Mx) : (setMx s site c).fns = s.fns := rfl
@[simp] theorem setMx_hub (s : State) (site : Site) (c : Mx) : (setMx s site c).hub = s.hub := rfl
@[simp] theorem setMx_links (s : State) (site : Site) (c : Mx) : (setMx s site c).links = s.links := rfl
@[simp] theorem setMx_life (s : State) (site : Site) (c : Mx) : (setMx s site c).life = s.life := rfl
@[simp] theorem setMx_sets (s : State) (site : Site) (c : Mx) : (setMx s site c).sets = s.sets := rfl
@[simp] theorem setMx_fab_bufs (s : State) (site : Site) (c : Mx) : (setMx s site c).fab.bufs = s.fab.bufs := rfl
@[simp] theorem setMx_fab_routes (s : State) (site : Site) (c : Mx) : (setMx s site c).fab.routes = s.fab.routes := rfl
@[simp] theorem setMx_fab_outs (s : State) (site : Site) (c : Mx) : (setMx s site c).fab.outs = s.fab.outs := rfl
@[simp] theorem setMx_fab_ops (s : State) (site : Site) (c : Mx) : (setMx s site c).fab.ops = s.fab.ops := rfl
@[simp] theorem setMx_fab_frames (s : State) (site : Site) (c : Mx) : (setMx s site c).fab.frames = s.fab.frames := rfl
@[simp] theorem setMx_fab_shadow (s : State) (site : Site) (c : Mx) : (setMx s site c).fab.shadow = s.fab.shadow := rfl
@[simp] theorem setMx_fab_owner (s : State) (site : Site) (c : Mx) : (setMx s site c).fab.owner = s.fab.owner := rfl
@[simp] theorem setMx_fab_zeroing (s : State) (site : Site) (c : Mx) : (setMx s site c).fab.zeroing = s.fab.zeroing := rfl
@[simp] theorem setMx_fab_withdrawn (s : State) (site : Site) (c : Mx) : (setMx s site c).fab.withdrawn = s.fab.withdrawn := rfl
@[simp] theorem setMx_fab_ces (s : State) (site : Site) (c : Mx) : (setMx s site c).fab.ces = s.fab.ces := rfl
@[simp] theorem setMx_fab_mts (s : State) (site : Site) (c : Mx) : (setMx s site c).fab.mts = s.fab.mts := rfl
@[simp] theorem setMx_fab_ags (s : State) (site : Site) (c : Mx) : (setMx s site c).fab.ags = s.fab.ags := rfl
@[simp] theorem setMx_fab_hpus (s : State) (site : Site) (c : Mx) : (setMx s site c).fab.hpus = s.fab.hpus := rfl
@[simp] theorem setMx_fab_cps (s : State) (site : Site) (c : Mx) : (setMx s site c).fab.cps = s.fab.cps := rfl
@[simp] theorem setMx_fab_stes (s : State) (site : Site) (c : Mx) : (setMx s site c).fab.stes = s.fab.stes := rfl
@[simp] theorem getCe_setMx (s : State) (site : Site) (c : Mx) (site' : Site) : getCe (setMx s site c) site' = getCe s site' := rfl
@[simp] theorem getMt_setMx (s : State) (site : Site) (c : Mx) (site' : Site) : getMt (setMx s site c) site' = getMt s site' := rfl
@[simp] theorem getAg_setMx (s : State) (site : Site) (c : Mx) (loc : AgAt) : getAg (setMx s site c) loc = getAg s loc := rfl
@[simp] theorem getHpu_setMx (s : State) (site : Site) (c : Mx) (site' : Site) : getHpu (setMx s site c) site' = getHpu s site' := rfl
@[simp] theorem getCp_setMx (s : State) (site : Site) (c : Mx) (site' : Site) : getCp (setMx s site c) site' = getCp s site' := rfl
@[simp] theorem getSte_setMx (s : State) (site : Site) (c : Mx) (site' : Site) : getSte (setMx s site c) site' = getSte s site' := rfl
@[simp] theorem getOp_setMx (s : State) (site : Site) (c : Mx) (loc : OpAt) : getOp (setMx s site c) loc = getOp s loc := rfl
@[simp] theorem getBuf_setMx (s : State) (site : Site) (c : Mx) (k : Nat) : getBuf (setMx s site c) k = getBuf s k := rfl

/-! ## setHpu -/

@[simp] theorem setHpu_agenda (s : State) (site : Site) (c : Hpu) : (setHpu s site c).agenda = s.agenda := rfl
@[simp] theorem setHpu_input (s : State) (site : Site) (c : Hpu) : (setHpu s site c).input = s.input := rfl
@[simp] theorem setHpu_free (s : State) (site : Site) (c : Hpu) : (setHpu s site c).free = s.free := rfl
@[simp] theorem setHpu_cycle (s : State) (site : Site) (c : Hpu) : (setHpu s site c).cycle = s.cycle := rfl
@[simp] theorem setHpu_store (s : State) (site : Site) (c : Hpu) : (setHpu s site c).store = s.store := rfl
@[simp] theorem setHpu_dist (s : State) (site : Site) (c : Hpu) : (setHpu s site c).dist = s.dist := rfl
@[simp] theorem setHpu_hyps (s : State) (site : Site) (c : Hpu) : (setHpu s site c).hyps = s.hyps := rfl
@[simp] theorem setHpu_dies (s : State) (site : Site) (c : Hpu) : (setHpu s site c).dies = s.dies := rfl
@[simp] theorem setHpu_fns (s : State) (site : Site) (c : Hpu) : (setHpu s site c).fns = s.fns := rfl
@[simp] theorem setHpu_hub (s : State) (site : Site) (c : Hpu) : (setHpu s site c).hub = s.hub := rfl
@[simp] theorem setHpu_links (s : State) (site : Site) (c : Hpu) : (setHpu s site c).links = s.links := rfl
@[simp] theorem setHpu_life (s : State) (site : Site) (c : Hpu) : (setHpu s site c).life = s.life := rfl
@[simp] theorem setHpu_sets (s : State) (site : Site) (c : Hpu) : (setHpu s site c).sets = s.sets := rfl
@[simp] theorem setHpu_fab_bufs (s : State) (site : Site) (c : Hpu) : (setHpu s site c).fab.bufs = s.fab.bufs := rfl
@[simp] theorem setHpu_fab_routes (s : State) (site : Site) (c : Hpu) : (setHpu s site c).fab.routes = s.fab.routes := rfl
@[simp] theorem setHpu_fab_outs (s : State) (site : Site) (c : Hpu) : (setHpu s site c).fab.outs = s.fab.outs := rfl
@[simp] theorem setHpu_fab_ops (s : State) (site : Site) (c : Hpu) : (setHpu s site c).fab.ops = s.fab.ops := rfl
@[simp] theorem setHpu_fab_frames (s : State) (site : Site) (c : Hpu) : (setHpu s site c).fab.frames = s.fab.frames := rfl
@[simp] theorem setHpu_fab_shadow (s : State) (site : Site) (c : Hpu) : (setHpu s site c).fab.shadow = s.fab.shadow := rfl
@[simp] theorem setHpu_fab_owner (s : State) (site : Site) (c : Hpu) : (setHpu s site c).fab.owner = s.fab.owner := rfl
@[simp] theorem setHpu_fab_zeroing (s : State) (site : Site) (c : Hpu) : (setHpu s site c).fab.zeroing = s.fab.zeroing := rfl
@[simp] theorem setHpu_fab_withdrawn (s : State) (site : Site) (c : Hpu) : (setHpu s site c).fab.withdrawn = s.fab.withdrawn := rfl
@[simp] theorem setHpu_fab_ces (s : State) (site : Site) (c : Hpu) : (setHpu s site c).fab.ces = s.fab.ces := rfl
@[simp] theorem setHpu_fab_mts (s : State) (site : Site) (c : Hpu) : (setHpu s site c).fab.mts = s.fab.mts := rfl
@[simp] theorem setHpu_fab_ags (s : State) (site : Site) (c : Hpu) : (setHpu s site c).fab.ags = s.fab.ags := rfl
@[simp] theorem setHpu_fab_mxs (s : State) (site : Site) (c : Hpu) : (setHpu s site c).fab.mxs = s.fab.mxs := rfl
@[simp] theorem setHpu_fab_cps (s : State) (site : Site) (c : Hpu) : (setHpu s site c).fab.cps = s.fab.cps := rfl
@[simp] theorem setHpu_fab_stes (s : State) (site : Site) (c : Hpu) : (setHpu s site c).fab.stes = s.fab.stes := rfl
@[simp] theorem getCe_setHpu (s : State) (site : Site) (c : Hpu) (site' : Site) : getCe (setHpu s site c) site' = getCe s site' := rfl
@[simp] theorem getMt_setHpu (s : State) (site : Site) (c : Hpu) (site' : Site) : getMt (setHpu s site c) site' = getMt s site' := rfl
@[simp] theorem getAg_setHpu (s : State) (site : Site) (c : Hpu) (loc : AgAt) : getAg (setHpu s site c) loc = getAg s loc := rfl
@[simp] theorem getMx_setHpu (s : State) (site : Site) (c : Hpu) (site' : Site) : getMx (setHpu s site c) site' = getMx s site' := rfl
@[simp] theorem getCp_setHpu (s : State) (site : Site) (c : Hpu) (site' : Site) : getCp (setHpu s site c) site' = getCp s site' := rfl
@[simp] theorem getSte_setHpu (s : State) (site : Site) (c : Hpu) (site' : Site) : getSte (setHpu s site c) site' = getSte s site' := rfl
@[simp] theorem getOp_setHpu (s : State) (site : Site) (c : Hpu) (loc : OpAt) : getOp (setHpu s site c) loc = getOp s loc := rfl
@[simp] theorem getBuf_setHpu (s : State) (site : Site) (c : Hpu) (k : Nat) : getBuf (setHpu s site c) k = getBuf s k := rfl

/-! ## setCp -/

@[simp] theorem setCp_agenda (s : State) (site : Site) (c : Cp) : (setCp s site c).agenda = s.agenda := rfl
@[simp] theorem setCp_input (s : State) (site : Site) (c : Cp) : (setCp s site c).input = s.input := rfl
@[simp] theorem setCp_free (s : State) (site : Site) (c : Cp) : (setCp s site c).free = s.free := rfl
@[simp] theorem setCp_cycle (s : State) (site : Site) (c : Cp) : (setCp s site c).cycle = s.cycle := rfl
@[simp] theorem setCp_store (s : State) (site : Site) (c : Cp) : (setCp s site c).store = s.store := rfl
@[simp] theorem setCp_dist (s : State) (site : Site) (c : Cp) : (setCp s site c).dist = s.dist := rfl
@[simp] theorem setCp_hyps (s : State) (site : Site) (c : Cp) : (setCp s site c).hyps = s.hyps := rfl
@[simp] theorem setCp_dies (s : State) (site : Site) (c : Cp) : (setCp s site c).dies = s.dies := rfl
@[simp] theorem setCp_fns (s : State) (site : Site) (c : Cp) : (setCp s site c).fns = s.fns := rfl
@[simp] theorem setCp_hub (s : State) (site : Site) (c : Cp) : (setCp s site c).hub = s.hub := rfl
@[simp] theorem setCp_links (s : State) (site : Site) (c : Cp) : (setCp s site c).links = s.links := rfl
@[simp] theorem setCp_life (s : State) (site : Site) (c : Cp) : (setCp s site c).life = s.life := rfl
@[simp] theorem setCp_sets (s : State) (site : Site) (c : Cp) : (setCp s site c).sets = s.sets := rfl
@[simp] theorem setCp_fab_bufs (s : State) (site : Site) (c : Cp) : (setCp s site c).fab.bufs = s.fab.bufs := rfl
@[simp] theorem setCp_fab_routes (s : State) (site : Site) (c : Cp) : (setCp s site c).fab.routes = s.fab.routes := rfl
@[simp] theorem setCp_fab_outs (s : State) (site : Site) (c : Cp) : (setCp s site c).fab.outs = s.fab.outs := rfl
@[simp] theorem setCp_fab_ops (s : State) (site : Site) (c : Cp) : (setCp s site c).fab.ops = s.fab.ops := rfl
@[simp] theorem setCp_fab_frames (s : State) (site : Site) (c : Cp) : (setCp s site c).fab.frames = s.fab.frames := rfl
@[simp] theorem setCp_fab_shadow (s : State) (site : Site) (c : Cp) : (setCp s site c).fab.shadow = s.fab.shadow := rfl
@[simp] theorem setCp_fab_owner (s : State) (site : Site) (c : Cp) : (setCp s site c).fab.owner = s.fab.owner := rfl
@[simp] theorem setCp_fab_zeroing (s : State) (site : Site) (c : Cp) : (setCp s site c).fab.zeroing = s.fab.zeroing := rfl
@[simp] theorem setCp_fab_withdrawn (s : State) (site : Site) (c : Cp) : (setCp s site c).fab.withdrawn = s.fab.withdrawn := rfl
@[simp] theorem setCp_fab_ces (s : State) (site : Site) (c : Cp) : (setCp s site c).fab.ces = s.fab.ces := rfl
@[simp] theorem setCp_fab_mts (s : State) (site : Site) (c : Cp) : (setCp s site c).fab.mts = s.fab.mts := rfl
@[simp] theorem setCp_fab_ags (s : State) (site : Site) (c : Cp) : (setCp s site c).fab.ags = s.fab.ags := rfl
@[simp] theorem setCp_fab_mxs (s : State) (site : Site) (c : Cp) : (setCp s site c).fab.mxs = s.fab.mxs := rfl
@[simp] theorem setCp_fab_hpus (s : State) (site : Site) (c : Cp) : (setCp s site c).fab.hpus = s.fab.hpus := rfl
@[simp] theorem setCp_fab_stes (s : State) (site : Site) (c : Cp) : (setCp s site c).fab.stes = s.fab.stes := rfl
@[simp] theorem getCe_setCp (s : State) (site : Site) (c : Cp) (site' : Site) : getCe (setCp s site c) site' = getCe s site' := rfl
@[simp] theorem getMt_setCp (s : State) (site : Site) (c : Cp) (site' : Site) : getMt (setCp s site c) site' = getMt s site' := rfl
@[simp] theorem getAg_setCp (s : State) (site : Site) (c : Cp) (loc : AgAt) : getAg (setCp s site c) loc = getAg s loc := rfl
@[simp] theorem getMx_setCp (s : State) (site : Site) (c : Cp) (site' : Site) : getMx (setCp s site c) site' = getMx s site' := rfl
@[simp] theorem getHpu_setCp (s : State) (site : Site) (c : Cp) (site' : Site) : getHpu (setCp s site c) site' = getHpu s site' := rfl
@[simp] theorem getSte_setCp (s : State) (site : Site) (c : Cp) (site' : Site) : getSte (setCp s site c) site' = getSte s site' := rfl
@[simp] theorem getOp_setCp (s : State) (site : Site) (c : Cp) (loc : OpAt) : getOp (setCp s site c) loc = getOp s loc := rfl
@[simp] theorem getBuf_setCp (s : State) (site : Site) (c : Cp) (k : Nat) : getBuf (setCp s site c) k = getBuf s k := rfl

/-! ## setSte -/

@[simp] theorem setSte_agenda (s : State) (site : Site) (c : Ste) : (setSte s site c).agenda = s.agenda := rfl
@[simp] theorem setSte_input (s : State) (site : Site) (c : Ste) : (setSte s site c).input = s.input := rfl
@[simp] theorem setSte_free (s : State) (site : Site) (c : Ste) : (setSte s site c).free = s.free := rfl
@[simp] theorem setSte_cycle (s : State) (site : Site) (c : Ste) : (setSte s site c).cycle = s.cycle := rfl
@[simp] theorem setSte_store (s : State) (site : Site) (c : Ste) : (setSte s site c).store = s.store := rfl
@[simp] theorem setSte_dist (s : State) (site : Site) (c : Ste) : (setSte s site c).dist = s.dist := rfl
@[simp] theorem setSte_hyps (s : State) (site : Site) (c : Ste) : (setSte s site c).hyps = s.hyps := rfl
@[simp] theorem setSte_dies (s : State) (site : Site) (c : Ste) : (setSte s site c).dies = s.dies := rfl
@[simp] theorem setSte_fns (s : State) (site : Site) (c : Ste) : (setSte s site c).fns = s.fns := rfl
@[simp] theorem setSte_hub (s : State) (site : Site) (c : Ste) : (setSte s site c).hub = s.hub := rfl
@[simp] theorem setSte_links (s : State) (site : Site) (c : Ste) : (setSte s site c).links = s.links := rfl
@[simp] theorem setSte_life (s : State) (site : Site) (c : Ste) : (setSte s site c).life = s.life := rfl
@[simp] theorem setSte_sets (s : State) (site : Site) (c : Ste) : (setSte s site c).sets = s.sets := rfl
@[simp] theorem setSte_fab_bufs (s : State) (site : Site) (c : Ste) : (setSte s site c).fab.bufs = s.fab.bufs := rfl
@[simp] theorem setSte_fab_routes (s : State) (site : Site) (c : Ste) : (setSte s site c).fab.routes = s.fab.routes := rfl
@[simp] theorem setSte_fab_outs (s : State) (site : Site) (c : Ste) : (setSte s site c).fab.outs = s.fab.outs := rfl
@[simp] theorem setSte_fab_ops (s : State) (site : Site) (c : Ste) : (setSte s site c).fab.ops = s.fab.ops := rfl
@[simp] theorem setSte_fab_frames (s : State) (site : Site) (c : Ste) : (setSte s site c).fab.frames = s.fab.frames := rfl
@[simp] theorem setSte_fab_shadow (s : State) (site : Site) (c : Ste) : (setSte s site c).fab.shadow = s.fab.shadow := rfl
@[simp] theorem setSte_fab_owner (s : State) (site : Site) (c : Ste) : (setSte s site c).fab.owner = s.fab.owner := rfl
@[simp] theorem setSte_fab_zeroing (s : State) (site : Site) (c : Ste) : (setSte s site c).fab.zeroing = s.fab.zeroing := rfl
@[simp] theorem setSte_fab_withdrawn (s : State) (site : Site) (c : Ste) : (setSte s site c).fab.withdrawn = s.fab.withdrawn := rfl
@[simp] theorem setSte_fab_ces (s : State) (site : Site) (c : Ste) : (setSte s site c).fab.ces = s.fab.ces := rfl
@[simp] theorem setSte_fab_mts (s : State) (site : Site) (c : Ste) : (setSte s site c).fab.mts = s.fab.mts := rfl
@[simp] theorem setSte_fab_ags (s : State) (site : Site) (c : Ste) : (setSte s site c).fab.ags = s.fab.ags := rfl
@[simp] theorem setSte_fab_mxs (s : State) (site : Site) (c : Ste) : (setSte s site c).fab.mxs = s.fab.mxs := rfl
@[simp] theorem setSte_fab_hpus (s : State) (site : Site) (c : Ste) : (setSte s site c).fab.hpus = s.fab.hpus := rfl
@[simp] theorem setSte_fab_cps (s : State) (site : Site) (c : Ste) : (setSte s site c).fab.cps = s.fab.cps := rfl
@[simp] theorem getCe_setSte (s : State) (site : Site) (c : Ste) (site' : Site) : getCe (setSte s site c) site' = getCe s site' := rfl
@[simp] theorem getMt_setSte (s : State) (site : Site) (c : Ste) (site' : Site) : getMt (setSte s site c) site' = getMt s site' := rfl
@[simp] theorem getAg_setSte (s : State) (site : Site) (c : Ste) (loc : AgAt) : getAg (setSte s site c) loc = getAg s loc := rfl
@[simp] theorem getMx_setSte (s : State) (site : Site) (c : Ste) (site' : Site) : getMx (setSte s site c) site' = getMx s site' := rfl
@[simp] theorem getHpu_setSte (s : State) (site : Site) (c : Ste) (site' : Site) : getHpu (setSte s site c) site' = getHpu s site' := rfl
@[simp] theorem getCp_setSte (s : State) (site : Site) (c : Ste) (site' : Site) : getCp (setSte s site c) site' = getCp s site' := rfl
@[simp] theorem getOp_setSte (s : State) (site : Site) (c : Ste) (loc : OpAt) : getOp (setSte s site c) loc = getOp s loc := rfl
@[simp] theorem getBuf_setSte (s : State) (site : Site) (c : Ste) (k : Nat) : getBuf (setSte s site c) k = getBuf s k := rfl

/-! ## setOp -/

@[simp] theorem setOp_agenda (s : State) (loc : OpAt) (c : OpRun) : (setOp s loc c).agenda = s.agenda := rfl
@[simp] theorem setOp_input (s : State) (loc : OpAt) (c : OpRun) : (setOp s loc c).input = s.input := rfl
@[simp] theorem setOp_free (s : State) (loc : OpAt) (c : OpRun) : (setOp s loc c).free = s.free := rfl
@[simp] theorem setOp_cycle (s : State) (loc : OpAt) (c : OpRun) : (setOp s loc c).cycle = s.cycle := rfl
@[simp] theorem setOp_store (s : State) (loc : OpAt) (c : OpRun) : (setOp s loc c).store = s.store := rfl
@[simp] theorem setOp_dist (s : State) (loc : OpAt) (c : OpRun) : (setOp s loc c).dist = s.dist := rfl
@[simp] theorem setOp_hyps (s : State) (loc : OpAt) (c : OpRun) : (setOp s loc c).hyps = s.hyps := rfl
@[simp] theorem setOp_dies (s : State) (loc : OpAt) (c : OpRun) : (setOp s loc c).dies = s.dies := rfl
@[simp] theorem setOp_fns (s : State) (loc : OpAt) (c : OpRun) : (setOp s loc c).fns = s.fns := rfl
@[simp] theorem setOp_hub (s : State) (loc : OpAt) (c : OpRun) : (setOp s loc c).hub = s.hub := rfl
@[simp] theorem setOp_links (s : State) (loc : OpAt) (c : OpRun) : (setOp s loc c).links = s.links := rfl
@[simp] theorem setOp_life (s : State) (loc : OpAt) (c : OpRun) : (setOp s loc c).life = s.life := rfl
@[simp] theorem setOp_sets (s : State) (loc : OpAt) (c : OpRun) : (setOp s loc c).sets = s.sets := rfl
@[simp] theorem setOp_fab_bufs (s : State) (loc : OpAt) (c : OpRun) : (setOp s loc c).fab.bufs = s.fab.bufs := rfl
@[simp] theorem setOp_fab_routes (s : State) (loc : OpAt) (c : OpRun) : (setOp s loc c).fab.routes = s.fab.routes := rfl
@[simp] theorem setOp_fab_outs (s : State) (loc : OpAt) (c : OpRun) : (setOp s loc c).fab.outs = s.fab.outs := rfl
@[simp] theorem setOp_fab_frames (s : State) (loc : OpAt) (c : OpRun) : (setOp s loc c).fab.frames = s.fab.frames := rfl
@[simp] theorem setOp_fab_shadow (s : State) (loc : OpAt) (c : OpRun) : (setOp s loc c).fab.shadow = s.fab.shadow := rfl
@[simp] theorem setOp_fab_owner (s : State) (loc : OpAt) (c : OpRun) : (setOp s loc c).fab.owner = s.fab.owner := rfl
@[simp] theorem setOp_fab_zeroing (s : State) (loc : OpAt) (c : OpRun) : (setOp s loc c).fab.zeroing = s.fab.zeroing := rfl
@[simp] theorem setOp_fab_withdrawn (s : State) (loc : OpAt) (c : OpRun) : (setOp s loc c).fab.withdrawn = s.fab.withdrawn := rfl
@[simp] theorem setOp_fab_ces (s : State) (loc : OpAt) (c : OpRun) : (setOp s loc c).fab.ces = s.fab.ces := rfl
@[simp] theorem setOp_fab_mts (s : State) (loc : OpAt) (c : OpRun) : (setOp s loc c).fab.mts = s.fab.mts := rfl
@[simp] theorem setOp_fab_ags (s : State) (loc : OpAt) (c : OpRun) : (setOp s loc c).fab.ags = s.fab.ags := rfl
@[simp] theorem setOp_fab_mxs (s : State) (loc : OpAt) (c : OpRun) : (setOp s loc c).fab.mxs = s.fab.mxs := rfl
@[simp] theorem setOp_fab_hpus (s : State) (loc : OpAt) (c : OpRun) : (setOp s loc c).fab.hpus = s.fab.hpus := rfl
@[simp] theorem setOp_fab_cps (s : State) (loc : OpAt) (c : OpRun) : (setOp s loc c).fab.cps = s.fab.cps := rfl
@[simp] theorem setOp_fab_stes (s : State) (loc : OpAt) (c : OpRun) : (setOp s loc c).fab.stes = s.fab.stes := rfl
@[simp] theorem getCe_setOp (s : State) (loc : OpAt) (c : OpRun) (site : Site) : getCe (setOp s loc c) site = getCe s site := rfl
@[simp] theorem getMt_setOp (s : State) (loc : OpAt) (c : OpRun) (site : Site) : getMt (setOp s loc c) site = getMt s site := rfl
@[simp] theorem getAg_setOp (s : State) (loc : OpAt) (c : OpRun) (loc' : AgAt) : getAg (setOp s loc c) loc' = getAg s loc' := rfl
@[simp] theorem getMx_setOp (s : State) (loc : OpAt) (c : OpRun) (site : Site) : getMx (setOp s loc c) site = getMx s site := rfl
@[simp] theorem getHpu_setOp (s : State) (loc : OpAt) (c : OpRun) (site : Site) : getHpu (setOp s loc c) site = getHpu s site := rfl
@[simp] theorem getCp_setOp (s : State) (loc : OpAt) (c : OpRun) (site : Site) : getCp (setOp s loc c) site = getCp s site := rfl
@[simp] theorem getSte_setOp (s : State) (loc : OpAt) (c : OpRun) (site : Site) : getSte (setOp s loc c) site = getSte s site := rfl
@[simp] theorem getBuf_setOp (s : State) (loc : OpAt) (c : OpRun) (k : Nat) : getBuf (setOp s loc c) k = getBuf s k := rfl

/-! ## setBuf -/

@[simp] theorem setBuf_agenda (s : State) (k : Nat) (c : Buf) : (setBuf s k c).agenda = s.agenda := rfl
@[simp] theorem setBuf_input (s : State) (k : Nat) (c : Buf) : (setBuf s k c).input = s.input := rfl
@[simp] theorem setBuf_free (s : State) (k : Nat) (c : Buf) : (setBuf s k c).free = s.free := rfl
@[simp] theorem setBuf_cycle (s : State) (k : Nat) (c : Buf) : (setBuf s k c).cycle = s.cycle := rfl
@[simp] theorem setBuf_store (s : State) (k : Nat) (c : Buf) : (setBuf s k c).store = s.store := rfl
@[simp] theorem setBuf_dist (s : State) (k : Nat) (c : Buf) : (setBuf s k c).dist = s.dist := rfl
@[simp] theorem setBuf_hyps (s : State) (k : Nat) (c : Buf) : (setBuf s k c).hyps = s.hyps := rfl
@[simp] theorem setBuf_dies (s : State) (k : Nat) (c : Buf) : (setBuf s k c).dies = s.dies := rfl
@[simp] theorem setBuf_fns (s : State) (k : Nat) (c : Buf) : (setBuf s k c).fns = s.fns := rfl
@[simp] theorem setBuf_hub (s : State) (k : Nat) (c : Buf) : (setBuf s k c).hub = s.hub := rfl
@[simp] theorem setBuf_links (s : State) (k : Nat) (c : Buf) : (setBuf s k c).links = s.links := rfl
@[simp] theorem setBuf_life (s : State) (k : Nat) (c : Buf) : (setBuf s k c).life = s.life := rfl
@[simp] theorem setBuf_sets (s : State) (k : Nat) (c : Buf) : (setBuf s k c).sets = s.sets := rfl
@[simp] theorem setBuf_fab_routes (s : State) (k : Nat) (c : Buf) : (setBuf s k c).fab.routes = s.fab.routes := rfl
@[simp] theorem setBuf_fab_outs (s : State) (k : Nat) (c : Buf) : (setBuf s k c).fab.outs = s.fab.outs := rfl
@[simp] theorem setBuf_fab_ops (s : State) (k : Nat) (c : Buf) : (setBuf s k c).fab.ops = s.fab.ops := rfl
@[simp] theorem setBuf_fab_frames (s : State) (k : Nat) (c : Buf) : (setBuf s k c).fab.frames = s.fab.frames := rfl
@[simp] theorem setBuf_fab_shadow (s : State) (k : Nat) (c : Buf) : (setBuf s k c).fab.shadow = s.fab.shadow := rfl
@[simp] theorem setBuf_fab_owner (s : State) (k : Nat) (c : Buf) : (setBuf s k c).fab.owner = s.fab.owner := rfl
@[simp] theorem setBuf_fab_zeroing (s : State) (k : Nat) (c : Buf) : (setBuf s k c).fab.zeroing = s.fab.zeroing := rfl
@[simp] theorem setBuf_fab_withdrawn (s : State) (k : Nat) (c : Buf) : (setBuf s k c).fab.withdrawn = s.fab.withdrawn := rfl
@[simp] theorem setBuf_fab_ces (s : State) (k : Nat) (c : Buf) : (setBuf s k c).fab.ces = s.fab.ces := rfl
@[simp] theorem setBuf_fab_mts (s : State) (k : Nat) (c : Buf) : (setBuf s k c).fab.mts = s.fab.mts := rfl
@[simp] theorem setBuf_fab_ags (s : State) (k : Nat) (c : Buf) : (setBuf s k c).fab.ags = s.fab.ags := rfl
@[simp] theorem setBuf_fab_mxs (s : State) (k : Nat) (c : Buf) : (setBuf s k c).fab.mxs = s.fab.mxs := rfl
@[simp] theorem setBuf_fab_hpus (s : State) (k : Nat) (c : Buf) : (setBuf s k c).fab.hpus = s.fab.hpus := rfl
@[simp] theorem setBuf_fab_cps (s : State) (k : Nat) (c : Buf) : (setBuf s k c).fab.cps = s.fab.cps := rfl
@[simp] theorem setBuf_fab_stes (s : State) (k : Nat) (c : Buf) : (setBuf s k c).fab.stes = s.fab.stes := rfl
@[simp] theorem getCe_setBuf (s : State) (k : Nat) (c : Buf) (site : Site) : getCe (setBuf s k c) site = getCe s site := rfl
@[simp] theorem getMt_setBuf (s : State) (k : Nat) (c : Buf) (site : Site) : getMt (setBuf s k c) site = getMt s site := rfl
@[simp] theorem getAg_setBuf (s : State) (k : Nat) (c : Buf) (loc : AgAt) : getAg (setBuf s k c) loc = getAg s loc := rfl
@[simp] theorem getMx_setBuf (s : State) (k : Nat) (c : Buf) (site : Site) : getMx (setBuf s k c) site = getMx s site := rfl
@[simp] theorem getHpu_setBuf (s : State) (k : Nat) (c : Buf) (site : Site) : getHpu (setBuf s k c) site = getHpu s site := rfl
@[simp] theorem getCp_setBuf (s : State) (k : Nat) (c : Buf) (site : Site) : getCp (setBuf s k c) site = getCp s site := rfl
@[simp] theorem getSte_setBuf (s : State) (k : Nat) (c : Buf) (site : Site) : getSte (setBuf s k c) site = getSte s site := rfl
@[simp] theorem getOp_setBuf (s : State) (k : Nat) (c : Buf) (loc : OpAt) : getOp (setBuf s k c) loc = getOp s loc := rfl

/-! ## setTask -/

@[simp] theorem setTask_agenda (s : State) (site : Site) (t : BitVec 3) (k : Task) : (setTask s site t k).agenda = s.agenda := rfl
@[simp] theorem setTask_input (s : State) (site : Site) (t : BitVec 3) (k : Task) : (setTask s site t k).input = s.input := rfl
@[simp] theorem setTask_free (s : State) (site : Site) (t : BitVec 3) (k : Task) : (setTask s site t k).free = s.free := rfl
@[simp] theorem setTask_cycle (s : State) (site : Site) (t : BitVec 3) (k : Task) : (setTask s site t k).cycle = s.cycle := rfl
@[simp] theorem setTask_store (s : State) (site : Site) (t : BitVec 3) (k : Task) : (setTask s site t k).store = s.store := rfl
@[simp] theorem setTask_dist (s : State) (site : Site) (t : BitVec 3) (k : Task) : (setTask s site t k).dist = s.dist := rfl
@[simp] theorem setTask_hyps (s : State) (site : Site) (t : BitVec 3) (k : Task) : (setTask s site t k).hyps = s.hyps := rfl
@[simp] theorem setTask_dies (s : State) (site : Site) (t : BitVec 3) (k : Task) : (setTask s site t k).dies = s.dies := rfl
@[simp] theorem setTask_fns (s : State) (site : Site) (t : BitVec 3) (k : Task) : (setTask s site t k).fns = s.fns := rfl
@[simp] theorem setTask_hub (s : State) (site : Site) (t : BitVec 3) (k : Task) : (setTask s site t k).hub = s.hub := rfl
@[simp] theorem setTask_links (s : State) (site : Site) (t : BitVec 3) (k : Task) : (setTask s site t k).links = s.links := rfl
@[simp] theorem setTask_life (s : State) (site : Site) (t : BitVec 3) (k : Task) : (setTask s site t k).life = s.life := rfl
@[simp] theorem setTask_sets (s : State) (site : Site) (t : BitVec 3) (k : Task) : (setTask s site t k).sets = s.sets := rfl
@[simp] theorem setTask_fab_bufs (s : State) (site : Site) (t : BitVec 3) (k : Task) : (setTask s site t k).fab.bufs = s.fab.bufs := rfl
@[simp] theorem setTask_fab_routes (s : State) (site : Site) (t : BitVec 3) (k : Task) : (setTask s site t k).fab.routes = s.fab.routes := rfl
@[simp] theorem setTask_fab_outs (s : State) (site : Site) (t : BitVec 3) (k : Task) : (setTask s site t k).fab.outs = s.fab.outs := rfl
@[simp] theorem setTask_fab_ops (s : State) (site : Site) (t : BitVec 3) (k : Task) : (setTask s site t k).fab.ops = s.fab.ops := rfl
@[simp] theorem setTask_fab_frames (s : State) (site : Site) (t : BitVec 3) (k : Task) : (setTask s site t k).fab.frames = s.fab.frames := rfl
@[simp] theorem setTask_fab_shadow (s : State) (site : Site) (t : BitVec 3) (k : Task) : (setTask s site t k).fab.shadow = s.fab.shadow := rfl
@[simp] theorem setTask_fab_owner (s : State) (site : Site) (t : BitVec 3) (k : Task) : (setTask s site t k).fab.owner = s.fab.owner := rfl
@[simp] theorem setTask_fab_zeroing (s : State) (site : Site) (t : BitVec 3) (k : Task) : (setTask s site t k).fab.zeroing = s.fab.zeroing := rfl
@[simp] theorem setTask_fab_withdrawn (s : State) (site : Site) (t : BitVec 3) (k : Task) : (setTask s site t k).fab.withdrawn = s.fab.withdrawn := rfl
@[simp] theorem setTask_fab_mts (s : State) (site : Site) (t : BitVec 3) (k : Task) : (setTask s site t k).fab.mts = s.fab.mts := rfl
@[simp] theorem setTask_fab_ags (s : State) (site : Site) (t : BitVec 3) (k : Task) : (setTask s site t k).fab.ags = s.fab.ags := rfl
@[simp] theorem setTask_fab_mxs (s : State) (site : Site) (t : BitVec 3) (k : Task) : (setTask s site t k).fab.mxs = s.fab.mxs := rfl
@[simp] theorem setTask_fab_hpus (s : State) (site : Site) (t : BitVec 3) (k : Task) : (setTask s site t k).fab.hpus = s.fab.hpus := rfl
@[simp] theorem setTask_fab_cps (s : State) (site : Site) (t : BitVec 3) (k : Task) : (setTask s site t k).fab.cps = s.fab.cps := rfl
@[simp] theorem setTask_fab_stes (s : State) (site : Site) (t : BitVec 3) (k : Task) : (setTask s site t k).fab.stes = s.fab.stes := rfl

/-! ## setPort -/

@[simp] theorem setPort_agenda (s : State) (loc : PortAt) (k : Port) : (setPort s loc k).agenda = s.agenda := rfl
@[simp] theorem setPort_input (s : State) (loc : PortAt) (k : Port) : (setPort s loc k).input = s.input := rfl
@[simp] theorem setPort_free (s : State) (loc : PortAt) (k : Port) : (setPort s loc k).free = s.free := rfl
@[simp] theorem setPort_cycle (s : State) (loc : PortAt) (k : Port) : (setPort s loc k).cycle = s.cycle := rfl
@[simp] theorem setPort_store (s : State) (loc : PortAt) (k : Port) : (setPort s loc k).store = s.store := rfl
@[simp] theorem setPort_dist (s : State) (loc : PortAt) (k : Port) : (setPort s loc k).dist = s.dist := rfl
@[simp] theorem setPort_hyps (s : State) (loc : PortAt) (k : Port) : (setPort s loc k).hyps = s.hyps := rfl
@[simp] theorem setPort_dies (s : State) (loc : PortAt) (k : Port) : (setPort s loc k).dies = s.dies := rfl
@[simp] theorem setPort_fns (s : State) (loc : PortAt) (k : Port) : (setPort s loc k).fns = s.fns := rfl
@[simp] theorem setPort_hub (s : State) (loc : PortAt) (k : Port) : (setPort s loc k).hub = s.hub := rfl
@[simp] theorem setPort_links (s : State) (loc : PortAt) (k : Port) : (setPort s loc k).links = s.links := rfl
@[simp] theorem setPort_life (s : State) (loc : PortAt) (k : Port) : (setPort s loc k).life = s.life := rfl
@[simp] theorem setPort_sets (s : State) (loc : PortAt) (k : Port) : (setPort s loc k).sets = s.sets := rfl
@[simp] theorem setPort_fab_bufs (s : State) (loc : PortAt) (k : Port) : (setPort s loc k).fab.bufs = s.fab.bufs := rfl
@[simp] theorem setPort_fab_routes (s : State) (loc : PortAt) (k : Port) : (setPort s loc k).fab.routes = s.fab.routes := rfl
@[simp] theorem setPort_fab_outs (s : State) (loc : PortAt) (k : Port) : (setPort s loc k).fab.outs = s.fab.outs := rfl
@[simp] theorem setPort_fab_ops (s : State) (loc : PortAt) (k : Port) : (setPort s loc k).fab.ops = s.fab.ops := rfl
@[simp] theorem setPort_fab_frames (s : State) (loc : PortAt) (k : Port) : (setPort s loc k).fab.frames = s.fab.frames := rfl
@[simp] theorem setPort_fab_shadow (s : State) (loc : PortAt) (k : Port) : (setPort s loc k).fab.shadow = s.fab.shadow := rfl
@[simp] theorem setPort_fab_owner (s : State) (loc : PortAt) (k : Port) : (setPort s loc k).fab.owner = s.fab.owner := rfl
@[simp] theorem setPort_fab_zeroing (s : State) (loc : PortAt) (k : Port) : (setPort s loc k).fab.zeroing = s.fab.zeroing := rfl
@[simp] theorem setPort_fab_withdrawn (s : State) (loc : PortAt) (k : Port) : (setPort s loc k).fab.withdrawn = s.fab.withdrawn := rfl
@[simp] theorem setPort_fab_ces (s : State) (loc : PortAt) (k : Port) : (setPort s loc k).fab.ces = s.fab.ces := rfl
@[simp] theorem setPort_fab_ags (s : State) (loc : PortAt) (k : Port) : (setPort s loc k).fab.ags = s.fab.ags := rfl
@[simp] theorem setPort_fab_mxs (s : State) (loc : PortAt) (k : Port) : (setPort s loc k).fab.mxs = s.fab.mxs := rfl
@[simp] theorem setPort_fab_hpus (s : State) (loc : PortAt) (k : Port) : (setPort s loc k).fab.hpus = s.fab.hpus := rfl
@[simp] theorem setPort_fab_cps (s : State) (loc : PortAt) (k : Port) : (setPort s loc k).fab.cps = s.fab.cps := rfl
@[simp] theorem setPort_fab_stes (s : State) (loc : PortAt) (k : Port) : (setPort s loc k).fab.stes = s.fab.stes := rfl

/-! ## setDie -/

@[simp] theorem setDie_agenda (s : State) (d : BitVec 2) (x : Die) : (setDie s d x).agenda = s.agenda := rfl
@[simp] theorem setDie_input (s : State) (d : BitVec 2) (x : Die) : (setDie s d x).input = s.input := rfl
@[simp] theorem setDie_free (s : State) (d : BitVec 2) (x : Die) : (setDie s d x).free = s.free := rfl
@[simp] theorem setDie_cycle (s : State) (d : BitVec 2) (x : Die) : (setDie s d x).cycle = s.cycle := rfl
@[simp] theorem setDie_fab (s : State) (d : BitVec 2) (x : Die) : (setDie s d x).fab = s.fab := rfl
@[simp] theorem setDie_store (s : State) (d : BitVec 2) (x : Die) : (setDie s d x).store = s.store := rfl
@[simp] theorem setDie_dist (s : State) (d : BitVec 2) (x : Die) : (setDie s d x).dist = s.dist := rfl
@[simp] theorem setDie_hyps (s : State) (d : BitVec 2) (x : Die) : (setDie s d x).hyps = s.hyps := rfl
@[simp] theorem setDie_fns (s : State) (d : BitVec 2) (x : Die) : (setDie s d x).fns = s.fns := rfl
@[simp] theorem setDie_hub (s : State) (d : BitVec 2) (x : Die) : (setDie s d x).hub = s.hub := rfl
@[simp] theorem setDie_links (s : State) (d : BitVec 2) (x : Die) : (setDie s d x).links = s.links := rfl
@[simp] theorem setDie_life (s : State) (d : BitVec 2) (x : Die) : (setDie s d x).life = s.life := rfl
@[simp] theorem setDie_sets (s : State) (d : BitVec 2) (x : Die) : (setDie s d x).sets = s.sets := rfl

/-! ## setFn -/

@[simp] theorem setFn_agenda (s : State) (f : BitVec 10) (x : Fn) : (setFn s f x).agenda = s.agenda := rfl
@[simp] theorem setFn_input (s : State) (f : BitVec 10) (x : Fn) : (setFn s f x).input = s.input := rfl
@[simp] theorem setFn_free (s : State) (f : BitVec 10) (x : Fn) : (setFn s f x).free = s.free := rfl
@[simp] theorem setFn_cycle (s : State) (f : BitVec 10) (x : Fn) : (setFn s f x).cycle = s.cycle := rfl
@[simp] theorem setFn_fab (s : State) (f : BitVec 10) (x : Fn) : (setFn s f x).fab = s.fab := rfl
@[simp] theorem setFn_store (s : State) (f : BitVec 10) (x : Fn) : (setFn s f x).store = s.store := rfl
@[simp] theorem setFn_dist (s : State) (f : BitVec 10) (x : Fn) : (setFn s f x).dist = s.dist := rfl
@[simp] theorem setFn_hyps (s : State) (f : BitVec 10) (x : Fn) : (setFn s f x).hyps = s.hyps := rfl
@[simp] theorem setFn_dies (s : State) (f : BitVec 10) (x : Fn) : (setFn s f x).dies = s.dies := rfl
@[simp] theorem setFn_hub (s : State) (f : BitVec 10) (x : Fn) : (setFn s f x).hub = s.hub := rfl
@[simp] theorem setFn_links (s : State) (f : BitVec 10) (x : Fn) : (setFn s f x).links = s.links := rfl
@[simp] theorem setFn_life (s : State) (f : BitVec 10) (x : Fn) : (setFn s f x).life = s.life := rfl
@[simp] theorem setFn_sets (s : State) (f : BitVec 10) (x : Fn) : (setFn s f x).sets = s.sets := rfl

/-! ## modNode -/

@[simp] theorem modNode_agenda (s : State) (i : Nat) (f : Node → Node) : (modNode s i f).agenda = s.agenda := rfl
@[simp] theorem modNode_input (s : State) (i : Nat) (f : Node → Node) : (modNode s i f).input = s.input := rfl
@[simp] theorem modNode_free (s : State) (i : Nat) (f : Node → Node) : (modNode s i f).free = s.free := rfl
@[simp] theorem modNode_cycle (s : State) (i : Nat) (f : Node → Node) : (modNode s i f).cycle = s.cycle := rfl
@[simp] theorem modNode_fab (s : State) (i : Nat) (f : Node → Node) : (modNode s i f).fab = s.fab := rfl
@[simp] theorem modNode_store (s : State) (i : Nat) (f : Node → Node) : (modNode s i f).store = s.store := rfl
@[simp] theorem modNode_hyps (s : State) (i : Nat) (f : Node → Node) : (modNode s i f).hyps = s.hyps := rfl
@[simp] theorem modNode_dies (s : State) (i : Nat) (f : Node → Node) : (modNode s i f).dies = s.dies := rfl
@[simp] theorem modNode_fns (s : State) (i : Nat) (f : Node → Node) : (modNode s i f).fns = s.fns := rfl
@[simp] theorem modNode_hub (s : State) (i : Nat) (f : Node → Node) : (modNode s i f).hub = s.hub := rfl
@[simp] theorem modNode_links (s : State) (i : Nat) (f : Node → Node) : (modNode s i f).links = s.links := rfl
@[simp] theorem modNode_life (s : State) (i : Nat) (f : Node → Node) : (modNode s i f).life = s.life := rfl
@[simp] theorem modNode_sets (s : State) (i : Nat) (f : Node → Node) : (modNode s i f).sets = s.sets := rfl
@[simp] theorem modNode_dist_master (s : State) (i : Nat) (f : Node → Node) : (modNode s i f).dist.master = s.dist.master := rfl
@[simp] theorem modNode_dist_nextSeq (s : State) (i : Nat) (f : Node → Node) : (modNode s i f).dist.nextSeq = s.dist.nextSeq := rfl
@[simp] theorem modNode_dist_insts (s : State) (i : Nat) (f : Node → Node) : (modNode s i f).dist.insts = s.dist.insts := rfl
@[simp] theorem modNode_dist_nextInst (s : State) (i : Nat) (f : Node → Node) : (modNode s i f).dist.nextInst = s.dist.nextInst := rfl
@[simp] theorem modNode_dist_jobs (s : State) (i : Nat) (f : Node → Node) : (modNode s i f).dist.jobs = s.dist.jobs := rfl
@[simp] theorem modNode_dist_arrived (s : State) (i : Nat) (f : Node → Node) : (modNode s i f).dist.arrived = s.dist.arrived := rfl
@[simp] theorem modNode_dist_sched (s : State) (i : Nat) (f : Node → Node) : (modNode s i f).dist.sched = s.dist.sched := rfl
@[simp] theorem modNode_dist_holds (s : State) (i : Nat) (f : Node → Node) : (modNode s i f).dist.holds = s.dist.holds := rfl
@[simp] theorem modNode_dist_subq (s : State) (i : Nat) (f : Node → Node) : (modNode s i f).dist.subq = s.dist.subq := rfl
@[simp] theorem modNode_dist_images (s : State) (i : Nat) (f : Node → Node) : (modNode s i f).dist.images = s.dist.images := rfl
@[simp] theorem modNode_dist_saves (s : State) (i : Nat) (f : Node → Node) : (modNode s i f).dist.saves = s.dist.saves := rfl
@[simp] theorem modNode_dist_gens (s : State) (i : Nat) (f : Node → Node) : (modNode s i f).dist.gens = s.dist.gens := rfl
@[simp] theorem modNode_dist_mapped (s : State) (i : Nat) (f : Node → Node) : (modNode s i f).dist.mapped = s.dist.mapped := rfl
@[simp] theorem modNode_dist_holdback (s : State) (i : Nat) (f : Node → Node) : (modNode s i f).dist.holdback = s.dist.holdback := rfl
@[simp] theorem modNode_dist_copies (s : State) (i : Nat) (f : Node → Node) : (modNode s i f).dist.copies = s.dist.copies := rfl
@[simp] theorem modNode_dist_switches (s : State) (i : Nat) (f : Node → Node) : (modNode s i f).dist.switches = s.dist.switches := rfl

/-! ## modInst -/

@[simp] theorem modInst_agenda (s : State) (i : Nat) (f : Inst → Inst) : (modInst s i f).agenda = s.agenda := rfl
@[simp] theorem modInst_input (s : State) (i : Nat) (f : Inst → Inst) : (modInst s i f).input = s.input := rfl
@[simp] theorem modInst_free (s : State) (i : Nat) (f : Inst → Inst) : (modInst s i f).free = s.free := rfl
@[simp] theorem modInst_cycle (s : State) (i : Nat) (f : Inst → Inst) : (modInst s i f).cycle = s.cycle := rfl
@[simp] theorem modInst_fab (s : State) (i : Nat) (f : Inst → Inst) : (modInst s i f).fab = s.fab := rfl
@[simp] theorem modInst_store (s : State) (i : Nat) (f : Inst → Inst) : (modInst s i f).store = s.store := rfl
@[simp] theorem modInst_hyps (s : State) (i : Nat) (f : Inst → Inst) : (modInst s i f).hyps = s.hyps := rfl
@[simp] theorem modInst_dies (s : State) (i : Nat) (f : Inst → Inst) : (modInst s i f).dies = s.dies := rfl
@[simp] theorem modInst_fns (s : State) (i : Nat) (f : Inst → Inst) : (modInst s i f).fns = s.fns := rfl
@[simp] theorem modInst_hub (s : State) (i : Nat) (f : Inst → Inst) : (modInst s i f).hub = s.hub := rfl
@[simp] theorem modInst_links (s : State) (i : Nat) (f : Inst → Inst) : (modInst s i f).links = s.links := rfl
@[simp] theorem modInst_life (s : State) (i : Nat) (f : Inst → Inst) : (modInst s i f).life = s.life := rfl
@[simp] theorem modInst_sets (s : State) (i : Nat) (f : Inst → Inst) : (modInst s i f).sets = s.sets := rfl
@[simp] theorem modInst_dist_master (s : State) (i : Nat) (f : Inst → Inst) : (modInst s i f).dist.master = s.dist.master := rfl
@[simp] theorem modInst_dist_nextSeq (s : State) (i : Nat) (f : Inst → Inst) : (modInst s i f).dist.nextSeq = s.dist.nextSeq := rfl
@[simp] theorem modInst_dist_nodes (s : State) (i : Nat) (f : Inst → Inst) : (modInst s i f).dist.nodes = s.dist.nodes := rfl
@[simp] theorem modInst_dist_nextInst (s : State) (i : Nat) (f : Inst → Inst) : (modInst s i f).dist.nextInst = s.dist.nextInst := rfl
@[simp] theorem modInst_dist_jobs (s : State) (i : Nat) (f : Inst → Inst) : (modInst s i f).dist.jobs = s.dist.jobs := rfl
@[simp] theorem modInst_dist_arrived (s : State) (i : Nat) (f : Inst → Inst) : (modInst s i f).dist.arrived = s.dist.arrived := rfl
@[simp] theorem modInst_dist_sched (s : State) (i : Nat) (f : Inst → Inst) : (modInst s i f).dist.sched = s.dist.sched := rfl
@[simp] theorem modInst_dist_holds (s : State) (i : Nat) (f : Inst → Inst) : (modInst s i f).dist.holds = s.dist.holds := rfl
@[simp] theorem modInst_dist_subq (s : State) (i : Nat) (f : Inst → Inst) : (modInst s i f).dist.subq = s.dist.subq := rfl
@[simp] theorem modInst_dist_images (s : State) (i : Nat) (f : Inst → Inst) : (modInst s i f).dist.images = s.dist.images := rfl
@[simp] theorem modInst_dist_saves (s : State) (i : Nat) (f : Inst → Inst) : (modInst s i f).dist.saves = s.dist.saves := rfl
@[simp] theorem modInst_dist_gens (s : State) (i : Nat) (f : Inst → Inst) : (modInst s i f).dist.gens = s.dist.gens := rfl
@[simp] theorem modInst_dist_mapped (s : State) (i : Nat) (f : Inst → Inst) : (modInst s i f).dist.mapped = s.dist.mapped := rfl
@[simp] theorem modInst_dist_holdback (s : State) (i : Nat) (f : Inst → Inst) : (modInst s i f).dist.holdback = s.dist.holdback := rfl
@[simp] theorem modInst_dist_copies (s : State) (i : Nat) (f : Inst → Inst) : (modInst s i f).dist.copies = s.dist.copies := rfl
@[simp] theorem modInst_dist_switches (s : State) (i : Nat) (f : Inst → Inst) : (modInst s i f).dist.switches = s.dist.switches := rfl

/-! ## modJob -/

@[simp] theorem modJob_agenda (s : State) (i : Nat) (f : Job → Job) : (modJob s i f).agenda = s.agenda := rfl
@[simp] theorem modJob_input (s : State) (i : Nat) (f : Job → Job) : (modJob s i f).input = s.input := rfl
@[simp] theorem modJob_free (s : State) (i : Nat) (f : Job → Job) : (modJob s i f).free = s.free := rfl
@[simp] theorem modJob_cycle (s : State) (i : Nat) (f : Job → Job) : (modJob s i f).cycle = s.cycle := rfl
@[simp] theorem modJob_fab (s : State) (i : Nat) (f : Job → Job) : (modJob s i f).fab = s.fab := rfl
@[simp] theorem modJob_store (s : State) (i : Nat) (f : Job → Job) : (modJob s i f).store = s.store := rfl
@[simp] theorem modJob_hyps (s : State) (i : Nat) (f : Job → Job) : (modJob s i f).hyps = s.hyps := rfl
@[simp] theorem modJob_dies (s : State) (i : Nat) (f : Job → Job) : (modJob s i f).dies = s.dies := rfl
@[simp] theorem modJob_fns (s : State) (i : Nat) (f : Job → Job) : (modJob s i f).fns = s.fns := rfl
@[simp] theorem modJob_hub (s : State) (i : Nat) (f : Job → Job) : (modJob s i f).hub = s.hub := rfl
@[simp] theorem modJob_links (s : State) (i : Nat) (f : Job → Job) : (modJob s i f).links = s.links := rfl
@[simp] theorem modJob_life (s : State) (i : Nat) (f : Job → Job) : (modJob s i f).life = s.life := rfl
@[simp] theorem modJob_sets (s : State) (i : Nat) (f : Job → Job) : (modJob s i f).sets = s.sets := rfl
@[simp] theorem modJob_dist_master (s : State) (i : Nat) (f : Job → Job) : (modJob s i f).dist.master = s.dist.master := rfl
@[simp] theorem modJob_dist_nextSeq (s : State) (i : Nat) (f : Job → Job) : (modJob s i f).dist.nextSeq = s.dist.nextSeq := rfl
@[simp] theorem modJob_dist_nodes (s : State) (i : Nat) (f : Job → Job) : (modJob s i f).dist.nodes = s.dist.nodes := rfl
@[simp] theorem modJob_dist_insts (s : State) (i : Nat) (f : Job → Job) : (modJob s i f).dist.insts = s.dist.insts := rfl
@[simp] theorem modJob_dist_nextInst (s : State) (i : Nat) (f : Job → Job) : (modJob s i f).dist.nextInst = s.dist.nextInst := rfl
@[simp] theorem modJob_dist_arrived (s : State) (i : Nat) (f : Job → Job) : (modJob s i f).dist.arrived = s.dist.arrived := rfl
@[simp] theorem modJob_dist_sched (s : State) (i : Nat) (f : Job → Job) : (modJob s i f).dist.sched = s.dist.sched := rfl
@[simp] theorem modJob_dist_holds (s : State) (i : Nat) (f : Job → Job) : (modJob s i f).dist.holds = s.dist.holds := rfl
@[simp] theorem modJob_dist_subq (s : State) (i : Nat) (f : Job → Job) : (modJob s i f).dist.subq = s.dist.subq := rfl
@[simp] theorem modJob_dist_images (s : State) (i : Nat) (f : Job → Job) : (modJob s i f).dist.images = s.dist.images := rfl
@[simp] theorem modJob_dist_saves (s : State) (i : Nat) (f : Job → Job) : (modJob s i f).dist.saves = s.dist.saves := rfl
@[simp] theorem modJob_dist_gens (s : State) (i : Nat) (f : Job → Job) : (modJob s i f).dist.gens = s.dist.gens := rfl
@[simp] theorem modJob_dist_mapped (s : State) (i : Nat) (f : Job → Job) : (modJob s i f).dist.mapped = s.dist.mapped := rfl
@[simp] theorem modJob_dist_holdback (s : State) (i : Nat) (f : Job → Job) : (modJob s i f).dist.holdback = s.dist.holdback := rfl
@[simp] theorem modJob_dist_copies (s : State) (i : Nat) (f : Job → Job) : (modJob s i f).dist.copies = s.dist.copies := rfl
@[simp] theorem modJob_dist_switches (s : State) (i : Nat) (f : Job → Job) : (modJob s i f).dist.switches = s.dist.switches := rfl

/-! ## inject -/

@[simp] theorem inject_agenda (s : State) (i : Option Inst) : (inject s i).agenda = s.agenda := by cases i <;> rfl
@[simp] theorem inject_input (s : State) (i : Option Inst) : (inject s i).input = s.input := by cases i <;> rfl
@[simp] theorem inject_free (s : State) (i : Option Inst) : (inject s i).free = s.free := by cases i <;> rfl
@[simp] theorem inject_cycle (s : State) (i : Option Inst) : (inject s i).cycle = s.cycle := by cases i <;> rfl
@[simp] theorem inject_fab (s : State) (i : Option Inst) : (inject s i).fab = s.fab := by cases i <;> rfl
@[simp] theorem inject_store (s : State) (i : Option Inst) : (inject s i).store = s.store := by cases i <;> rfl
@[simp] theorem inject_hyps (s : State) (i : Option Inst) : (inject s i).hyps = s.hyps := by cases i <;> rfl
@[simp] theorem inject_dies (s : State) (i : Option Inst) : (inject s i).dies = s.dies := by cases i <;> rfl
@[simp] theorem inject_fns (s : State) (i : Option Inst) : (inject s i).fns = s.fns := by cases i <;> rfl
@[simp] theorem inject_hub (s : State) (i : Option Inst) : (inject s i).hub = s.hub := by cases i <;> rfl
@[simp] theorem inject_links (s : State) (i : Option Inst) : (inject s i).links = s.links := by cases i <;> rfl
@[simp] theorem inject_life (s : State) (i : Option Inst) : (inject s i).life = s.life := by cases i <;> rfl
@[simp] theorem inject_sets (s : State) (i : Option Inst) : (inject s i).sets = s.sets := by cases i <;> rfl
@[simp] theorem inject_dist_master (s : State) (i : Option Inst) : (inject s i).dist.master = s.dist.master := by cases i <;> rfl
@[simp] theorem inject_dist_nextSeq (s : State) (i : Option Inst) : (inject s i).dist.nextSeq = s.dist.nextSeq := by cases i <;> rfl
@[simp] theorem inject_dist_nodes (s : State) (i : Option Inst) : (inject s i).dist.nodes = s.dist.nodes := by cases i <;> rfl
@[simp] theorem inject_dist_nextInst (s : State) (i : Option Inst) : (inject s i).dist.nextInst = s.dist.nextInst := by cases i <;> rfl
@[simp] theorem inject_dist_jobs (s : State) (i : Option Inst) : (inject s i).dist.jobs = s.dist.jobs := by cases i <;> rfl
@[simp] theorem inject_dist_arrived (s : State) (i : Option Inst) : (inject s i).dist.arrived = s.dist.arrived := by cases i <;> rfl
@[simp] theorem inject_dist_sched (s : State) (i : Option Inst) : (inject s i).dist.sched = s.dist.sched := by cases i <;> rfl
@[simp] theorem inject_dist_holds (s : State) (i : Option Inst) : (inject s i).dist.holds = s.dist.holds := by cases i <;> rfl
@[simp] theorem inject_dist_subq (s : State) (i : Option Inst) : (inject s i).dist.subq = s.dist.subq := by cases i <;> rfl
@[simp] theorem inject_dist_images (s : State) (i : Option Inst) : (inject s i).dist.images = s.dist.images := by cases i <;> rfl
@[simp] theorem inject_dist_saves (s : State) (i : Option Inst) : (inject s i).dist.saves = s.dist.saves := by cases i <;> rfl
@[simp] theorem inject_dist_gens (s : State) (i : Option Inst) : (inject s i).dist.gens = s.dist.gens := by cases i <;> rfl
@[simp] theorem inject_dist_mapped (s : State) (i : Option Inst) : (inject s i).dist.mapped = s.dist.mapped := by cases i <;> rfl
@[simp] theorem inject_dist_holdback (s : State) (i : Option Inst) : (inject s i).dist.holdback = s.dist.holdback := by cases i <;> rfl
@[simp] theorem inject_dist_copies (s : State) (i : Option Inst) : (inject s i).dist.copies = s.dist.copies := by cases i <;> rfl
@[simp] theorem inject_dist_switches (s : State) (i : Option Inst) : (inject s i).dist.switches = s.dist.switches := by cases i <;> rfl

/-! ## progress -/

@[simp] theorem progress_agenda (s : State) (i : Option Inst) : (progress s i).agenda = s.agenda := by cases i <;> rfl
@[simp] theorem progress_input (s : State) (i : Option Inst) : (progress s i).input = s.input := by cases i <;> rfl
@[simp] theorem progress_free (s : State) (i : Option Inst) : (progress s i).free = s.free := by cases i <;> rfl
@[simp] theorem progress_cycle (s : State) (i : Option Inst) : (progress s i).cycle = s.cycle := by cases i <;> rfl
@[simp] theorem progress_fab (s : State) (i : Option Inst) : (progress s i).fab = s.fab := by cases i <;> rfl
@[simp] theorem progress_store (s : State) (i : Option Inst) : (progress s i).store = s.store := by cases i <;> rfl
@[simp] theorem progress_hyps (s : State) (i : Option Inst) : (progress s i).hyps = s.hyps := by cases i <;> rfl
@[simp] theorem progress_dies (s : State) (i : Option Inst) : (progress s i).dies = s.dies := by cases i <;> rfl
@[simp] theorem progress_fns (s : State) (i : Option Inst) : (progress s i).fns = s.fns := by cases i <;> rfl
@[simp] theorem progress_hub (s : State) (i : Option Inst) : (progress s i).hub = s.hub := by cases i <;> rfl
@[simp] theorem progress_links (s : State) (i : Option Inst) : (progress s i).links = s.links := by cases i <;> rfl
@[simp] theorem progress_life (s : State) (i : Option Inst) : (progress s i).life = s.life := by cases i <;> rfl
@[simp] theorem progress_sets (s : State) (i : Option Inst) : (progress s i).sets = s.sets := by cases i <;> rfl
@[simp] theorem progress_dist_master (s : State) (i : Option Inst) : (progress s i).dist.master = s.dist.master := by cases i <;> rfl
@[simp] theorem progress_dist_nextSeq (s : State) (i : Option Inst) : (progress s i).dist.nextSeq = s.dist.nextSeq := by cases i <;> rfl
@[simp] theorem progress_dist_nodes (s : State) (i : Option Inst) : (progress s i).dist.nodes = s.dist.nodes := by cases i <;> rfl
@[simp] theorem progress_dist_nextInst (s : State) (i : Option Inst) : (progress s i).dist.nextInst = s.dist.nextInst := by cases i <;> rfl
@[simp] theorem progress_dist_jobs (s : State) (i : Option Inst) : (progress s i).dist.jobs = s.dist.jobs := by cases i <;> rfl
@[simp] theorem progress_dist_arrived (s : State) (i : Option Inst) : (progress s i).dist.arrived = s.dist.arrived := by cases i <;> rfl
@[simp] theorem progress_dist_sched (s : State) (i : Option Inst) : (progress s i).dist.sched = s.dist.sched := by cases i <;> rfl
@[simp] theorem progress_dist_holds (s : State) (i : Option Inst) : (progress s i).dist.holds = s.dist.holds := by cases i <;> rfl
@[simp] theorem progress_dist_subq (s : State) (i : Option Inst) : (progress s i).dist.subq = s.dist.subq := by cases i <;> rfl
@[simp] theorem progress_dist_images (s : State) (i : Option Inst) : (progress s i).dist.images = s.dist.images := by cases i <;> rfl
@[simp] theorem progress_dist_saves (s : State) (i : Option Inst) : (progress s i).dist.saves = s.dist.saves := by cases i <;> rfl
@[simp] theorem progress_dist_gens (s : State) (i : Option Inst) : (progress s i).dist.gens = s.dist.gens := by cases i <;> rfl
@[simp] theorem progress_dist_mapped (s : State) (i : Option Inst) : (progress s i).dist.mapped = s.dist.mapped := by cases i <;> rfl
@[simp] theorem progress_dist_holdback (s : State) (i : Option Inst) : (progress s i).dist.holdback = s.dist.holdback := by cases i <;> rfl
@[simp] theorem progress_dist_copies (s : State) (i : Option Inst) : (progress s i).dist.copies = s.dist.copies := by cases i <;> rfl
@[simp] theorem progress_dist_switches (s : State) (i : Option Inst) : (progress s i).dist.switches = s.dist.switches := by cases i <;> rfl

/-! ## setEstat -/

@[simp] theorem setEstat_agenda (s : State) (i : Option Inst) (b : Word) : (setEstat s i b).agenda = s.agenda := by cases i <;> rfl
@[simp] theorem setEstat_input (s : State) (i : Option Inst) (b : Word) : (setEstat s i b).input = s.input := by cases i <;> rfl
@[simp] theorem setEstat_free (s : State) (i : Option Inst) (b : Word) : (setEstat s i b).free = s.free := by cases i <;> rfl
@[simp] theorem setEstat_cycle (s : State) (i : Option Inst) (b : Word) : (setEstat s i b).cycle = s.cycle := by cases i <;> rfl
@[simp] theorem setEstat_fab (s : State) (i : Option Inst) (b : Word) : (setEstat s i b).fab = s.fab := by cases i <;> rfl
@[simp] theorem setEstat_store (s : State) (i : Option Inst) (b : Word) : (setEstat s i b).store = s.store := by cases i <;> rfl
@[simp] theorem setEstat_hyps (s : State) (i : Option Inst) (b : Word) : (setEstat s i b).hyps = s.hyps := by cases i <;> rfl
@[simp] theorem setEstat_dies (s : State) (i : Option Inst) (b : Word) : (setEstat s i b).dies = s.dies := by cases i <;> rfl
@[simp] theorem setEstat_fns (s : State) (i : Option Inst) (b : Word) : (setEstat s i b).fns = s.fns := by cases i <;> rfl
@[simp] theorem setEstat_hub (s : State) (i : Option Inst) (b : Word) : (setEstat s i b).hub = s.hub := by cases i <;> rfl
@[simp] theorem setEstat_links (s : State) (i : Option Inst) (b : Word) : (setEstat s i b).links = s.links := by cases i <;> rfl
@[simp] theorem setEstat_life (s : State) (i : Option Inst) (b : Word) : (setEstat s i b).life = s.life := by cases i <;> rfl
@[simp] theorem setEstat_sets (s : State) (i : Option Inst) (b : Word) : (setEstat s i b).sets = s.sets := by cases i <;> rfl
@[simp] theorem setEstat_dist_master (s : State) (i : Option Inst) (b : Word) : (setEstat s i b).dist.master = s.dist.master := by cases i <;> rfl
@[simp] theorem setEstat_dist_nextSeq (s : State) (i : Option Inst) (b : Word) : (setEstat s i b).dist.nextSeq = s.dist.nextSeq := by cases i <;> rfl
@[simp] theorem setEstat_dist_nodes (s : State) (i : Option Inst) (b : Word) : (setEstat s i b).dist.nodes = s.dist.nodes := by cases i <;> rfl
@[simp] theorem setEstat_dist_nextInst (s : State) (i : Option Inst) (b : Word) : (setEstat s i b).dist.nextInst = s.dist.nextInst := by cases i <;> rfl
@[simp] theorem setEstat_dist_jobs (s : State) (i : Option Inst) (b : Word) : (setEstat s i b).dist.jobs = s.dist.jobs := by cases i <;> rfl
@[simp] theorem setEstat_dist_arrived (s : State) (i : Option Inst) (b : Word) : (setEstat s i b).dist.arrived = s.dist.arrived := by cases i <;> rfl
@[simp] theorem setEstat_dist_sched (s : State) (i : Option Inst) (b : Word) : (setEstat s i b).dist.sched = s.dist.sched := by cases i <;> rfl
@[simp] theorem setEstat_dist_holds (s : State) (i : Option Inst) (b : Word) : (setEstat s i b).dist.holds = s.dist.holds := by cases i <;> rfl
@[simp] theorem setEstat_dist_subq (s : State) (i : Option Inst) (b : Word) : (setEstat s i b).dist.subq = s.dist.subq := by cases i <;> rfl
@[simp] theorem setEstat_dist_images (s : State) (i : Option Inst) (b : Word) : (setEstat s i b).dist.images = s.dist.images := by cases i <;> rfl
@[simp] theorem setEstat_dist_saves (s : State) (i : Option Inst) (b : Word) : (setEstat s i b).dist.saves = s.dist.saves := by cases i <;> rfl
@[simp] theorem setEstat_dist_gens (s : State) (i : Option Inst) (b : Word) : (setEstat s i b).dist.gens = s.dist.gens := by cases i <;> rfl
@[simp] theorem setEstat_dist_mapped (s : State) (i : Option Inst) (b : Word) : (setEstat s i b).dist.mapped = s.dist.mapped := by cases i <;> rfl
@[simp] theorem setEstat_dist_holdback (s : State) (i : Option Inst) (b : Word) : (setEstat s i b).dist.holdback = s.dist.holdback := by cases i <;> rfl
@[simp] theorem setEstat_dist_copies (s : State) (i : Option Inst) (b : Word) : (setEstat s i b).dist.copies = s.dist.copies := by cases i <;> rfl
@[simp] theorem setEstat_dist_switches (s : State) (i : Option Inst) (b : Word) : (setEstat s i b).dist.switches = s.dist.switches := by cases i <;> rfl

/-! ## setErr -/

@[simp] theorem setErr_agenda (s : State) (n : Option Node) (b : BitVec 16) : (setErr s n b).agenda = s.agenda := by cases n <;> rfl
@[simp] theorem setErr_input (s : State) (n : Option Node) (b : BitVec 16) : (setErr s n b).input = s.input := by cases n <;> rfl
@[simp] theorem setErr_free (s : State) (n : Option Node) (b : BitVec 16) : (setErr s n b).free = s.free := by cases n <;> rfl
@[simp] theorem setErr_cycle (s : State) (n : Option Node) (b : BitVec 16) : (setErr s n b).cycle = s.cycle := by cases n <;> rfl
@[simp] theorem setErr_fab (s : State) (n : Option Node) (b : BitVec 16) : (setErr s n b).fab = s.fab := by cases n <;> rfl
@[simp] theorem setErr_store (s : State) (n : Option Node) (b : BitVec 16) : (setErr s n b).store = s.store := by cases n <;> rfl
@[simp] theorem setErr_hyps (s : State) (n : Option Node) (b : BitVec 16) : (setErr s n b).hyps = s.hyps := by cases n <;> rfl
@[simp] theorem setErr_dies (s : State) (n : Option Node) (b : BitVec 16) : (setErr s n b).dies = s.dies := by cases n <;> rfl
@[simp] theorem setErr_fns (s : State) (n : Option Node) (b : BitVec 16) : (setErr s n b).fns = s.fns := by cases n <;> rfl
@[simp] theorem setErr_hub (s : State) (n : Option Node) (b : BitVec 16) : (setErr s n b).hub = s.hub := by cases n <;> rfl
@[simp] theorem setErr_links (s : State) (n : Option Node) (b : BitVec 16) : (setErr s n b).links = s.links := by cases n <;> rfl
@[simp] theorem setErr_life (s : State) (n : Option Node) (b : BitVec 16) : (setErr s n b).life = s.life := by cases n <;> rfl
@[simp] theorem setErr_sets (s : State) (n : Option Node) (b : BitVec 16) : (setErr s n b).sets = s.sets := by cases n <;> rfl
@[simp] theorem setErr_dist_master (s : State) (n : Option Node) (b : BitVec 16) : (setErr s n b).dist.master = s.dist.master := by cases n <;> rfl
@[simp] theorem setErr_dist_nextSeq (s : State) (n : Option Node) (b : BitVec 16) : (setErr s n b).dist.nextSeq = s.dist.nextSeq := by cases n <;> rfl
@[simp] theorem setErr_dist_insts (s : State) (n : Option Node) (b : BitVec 16) : (setErr s n b).dist.insts = s.dist.insts := by cases n <;> rfl
@[simp] theorem setErr_dist_nextInst (s : State) (n : Option Node) (b : BitVec 16) : (setErr s n b).dist.nextInst = s.dist.nextInst := by cases n <;> rfl
@[simp] theorem setErr_dist_jobs (s : State) (n : Option Node) (b : BitVec 16) : (setErr s n b).dist.jobs = s.dist.jobs := by cases n <;> rfl
@[simp] theorem setErr_dist_arrived (s : State) (n : Option Node) (b : BitVec 16) : (setErr s n b).dist.arrived = s.dist.arrived := by cases n <;> rfl
@[simp] theorem setErr_dist_sched (s : State) (n : Option Node) (b : BitVec 16) : (setErr s n b).dist.sched = s.dist.sched := by cases n <;> rfl
@[simp] theorem setErr_dist_holds (s : State) (n : Option Node) (b : BitVec 16) : (setErr s n b).dist.holds = s.dist.holds := by cases n <;> rfl
@[simp] theorem setErr_dist_subq (s : State) (n : Option Node) (b : BitVec 16) : (setErr s n b).dist.subq = s.dist.subq := by cases n <;> rfl
@[simp] theorem setErr_dist_images (s : State) (n : Option Node) (b : BitVec 16) : (setErr s n b).dist.images = s.dist.images := by cases n <;> rfl
@[simp] theorem setErr_dist_saves (s : State) (n : Option Node) (b : BitVec 16) : (setErr s n b).dist.saves = s.dist.saves := by cases n <;> rfl
@[simp] theorem setErr_dist_gens (s : State) (n : Option Node) (b : BitVec 16) : (setErr s n b).dist.gens = s.dist.gens := by cases n <;> rfl
@[simp] theorem setErr_dist_mapped (s : State) (n : Option Node) (b : BitVec 16) : (setErr s n b).dist.mapped = s.dist.mapped := by cases n <;> rfl
@[simp] theorem setErr_dist_holdback (s : State) (n : Option Node) (b : BitVec 16) : (setErr s n b).dist.holdback = s.dist.holdback := by cases n <;> rfl
@[simp] theorem setErr_dist_copies (s : State) (n : Option Node) (b : BitVec 16) : (setErr s n b).dist.copies = s.dist.copies := by cases n <;> rfl
@[simp] theorem setErr_dist_switches (s : State) (n : Option Node) (b : BitVec 16) : (setErr s n b).dist.switches = s.dist.switches := by cases n <;> rfl

/-! ## Reading back -/

@[simp] theorem getCe_setCe_self (s : State) (site : Site) (c : Ce) : getCe (setCe s site c) site = c := Sys2Proof.Laws.get_set_self _ _ _ _
theorem getCe_setCe_other (s : State) (site site' : Site) (c : Ce) (h : site ≠ site') : getCe (setCe s site c) site' = getCe s site' :=
  Sys2Proof.Laws.get_set_other _ _ _ fun e => h (BitVec.eq_of_toNat_eq e.symm)
@[simp] theorem getMt_setMt_self (s : State) (site : Site) (c : Mt) : getMt (setMt s site c) site = c := Sys2Proof.Laws.get_set_self _ _ _ _
theorem getMt_setMt_other (s : State) (site site' : Site) (c : Mt) (h : site ≠ site') : getMt (setMt s site c) site' = getMt s site' :=
  Sys2Proof.Laws.get_set_other _ _ _ fun e => h (BitVec.eq_of_toNat_eq e.symm)
@[simp] theorem getAg_setAg_self (s : State) (loc : AgAt) (c : Ag) : getAg (setAg s loc c) loc = c := Sys2Proof.Laws.get_set_self _ _ _ _
theorem getAg_setAg_other (s : State) (loc loc' : AgAt) (c : Ag) (h : agKey loc.site loc.sub ≠ agKey loc'.site loc'.sub) : getAg (setAg s loc c) loc' = getAg s loc' := Sys2Proof.Laws.get_set_other _ _ _ (Ne.symm h)
@[simp] theorem getMx_setMx_self (s : State) (site : Site) (c : Mx) : getMx (setMx s site c) site = c := Sys2Proof.Laws.get_set_self _ _ _ _
theorem getMx_setMx_other (s : State) (site site' : Site) (c : Mx) (h : site ≠ site') : getMx (setMx s site c) site' = getMx s site' :=
  Sys2Proof.Laws.get_set_other _ _ _ fun e => h (BitVec.eq_of_toNat_eq e.symm)
@[simp] theorem getHpu_setHpu_self (s : State) (site : Site) (c : Hpu) : getHpu (setHpu s site c) site = c := Sys2Proof.Laws.get_set_self _ _ _ _
theorem getHpu_setHpu_other (s : State) (site site' : Site) (c : Hpu) (h : site ≠ site') : getHpu (setHpu s site c) site' = getHpu s site' :=
  Sys2Proof.Laws.get_set_other _ _ _ fun e => h (BitVec.eq_of_toNat_eq e.symm)
@[simp] theorem getCp_setCp_self (s : State) (site : Site) (c : Cp) : getCp (setCp s site c) site = c := Sys2Proof.Laws.get_set_self _ _ _ _
theorem getCp_setCp_other (s : State) (site site' : Site) (c : Cp) (h : site ≠ site') : getCp (setCp s site c) site' = getCp s site' :=
  Sys2Proof.Laws.get_set_other _ _ _ fun e => h (BitVec.eq_of_toNat_eq e.symm)
@[simp] theorem getSte_setSte_self (s : State) (site : Site) (c : Ste) : getSte (setSte s site c) site = c := Sys2Proof.Laws.get_set_self _ _ _ _
theorem getSte_setSte_other (s : State) (site site' : Site) (c : Ste) (h : site ≠ site') : getSte (setSte s site c) site' = getSte s site' :=
  Sys2Proof.Laws.get_set_other _ _ _ fun e => h (BitVec.eq_of_toNat_eq e.symm)
@[simp] theorem getOp_setOp_self (s : State) (loc : OpAt) (c : OpRun) : getOp (setOp s loc c) loc = c := Sys2Proof.Laws.get_set_self _ _ _ _
theorem getOp_setOp_other (s : State) (loc loc' : OpAt) (c : OpRun) (h : opRunKey loc.site loc.slot ≠ opRunKey loc'.site loc'.slot) : getOp (setOp s loc c) loc' = getOp s loc' := Sys2Proof.Laws.get_set_other _ _ _ (Ne.symm h)
@[simp] theorem getBuf_setBuf_self (s : State) (k : Nat) (c : Buf) : getBuf (setBuf s k c) k = c := Sys2Proof.Laws.get_set_self _ _ _ _
theorem getBuf_setBuf_other (s : State) (k k' : Nat) (c : Buf) (h : k ≠ k') : getBuf (setBuf s k c) k' = getBuf s k' := Sys2Proof.Laws.get_set_other _ _ _ (Ne.symm h)

@[simp] theorem getTask_setTask_self (s : State) (site : Site) (t : BitVec 3) (k : Task) : getTask (setTask s site t k) site t = k := by
  simp [getTask, setTask]
theorem getTask_setTask_task (s : State) (site : Site) (t t' : BitVec 3) (k : Task) (h : t ≠ t') :
    getTask (setTask s site t k) site t' = getTask s site t' := by
  have h' : t.toNat ≠ t'.toNat := fun e => h (BitVec.eq_of_toNat_eq e)
  simp [getTask, setTask, h']
theorem getTask_setTask_site (s : State) (site site' : Site) (t t' : BitVec 3) (k : Task) (h : site ≠ site') :
    getTask (setTask s site t k) site' t' = getTask s site' t' := by
  simp [getTask, setTask, getCe_setCe_other _ _ _ _ h]
@[simp] theorem getPort_setPort_self (s : State) (loc : PortAt) (k : Port) : getPort (setPort s loc k) loc = k := by
  simp [getPort, setPort]
theorem getPort_setPort_site (s : State) (loc loc' : PortAt) (k : Port) (h : loc.site ≠ loc'.site) :
    getPort (setPort s loc k) loc' = getPort s loc' := by
  simp [getPort, setPort, getMt_setMt_other _ _ _ _ h]
@[simp] theorem getDie_setDie_self (s : State) (d : BitVec 2) (x : Die) : getDie (setDie s d x) d = x := by simp [getDie, setDie]
theorem getDie_setDie_other (s : State) (d d' : BitVec 2) (x : Die) (h : d ≠ d') : getDie (setDie s d x) d' = getDie s d' := by
  have h' : d.toNat ≠ d'.toNat := fun e => h (BitVec.eq_of_toNat_eq e)
  simp [getDie, setDie, h']
@[simp] theorem getFn_setFn_self (s : State) (f : BitVec 10) (x : Fn) : getFn (setFn s f x) f = x := Sys2Proof.Laws.get_set_self _ _ _ _
theorem getFn_setFn_other (s : State) (f f' : BitVec 10) (x : Fn) (h : f ≠ f') : getFn (setFn s f x) f' = getFn s f' :=
  Sys2Proof.Laws.get_set_other _ _ _ fun e => h (BitVec.eq_of_toNat_eq e.symm)

end Sys2Proof.Machine
end

