-- ==== Sys2Proof/Laws/Lanes.lean ====
section
/-! SUPPORT. The small laws of blocks, lane masks and vectors: what a lane of a block built from lanes holds, what a bit of a mask built
from bits is, and what an entry of a vector is after a write. -/

namespace Sys2Proof.Machine

open Sys2Proof

/-! ## Blocks from lanes -/

theorem lanesNat_lt (f : Nat → Word) (n : Nat) : lanesNat f n < 2 ^ (32 * n) := by
  induction n with
  | zero => simp [lanesNat]
  | succ n ih =>
    have h := (f n).isLt
    have e : 2 ^ (32 * (n + 1)) = 2 ^ 32 * 2 ^ (32 * n) := by rw [← Nat.pow_add]; congr 1; omega
    have g : (f n).toNat * 2 ^ (32 * n) ≤ (2 ^ 32 - 1) * 2 ^ (32 * n) := Nat.mul_le_mul_right _ (by omega)
    have k : (2 ^ 32 - 1) * 2 ^ (32 * n) = 2 ^ 32 * 2 ^ (32 * n) - 2 ^ (32 * n) := by rw [Nat.sub_mul]; simp
    have p : 2 ^ (32 * n) ≤ 2 ^ 32 * 2 ^ (32 * n) := Nat.le_mul_of_pos_left _ (by decide)
    simp only [lanesNat]
    omega

theorem lanesNat_lane (f : Nat → Word) (n l : Nat) (h : l < n) : lanesNat f n / 2 ^ (32 * l) % 2 ^ 32 = (f l).toNat := by
  induction n with
  | zero => omega
  | succ n ih =>
    simp only [lanesNat]
    by_cases e : l = n
    · subst e
      rw [Nat.add_mul_div_right _ _ (Nat.two_pow_pos _), Nat.div_eq_of_lt (lanesNat_lt f l), Nat.zero_add]
      exact Nat.mod_eq_of_lt (f l).isLt
    · have hl : l < n := by omega
      have q : 2 ^ (32 * n) = 2 ^ 32 * 2 ^ (32 * (n - l - 1)) * 2 ^ (32 * l) := by
        rw [← Nat.pow_add, ← Nat.pow_add]; congr 1; omega
      rw [q, ← Nat.mul_assoc, Nat.add_mul_div_right _ _ (Nat.two_pow_pos _), Nat.mul_left_comm, Nat.add_mul_mod_self_left]
      exact ih hl

theorem extract_ofNat (w x k : Nat) (h : x < 2 ^ w) : ((BitVec.ofNat w x).extractLsb' k 32).toNat = x / 2 ^ k % 2 ^ 32 := by
  rw [BitVec.extractLsb'_toNat, BitVec.toNat_ofNat, Nat.mod_eq_of_lt h, Nat.shiftRight_eq_div_pow]

theorem lanesNat_block (f : Nat → Word) (n w : Nat) (h : 32 * n ≤ w) : lanesNat f n < 2 ^ w :=
  Nat.lt_of_lt_of_le (lanesNat_lt f n) (Nat.pow_le_pow_right (by decide) h)

/-- Lane `l` of the block of some lanes. -/
@[simp] theorem lane_ofLanes (f : Nat → Word) (l : Nat) (h : l < 16) : lane (ofLanes f) l = f l :=
  BitVec.eq_of_toNat_eq ((extract_ofNat 512 _ _ (lanesNat_block f 16 512 (by decide))).trans (lanesNat_lane f 16 l h))

/-- Lane `l` of a block that takes the lanes of a mask from another. -/
@[simp] theorem lane_mergeLanes (a b : Block) (m : BitVec 16) (l : Nat) (h : l < 16) :
    lane (mergeLanes a b m) l = if bitAt m l then lane b l else lane a l := by
  simp [mergeLanes, h]

/-- Every lane of a splat holds its word. -/
@[simp] theorem lane_splat (w : Word) (l : Nat) (h : l < 16) : lane (splat w) l = w := by simp [splat, h]

/-! ## Lane masks -/

theorem maskNat_lt (f : Nat → Bool) (n : Nat) : maskNat f n < 2 ^ n := by
  induction n with
  | zero => simp [maskNat]
  | succ n ih =>
    simp only [maskNat]
    have : 2 ^ (n + 1) = 2 ^ n + 2 ^ n := by omega
    split <;> omega

theorem maskNat_bit (f : Nat → Bool) (n l : Nat) (h : l < n) : (maskNat f n).testBit l = f l := by
  induction n with
  | zero => omega
  | succ n ih =>
    simp only [maskNat]
    by_cases e : l = n
    · subst e
      cases f l
      · simpa using Nat.testBit_lt_two_pow (maskNat_lt f l)
      · simp only [if_true]
        rw [Nat.add_comm, Nat.testBit_two_pow_add_eq, Nat.testBit_lt_two_pow (maskNat_lt f l)]
        rfl
    · have hl : l < n := by omega
      split
      · rw [Nat.add_comm, Nat.testBit_two_pow_add_gt hl]
        exact ih hl
      · exact ih hl

/-- Bit `l` of the mask of some lanes. -/
@[simp] theorem bitAt_ofMask (f : Nat → Bool) (l : Nat) (h : l < 16) : bitAt (ofMask f) l = f l := by
  simp only [bitAt, ofMask, BitVec.getLsbD_ofNat, h, decide_true, Bool.true_and]
  exact maskNat_bit f 16 l h

@[simp] theorem bitAt_or {w : Nat} (x y : BitVec w) (i : Nat) : bitAt (x ||| y) i = (bitAt x i || bitAt y i) := by simp [bitAt]
@[simp] theorem bitAt_and {w : Nat} (x y : BitVec w) (i : Nat) : bitAt (x &&& y) i = (bitAt x i && bitAt y i) := by simp [bitAt]
theorem bitAt_not {w : Nat} (x : BitVec w) (i : Nat) (h : i < w) : bitAt (~~~x) i = !bitAt x i := by simp [bitAt, h]

/-! ## Entries of a vector -/

variable {α : Type} {n : Nat}

@[simp] theorem vget_vset_self (d : α) (v : Vector α n) (i : Nat) (x : α) (h : i < n) : vget d (vset v i x) i = x := by
  simp [vget, vset, h]
theorem vget_vset_other (d : α) (v : Vector α n) (i j : Nat) (x : α) (h : i ≠ j) : vget d (vset v i x) j = vget d v j := by
  simp only [vget, vset]
  split
  · split
    · rw [Vector.getElem_set_ne]; exact h
    · rfl
  · rfl

/-! ## Flags of a stage -/

/-- A flag that one of the active lanes sets is set. -/
theorem orFlags_bit (act : BitVec 16) (f : Nat → Flags) (n i : Nat) :
    bitAt (orFlags act f n) i = (List.range n).any fun l => bitAt act l && bitAt (f l) i := by
  induction n with
  | zero => simp [orFlags, fNone, bitAt]
  | succ n ih =>
    rw [List.range_succ, List.any_append, ← ih]
    simp only [orFlags, bitAt, BitVec.getLsbD_or, flagIf, List.any_cons, List.any_nil, Bool.or_false]
    by_cases e : act.getLsbD n = true
    · simp [e]
    · simp [e, fNone]

end Sys2Proof.Machine
end

