-- ==== Sys2Proof/Laws/Memory.lean ====
section
/-! SUPPORT. The laws of storage: a read after a write, what a write leaves alone, and that every operation over storage keeps its
canonical form. -/

namespace Sys2Proof.Machine

open Sys2Proof Sys2Proof.Laws

/-! ## setMemByte -/

@[simp] theorem setMemByte_agenda (s : State) (a : Nat) (b : Byte) : (setMemByte s a b).agenda = s.agenda := rfl
@[simp] theorem setMemByte_input (s : State) (a : Nat) (b : Byte) : (setMemByte s a b).input = s.input := rfl
@[simp] theorem setMemByte_free (s : State) (a : Nat) (b : Byte) : (setMemByte s a b).free = s.free := rfl
@[simp] theorem setMemByte_cycle (s : State) (a : Nat) (b : Byte) : (setMemByte s a b).cycle = s.cycle := rfl
@[simp] theorem setMemByte_fab (s : State) (a : Nat) (b : Byte) : (setMemByte s a b).fab = s.fab := rfl
@[simp] theorem setMemByte_dist (s : State) (a : Nat) (b : Byte) : (setMemByte s a b).dist = s.dist := rfl
@[simp] theorem setMemByte_hyps (s : State) (a : Nat) (b : Byte) : (setMemByte s a b).hyps = s.hyps := rfl
@[simp] theorem setMemByte_dies (s : State) (a : Nat) (b : Byte) : (setMemByte s a b).dies = s.dies := rfl
@[simp] theorem setMemByte_fns (s : State) (a : Nat) (b : Byte) : (setMemByte s a b).fns = s.fns := rfl
@[simp] theorem setMemByte_hub (s : State) (a : Nat) (b : Byte) : (setMemByte s a b).hub = s.hub := rfl
@[simp] theorem setMemByte_links (s : State) (a : Nat) (b : Byte) : (setMemByte s a b).links = s.links := rfl
@[simp] theorem setMemByte_life (s : State) (a : Nat) (b : Byte) : (setMemByte s a b).life = s.life := rfl
@[simp] theorem setMemByte_sets (s : State) (a : Nat) (b : Byte) : (setMemByte s a b).sets = s.sets := rfl
@[simp] theorem setMemByte_store_host (s : State) (a : Nat) (b : Byte) : (setMemByte s a b).store.host = s.store.host := rfl
@[simp] theorem setMemByte_store_spad (s : State) (a : Nat) (b : Byte) : (setMemByte s a b).store.spad = s.store.spad := rfl
@[simp] theorem setMemByte_store_memDesc (s : State) (a : Nat) (b : Byte) : (setMemByte s a b).store.memDesc = s.store.memDesc := rfl
@[simp] theorem setMemByte_store_spadDesc (s : State) (a : Nat) (b : Byte) : (setMemByte s a b).store.spadDesc = s.store.spadDesc := rfl
@[simp] theorem setMemByte_store_memPsn (s : State) (a : Nat) (b : Byte) : (setMemByte s a b).store.memPsn = s.store.memPsn := rfl
@[simp] theorem setMemByte_store_spadPsn (s : State) (a : Nat) (b : Byte) : (setMemByte s a b).store.spadPsn = s.store.spadPsn := rfl
@[simp] theorem setMemByte_store_pend (s : State) (a : Nat) (b : Byte) : (setMemByte s a b).store.pend = s.store.pend := rfl

/-! ## setHostByte -/

@[simp] theorem setHostByte_agenda (s : State) (a : Nat) (b : Byte) : (setHostByte s a b).agenda = s.agenda := rfl
@[simp] theorem setHostByte_input (s : State) (a : Nat) (b : Byte) : (setHostByte s a b).input = s.input := rfl
@[simp] theorem setHostByte_free (s : State) (a : Nat) (b : Byte) : (setHostByte s a b).free = s.free := rfl
@[simp] theorem setHostByte_cycle (s : State) (a : Nat) (b : Byte) : (setHostByte s a b).cycle = s.cycle := rfl
@[simp] theorem setHostByte_fab (s : State) (a : Nat) (b : Byte) : (setHostByte s a b).fab = s.fab := rfl
@[simp] theorem setHostByte_dist (s : State) (a : Nat) (b : Byte) : (setHostByte s a b).dist = s.dist := rfl
@[simp] theorem setHostByte_hyps (s : State) (a : Nat) (b : Byte) : (setHostByte s a b).hyps = s.hyps := rfl
@[simp] theorem setHostByte_dies (s : State) (a : Nat) (b : Byte) : (setHostByte s a b).dies = s.dies := rfl
@[simp] theorem setHostByte_fns (s : State) (a : Nat) (b : Byte) : (setHostByte s a b).fns = s.fns := rfl
@[simp] theorem setHostByte_hub (s : State) (a : Nat) (b : Byte) : (setHostByte s a b).hub = s.hub := rfl
@[simp] theorem setHostByte_links (s : State) (a : Nat) (b : Byte) : (setHostByte s a b).links = s.links := rfl
@[simp] theorem setHostByte_life (s : State) (a : Nat) (b : Byte) : (setHostByte s a b).life = s.life := rfl
@[simp] theorem setHostByte_sets (s : State) (a : Nat) (b : Byte) : (setHostByte s a b).sets = s.sets := rfl
@[simp] theorem setHostByte_store_mem (s : State) (a : Nat) (b : Byte) : (setHostByte s a b).store.mem = s.store.mem := rfl
@[simp] theorem setHostByte_store_spad (s : State) (a : Nat) (b : Byte) : (setHostByte s a b).store.spad = s.store.spad := rfl
@[simp] theorem setHostByte_store_memDesc (s : State) (a : Nat) (b : Byte) : (setHostByte s a b).store.memDesc = s.store.memDesc := rfl
@[simp] theorem setHostByte_store_spadDesc (s : State) (a : Nat) (b : Byte) : (setHostByte s a b).store.spadDesc = s.store.spadDesc := rfl
@[simp] theorem setHostByte_store_memPsn (s : State) (a : Nat) (b : Byte) : (setHostByte s a b).store.memPsn = s.store.memPsn := rfl
@[simp] theorem setHostByte_store_spadPsn (s : State) (a : Nat) (b : Byte) : (setHostByte s a b).store.spadPsn = s.store.spadPsn := rfl
@[simp] theorem setHostByte_store_pend (s : State) (a : Nat) (b : Byte) : (setHostByte s a b).store.pend = s.store.pend := rfl

/-! ## setSpadByte -/

@[simp] theorem setSpadByte_agenda (s : State) (site : Site) (o : Nat) (b : Byte) : (setSpadByte s site o b).agenda = s.agenda := rfl
@[simp] theorem setSpadByte_input (s : State) (site : Site) (o : Nat) (b : Byte) : (setSpadByte s site o b).input = s.input := rfl
@[simp] theorem setSpadByte_free (s : State) (site : Site) (o : Nat) (b : Byte) : (setSpadByte s site o b).free = s.free := rfl
@[simp] theorem setSpadByte_cycle (s : State) (site : Site) (o : Nat) (b : Byte) : (setSpadByte s site o b).cycle = s.cycle := rfl
@[simp] theorem setSpadByte_fab (s : State) (site : Site) (o : Nat) (b : Byte) : (setSpadByte s site o b).fab = s.fab := rfl
@[simp] theorem setSpadByte_dist (s : State) (site : Site) (o : Nat) (b : Byte) : (setSpadByte s site o b).dist = s.dist := rfl
@[simp] theorem setSpadByte_hyps (s : State) (site : Site) (o : Nat) (b : Byte) : (setSpadByte s site o b).hyps = s.hyps := rfl
@[simp] theorem setSpadByte_dies (s : State) (site : Site) (o : Nat) (b : Byte) : (setSpadByte s site o b).dies = s.dies := rfl
@[simp] theorem setSpadByte_fns (s : State) (site : Site) (o : Nat) (b : Byte) : (setSpadByte s site o b).fns = s.fns := rfl
@[simp] theorem setSpadByte_hub (s : State) (site : Site) (o : Nat) (b : Byte) : (setSpadByte s site o b).hub = s.hub := rfl
@[simp] theorem setSpadByte_links (s : State) (site : Site) (o : Nat) (b : Byte) : (setSpadByte s site o b).links = s.links := rfl
@[simp] theorem setSpadByte_life (s : State) (site : Site) (o : Nat) (b : Byte) : (setSpadByte s site o b).life = s.life := rfl
@[simp] theorem setSpadByte_sets (s : State) (site : Site) (o : Nat) (b : Byte) : (setSpadByte s site o b).sets = s.sets := rfl
@[simp] theorem setSpadByte_store_mem (s : State) (site : Site) (o : Nat) (b : Byte) : (setSpadByte s site o b).store.mem = s.store.mem := rfl
@[simp] theorem setSpadByte_store_host (s : State) (site : Site) (o : Nat) (b : Byte) : (setSpadByte s site o b).store.host = s.store.host := rfl
@[simp] theorem setSpadByte_store_memDesc (s : State) (site : Site) (o : Nat) (b : Byte) : (setSpadByte s site o b).store.memDesc = s.store.memDesc := rfl
@[simp] theorem setSpadByte_store_spadDesc (s : State) (site : Site) (o : Nat) (b : Byte) : (setSpadByte s site o b).store.spadDesc = s.store.spadDesc := rfl
@[simp] theorem setSpadByte_store_memPsn (s : State) (site : Site) (o : Nat) (b : Byte) : (setSpadByte s site o b).store.memPsn = s.store.memPsn := rfl
@[simp] theorem setSpadByte_store_spadPsn (s : State) (site : Site) (o : Nat) (b : Byte) : (setSpadByte s site o b).store.spadPsn = s.store.spadPsn := rfl
@[simp] theorem setSpadByte_store_pend (s : State) (site : Site) (o : Nat) (b : Byte) : (setSpadByte s site o b).store.pend = s.store.pend := rfl

/-! ## setSpadPoison -/

@[simp] theorem setSpadPoison_agenda (s : State) (site : Site) (o : Nat) (b : Bool) : (setSpadPoison s site o b).agenda = s.agenda := rfl
@[simp] theorem setSpadPoison_input (s : State) (site : Site) (o : Nat) (b : Bool) : (setSpadPoison s site o b).input = s.input := rfl
@[simp] theorem setSpadPoison_free (s : State) (site : Site) (o : Nat) (b : Bool) : (setSpadPoison s site o b).free = s.free := rfl
@[simp] theorem setSpadPoison_cycle (s : State) (site : Site) (o : Nat) (b : Bool) : (setSpadPoison s site o b).cycle = s.cycle := rfl
@[simp] theorem setSpadPoison_fab (s : State) (site : Site) (o : Nat) (b : Bool) : (setSpadPoison s site o b).fab = s.fab := rfl
@[simp] theorem setSpadPoison_dist (s : State) (site : Site) (o : Nat) (b : Bool) : (setSpadPoison s site o b).dist = s.dist := rfl
@[simp] theorem setSpadPoison_hyps (s : State) (site : Site) (o : Nat) (b : Bool) : (setSpadPoison s site o b).hyps = s.hyps := rfl
@[simp] theorem setSpadPoison_dies (s : State) (site : Site) (o : Nat) (b : Bool) : (setSpadPoison s site o b).dies = s.dies := rfl
@[simp] theorem setSpadPoison_fns (s : State) (site : Site) (o : Nat) (b : Bool) : (setSpadPoison s site o b).fns = s.fns := rfl
@[simp] theorem setSpadPoison_hub (s : State) (site : Site) (o : Nat) (b : Bool) : (setSpadPoison s site o b).hub = s.hub := rfl
@[simp] theorem setSpadPoison_links (s : State) (site : Site) (o : Nat) (b : Bool) : (setSpadPoison s site o b).links = s.links := rfl
@[simp] theorem setSpadPoison_life (s : State) (site : Site) (o : Nat) (b : Bool) : (setSpadPoison s site o b).life = s.life := rfl
@[simp] theorem setSpadPoison_sets (s : State) (site : Site) (o : Nat) (b : Bool) : (setSpadPoison s site o b).sets = s.sets := rfl
@[simp] theorem setSpadPoison_store_mem (s : State) (site : Site) (o : Nat) (b : Bool) : (setSpadPoison s site o b).store.mem = s.store.mem := rfl
@[simp] theorem setSpadPoison_store_host (s : State) (site : Site) (o : Nat) (b : Bool) : (setSpadPoison s site o b).store.host = s.store.host := rfl
@[simp] theorem setSpadPoison_store_spad (s : State) (site : Site) (o : Nat) (b : Bool) : (setSpadPoison s site o b).store.spad = s.store.spad := rfl
@[simp] theorem setSpadPoison_store_memDesc (s : State) (site : Site) (o : Nat) (b : Bool) : (setSpadPoison s site o b).store.memDesc = s.store.memDesc := rfl
@[simp] theorem setSpadPoison_store_spadDesc (s : State) (site : Site) (o : Nat) (b : Bool) : (setSpadPoison s site o b).store.spadDesc = s.store.spadDesc := rfl
@[simp] theorem setSpadPoison_store_memPsn (s : State) (site : Site) (o : Nat) (b : Bool) : (setSpadPoison s site o b).store.memPsn = s.store.memPsn := rfl
@[simp] theorem setSpadPoison_store_pend (s : State) (site : Site) (o : Nat) (b : Bool) : (setSpadPoison s site o b).store.pend = s.store.pend := rfl

/-! ## setSpadDesc -/

@[simp] theorem setSpadDesc_agenda (s : State) (site : Site) (o : Nat) (b : BitVec 16) : (setSpadDesc s site o b).agenda = s.agenda := rfl
@[simp] theorem setSpadDesc_input (s : State) (site : Site) (o : Nat) (b : BitVec 16) : (setSpadDesc s site o b).input = s.input := rfl
@[simp] theorem setSpadDesc_free (s : State) (site : Site) (o : Nat) (b : BitVec 16) : (setSpadDesc s site o b).free = s.free := rfl
@[simp] theorem setSpadDesc_cycle (s : State) (site : Site) (o : Nat) (b : BitVec 16) : (setSpadDesc s site o b).cycle = s.cycle := rfl
@[simp] theorem setSpadDesc_fab (s : State) (site : Site) (o : Nat) (b : BitVec 16) : (setSpadDesc s site o b).fab = s.fab := rfl
@[simp] theorem setSpadDesc_dist (s : State) (site : Site) (o : Nat) (b : BitVec 16) : (setSpadDesc s site o b).dist = s.dist := rfl
@[simp] theorem setSpadDesc_hyps (s : State) (site : Site) (o : Nat) (b : BitVec 16) : (setSpadDesc s site o b).hyps = s.hyps := rfl
@[simp] theorem setSpadDesc_dies (s : State) (site : Site) (o : Nat) (b : BitVec 16) : (setSpadDesc s site o b).dies = s.dies := rfl
@[simp] theorem setSpadDesc_fns (s : State) (site : Site) (o : Nat) (b : BitVec 16) : (setSpadDesc s site o b).fns = s.fns := rfl
@[simp] theorem setSpadDesc_hub (s : State) (site : Site) (o : Nat) (b : BitVec 16) : (setSpadDesc s site o b).hub = s.hub := rfl
@[simp] theorem setSpadDesc_links (s : State) (site : Site) (o : Nat) (b : BitVec 16) : (setSpadDesc s site o b).links = s.links := rfl
@[simp] theorem setSpadDesc_life (s : State) (site : Site) (o : Nat) (b : BitVec 16) : (setSpadDesc s site o b).life = s.life := rfl
@[simp] theorem setSpadDesc_sets (s : State) (site : Site) (o : Nat) (b : BitVec 16) : (setSpadDesc s site o b).sets = s.sets := rfl
@[simp] theorem setSpadDesc_store_mem (s : State) (site : Site) (o : Nat) (b : BitVec 16) : (setSpadDesc s site o b).store.mem = s.store.mem := rfl
@[simp] theorem setSpadDesc_store_host (s : State) (site : Site) (o : Nat) (b : BitVec 16) : (setSpadDesc s site o b).store.host = s.store.host := rfl
@[simp] theorem setSpadDesc_store_spad (s : State) (site : Site) (o : Nat) (b : BitVec 16) : (setSpadDesc s site o b).store.spad = s.store.spad := rfl
@[simp] theorem setSpadDesc_store_memDesc (s : State) (site : Site) (o : Nat) (b : BitVec 16) : (setSpadDesc s site o b).store.memDesc = s.store.memDesc := rfl
@[simp] theorem setSpadDesc_store_memPsn (s : State) (site : Site) (o : Nat) (b : BitVec 16) : (setSpadDesc s site o b).store.memPsn = s.store.memPsn := rfl
@[simp] theorem setSpadDesc_store_spadPsn (s : State) (site : Site) (o : Nat) (b : BitVec 16) : (setSpadDesc s site o b).store.spadPsn = s.store.spadPsn := rfl
@[simp] theorem setSpadDesc_store_pend (s : State) (site : Site) (o : Nat) (b : BitVec 16) : (setSpadDesc s site o b).store.pend = s.store.pend := rfl

/-! ## Reading back -/

/-- Different places of the scratchpads have different keys. -/
theorem spadKey_inj {x y : Site} {a b : Nat} (ha : a < 2 ^ 20) (hb : b < 2 ^ 20) (h : spadKey x a = spadKey y b) : x = y ∧ a = b := by
  simp only [spadKey] at h
  exact ⟨BitVec.eq_of_toNat_eq (by omega), by omega⟩

@[simp] theorem memByte_setMemByte (s : State) (a : Nat) (b : Byte) : memByte (setMemByte s a b) a = b := get_set_self _ _ _ _
theorem memByte_setMemByte_other (s : State) {a x : Nat} (b : Byte) (h : x ≠ a) : memByte (setMemByte s a b) x = memByte s x :=
  get_set_other _ _ _ h
@[simp] theorem hostByte_setHostByte (s : State) (a : Nat) (b : Byte) : hostByte (setHostByte s a b) a = b := get_set_self _ _ _ _
theorem hostByte_setHostByte_other (s : State) {a x : Nat} (b : Byte) (h : x ≠ a) : hostByte (setHostByte s a b) x = hostByte s x :=
  get_set_other _ _ _ h
@[simp] theorem spadByte_setSpadByte (s : State) (site : Site) (o : Nat) (b : Byte) : spadByte (setSpadByte s site o b) site o = b :=
  get_set_self _ _ _ _
theorem spadByte_setSpadByte_other (s : State) {site x : Site} {o a : Nat} (b : Byte) (ho : o < 2 ^ 20) (ha : a < 2 ^ 20)
    (h : x ≠ site ∨ a ≠ o) : spadByte (setSpadByte s site o b) x a = spadByte s x a := by
  apply get_set_other
  intro e
  obtain ⟨h1, h2⟩ := spadKey_inj ha ho e
  rcases h with h | h <;> exact h ‹_›

@[simp] theorem memByte_setHostByte (s : State) (a : Nat) (b : Byte) (x : Nat) : memByte (setHostByte s a b) x = memByte s x := rfl
@[simp] theorem memByte_setSpadByte (s : State) (site : Site) (o : Nat) (b : Byte) (x : Nat) : memByte (setSpadByte s site o b) x = memByte s x := rfl
@[simp] theorem hostByte_setMemByte (s : State) (a : Nat) (b : Byte) (x : Nat) : hostByte (setMemByte s a b) x = hostByte s x := rfl
@[simp] theorem hostByte_setSpadByte (s : State) (site : Site) (o : Nat) (b : Byte) (x : Nat) : hostByte (setSpadByte s site o b) x = hostByte s x := rfl
@[simp] theorem spadByte_setMemByte (s : State) (a : Nat) (b : Byte) (site : Site) (o : Nat) : spadByte (setMemByte s a b) site o = spadByte s site o := rfl
@[simp] theorem spadByte_setHostByte (s : State) (a : Nat) (b : Byte) (site : Site) (o : Nat) : spadByte (setHostByte s a b) site o = spadByte s site o := rfl

/-- The low byte of a number after `n` bytes. -/
theorem setSpadNat_byte (s : State) (site : Site) (o v n k : Nat) (hn : o + n ≤ 2 ^ 20) (hk : k < n) :
    spadByte (setSpadNat s site o v n) site (o + k) = BitVec.ofNat 8 (v / 2 ^ (8 * k)) := by
  induction n with
  | zero => omega
  | succ n ih =>
    simp only [setSpadNat]
    by_cases h : k = n
    · subst h
      exact spadByte_setSpadByte _ _ _ _
    · rw [spadByte_setSpadByte_other _ _ (by omega) (by omega) (.inr (by omega))]
      exact ih (by omega) (by omega)

/-- A number written to a scratchpad leaves every byte outside it. -/
theorem setSpadNat_other (s : State) (site x : Site) (o v n a : Nat) (hn : o + n ≤ 2 ^ 20) (ha : a < 2 ^ 20)
    (h : x ≠ site ∨ a < o ∨ o + n ≤ a) : spadByte (setSpadNat s site o v n) x a = spadByte s x a := by
  induction n with
  | zero => rfl
  | succ n ih =>
    simp only [setSpadNat]
    rw [spadByte_setSpadByte_other _ _ (by omega) ha (h.imp id (by omega))]
    exact ih (by omega) (h.imp id (by omega))

/-- A number written to a scratchpad changes nothing but scratchpad bytes. -/
theorem setSpadNat_frame (s : State) (site : Site) (o v n : Nat) :
    setSpadNat s site o v n = { s with store := { s.store with spad := (setSpadNat s site o v n).store.spad } } := by
  induction n with
  | zero => rfl
  | succ n ih =>
    simp only [setSpadNat]
    rw [ih]
    rfl

/-! ## Blocks of module memory -/

/-- The bytes of a number below 2^(8n) give the number. -/
theorem bytesNat_of (x n : Nat) : bytesNat (fun i => BitVec.ofNat 8 (x / 2 ^ (8 * i))) n = x % 2 ^ (8 * n) := by
  induction n with
  | zero => simp [bytesNat, Nat.mod_one]
  | succ n ih =>
    rw [bytesNat, ih, BitVec.toNat_ofNat, show 8 * (n + 1) = 8 * n + 8 by omega, Nat.pow_add, Nat.mod_mul]
    exact congrArg _ (Nat.mul_comm _ _)

theorem bytesNat_congr {f g : Nat → Byte} (n : Nat) (h : ∀ i, i < n → f i = g i) : bytesNat f n = bytesNat g n := by
  induction n with
  | zero => rfl
  | succ n ih => rw [bytesNat, bytesNat, ih fun i hi => h i (by omega), h n (by omega)]

/-- A block is its bytes. -/
theorem ofBytes_blockByte (b : Block) : ofBytes (blockByte b) = b := by
  have h : bytesNat (blockByte b) 64 = b.toNat := by
    rw [bytesNat_congr (g := fun i => BitVec.ofNat 8 (b.toNat / 2 ^ (8 * i))) 64, bytesNat_of]
    · exact Nat.mod_eq_of_lt b.isLt
    · intro i _
      apply BitVec.eq_of_toNat_eq
      simp [blockByte, BitVec.extractLsb'_toNat, Nat.shiftRight_eq_div_pow]
  rw [ofBytes, h, BitVec.ofNat_toNat]
  simp

theorem ofBytes_congr {f g : Nat → Byte} (h : ∀ i, i < 64 → f i = g i) : ofBytes f = ofBytes g := by
  rw [ofBytes, ofBytes, bytesNat_congr 64 h]

/-- A byte of a block that is made of bytes. -/
theorem blockByte_ofBytes (f : Nat → Byte) {i : Nat} (hi : i < 64) : blockByte (ofBytes f) i = f i := by
  have lt : ∀ n, bytesNat f n < 2 ^ (8 * n) := by
    intro n
    induction n with
    | zero => simp [bytesNat]
    | succ n ih =>
      rw [bytesNat, show 8 * (n + 1) = 8 * n + 8 by omega, Nat.pow_add]
      have h := (f n).isLt
      calc bytesNat f n + (f n).toNat * 2 ^ (8 * n) < 2 ^ (8 * n) + (f n).toNat * 2 ^ (8 * n) := by omega
        _ = ((f n).toNat + 1) * 2 ^ (8 * n) := by rw [Nat.add_mul, Nat.one_mul, Nat.add_comm]
        _ ≤ 2 ^ 8 * 2 ^ (8 * n) := Nat.mul_le_mul_right _ h
        _ = 2 ^ (8 * n) * 2 ^ 8 := Nat.mul_comm _ _
  have at0 : ∀ n, i < n → bytesNat f n / 2 ^ (8 * i) % 2 ^ 8 = (f i).toNat := by
    intro n
    induction n with
    | zero => omega
    | succ n ih =>
      intro h
      rw [bytesNat]
      by_cases hn : i = n
      · subst hn
        rw [Nat.add_mul_div_right _ _ (Nat.two_pow_pos _), Nat.div_eq_of_lt (lt _), Nat.zero_add, Nat.mod_eq_of_lt (f i).isLt]
      · have h2 : 2 ^ (8 * n) = 2 ^ (8 * (n - i - 1)) * 2 ^ 8 * 2 ^ (8 * i) := by
          rw [← Nat.pow_add, ← Nat.pow_add]
          exact congrArg _ (by omega)
        rw [h2, ← Nat.mul_assoc, Nat.add_mul_div_right _ _ (Nat.two_pow_pos _), ← Nat.mul_assoc, Nat.add_mul_mod_self_right]
        exact ih (by omega)
  apply BitVec.eq_of_toNat_eq
  rw [blockByte, BitVec.extractLsb'_toNat, ofBytes, BitVec.toNat_ofNat, Nat.mod_eq_of_lt (lt 64), Nat.shiftRight_eq_div_pow]
  exact at0 64 hi

/-- A write of all bytes leaves nothing of the old block. -/
theorem mergeBytes_all (old b : Block) : mergeBytes old b (BitVec.allOnes 64) = b := by
  rw [← ofBytes_blockByte b, mergeBytes]
  apply ofBytes_congr
  intro i hi
  rw [ofBytes_blockByte, if_pos]
  rw [bitAt, BitVec.getLsbD_allOnes]
  exact decide_eq_true hi

theorem ite_of_iff {α : Type} {p q : Prop} [Decidable p] [Decidable q] (x y : α) (h : p ↔ q) : (if p then x else y) = if q then x else y := by
  simp only [h]

theorem writeBytes_succ (s : State) (a : Nat) (m : BitVec 64) (b : Block) (n : Nat) :
    writeBytes s true a m b (n + 1) =
      if bitAt m n = true then setMemByte (writeBytes s true a m b n) (a + n) (blockByte b n) else writeBytes s true a m b n := by
  simp [writeBytes]

/-- A byte of module memory after the bytes of a block below the `n`th have been written under a mask. -/
theorem memByte_writeBytes (s : State) (a : Nat) (m : BitVec 64) (b : Block) (n x : Nat) :
    memByte (writeBytes s true a m b n) x =
      if a ≤ x ∧ x < a + n ∧ bitAt m (x - a) = true then blockByte b (x - a) else memByte s x := by
  induction n with
  | zero => rw [writeBytes, if_neg (by omega)]
  | succ n ih =>
    rw [writeBytes_succ]
    by_cases hm : bitAt m n = true
    · rw [if_pos hm]
      by_cases hx : x = a + n
      · subst hx
        rw [memByte_setMemByte, if_pos ⟨by omega, by omega, by simpa using hm⟩]
        simp
      · rw [memByte_setMemByte_other _ _ hx, ih]
        exact ite_of_iff _ _ ⟨fun h => ⟨h.1, Nat.lt_succ_of_lt h.2.1, h.2.2⟩, fun h => ⟨h.1, by have := h.2.1; omega, h.2.2⟩⟩
    · rw [if_neg hm, ih]
      refine ite_of_iff _ _ ⟨fun h => ⟨h.1, Nat.lt_succ_of_lt h.2.1, h.2.2⟩, fun h => ⟨h.1, ?_, h.2.2⟩⟩
      have hx : x ≠ a + n := fun hx => hm (by simpa [hx] using h.2.2)
      omega

/-- A write to module memory changes nothing but storage's bytes, descriptors and poison marks. -/
theorem writeHome_frame (s : State) (h : Nat) (m : BitVec 64) (b : Block) (d : Option (BitVec 16)) (p : Bool) :
    writeHome s h m b d p =
      { s with store := { s.store with
          mem := (writeHome s h m b d p).store.mem
          memDesc := (writeHome s h m b d p).store.memDesc
          memPsn := (writeHome s h m b d p).store.memPsn
          host := (writeHome s h m b d p).store.host
          hostPsn := (writeHome s h m b d p).store.hostPsn } } := by
  have e : ∀ k a n, writeBytes s k a m b n = { s with store := { s.store with
      mem := (writeBytes s k a m b n).store.mem, host := (writeBytes s k a m b n).store.host } } := by
    intro k a n
    induction n with
    | zero => rfl
    | succ n ih =>
      simp only [writeBytes]
      split
      · split
        · simp only [setMemByte]
          rw [ih]
        · simp only [setHostByte]
          rw [ih]
      · exact ih
  unfold writeHome
  split
  · rfl
  · split
    · split
      · rfl
      · simp only [writeModule]
        rw [e true (homeAddr h) 64]
        cases d <;> rfl
    · split
      · simp only [writeHost]
        rw [e false (homeAddr h) 64]
      · rfl

/-- A write to a block of module memory that is within reach leaves in the block the bytes of its mask, and the descriptor that it has,
and in no other block anything new (R83, R403). -/
theorem homeBlock_writeHome (s : State) {h h' : Nat} (m : BitVec 64) (b : Block) (d : Option (BitVec 16)) (hm : m ≠ 0#64)
    (hh : h < 2 ^ 52) (hh' : h' < 2 ^ 52) (ha : h % 64 = 0) (ha' : h' % 64 = 0) (hc : moduleCut s h = false) :
    (homeBlock (writeHome s h m b d false) h').data =
      (if h' = h then mergeBytes (homeBlock s h).data b m else (homeBlock s h').data) ∧
    ((homeBlock s h').psn = false → (homeBlock (writeHome s h m b d false) h').psn = false) := by
  have e : ∀ x, x < 2 ^ 52 → homeAddr x = x := fun x hx => Nat.mod_eq_of_lt hx
  have k : ∀ x, x < 2 ^ 52 → homeIsModule x = true := fun x hx => decide_eq_true hx
  have w : writeHome s h m b d false = writeModule s h m b d false := by
    simp [writeHome, hm, k h hh, e h hh, hc]
  have mem : ∀ x, memByte (writeModule s h m b d false) x = memByte (writeBytes s true h m b 64) x := by
    intro x
    cases d <;> rfl
  rw [w]
  have psn : ∀ y, y % 64 = 0 → memPoisoned s y = false → memPoisoned (writeModule s h m b d false) y = false := by
    intro y hy hp
    have e2 : (writeModule s h m b d false).store.memPsn = Table.set false (writeBytes s true h m b 64).store.memPsn (h / 64)
        (memPoisoned (writeBytes s true h m b 64) h && decide (m ≠ BitVec.allOnes 64)) := by
      cases d <;> rfl
    have e3 : (writeBytes s true h m b 64).store.memPsn = s.store.memPsn := by
      generalize 64 = n
      induction n with
      | zero => rfl
      | succ n ih =>
        rw [writeBytes_succ]
        split
        · exact ih
        · exact ih
    unfold memPoisoned at hp ⊢
    rw [e2]
    by_cases hy2 : y / 64 = h / 64
    · rw [hy2, get_set_self, memPoisoned, e3, ← hy2, hp]
      rfl
    · rw [get_set_other _ _ _ hy2, e3]
      exact hp
  have cut : ∀ y, moduleCut (writeModule s h m b d false) y = moduleCut s y := by
    have e3 : (writeBytes s true h m b 64).dies = s.dies := by
      generalize 64 = n
      induction n with
      | zero => rfl
      | succ n ih =>
        rw [writeBytes_succ]
        split
        · exact ih
        · exact ih
    intro y
    have e4 : (writeModule s h m b d false).dies = s.dies := by
      cases d <;> exact e3
    simp only [moduleCut, getDie, e4]
  constructor
  · simp only [homeBlock, k _ hh', k _ hh, e _ hh', e _ hh, if_true]
    split
    · subst h'
      apply ofBytes_congr
      intro i hi
      rw [mem, memByte_writeBytes]
      have hb : blockByte (ofBytes fun i => memByte s (h + i)) i = memByte s (h + i) := blockByte_ofBytes _ hi
      rw [hb]
      have e5 : h + i - h = i := by omega
      rw [e5]
      exact ite_of_iff _ _ ⟨fun h => h.2.2, fun h => ⟨by omega, by omega, h⟩⟩
    · apply ofBytes_congr
      intro i hi
      rw [mem, memByte_writeBytes, if_neg (by omega)]
  · simp only [homeBlock, k _ hh', e _ hh', if_true, Bool.or_eq_false_iff]
    intro hp
    exact ⟨psn _ ha' hp.1, (cut _).trans hp.2⟩

/-! ## The canonical form -/

/-- The eight parts of the canonical form. -/
theorem memory_wf_iff (m : Store) : Memory.wf m = true ↔
    Table.wf 0#8 m.mem = true ∧ Table.wf 0#8 m.host = true ∧ Table.wf 0#8 m.spad = true ∧ Table.wf 0x00FF#16 m.memDesc = true ∧
    Table.wf 0x00FF#16 m.spadDesc = true ∧ Table.wf false m.memPsn = true ∧ Table.wf false m.spadPsn = true ∧
    Table.wf false m.hostPsn = true := by
  simp only [Memory.wf, Bool.and_eq_true, and_assoc]

/-- Storage after reset is canonical. -/
theorem reset_wf : Memory.wf State.reset.store = true := rfl

theorem setMemByte_wf (s : State) (a : Nat) (b : Byte) (h : Memory.wf s.store = true) : Memory.wf (setMemByte s a b).store = true := by
  rw [memory_wf_iff] at h ⊢
  exact ⟨set_wf a b h.1, h.2⟩
theorem setHostByte_wf (s : State) (a : Nat) (b : Byte) (h : Memory.wf s.store = true) : Memory.wf (setHostByte s a b).store = true := by
  rw [memory_wf_iff] at h ⊢
  exact ⟨h.1, set_wf a b h.2.1, h.2.2⟩
theorem setSpadByte_wf (s : State) (site : Site) (o : Nat) (b : Byte) (h : Memory.wf s.store = true) :
    Memory.wf (setSpadByte s site o b).store = true := by
  rw [memory_wf_iff] at h ⊢
  exact ⟨h.1, h.2.1, set_wf _ b h.2.2.1, h.2.2.2⟩
theorem setSpadDesc_wf (s : State) (site : Site) (o : Nat) (d : BitVec 16) (h : Memory.wf s.store = true) :
    Memory.wf (setSpadDesc s site o d).store = true := by
  rw [memory_wf_iff] at h ⊢
  exact ⟨h.1, h.2.1, h.2.2.1, h.2.2.2.1, set_wf _ d h.2.2.2.2.1, h.2.2.2.2.2⟩
theorem setSpadPoison_wf (s : State) (site : Site) (o : Nat) (p : Bool) (h : Memory.wf s.store = true) :
    Memory.wf (setSpadPoison s site o p).store = true := by
  rw [memory_wf_iff] at h ⊢
  exact ⟨h.1, h.2.1, h.2.2.1, h.2.2.2.1, h.2.2.2.2.1, h.2.2.2.2.2.1, set_wf _ p h.2.2.2.2.2.2.1, h.2.2.2.2.2.2.2⟩

theorem setSpadNat_wf (s : State) (site : Site) (o v n : Nat) (h : Memory.wf s.store = true) :
    Memory.wf (setSpadNat s site o v n).store = true := by
  induction n with
  | zero => exact h
  | succ n ih => exact setSpadByte_wf _ _ _ _ ih

theorem spadBytes_wf (s : State) (site : Site) (o : Nat) (m : BitVec 64) (b : Block) (i : Nat) (h : Memory.wf s.store = true) :
    Memory.wf (spadBytes s site o m b i).store = true := by
  induction i with
  | zero => exact h
  | succ i ih =>
    simp only [spadBytes]
    split
    · exact setSpadByte_wf _ _ _ _ ih
    · exact ih

theorem writeSpad_wf (s : State) (site : Site) (off : Nat) (m : BitVec 64) (b : Block) (d : Option (BitVec 16)) (p : Bool)
    (h : Memory.wf s.store = true) : Memory.wf (writeSpad s site off m b d p).store = true := by
  unfold writeSpad
  split
  · exact h
  · cases d with
    | none => exact setSpadPoison_wf _ _ _ _ (spadBytes_wf _ _ _ _ _ _ h)
    | some d => exact setSpadDesc_wf _ _ _ _ (setSpadPoison_wf _ _ _ _ (spadBytes_wf _ _ _ _ _ _ h))

theorem writeBytes_wf (s : State) (module : Bool) (a : Nat) (m : BitVec 64) (b : Block) (i : Nat) (h : Memory.wf s.store = true) :
    Memory.wf (writeBytes s module a m b i).store = true := by
  induction i with
  | zero => exact h
  | succ i ih =>
    simp only [writeBytes]
    split
    · split
      · exact setMemByte_wf _ _ _ ih
      · exact setHostByte_wf _ _ _ ih
    · exact ih

theorem writeModule_wf (s : State) (a : Nat) (m : BitVec 64) (b : Block) (d : Option (BitVec 16)) (p : Bool)
    (h : Memory.wf s.store = true) : Memory.wf (writeModule s a m b d p).store = true := by
  have hw := writeBytes_wf s true a m b 64 h
  rw [memory_wf_iff] at hw
  unfold writeModule
  cases d <;> rw [memory_wf_iff]
  · exact ⟨hw.1, hw.2.1, hw.2.2.1, hw.2.2.2.1, hw.2.2.2.2.1, set_wf _ _ hw.2.2.2.2.2.1, hw.2.2.2.2.2.2⟩
  · exact ⟨hw.1, hw.2.1, hw.2.2.1, set_wf _ _ hw.2.2.2.1, hw.2.2.2.2.1, set_wf _ _ hw.2.2.2.2.2.1, hw.2.2.2.2.2.2⟩

theorem writeHost_wf (s : State) (a : Nat) (m : BitVec 64) (b : Block) (p : Bool) (h : Memory.wf s.store = true) :
    Memory.wf (writeHost s a m b p).store = true := by
  have hw := writeBytes_wf s false a m b 64 h
  rw [memory_wf_iff] at hw
  unfold writeHost
  rw [memory_wf_iff]
  exact ⟨hw.1, hw.2.1, hw.2.2.1, hw.2.2.2.1, hw.2.2.2.2.1, hw.2.2.2.2.2.1, hw.2.2.2.2.2.2.1, set_wf _ _ hw.2.2.2.2.2.2.2⟩

theorem writeHome_wf (s : State) (home : Nat) (m : BitVec 64) (b : Block) (d : Option (BitVec 16)) (p : Bool)
    (h : Memory.wf s.store = true) : Memory.wf (writeHome s home m b d p).store = true := by
  unfold writeHome
  repeat' split
  · exact h
  · exact h
  · exact writeModule_wf _ _ _ _ _ _ h
  · exact writeHost_wf _ _ _ _ _ h
  · exact h

theorem copyBlocks_wf (s : State) (src dst n : Nat) (h : Memory.wf s.store = true) : Memory.wf (copyBlocks s src dst n).store = true := by
  induction n with
  | zero => exact h
  | succ n ih => exact writeHome_wf _ _ _ _ _ _ ih

theorem putEntry_wf (s : State) (a : Nat) (e : BitVec 64) (n : Nat) (h : Memory.wf s.store = true) : Memory.wf (putEntry s a e n).store = true := by
  induction n with
  | zero => exact h
  | succ n ih => exact setMemByte_wf _ _ _ ih

theorem setAD_wf (s : State) (l : Leaf) (w : Bool) (h : Memory.wf s.store = true) : Memory.wf (setAD s l w).store = true :=
  setMemByte_wf _ _ _ h

theorem setMv_wf (s : State) (l : Leaf) (on : Bool) (h : Memory.wf s.store = true) : Memory.wf (setMv s l on).store = true :=
  setMemByte_wf _ _ _ h

theorem hostPut_wf (s : State) (fn : BitVec 10) (a v n : Nat) (h : Memory.wf s.store = true) : Memory.wf (hostPut s fn a v n).store = true := by
  induction n with
  | zero => exact h
  | succ n ih =>
    simp only [hostPut]
    split
    · exact setHostByte_wf _ _ _ ih
    · exact ih

theorem hostBytes_wf (bs : List Byte) (s : State) (a : Nat) (h : Memory.wf s.store = true) : Memory.wf (hostBytes s a bs).store = true := by
  induction bs generalizing s a with
  | nil => exact h
  | cons b bs ih => exact ih _ _ (setHostByte_wf _ _ _ h)

theorem zeroSpad_wf (s : State) (site : Site) (h : Memory.wf s.store = true) : Memory.wf (zeroSpad s site).store = true := by
  rw [memory_wf_iff] at h ⊢
  exact ⟨h.1, h.2.1, filter_wf _ h.2.2.1, h.2.2.2.1, filter_wf _ h.2.2.2.2.1, h.2.2.2.2.2.1, filter_wf _ h.2.2.2.2.2.2.1, h.2.2.2.2.2.2.2⟩

/-- Putting the entries of a saved table back keeps the form of the table that takes them. -/
theorem putBack_wf {α : Type} [DecidableEq α] (d : α) (f : Nat → Nat) (into t : Table α) (h : Table.wf d into = true) :
    Table.wf d (putBack d f into t) = true := by
  unfold putBack
  induction t generalizing into with
  | nil => exact h
  | cons x t ih => exact ih _ (set_wf _ _ h)

theorem sramBack_wf (s : State) (v : Save) (h : Memory.wf s.store = true) : Memory.wf (sramBack s v).store = true := by
  rw [memory_wf_iff] at h ⊢
  exact ⟨h.1, h.2.1, putBack_wf _ _ _ _ h.2.2.1, h.2.2.2.1, putBack_wf _ _ _ _ h.2.2.2.2.1, h.2.2.2.2.2.1, putBack_wf _ _ _ _ h.2.2.2.2.2.2.1, h.2.2.2.2.2.2.2⟩

theorem poisonBlock_wf (s : State) (space : BitVec 2) (a : Nat) (h : Memory.wf s.store = true) : Memory.wf (poisonBlock s space a).store = true := by
  unfold poisonBlock
  split
  · split
    · rw [memory_wf_iff] at h ⊢
      exact ⟨h.1, h.2.1, h.2.2.1, h.2.2.2.1, h.2.2.2.2.1, set_wf (a / 64) true h.2.2.2.2.2.1, h.2.2.2.2.2.2⟩
    · exact h
  · split
    · exact setSpadPoison_wf _ _ _ _ h
    · exact h
  · simp only [poisonLine]
    split <;> exact h
  · exact h

/-- What a package reset leaves of storage is canonical. -/
theorem afterReset_wf (s : State) (h : Memory.wf s.store = true) : Memory.wf (afterReset s).store = true := by
  rw [memory_wf_iff] at h ⊢
  exact ⟨h.1, h.2.1, rfl, h.2.2.2.1, rfl, h.2.2.2.2.2.1, rfl, h.2.2.2.2.2.2.2⟩

end Sys2Proof.Machine
end

