-- ==== Sys2Proof/Laws/PerInstr.lean ====
section
/-! SUPPORT. The family OneClass: the encoder lists every instruction under exactly one class of records, so that no instruction is
without an encoding and none has two. One lemma for each constructor. -/

namespace Sys2Proof.Laws.OneClass

open Sys2Proof

/-- How many classes of records name the instruction: a stage slot, a port descriptor, an AG word, an engine word, an operator frame,
an event, a step from outside. -/
def classes (i : Instr) : Nat :=
  [(stageOf i).isSome, (portOf i).isSome, (agOf i).isSome, (engOf i).isSome, (opOf i).isSome, (eventOf i).isSome,
    (inputRow i).isSome].countP id

/-- Exactly one class names the instruction. -/
def Statement (i : Instr) : Prop := classes i = 1

theorem dispatch (node : BitVec 32) (dbx : BitVec 8) (dby : BitVec 8) (onto : BitVec 32) : Statement (.dispatch node dbx dby onto) := rfl
theorem promotion (node : BitVec 32) : Statement (.promotion node) := rfl
theorem residencyTimeout (node : BitVec 32) : Statement (.residencyTimeout node) := rfl
theorem frameWrite (inst : BitVec 32) : Statement (.frameWrite inst) := rfl
theorem bankFlip (site : BitVec 12) (sub : BitVec 2) : Statement (.bankFlip site sub) := rfl
theorem linkTransfer (site : BitVec 12) (out : BitVec 4) : Statement (.linkTransfer site out) := rfl
theorem taskActivation (site : BitVec 12) (task : BitVec 3) : Statement (.taskActivation site task) := rfl
theorem bundleFire (site : BitVec 12) : Statement (.bundleFire site) := rfl
theorem nop (st : Stage) : Statement (.nop st) := rfl
theorem mov (st : Stage) : Statement (.mov st) := rfl
theorem movi (st : Stage) : Statement (.movi st) := rfl
theorem sel (st : Stage) : Statement (.sel st) := rfl
theorem add (st : Stage) : Statement (.add st) := rfl
theorem sub (st : Stage) : Statement (.sub st) := rfl
theorem neg (st : Stage) : Statement (.neg st) := rfl
theorem abs (st : Stage) : Statement (.abs st) := rfl
theorem min (st : Stage) : Statement (.min st) := rfl
theorem max (st : Stage) : Statement (.max st) := rfl
theorem minu (st : Stage) : Statement (.minu st) := rfl
theorem maxu (st : Stage) : Statement (.maxu st) := rfl
theorem mul (st : Stage) : Statement (.mul st) := rfl
theorem mulh (st : Stage) : Statement (.mulh st) := rfl
theorem mulhu (st : Stage) : Statement (.mulhu st) := rfl
theorem mad (st : Stage) : Statement (.mad st) := rfl
theorem adds (st : Stage) : Statement (.adds st) := rfl
theorem subs (st : Stage) : Statement (.subs st) := rfl
theorem addus (st : Stage) : Statement (.addus st) := rfl
theorem subus (st : Stage) : Statement (.subus st) := rfl
theorem lea (st : Stage) : Statement (.lea st) := rfl
theorem add2 (st : Stage) : Statement (.add2 st) := rfl
theorem sub2 (st : Stage) : Statement (.sub2 st) := rfl
theorem add4 (st : Stage) : Statement (.add4 st) := rfl
theorem sub4 (st : Stage) : Statement (.sub4 st) := rfl
theorem dot4 (st : Stage) : Statement (.dot4 st) := rfl
theorem dot4u (st : Stage) : Statement (.dot4u st) := rfl
theorem dot8 (st : Stage) : Statement (.dot8 st) := rfl
theorem and (st : Stage) : Statement (.and st) := rfl
theorem or (st : Stage) : Statement (.or st) := rfl
theorem xor (st : Stage) : Statement (.xor st) := rfl
theorem andn (st : Stage) : Statement (.andn st) := rfl
theorem shl (st : Stage) : Statement (.shl st) := rfl
theorem shr (st : Stage) : Statement (.shr st) := rfl
theorem sar (st : Stage) : Statement (.sar st) := rfl
theorem rol (st : Stage) : Statement (.rol st) := rfl
theorem clz (st : Stage) : Statement (.clz st) := rfl
theorem popc (st : Stage) : Statement (.popc st) := rfl
theorem brev (st : Stage) : Statement (.brev st) := rfl
theorem bfx (st : Stage) : Statement (.bfx st) := rfl
theorem bfxs (st : Stage) : Statement (.bfxs st) := rfl
theorem bfi (st : Stage) : Statement (.bfi st) := rfl
theorem permb (st : Stage) : Statement (.permb st) := rfl
theorem bswap (st : Stage) : Statement (.bswap st) := rfl
theorem ceq (st : Stage) : Statement (.ceq st) := rfl
theorem cne (st : Stage) : Statement (.cne st) := rfl
theorem clt (st : Stage) : Statement (.clt st) := rfl
theorem cle (st : Stage) : Statement (.cle st) := rfl
theorem cltu (st : Stage) : Statement (.cltu st) := rfl
theorem cleu (st : Stage) : Statement (.cleu st) := rfl
theorem ctst (st : Stage) : Statement (.ctst st) := rfl
theorem fadd (st : Stage) : Statement (.fadd st) := rfl
theorem fsub (st : Stage) : Statement (.fsub st) := rfl
theorem fmul (st : Stage) : Statement (.fmul st) := rfl
theorem fma (st : Stage) : Statement (.fma st) := rfl
theorem fms (st : Stage) : Statement (.fms st) := rfl
theorem fnma (st : Stage) : Statement (.fnma st) := rfl
theorem fmin (st : Stage) : Statement (.fmin st) := rfl
theorem fmax (st : Stage) : Statement (.fmax st) := rfl
theorem fabs (st : Stage) : Statement (.fabs st) := rfl
theorem fneg (st : Stage) : Statement (.fneg st) := rfl
theorem fcps (st : Stage) : Statement (.fcps st) := rfl
theorem fceq (st : Stage) : Statement (.fceq st) := rfl
theorem fclt (st : Stage) : Statement (.fclt st) := rfl
theorem fcle (st : Stage) : Statement (.fcle st) := rfl
theorem fcun (st : Stage) : Statement (.fcun st) := rfl
theorem fclass (st : Stage) : Statement (.fclass st) := rfl
theorem fscale (st : Stage) : Statement (.fscale st) := rfl
theorem frcp (st : Stage) : Statement (.frcp st) := rfl
theorem frsq (st : Stage) : Statement (.frsq st) := rfl
theorem fexp2 (st : Stage) : Statement (.fexp2 st) := rfl
theorem flog2 (st : Stage) : Statement (.flog2 st) := rfl
theorem frnd (st : Stage) : Statement (.frnd st) := rfl
theorem f2i (st : Stage) : Statement (.f2i st) := rfl
theorem f2u (st : Stage) : Statement (.f2u st) := rfl
theorem i2f (st : Stage) : Statement (.i2f st) := rfl
theorem u2f (st : Stage) : Statement (.u2f st) := rfl
theorem hadd2 (st : Stage) : Statement (.hadd2 st) := rfl
theorem hmul2 (st : Stage) : Statement (.hmul2 st) := rfl
theorem hfma2 (st : Stage) : Statement (.hfma2 st) := rfl
theorem hmin2 (st : Stage) : Statement (.hmin2 st) := rfl
theorem hmax2 (st : Stage) : Statement (.hmax2 st) := rfl
theorem cvth (st : Stage) : Statement (.cvth st) := rfl
theorem cvtlo (st : Stage) : Statement (.cvtlo st) := rfl
theorem cvthi (st : Stage) : Statement (.cvthi st) := rfl
theorem nq8 (st : Stage) : Statement (.nq8 st) := rfl
theorem nq4 (st : Stage) : Statement (.nq4 st) := rfl
theorem ndq8 (st : Stage) : Statement (.ndq8 st) := rfl
theorem ndq4 (st : Stage) : Statement (.ndq4 st) := rfl
theorem ndot4 (st : Stage) : Statement (.ndot4 st) := rfl
theorem ndot8 (st : Stage) : Statement (.ndot8 st) := rfl
theorem nscl (st : Stage) : Statement (.nscl st) := rfl
theorem naps (st : Stage) : Statement (.naps st) := rfl
theorem nblk (st : Stage) : Statement (.nblk st) := rfl
theorem nsetd (st : Stage) : Statement (.nsetd st) := rfl
theorem shuf (st : Stage) : Statement (.shuf st) := rfl
theorem lrot (st : Stage) : Statement (.lrot st) := rfl
theorem bcast (st : Stage) : Statement (.bcast st) := rfl
theorem xbf (st : Stage) : Statement (.xbf st) := rfl
theorem rsum (st : Stage) : Statement (.rsum st) := rfl
theorem rmax (st : Stage) : Statement (.rmax st) := rfl
theorem rmin (st : Stage) : Statement (.rmin st) := rfl
theorem rsumi (st : Stage) : Statement (.rsumi st) := rfl
theorem scani (st : Stage) : Statement (.scani st) := rfl
theorem fscan (st : Stage) : Statement (.fscan st) := rfl
theorem lcomp (st : Stage) : Statement (.lcomp st) := rfl
theorem packb (st : Stage) : Statement (.packb st) := rfl
theorem trap (st : Stage) : Statement (.trap st) := rfl
theorem fence (st : Stage) : Statement (.fence st) := rfl
theorem fenceComplete (site : BitVec 12) (task : BitVec 3) : Statement (.fenceComplete site task) := rfl
theorem cmd (st : Stage) : Statement (.cmd st) := rfl
theorem fork (st : Stage) : Statement (.fork st) := rfl
theorem rdv (st : Stage) : Statement (.rdv st) := rfl
theorem waitc (st : Stage) : Statement (.waitc st) := rfl
theorem groupinc (st : Stage) : Statement (.groupinc st) := rfl
theorem sethyp (st : Stage) : Statement (.sethyp st) := rfl
theorem bind (st : Stage) : Statement (.bind st) := rfl
theorem unbind (st : Stage) : Statement (.unbind st) := rfl
theorem signal (st : Stage) : Statement (.signal st) := rfl
theorem time (st : Stage) : Statement (.time st) := rfl
theorem rdsys (st : Stage) : Statement (.rdsys st) := rfl
theorem wrsys (st : Stage) : Statement (.wrsys st) := rfl
theorem brk (st : Stage) : Statement (.brk st) := rfl
theorem orphanDiversion (site : BitVec 12) (task : BitVec 3) : Statement (.orphanDiversion site task) := rfl
theorem steer (loc : OpAt) (cfg : OpCfg) : Statement (.steer loc cfg) := rfl
theorem merge (loc : OpAt) (cfg : OpCfg) : Statement (.merge loc cfg) := rfl
theorem carry (loc : OpAt) (cfg : OpCfg) : Statement (.carry loc cfg) := rfl
theorem dup (loc : OpAt) (cfg : OpCfg) : Statement (.dup loc cfg) := rfl
theorem widen (loc : OpAt) (cfg : OpCfg) : Statement (.widen loc cfg) := rfl
theorem widenReleaseComplete (site : BitVec 12) (slot : BitVec 2) : Statement (.widenReleaseComplete site slot) := rfl
theorem replay (loc : OpAt) (cfg : OpCfg) : Statement (.replay loc cfg) := rfl
theorem replayLapTwo (site : BitVec 12) (slot : BitVec 2) : Statement (.replayLapTwo site slot) := rfl
theorem rpart (loc : OpAt) (cfg : OpCfg) : Statement (.rpart loc cfg) := rfl
theorem drop (loc : OpAt) (cfg : OpCfg) : Statement (.drop loc cfg) := rfl
theorem freedNotice (site : BitVec 12) (endp : BitVec 4) : Statement (.freedNotice site endp) := rfl
theorem freedCredit (site : BitVec 12) (sub : BitVec 2) : Statement (.freedCredit site sub) := rfl
theorem ld (loc : PortAt) (d : PortDesc) : Statement (.ld loc d) := rfl
theorem ldro (loc : PortAt) (d : PortDesc) : Statement (.ldro loc d) := rfl
theorem st (loc : PortAt) (d : PortDesc) : Statement (.st loc d) := rfl
theorem stm (loc : PortAt) (d : PortDesc) : Statement (.stm loc d) := rfl
theorem spld (loc : PortAt) (d : PortDesc) : Statement (.spld loc d) := rfl
theorem spst (loc : PortAt) (d : PortDesc) : Statement (.spst loc d) := rfl
theorem spadd (loc : PortAt) (d : PortDesc) : Statement (.spadd loc d) := rfl
theorem atadd (loc : PortAt) (d : PortDesc) : Statement (.atadd loc d) := rfl
theorem atfadd (loc : PortAt) (d : PortDesc) : Statement (.atfadd loc d) := rfl
theorem atmin (loc : PortAt) (d : PortDesc) : Statement (.atmin loc d) := rfl
theorem atmax (loc : PortAt) (d : PortDesc) : Statement (.atmax loc d) := rfl
theorem atand (loc : PortAt) (d : PortDesc) : Statement (.atand loc d) := rfl
theorem ator (loc : PortAt) (d : PortDesc) : Statement (.ator loc d) := rfl
theorem atxor (loc : PortAt) (d : PortDesc) : Statement (.atxor loc d) := rfl
theorem atxchg (loc : PortAt) (d : PortDesc) : Statement (.atxchg loc d) := rfl
theorem atcas (loc : PortAt) (d : PortDesc) : Statement (.atcas loc d) := rfl
theorem gath (loc : PortAt) (d : PortDesc) : Statement (.gath loc d) := rfl
theorem scat (loc : PortAt) (d : PortDesc) : Statement (.scat loc d) := rfl
theorem scatadd (loc : PortAt) (d : PortDesc) : Statement (.scatadd loc d) := rfl
theorem syncset (loc : PortAt) (d : PortDesc) : Statement (.syncset loc d) := rfl
theorem syncw (loc : PortAt) (d : PortDesc) : Statement (.syncw loc d) := rfl
theorem pref (loc : PortAt) (d : PortDesc) : Statement (.pref loc d) := rfl
theorem stfl (loc : PortAt) (d : PortDesc) : Statement (.stfl loc d) := rfl
theorem stinv (loc : PortAt) (d : PortDesc) : Statement (.stinv loc d) := rfl
theorem replySend (site : BitVec 12) (port : BitVec 3) : Statement (.replySend site port) := rfl
theorem portControlToken (site : BitVec 12) (port : BitVec 3) : Statement (.portControlToken site port) := rfl
theorem syncAdd (site : BitVec 12) : Statement (.syncAdd site) := rfl
theorem aloop (loc : AgAt) (lvl : BitVec 3) (count : BitVec 25) (stride : BitVec 30) : Statement (.aloop loc lvl count stride) := rfl
theorem aend (loc : AgAt) (lvl : BitVec 3) : Statement (.aend loc lvl) := rfl
theorem abase (loc : AgAt) (base : BitVec 56) : Statement (.abase loc base) := rfl
theorem aoff (loc : AgAt) (delta : BitVec 48) : Statement (.aoff loc delta) := rfl
theorem aidx (loc : AgAt) (exit : BitVec 6) (isgn : BitVec 1) (istr : BitVec 32) : Statement (.aidx loc exit isgn istr) := rfl
theorem agrp (loc : AgAt) (exit : BitVec 6) (tv : BitVec 1) (task : BitVec 3) (tsite : BitVec 12) (gstr : BitVec 36) : Statement (.agrp loc exit tv task tsite gstr) := rfl
theorem agrpEndOfStream (node : BitVec 32) : Statement (.agrpEndOfStream node) := rfl
theorem aemit (loc : AgAt) (disp : BitVec 48) : Statement (.aemit loc disp) := rfl
theorem acred (loc : AgAt) (en : BitVec 1) (cadd : BitVec 16) : Statement (.acred loc en cadd) := rfl
theorem amask (loc : AgAt) (lvl : BitVec 3) (tmask : BitVec 16) (mask : BitVec 16) : Statement (.amask loc lvl tmask mask) := rfl
theorem ahalt (loc : AgAt) (eos : BitVec 1) : Statement (.ahalt loc eos) := rfl
theorem jobStart (eng : BitVec 13) : Statement (.jobStart eng) := rfl
theorem engineCmdWord (site : BitVec 12) : Statement (.engineCmdWord site) := rfl
theorem jobEnd (eng : BitVec 13) : Statement (.jobEnd eng) := rfl
theorem mxCommandStart (site : BitVec 12) : Statement (.mxCommandStart site) := rfl
theorem mxldb (eng : EngId) (cmd : Cmd) : Statement (.mxldb eng cmd) := rfl
theorem mxmul (eng : EngId) (cmd : Cmd) : Statement (.mxmul eng cmd) := rfl
theorem mxmulo (eng : EngId) (cmd : Cmd) : Statement (.mxmulo eng cmd) := rfl
theorem mxdrn (eng : EngId) (cmd : Cmd) : Statement (.mxdrn eng cmd) := rfl
theorem mxzero (eng : EngId) (cmd : Cmd) : Statement (.mxzero eng cmd) := rfl
theorem mxver (eng : EngId) (cmd : Cmd) : Statement (.mxver eng cmd) := rfl
theorem cpcopy (eng : EngId) (cmd : Cmd) : Statement (.cpcopy eng cmd) := rfl
theorem cpfill (eng : EngId) (cmd : Cmd) : Statement (.cpfill eng cmd) := rfl
theorem cpchain (eng : EngId) (cmd : Cmd) : Statement (.cpchain eng cmd) := rfl
theorem cpput (eng : EngId) (cmd : Cmd) : Statement (.cpput eng cmd) := rfl
theorem cpget (eng : EngId) (cmd : Cmd) : Statement (.cpget eng cmd) := rfl
theorem cpred (eng : EngId) (cmd : Cmd) : Statement (.cpred eng cmd) := rfl
theorem cpbar (eng : EngId) (cmd : Cmd) : Statement (.cpbar eng cmd) := rfl
theorem tnew (eng : EngId) (cmd : Cmd) : Statement (.tnew eng cmd) := rfl
theorem tapp (eng : EngId) (cmd : Cmd) : Statement (.tapp eng cmd) := rfl
theorem tseal (eng : EngId) (cmd : Cmd) : Statement (.tseal eng cmd) := rfl
theorem tatt (eng : EngId) (cmd : Cmd) : Statement (.tatt eng cmd) := rfl
theorem tfork (eng : EngId) (cmd : Cmd) : Statement (.tfork eng cmd) := rfl
theorem tevict (eng : EngId) (cmd : Cmd) : Statement (.tevict eng cmd) := rfl
theorem tfree (eng : EngId) (cmd : Cmd) : Statement (.tfree eng cmd) := rfl
theorem tstat (eng : EngId) (cmd : Cmd) : Statement (.tstat eng cmd) := rfl
theorem hfam (eng : EngId) (cmd : Cmd) : Statement (.hfam eng cmd) := rfl
theorem hins (eng : EngId) (cmd : Cmd) : Statement (.hins eng cmd) := rfl
theorem hdel (eng : EngId) (cmd : Cmd) : Statement (.hdel eng cmd) := rfl
theorem hprobe (eng : EngId) (cmd : Cmd) : Statement (.hprobe eng cmd) := rfl
theorem hreh (eng : EngId) (cmd : Cmd) : Statement (.hreh eng cmd) := rfl
theorem hstat (eng : EngId) (cmd : Cmd) : Statement (.hstat eng cmd) := rfl
theorem hypnew (eng : EngId) (cmd : Cmd) : Statement (.hypnew eng cmd) := rfl
theorem confirm (eng : EngId) (cmd : Cmd) : Statement (.confirm eng cmd) := rfl
theorem refute (eng : EngId) (cmd : Cmd) : Statement (.refute eng cmd) := rfl
theorem hypqry (eng : EngId) (cmd : Cmd) : Statement (.hypqry eng cmd) := rfl
theorem tierhint (eng : EngId) (cmd : Cmd) : Statement (.tierhint eng cmd) := rfl
theorem tierpin (eng : EngId) (cmd : Cmd) : Statement (.tierpin eng cmd) := rfl
theorem overlayEnlarge (ctx : BitVec 8) : Statement (.overlayEnlarge ctx) := rfl
theorem tenantSwitch (outgoing : BitVec 16) (incoming : BitVec 16) : Statement (.tenantSwitch outgoing incoming) := rfl
theorem pageMoveComplete (ok : BitVec 1) : Statement (.pageMoveComplete ok) := rfl
theorem detectionWave (inst : BitVec 32) : Statement (.detectionWave inst) := rfl
theorem nodeComplete (node : BitVec 32) : Statement (.nodeComplete node) := rfl
theorem budgetExhausted (node : BitVec 32) : Statement (.budgetExhausted node) := rfl
theorem watchdogFire (inst : BitVec 32) : Statement (.watchdogFire inst) := rfl
theorem sliceExpiry (inst : BitVec 32) : Statement (.sliceExpiry inst) := rfl
theorem preempt (inst : BitVec 32) : Statement (.preempt inst) := rfl
theorem mark (site : BitVec 12) (sub : BitVec 3) : Statement (.mark site sub) := rfl
theorem markerPhaseEnd (inst : BitVec 32) : Statement (.markerPhaseEnd inst) := rfl
theorem freeze (inst : BitVec 32) : Statement (.freeze inst) := rfl
theorem restore (inst : BitVec 32) (dbx : BitVec 8) (dby : BitVec 8) : Statement (.restore inst dbx dby) := rfl
theorem ownerChangeZeroing (site : BitVec 12) (sub : BitVec 2) (ok : BitVec 1) : Statement (.ownerChangeZeroing site sub ok) := rfl
theorem heartbeat (die : BitVec 2) : Statement (.heartbeat die) := rfl
theorem dieLost (die : BitVec 2) : Statement (.dieLost die) := rfl
theorem faultRecord (die : BitVec 2) : Statement (.faultRecord die) := rfl
theorem fault (die : BitVec 2) : Statement (.fault die) := rfl
theorem fpop (die : BitVec 2) : Statement (.fpop die) := rfl
theorem repairToken (die : BitVec 2) : Statement (.repairToken die) := rfl
theorem kernelBudget (site : BitVec 12) (task : BitVec 3) : Statement (.kernelBudget site task) := rfl
theorem remoteRequestIssue (eng : BitVec 13) (port : BitVec 3) : Statement (.remoteRequestIssue eng port) := rfl
theorem memoryReply (site : BitVec 12) (port : BitVec 3) : Statement (.memoryReply site port) := rfl
theorem sramSwapComplete (inst : BitVec 32) : Statement (.sramSwapComplete inst) := rfl
theorem packageReset : Statement (.packageReset) := rfl
theorem powerLoss : Statement (.powerLoss) := rfl
theorem launch : Statement (.launch) := rfl
theorem recordAccept : Statement (.recordAccept) := rfl
theorem placementHold : Statement (.placementHold) := rfl
theorem pageWalk : Statement (.pageWalk) := rfl
theorem atsTimeout : Statement (.atsTimeout) := rfl
theorem eccError : Statement (.eccError) := rfl
theorem collectiveMessage : Statement (.collectiveMessage) := rfl
theorem repair : Statement (.repair) := rfl
theorem escal : Statement (.escal) := rfl
theorem watch : Statement (.watch) := rfl
theorem respPoll : Statement (.respPoll) := rfl
theorem generationIteration : Statement (.generationIteration) := rfl
theorem lstatClear : Statement (.lstatClear) := rfl
theorem inval : Statement (.inval) := rfl
theorem invalidationComplete : Statement (.invalidationComplete) := rfl
theorem invstatClear : Statement (.invstatClear) := rfl
theorem cqtailClear : Statement (.cqtailClear) := rfl
theorem policy : Statement (.policy) := rfl
theorem pferrClear : Statement (.pferrClear) := rfl
theorem registerWrite : Statement (.registerWrite) := rfl
theorem faultring : Statement (.faultring) := rfl
theorem pasid : Statement (.pasid) := rfl
theorem watchdog : Statement (.watchdog) := rfl
theorem dbgattach : Statement (.dbgattach) := rfl
theorem dbghalt : Statement (.dbghalt) := rfl
theorem dbgresume : Statement (.dbgresume) := rfl
theorem dbgdetach : Statement (.dbgdetach) := rfl
theorem watchset : Statement (.watchset) := rfl
theorem rebuild : Statement (.rebuild) := rfl
theorem liferead : Statement (.liferead) := rfl
theorem attest : Statement (.attest) := rfl
theorem atstimeout : Statement (.atstimeout) := rfl
theorem nodeid : Statement (.nodeid) := rfl
theorem route : Statement (.route) := rfl
theorem slots : Statement (.slots) := rfl
theorem rtimeout : Statement (.rtimeout) := rfl
theorem t2pool : Statement (.t2pool) := rfl
theorem ovlres : Statement (.ovlres) := rfl
theorem ctxset : Statement (.ctxset) := rfl
theorem ctxread : Statement (.ctxread) := rfl
theorem slotCredit : Statement (.slotCredit) := rfl
theorem remoteReply : Statement (.remoteReply) := rfl
theorem farEndRequest : Statement (.farEndRequest) := rfl
theorem remoteTimeout : Statement (.remoteTimeout) := rfl
theorem peerLost : Statement (.peerLost) := rfl
theorem flitReceive : Statement (.flitReceive) := rfl
theorem nak : Statement (.nak) := rfl
theorem linkRetrain : Statement (.linkRetrain) := rfl
theorem snapshot : Statement (.snapshot) := rfl
theorem environmentSample : Statement (.environmentSample) := rfl
theorem linkTrained : Statement (.linkTrained) := rfl
theorem dieRejoin : Statement (.dieRejoin) := rfl
theorem tdispTransition : Statement (.tdispTransition) := rfl
theorem packageFault : Statement (.packageFault) := rfl
theorem configRecordUpdate : Statement (.configRecordUpdate) := rfl
theorem fwcmdReservedCode : Statement (.fwcmdReservedCode) := rfl

end Sys2Proof.Laws.OneClass
end

