-- ==== Sys2Proof/Laws/Shared.lean ====
section
/-! SUPPORT. What the shared operations do, said once: buffers and outputs, taking a fault and answering it, the abort of a node, the
windows and the firmware interface. -/

namespace Sys2Proof.Machine

open Sys2Proof Sys2Proof.Laws

/-! ## Buffers and outputs (R55, R60) -/

/-- A token put into a buffer stands last in it, from the cycle given on. -/
theorem getBuf_pushBuf (s : State) (k j : Nat) (t : Token) (seen : Nat) :
    getBuf (pushBuf s k t seen) j = if j = k then (getBuf s k).push t seen else getBuf s j := by
  split
  · subst j
    exact get_set_self _ _ _ _
  · exact get_set_other _ _ _ ‹_›

/-- A dequeue takes the head of its buffer alone. -/
theorem getBuf_popBuf (s : State) (k j : Nat) :
    getBuf (popBuf s k) j = if j = k then (getBuf s k).pop (now s) else getBuf s j := by
  split
  · subst j
    exact get_set_self _ _ _ _
  · exact get_set_other _ _ _ ‹_›

/-- An output puts its token into the first skid buffer of its port and VC, to stand there once it has crossed its local port. -/
theorem getBuf_sendOut (s : State) (site : Site) (i : Option Inst) (lp vc j : Nat) (t : Token) :
    getBuf (sendOut s site i lp vc t) j =
      if j = inKey site lp vc then (getBuf s j).push t (localAt s site lp + 1) else getBuf s j := by
  have h : getBuf (sendOut s site i lp vc t) j = getBuf (pushBuf s (inKey site lp vc) t (localAt s site lp + 1)) j := by
    cases i <;> rfl
  rw [h, getBuf_pushBuf]
  split <;> simp_all

/-- An output changes no element, no storage, no die and no link. -/
theorem sendOut_frame (s : State) (site : Site) (i : Option Inst) (lp vc : Nat) (t : Token) :
    sendOut s site i lp vc t =
      { s with fab := { s.fab with bufs := (sendOut s site i lp vc t).fab.bufs, outs := (sendOut s site i lp vc t).fab.outs }
               dist := { s.dist with insts := (sendOut s site i lp vc t).dist.insts } } := by
  cases i <;> rfl

/-! ## Faults (R370 to R383) -/

/-- Taking a fault queues its record at the element's die, and changes nothing else but the node's count. -/
theorem takeFault_does (s : State) (site : Site) (subt : BitVec 3) (kind : BitVec 1) (i : Option Inst) (r : BitVec 512) :
    let t := takeFault s site subt kind i r
    getDie t (siteDie site) =
      { getDie s (siteDie site) with
        pend := (getDie s (siteDie site)).pend ++ [⟨site, subt, kind, instNo i, r, faultTok site subt kind (bits r 368 8)⟩] } ∧
    (∀ d, d ≠ siteDie site → getDie t d = getDie s d) ∧ t.store = s.store ∧ t.fab = s.fab ∧
    t = { s with dies := t.dies, dist := { s.dist with nodes := t.dist.nodes } } := by
  have hd : (takeFault s site subt kind i r).dies = (setDie s (siteDie site)
      { getDie s (siteDie site) with
        pend := (getDie s (siteDie site)).pend ++ [⟨site, subt, kind, instNo i, r, faultTok site subt kind (bits r 368 8)⟩] }).dies := by
    cases i <;> rfl
  refine ⟨?_, ?_, ?_, ?_, ?_⟩
  · unfold getDie at hd ⊢
    simp only [hd, setDie, Vector.getElem_set_self]
  · intro d hne
    have : (siteDie site).toNat ≠ d.toNat := fun e => hne (BitVec.eq_of_toNat_eq e.symm)
    unfold getDie at hd ⊢
    simp only [hd, setDie, Vector.getElem_set_ne _ _ this]
  · cases i <;> rfl
  · cases i <;> rfl
  · cases i <;> rfl

/-- A pop of an empty ring does nothing. -/
theorem popRing_nil (s : State) (die : BitVec 2) (h : (getDie s die).ring = []) : popRing s die = s := by
  simp only [popRing, h]

/-- A pop frees the oldest slot, and FHEAD follows. -/
theorem popRing_cons (s : State) (die : BitVec 2) (r : RingEnt) (rest : List RingEnt) (h : (getDie s die).ring = r :: rest) :
    popRing s die = setDie s die { getDie s die with
      ring := rest
      fhead := ((rest.head?).map fun x => x.slot).getD (getDie s die).ftail } := by
  simp only [popRing, h]
  cases rest <;> rfl

/-- The abort of a node touches nodes, instances and the dies' pending faults alone. -/
theorem abortNode_frame (s : State) (id : Nat) (e : BitVec 16) :
    abortNode s id e = { s with
      dies := (abortNode s id e).dies
      dist := { s.dist with nodes := (abortNode s id e).dist.nodes, insts := (abortNode s id e).dist.insts } } := by
  unfold abortNode
  split <;> rfl

/-! ## Windows and firmware commands (R181 to R187) -/

/-- A write to a closed window does nothing. -/
theorem windowWrite_closed (s : State) (fn : BitVec 10) (f : State → State) (h : windowOpen s fn = false) :
    windowWrite s fn f = .next s := by simp [windowWrite, h]

/-- A write to an open window drops a waiting half first. -/
theorem windowWrite_open (s : State) (fn : BitVec 10) (f : State → State) (h : windowOpen s fn = true) :
    windowWrite s fn f = .next (f (breakHalf s fn)) := by simp [windowWrite, h]

/-- Dropping a waiting half changes its function alone. -/
theorem breakHalf_frame (s : State) (fn : BitVec 10) : breakHalf s fn = { s with fns := (breakHalf s fn).fns } := by
  simp only [breakHalf]
  split <;> rfl

/-- A command while another is busy gives RESULT 3. -/
theorem fwRun_busy (s : State) (act : State → FwOut) (h : windowOpen s 0#10 = true) (hb : s.hub.fwBusy = true) :
    fwRun s act = .next { breakHalf s 0#10 with hub := { s.hub with fwResult := 3#8 } } := by
  have : (breakHalf s 0#10).hub = s.hub := by rw [breakHalf_frame]
  simp [fwRun, windowWrite, h, this, hb]

/-- A command with its reserved bits 0 takes its effect with RESULT 0, or gives the RESULT of its refusal. -/
theorem fwRun_does (s : State) (act : State → FwOut) (h : windowOpen s 0#10 = true) (hb : s.hub.fwBusy = false) (ht : fwTop s = 0#32) :
    fwRun s act = .next (match act (breakHalf s 0#10) with
      | .ok t => { t with hub := { t.hub with fwResult := 0#8, fwBusy := true } }
      | .error r => { breakHalf s 0#10 with hub := { s.hub with fwResult := r, fwBusy := true } }) := by
  have h1 : (breakHalf s 0#10).hub = s.hub := by rw [breakHalf_frame]
  have h2 : fwTop (breakHalf s 0#10) = 0#32 := by rw [breakHalf_frame]; exact ht
  simp only [fwRun, windowWrite, h, h1, hb, h2, if_true, Bool.false_eq_true, if_false]
  cases act (breakHalf s 0#10) <;> simp [h1]

end Sys2Proof.Machine
end

