-- ==== Sys2Proof/Laws/Stage.lean ====
section
/-! SUPPORT. What a stage operation does, said once: a stage that puts an outcome into its task (R251), a stage that computes each lane
by itself, one that may step its generator, and one that lets its lanes see each other. -/

namespace Sys2Proof.Claims

open Sys2Proof Sys2Proof.Machine

/-- A write of a task changes that task alone. -/
theorem setTask_only (s : State) (site : Site) (t : BitVec 3) (k : Task) : OnlyTask site t s (setTask s site t k) := by
  refine ⟨⟨rfl, fun x hx => ?_, ⟨fun _ => rfl, fun _ => rfl, fun _ _ => rfl⟩⟩, ?_, fun x hx => ?_⟩
  · simp only [setTask]
    rw [getCe_setCe_other _ _ _ _ (Ne.symm hx)]
  · simp [setTask]
  · exact getTask_setTask_task s site t x k (Ne.symm hx)

/-- OUT's value as a case. -/
theorem out_cases (out : BitVec 3) : out.toNat = 0 ∨ out.toNat = 1 ∨ out.toNat = 2 ∨ out.toNat = 3 ∨ out.toNat = 4 ∨ out.toNat = 5 ∨
    out.toNat = 6 ∨ out.toNat = 7 := by
  have := out.isLt
  omega

/-- What OUT does to an output of the firing (R251). -/
theorem outEffect_outs (fr : Firing) (out : BitVec 3) (pk : Block) (r : StageRes) (o : Nat) (h : o < 5) :
    vget OutLatch.empty (outEffect fr out pk r).outs o =
      if o + 1 = out.toNat then
        if o = 4 then { vget OutLatch.empty fr.outs 4 with pay := (lane pk 0).setWidth 512 }
        else latchOut (vget OutLatch.empty fr.outs o) r.val r.outMask
      else vget OutLatch.empty fr.outs o := by
  rcases out_cases out with e | e | e | e | e | e | e | e <;> simp only [outEffect, e]
  · simp
  · by_cases ho : o = 0
    · subst ho; simp
    · rw [vget_vset_other _ _ _ _ _ (Ne.symm ho)]; simp [ho]
  · by_cases ho : o = 1
    · subst ho; simp
    · rw [vget_vset_other _ _ _ _ _ (Ne.symm ho)]; simp [ho]
  · by_cases ho : o = 2
    · subst ho; simp
    · rw [vget_vset_other _ _ _ _ _ (Ne.symm ho)]; simp [ho]
  · by_cases ho : o = 3
    · subst ho; simp
    · rw [vget_vset_other _ _ _ _ _ (Ne.symm ho)]; simp [ho]
  · by_cases ho : o = 4
    · subst ho; simp
    · rw [vget_vset_other _ _ _ _ _ (Ne.symm ho)]; simp [ho]
  · have : ¬ o + 1 = 6 := by omega
    simp [this]
  · have : ¬ o + 1 = 7 := by omega
    simp [this]

/-- What OUT does to an accumulator of the firing (R251). -/
theorem outEffect_acc (fr : Firing) (out : BitVec 3) (pk : Block) (r : StageRes) (j : Nat) (h : j < 2) :
    vget 0#512 (outEffect fr out pk r).acc j =
      if out.toNat = 6 + j then mergeLanes (vget 0#512 fr.acc j) r.val r.wr else vget 0#512 fr.acc j := by
  have h1 : (1 : Nat) ≠ 0 := by decide
  have h0 : (0 : Nat) ≠ 1 := by decide
  rcases (by omega : j = 0 ∨ j = 1) with rfl | rfl <;> rcases out_cases out with e | e | e | e | e | e | e | e <;>
    simp [outEffect, e, vget_vset_other _ _ _ _ _ h1, vget_vset_other _ _ _ _ _ h0]

/-- Writing an entry with one of the same descriptor and signal keeps those of all. -/
theorem vset_marks (v : Vector OutLatch 5) (i : Nat) (x : OutLatch) (hd : x.desc = (vget OutLatch.empty v i).desc)
    (hs : x.sig = (vget OutLatch.empty v i).sig) :
    (vset v i x).toList.map (fun o => (o.desc, o.sig)) = v.toList.map fun o => (o.desc, o.sig) := by
  apply List.ext_getElem
  · simp
  · intro n h1 h2
    simp only [List.length_map, Vector.length_toList] at h1 h2
    simp only [List.getElem_map, Vector.getElem_toList]
    by_cases hi : i < 5
    · by_cases e : i = n
      · subst e
        simp only [vget, hi, dite_true] at hd hs
        simp [vset, hi, hd, hs]
      · simp [vset, hi, Vector.getElem_set_ne _ _ e]
    · simp [vset, hi]

theorem latchOut_desc (o : OutLatch) (b : Block) (m : BitVec 16) : (latchOut o b m).desc = o.desc := by cases o; rfl
theorem latchOut_sig (o : OutLatch) (b : Block) (m : BitVec 16) : (latchOut o b m).sig = o.sig := by cases o; rfl
theorem withPay_desc (o : OutLatch) (b : Block) : ({ o with pay := b } : OutLatch).desc = o.desc := by cases o; rfl
theorem withPay_sig (o : OutLatch) (b : Block) : ({ o with pay := b } : OutLatch).sig = o.sig := by cases o; rfl

/-- No OUT changes the descriptors and the signals of the outputs. -/
theorem outEffect_marks (fr : Firing) (out : BitVec 3) (pk : Block) (r : StageRes) :
    (outEffect fr out pk r).outs.toList.map (fun o => (o.desc, o.sig)) = fr.outs.toList.map fun o => (o.desc, o.sig) := by
  rcases out_cases out with e | e | e | e | e | e | e | e <;> simp only [outEffect, e]
  · exact vset_marks fr.outs 0 _ (latchOut_desc _ _ _) (latchOut_sig _ _ _)
  · exact vset_marks fr.outs 1 _ (latchOut_desc _ _ _) (latchOut_sig _ _ _)
  · exact vset_marks fr.outs 2 _ (latchOut_desc _ _ _) (latchOut_sig _ _ _)
  · exact vset_marks fr.outs 3 _ (latchOut_desc _ _ _) (latchOut_sig _ _ _)
  · exact vset_marks fr.outs 4 _ (withPay_desc _ _) (withPay_sig _ _)

/-- Lane 0 of a word put into a block is the word. -/
theorem lane_setWidth (w : Word) : lane (w.setWidth 512) 0 = w := by
  ext i hi
  have : i < 512 := by omega
  simp [lane, this, hi]

/-- A stage that puts an outcome into its task: its lanes and flags, AFLAGS, the generator, the outputs and accumulators, and nothing
else. -/
theorem putStage_does (st : Stage) (s : State) (r : StageRes) (h : st.slot.toNat < 6) :
    StageFrame st s (putStage s st r) ∧ StageWrites st s (putStage s st r) r.wr (lane r.val) (bitAt r.flg) ∧
    (getTask (putStage s st r) st.site st.task).aflags = (getTask s st.site st.task).aflags ||| r.fl ∧
    (getTask (putStage s st r) st.site st.task).gen = r.gen ∧
    (r.outMask = r.wr → StageOut st s (putStage s st r) r.wr (lane r.val)) := by
  refine ⟨⟨setTask_only _ _ _ _, ?_, fun j hj => ?_, fun j hj => ?_, ?_⟩, fun l hl => ⟨?_, ?_⟩, ?_, ?_, fun hm => ⟨fun o ho => ?_, fun j hj l hl => ?_⟩⟩
  all_goals simp only [putStage, getTask_setTask_self]
  · rfl
  · exact vget_vset_other _ _ _ _ _ (Ne.symm hj)
  · exact vget_vset_other _ _ _ _ _ (Ne.symm hj)
  · exact outEffect_marks _ _ _ _
  · simp [Task.afterStage, h, hl]
  · simp only [Task.afterStage, vget_vset_self _ _ _ _ h, bitAt_or, bitAt_and, bitAt_not _ _ hl]
    by_cases e : bitAt r.wr l = true <;> simp [e]
  · rfl
  · rfl
  · simp only [Task.afterStage]
    rw [outEffect_outs _ _ _ _ _ ho]
    split
    · rename_i e
      refine ⟨fun l hl h4 => ?_, fun h4 => ?_⟩
      · have : ¬ o = 4 := by omega
        simp [this, latchOut, hm, hl, bitAt]
      · subst h4
        simp only [h, vget_vset_self, if_true]
        exact lane_setWidth _
    · rfl
  · simp only [Task.afterStage]
    rw [outEffect_acc _ _ _ _ _ hj]
    by_cases e : st.out.toNat = 6 + j <;> simp [e, hl]

/-- A stage that computes each lane by itself. -/
theorem runLane_does (st : Stage) (s : State) (f : Word → Word → Word → LaneRes) (h : st.slot.toNat < 6) :
    ∃ t, runLane st f s = .next t ∧
      LaneStage st s t fun l => f (lane (stageA s st) l) (lane (stageB s st) l) (lane (stageC s st) l) := by
  refine ⟨_, rfl, ?_⟩
  obtain ⟨hf, hw, ha, hg, ho⟩ := putStage_does st s
    (laneStage (stageAct s st) (stageA s st) (stageB s st) (stageC s st) (getTask s st.site st.task).gen f) h
  refine ⟨hf, fun l hl => ?_, fun i => ?_, ?_, hg⟩
  · simpa [laneStage, hl] using hw l hl
  · rw [ha]
    simp only [laneStage, bitAt, BitVec.getLsbD_or]
    congr 1
    exact orFlags_bit _ _ 16 i
  · obtain ⟨h1, h2⟩ := ho rfl
    refine ⟨fun o hlt => ?_, fun j hj l hl => ?_⟩
    · have := h1 o hlt
      split at this
      · rename_i e
        simp only [e, if_true]
        refine ⟨fun l hl h4 => ?_, this.2⟩
        have := this.1 l hl h4
        simpa [laneStage, hl] using this
      · rename_i e
        simpa [e] using this
    · simpa [laneStage, hl] using h2 j hj l hl

/-- A well-formed stage stands in one of the slots s0 to s5. -/
theorem stageOk_slot {n : Nat} {st : Stage} (h : stageOk n st = true) : st.slot.toNat < 6 := by
  simp only [stageOk, Bool.and_eq_true, decide_eq_true_eq] at h
  omega

/-- An operation that computes each lane by itself completes with its results. -/
theorem completes_lane {i : Instr} {st : Stage} {s : State} {f : Word → Word → Word → LaneRes} {r : Word → Word → Word → LaneRes}
    (hs : st.slot.toNat < 6) (hx : exec i s = runLane st f s) (hr : ∀ a b c, f a b c = r a b c) :
    Completes i s fun t => LaneStage st s t fun l => r (lane (stageA s st) l) (lane (stageB s st) l) (lane (stageC s st) l) := by
  have e : f = r := funext fun a => funext fun b => funext fun c => hr a b c
  obtain ⟨t, h1, h2⟩ := runLane_does st s r hs
  exact ⟨t, by rw [hx, e, h1], h2⟩

end Sys2Proof.Claims
end

