-- ==== Sys2Proof/Tests/Slice0.lean ====
section
/-! SUPPORT. Tests on fixed values: words written out from the spec's encodings and what they decode to, an ill-formed term for each
check, single steps with results worked out from the spec, and for each statement that has hypotheses a state that meets them. -/

namespace Sys2Proof.Tests

set_option Elab.async false
open Sys2Proof Sys2Proof.Machine Sys2Proof.Claims

/-! ## Decoding -/

/-- The stage slot with A = 24, B = 9, C = 56, OUT = 2, PRED = 0b1011 and MOD = 5, below an opcode (R224). -/
def slotBits (opc : BitVec 8) : BitVec 36 := opc ++ 0b011000_001001_111000_010_1011_101#28
/-- The fields of those bits at task 3 and slot 4 of a CE. -/
def slotFields : Stage := ⟨4#12, 3#3, 4#3, 24#6, 9#6, 56#6, 2#3, 0b1011#4, 5#3⟩

/-- The opcodes of R245, rows 0x0 to 0x1. -/
theorem test_decode_ce_moves_and_integers :
    ([0x00, 0x01, 0x02, 0x03, 0x08, 0x09, 0x0A, 0x0B, 0x0C, 0x0D, 0x0E, 0x0F, 0x10, 0x11, 0x12, 0x13, 0x14, 0x15, 0x16, 0x17, 0x18, 0x19, 0x1A, 0x1B, 0x1C, 0x1D, 0x1E, 0x1F] : List (BitVec 8)).map (fun c => decodeSlot 4#12 3#3 4#3 (slotBits c)) =
    ([.nop, .mov, .movi, .sel, .add, .sub, .neg, .abs, .min, .max, .minu, .maxu, .mul, .mulh, .mulhu, .mad, .adds, .subs, .addus, .subus, .lea, .add2, .sub2, .add4, .sub4, .dot4, .dot4u, .dot8] : List (Stage → Instr)).map (fun f => .ok (f slotFields)) := rfl

/-- The opcodes of R245, rows 0x2 to 0x3. -/
theorem test_decode_ce_logic_and_compares :
    ([0x20, 0x21, 0x22, 0x23, 0x24, 0x25, 0x26, 0x27, 0x28, 0x29, 0x2A, 0x2B, 0x2C, 0x2D, 0x2E, 0x2F, 0x30, 0x31, 0x32, 0x33, 0x34, 0x35, 0x36] : List (BitVec 8)).map (fun c => decodeSlot 4#12 3#3 4#3 (slotBits c)) =
    ([.and, .or, .xor, .andn, .shl, .shr, .sar, .rol, .clz, .popc, .brev, .bfx, .bfxs, .bfi, .permb, .bswap, .ceq, .cne, .clt, .cle, .cltu, .cleu, .ctst] : List (Stage → Instr)).map (fun f => .ok (f slotFields)) := rfl

/-- The opcodes of R245, rows 0x4 to 0x5. -/
theorem test_decode_ce_float :
    ([0x40, 0x41, 0x42, 0x43, 0x44, 0x45, 0x46, 0x47, 0x48, 0x49, 0x4A, 0x4B, 0x4C, 0x4D, 0x4E, 0x4F, 0x50, 0x51, 0x52, 0x53, 0x54, 0x55, 0x56, 0x57, 0x58, 0x59] : List (BitVec 8)).map (fun c => decodeSlot 4#12 3#3 4#3 (slotBits c)) =
    ([.fadd, .fsub, .fmul, .fma, .fms, .fnma, .fmin, .fmax, .fabs, .fneg, .fceq, .fclt, .fcle, .fcun, .fclass, .fscale, .frcp, .frsq, .fexp2, .flog2, .frnd, .f2i, .f2u, .i2f, .u2f, .fcps] : List (Stage → Instr)).map (fun f => .ok (f slotFields)) := rfl

/-- The opcodes of R245, rows 0x6 to 0x7. -/
theorem test_decode_ce_half_and_narrow :
    ([0x60, 0x61, 0x62, 0x63, 0x64, 0x65, 0x66, 0x67, 0x68, 0x69, 0x6A, 0x6B, 0x6C, 0x6D, 0x6E, 0x6F, 0x70, 0x71] : List (BitVec 8)).map (fun c => decodeSlot 4#12 3#3 4#3 (slotBits c)) =
    ([.hadd2, .hmul2, .hfma2, .hmin2, .hmax2, .cvth, .cvtlo, .cvthi, .nq8, .nq4, .ndq8, .ndq4, .ndot4, .ndot8, .nscl, .naps, .nblk, .nsetd] : List (Stage → Instr)).map (fun f => .ok (f slotFields)) := rfl

/-- The opcodes of R245, rows 0x8 to 0x9. -/
theorem test_decode_ce_cross_lane :
    ([0x80, 0x81, 0x82, 0x83, 0x84, 0x85, 0x86, 0x87, 0x88, 0x89, 0x8A, 0x8B] : List (BitVec 8)).map (fun c => decodeSlot 4#12 3#3 4#3 (slotBits c)) =
    ([.shuf, .lrot, .bcast, .xbf, .rsum, .rmax, .rmin, .rsumi, .scani, .fscan, .lcomp, .packb] : List (Stage → Instr)).map (fun f => .ok (f slotFields)) := rfl

/-- The opcodes of R245, rows 0xA to 0xA. -/
theorem test_decode_ce_control :
    ([0xA0, 0xA1, 0xA2, 0xA3, 0xA4, 0xA5, 0xA6, 0xA7, 0xA8, 0xA9, 0xAA, 0xAB, 0xAC, 0xAD, 0xAE] : List (BitVec 8)).map (fun c => decodeSlot 4#12 3#3 4#3 (slotBits c)) =
    ([.trap, .fence, .cmd, .fork, .rdv, .waitc, .groupinc, .sethyp, .bind, .unbind, .signal, .time, .rdsys, .wrsys, .brk] : List (Stage → Instr)).map (fun f => .ok (f slotFields)) := rfl

/-- The worked slot of R294, CMD p2, #3, k0 with no output: 0xA_20BB_2038. -/
theorem test_decode_worked_cmd :
    decodeSlot 4#12 0#3 5#3 0xA20BB2038#36 = .ok (.cmd ⟨4#12, 0#3, 5#3, 2#6, 59#6, 8#6, 0#3, 0b0111#4, 0#3⟩) := rfl

/-- Slot s2 of the worked bundle of R225, FMA.rtz p1, k3, a0 > vo0 if f1: 0x4_304B_1889. -/
theorem test_decode_worked_fma :
    decodeSlot 4#12 0#3 2#3 0x4304B1889#36 = .ok (.fma ⟨4#12, 0#3, 2#3, 1#6, 11#6, 6#6, 1#3, 0b0001#4, 1#3⟩) := rfl

/-- Slot s3 of the worked example of R280, NQ8.sr vi3, k4, p2 > vo0. -/
theorem test_decode_worked_nq8 :
    decodeSlot 4#12 0#3 3#3 (0x68#8 ++ 27#6 ++ 12#6 ++ 2#6 ++ 1#3 ++ 0b0111#4 ++ 0b100#3) =
      .ok (.nq8 ⟨4#12, 0#3, 3#3, 27#6, 12#6, 2#6, 1#3, 0b0111#4, 0b100#3⟩) := rfl

/-- The port operations of R246: OP, LVL = 2, HINT = 5, ASRC = 1 and OPARG (R231). -/
theorem test_decode_ports :
    ((List.range 24).map fun c => decodePort ⟨6#12, 3#3⟩ (BitVec.ofNat 8 (c + 1) ++ 0b010_101_01#8 ++ 0x8421_0000_1234#48)) =
    ([.ld, .ldro, .st, .stm, .spld, .spst, .spadd, .atadd, .atfadd, .atmin, .atmax, .atand, .ator, .atxor, .atxchg, .atcas, .gath, .scat, .scatadd, .syncset, .syncw, .pref, .stfl, .stinv] :
      List (PortAt → PortDesc → Instr)).map (fun f => .ok (f ⟨6#12, 3#3⟩ ⟨2#3, 5#3, 1#2, 0x8421_0000_1234#48⟩)) := rfl

/-- The AG words of R330, each with every field that the table gives it. -/
theorem test_decode_ag_words :
    ([0b000001_101_0000000000000000000000111_000000000000000000000001000000#64,
      0b000010_100#9 ++ 0#55,
      0b000011_00#8 ++ 0x00400000000400#56,
      0b000100#6 ++ 0#10 ++ 0xFFFFFFFFFFC0#48,
      0b000101_011111_1#13 ++ 0#19 ++ 0x00000200#32,
      0b000110_000011_1_101_000000000100#28 ++ 0xFFFFFFF80#36,
      0b000111#6 ++ 0#10 ++ 0x000000000080#48,
      0b001000#6 ++ 0#41 ++ 0b1#1 ++ 0x0010#16,
      0b001001_010#9 ++ 0#23 ++ 0x00FF#16 ++ 0xFFFF#16,
      0b001010#6 ++ 0#57 ++ 0b1#1] : List (BitVec 64)).map (decodeAg ⟨6#12, 1#1⟩) =
    ([.aloop ⟨6#12, 1#1⟩ 5#3 7#25 64#30, .aend ⟨6#12, 1#1⟩ 4#3, .abase ⟨6#12, 1#1⟩ 0x400000000400#56,
      .aoff ⟨6#12, 1#1⟩ 0xFFFFFFFFFFC0#48, .aidx ⟨6#12, 1#1⟩ 31#6 1#1 512#32, .agrp ⟨6#12, 1#1⟩ 3#6 1#1 5#3 4#12 0xFFFFFFF80#36,
      .aemit ⟨6#12, 1#1⟩ 128#48, .acred ⟨6#12, 1#1⟩ 1#1 16#16, .amask ⟨6#12, 1#1⟩ 2#3 0x00FF#16 0xFFFF#16,
      .ahalt ⟨6#12, 1#1⟩ 1#1] : List Instr).map .ok := rfl

/-- The engine opcodes of R248 over one common part: LVL = 2, SJ = 1, SSITE = 6, SOFF = 16 (R339). Bit 8 of HYPRES tells CONFIRM from
REFUTE (R361). -/
theorem test_decode_engine_words :
    ([0x10, 0x11, 0x12, 0x13, 0x14, 0x15, 0x20, 0x21, 0x22, 0x23, 0x24, 0x25, 0x26, 0x30, 0x31, 0x32, 0x33, 0x34, 0x35, 0x36, 0x37, 0x40, 0x41, 0x42, 0x43, 0x44, 0x45, 0x50, 0x52, 0x60, 0x61] : List (BitVec 8)).map
      (fun c => decodeEng 3#13 (c ++ 0b010_1_000000000110_0000000000010000#32 ++ 5#88)) =
    ([.mxldb, .mxmul, .mxmulo, .mxdrn, .mxzero, .mxver, .cpcopy, .cpfill, .cpchain, .cpput, .cpget, .cpred, .cpbar, .tnew, .tapp, .tseal, .tatt, .tfork, .tevict, .tfree, .tstat, .hfam, .hins, .hdel, .hprobe, .hreh, .hstat, .hypnew, .hypqry, .tierhint, .tierpin] :
      List (EngId → Cmd → Instr)).map (fun f => .ok (f 3#13 ⟨2#3, 1#1, 6#12, 16#16, 5#88⟩)) := rfl

/-- HYPRES with OUTC = 0 and 1. -/
theorem test_decode_hypres :
    [0x003#88, 0x103#88].map (fun x => decodeEng 0x1000#13 (0x51#8 ++ 0#32 ++ x)) =
      [.ok (.confirm 0x1000#13 ⟨0#3, 0#1, 0#12, 0#16, 0x003#88⟩), .ok (.refute 0x1000#13 ⟨0#3, 0#1, 0#12, 0#16, 0x103#88⟩)] := rfl

/-- The operator codes of R247 over NIN = 1, NOUT = 2, one output at port 5 and VC 6, and OPT = 9 (R239). -/
theorem test_decode_operators :
    ((List.range 8).map fun c => decodeOp ⟨6#12, 2#2⟩ (9#96 ++ 0x56#128 ++ 0#19 ++ 0b00010_0001#9 ++ BitVec.ofNat 4 (c + 1))) =
    ([.steer, .merge, .carry, .dup, .widen, .replay, .rpart, .drop] : List (OpAt → OpCfg → Instr)).map
      (fun f => .ok (f ⟨6#12, 2#2⟩ ⟨1#4, 2#5, 0x56#128, 9#96⟩)) := rfl

/-- The records of the events, first half: the table row and the operands, the model's own form (log 2). -/
theorem test_decode_events_1 :
    ([[6, 4, 0, 5, 0, 0, 0, 42, 79, 116, 0, 0, 0], [6, 5, 0, 5, 0, 0, 0], [6, 7, 0, 5, 0, 0, 0], [6, 8, 0, 5, 0, 0, 0], 
      [6, 9, 0, 5, 0, 2], [6, 10, 0, 5, 0, 10], [6, 11, 0, 5, 0, 2], [6, 12, 0, 5, 0], [6, 122, 0, 5, 0, 2], 
      [6, 136, 0, 5, 0, 2], [6, 142, 0, 5, 0, 2], [6, 144, 0, 5, 0, 2], [6, 147, 0, 5, 0, 10], [6, 148, 0, 5, 0, 2], 
      [6, 173, 0, 5, 0, 2], [6, 174, 0, 5, 0, 2], [6, 175, 0, 5, 0], [6, 182, 0, 5, 0, 0, 0], [6, 190, 0, 5, 0], 
      [6, 191, 0, 5, 0], [6, 192, 0, 5, 0], [6, 193, 0, 5, 0], [6, 228, 0, 5]] : List (List Byte)).map decode =
    ([.dispatch 5#32 42#8 79#8 116#32, .promotion 5#32, .residencyTimeout 5#32, .frameWrite 5#32, .bankFlip 5#12 2#2, 
      .linkTransfer 5#12 10#4, .taskActivation 5#12 2#3, .bundleFire 5#12, .fenceComplete 5#12 2#3, .orphanDiversion 5#12 2#3, 
      .widenReleaseComplete 5#12 2#2, .replayLapTwo 5#12 2#2, .freedNotice 5#12 10#4, .freedCredit 5#12 2#2, 
      .replySend 5#12 2#3, .portControlToken 5#12 2#3, .syncAdd 5#12, .agrpEndOfStream 5#32, .jobStart 5#13, 
      .engineCmdWord 5#12, .jobEnd 5#13, .mxCommandStart 5#12, .overlayEnlarge 5#8] :
      List Instr).map .ok := rfl

/-- The records of the events, second half: the table row and the operands, the model's own form (log 2). -/
theorem test_decode_events_2 :
    ([[6, 229, 0, 5, 0, 42, 0], [6, 230, 0, 1], [6, 231, 0, 5, 0, 0, 0], [6, 232, 0, 5, 0, 0, 0], [6, 233, 0, 5, 0, 0, 0], 
      [6, 234, 0, 5, 0, 0, 0], [6, 235, 0, 5, 0, 0, 0], [6, 236, 0, 5, 0, 0, 0], [6, 237, 0, 5, 0, 2], [6, 238, 0, 5, 0, 0, 0], 
      [6, 239, 0, 5, 0, 0, 0], [6, 240, 0, 5, 0, 0, 0, 42, 79], [6, 241, 0, 5, 0, 2, 1], [6, 242, 0, 1], [6, 243, 0, 1], 
      [6, 244, 0, 1], [6, 245, 0, 1], [6, 246, 0, 1], [6, 248, 0, 1], [6, 252, 0, 5, 0, 2], [6, 26, 1, 5, 0, 2], 
      [6, 37, 1, 5, 0, 2], [6, 38, 1, 5, 0, 0, 0]] : List (List Byte)).map decode =
    ([.tenantSwitch 5#16 42#16, .pageMoveComplete 1#1, .detectionWave 5#32, .nodeComplete 5#32, .budgetExhausted 5#32, 
      .watchdogFire 5#32, .sliceExpiry 5#32, .preempt 5#32, .mark 5#12 2#3, .markerPhaseEnd 5#32, .freeze 5#32, 
      .restore 5#32 42#8 79#8, .ownerChangeZeroing 5#12 2#2 1#1, .heartbeat 1#2, .dieLost 1#2, .faultRecord 1#2, .fault 1#2, 
      .fpop 1#2, .repairToken 1#2, .kernelBudget 5#12 2#3, .remoteRequestIssue 5#13 2#3, .memoryReply 5#12 2#3, 
      .sramSwapComplete 5#32] :
      List Instr).map .ok := rfl

/-- The steps that the outside starts, by their row. -/
theorem test_decode_outside_steps :
    ([0, 1, 2, 3, 6, 187, 188, 189, 207, 247, 249, 250, 251, 253, 254, 255, 256, 257, 258, 259, 260, 261, 262, 263, 264, 265, 
      266, 267, 268, 269, 270, 271, 272, 273, 274, 275, 276, 277, 278, 279, 280, 281, 283, 284, 285, 286, 287, 288, 289, 290, 
      291, 292, 295, 296, 297, 298, 299, 300] : List Nat).map
      (fun r => decode (7#8 :: leBytes 2 r)) =
    ([.packageReset, .powerLoss, .launch, .recordAccept, .placementHold, .pageWalk, .atsTimeout, .eccError, .collectiveMessage, 
      .repair, .escal, .watch, .respPoll, .generationIteration, .lstatClear, .inval, .invalidationComplete, .invstatClear, 
      .cqtailClear, .policy, .pferrClear, .registerWrite, .faultring, .pasid, .watchdog, .dbgattach, .dbghalt, .dbgresume, 
      .dbgdetach, .watchset, .rebuild, .liferead, .attest, .atstimeout, .nodeid, .route, .slots, .rtimeout, .t2pool, .ovlres, 
      .ctxset, .ctxread, .slotCredit, .remoteReply, .farEndRequest, .remoteTimeout, .peerLost, .flitReceive, .nak, 
      .linkRetrain, .snapshot, .environmentSample, .linkTrained, .dieRejoin, .tdispTransition, .packageFault, 
      .configRecordUpdate, .fwcmdReservedCode] :
      List Instr).map .ok := rfl

/-- Reserved opcodes and bits, short records and unknown classes are refused by name (R7, R245 to R248). -/
theorem test_decode_refusals :
    decodeSlot 4#12 0#3 0#3 (slotBits 0x04) = .error .reservedOpcode ∧ decodeSlot 4#12 0#3 0#3 (slotBits 0x37) = .error .reservedOpcode ∧
    decodePort ⟨6#12, 0#3⟩ (0x19#8 ++ 0#56) = .error .reservedOpcode ∧ decodeAg ⟨6#12, 0#1⟩ (0b001011#6 ++ 0#58) = .error .reservedOpcode ∧
    decodeAg ⟨6#12, 0#1⟩ (0b001010#6 ++ 2#58) = .error .reservedBits ∧ decodeEng 3#13 (0x16#8 ++ 0#120) = .error .reservedOpcode ∧
    decodeOp ⟨6#12, 0#2⟩ 9#256 = .error .reservedOpcode ∧ decodeOp ⟨6#12, 0#2⟩ (0#224 ++ 0x80000001#32) = .error .reservedBits ∧
    decode [] = .error .badClass ∧ decode [1#8, 4#8] = .error .badLength ∧ decode [9#8] = .error .badClass ∧
    decode [6#8, 255#8, 255#8] = .error .badClass := ⟨rfl, rfl, rfl, rfl, rfl, rfl, rfl, rfl, rfl, rfl, rfl, rfl⟩

/-! ## Well-formedness -/

/-- A well-formed stage slot at the CE of site 4: A = vi0, B = vi1, C = p0, all lanes, no output. -/
def stage0 : Stage := ⟨4#12, 0#3, 0#3, 24#6, 25#6, 0#6, 0#3, 7#4, 0#3⟩
/-- The same slot in s5. -/
def stage5 : Stage := { stage0 with slot := 5#3 }

/-- Each check of a stage slot refuses a term that breaks it alone (R220, R224, R225). -/
theorem test_wf_stage :
    wf (.add stage0) = true ∧ wf (.add { stage0 with site := 6#12 }) = false ∧ wf (.add { stage0 with slot := 6#3 }) = false ∧
    wf (.add { stage0 with pred := 0b0110#4 }) = false ∧ wf (.add { stage0 with pred := 0b1111#4 }) = false ∧
    wf (.add { stage0 with a := 40#6 }) = false ∧ wf (.add { stage0 with b := 47#6 }) = false ∧ wf (.mad { stage0 with c := 44#6 }) = false ∧
    wf (.add { stage0 with c := 44#6 }) = true ∧ wf (.neg { stage0 with b := 44#6 }) = true ∧
    wf (.nop { stage0 with a := 40#6, pred := 6#4 }) = true ∧ wf (.nop { stage0 with site := 6#12 }) = false ∧
    wf (.movi { stage0 with a := 40#6, b := 41#6, c := 42#6 }) = true := by decide +kernel

/-- The limits of single operations refuse a term that breaks one alone (R280, R293). -/
theorem test_wf_stage_limits :
    wf (.nblk { stage0 with a := 28#6 }) = false ∧ wf (.nsetd stage0) = false ∧ wf (.nsetd { stage0 with out := 5#3 }) = false ∧
    wf (.time stage0) = false ∧ wf (.time { stage5 with out := 1#3 }) = false ∧ wf (.time stage5) = true ∧
    wf (.fence { stage5 with a := 55#6 }) = false ∧ wf (.cmd { stage5 with a := 6#6, b := 56#6 }) = false ∧
    wf (.cmd { stage5 with a := 5#6, b := 54#6 }) = false ∧ wf (.fork { stage5 with b := 24#6 }) = false ∧
    wf (.rdv { stage5 with a := 23#6 }) = false ∧ wf (.waitc { stage5 with a := 24#6 }) = false ∧
    wf (.signal { stage5 with b := 61#6, out := 1#3 }) = false ∧ wf (.signal { stage5 with b := 57#6 }) = false ∧
    wf (.signal { stage5 with b := 57#6, out := 5#3 }) = true ∧ wf (.wrsys stage5) = false ∧
    wf (.wrsys { stage5 with site := 33#12 }) = true := by decide +kernel

/-- A well-formed port descriptor: LD of one word through AG 0 (R313, R314). -/
def port0 : PortDesc := ⟨0#3, 0#3, 0#2, 0#48⟩

/-- Each check of a port descriptor refuses a term that breaks it alone (R231, R313, R314, R325). -/
theorem test_wf_port :
    wf (.ld ⟨6#12, 0#3⟩ port0) = true ∧ wf (.ld ⟨4#12, 0#3⟩ port0) = false ∧ wf (.ld ⟨6#12, 0#3⟩ { port0 with oparg := 1#48 }) = false ∧
    wf (.ld ⟨6#12, 0#3⟩ { port0 with oparg := 0x040000000000#48 }) = false ∧ wf (.ld ⟨6#12, 0#3⟩ { port0 with asrc := 3#2 }) = false ∧
    wf (.ld ⟨6#12, 0#3⟩ { port0 with hint := 1#3 }) = false ∧ wf (.spld ⟨6#12, 0#3⟩ { port0 with lvl := 1#3 }) = false ∧
    wf (.spld ⟨6#12, 0#3⟩ { port0 with hint := 4#3 }) = false ∧ wf (.st ⟨6#12, 0#3⟩ { port0 with oparg := 0x000000010000#48 }) = false ∧
    wf (.st ⟨6#12, 0#3⟩ { port0 with oparg := 0x000100010000#48 }) = true ∧ wf (.syncw ⟨6#12, 0#3⟩ { port0 with oparg := 0x001000080000#48 }) = false ∧
    wf (.syncw ⟨6#12, 0#3⟩ { port0 with oparg := 0x001BFFF00000#48 }) = true ∧
    wf (.syncw ⟨6#12, 0#3⟩ { port0 with oparg := 0x001C00000000#48 }) = true := by decide +kernel

/-- What an operation's row of R314 asks of WID and of the address source stands in the instance check, not in the frame's (R221, R328). -/
theorem test_wf_port_row :
    portRowOk 0x03 { port0 with asrc := 2#2, oparg := 0x800000000000#48 } = false ∧ portRowOk 0x04 port0 = false ∧ portRowOk 0x11 port0 = false ∧
    wf (.gath ⟨6#12, 0#3⟩ port0) = true := by decide +kernel

/-- Each check of an AG word refuses a term that breaks it alone (R330). -/
theorem test_wf_ag :
    wf (.aloop ⟨6#12, 0#1⟩ 5#3 1#25 0#30) = true ∧ wf (.aloop ⟨6#12, 0#1⟩ 6#3 1#25 0#30) = false ∧
    wf (.aloop ⟨6#12, 0#1⟩ 5#3 0#25 0#30) = false ∧ wf (.aloop ⟨4#12, 0#1⟩ 5#3 1#25 0#30) = false ∧ wf (.aend ⟨6#12, 0#1⟩ 7#3) = false ∧
    wf (.amask ⟨6#12, 0#1⟩ 6#3 0#16 0#16) = false ∧ wf (.aidx ⟨6#12, 0#1⟩ 32#6 0#1 0#32) = false ∧
    wf (.agrp ⟨6#12, 0#1⟩ 32#6 0#1 0#3 0#12 0#36) = false ∧ wf (.agrp ⟨6#12, 0#1⟩ 31#6 1#1 0#3 6#12 0#36) = false ∧
    wf (.agrp ⟨6#12, 0#1⟩ 31#6 0#1 0#3 6#12 0#36) = true := by decide +kernel

/-- A well-formed engine command: MXZERO of a matrix tile (R339, R347). -/
def cmd0 : Cmd := ⟨0#3, 0#1, 0#12, 0#16, 0#88⟩

/-- Each check of an engine command word refuses a term that breaks it alone (R244, R339, R344 to R362). -/
theorem test_wf_engine :
    wf (.mxzero 3#13 cmd0) = true ∧ wf (.mxzero 103#13 cmd0) = false ∧ wf (.mxzero 3#13 { cmd0 with ops := 1#88 }) = false ∧
    wf (.mxzero 3#13 { cmd0 with soff := 1#16 }) = false ∧ wf (.mxzero 3#13 { cmd0 with ssite := 6#12 }) = false ∧
    wf (.mxzero 3#13 { cmd0 with sj := 1#1, ssite := 4#12 }) = false ∧ wf (.mxzero 3#13 { cmd0 with sj := 1#1, ssite := 6#12 }) = true ∧
    wf (.mxzero 3#13 { cmd0 with sj := 1#1, ssite := 6#12, soff := 49151#16 }) = true ∧
    wf (.mxzero 3#13 { cmd0 with sj := 1#1, ssite := 6#12, soff := 49152#16 }) = false ∧ wf (.tstat 99#13 { cmd0 with lvl := 1#3 }) = false ∧
    wf (.tstat 99#13 { cmd0 with ops := 63#88 }) = false ∧ wf (.mxldb 3#13 { cmd0 with ops := 1#88 }) = false ∧
    wf (.mxldb 3#13 { cmd0 with ops := 8191#13 ++ 1#13 ++ 0#62 }) = false ∧ wf (.mxldb 3#13 { cmd0 with ops := 1#27 ++ 64#61 }) = false ∧
    wf (.mxmul 3#13 { cmd0 with ops := 8129#32 ++ 0#56 }) = false ∧ wf (.mxmul 3#13 { cmd0 with ops := 8128#32 ++ 0#56 }) = true ∧
    wf (.mxmulo 3#13 { cmd0 with ops := 1#19 ++ 0#69 }) = false ∧ wf (.mxdrn 3#13 { cmd0 with ops := 1#27 ++ 0#61 }) = false ∧
    wf (.hfam 227#13 { cmd0 with ops := 32#88 }) = false ∧ wf (.tierpin 0x1001#13 { cmd0 with ops := 0#88 }) = false ∧
    wf (.tierpin 0x1001#13 { cmd0 with ops := 1#32 ++ 4095#56 }) = false ∧ wf (.tierpin 0x1001#13 { cmd0 with ops := 1#32 ++ 0#56 }) = true ∧
    wf (.confirm 0x1000#13 { cmd0 with ops := 0x100#88 }) = false ∧ wf (.refute 0x1000#13 cmd0) = false := by decide +kernel

/-- A well-formed operator slot: DUP to the ports E and S on VC 4 and 5 (R239). -/
def op0 : OpCfg := ⟨1#4, 2#5, 0x2514#128, 0#96⟩

/-- Each check of an operator slot refuses a term that breaks it alone (R71, R237, R239, R306), and so do the places of events. -/
theorem test_wf_operator :
    wf (.dup ⟨6#12, 0#2⟩ op0) = true ∧ wf (.dup ⟨6#12, 0#2⟩ { op0 with nin := 2#4 }) = false ∧
    wf (.dup ⟨6#12, 0#2⟩ { op0 with nout := 1#5, outs := 0x14#128 }) = false ∧ wf (.dup ⟨6#12, 0#2⟩ { op0 with opt := 1#96 }) = false ∧
    wf (.dup ⟨6#12, 0#2⟩ { op0 with outs := 0x2514#128 + 0x40000#128 }) = false ∧ wf (.dup ⟨6#12, 0#2⟩ { op0 with outs := 0x2513#128 }) = false ∧
    wf (.dup ⟨6#12, 0#2⟩ { op0 with outs := 0x0514#128 }) = false ∧ wf (.dup ⟨6#12, 0#2⟩ { op0 with outs := 0x9514#128 }) = true ∧
    wf (.dup ⟨4#12, 0#2⟩ { op0 with outs := 0x9514#128 }) = false ∧
    wf (.replay ⟨6#12, 0#2⟩ ⟨1#4, 1#5, 0x14#128, 0#68 ++ 4#12 ++ 0#16⟩) = false ∧
    wf (.replay ⟨6#12, 0#2⟩ ⟨1#4, 1#5, 0x14#128, 0x80#56 ++ 0#12 ++ 6#12 ++ 0#16⟩) = true ∧
    wf (.replay ⟨6#12, 0#2⟩ ⟨1#4, 1#5, 0x14#128, 0x40#56 ++ 0#12 ++ 6#12 ++ 0#16⟩) = false ∧
    wf (.rpart ⟨6#12, 0#2⟩ ⟨1#4, 2#5, 0x2514#128, 0#88 ++ 2#3 ++ 0#5⟩) = false ∧
    wf (.bundleFire 6#12) = false ∧ wf (.taskActivation 3#12 0#3) = false ∧ wf (.replySend 4#12 0#3) = false ∧ wf (.syncAdd 4#12) = false ∧
    wf (.mxCommandStart 6#12) = false ∧ wf (.kernelBudget 6#12 0#3) = false ∧ wf (.memoryReply 4#12 0#3) = false := by decide +kernel

/-! ## Small states -/

/-- A node of tenant 5 and VF 1 whose launch record is all zero. -/
def node0 : Node :=
  { id := 0, lrec := 0#2048, sub := 1#10, fn := 1#10, tenant := 5#16, policy := policyReset, firmware := false, st := .pool, prio := 3#3,
    readyAt := 0, prioAt := 0, gateAt := none, fracLast := 0, fracAt := 0, foot := [], deps := [], rels := 0, groups := 1, given := 0,
    ranges := [], reissue := [], bounds := [], firstAt := none, dataWritten := false, insts := [1], jobst := 0#16, afl := fNone, nfault := 0#32,
    err := 0#16, lscode := 0#8, accepted := 0#17, aborting := false }
/-- Its one instance, which owns the CE of site 4, the MT of site 6 with its AGs, and the operator slot 0 of site 6. -/
def inst0 : Inst :=
  { id := 1, node := 0, st := .running, slice := 0#24, dbx := 0#8, dby := 0#8, frames := [], onto := none, switched := false, routes := [], vcs := [],
    gen := 0#24, estat := 0#32, injected := false, waves := 0, quiescent := false, dogs := 0, progress := false, elems := [16, 24, 25, 26],
    ops := [(6#12, 0#2)], names := [], image := [], startedAt := 0, sliceUs := 0, marked := [], frozen := false, limitZero := [], markUs := 0 }
/-- The machine in which that instance runs. -/
def s0 : State :=
  { State.reset with
    fab := { State.reset.fab with owner := [(16, 2), (24, 2), (25, 2), (26, 2)] },
    dist := { State.reset.dist with nodes := [node0], insts := [inst0] } }
/-- That machine with another instance. -/
def withInst (i : Inst) (s : State) : State := { s with dist := { s.dist with insts := [i] } }
/-- That machine with another node. -/
def withNode (n : Node) (s : State) : State := { s with dist := { s.dist with nodes := [n] } }
/-- That machine with a task of the CE of site 4 changed. -/
def withTask (f : Task → Task) (s : State) : State := setTask s 4#12 0#3 (f (getTask s 4#12 0#3))
/-- What the outside presents with the step. -/
def withInput (bs : List Byte) (s : State) : State := { s with input := bs }

/-! ## CE stages: results, and the hypotheses of the statements -/

/-- The result of one stage on three lane values: lane 0 of p0, bit 0 of f0 and AFLAGS, with selectors p1, p2 and p3. -/
def lane0 (f : Stage → Instr) (mod : BitVec 3) (a b c : Word) : Word × Bool × Flags :=
  let k := { Task.empty with p := #v[0#512, splat a, splat b, splat c, 0#512, 0#512] }
  match exec (f ⟨4#12, 0#3, 0#3, 1#6, 2#6, 3#6, 0#3, 7#4, mod⟩) (setTask State.reset 4#12 0#3 k) with
  | .next t =>
    let k' := getTask t 4#12 0#3
    (lane (vget 0#512 k'.p 0) 0, bitAt (vget 0#16 k'.f 0) 0, k'.aflags)
  | _ => (0#32, false, fNone)

/-- ADD wraps and NEG of the most negative number clamps with MOD[2] (R255). -/
theorem test_add_wraps : lane0 .add 0#3 0xFFFFFFFF#32 1#32 0#32 = (0#32, false, fNone) := by decide +kernel
theorem test_neg_clamps : lane0 .neg 4#3 0x80000000#32 0#32 0#32 = (0x7FFFFFFF#32, true, fSAT) := by decide +kernel
/-- SUB takes B from A (R255). -/
theorem test_sub_order : lane0 .sub 0#3 5#32 7#32 0#32 = (0xFFFFFFFE#32, true, fNone) := by decide +kernel
/-- MULH is signed and MULHU is not (R255). -/
theorem test_mulh : lane0 .mulh 0#3 0xFFFFFFFF#32 2#32 0#32 = (0xFFFFFFFF#32, true, fNone) := by decide +kernel
theorem test_mulhu : lane0 .mulhu 0#3 0xFFFFFFFF#32 2#32 0#32 = (1#32, true, fNone) := by decide +kernel
/-- ADDUS clamps to 2^32 - 1 and SUBUS to 0 (R256). -/
theorem test_addus : lane0 .addus 0#3 0xFFFFFFF0#32 0x20#32 0#32 = (0xFFFFFFFF#32, true, fSAT) := by decide +kernel
theorem test_subus : lane0 .subus 0#3 1#32 2#32 0#32 = (0#32, false, fSAT) := by decide +kernel
/-- LEA's flag is the carry out (R257). -/
theorem test_lea : lane0 .lea 0#3 0xFFFFFFF0#32 4#32 2#32 = (0#32, true, fNone) := by decide +kernel
/-- A shift by 32 gives 0 or the sign (R260). -/
theorem test_shl_32 : lane0 .shl 0#3 1#32 32#32 0#32 = (0#32, false, fNone) := by decide +kernel
theorem test_sar_32 : lane0 .sar 0#3 0x80000000#32 32#32 0#32 = (0xFFFFFFFF#32, true, fNone) := by decide +kernel
/-- CLT is signed and CLTU is not (R264). -/
theorem test_clt : lane0 .clt 0#3 0xFFFFFFFF#32 0#32 0#32 = (1#32, true, fNone) := by decide +kernel
theorem test_cltu : lane0 .cltu 0#3 0xFFFFFFFF#32 0#32 0#32 = (0#32, false, fNone) := by decide +kernel
/-- 1 + 2^-24 is a tie, which RNE takes to 1 and RUP to the next number, both inexact (R114, R118). -/
theorem test_fadd_tie : (lane0 .fadd 0#3 0x3F800000#32 0x33800000#32 0#32).1 = 0x3F800000#32 := by decide +kernel
theorem test_fadd_up : (lane0 .fadd 3#3 0x3F800000#32 0x33800000#32 0#32).1 = 0x3F800001#32 := by decide +kernel
/-- FMA rounds once: (1 + 2^-23)(1 - 2^-23) - 1 = -2^-46 (R267). -/
theorem test_fma_once : (lane0 .fma 0#3 0x3F800001#32 0x3F7FFFFE#32 0xBF800000#32).1 = 0xA8800000#32 := by decide +kernel
/-- F2I saturates above 2^31 - 1 (R272). -/
theorem test_f2i_saturates : (lane0 .f2i 1#3 0x4F800000#32 0#32 0#32).1 = 0x7FFFFFFF#32 := by decide +kernel

/-- The well-formed slots used below. -/
def stageOut : Stage := { stage0 with out := 1#3 }

theorem witness_Moves : wf (.mov stage0) = true ∧ wf (.movi stage0) = true ∧ wf (.sel stage0) = true ∧ wf (.nop stage0) = true := by
  decide +kernel
theorem witness_IntegerArithmetic :
    ([.add, .sub, .neg, .abs, .min, .max, .minu, .maxu, .mul, .mulh, .mulhu, .mad] : List (Stage → Instr)).all (fun f => wf (f stage0)) = true := by
  decide +kernel
theorem witness_SaturatingAdds : ([.adds, .subs, .addus, .subus] : List (Stage → Instr)).all (fun f => wf (f stage0)) = true := by
  decide +kernel
theorem witness_LoadEffectiveAddress : wf (.lea stage0) = true := by decide +kernel
theorem witness_PackedAndDots :
    ([.add2, .sub2, .add4, .sub4, .dot4, .dot4u, .dot8] : List (Stage → Instr)).all (fun f => wf (f stage0)) = true := by decide +kernel
theorem witness_LogicAndBits :
    ([.and, .or, .xor, .andn, .shl, .shr, .sar, .rol, .clz, .popc, .brev, .bswap, .bfx, .bfxs, .bfi, .permb] :
      List (Stage → Instr)).all (fun f => wf (f stage0)) = true := by decide +kernel
theorem witness_Compares :
    ([.ceq, .cne, .clt, .cle, .cltu, .cleu, .ctst] : List (Stage → Instr)).all (fun f => wf (f stage0)) = true := by decide +kernel
theorem witness_FloatingPoint :
    ([.fadd, .fsub, .fmul, .fma, .fms, .fnma, .fmin, .fmax, .fabs, .fneg, .fcps, .fceq, .fclt, .fcle, .fcun, .fclass, .fscale, .frcp,
      .frsq, .fexp2, .flog2, .frnd, .f2i, .f2u, .i2f, .u2f] : List (Stage → Instr)).all (fun f => wf (f stage0)) = true := by decide +kernel
theorem witness_HalfAndNarrow :
    ([.hadd2, .hmul2, .hfma2, .hmin2, .hmax2, .cvth, .cvtlo, .cvthi, .ndq8, .ndq4, .ndot4, .ndot8, .nscl, .naps, .nblk] :
      List (Stage → Instr)).all (fun f => wf (f stage0)) = true := by decide +kernel
theorem witness_Quantise : wf (.nq8 stage0) = true ∧ wf (.nq4 { stage0 with mod := 4#3 }) = true := by decide +kernel
theorem witness_SetDescriptor : wf (.nsetd stageOut) = true ∧ wf (.nsetd { stage0 with out := 4#3 }) = true := by decide +kernel
theorem witness_CrossLane :
    ([.shuf, .lrot, .bcast, .rsumi, .scani, .packb, .rsum, .rmax, .rmin, .fscan] : List (Stage → Instr)).all (fun f => wf (f stage0)) = true := by
  decide +kernel
theorem witness_ButterflyAndCompress : wf (.xbf stage0) = true ∧ ∀ o : BitVec 3, wf (.lcomp { stageOut with out := o }) = true := by decide +kernel

/-- A token of binary32 values in the low lanes. -/
def logits (xs : List Word) : Block := ofLanes fun l => xs.getD l 0#32
/-- At KT = 1 and u = 0.5 the two rows of the worked example draw 5 and 3 (R165; 20_program_speculative_commit). -/
theorem test_draw_rows :
    (drawAt 0x3F800000#32 0x3F000000#32
        [(logits [0x3F800000#32, 0#32, 0#32, 0x40000000#32, 0x3F800000#32, 0x40400000#32, 0x40000000#32, 0#32], 0x00FF#16)],
      drawAt 0x3F800000#32 0x3F000000#32
        [(logits [0x40000000#32, 0#32, 0x3F800000#32, 0x40400000#32, 0#32, 0x3F800000#32, 0x40000000#32, 0#32], 0x00FF#16)]) =
      (some 5, some 3) := by decide +kernel
/-- A draw by 0 takes the first element with a weight, also over a second token, and a row without a weight draws nothing (R165). -/
theorem test_draw_ends :
    (drawAt 0x3F800000#32 0#32 [(logits [], 0#16), (logits [0x3F800000#32], 0x0002#16)], drawAt 0x3F800000#32 0#32 [(logits [], 0#16)]) =
      (some 17, none) := by decide +kernel

/-! ## Control operations and firings -/

/-- A vector data token that stands from the first cycle. -/
def tokV : Token := vectorTok (splat 7#32) 0xFFFF#16 0x00FF#16 0#6 false false
/-- A scalar data token. -/
def tokS : Token := scalarTok 1#32 0#6 false false
/-- A control token. -/
def tokC (w : Word) : Token := controlTok false w 0#6 false
/-- The machine with the channel ends of the CE of site 4 in use with depth 2: vi0 and si0, and vo0 on VC 4 (R227). -/
def sEnds : State := putFrame s0 4#12 1 0 3 ((0x40#8).setWidth 256 <<< 128 ||| (0x21#16).setWidth 256 <<< 64 ||| 0x21#256)
/-- Task 0 exists with one slot of code (R228). -/
def sTask : State := putFrame sEnds 4#12 1 0 8 ((1#8).setWidth 256 <<< 13 ||| 1#256)
/-- That task runs. -/
def sRun : State := withTask (fun k => { k with st := .running }) sTask

/-- TIME puts the low half of the cycle counter into even lanes and the high half into odd ones (R304). -/
theorem test_time :
    (match exec (.time stage5) { State.reset with cycle := 0x0000000500000007#64 } with
      | .next t => let p := vget 0#512 (getTask t 4#12 0#3).p 5; (lane p 0, lane p 1)
      | _ => (0#32, 0#32)) = (7#32, 5#32) := by decide +kernel

/-- A firing whose NAS is 0 goes on to the next bundle, and back to the first after the last (R292). -/
theorem test_bundle_fire :
    (match exec (.bundleFire 4#12) sRun with
      | .next t => ((getTask t 4#12 0#3).pc, (getTask t 4#12 0#3).st, (getCe t 4#12).firedNext)
      | _ => (9#7, .idle, 0)) = (1#7, .running, 1) := by decide +kernel

theorem witness_ControlReads :
    (wf (.time stage5) = true ∧ bitAt (stageAct s0 stage5) 0 = true) ∧
    (wf (.rdsys { stage5 with a := 57#6 }) = true ∧ bitAt (stageAct s0 { stage5 with a := 57#6 }) 0 = true) ∧
    (ownerOf s0 4#12 0 = some inst0 ∧ nodeOf s0 4#12 0 = some node0 ∧ ownerOf State.reset 4#12 0 = none ∧ nodeOf State.reset 4#12 0 = none ∧
      (getTask { s0 with cycle := 1#64 } 4#12 0#3).ccAt ≠ now { s0 with cycle := 1#64 }) ∧
    (let s := pushBuf s0 (endKey 4#12 7) (tokC (cRDV 9#24)) 0
     let st : Stage := { stage5 with a := 31#6 }
     wf (.rdv st) = true ∧ bitAt (stageAct s st) 0 = true ∧ headAt s (endKey 4#12 7) = some (tokC (cRDV 9#24)) ∧
      (tokC (cRDV 9#24)).ctrl = true ∧ (tokC (cRDV 9#24)).isMarkOrSwitch = false) := by decide +kernel

theorem witness_CountersAndGroups :
    (let s := withTask (fun k => { k with cc := vset k.cc 7 4#32 }) s0
     let st : Stage := { stage5 with a := 63#6, b := 60#6 }
     wf (.waitc st) = true ∧ bitAt (stageAct s st) 0 = true ∧
      ctlB s st ≤ ccView s (getTask s 4#12 0#3) (bits (ctlA s st) 0 3).toNat ∧ (getTask { s with cycle := 1#64 } 4#12 0#3).ccAt ≠ 1 ∧
      bitAt (stageAct s { st with pred := 1#4 }) 0 = false) ∧
    nodeOf State.reset 4#12 0 = none ∧
    (let s := withNode { node0 with groups := 2 ^ 32 - 1 } s0
     let st : Stage := { stage5 with a := 57#6 }
     wf (.groupinc st) = true ∧ bitAt (stageAct s st) 0 = true ∧ nodeOf s 4#12 0 = some { node0 with groups := 2 ^ 32 - 1 }) := by
  decide +kernel

theorem witness_HypothesisAndTriggers :
    (wf (.sethyp { stage5 with a := 39#6 }) = true ∧ bitAt (stageAct s0 stage5) 0 = true ∧ hypLive s0 (ctxOf (nodeOf s0 4#12 0)) 0#6 = true ∧
      hypLive s0 (ctxOf (nodeOf s0 4#12 0)) 63#6 = false) ∧
    (let st : Stage := { stage5 with a := 39#6 }
     wf (.bind st) = true ∧ bitAt (stageAct sTask st) 0 = true ∧ taskValid (taskDesc sTask 4#12 0) = true ∧
      taskSlots (taskDesc sTask 4#12 0) ≠ 0 ∧ bitAt (ceEnd sTask 4#12 0) 0 = true ∧ taskValid (taskDesc s0 4#12 0) = false) ∧
    (let s := withTask (fun k => { k with trig := some 0#3 }) s0
     let st : Stage := { stage5 with a := 39#6 }
     wf (.unbind st) = true ∧ bitAt (stageAct s st) 0 = true ∧ (getTask s 4#12 0#3).trig.isSome = true) := by decide +kernel

theorem witness_SignalAndCommands :
    (let st : Stage := { stage5 with b := 60#6, out := 5#3 }
     wf (.signal st) = true ∧ bitAt (stageAct s0 st) 0 = true) ∧
    (let st : Stage := { stage5 with a := 0#6, b := 55#6 }
     wf (.cmd st) = true ∧ wf (.fork st) = true ∧ bitAt (stageAct s0 st) 0 = true ∧ (getCe s0 4#12).cmdq.length < 4 ∧
      let x : CmdEntry := .fork 0#3 1#16 none 0#6 false
      (getCe (setCe s0 4#12 { getCe s0 4#12 with cmdq := [x, x, x] }) 4#12).cmdq.length < 4) := by decide +kernel

/-- RDSYS reads NFAULT's neighbours: HYP (2) and GROUP (3) of the task, and number 7 reads 0 (R302). -/
theorem test_rdsys :
    (let s := withTask (fun k => { k with hyp := 9#6, group := 77#32 }) s0
     (sysReg s 4#12 0#3 2, sysReg s 4#12 0#3 3, sysReg s 4#12 0#3 4, sysReg s 4#12 0#3 7, sysReg s 4#12 0#3 0x40)) =
      (9#32, 77#32, 4#32, 0#32, 0#32) := by decide +kernel

theorem witness_TrapEntry :
    (wf (.trap { stage5 with a := 63#6 }) = true ∧ bitAt (stageAct s0 { stage5 with a := 63#6 }) 0 = true ∧ isLogitKernel s0 4#12 0#3 = false) ∧
    (let s := putFrame s0 4#12 1 0 8 ((1#8).setWidth 256 <<< 36)
     bitAt (stageAct s { stage5 with a := 63#6 }) 0 = true ∧ isLogitKernel s 4#12 0#3 = true ∧ (getTask s 4#12 0#3).rowAborted = false) := by
  decide +kernel

theorem witness_FenceAndBreak :
    (wf (.fence { stage5 with a := 56#6 }) = true ∧ bitAt (stageAct s0 { stage5 with a := 56#6 }) 0 = true) ∧
    (let s := withTask (fun k => { k with fence := true }) s0
     (getTask s 4#12 0#3).fence = true ∧ releasePending s 4#12 = false) ∧
    (let s : State := { s0 with hub := { s0.hub with dbg := some 1 } }
     wf (.brk stage5) = true ∧ bitAt (stageAct s stage5) 0 = true ∧ ownerOf s 4#12 0 = some inst0 ∧ s.hub.dbg = some inst0.id) := by
  decide +kernel

theorem witness_TaskEvents :
    (let s := pushBuf (withTask (fun k => { k with st := .asleep, trig := some 0#3 }) sTask) (endKey 4#12 0) tokV 0
     (getTask s 4#12 0#3).trig = some 0#3 ∧ (getTask s 4#12 0#3).st = .asleep ∧ (ceHead s 4#12 0).isSome = true ∧
      (getCe s 4#12).halted = false ∧ dieStops s 4#12 = false ∧ regionRuns (ownerOf s 4#12 0) = true) ∧
    (let s := withTask (fun k => { k with orphaned := true }) sRun
     ceMayFire s 4#12 = true ∧ (getTask s 4#12 0#3).orphaned = true ∧ nextTask s 4#12 = some 0#3) ∧
    (let n : Node := { node0 with firmware := true, lrec := setBits 0#2048 264 7#3 }
     let g : GenReq := ⟨0, [], 1, 0#32, 50, 0#32, [], [0#2048], [], 6#12, 64, [], 1#2⟩
     let s := putFrame (withTask (fun k => { k with rowAt := some 3 })
       { s0 with cycle := 14#64, dist := { s0.dist with nodes := [n], gens := [g] } }) 4#12 1 0 8
       ((10#32).setWidth 256 <<< 96 ||| (1#8).setWidth 256 <<< 36)
     (getTask s 4#12 0#3).rowAt = some 3 ∧ isLogitKernel s 4#12 0#3 = true ∧ (bits (taskDesc s 4#12 0) 96 32).toNat < now s - 3 ∧
      (getTask s 4#12 0#3).rowAborted = false ∧ (getTask s 4#12 0#3).rowDrop = false ∧ (getTask s 4#12 0#3).rowOut = none ∧
      nodeOf s 4#12 0 = some n ∧ s.dist.gens.find? (fun g => g.owns n) = some g) := by decide +kernel

theorem witness_BundleFiring :
    ceMayFire sRun 4#12 = true ∧ nextTask sRun 4#12 = some 0#3 ∧ (getTask sRun 4#12 0#3).orphaned = false ∧ allDone sRun 4#12 = false := by
  decide +kernel

/-! ## Address generators -/

/-- AG 0 of the MT at site 6. -/
def ag0 : AgAt := ⟨6#12, 0#1⟩
/-- The machine in which that AG runs. -/
def withAg (f : Ag → Ag) (s : State) : State := setAg s ag0 (f { Ag.empty with st := .running })
/-- DIRECT to port 0 (R233). -/
def direct (s : State) : State := putFrame s 6#12 3 0 8 0x10#256
/-- An out channel on VC 4 of L0 (R233). -/
def outCh (s : State) : State := putFrame s 6#12 3 0 8 0x4000#256
/-- The descriptor of port 0: an opcode and OPARG (R231). -/
def portWith (opc : BitVec 8) (oparg : BitVec 48) (s : State) : State := putFrame s 6#12 2 0 0 ((opc ++ 0#8 ++ oparg).setWidth 256)

/-- A level whose counter reaches its count closes and the program goes on (R331). -/
theorem test_aend_closes :
    (match exec (.aend ag0 5#3) (withAg (fun a => { a with pc := 9#5, g := vset a.g 5 3#25, cnt := vset a.cnt 5 4#25, opened := 0x20#6 }) s0) with
      | .next t => ((getAg t ag0).pc, vget 9#25 (getAg t ag0).g 5, (getAg t ag0).opened)
      | _ => (0#5, 0#25, 0#6)) = (10#5, 0#25, 0#6) := by decide +kernel

/-- The address of the worked example of R372: base 0x40_0400, g0 = 2 at a stride of 64 bytes and DISP 0 give 0x40_0480. -/
theorem test_emission_address :
    ({ Ag.empty with base := 0x400400#56, opened := 1#6, g := vset Ag.empty.g 0 2#25, str := vset Ag.empty.str 0 64#30 } : Ag).addr 0#48 =
      0x400480#56 := by decide +kernel

theorem witness_GeneratorWords :
    agRuns (withAg id s0) ag0 = true ∧ agRuns (withAg (fun a => { a with st := .heldGrp }) s0) ag0 = true ∧ (5#3 : BitVec 3).toNat < 6 := by
  decide +kernel

theorem witness_GeneratorInputs :
    let s := withAg id (outCh s0)
    (headToTake (pushBuf s (agCtl ag0) tokS 0) (agCtl ag0) = some tokS ∧ tokS.ctrl = false ∧ agRuns (pushBuf s (agCtl ag0) tokS 0) ag0 = true) ∧
    (let t := pushBuf s (agCtl ag0) (tokC cEOS) 0
     headToTake t (agCtl ag0) = some (tokC cEOS) ∧ (tokC cEOS).code = some 3#8 ∧ agSends t ag0 = true ∧ agRuns t ag0 = true) ∧
    ((getAg s ag0).eos = false ∧ agNode s ag0 = some node0 ∧
      nextGroup node0 0#2 = some (0, { node0 with given := 1, ranges := [⟨0#2, 0, 1, 1⟩] })) ∧ agSends s ag0 = true ∧
    (let t := withAg (fun a => { a with eos := true }) (outCh s0)
     agRuns t ag0 = true ∧ (getAg t ag0).eos = true ∧ agSends t ag0 = true) := by decide +kernel

theorem witness_Emission :
    (let s := withAg id (outCh s0)
     agRuns s ag0 = true ∧ agDirect s ag0 = false ∧ agSends s ag0 = true ∧ (getAg s ag0).cren = false) ∧
    (let s := withAg (fun a => { a with cren := true, cr := 1#16 }) (direct (portWith 5#8 0#48 s0))
     agRuns s ag0 = true ∧ agDirect s ag0 = true ∧ (getAg s ag0).repair = none ∧
      emitCheck s ag0 ((getAg s ag0).addr 786428#48).toNat = (s, .go none) ∧ agSends s ag0 = true ∧ (getAg s ag0).cr ≠ 0#16 ∧
      issueFault s ag0 none = none) ∧
    (let s := withAg (fun a => { a with repair := some 1#2 }) (direct s0)
     agRuns s ag0 = true ∧ agDirect s ag0 = true ∧ (getAg s ag0).repair = some 1#2 ∧ agSends s ag0 = true ∧ (getAg s ag0).cren = false) := by decide +kernel

theorem witness_AlignmentFault :
    let s := withAg id (direct (portWith 1#8 0#48 s0))
    agRuns s ag0 = true ∧ agDirect s ag0 = true ∧ (getAg s ag0).repair = none ∧
      addrless (portDescOf s (agPort s ag0)).1 (portDescOf s (agPort s ag0)).2 = false ∧
      ((getAg s ag0).addr 3#48).toNat % accAlign (portDescOf s (agPort s ag0)).1 (portDescOf s (agPort s ag0)).2 ≠ 0 := by decide +kernel

/-- A walk of AG 0 for virtual address 0x5123 at die 0. -/
def walk00 : Walk := ⟨.ag ag0, 5#16, 0, 1#10, 0x5123#56, false, none, false⟩
/-- Tables with a leaf for page 5: the level-3 entry at PTROOT 0 names level 2 at 0x8000, that level 1 at 0x10000, that level 0 at 0x11000,
whose entry 5 maps the page to 0x20000 with W (R94). -/
def sTables : State :=
  setDie { s0 with store := { s0.store with mem :=
    [(0, 0x01#8), (1, 0x80#8), (0x8000, 0x01#8), (0x8002, 0x01#8), (0x10000, 0x01#8), (0x10001, 0x10#8), (0x10002, 0x01#8),
     (0x11028, 0x0B#8), (0x1102A, 0x02#8)] } } 0#2 { Die.empty with walks := [walk00] }

/-- An answer that is a given one, by a test that computes. -/
theorem except_of_test {ε α : Type} [DecidableEq ε] [DecidableEq α] (x y : Except ε α)
    (h : (match x, y with
      | .ok a, .ok b => decide (a = b)
      | .error a, .error b => decide (a = b)
      | _, _ => false) = true) : x = y := by
  cases x <;> cases y <;> simp_all

/-- The same tables with a host page (TYPE 1) as page 5, and these walks at die 0. -/
def sHostPage (ws : List Walk) : State :=
  setDie { sTables with store := { sTables.store with mem :=
    [(0, 0x01#8), (1, 0x80#8), (0x8000, 0x01#8), (0x8002, 0x01#8), (0x10000, 0x01#8), (0x10001, 0x10#8), (0x10002, 0x01#8),
     (0x11028, 0x4B#8), (0x1102A, 0x02#8)] } } 0#2 { Die.empty with walks := ws }

theorem witness_Walks :
    (walkTables sTables walk00.root walk00.va.toNat = .ok ⟨0x2000B#64, 0x11028, 12⟩ ∧
      sTables.opnd 0 2 = 0#2 ∧ (getDie sTables 0#2).served[(sTables.opnd 2 8 : BitVec 8).toNat]? = some walk00 ∧
      leafPermits ⟨0x2000B#64, 0x11028, 12⟩ walk00.needW = true ∧ bitAt (0x2000B#64) 8 = false ∧ entType 0x2000B#64 ≠ 1#2) ∧
    (let s := sHostPage [walk00]
     walkTables s walk00.root walk00.va.toNat = .ok ⟨0x2004B#64, 0x11028, 12⟩ ∧
      (getDie s 0#2).served[(s.opnd 2 8 : BitVec 8).toNat]? = some walk00 ∧
      leafPermits ⟨0x2004B#64, 0x11028, 12⟩ walk00.needW = true ∧ bitAt (0x2004B#64) 8 = false ∧ entType 0x2004B#64 = 1#2 ∧
      walk00.ats = none ∧ walk00.parked = false ∧ (getDie s 0#2).onAts.length < 64) ∧
    (let s := sHostPage (walk00 :: List.replicate 64 { walk00 with va := 0x6000#56, ats := some 3 })
     walkTables s walk00.root walk00.va.toNat = .ok ⟨0x2004B#64, 0x11028, 12⟩ ∧
      (getDie s 0#2).served[(s.opnd 2 8 : BitVec 8).toNat]? = some walk00 ∧ 64 ≤ (getDie s 0#2).onAts.length) ∧
    (let s := setDie s0 0#2 { Die.empty with walks := [walk00] }
     walkTables s walk00.root walk00.va.toNat = .error .transNp ∧
      (getDie s 0#2).served[(s.opnd 2 8 : BitVec 8).toNat]? = some walk00) ∧
    (let w : Walk := { walk00 with ats := some 3 }
     let s := setDie { s0 with cycle := 200000003#64 } 0#2 { Die.empty with walks := [w] }
     (getDie s 0#2).walks.find? (fun w => match w.ats with
      | some t => decide (t + s.hub.atsMs.toNat * msCycles ≤ now s)
      | none => false) = some w) :=
  ⟨⟨except_of_test _ _ (by decide +kernel), by decide +kernel⟩, ⟨except_of_test _ _ (by decide +kernel), by decide +kernel⟩,
   ⟨except_of_test _ _ (by decide +kernel), by decide +kernel⟩, ⟨except_of_test _ _ (by decide +kernel), by decide +kernel⟩, by decide +kernel⟩

theorem witness_Credits :
    (let s := setCe sEnds 4#12 { Ce.empty with notices := vset Ce.empty.notices 7 [(0, 3)] }
     vget [] (getCe s 4#12).notices 7 = [(0, 3)] ∧ regionRuns (ownerOf s 4#12 0) = true ∧
      (getCe s 4#12).halted = false ∧ (getMt s 4#12).halted = false ∧ dieStops s 4#12 = false ∧ sendReady s 4#12 8 (bits (ceEnd s 4#12 7) 12 4).toNat = true) ∧
    (let s := setPort s0 ⟨6#12, 7#3⟩ { Port.empty with notices := [(0, 2)] }
     (getPort s ⟨6#12, 7#3⟩).notices = [(0, 2)] ∧ regionRuns (ownerOf s 6#12 0) = true ∧
      (getCe s 6#12).halted = false ∧ (getMt s 6#12).halted = false ∧ dieStops s 6#12 = false ∧ sendReady s 6#12 8 0 = true) ∧
    (let s := pushBuf s0 (agCtl ag0) (tokC (cFREED 4)) 0
     headToTake s (agCtl ag0) = some (tokC (cFREED 4)) ∧ (tokC (cFREED 4)).isCode 0x20#8 = true ∧ regionRuns (agOwner s ag0) = true ∧
      (getAg s ag0).halted = false ∧ dieStops s 6#12 = false) ∧
    (let s := setCp (pushBuf s0 (endKey 103#12 2) (tokC (cFREED 4)) 0) 103#12 { Cp.empty with running := true }
     headToTake s (endKey 103#12 2) = some (tokC (cFREED 4)) ∧ regionRuns (ownerOf s 103#12 0) = true ∧ (getCp s 103#12).running = true ∧
      (getCp s 103#12).halted = false ∧ dieStops s 103#12 = false) ∧
    (let n : Node := { node0 with groups := 4, given := 4 }
     let i : Inst := { inst0 with quiescent := true }
     let s := withAg (fun a => { a with st := .heldGrp }) (withNode n (withInst i s0))
     findNode s 0 = some n ∧ n.groups ≤ n.given ∧ n.reissue = [] ∧ (getAg s ag0).st = .heldGrp ∧ ag0 ∈ instAgs i ∧
      s.dist.insts.filter (fun i => decide (i.node = n.id) && decide (i.st ≠ .ended)) = [i] ∧ allHeld s n i = true ∧ i.quiescent = true) := by
  decide +kernel

/-! ## Routers -/

/-- The operator slot 0 of the MT at site 6, and its input buffers. -/
def op00 : OpAt := ⟨6#12, 0#2⟩
/-- A token stands at an input of that operator. -/
def opIn (i : Nat) (t : Token) (s : State) : State := pushBuf s (opInKey 6#12 0 i) t 0
/-- Two outputs, to E on VC 4 and to E on VC 5. -/
def cfg2 : OpCfg := ⟨1#4, 2#5, 0x1514#128, 0x21#96⟩
/-- Die 0 knows the page of tenant 5 at 0, 64 KiB at module address 0x20000. -/
def withTlb (s : State) : State := setDie s 0#2 { Die.empty with tlb := [⟨5#16, 0, 16, 0#2, 0#12, 0x20000, true, true⟩] }
/-- REPLAY at BUF 0x80 through the MT of site 6, one token long, to E on VC 4 (R306). -/
def cfgReplay : OpCfg := ⟨1#4, 1#5, 0x14#128, 0x80#56 ++ 0#11 ++ 1#1 ++ 6#12 ++ 0#16⟩
/-- That slot frame (R239). -/
def replayFrame : BitVec 256 := cfgReplay.opt ++ cfgReplay.outs ++ 0#19 ++ cfgReplay.nout ++ cfgReplay.nin ++ 6#4

/-- STEER with INV sends a token whose predicate is 1 to output 0 (R307). -/
theorem test_steer_inv :
    (match exec (.steer op00 { cfg2 with opt := 1#96 }) (opIn 0 tokV (opIn 1 tokS s0)) with
      | .next t => (getOp t op00).outq.map fun x => x.1
      | _ => [9]) = [0] := by decide +kernel

theorem witness_OperatorFirings :
    (let s := opIn 0 tokV (opIn 1 tokS (opIn 2 tokS s0))
     opRuns s op00 = true ∧ opHead s op00 1 = some tokS ∧ tokS.ctrl = false ∧ opHead s op00 0 = some tokV ∧ tokV.ctrl = false ∧
      opRoom s op00 cfg2 0 = true ∧ opRoom s op00 cfg2 1 = true ∧ opHead s op00 2 = some tokS ∧ (getOp s op00).initDue = none ∧
      opRoomAll s op00 cfg2 2 = true) ∧
    (let s := opIn 0 (tokC cEOS) s0
     opHead s op00 1 = none ∧ opHead s op00 0 = some (tokC cEOS) ∧ (tokC cEOS).ctrl = true ∧ opRoomAll s op00 cfg2 2 = true ∧ opRuns s op00 = true) ∧
    (let s := opIn 1 (tokC cEOT) s0
     opHead s op00 1 = some (tokC cEOT) ∧ (tokC cEOT).ctrl = true ∧ opRuns s op00 = true) ∧
    (let s := opIn 2 (tokC cEOT) s0
     opHead s op00 2 = some (tokC cEOT) ∧ (tokC cEOT).ctrl = true ∧ opRuns s op00 = true) ∧
    (let s := setOp s0 op00 { OpRun.empty with initDue := some (3#6, false) }
     (getOp s op00).initDue = some (3#6, false) ∧ opRoom s op00 cfg2 0 = true ∧ opRuns s op00 = true) := by decide +kernel

theorem witness_WidenAndReplay :
    (let s := opIn 0 tokV s0
     opRuns s op00 = true ∧ opHead s op00 0 = some tokV ∧ (getOp s op00).widen = .idle) ∧
    (let s := opIn 0 tokV (setOp s0 op00 { OpRun.empty with widen := .released 0 })
     opRuns s op00 = true ∧ opHead s op00 0 = some tokV ∧ (getOp s op00).widen = .released 0 ∧ opRoom s op00 cfg2 0 = true) ∧
    (let s := setOp s0 op00 { OpRun.empty with widen := .releasing }
     (getOp s op00).widen = .releasing ∧ writesAway s (instNo (widenSender s op00)) = false) ∧
    (let s := opIn 0 (tokC cEOS) s0
     opRuns s op00 = true ∧ opHead s op00 0 = some (tokC cEOS) ∧ (tokC cEOS).isCode 3#8 = true ∧ (getOp s op00).lap2 = false ∧
      opRoom s op00 cfgReplay 0 = true) ∧
    (let s := opIn 0 tokS (setOp s0 op00 { OpRun.empty with recorded := 1 })
     opRuns s op00 = true ∧ opHead s op00 0 = some tokS ∧ tokS.isCode 3#8 = false ∧ (bits cfgReplay.opt 0 16).toNat + 1 ≤ (getOp s op00).recorded ∧
      (getOp s op00).lap2 = false ∧ opRoom s op00 cfgReplay 0 = true) ∧
    (let s := opIn 0 tokS (withTlb s0)
     opRuns s op00 = true ∧ opHead s op00 0 = some tokS ∧ (getOp s op00).recorded < (bits cfgReplay.opt 0 16).toNat + 1 ∧
      (getOp s op00).late = [] ∧
      (replayXlate (opSend (opPop (recordLate s op00 cfgReplay) op00 0) op00 0 tokS) op00 cfgReplay 0 true).2 = .ok ⟨0#2, 0#12, 0x20080, 16⟩ ∧ (getOp s op00).lap2 = false ∧
      opRoom s op00 cfgReplay 0 = true) ∧
    (let s := setOp (withTlb (putFrame s0 6#12 4 0 16 replayFrame)) op00 { OpRun.empty with lap2 := true, recorded := 1 }
     opRuns s op00 = true ∧ (getOp s op00).lap2 = true ∧ opRoom s op00 (opCfgOf s op00) 0 = true ∧ (getOp s op00).emitted < (getOp s op00).recorded ∧
      (getOp s op00).late = [] ∧
      lapTwoToken s op00 (opCfgOf s op00) = (s, some (scalarTok 0#32 0#6 false false))) ∧
    (let s := setOp (putFrame s0 6#12 4 0 16 replayFrame) op00 { OpRun.empty with lap2 := true, recorded := 1, emitted := 1 }
     opRuns s op00 = true ∧ (getOp s op00).lap2 = true ∧ opRoom s op00 (opCfgOf s op00) 0 = true ∧ (getOp s op00).late = [] ∧ (getOp s op00).recorded ≤ (getOp s op00).emitted) := by
  decide +kernel

/-- The machine with a token at the local router input of site 4 on VC 4, routed to E on VC 5 (R238). -/
def sLink : State :=
  let s := pushBuf s0 (inKey 4#12 8 4) tokV 0
  { s with fab := { s.fab with routes := [(inKey 4#12 8 4, some ⟨1, 0x8540#16⟩), (inKey 5#12 3 5, some ⟨1, 0x8540#16⟩)] } }

theorem witness_LinkTransfer :
    ((getOut sLink 4#12 1).usedNext ≤ now sLink ∧
      winner (getOut sLink 4#12 1).rr (candidates sLink 4#12 1) = some ⟨132, inKey 4#12 8 4, 0, tokV, ⟨inKey 5#12 3 5, 2, 1, none⟩⟩) ∧
    (let s1 := putFrame s0 6#12 4 0 16 replayFrame
     let s := setOp { s1 with fab := { s1.fab with routes := [(inKey 7#12 3 4, some ⟨1, 0x8540#16⟩)] } } op00 { OpRun.empty with outq := [(0, tokS, 0)] }
     (getOut s 6#12 1).usedNext ≤ now s ∧
      winner (getOut s 6#12 1).rr (candidates s 6#12 1) = some ⟨160, 0, 0, tokS, ⟨inKey 7#12 3 4, 2, 1, none⟩⟩) ∧
    (let j : Inst := { inst0 with id := 2, onto := some 1, switched := true }
     let s1 : State := { sEnds with cycle := 5#64, dist := { sEnds.dist with insts := [inst0, j] } }
     let s := pushBuf (pushBuf s1 (endKey 4#12 0) (tokC (cSWITCH 1#24)) 0) (endKey 4#12 4) (tokC (cSWITCH 1#24)) 0
     siteKind 4#12 = .ce ∧ flipPair s 16 = some (inst0, j) ∧ regionRuns (some inst0) = true ∧
      ((List.range 8).filter fun e => bitAt (ceEnd s 4#12 e) 0) = [0, 4] ∧ switchStood s (endKey 4#12 0) = true ∧
      switchStood s (endKey 4#12 4) = true ∧ (getCe s 4#12).notices.all (fun x => x.isEmpty) = true ∧ nextTask s 4#12 = none ∧
      (getCe s 4#12).tasks.all (fun k => !k.fence) = true ∧ (getCe s 4#12).cmdq = [] ∧ (getCe s 4#12).firedNext ≤ now s ∧
      outsRoom s 4#12 (ceOuts s 4#12) = true) := by decide +kernel

/-! ## Memory-tile ports -/

/-- Port 0 of the MT at site 6, with its reply channel in use (R232). -/
def loc0 : PortAt := ⟨6#12, 0#3⟩
/-- A request of AG 0 at that port with its data tokens, of which the last one is still to be taken. -/
def asks (va : BitVec 56) (refuted : Bool) (ts : List Token) (s : State) : State :=
  (ts.drop (ts.length - 1)).foldl (fun s t => pushBuf s (endKey 6#12 0) t 0)
    (setPort (putFrame s 6#12 2 0 0 ((0x100000#64 ++ 0#64).setWidth 256)) loc0
      { Port.empty with reqs := [⟨va, 0xFFFF#16, 0#6, refuted, none, none, 0#2, 0⟩], part := ts.take (ts.length - 1) })
/-- The state with the request's tokens taken. -/
def took (opc : BitVec 8) (d : PortDesc) (s : State) : State := (gather s loc0 opc d).1
/-- The request with the operand X, and Y where its operand token is `tokV`. -/
def preq (va : Nat) (x : Word) (refuted : Bool) (ts : List Token) : PReq := ⟨va, x, if x = 7#32 then 7#32 else 0#32, x, 0xFFFF#16, 0#6, refuted, ts, none, 0#2⟩
/-- A vector access; one of a row of two blocks; one of the scratchpad; a hint that allocates. -/
def portWid : PortDesc := { port0 with oparg := 0x800000000000#48 }
def portRow : PortDesc := { port0 with oparg := 0x880000000000#48 }
def portSpRow : PortDesc := { port0 with oparg := 0x888000000000#48 }
def portAll : PortDesc := { port0 with oparg := 0x804000000000#48 }
/-- Die 0 knows the page of tenant 5 at 0 as a page of peer 7. -/
def withPeer (s : State) : State := setDie s 0#2 { Die.empty with tlb := [⟨5#16, 0, 16, 2#2, 7#12, 0x20000, true, true⟩] }

/-- SPADD adds to the word at its address and answers the sum of a scalar access, here without a reply channel (R320). -/
theorem test_spadd :
    (match exec (.spadd loc0 port0) (asks 786428#56 false [tokS] s0) with
      | .next t => spadWord t 6#12 786428
      | _ => 9#32) = 1#32 := by decide +kernel

/-- SYNC_ADD at the target takes the target off, raises GEN and leaves TARGET (R85). -/
theorem test_sync_add :
    (let s := setMt (setSpadWord s0 6#12 256 256#32) 6#12 { Mt.empty with syncq := [(256, 256)] }
     match exec (.syncAdd 6#12) s with
      | .next t => (syncTarget t 6#12 256, syncCount t 6#12 256, syncGen t 6#12 256)
      | _ => (0#32, 0#32, 0#32)) = (256#32, 0#32, 1#32) := by decide +kernel

theorem witness_ScratchpadPort :
    (let s := asks 786368#56 false [] s0
     Serves 5#8 loc0 portWid s (took 5#8 portWid s) (preq 786368 0#32 false []) ∧ 786368 % 64 = 0 ∧ 786368 + 64 ≤ spadSize) ∧
    (let s := asks 786428#56 false [tokS] s0
     Serves 6#8 loc0 port0 s (took 6#8 port0 s) (preq 786428 1#32 false [tokS]) ∧ 786428 + 4 ≤ spadSize ∧
      NoWait (took 6#8 port0 s) 6#12 786428 ∧ rowBusy (took 6#8 port0 s) loc0 (preq 786428 1#32 false [tokS]) = false) ∧
    (let s := asks 0#56 false [tokV] s0
     Serves 7#8 loc0 portWid s (took 7#8 portWid s) (preq 0 7#32 false [tokV]) ∧ NoWait (took 7#8 portWid s) 6#12 0 ∧
      rowBusy (took 7#8 portWid s) loc0 (preq 0 7#32 false [tokV]) = false) ∧
    (let s := asks 786369#56 false [tokV] s0
     Serves 5#8 loc0 portWid s (took 5#8 portWid s) (preq 786369 0#32 false []) ∧
      Serves 6#8 loc0 portWid s (took 6#8 portWid s) (preq 786369 7#32 false [tokV]) ∧
      Serves 7#8 loc0 portWid s (took 7#8 portWid s) (preq 786369 7#32 false [tokV]) ∧ 786369 % 64 ≠ 0) := by
  refine ⟨⟨?_, ?_, ?_⟩, ⟨?_, ?_, ?_, ?_⟩, ⟨?_, ?_, ?_⟩, ⟨?_, ?_, ?_, ?_⟩⟩ <;> first | decide +kernel | (unfold Serves; decide +kernel) | (unfold NoWait; decide +kernel)

theorem witness_GlobalAccess :
    (let s := asks 64#56 false [] (withTlb s0)
     Serves 1#8 loc0 portWid s (took 1#8 portWid s) (preq 64 0#32 false []) ∧
      portXlates (took 1#8 portWid s) loc0 (preq 64 0#32 false []) false 64 1 = (took 1#8 portWid s, .ok [⟨0#2, 0#12, 0x20040, 16⟩]) ∧
      homeIsPeer (homeKey ⟨0#2, 0#12, 0x20040, 16⟩) = false) ∧
    (let s := asks 64#56 false [] (withPeer s0)
     Serves 1#8 loc0 portWid s (took 1#8 portWid s) (preq 64 0#32 false []) ∧
      portXlates (took 1#8 portWid s) loc0 (preq 64 0#32 false []) false 64 1 = (took 1#8 portWid s, .ok [⟨2#2, 7#12, 0x20040, 16⟩]) ∧
      loadHits (took 1#8 portWid s) 6#12 (homeKey ⟨2#2, 7#12, 0x20040, 16⟩) 0#8 0#6 (needMask true 64) = false ∧
      homeIsPeer (homeKey ⟨2#2, 7#12, 0x20040, 16⟩) = true) ∧
    (let s := asks 64#56 false [] (withTlb s0)
     Serves 2#8 loc0 portWid s (took 2#8 portWid s) (preq 64 0#32 false []) ∧
      portXlates (took 2#8 portWid s) loc0 (preq 64 0#32 false []) false 64 1 = (took 2#8 portWid s, .ok [⟨0#2, 0#12, 0x20040, 16⟩]) ∧
      lineOf (getMt (took 2#8 portWid s) 6#12) 0x20040 0#8 0#6 = none) ∧
    (let s := asks 64#56 false [tokV] (withTlb s0)
     Serves 3#8 loc0 portWid s (took 3#8 portWid s) (preq 64 7#32 false [tokV]) ∧
      portXlates (took 3#8 portWid s) loc0 (preq 64 7#32 false [tokV]) true 64 1 = (took 3#8 portWid s, .ok [⟨0#2, 0#12, 0x20040, 16⟩]) ∧
      (⟨64, 0x20040, 0#6, false, storeData 3#8 portWid 64 0xFFFF#16 tokV tokV⟩ : StOne).goes portWid = false ∧
      ovlStop (took 3#8 portWid s) loc0 [(0#6, 0x20040)] = none) ∧
    (let s := asks 64#56 false [tokS, tokV] (withTlb s0)
     Serves 4#8 loc0 portWid s (took 4#8 portWid s) (preq 64 7#32 false [tokS, tokV]) ∧
      portXlates (took 4#8 portWid s) loc0 (preq 64 7#32 false [tokS, tokV]) true 64 1 = (took 4#8 portWid s, .ok [⟨0#2, 0#12, 0x20040, 16⟩]) ∧
      (⟨64, 0x20040, 0#6, false, storeData 4#8 portWid 64 0xFFFF#16 tokS tokV⟩ : StOne).goes portWid = false ∧
      ovlStop (took 4#8 portWid s) loc0 [(0#6, 0x20040)] = none) ∧
    (let s := asks 64#56 false [tokV] (withPeer s0)
     Serves 3#8 loc0 portWid s (took 3#8 portWid s) (preq 64 7#32 false [tokV]) ∧
      portXlates (took 3#8 portWid s) loc0 (preq 64 7#32 false [tokV]) true 64 1 = (took 3#8 portWid s, .ok [⟨2#2, 7#12, 0x20040, 16⟩]) ∧
      (⟨64, homeKey ⟨2#2, 7#12, 0x20040, 16⟩, 0#6, false, storeData 3#8 portWid 64 0xFFFF#16 tokV tokV⟩ : StOne).goes portWid = true) ∧
    (Serves 1#8 loc0 port0 (asks 4#56 true [] s0) (took 1#8 port0 (asks 4#56 true [] s0)) (preq 4 0#32 true []) ∧
      (let k : Token := { tokS with refuted := true }
       Serves 3#8 loc0 port0 (asks 4#56 true [k] s0) (took 3#8 port0 (asks 4#56 true [k] s0)) (preq 4 1#32 true [k]) ∧
       Serves 2#8 loc0 port0 (asks 4#56 true [] s0) (took 2#8 port0 (asks 4#56 true [] s0)) (preq 4 0#32 true []) ∧
       Serves 4#8 loc0 port0 (asks 4#56 true [tokS, k] s0) (took 4#8 port0 (asks 4#56 true [tokS, k] s0)) (preq 4 1#32 true [tokS, k]))) := by
  refine ⟨⟨?_, ?_, ?_⟩, ⟨?_, ?_, ?_, ?_⟩, ⟨?_, ?_, ?_⟩, ⟨?_, ?_, ?_, ?_⟩, ⟨?_, ?_, ?_, ?_⟩, ⟨?_, ?_, ?_⟩, ⟨?_, ?_, ?_, ?_⟩⟩ <;> first
    | decide +kernel
    | (unfold Serves; decide +kernel)
    | exact Prod.ext (by decide +kernel) (except_of_test _ _ (by decide +kernel))

theorem witness_Atomics :
    (∀ c : BitVec 8, c ∈ atomics.map (fun e => e.2.1) →
      let s := asks 64#56 false [tokS] (withTlb s0)
      Serves c loc0 port0 s (took c port0 s) (preq 64 1#32 false [tokS]) ∧
        portXlates (took c port0 s) loc0 (preq 64 1#32 false [tokS]) true 64 1 = (took c port0 s, .ok [⟨0#2, 0#12, 0x20040, 16⟩]) ∧
        homeIsPeer 0x20040 = false ∧ homeIsHost 0x20040 = false ∧ ovlStop (took c port0 s) loc0 [(0#6, 0x20040)] = none) ∧
    (let s := asks 0xFF80#56 false [tokV, tokV] (withTlb s0)
     let r := preq 0xFF80 7#32 false [tokV, tokV]
     let ts : List Trans := [⟨0#2, 0#12, 0x2FF80, 16⟩, ⟨0#2, 0#12, 0x2FFC0, 16⟩]
     let b := asks 0xFF80#56 false [] (withTlb s0)
     Serves 0x11#8 loc0 portRow b (took 0x11#8 portRow b) (preq 0xFF80 0#32 false []) ∧
      portXlates (took 0x11#8 portRow b) loc0 (preq 0xFF80 0#32 false []) false 0xFF80 2 = (took 0x11#8 portRow b, .ok ts) ∧
      Serves 0x12#8 loc0 portRow s (took 0x12#8 portRow s) r ∧
      portXlates (took 0x12#8 portRow s) loc0 (rowReq r) true 0xFF80 2 = (took 0x12#8 portRow s, .ok ts) ∧
      ovlStop (took 0x12#8 portRow s) loc0 (((rowStores 0x12#8 portRow r.mask r.va ts r.toks).filter fun x => !x.refuted).map fun x => (x.hyp, x.home)) = none ∧
      (∃ k, k ∈ r.toks ∧ k.refuted = false) ∧
      Serves 0x13#8 loc0 portRow s (took 0x13#8 portRow s) r ∧
      portXlates (took 0x13#8 portRow s) loc0 (rowReq r) true 0xFF80 2 = (took 0x13#8 portRow s, .ok ts) ∧
      ovlStop (took 0x13#8 portRow s) loc0 ((((ts.map homeKey).zip r.toks).filter fun x => !x.2.refuted).map fun x => (x.2.hyp, x.1)) = none ∧
      ((ts.map homeKey).all fun h => !homeIsPeer h) = true ∧ portRow.rows = 2 ∧ 0xFF80 % 2 ^ 16 + 64 * 2 ≤ 2 ^ 16) ∧
    (let s := asks 786304#56 false [tokV, tokV] s0
     let r := preq 786304 7#32 false [tokV, tokV]
     let b := asks 786304#56 false [] s0
     Serves 0x11#8 loc0 portSpRow b (took 0x11#8 portSpRow b) (preq 786304 0#32 false []) ∧
      Serves 0x12#8 loc0 portSpRow s (took 0x12#8 portSpRow s) r ∧ Serves 0x13#8 loc0 portSpRow s (took 0x13#8 portSpRow s) r ∧
      portSpRow.sp = true ∧ 786304 + 64 * portSpRow.rows ≤ spadSize ∧ rowBusy (took 0x12#8 portSpRow s) loc0 r = false) := by
  refine ⟨?_, ⟨?_, ?_, ?_, ?_, ?_, ?_, ?_, ?_, ?_, ?_, ?_, ?_⟩, ⟨?_, ?_, ?_, ?_, ?_, ?_⟩⟩
  · intro c hc
    simp only [atomics, List.map_cons, List.map_nil, List.mem_cons, List.not_mem_nil, or_false] at hc
    rcases hc with rfl | rfl | rfl | rfl | rfl | rfl | rfl | rfl | rfl <;>
    exact ⟨by unfold Serves; decide +kernel, Prod.ext (by decide +kernel) (except_of_test _ _ (by decide +kernel)), by decide +kernel⟩
  all_goals first
    | decide +kernel
    | (unfold Serves; decide +kernel)
    | exact Prod.ext (by decide +kernel) (except_of_test _ _ (by decide +kernel))

/-- SYNCW with SFIX on the word at 0x100. -/
def portSync0 : PortDesc := { port0 with oparg := 0x001001000000#48 }

theorem witness_SyncWords :
    (let s := asks 786416#56 false [tokS] s0
     Serves 0x14#8 loc0 port0 s (took 0x14#8 port0 s) (preq 786416 1#32 false [tokS]) ∧ 786416 % 16 = 0 ∧ 786416 + 16 ≤ spadSize ∧
      (getMt (took 0x14#8 port0 s) 6#12).waiters = [] ∧ syncBusy (took 0x14#8 port0 s) 6#12 786416 16 = false) ∧
    (let k : Token := scalarTok 0xFFFFFFFF#32 0#6 false false
     let s := asks 0#56 false [k] s0
     let u := took 0x15#8 portSync0 s
     Serves 0x15#8 loc0 portSync0 s u (preq 0 0xFFFFFFFF#32 false [k]) ∧ portSync0.sfix = true ∧ portSync0.soff.toNat = 256 ∧
      freeSlot (getMt u 6#12) = some 0 ∧ (syncGen u 6#12 256).toNat + 2 ^ 32 - 0xFFFFFFFF = 1 ∧ (getMt u 6#12).waiters = []) ∧
    (let s := asks 0#56 false [tokS] s0
     let u := took 0x15#8 port0 s
     Serves 0x15#8 loc0 port0 s u (preq 0 1#32 false [tokS]) ∧ freeSlot (getMt u 6#12) = some 0 ∧
      ¬ (((syncGen u 6#12 0).toNat + 2 ^ 32 - 1) % 2 ^ 32 < 2 ^ 31) ∧ (getMt u 6#12).waiters = []) ∧
    (let s := setMt s0 6#12 { Mt.empty with syncq := [(256, 64)] }
     (getMt s 6#12).syncq = [(256, 64)] ∧ syncFree s 6#12 = true) := by
  refine ⟨⟨?_, ?_, ?_, ?_, ?_⟩, ⟨?_, ?_, ?_, ?_, ?_, ?_⟩, ⟨?_, ?_, ?_, ?_⟩, ?_, ?_⟩ <;> first | decide +kernel | (unfold Serves; decide +kernel)

theorem witness_FlushAndReplies :
    (let s := asks 0#56 false [] s0
     portAll.all = true ∧ Serves 0x17#8 loc0 portAll s (took 0x17#8 portAll s) (preq 0 0#32 false []) ∧
      Serves 0x18#8 loc0 portAll s (took 0x18#8 portAll s) (preq 0 0#32 false [])) ∧
    (let s := asks 0#56 false [] (withTlb s0)
     let r := preq 0 0#32 false []
     let d : PortDesc := { portRow with hint := 4#3 }
     let ts : List Trans := [⟨0#2, 0#12, 0x20000, 16⟩, ⟨0#2, 0#12, 0x20040, 16⟩]
     d.all = false ∧ hintAlloc d.hint = true ∧ Serves 0x17#8 loc0 d s (took 0x17#8 d s) r ∧ Serves 0x18#8 loc0 d s (took 0x18#8 d s) r ∧
      Serves 0x16#8 loc0 d s (took 0x16#8 d s) r ∧ portXlates (took 0x16#8 d s) loc0 r false 0 2 = (took 0x16#8 d s, .ok ts) ∧
      ((ts.map homeKey).all fun h => !homeIsPeer h) = true ∧
      portXlates (took 0x17#8 d s) loc0 r false 0 2 = (took 0x17#8 d s, .ok ts) ∧
      portXlates (took 0x18#8 d s) loc0 r false 0 2 = (took 0x18#8 d s, .ok ts)) ∧
    (let s := asks 0#56 false [] s0
     hintAlloc portRow.hint = false ∧ Serves 0x16#8 loc0 portRow s (took 0x16#8 portRow s) (preq 0 0#32 false [])) ∧
    (let e := ReplyEnt.ready 1#8 0#6 false [tokV]
     let s := setPort (asks 0#56 false [] s0) loc0 { Port.empty with replies := [e] }
     (getPort s loc0).replies.find? (fun e => !e.silent s loc0) = some e ∧ e.landed = true ∧ e.after = [] ∧
      regionRuns (ownerOf s 6#12 0) = true ∧ sendReady s 6#12 (portReply s loc0).1 (portReply s loc0).2 = true) ∧
    (let s := pushBuf (asks 0#56 false [] s0) (endKey 6#12 0) (tokC cEOS) 0
     portMayRun s loc0 = true ∧ headToTake s (endKey 6#12 0) = some (tokC cEOS) ∧ (tokC cEOS).ctrl = true ∧
      (tokC cEOS).isMarkOrSwitch = false ∧ portRused s loc0 = true ∧ (getPort s loc0).part = [] ∧
      (let t := setPort s loc0 { getPort s loc0 with part := [tokV] }
       (getPort t loc0).part ≠ [] ∧ portMayRun t loc0 = true) ∧
      (let t := pushBuf s0 (endKey 6#12 7) (tokC cEOS) 0
       portRused t ⟨6#12, 7#3⟩ = false ∧ portMayRun t ⟨6#12, 7#3⟩ = true ∧ headToTake t (endKey 6#12 7) = some (tokC cEOS))) ∧
    (let e : ReplyEnt := { ReplyEnt.ready 1#8 0#6 false [tokV] with landed := false }
     let a := ReplyEnt.ready 1#8 0#6 false [tokV]
     let s := setPort s0 loc0 { Port.empty with replies := [a, e, a] }
     (getPort s loc0).replies = [a] ++ e :: [a] ∧ a.landed = true ∧ e.landed = false ∧ e.remote = []) := by
  refine ⟨⟨?_, ?_, ?_⟩, ⟨?_, ?_, ?_, ?_, ?_, ?_, ?_, ?_, ?_⟩, ⟨?_, ?_⟩, ?_, ?_, ?_⟩ <;> first
    | decide +kernel
    | (unfold Serves; decide +kernel)
    | exact Prod.ext (by decide +kernel) (except_of_test _ _ (by decide +kernel))

/-! ## Engines -/

/-- Job 7 at an engine: a command word of its own, begun. -/
def jobAt (eng : EngId) (opc : BitVec 8) (ops : BitVec 88) (run : CmdRun) : Job :=
  { newJob eng 0 0 0#6 false false (opc ++ 0#32 ++ ops) none 0#24 with id := 7, started := true, run := run }
/-- The command that its word holds. -/
def cmdFor (ops : BitVec 88) : Cmd := cmdOfWord ((0#40 ++ ops : BitVec 128))
/-- The machine in which that job is the only one. -/
def atJob (j : Job) (s : State) : State := { s with dist := { s.dist with jobs := [j] } }
/-- The MX of site 3, with cmd and data inputs and its out channel on VC 2 (R242), as the running region's. -/
def sMx : State :=
  putFrame { s0 with fab := { s0.fab with owner := (12, 2) :: s0.fab.owner } } 3#12 6 0 0 (0x700020000#256)
/-- A command that its scheduler has started. -/
def runMx : CmdRun := { CmdRun.empty with started := true }
/-- A token whose 16 lanes are +0, as a narrow or raw block. -/
def tokZ (d : BitVec 16) : Token := vectorTok 0#512 0xFFFF#16 d 0#6 false false

/-- MXDRN with CLR at its last row leaves the slot zeroed and its version advanced (R347). -/
theorem test_mxdrn_clears :
    (let c : BitVec 88 := 5#3 ++ 0#26 ++ 1#1 ++ 0#58
     let s := setMx (atJob (jobAt 3#13 0x13#8 c { runMx with i := 4 }) sMx) 3#12 { Mx.empty with acc := [(20480, 7#32), (20544, 9#32)] }
     match exec (.mxdrn 3#13 (cmdFor c)) s with
     | .next t => (accAt (getMx t 3#12) 5 0 0, accAt (getMx t 3#12) 5 1 0, vget 9#16 (getMx t 3#12).ver 5)
     | _ => (9#32, 0#32, 0#16)) = (0#32, 9#32, 1#16) := by decide +kernel

/-- A block poisoned in the weight stream stands as +0 with descriptor 0x00FF (R344). -/
theorem test_mxldb_poison :
    (let c : BitVec 88 := 3#13 ++ 0#13 ++ 1#1 ++ 0#61
     let s := pushBuf (atJob (jobAt 3#13 0x10#8 c runMx) sMx) (endKey 3#12 1) (vectorTok (splat 7#32) 0xFFFF#16 0x7F06#16 0#6 false true) 0
     match exec (.mxldb 3#13 (cmdFor c)) s with
     | .next t => weight (getMx t 3#12) 3
     | _ => (1#512, 0#16)) = (0#512, 0x00FF#16) := by decide +kernel

/-- The same MX with its RDV channel on VC 4, which holds all the tokens that it can. -/
def sRdvFull : State :=
  (List.range 4).foldl (fun s _ => pushBuf s (inKey 3#12 8 4) tokV 0)
    (putFrame { s0 with fab := { s0.fab with owner := (12, 2) :: s0.fab.owner } } 3#12 6 0 0 (0xF00420000#256))

theorem witness_EngineJobs :
    (let s := pushBuf sMx (endKey 3#12 0) tokV 0
     bitAt (engBinding s 3#12) 32 = true ∧ regionRuns (ownerOf s 3#12 0) = true ∧ headToTake s (endKey 3#12 0) = some tokV ∧
      tokV.isMarkOrSwitch = false ∧ engHalted s 3#13 = false ∧ dieStops s 3#12 = false) ∧
    (let j := { jobAt 227#13 0x45#8 0#88 CmdRun.empty with started := false }
     pickJob (atJob j s0) 227#13 = some (j, false) ∨ pickJob (atJob j s0) 227#13 = some (j, true)) ∧
    (engHalted s0 227#13 = false ∧ dieStops s0 227#12 = false) ∧
    (let j := { jobAt 3#13 0x15#8 0#88 CmdRun.empty with ended := true, inst := 1, cc := some (4#12, 0#3, 2#3), status := 1#16 }
     let s := atJob j sMx
     s.dist.jobs.find? (fun j => decide (j.eng = 3#13) && j.ended && !jobParked s j) = some j ∧ rdvReady s j = true ∧
      engHalted s 3#13 = false ∧ rdvReady (atJob j sRdvFull) j = false ∧
      (atJob j sRdvFull).dist.jobs.find? (fun j => decide (j.eng = 3#13) && j.ended && !jobParked (atJob j sRdvFull) j) = some j) := by decide +kernel

theorem witness_MatrixCommands :
    (let s := atJob (jobAt 3#13 0x15#8 0#88 CmdRun.empty) sMx
     (getMx s 3#12).startNext ≤ now s ∧ ((mxRunning s 3#13).any fun j => mxIsMul (jobWord s j)) = false ∧
      earliest (mxStartable s 3#13) = some (jobAt 3#13 0x15#8 0#88 CmdRun.empty)) ∧
    AtCommand (atJob (jobAt 3#13 0x15#8 0#88 runMx) sMx) 3#13 0x15#8 (cmdFor 0#88) (jobAt 3#13 0x15#8 0#88 runMx) ∧
    AtCommand (atJob (jobAt 3#13 0x14#8 0#88 runMx) sMx) 3#13 0x14#8 (cmdFor 0#88) (jobAt 3#13 0x14#8 0#88 runMx) ∧
    (let c : BitVec 88 := 0#26 ++ 1#1 ++ 0#61
     let j := jobAt 3#13 0x10#8 c runMx
     let s := pushBuf (atJob j sMx) (endKey 3#12 1) tokV 0
     AtCommand s 3#13 0x10#8 (cmdFor c) j ∧ j.run.started = true ∧ j.run.awaits = [] ∧ j.refuted = false ∧ bitAt c 61 = true ∧ j.run.i < (bits c 62 13).toNat + 1 ∧ dataTurn s j = true ∧
      dataHead s j = some tokV ∧ tokV.ctrl = false) ∧
    (let j := jobAt 3#13 0x11#8 0#88 runMx
     let x := mulArgs 0#88
     let s := setMx (pushBuf (atJob j sMx) (endKey 3#12 1) (tokZ 0x7F06#16) 0) 3#12
        { Mx.empty with wdesc := (List.range 64).map fun i => (i, 0x7F06#16) }
     AtCommand s 3#13 0x11#8 (cmdFor 0#88) j ∧ j.run.i < x.slices ∧ j.run.j < 64 ∧ dataTurn s j = true ∧
      dataHead s j = some (tokZ 0x7F06#16) ∧ (tokZ 0x7F06#16).ctrl = false ∧ kindDesc x.kind 0x7F06#16 = true ∧
      tileBad x.kind x.sp (getMx s 3#12) (x.base + j.run.i * mxTileBlocks x.sp (BitVec.ofNat 2 x.kind)) = false) ∧
    (let j := jobAt 3#13 0x12#8 0#88 { runMx with i := 1 }
     AtCommand (atJob j sMx) 3#13 0x12#8 (cmdFor 0#88) j ∧ (mulArgs 0#88).slices ≤ j.run.i) ∧
    (let j := jobAt 3#13 0x13#8 0#88 runMx
     let s := atJob j sMx
     AtCommand s 3#13 0x13#8 (cmdFor 0#88) j ∧ j.run.i < drainCount 0#88 ∧ bitAt (engBinding s 3#12) 34 = true ∧
      sendReady s 3#12 8 (bits (engBinding s 3#12) 16 4).toNat = true) ∧
    (let j := jobAt 3#13 0x13#8 0#88 { runMx with i := 4 }
     AtCommand (atJob j sMx) 3#13 0x13#8 (cmdFor 0#88) j ∧ drainCount 0#88 ≤ j.run.i) := by
  unfold AtCommand
  refine ⟨?_, ?_, ?_, ?_, ?_, ?_, ?_, ?_⟩ <;> decide +kernel

/-- A command that has taken its tokens. -/
def runTook (ts : List Token) : CmdRun := { CmdRun.empty with taken := ts }
/-- The work ends well. -/
def worksOk (w : Work) (act : WorkM (List Token)) : Bool :=
  match ((act >>= fun o => wFlush w.desc >>= fun _ => pure o).run.run w).1 with
  | .ok _ => true
  | .error _ => false
/-- Then there is what it ends with. -/
theorem ends_of_ok (w : Work) (act : WorkM (List Token)) (h : worksOk w act = true) : ∃ out w', WorkEnds w act out w' := by
  unfold worksOk at h
  unfold WorkEnds
  split at h
  · rename_i o e
    exact ⟨o, _, Prod.ext e rfl⟩
  · simp at h
/-- The work finds the pool too small. -/
theorem pool_of_err (w : Work) (act : WorkM (List Token)) (h : (match ((act >>= fun o => wFlush w.desc >>= fun _ => pure o).run.run w).1 with
    | .error .pool => true
    | _ => false) = true) :
    ∃ w', (act >>= fun o => wFlush w.desc >>= fun _ => pure o).run.run w = (.error .pool, w') := by
  split at h
  · rename_i e
    exact ⟨_, Prod.ext e rfl⟩
  · simp at h

/-- The tokens of a tree command under the zero descriptor: its two blocks and more. -/
def treeTook (n : Nat) : List Token := tokZ 0#16 :: tokZ 0#16 :: List.replicate n tokV
/-- A job at STE 99 with those tokens. -/
def treeJob (opc : BitVec 8) (n : Nat) : Job := jobAt 99#13 opc 0#88 (runTook (treeTook n))

/-- TSTAT of a descriptor whose TOKENS is 9 answers 9 in lane 0 (R358). -/
theorem test_tstat :
    (let d := vectorTok (9#512 <<< 160) 0xFFFF#16 0#16 0#6 false false
     match exec (.tstat 99#13 (cmdFor 0#88)) (atJob (jobAt 99#13 0x37#8 0#88 (runTook [d, tokZ 0#16])) s0) with
     | .next t => t.dist.jobs.flatMap fun j => j.run.outq.map fun o => (lane o.pay 0, o.mask)
     | _ => []) = [(9#32, 0x1F#16)] := by decide +kernel

theorem witness_SummaryTreeCommands :
    (∀ x, x ∈ [(0x30#8, 0, tnew), (0x36#8, 0, tfree), (0x37#8, 0, tstat), (0x35#8, 2, tevict [tokV, tokV])] →
      AtCommand (atJob (treeJob x.1 x.2.1) s0) 99#13 x.1 (cmdFor 0#88) (treeJob x.1 x.2.1) ∧
      (treeJob x.1 x.2.1).run.taken = treeTook x.2.1 ∧
      worksOk (newWork (atJob (treeJob x.1 x.2.1) s0) (treeJob x.1 x.2.1) 0 0#1024 0#6) x.2.2 = true) ∧
    (let n := 1 + vecBlocks 0 0#8 0 + vecBlocks 0 0#8 0
     AtCommand (atJob (treeJob 0x31#8 n) s0) 99#13 0x31#8 (cmdFor 0#88) (treeJob 0x31#8 n) ∧
      (treeJob 0x31#8 n).run.taken = treeTook n) ∧
    (let n := 1 + vecBlocks 0 0#8 0 + vecBlocks 0 0#8 0
     let w := newWork (atJob (treeJob 0x31#8 n) s0) (treeJob 0x31#8 n) 0 0#1024 0#6
     ∃ w', (tapp (List.replicate n tokV) >>= fun o => wFlush w.desc >>= fun _ => pure o).run.run w = (.error .pool, w')) ∧
    lane tokV.block.data 0 ≤ lane tokV.block.data 0 := by
  refine ⟨?_, ?_, pool_of_err _ _ ?_, ?_⟩
  · intro x h
    simp only [List.mem_cons, List.not_mem_nil, or_false] at h
    rcases h with rfl | rfl | rfl | rfl <;> (unfold AtCommand; decide +kernel)
  all_goals first | decide +kernel | (unfold AtCommand; decide +kernel)

/-- A descriptor as the first token taken. -/
def tokD (d : BitVec 512) : Token := vectorTok d 0xFFFF#16 0#16 0#6 false false

/-- A tree of dimension 4 in fp32 with two nodes of 512 bytes at 0x1000 and its log at 0x3000; FAN and leaves of 2. -/
def treeD (root tokens levels free nfree : Nat) : TreeDesc :=
  BitVec.ofNat 1024 (0x1000 + 0x3000 * 2 ^ 64 + root * 2 ^ 128 + tokens * 2 ^ 160 + 4 * 2 ^ 272 + levels * 2 ^ 312 + 2 * 2 ^ 320 + free * 2 ^ 352 + nfree * 2 ^ 416)
/-- A job of node 0 at STE 99 on that descriptor, which stands at 0x800, with more tokens. -/
def onTree (opc : BitVec 8) (d : TreeDesc) (rel : Word) (ts : List Token) : Job :=
  { jobAt 99#13 opc (rel ++ 0x800#56) (runTook (tokD (bits d 0 512) :: tokD (bits d 512 512) :: ts)) with inst := 1 }
/-- Its command. -/
def treeCmd (rel : Word) : Cmd := cmdFor (rel ++ 0x800#56)
/-- The machine of that job, with these bytes of module memory at page 0. -/
def atTree (j : Job) (mem : Table Byte) : State :=
  let s := withTlb (atJob j s0)
  { s with store := { s.store with mem := mem.map fun x => (0x20000 + x.1, x.2) } }

/-- Two computations that answer. -/
theorem two_of_test {α β : Type} {o : Option α} {f : α → Option β} {q : β → Prop} (p : β → Bool) (hq : ∀ u, p u = true → q u)
    (h : (match o with
      | some v => (match f v with
        | some u => p u
        | none => false)
      | none => false) = true) : ∃ v u, o = some v ∧ f v = some u ∧ q u := by
  cases o with
  | none => simp at h
  | some v =>
    refine ⟨v, ?_⟩
    cases hf : f v with
    | none => simp [hf] at h
    | some u => exact ⟨u, rfl, rfl, hq u (by simpa [hf] using h)⟩

/-- The header of a root leaf at position 0 with one entry, open, with references. -/
def rootLeaf (refs : Nat) : Hdr :=
  let h : Hdr := setBits 0#1024 40 1#14
  ((h.setRefs refs).put 0 1).setNch 1
/-- The bytes of that header at node 0. -/
def leafMem (refs : Nat) : Table Byte :=
  ((List.range 128).map fun i => (0x1000 + i, (bits (rootLeaf refs) (8 * i) 8 : Byte))).filter fun x => decide (x.2 ≠ 0#8)

/-- A tree that no other shares. -/
theorem sole_of_none (s : State) (j : Job) (d : TreeDesc) (va : Nat) (h : s.hyps.trees.isEmpty = true) : soleOwner s j d va := by
  rw [List.isEmpty_iff] at h
  simp [soleOwner, h]

theorem witness_TreeNew :
    let d := treeD 0 5 0 1 0
    let j := onTree 0x30#8 d 0 []
    let s := atTree j []
    let d' : TreeDesc := setBits (setBits (setBits (setBits (setBits d 384 (BitVec.ofNat 16 (d.size / 64))) 352 0#32) 416
          (BitVec.ofNat 32 d.nodes)) 160 0#32) 312 0#8
    AtCommand s 99#13 0x30#8 (treeCmd 0) j ∧ d' ≠ d ∧ j.refuted = false ∧ j.run.taken = [tokD (bits d 0 512), tokD (bits d 512 512)] ∧
      joinBlocks (tokD (bits d 0 512)).pay (tokD (bits d 512 512)).pay = d ∧
    ∃ v u, linkedFree j d d.nodes 0 s = some v ∧
      afterAll j (leavePool (dropBodies v fun x => decide (x.tenant = jobTenant v j) && decide (d.pool ≤ x.va) &&
        decide (x.va < d.pool + d.nodes * d.size)) (jobTenant v j) d.pool) (pairWrite 0x800 d') = some u ∧ soleOwner u j d 0x800 := by
  refine ⟨by unfold AtCommand; decide +kernel, by decide +kernel, by decide +kernel, by decide +kernel, by decide +kernel, ?_⟩
  exact two_of_test (fun u : State => u.hyps.trees.isEmpty) (fun u h => sole_of_none _ _ _ _ h) (by decide +kernel)

/-- A computation that answers. -/
theorem one_of_test {α : Type} {o : Option α} (h : o.isSome = true) : ∃ u, o = some u := Option.isSome_iff_exists.mp h

theorem witness_SmallTrees :
    (let d := treeD 0 1 0 1 1
     AtCommand (atTree (onTree 0x32#8 d 0 []) []) 99#13 0x32#8 (treeCmd 0) (onTree 0x32#8 d 0 []) ∧ TreeDesc.levels d = 0) ∧
    (let d := treeD 0 1 1 1 1
     let j := onTree 0x32#8 d 0 []
     let s := atTree j (leafMem 1)
     let node := nodeAt d d.root
     let root := rootLeaf 1
     let run (v : State) := (sealLeaf d.root root.nch none).run.run { newWork v j 0x800 d j.hyp with
        seen := [(node + 64, false), (node, false), (node + 64, false), (node, false)] }
     AtCommand s 99#13 0x32#8 (treeCmd 0) j ∧ d.levels = 1 ∧ d.root < d.nodes ∧ root.level = 0 ∧ root.nch ≤ d.leafCap ∧ root.isSealed = false ∧
     ∃ v x, afterAll j s (pairRead node root ++ pairRead node root) = some v ∧
       (match run v with
        | (.ok (ck, cv, radius), w) =>
          if w.job = j ∧ w.desc = d ∧ w.hyp = j.hyp then
            afterAll j w.s (vecWrites (centAt d d.root false) ck ++ vecWrites (centAt d d.root true) cv ++ pairRead node root ++
              pairWrite node (((root.put 128 radius.toNat).flag 40 false).flag 41 true))
          else none
        | _ => none) = some x ∧ True) ∧
    (let d := treeD 0 1 0 1 1
     let j := onTree 0x33#8 d 4 [tokV]
     let s := atTree j []
     let out := relAddr 0x800 4
     let zeros : List Word := List.replicate d.dim 0#32
     AtCommand s 99#13 0x33#8 (treeCmd 4) j ∧ vecBlocks (queryType d) 0#8 d.dim ≤ [tokV].length ∧ d.levels = 0 ∧
     ∃ u, afterAll j s (.wr out (BitVec.allOnes 64) (setBits (setBits 0#512 0 0xFF800000#32) 178 1#1) none ::
        vecWrites (out + 64) zeros ++ vecWrites (out + 64 + ceil64 (4 * d.dim)) zeros) = some u) ∧
    (let d := treeD 0 9 0 1 1
     let j := onTree 0x34#8 d 4 [tokV]
     let s := atTree j []
     let p := lane tokV.block.data 0
     AtCommand s 99#13 0x34#8 (treeCmd 4) j ∧ d.levels = 0 ∧ p.toNat ≤ d.tokens ∧
     ∃ u, afterAll j s (pairWrite (relAddr 0x800 4) (setBits (setBits d 160 p) 128 (BitVec.ofNat 32 d.root))) = some u) ∧
    (let d := treeD 0 1 1 1 1
     let j := onTree 0x36#8 d 0 []
     let s := atTree j (leafMem 2)
     let node := nodeAt d d.root
     let root := rootLeaf 2
     AtCommand s 99#13 0x36#8 (treeCmd 0) j ∧ d.levels ≠ 0 ∧ d.root < d.nodes ∧ root.level + 1 = d.levels ∧
      root.nch ≤ (if root.level = 0 then d.leafCap else d.fan) ∧ 2 ≤ root.refs ∧
     ∃ u, afterAll j s (pairRead node root ++ pairWrite node (root.setRefs (root.refs - 1)) ++ pairWrite 0x800 (setBits d 312 0#8)) = some u) := by
  refine ⟨⟨?_, ?_⟩, ⟨?_, ?_, ?_, ?_, ?_, ?_, ?_⟩, ⟨?_, ?_, ?_, ?_⟩, ⟨?_, ?_, ?_, ?_⟩, ⟨?_, ?_, ?_, ?_, ?_, ?_, ?_⟩⟩
  all_goals first
    | decide +kernel
    | (unfold AtCommand; decide +kernel)
    | exact one_of_test (by decide +kernel)
    | exact two_of_test (fun _ => true) (fun _ _ => trivial) (by decide +kernel)

/-- A machine of one job at STE 99 with page 0 at 0x20000 in module memory, no stash line and no store on its way, whose blocks hold this
data. -/
structure Holds (j : Job) (s : State) (f : Nat → Block) : Prop where
  pend : s.store.pend = []
  mts : s.fab.mts = []
  trees : s.hyps.trees = []
  dist : s.dist = (atTree j []).dist
  dies : s.dies = (withTlb s0).dies
  mem : ∀ h, h % 64 = 0 → h < 2 ^ 52 → (homeBlock s h).data = f h ∧ (homeBlock s h).psn = false

/-- An access of the job to page 0 translates at once and changes nothing. -/
theorem holds_xlate {j : Job} {s : State} {f : Nat → Block} (h : Holds j s f) (he : j.eng = 99#13) (hi : j.inst = 1) (va : Nat) (w : Bool)
    (hv : va < 65536) : jobXlate s j va w = (s, .ok ⟨0#2, 0#12, 0x20000 + va, 16⟩) := by
  have hn : jobNode s j = some node0 := by
    simp only [jobNode, jobInst, findInst, findNode, h.dist, hi]
    rfl
  have hd : getDie s (engDie j.eng) = { Die.empty with tlb := [⟨5#16, 0, 16, 0#2, 0#12, 0x20000, true, true⟩] } := by
    simp only [getDie, h.dies, he]
    rfl
  have hf : walkFailed s (engDie j.eng) (.job j.id) va w = none := by
    simp only [walkFailed, hd]
    rfl
  have ht : tlbFind [⟨5#16, 0, 16, 0#2, 0#12, 0x20000, true, true⟩] node0.tenant va w = some ⟨5#16, 0, 16, 0#2, 0#12, 0x20000, true, true⟩ := by
    have e : va / 2 ^ 16 = 0 := by omega
    simp [tlbFind, TlbEnt.serves, node0, e, hv]
  have e : va % 2 ^ 16 = va := Nat.mod_eq_of_lt (by omega)
  simp only [jobXlate, hn, xlate, hf, hd, ht, clearWalk, loseWalks, TlbEnt.trans, e]
  simp [Die.empty]

/-- Such a machine holds the same data wherever the same storage, tiles, jobs and dies stand. -/
theorem holds_of {j : Job} {s t : State} {f : Nat → Block} (h : Holds j s f) (hp : t.store.pend = []) (hm : t.fab.mts = [])
    (ht : t.hyps = s.hyps) (hd : t.dist = s.dist) (he : t.dies = s.dies) (hb : ∀ x, x < 2 ^ 52 → homeBlock t x = homeBlock s x) : Holds j t f :=
  ⟨hp, hm, by rw [ht]; exact h.trees, hd.trans h.dist, he.trans h.dies, fun x hx hl => by rw [hb x hl]; exact h.mem x hx hl⟩

/-- Such a machine answers a read of the job with its data. -/
theorem holds_rd {j : Job} {s : State} {f : Nat → Block} (h : Holds j s f) (he : j.eng = 99#13) (hi : j.inst = 1) (hh : j.hyp = 0#6) (va : Nat)
    (x : Block) (rest : List Access) (hv : va < 65536) (hx : f (0x20000 + va / 64 * 64) = x) {P : State → Prop}
    (k : ∀ t, t.free = s.free → Holds j t f → ∃ u, afterAll j t rest = some u ∧ P u) : ∃ u, afterAll j s (.rd va x :: rest) = some u ∧ P u := by
  have e : homeKey ⟨0#2, 0#12, 0x20000 + va, 16⟩ = 0x20000 + va / 64 * 64 := by
    simp only [homeKey, BitVec.toNat_ofNat]
    show (131072 + va) / 64 * 64 = _
    omega
  have hl : linesAt s (0x20000 + va / 64 * 64) = [] := by simp [linesAt, h.mts]
  have hm := h.mem (0x20000 + va / 64 * 64) (by omega) (by omega)
  have hp : homeIsPeer (0x20000 + va / 64 * 64) = false := by
    simp only [homeIsPeer, decide_eq_false_iff_not]
    omega
  have hw : view s (jobParty s j) (0x20000 + va / 64 * 64) (ctxOf (jobNode s j)) j.hyp = homeBlock s (0x20000 + va / 64 * 64) := by
    simp [view, viewOver, loadLayers, hh, hypChain, zeroLayers, heldLayers, deviceLayers, linesTagged, hl, h.pend, layersOver, hp]
  simp only [afterAll, holds_xlate h he hi va false hv, e, engLoad, hw, hm, hx]
  simp only [ne_eq, and_self]
  rw [if_pos (by decide)]
  apply k
  · rfl
  · exact holds_of h h.pend (by simp [stampLoad, raiseTs, jobParty, mapLines, h.mts]) rfl rfl rfl fun _ _ => rfl

/-- Such a machine takes a write of the job. -/
theorem holds_wr {j : Job} {s : State} {f : Nat → Block} (h : Holds j s f) (he : j.eng = 99#13) (hi : j.inst = 1) (hh : j.hyp = 0#6) (va : Nat)
    (m : BitVec 64) (b : Block) (d : Option (BitVec 16)) (rest : List Access) (hv : va < 65536) (hm : m ≠ 0#64) {P : State → Prop}
    (k : ∀ t, t.free = s.free → Holds j t (fun x => if x = 0x20000 + va / 64 * 64 then mergeBytes (f x) b m else f x) →
      ∃ u, afterAll j t rest = some u ∧ P u) : ∃ u, afterAll j s (.wr va m b d :: rest) = some u ∧ P u := by
  have e : homeKey ⟨0#2, 0#12, 0x20000 + va, 16⟩ = 0x20000 + va / 64 * 64 := by
    simp only [homeKey, BitVec.toNat_ofNat]
    show (131072 + va) / 64 * 64 = _
    omega
  have hl : linesAt s (0x20000 + va / 64 * 64) = [] := by simp [linesAt, h.mts]
  have hp : homeIsPeer (0x20000 + va / 64 * 64) = false := by
    simp only [homeIsPeer, decide_eq_false_iff_not]
    omega
  simp only [afterAll, holds_xlate h he hi va true hv, e, engOvlWaits, hh]
  rw [if_pos (by simp)]
  let p := jobParty s j
  let sa := supersede s p (0x20000 + va / 64 * 64) (ctxOf (jobNode s j)) 0#6 2#3 m d
  let s1 := raiseTs sa p (storeTs s p (0x20000 + va / 64 * 64))
  have hk : keepDesc s none (0x20000 + va / 64 * 64) d = s := by
    unfold keepDesc
    split
    · rfl
    · simp [linesTagged, hl]
  have hs : sa = mapPend (mapLines s none fun site l =>
      if l.home = 0x20000 + va / 64 * 64 ∧ sameTag l.ctx l.tag (ctxOf (jobNode s j)) 0#6 then
        let l := l.superseded (decide (regionOf s site = p.inst)) 2#3 m d
        if l.valid = 0#64 then none else some l
      else some l) (fun x => x.at (0x20000 + va / 64 * 64) (ctxOf (jobNode s j)) 0#6) fun x => x.trim p 2#3 m d := by
    have e1 : scopeNarrow 2#3 = false := rfl
    have e2 : p.mt = none := rfl
    simp only [sa, supersede, e1, e2, hk]
    simp
  have h1 : Holds j s1 f := by
    refine holds_of h ?_ ?_ ?_ ?_ ?_ ?_
    · simp [s1, hs, raiseTs, p, jobParty, mapPend, mapLines, h.pend, mapWhere]
    · simp [s1, hs, raiseTs, p, jobParty, mapPend, mapLines, h.mts]
    · rw [show s1.hyps = sa.hyps from rfl, hs]; rfl
    · rw [show s1.dist = sa.dist from rfl, hs]; rfl
    · rw [show s1.dies = sa.dies from rfl, hs]; rfl
    · intro x _
      rw [show homeBlock s1 x = homeBlock sa x from rfl, hs]; rfl
  have hf : s1.free = s.free := by rw [show s1.free = sa.free from rfl, hs]; rfl
  have ht : engStore s p (.job j.id) (jobTenant s j) (0x20000 + va / 64 * 64) va (ctxOf (jobNode s j)) 0#6 2#3 m b d false =
      writeHome s1 (0x20000 + va / 64 * 64) m b d false := by
    have e1 : scopeNarrow 2#3 = false := rfl
    simp only [engStore, hm, if_false, if_true, e1, tierWrite, hp, Bool.false_eq_true]
    rfl
  rw [ht]
  have hc : moduleCut s1 (0x20000 + va / 64 * 64) = false := by
    have e0 : ∀ d, (getDie (withTlb s0) d).cut = false := by decide +kernel
    have e1 := e0 (moduleDie (moduleOf (0x20000 + va / 64 * 64)))
    simp only [getDie] at e1
    simp only [moduleCut, getDie, h1.dies]
    exact e1
  have hw := writeHome_frame s1 (0x20000 + va / 64 * 64) m b d false
  apply k
  · rw [hw]
    exact hf
  · refine ⟨by rw [hw]; exact h1.pend, by rw [hw]; exact h1.mts, by rw [hw]; exact h1.trees, by rw [hw]; exact h1.dist, by rw [hw]; exact h1.dies, ?_⟩
    intro x hx hxl
    have r := homeBlock_writeHome s1 m b d hm (by omega : 0x20000 + va / 64 * 64 < 2 ^ 52) hxl (by omega) hx hc
    refine ⟨?_, r.2 (h1.mem x hx hxl).2⟩
    rw [r.1, (h1.mem x hx hxl).1, (h1.mem (0x20000 + va / 64 * 64) (by omega) (by omega)).1]
    split
    · rename_i hxe
      rw [hxe]
    · rfl

/-- TAPP's tree: empty, at position 5, with node 1 free; its job takes a token, a key and a value. -/
def tappD : TreeDesc := treeD 0 5 0 1 2
def tappJ : Job := onTree 0x31#8 tappD 0 [tokV, tokV, tokV]
/-- All blocks of that machine are zero at first. -/
theorem holds_start : Holds tappJ (atTree tappJ []) fun _ => 0#512 := by
  have e : ∀ d, (getDie (withTlb s0) d).cut = false := by decide +kernel
  refine ⟨rfl, rfl, rfl, rfl, rfl, fun h _ hl => ?_⟩
  have k : homeIsModule h = true := decide_eq_true hl
  have z : (ofBytes fun _ => 0#8) = 0#512 := by decide +kernel
  simp only [homeBlock, k, if_true, Bool.or_eq_false_iff]
  exact ⟨z, rfl, e _⟩

/-- The key and the value go to the slots of node 1. -/
theorem tapp_slots (v : Bool) : slotWrites tappD 1 0 v [tokV.block] =
    [.wr (if v then 0x1380 else 0x1300) 0xFFFF#64 tokV.block.data (some 0x00FF#16)] := by
  have m : (ofMask64 fun k => decide (k < 16)) = 0xFFFF#64 := by decide +kernel
  have e : ∀ v, (tappD.kind v).1 = 0 ∧ tappD.dim = 4 ∧ slotAt tappD 1 0 v = if v then 0x1380 else 0x1300 := by decide +kernel
  simp only [slotWrites, e v]
  simp [elemWrites, m]

theorem witness_TreeAppend :
    let at0 := nodeAt tappD tappD.free
    let kv := [tokV, tokV]
    let word := (tappD.log + 4 * tappD.tokens) % 2 ^ 56
    let keys := (kv.take (vecBlocks tappD.ktype tappD.kfmt tappD.dim)).map Token.block
    let vals := (kv.drop (vecBlocks tappD.ktype tappD.kfmt tappD.dim)).map Token.block
    AtCommand (atTree tappJ []) 99#13 0x31#8 (treeCmd 0) tappJ ∧ kv.length = vecBlocks tappD.ktype tappD.kfmt tappD.dim + vecBlocks tappD.vtype tappD.vfmt tappD.dim ∧
    tappD.levels = 0 ∧ 1 ≤ tappD.nfree ∧ tappD.free < tappD.nodes ∧
    ∃ old v u,
      let leaf : Hdr := allocHdr v.free 0 tappD.tokens none
      let d' : TreeDesc := setBits (setBits (setBits (setBits (setBits tappD 352 (Hdr.parent old)) 416 (BitVec.ofNat 32 (tappD.nfree - 1))) 128
          (BitVec.ofNat 32 tappD.free)) 312 1#8) 160 (BitVec.ofNat 32 (tappD.tokens + 1))
      afterAll tappJ (atTree tappJ []) (pairRead at0 old) = some v ∧
      afterAll tappJ { v with free := v.free + 1 } (pairWrite at0 leaf ++ pairRead at0 leaf ++ slotWrites tappD tappD.free 0 false keys ++
        slotWrites tappD tappD.free 0 true vals ++ pairRead at0 leaf ++ pairWrite at0 (leaf.setNch 1) ++ pairRead at0 (leaf.setNch 1) ++
        pairWrite at0 ((leaf.setNch 1).put 0 1) ++
        [.wr (word / 64 * 64) (needMask false word) (wordBlock word (lane tokV.block.data 0)) none] ++ pairWrite 0x800 d') = some u ∧
      soleOwner u tappJ tappD 0x800 := by
  refine ⟨by unfold AtCommand; decide +kernel, by decide +kernel, by decide +kernel, by decide +kernel, by decide +kernel, 0#1024, ?_⟩
  have z : ∀ k, k < 1024 → (bits 0#1024 k 512 : Block) = 0#512 := by
    intro k _
    apply BitVec.eq_of_getLsbD_eq
    simp [bits]
  have hc : tappJ.eng = 99#13 ∧ tappJ.inst = 1 ∧ tappJ.hyp = 0#6 := by decide +kernel
  have h1 : ∃ v, afterAll tappJ (atTree tappJ []) (pairRead 0x1200 0#1024) = some v ∧ Holds tappJ v fun _ => 0#512 := by
    unfold pairRead
    refine holds_rd holds_start hc.1 hc.2.1 hc.2.2 _ _ _ (by decide) (z 0 (by decide)).symm fun t _ ht => ?_
    exact holds_rd ht hc.1 hc.2.1 hc.2.2 _ _ _ (by decide) (z 512 (by decide)).symm fun u _ hu => ⟨u, rfl, hu⟩
  obtain ⟨v, hv, hh⟩ := h1
  refine ⟨v, ?_⟩
  have k1 : nodeAt tappD tappD.free = 0x1200 ∧ tappD.free = 1 ∧ (tappD.log + 4 * tappD.tokens) % 2 ^ 56 = 0x3014 := by decide +kernel
  have k2 : ([tokV, tokV].take (vecBlocks tappD.ktype tappD.kfmt tappD.dim)).map Token.block = [tokV.block] := by decide +kernel
  have k3 : ([tokV, tokV].drop (vecBlocks tappD.ktype tappD.kfmt tappD.dim)).map Token.block = [tokV.block] := by decide +kernel
  have k4 : needMask false 0x3014 ≠ 0#64 := by decide +kernel
  suffices h : ∀ leaf leaf1 leaf2 : Hdr, ∀ d' : TreeDesc, ∀ w, Holds tappJ w (fun _ => 0#512) →
      ∃ u, afterAll tappJ w (pairWrite 0x1200 leaf ++ pairRead 0x1200 leaf ++ slotWrites tappD 1 0 false [tokV.block] ++
        slotWrites tappD 1 0 true [tokV.block] ++ pairRead 0x1200 leaf ++ pairWrite 0x1200 leaf1 ++ pairRead 0x1200 leaf1 ++
        pairWrite 0x1200 leaf2 ++ [.wr 0x3000 (needMask false 0x3014) (wordBlock 0x3014 (lane tokV.block.data 0)) none] ++
        pairWrite 0x800 d') = some u ∧ u.hyps.trees = [] by
    obtain ⟨u, h1, h2⟩ := h (allocHdr v.free 0 tappD.tokens none) ((allocHdr v.free 0 tappD.tokens none).setNch 1) (((allocHdr v.free 0 tappD.tokens none).setNch 1).put 0 1) (setBits (setBits (setBits (setBits (setBits tappD 352 (Hdr.parent 0#1024)) 416
      (BitVec.ofNat 32 (tappD.nfree - 1))) 128 (BitVec.ofNat 32 1)) 312 1#8) 160 (BitVec.ofNat 32 (tappD.tokens + 1)))
      { v with free := v.free + 1 } (holds_of hh hh.pend hh.mts rfl rfl rfl fun _ _ => rfl)
    refine ⟨u, by rw [k1.1]; exact hv, ?_, sole_of_none _ _ _ _ (by rw [h2]; rfl)⟩
    rw [k2, k3, k1.1, k1.2.1, k1.2.2]
    exact h1
  clear hv hh
  have ma : ∀ old b : Block, mergeBytes old b 18446744073709551615#64 = b := mergeBytes_all
  intro leaf leaf1 leaf2 d' w hw
  simp only [tapp_slots, pairWrite, pairRead, List.cons_append, List.nil_append]
  refine holds_wr hw hc.1 hc.2.1 hc.2.2 _ _ _ _ _ (by decide) (by decide) fun t _ ht => ?_
  refine holds_wr ht hc.1 hc.2.1 hc.2.2 _ _ _ _ _ (by decide) (by decide) fun t _ ht => ?_
  refine holds_rd ht hc.1 hc.2.1 hc.2.2 _ _ _ (by decide) (by simp [ma]) fun t _ ht => ?_
  refine holds_rd ht hc.1 hc.2.1 hc.2.2 _ _ _ (by decide) (by simp [ma]) fun t _ ht => ?_
  refine holds_wr ht hc.1 hc.2.1 hc.2.2 _ _ _ _ _ (by decide) (by decide) fun t _ ht => ?_
  refine holds_wr ht hc.1 hc.2.1 hc.2.2 _ _ _ _ _ (by decide) (by decide) fun t _ ht => ?_
  refine holds_rd ht hc.1 hc.2.1 hc.2.2 _ _ _ (by decide) (by simp [ma]) fun t _ ht => ?_
  refine holds_rd ht hc.1 hc.2.1 hc.2.2 _ _ _ (by decide) (by simp [ma]) fun t _ ht => ?_
  refine holds_wr ht hc.1 hc.2.1 hc.2.2 _ _ _ _ _ (by decide) (by decide) fun t _ ht => ?_
  refine holds_wr ht hc.1 hc.2.1 hc.2.2 _ _ _ _ _ (by decide) (by decide) fun t _ ht => ?_
  refine holds_rd ht hc.1 hc.2.1 hc.2.2 _ _ _ (by decide) (by simp [ma]) fun t _ ht => ?_
  refine holds_rd ht hc.1 hc.2.1 hc.2.2 _ _ _ (by decide) (by simp [ma]) fun t _ ht => ?_
  refine holds_wr ht hc.1 hc.2.1 hc.2.2 _ _ _ _ _ (by decide) (by decide) fun t _ ht => ?_
  refine holds_wr ht hc.1 hc.2.1 hc.2.2 _ _ _ _ _ (by decide) (by decide) fun t _ ht => ?_
  refine holds_wr ht hc.1 hc.2.1 hc.2.2 _ _ _ _ _ (by decide) k4 fun t _ ht => ?_
  refine holds_wr ht hc.1 hc.2.1 hc.2.2 _ _ _ _ _ (by decide) (by decide) fun t _ ht => ?_
  refine holds_wr ht hc.1 hc.2.1 hc.2.2 _ _ _ _ _ (by decide) (by decide) fun t _ ht => ?_
  exact ⟨t, rfl, ht.trees⟩

/-- A set descriptor at virtual address 0 of node 0: ROWS 1, CAP 4, DIN 16, POOLFREE none. -/
def sSet (s : State) : State :=
  { withTlb s with store := { s.store with
    mem := [(0x20015, 0x04#8), (0x20018, 0x10#8), (0x20020, 0x01#8), (0x20030, 0xFF#8), (0x20031, 0xFF#8), (0x20032, 0xFF#8), (0x20033, 0xFF#8)] } }
/-- Slot 0 of HPU 227 bound to it. -/
def sBound (s : State) : State :=
  setHpu s 227#12 { Hpu.empty with slots := vset Hpu.empty.slots 0 { SetSlot.empty with bound := true } }
/-- A job of node 0 at HPU 227 under a hypothesis. -/
def setJob (opc : BitVec 8) (h : BitVec 6) (ts : List Token) : Job := { jobAt 227#13 opc 0#88 (runTook ts) with inst := 1, hyp := h }
/-- Its tokens: the descriptor as it was read, and one more. -/
def setTook : List Token := [tokZ 0#16, tokZ 0#16, tokV]

theorem witness_HashProbeCommands :
    (let j := setJob 0x45#8 0#6 setTook
     let s := sBound (sSet (atJob j s0))
     let r := (wPair 0).run.run (newWork s j 0 0#1024 0#6)
     AtCommand s 227#13 0x45#8 (cmdFor 0#88) j ∧ j.run.held = false ∧ j.run.ends = false ∧
      hpuFull 0x45#8 (cmdFor 0#88) (joinBlocks (tokZ 0#16).pay (tokZ 0#16).pay) [tokV] = true ∧ hpuUpdates 0x45#8 = false ∧
      hpuVa s 0x45#8 j (cmdFor 0#88) = some 0 ∧
      (match r.1 with
        | .ok (d, ok) => ok && SetDesc.ok d && worksOk { newWork r.2.s j 0 d 0#6 with status := r.2.status } (hstat 0)
        | .error _ => false) = true) ∧
    (let j := setJob 0x43#8 0#6 setTook
     let s := sBound (sSet (atJob j s0))
     let r := (wPair 0).run.run (newWork s j 0 0#1024 0#6)
     AtCommand s 227#13 0x43#8 (cmdFor 0#88) j ∧ hpuVa s 0x43#8 j (cmdFor 0#88) = some 0 ∧
      hpuFull 0x43#8 (cmdFor 0#88) (joinBlocks (tokZ 0#16).pay (tokZ 0#16).pay) [tokV] = true ∧
      (match r.1 with
        | .ok (d, ok) => ok && SetDesc.ok d && (liveRegs d (vget SetSlot.empty (getHpu r.2.s 227#12).slots 0)).isEmpty &&
            decide ((bits d 384 32 : Word) = 0xFFFFFFFF#32)
        | .error _ => false) = true) ∧
    (∀ x, x ∈ [0x40#8, 0x41#8, 0x42#8, 0x44#8] →
      let j := setJob x 3#6 setTook
      AtCommand (atJob j s0) 227#13 x (cmdFor 0#88) j ∧ j.run.held = false ∧ j.run.ends = false ∧ j.hyp ≠ 0#6 ∧
        hpuFull x (cmdFor 0#88) (joinBlocks (tokZ 0#16).pay (tokZ 0#16).pay) [tokV] = true) ∧
    (let j := { setJob 0x41#8 3#6 setTook with refuted := true }
     let j := { j with run := { j.run with held := true } }
     AtCommand (atJob j s0) 227#13 0x41#8 (cmdFor 0#88) j ∧ j.run.held = true ∧ j.refuted = true) ∧
    (let j := jobAt 227#13 0x43#8 0#88 CmdRun.empty
     AtCommand (atJob j s0) 227#13 0x43#8 (cmdFor 0#88) j ∧ j.run.held = false ∧ j.run.taken = [] ∧
      hpuVa (atJob j s0) 0x43#8 j (cmdFor 0#88) = none) := by
  refine ⟨?_, ?_, ?_, ?_, ?_⟩
  rotate_left 2
  · intro x h
    simp only [List.mem_cons, List.not_mem_nil, or_false] at h
    rcases h with rfl | rfl | rfl | rfl <;> (unfold AtCommand; decide +kernel)
  all_goals (unfold AtCommand; decide +kernel)

/-- A copy descriptor of one row of one block from a scratchpad to offset 128 of the scratchpad of site 6. -/
def copyD : BitVec 512 := (64#512 <<< 192) ||| (1#512 <<< 160) ||| (1#512 <<< 154) ||| (1#512 <<< 152) ||| (6#512 <<< 140) ||| (6#512 <<< 128) ||| (128#512 <<< 64)
/-- A reduction descriptor: rank 0 of 2, 64 bytes of int32 at offset 0 of site 6, staged at offset 64. -/
def redD : BitVec 512 := (1#512 <<< 184) ||| (2#512 <<< 172) ||| (64#512 <<< 128) ||| (64#512 <<< 108) ||| (6#512 <<< 96) ||| (6#512 <<< 64)
/-- A job at CP 103. -/
def cpJob (opc : BitVec 8) (ts : List Token) (i k : Nat) : Job := jobAt 103#13 opc 0#88 { runTook ts with i := i, j := k }
/-- The message of rank 1 for it. -/
def redMsg : PeerMsg := ⟨0#16, 0#8, 1#12, 0#12, 2#12, 1#2, 64#32, 0#1, 7#12, List.replicate 64 3#8⟩

/-- CPRED adds the message to BUF as int32 (R355). -/
theorem test_cpred_adds :
    (let j := cpJob 0x25#8 [tokD redD] 0 1
     let s := setSpadWord (atJob j s0) 6#12 4 1#32
     match exec (.cpred 103#13 (cmdFor 0#88)) { s with links := { s.links with inbox := [redMsg] } } with
     | .next t => (spadWord t 6#12 0, spadWord t 6#12 4, spadWord t 6#12 128)
     | _ => (0#32, 0#32, 1#32)) = (0x03030303#32, 0x03030304#32, 0#32) := by decide +kernel

theorem witness_CopyEngineCommands :
    ((∀ x, x ∈ [0x20#8, 0x21#8, 0x22#8, 0x23#8, 0x24#8] →
        let j := cpJob x [tokD copyD] 1 0
        AtCommand (atJob j s0) 103#13 x (cmdFor 0#88) j ∧ j.refuted = false ∧ j.run.awaits = [] ∧ CopyDesc.blocks copyD ≤ j.run.i ∧
          syncBusy (atJob j s0) (CopyDesc.syncSite copyD) (CopyDesc.syncOff copyD) 16 = false) ∧
      ∀ x, x ∈ [0x20#8, 0x21#8, 0x22#8, 0x24#8] →
        let j := cpJob x [tokD copyD, tokV] 0 0
        AtCommand (atJob j s0) 103#13 x (cmdFor 0#88) j ∧ j.refuted = false ∧ j.run.awaits = [] ∧ j.run.i < CopyDesc.blocks copyD ∧
          CopyDesc.dkind copyD = 1 ∧ spadAt copyD (CopyDesc.dst copyD) (CopyDesc.dstr copyD) j.run.i = 128 ∧ (getMt s0 6#12).waiters = [] ∧
          syncBusy (atJob j s0) (CopyDesc.dstSite copyD) 128 64 = false) ∧
    (let j := cpJob 0x21#8 [tokD copyD] 0 0
     AtCommand (atJob j s0) 103#13 0x21#8 (cmdFor 0#88) j ∧ j.refuted = false ∧ j.run.awaits = [] ∧ j.run.i < CopyDesc.blocks copyD) ∧
    (let j := cpJob 0x24#8 [tokD copyD] 0 0
     AtCommand (atJob j s0) 103#13 0x24#8 (cmdFor 0#88) j ∧ j.refuted = false ∧ j.run.awaits = [] ∧ j.run.i < CopyDesc.blocks copyD) ∧
    (let j := cpJob 0x23#8 [tokD copyD, tokV] 0 0
     AtCommand (atJob j s0) 103#13 0x23#8 (cmdFor 0#88) j ∧ j.refuted = false ∧ j.run.awaits = [] ∧ j.run.i < CopyDesc.blocks copyD ∧
      pieceOf (spadAt copyD (CopyDesc.dst copyD) (CopyDesc.dstr copyD) 0) (rowRest copyD 0) ≤ 1) ∧
    (let j := cpJob 0x25#8 [tokD redD] 0 1
     let s := { atJob j s0 with links := { s0.links with inbox := [redMsg] } }
     let d : RedDesc := redD
     AtCommand s 103#13 0x25#8 (cmdFor 0#88) j ∧ j.run.j ≠ 0 ∧ (collActs d.rank d.nrank)[j.run.i]? = some (.recvAdd 1) ∧
      s.links.inbox.find? (msgFor s j d 1 0#1) = some redMsg ∧ redMsg.nrank.toNat = d.nrank ∧ redMsg.op = d.op ∧ redMsg.len.toNat = d.len ∧
      d.len % 64 = 0 ∧ d.bufOff % 64 = 0 ∧ d.stgOff % 64 = 0 ∧ d.bufOff + d.len ≤ d.stgOff ∧ d.stgOff + d.len ≤ spadSize ∧
      (getMt s d.stgSite).waiters = [] ∧ (getMt s d.bufSite).waiters = [] ∧ syncBusy s d.stgSite d.stgOff d.len = false ∧
      syncBusy s d.bufSite d.bufOff d.len = false ∧ spadAnyPsn s d.bufSite d.bufOff (d.len / 64) = false) ∧
    (∀ x, x ∈ [0x25#8, 0x26#8] →
      let j := cpJob x [tokD redD] 2 1
      let d : RedDesc := redD
      AtCommand (atJob j s0) 103#13 x (cmdFor 0#88) j ∧ j.run.j ≠ 0 ∧ (collActs d.rank d.nrank).length ≤ j.run.i ∧ writesAway (atJob j s0) j.inst = false) ∧
    (let s := { s0 with input := [0, 0, 0, 1, 0, 0, 0, 2, 0, 1, 0, 64, 0, 0, 0, 7, 0, 9], links := { s0.links with inbox := [{ redMsg with data := [3] }] } }
     answerRoom s (s.opnd 15 12) = true ∧
      PeerMsg.same { redMsg with data := [3] } ⟨s.opnd 0 16, s.opnd 2 8, s.opnd 3 12, s.opnd 5 12, s.opnd 7 12, s.opnd 9 2, s.opnd 11 32, s.opnd 10 1, s.opnd 15 12, s.input.drop 17⟩ = true ∧
      PeerMsg.whole { redMsg with data := [3] } = false) := by
  unfold AtCommand
  refine ⟨⟨?_, ?_⟩, ?_, ?_, ?_, ?_, ?_, ?_⟩
  · intro x h
    simp only [List.mem_cons, List.not_mem_nil, or_false] at h
    rcases h with rfl | rfl | rfl | rfl | rfl <;> decide +kernel
  · intro x h
    simp only [List.mem_cons, List.not_mem_nil, or_false] at h
    rcases h with rfl | rfl | rfl | rfl <;> decide +kernel
  rotate_left 4
  · intro x h
    simp only [List.mem_cons, List.not_mem_nil, or_false] at h
    rcases h with rfl | rfl <;> decide +kernel
  all_goals decide +kernel

/-! ## The controllers -/

/-- Node 0 with one level (R32). -/
def sLevel : State := withNode { node0 with lrec := 1#2048 <<< 272 } s0
/-- A job of that node at a controller. -/
def ctlJob (eng : EngId) (opc : BitVec 8) (ops : BitVec 88) : Job := { jobAt eng opc ops CmdRun.empty with inst := 1 }
/-- The machine with that job and id 3 live under 0 in context 0. -/
def sHyp (j : Job) : State := { atJob j sLevel with hyps := ⟨[(3, some 0#6)], [], [], [], [], []⟩ }
/-- An overlay entry of id 3. -/
def ovl3 : Ovl := ⟨0#8, 3#6, 0, 0, 0#64, 0#64, 0#16, false, 0#512, false⟩
/-- Context 0 of VF 1 with one segment taken of a reserve, within which its overlay may be doubled once, and a store of id 3 that waits. -/
def sOvl (size : Nat) : State :=
  { sHyp { ctlJob 103#13 0x20#8 0#88 with hyp := 3#6 } with
    hyps := ⟨[(3, some 0#6)], [ovl3], [], [], [(0, 1)], [(0#8, 3#6, 0)]⟩
    hub := { Hub.empty with ctxs := [(0, 1#256 <<< 160 ||| 1#256)] }
    fns := [(1, { Fn.empty with ovlSize := size })] }

/-- REFUTE of an id with a descendant leaves neither live (R164). -/
theorem test_refute_descendant :
    (let s := { sHyp (ctlJob 0x1000#13 0x51#8 3#88) with hyps := ⟨[(3, some 0#6), (9, some 3#6), (11, some 0#6)], [], [], [], [], []⟩ }
     match exec (.refute 0x1000#13 (cmdFor 3#88)) s with
     | .next t => [hypParent t 0#8 3#6, hypParent t 0#8 9#6, hypParent t 0#8 11#6]
     | _ => []) = [none, none, some 0#6] := by decide +kernel

theorem witness_HypothesisCommands :
    (let c : BitVec 88 := 5#88
     AtCommand (sHyp (ctlJob 0x1000#13 0x50#8 c)) 0x1000#13 0x50#8 (cmdFor c) (ctlJob 0x1000#13 0x50#8 c) ∧
      hypLive (sHyp (ctlJob 0x1000#13 0x50#8 c)) 0#8 5#6 = false ∧ hypLive (sHyp (ctlJob 0x1000#13 0x50#8 c)) 0#8 0#6 = true) ∧
    (let c : BitVec 88 := 3#88
     AtCommand (sHyp (ctlJob 0x1000#13 0x51#8 c)) 0x1000#13 0x51#8 (cmdFor c) (ctlJob 0x1000#13 0x51#8 c) ∧
      hypParent (sHyp (ctlJob 0x1000#13 0x51#8 c)) 0#8 3#6 = some 0#6 ∧
      hypParent (sHyp (ctlJob 0x1000#13 0x51#8 c)) 0#8 4#6 = none) ∧
    (let j := ctlJob 0x1000#13 0x52#8 64#88
     let s := withTlb (sHyp j)
     AtCommand s 0x1000#13 0x52#8 (cmdFor 64#88) j ∧ j.refuted = false ∧ (jobXlate s j 64 true) = (s, .ok ⟨0#2, 0#12, 0x20040, 16⟩)) ∧
    (let c : BitVec 88 := 3#88
     let j : Job := { ctlJob 0x1000#13 0x51#8 c with run := { CmdRun.empty with i := 1 } }
     AtCommand (sHyp j) 0x1000#13 0x51#8 (cmdFor c) j ∧ j.run.i = 1 ∧ ∀ r, r ∈ (sHyp j).links.remotes → r.who ≠ .resolve j.id) ∧
    (∀ size, size ∈ [0, 2] →
      let s := sOvl size
      ovlWaiter s 0#8 = some 3#6 ∧ hypParent s 0#8 3#6 = some 0#6 ∧ (bits (ctxEntry s 0#8) 152 8 : BitVec 8).toNat = 0 ∧
      (bits (ctxEntry s 0#8) 160 8 : BitVec 8).toNat = 1 ∧ noReserve s 0#8 2 = decide (size = 0)) ∧
    (∀ w, w ∈ (sLevel).hyps.waits → w.1 = 0#8 → w.2.2 ≠ now sLevel) := by
  unfold AtCommand
  refine ⟨?_, ?_, ?_, ?_, ?_, ?_⟩ <;> decide +kernel

/-- A page of tenant 5 at 0x5000, moving, with a policy that roots its tables at 0. -/
def sPage (j : Job) : State :=
  { sTables with
    dist := (atJob j sLevel).dist
    fns := [(1, { Fn.empty with policy := 5#256 <<< 48 ||| 1#256 <<< 32 })]
    sets := [⟨5#16, false, 0x5000, 4096, 1#2, 0, true, false, false, true⟩] }
/-- TIER 1 and TIER 2 of one page at 0x5000. -/
def atT1 : BitVec 88 := 0x100000000005000#88
def atT2 : BitVec 88 := 0x200000000005000#88
/-- A tier command's job. -/
def tierJob (ops : BitVec 88) (i : Nat) : Job := { ctlJob 0x1001#13 0x61#8 ops with run := { CmdRun.empty with i := i } }
/-- A node whose policy lets it pin 2 MiB, or nothing. -/
def pins (mb2 : BitVec 256) (s : State) : State := withNode { node0 with lrec := 1#2048 <<< 272, policy := mb2 <<< 32 } s

theorem witness_TiersAndTenants :
    (let j := ctlJob 0x1001#13 0x60#8 atT1
     AtCommand (atJob j sLevel) 0x1001#13 0x60#8 (cmdFor atT1) j ∧ tierOk (cmdFor atT1).ops = true) ∧
    (AtCommand (atJob (tierJob atT2 0) sLevel) 0x1001#13 0x61#8 (cmdFor atT2) (tierJob atT2 0) ∧ tierOk (cmdFor atT2).ops = true ∧
      bits (cmdFor atT2).ops 56 2 = 2#2) ∧
    (let s := pins 0#256 (atJob (tierJob atT1 0) sLevel)
     AtCommand s 0x1001#13 0x61#8 (cmdFor atT1) (tierJob atT1 0) ∧ bits (cmdFor atT1).ops 56 2 = 1#2 ∧
      pinLimit s (tierJob atT1 0) < pinnedBytes s 5#16 + ((tierPages (cmdFor atT1).ops).filter fun va => !s.sets.any fun p => decide (p.tenant = 5#16) && p.pinned && decide (p.va = va)).length * 4096) ∧
    (let s := pins 1#256 (atJob (tierJob atT1 0) sLevel)
     AtCommand s 0x1001#13 0x61#8 (cmdFor atT1) (tierJob atT1 0) ∧
      pinnedBytes s 5#16 + ((tierPages (cmdFor atT1).ops).filter fun va => !s.sets.any fun p => decide (p.tenant = 5#16) && p.pinned && decide (p.va = va)).length * 4096 ≤ pinLimit s (tierJob atT1 0)) ∧
    (let s := pins 1#256 (atJob (tierJob atT1 1) sLevel)
     AtCommand s 0x1001#13 0x61#8 (cmdFor atT1) (tierJob atT1 1) ∧ s.sets = []) ∧
    (let s := { withInput [5#8, 0#8, 0#8, 0x50#8] (sPage (tierJob atT1 0)) with hub := { Hub.empty with t2size := 1#64 } }
     (s.sets.find? fun p => decide (p.tenant = s.opnd 0 16) && !p.image && p.moving && decide (p.va = (s.opnd 2 56 : BitVec 56).toNat)) =
        some ⟨5#16, false, 0x5000, 4096, 1#2, 0, true, false, false, true⟩ ∧
      engineLeaf s (s.opnd 0 16) (s.opnd 2 56 : BitVec 56).toNat = some ⟨0x2000B#64, 0x11028, 12⟩ ∧
      accessPending s (s.opnd 0 16) 0x5000 4096 = false ∧ entType (0x2000B#64) = 0#2 ∧
      holdsPinned s ⟨5#16, false, 0x5000, 4096, 1#2, 0, true, false, false, true⟩ = false ∧
      frameOk s true 12 (s.opnd 9 52 : BitVec 52).toNat = true ∧
      let p : SetPage := ⟨5#16, false, 0x5000, 4096, 1#2, 0, true, true, false, true⟩
      let s2 : State := { s with sets := [p] }
      (s2.sets.find? fun p => decide (p.tenant = s.opnd 0 16) && !p.image && p.moving && decide (p.va = (s.opnd 2 56 : BitVec 56).toNat)) = some p ∧
      engineLeaf s2 (s.opnd 0 16) (s.opnd 2 56 : BitVec 56).toNat = some ⟨0x2000B#64, 0x11028, 12⟩ ∧
      accessPending s2 (s.opnd 0 16) 0x5000 4096 = false ∧ holdsPinned s2 p = true) ∧
    (let s := withInput [5#8, 0#8, 0#8, 0x60#8] (sPage (tierJob atT1 0))
     let p : SetPage := ⟨5#16, false, 0x6000, 4096, 1#2, 0, true, false, false, true⟩
     let s := { s with sets := [p] }
     (s.sets.find? fun p => decide (p.tenant = s.opnd 0 16) && !p.image && p.moving && decide (p.va = (s.opnd 2 56 : BitVec 56).toNat)) = some p ∧
      engineLeaf s (s.opnd 0 16) (s.opnd 2 56 : BitVec 56).toNat = none) := by
  unfold AtCommand
  refine ⟨?_, ?_, ?_, ?_, ?_, ?_, ?_⟩ <;> decide +kernel

/-! ## The scheduler -/

/-- The machine with its PF open. -/
def sOpen (f : Fn) : State := { s0 with hub := { Hub.empty with pfOpen := true }, fns := if f = Fn.empty then [] else [(1, f)] }
/-- A write to VF 1's launch window: offset and length, and a record of zeros. -/
def launchIn (off len : BitVec 16) : List Byte := [1#8, 0#8, bits off 0 8, bits off 8 8, bits len 0 8, bits len 8 8]

/-- A write of 64 bytes is no LAUNCH: BADW, and nothing queued (R183). -/
theorem test_launch_badw :
    (match exec .launch (withInput (launchIn 0#16 64#16) (sOpen Fn.empty)) with
     | .next t => ((getFn t 1#10).badw, t.dist.subq.length, (getFn t 1#10).credits)
     | _ => (false, 9, 0#7)) = (true, 0, 64#7) := by decide +kernel

theorem witness_Submission :
    (let s := withInput (launchIn 0#16 256#16) (sOpen Fn.empty)
     windowOpen s (s.opnd 0 10) = true ∧ (s.opnd 2 16 : BitVec 16).toNat = 0 ∧ (s.opnd 4 16 : BitVec 16).toNat = 256 ∧
      (getFn s (s.opnd 0 10)).credits ≠ 0#7) ∧
    (let s := withInput (launchIn 0#16 256#16) (sOpen { Fn.empty with credits := 0#7 })
     windowOpen s (s.opnd 0 10) = true ∧ (getFn s (s.opnd 0 10)).credits = 0#7) ∧
    (let s := withInput (launchIn 0#16 0x8080#16) (sOpen Fn.empty)
     windowOpen s (s.opnd 0 10) = true ∧ bitAt (s.opnd 4 16 : BitVec 16) 15 = true ∧ (bits (s.opnd 4 16 : BitVec 16) 0 15).toNat = 128) ∧
    (let s := withInput (launchIn 128#16 0x8080#16) (sOpen { Fn.empty with half := some 7#1024 })
     windowOpen s (s.opnd 0 10) = true ∧ bitAt (s.opnd 4 16 : BitVec 16) 15 = true ∧ (bits (s.opnd 4 16 : BitVec 16) 0 15).toNat = 128 ∧ (s.opnd 2 16 : BitVec 16).toNat = 128 ∧ (getFn s (s.opnd 0 10)).half = some 7#1024 ∧
      (getFn s (s.opnd 0 10)).credits ≠ 0#7) ∧
    (let s := withInput (launchIn 128#16 0x8080#16) (sOpen { Fn.empty with half := some 7#1024, credits := 0#7 })
     windowOpen s (s.opnd 0 10) = true ∧ bitAt (s.opnd 4 16 : BitVec 16) 15 = true ∧ (getFn s (s.opnd 0 10)).half = some 7#1024 ∧ (getFn s (s.opnd 0 10)).credits = 0#7) ∧
    (let s := withInput (launchIn 255#16 1#16) (sOpen Fn.empty)
     windowOpen s (s.opnd 0 10) = true ∧ (s.opnd 2 16 : BitVec 16).toNat = 255 ∧ (s.opnd 2 16 : BitVec 16).toNat < 256) ∧
    (let s := withInput (launchIn 0#16 128#16) (sOpen Fn.empty)
     windowOpen s (s.opnd 0 10) = true ∧ (s.opnd 2 16 : BitVec 16).toNat = 0 ∧ bitAt (s.opnd 4 16 : BitVec 16) 15 = false ∧
      (bits (s.opnd 4 16 : BitVec 16) 0 15).toNat = 128) := by decide +kernel

/-- A launch record: one level, SYNCSITE 6 (R28). -/
def rec0 : BitVec 2048 := 6#2048 <<< 948 ||| 1#2048 <<< 320 ||| 1#2048 <<< 304 ||| 1#2048 <<< 272
/-- A scratchpad frame of MT 6 (R230), and a header that counts itself and it and asks for one MT (R218). -/
def spadF : Frame := (0x2060000000002000#64, 7#256)
def headF : Frame := (0xF000000000000000#64, 0x314C5849#256 <<< 224 ||| 1#256 <<< 208 ||| 2#256 <<< 160 ||| 1#256 <<< 48)
/-- The machine that holds this image under digest 0. -/
def sImage (s : State) : State := { s with dist := { s.dist with images := [⟨0#256, [headF, spadF]⟩] } }
/-- A node of the pool that waits for its instance. -/
def waiting : Node := { node0 with lrec := rec0, insts := [], dataWritten := true }
/-- The machine with it and nothing running. -/
def sPool (n : Node) (c : BitVec 64) : State :=
  sImage { State.reset with dist := { State.reset.dist with nodes := [n] }, cycle := c }

theorem witness_Acceptance :
    (let u : Submit := ⟨1#10, false, true, rec0⟩
     let s := { sImage s0 with dist := { (sImage s0).dist with subq := [u] } }
     s.input = [] ∧ s.dist.subq = [u] ∧ acceptCheck s u (takenRecord s u) = .ok () ∧ bits (takenRecord s u) 376 8 = 0#8) ∧
    (let u : Submit := ⟨1#10, false, true, 0#2048⟩
     let s := { sImage s0 with dist := { (sImage s0).dist with subq := [u] } }
     acceptCheck s u (takenRecord s u) = .error lsBadSelector) ∧
    (let s := sPool waiting 8000000#64
     findNode s 0 = some waiting ∧ waiting.st = .pool ∧ waiting.insts = [] ∧ waiting.aborting = false ∧ waiting.prio.toNat < 6 ∧
      waiting.prioAt + 8000000 ≤ now s) ∧
    (let s := sPool waiting 4000000#64
     firstUnplaced s = some waiting ∧ waiting.readyAt + 4000000 ≤ now s ∧ s.dist.holdback.contains waiting.id = false) ∧
    (let n := { waiting with gateAt := some 0 }
     let s := sPool n 400000000#64
     findNode s 0 = some n ∧ n.gateAt = some 0 ∧ n.st = .pool ∧ 400000000 ≤ now s ∧ n.fracAt + 40000000 ≤ now s) := by
  refine ⟨⟨?_, ?_, except_of_test _ _ ?_, ?_⟩, except_of_test _ _ ?_, ?_, ?_, ?_⟩ <;> decide +kernel

/-- An instance that is being configured, over MT 6 alone. -/
def fresh (fs : List Frame) : Inst := { inst0 with st := .configuring, elems := [24], ops := [], frames := fs }
/-- A frame at MT 6 of a class that it has not. -/
def wrongF : Frame := (0x0060000000000000#64, 0#256)

/-- A routing frame of MT 6: the entry of L0 on VC 4 to E (R237, R238). -/
def routeF : Frame := (0x4060000000000008#64, 0x8540#256 <<< 64)
/-- A dispatch of the node at the translation 0 meets what DISPATCH asks: the image fits on free elements, and what the first dispatch
writes can be written. -/
def dispatches (n : Node) : Bool :=
  let s := sPool n 0#64
  let v := sweepLost s n
  decide (findNode v 0 = some n) && decide (findNode s 0 = some n) && wantsInst n && demandMet v (nodeImage v n) && gateMet v n && firstInPool v n &&
    (match dispatchImage v n none with
      | (w, some image) =>
        let fs := bindArgs n.lrec image
        let moved := fs.map (⟨0, 0⟩ : Shift).frame
        (⟨0, 0⟩ : Shift).ok fs && demandHere w none fs && placeFree w none moved && !(moved.filter Frame.placed).isEmpty &&
          (match dispatchCheck w n with | .ok _ => true | .error _ => false) && decide (globCount fs = 0) && (n.dataWritten || (firstDispatch w n ⟨0, 0⟩ fs).2)
      | _ => false)

/-- The machine in which the control cores of die 0 run, with a scratchpad frame for the MT of its corner, of which the bank is given. -/
def sCores (bank : BitVec 1) : State :=
  withInput [0#8, 0x20#8, 0#8, 0#8, 0#8, bank.setWidth 8, 0x20#8, 0x20#8, 7#8]
    { s0 with hub := { s0.hub with cores := vset s0.hub.cores 0 { CtlCore.empty with running := true } } }
/-- With its corner's subgraph started. -/
def cornerUp (s : State) : State := setDie s 0#2 { getDie s 0#2 with corner := true }

/-- A control core's frame goes to the shadow bank with BANK 1, and with BANK 0 to the active one, but not once the corner has started (R220). -/
theorem test_corner_frame :
    (match exec (.frameWrite 0xFFFFFF00#32) (sCores 1#1), exec (.frameWrite 0xFFFFFF00#32) (sCores 0#1), exec (.frameWrite 0xFFFFFF00#32) (cornerUp (sCores 0#1)) with
      | .next a, .next b, .next c => (a.fab.shadow.length, spadByte a 2#12 0, spadByte b 2#12 0, spadByte c 2#12 0)
      | _, _, _ => (9, 9#8, 9#8, 9#8)) = (1, 0#8, 7#8, 0#8) := by decide +kernel

theorem witness_CornerFrames :
    (∀ b, let s := sCores b
      let f : Frame := (s.opnd 0 64, s.opnd 8 256)
      s.input ≠ [] ∧ (match frameCheck true f with | .ok _ => true | .error _ => false) = true ∧ siteDie f.site = 0#2 ∧ f.cls ≠ 4 ∧ coresRun s 0#2 = true ∧
      f.bank = decide (b = 1#1) ∧ linksOk (putActive s f.site f.cls f.sub f.idx f.2) f.site = true ∧ (getDie s 0#2).corner = false ∧
      (getDie (cornerUp s) 0#2).corner = true ∧ coresRun (cornerUp s) 0#2 = true) ∧
    (let s : State := { sCores 0#1 with input := [] }
     coresRun s 0#2 = true ∧ s.input = [] ∧ (getDie s 0#2).corner = false ∧ (getDie s 1#2).live = true ∧ (getDie s 1#2).fenced = false ∧
      (getDie s 1#2).corner = false) ∧
    (let s : State := { sCores 0#1 with input := [], dies := Vector.replicate 4 { Die.empty with corner := true } }
     let s := setDie s 0#2 Die.empty
     coresRun s 0#2 = true ∧ (getDie s 0#2).corner = false ∧ ∀ x : BitVec 2, x ≠ 0#2 → (getDie s x).corner = true) ∧
    coresRun s0 0#2 = false := by decide +kernel

theorem witness_Dispatching :
    (dispatches waiting = true ∧ dispatches { waiting with dataWritten := false } = true) ∧
    (let s := { sPool waiting 0#64 with dies := Vector.replicate 4 { Die.empty with live := false } }
     findNode (sweepLost s waiting) 0 = some waiting ∧ findNode s 0 = some waiting ∧ wantsInst waiting = true ∧
      demandMet (sweepLost s waiting) (nodeImage (sweepLost s waiting) waiting) = false) ∧
    (let i := fresh [spadF]
     let s := withInst i s0
     findInst s 1 = some i ∧ findNode s i.node = some node0 ∧ i.st = .configuring ∧ receiverCheck i node0 spadF = .ok () ∧
      (storeFrame s i node0 spadF).isSome = true) ∧
    (let i := fresh [routeF]
     receiverCheck i node0 routeF = .ok () ∧ (storeFrame (withInst i s0) i node0 routeF).isNone = true) ∧
    receiverCheck (fresh [wrongF]) node0 wrongF = .error lsBadSelector ∧
    (let s := withInst (fresh []) s0
     s.links.remotes = [] ∧ instCheck (bankView s (fresh [])) (fresh []) node0 = .ok ()) ∧
    (let s := withInput (List.replicate 40 0#8) s0
     let f : Frame := (s.opnd 0 64, s.opnd 8 256)
     s0.input = [] ∧ s.input ≠ [] ∧ siteDie f.site = 0#2 ∧ f.cls ≠ 4) := by
  refine ⟨?_, ?_, ⟨?_, ?_, ?_, except_of_test _ _ ?_, ?_⟩, ⟨except_of_test _ _ ?_, ?_⟩, except_of_test _ _ ?_,
    ⟨?_, except_of_test _ _ ?_⟩, ?_⟩ <;> decide +kernel

/-- A node with no group left, whose completion word stands in MT 6. -/
def done0 : Node := { waiting with groups := 0 }

theorem witness_NodeEnd :
    (findInst s0 1 = some inst0 ∧ inst0.st = .running) ∧
    (let s := sPool done0 0#64
     findNode s 0 = some done0 ∧ canComplete s done0 = true ∧ siteKind (syncSiteOf done0) = .mt ∧ syncOffOf done0 % 16 = 0 ∧
      syncOffOf done0 + 32 ≤ spadSize ∧ (getMt s (syncSiteOf done0)).waiters = []) ∧
    (let m := { done0 with st := .closing }
     let s := sPool m 0#64
     findNode s 0 = some m ∧ canComplete s m = false ∧ m.st = .closing ∧ nodeWrites s m = false ∧ syncReady s (syncSiteOf m) = true) ∧
    (let m := { done0 with st := .closing }
     let s := setMt (sPool m 0#64) (syncSiteOf m) { Mt.empty with syncq := [(64, 1)] }
     findNode s 0 = some m ∧ canComplete s m = false ∧ syncReady s (syncSiteOf m) = false) ∧
    (let n := { node0 with lrec := 5#2048 <<< 512, firstAt := some 0 }
     let s := { withNode n s0 with cycle := 5#64 }
     findNode s 0 = some n ∧ n.firstAt = some 0 ∧ n.st = .pool ∧ n.aborting = false ∧ bits n.lrec 512 64 ≠ 0#64 ∧
      0 + (bits n.lrec 512 64).toNat ≤ now s) ∧
    (let i := { inst0 with dogs := 16777216 }
     let s := withInst i s0
     findInst s 1 = some i ∧ i.st = .running ∧ 2 ^ s.hub.watchLg.toNat ≤ i.dogs ∧ findNode s i.node = some node0) ∧
    (let s := { s0 with fab := { s0.fab with zeroing := [(24, true)] } }
     Table.get false s.fab.zeroing 24 = true ∧ (getDie s (siteDie 6#12)).fenced = false ∧ siteKind 6#12 = .mt) := by decide +kernel

/-! ## Faults -/

/-- A fault of AG 0 at site 6, waiting for its ring slot. -/
def pend0 : PendFault := ⟨6#12, 0#3, 0#1, 1, 0#512, faultTok 6#12 0#3 0#1 3#8⟩
/-- A ring record of an element: AG 0 at site 6, or task 0 at site 4. -/
def ringAg : RingEnt := ⟨0#8, 3#16, 6#12, 0#3, 0#1, 1, faultTok 6#12 0#3 0#1 3#8, false, false, false⟩
def ringTask : RingEnt := ⟨0#8, 3#16, 4#12, 0#3, 1#1, 1, faultTok 4#12 0#3 1#1 2#8, false, false, false⟩
/-- Die 0 with a ring, waiting records, and REPAIRs. -/
def withDie (d : Die) (s : State) : State := setDie s 0#2 d
/-- The code of the record in slot 0 of die 0's ring (R372). -/
def ringCode (c : Byte) (s : State) : State :=
  { s with store := { s.store with spad := [(2 * 1048576 + 46, c)] } }
/-- AG 0 at site 6 stands on a fault with number 3. -/
def stuckAg (s : State) : State := withAg (fun a => { a with st := .faulted .bounds (some 3#16) }) s
/-- Task 0 at site 4 is stopped by TRAP with number 3. -/
def stuckTask (s : State) : State := withTask (fun k => { k with st := .trapped, trapSeq := some 3#16 }) s
/-- A WRSYS of a corner CE whose selector p1 holds a number. -/
def stageSys : Stage := { stage5 with site := 1#12, a := 1#6, b := 2#6 }
def sysNum (n v : Word) (s : State) : State :=
  setTask s 1#12 0#3 { Task.empty with p := #v[0#512, splat n, splat v, 0#512, 0#512, 0#512] }

/-- The oldest record of die 0 is of page 5 of tenant 5, recorded at T1, whose entry is of host memory (R372, R412). -/
def sHeld : State :=
  let s := stuckAg (sPage (tierJob atT1 0))
  withDie { Die.empty with ring := [ringAg] } { s with store := { s.store with
    mem := s.store.mem.map fun x => if x.1 = 0x11028 then (x.1, 0x4B#8) else x
    spad := [(2 * 1048576 + 38, 0x50#8), (2 * 1048576 + 46, 1#8), (2 * 1048576 + 54, 5#8)] } }

/-- A stopped AG's record of a code in slot 0 of die 0, in a package with these functions. -/
def atHost (c : Byte) (fns : Table Fn) (q : List Escal) : State :=
  { withDie { Die.empty with ring := [ringAg], escalq := q } (ringCode c (stuckAg s0)) with fns := fns }
/-- What a control core may find when a record is copied to it: no stopped element; an overlay that may be doubled; a page held at T2; a
function without a ring; one whose ring is full; one whose ring has room. -/
def atCore : List State :=
  [withDie { Die.empty with ring := [ringAg] } (ringCode 2#8 s0),
   { atHost 6#8 [(1, { Fn.empty with ovlSize := 2 })] [] with hub := { Hub.empty with ctxs := [(0, 1#256 <<< 160 ||| 1#256)] } },
   sHeld,
   atHost 2#8 [] [],
   atHost 2#8 [(0, { Fn.empty with ringEn := true })] [⟨9#8, 0#2, 0#512, 0#10, some 0, 0, 0, false, false⟩],
   atHost 2#8 [(0, { Fn.empty with ringEn := true })] []]
/-- Records at core 0: one whose page has moved, and posted ones, of a code that no walk concerns or of a translation fault. -/
def pollEnts : List Escal :=
  [⟨0#8, 0#2, 0#512, 0#10, none, 0, 0, true, true⟩, ⟨0#8, 0#2, 0x80#512 <<< 368, 0#10, some 0, 0, 0, true, false⟩,
   ⟨0#8, 0#2, 1#512 <<< 368, 0#10, some 0, 0, 2, false, false⟩]

theorem witness_AtCore :
    (atCore.map fun s =>
      let seen := setDie s 0#2 { getDie s 0#2 with escals := (getDie s 0#2).escals + 1#32 }
      let rcd := ringRecord s 0#2 ringAg.slot
      (elementStopped s ringAg.site ringAg.subt ringAg.kind, (bits rcd 368 8 : BitVec 8), (enlargeOvl seen (bits rcd 414 8)).isSome,
        (heldAtT2 seen (bits rcd 432 16) (bits rcd 296 56 : BitVec 56).toNat).isSome, (getFn s (bits rcd 422 10)).ringEn, ringBusy s (bits rcd 422 10))) =
    [(false, 2#8, false, false, false, false), (true, 6#8, true, false, false, false), (true, 1#8, false, true, false, false),
     (true, 2#8, false, false, false, false), (true, 2#8, false, false, true, true), (true, 2#8, false, false, true, false)] := by decide +kernel

/-- REPAIR with action 1 lets the stopped AG go on and keeps the action (R376). -/
theorem test_repair_zero :
    (match exec (.repairToken 0#2) (withDie { Die.empty with repairs := [repairTok (repairArg ringAg 1#2)] } (stuckAg s0)) with
     | .next t => ((getAg t ag0).st, (getAg t ag0).repair, (getDie t 0#2).repairs, (getDie t 0#2).discards)
     | _ => (.idle, none, [repairTok 0#24], 9#32)) = (.running, some 1#2, [], 0#32) := by decide +kernel

theorem witness_FaultRing :
    (let d := { Die.empty with pend := [pend0] }
     let s := withDie d (withAg (fun a => { a with st := .faulted .bounds none }) s0)
     firstPend (getDie s 0#2).pend = some pend0 ∧ (getDie s 0#2).ring = [] ∧ pend0.kind = 0#1 ∧
      (getAg s ⟨pend0.site, bits pend0.subt 0 1⟩).st = .faulted .bounds none) ∧
    (let f : PendFault := { pend0 with site := 4#12, kind := 1#1 }
     let s := withDie { Die.empty with pend := [f] } (withTask (fun k => { k with st := .trapped }) s0)
     firstPend (getDie s 0#2).pend = some f ∧ f.kind = 1#1 ∧ (getTask s f.site f.subt).st = .trapped) ∧
    ((getDie s0 0#2).ring = [] ∧ (s0.opnd 0 2 : BitVec 2) = 0#2) ∧
    (bitAt (stageAct s0 stageSys) 0 = true ∧ isCorner stageSys.site = true ∧ wf (.wrsys stageSys) = true ∧
      ([0x41, 0x42, 0x43, 0x44, 0x45, 0x4F, 0x50, 0x5F, 0x60].all fun n =>
        decide (ctlA (sysNum (BitVec.ofNat 32 n) 1#32 s0) stageSys = BitVec.ofNat 32 n)) = true) := by decide +kernel

theorem witness_FaultHandling :
    (∀ c, c ∈ [3#8, 4#8, 5#8] →
      let s := withDie { Die.empty with ring := [ringAg] } (ringCode c s0)
      (getDie s 0#2).ring = [ringAg] ∧ bits (ringRecord s 0#2 ringAg.slot) 368 8 = c) ∧
    (let s := withDie { Die.empty with ring := [{ ringAg with answered := true }] } s0
     (getDie s 0#2).ring = [{ ringAg with answered := true }]) ∧
    (let s := withDie { Die.empty with ring := [{ ringAg with escalated := true }] } s0
     (getDie s 0#2).ring = [{ ringAg with escalated := true }] ∧
      ((getDie s 0#2).ring.find? fun r => decide (r.slot = s.opnd 1 8)) = some { ringAg with escalated := true }) ∧
    (let s := withDie { Die.empty with ring := [ringTask] } (ringCode 2#8 { s0 with fab := { s0.fab with frames := [(frameKey 4#12 1 0 8, 1#256 <<< 36)] } })
     bits (ringRecord s 0#2 ringTask.slot) 368 8 = 2#8 ∧ ringTask.kind = 1#1 ∧ bitAt (taskDesc s ringTask.site ringTask.subt.toNat) 36 = true) ∧
    (∀ s, s ∈ atCore →
      (getDie s 0#2).ring = [ringAg] ∧ ringAg.escalated = false ∧ ringAg.answered = false ∧ ringAg.kind = 0#1 ∧
      (bits (ringRecord s 0#2 ringAg.slot) 368 8 : BitVec 8) ∉ [3#8, 4#8, 5#8] ∧
      (let t := sysNum 0x44#32 0#32 s
       bitAt (stageAct t stageSys) 0 = true ∧ (ctlA t stageSys).toNat = 0x44 ∧
        ((getDie t (siteDie stageSys.site)).ring.find? fun r => decide (r.slot = (bits (ctlB t stageSys) 0 8 : BitVec 8))) = some ringAg)) ∧
    (∀ e, e ∈ pollEnts →
      let s := withDie { Die.empty with ring := [ringAg], escalq := [e] } { s0 with cycle := 4000#64 }
      ((getDie s (s.opnd 0 2)).escalq.find? fun e => decide (e.core = s.opnd 1 2) && escalDue s e) = some e ∧
      ((getDie s (s.opnd 0 2)).ring.find? fun r => decide (r.slot = e.slot)) = some ringAg ∧ wouldFault s ringAg e.rcd = true ∧
      (e.moving = false → e.posted = some 0) ∧
      ([0x80000000, 0x80000003, 0].all fun w =>
        let t := hostPut s e.fn ((getFn s e.fn).ringBase.toNat + 128 * 0 + 64) w 4
        hostGet t e.fn ((getFn t e.fn).ringBase.toNat + 128 * 0 + 64) 4 == w) = true) ∧
    (let e : Escal := ⟨0#8, 0#2, 1#512 <<< 368 ||| 0x5123#512 <<< 296, 0#10, none, 0, 0, true, true⟩
     let s := withDie { Die.empty with ring := [ringAg], escalq := [e] } sTables
     ((getDie s (s.opnd 0 2)).escalq.find? fun e => decide (e.core = s.opnd 1 2) && escalDue s e) = some e ∧ e.moving = true ∧
      wouldFault s ringAg e.rcd = false) ∧
    (∀ a, a ∈ [0#2, 1#2, 2#2, 3#2] →
      let s := withDie { Die.empty with repairs := [repairTok (repairArg ringAg a)] } (stuckAg s0)
      ((getDie s 0#2).repairs.find? fun a => !repairHeld s a.arg) = some (repairTok (repairArg ringAg a)) ∧ repairDead s (repairTok (repairArg ringAg a)).arg = false ∧
        (repairTok (repairArg ringAg a)).arg = repairArg ringAg a ∧
        (getAg s ag0).st = .faulted .bounds (some 3#16) ∧ ownerOf s 6#12 1 = some inst0 ∧ findNode s inst0.node = some node0) ∧
    (let s := withDie { Die.empty with repairs := [repairTok (repairArg ringTask 0#2)] } (stuckTask s0)
     ((getDie s 0#2).repairs.find? fun a => !repairHeld s a.arg) = some (repairTok (repairArg ringTask 0#2)) ∧ repairDead s (repairTok (repairArg ringTask 0#2)).arg = false ∧
        (repairTok (repairArg ringTask 0#2)).arg = repairArg ringTask 0#2 ∧
      (getTask s 4#12 0#3).st = .trapped ∧ (getTask s 4#12 0#3).trapSeq = some 3#16) ∧
    (let s := withDie { Die.empty with repairs := [repairTok (repairArg ringTask 0#2)] } s0
     ((getDie s 0#2).repairs.find? fun a => !repairHeld s a.arg) = some (repairTok (repairArg ringTask 0#2)) ∧ repairDead s (repairTok (repairArg ringTask 0#2)).arg = false ∧
        (repairTok (repairArg ringTask 0#2)).arg = repairArg ringTask 0#2 ∧
      (getTask s 4#12 0#3).st ≠ .trapped) := by
  refine ⟨?_, ?_, ?_, ?_, ?_, ?_, ?_, ?_, ?_, ?_⟩ <;> decide +kernel

/-! ## Pre-emption -/

/-- A node of priority 5 of tenant 6 whose FIXED image wants the MT of site 6. -/
def urgent : Node := { waiting with id := 9, prio := 5#3, tenant := 6#16 }
def fixedF : Frame := (headF.1, headF.2 ||| 2#256)
/-- The machine in which it waits for what instance 1 holds. -/
def sUrgent (i : Inst) (c : BitVec 64) : State :=
  { withInst i s0 with
    cycle := c
    dist := { s0.dist with nodes := [{ node0 with lrec := rec0 }, urgent], insts := [i], images := [⟨0#256, [fixedF, spadF]⟩] } }
/-- Instance 1 in its marker phase. -/
def marking : Inst := { inst0 with st := .marking 0 }
/-- A MARK. -/
def tokM : Token := controlTok true (cMARK 0#24) 0#6 false

/-- MARK at an AG that sends nowhere saves it (R172). -/
theorem test_mark_ag :
    (match exec (.mark 6#12 1#3) (withInst marking s0) with
     | .next t => (getAg t ag0).saved
     | _ => false) = true := by decide +kernel

theorem witness_Preemption :
    (let s := sUrgent inst0 0#64
     findInst s 1 = some inst0 ∧ (findNode s inst0.node).isSome = true ∧ awaitsElems s urgent = true ∧ regionFree s urgent = false ∧
      t1Used s + sramBytes inst0 ≤ moduleTop ∧
      chosenFor s (yielding s fun n _ => decide (n.prio.toNat < urgent.prio.toNat)) urgent inst0 = true) ∧
    (let i := { inst0 with sliceUs := 1 }
     let s := sUrgent i 4000#64
     findInst s 1 = some i ∧ awaitsElems s urgent = true ∧ regionFree s urgent = false ∧ t1Used s + sramBytes i ≤ moduleTop ∧
      chosenFor s (yielding s fun n j => decide (j.sliceUs ≠ 0) && decide (j.startedAt + j.sliceUs * 4000 ≤ now s) &&
        decide (n.tenant ≠ urgent.tenant) && decide (n.prio.toNat ≤ urgent.prio.toNat)) urgent i = true) ∧
    (s0.dist.nodes.all fun w => !awaitsElems s0 w) = true ∧
    (let s := pushBuf (pushBuf { withInst marking sEnds with cycle := 5#64 } (endKey 4#12 0) tokM 0) (endKey 4#12 4) tokM 0
     ownerOf s 4#12 0 = some marking ∧ (marking.frozen = false ∧ marking.st = .marking 0) ∧ (getCe s 4#12).saved = false ∧
      ((List.range 8).filter fun e => bitAt (ceEnd s 4#12 e) 0 && !backEnd s marking 4#12 e) = [0, 4] ∧
      markHeads s (endKey 4#12 0) = true ∧ markHeads s (endKey 4#12 4) = true ∧ (getCe s 4#12).firedNext ≤ now s ∧
      outsRoom s 4#12 (ceOuts s 4#12) = true) ∧
    (let s := withInst marking s0
     ownerOf s 6#12 1 = some marking ∧ (getAg s ag0).saved = false ∧ agSendsOn s ag0 = false) ∧
    (let s := opIn 0 tokM { withInst marking (putFrame s0 6#12 4 0 16 replayFrame) with cycle := 5#64 }
     opOwner s op00 = some marking ∧ (getOp s op00).saved = false ∧ (opCfgOf s op00).nin = 1#4 ∧
      markHeads s (opInKey 6#12 0 0) = true ∧ (getOp s op00).lastFire ≤ now s ∧
      opRoomAll s op00 (opCfgOf s op00) (opCfgOf s op00).nout.toNat = true) ∧
    (let i := { marking with limitZero := [9] }
     let s := sUrgent i 0#64
     findInst s 1 = some i ∧ i.st = .marking 0 ∧ i.frozen = false ∧ limitReached s i 0 = true) ∧
    (let s := { withInst marking s0 with cycle := 160000#64 }
     findInst s 1 = some marking ∧ marking.st = .marking 0 ∧ marking.frozen = false ∧ limitReached s marking 0 = true) ∧
    (let i := { marking with frozen := true }
     let s := withInst i s0
     findInst s 1 = some i ∧ i.st = .marking 0 ∧ phaseOver s i = true) ∧
    (let i := { inst0 with st := .swapOut false }
     findInst (withInst i s0) 1 = some i ∧ i.st = .swapOut false) ∧
    (let i := { inst0 with st := .swapIn }
     let s := withInst i s0
     let s := { s with dist := { s.dist with saves := [takeSave s i] } }
     findInst s 1 = some i ∧ i.st = .swapIn ∧ (s.dist.saves.find? fun v => decide (v.inst = i.id)) = some (takeSave s i)) ∧
    (let i := { inst0 with st := .saved, elems := [], ops := [] }
     let v := takeSave s0 inst0
     let s := { withInst i State.reset with dist := { State.reset.dist with nodes := [node0], insts := [i], saves := [v] } }
     findInst s 1 = some i ∧ (s.dist.saves.find? fun v => decide (v.inst = 1)) = some v ∧ findNode s i.node = some node0 ∧
      i.st = .saved ∧ node0.aborting = false ∧ gateMet s node0 = true ∧ firstInPool s node0 = true ∧
      restoreFits s node0 i v ⟨2, 0⟩ = true) := by
  refine ⟨?_, ?_, ?_, ?_, ?_, ?_, ?_, ?_, ?_, ?_, ?_, ?_⟩ <;> decide +kernel

/-! ## Dies and management -/

/-- The machine at a cycle. -/
def atCycle (c : BitVec 64) (s : State) : State := { s with cycle := c }

/-- POWER_LOSS clears module memory and leaves the host's (R428). -/
theorem test_power_loss :
    (match exec .powerLoss { s0 with store := { s0.store with mem := [(5, 7#8)], host := [(5, 9#8)] } } with
     | .next t => (memByte t 5, hostByte t 5, t.dist.nodes.length)
     | _ => (1#8, 0#8, 9)) = (0#8, 9#8, 0) := by decide +kernel

theorem witness_DiesAndManagement :
    ((getDie (atCycle 40000#64 s0) 0#2).live = true ∧ (getDie (atCycle 40000#64 s0) 0#2).beatAt + 40000 ≤ now (atCycle 40000#64 s0)) ∧
    (let s := atCycle 120000#64 s0
     (getDie s 0#2).live = true ∧ (getDie s 0#2).beatAt + 120000 ≤ now s ∧ s.dist.master = 0#2 ∧ (getDie s 1#2).live = true ∧
      s.dist.nodes = [node0] ∧ s.dist.insts = [inst0] ∧ inst0.node = node0.id ∧ node0.st = .pool ∧ node0.aborting = false ∧
      inst0.st ≠ .ended ∧ instOnDie inst0 0#2 = true ∧ bitAt node0.lrec 257 = false) ∧
    (let s := withInput [1#8] (atCycle 120000#64 s0)
     (getDie s 3#2).live = true ∧ (getDie s 3#2).beatAt + 120000 ≤ now s ∧ (s.opnd 0 1 : BitVec 1) = 1#1 ∧ s.dist.master ≠ 3#2) ∧
    (let s := withDie { Die.empty with live := false, fenced := true } s0
     (getDie s (s.opnd 0 2)).fenced = true) ∧
    ((s0.opnd 0 2 : BitVec 2) = 0#2 ∧ (s0.opnd 9 1 : BitVec 1) = 0#1) ∧
    (let s := withInput [1#8] s0
     (s.opnd 0 2 : BitVec 2) ≠ 0#2 ∧ (s.opnd 9 1 : BitVec 1) = 0#1) ∧
    (let s := withInput [0#8, 0#8, 0#8, 0#8, 0#8, 0#8, 0#8, 0#8, 0#8, 1#8] s0
     (s.opnd 0 2 : BitVec 2) = 0#2 ∧ (s.opnd 9 1 : BitVec 1) = 1#1 ∧ (s.opnd 1 64 : BitVec 64).toNat < moduleTop) ∧
    (let s := withInput [1#8, 0#8, 0#8, 0x60#8, 0#8, 0#8, 0#8, 0#8, 0#8, 1#8] s0
     (s.opnd 0 2 : BitVec 2) = 1#2 ∧ (s.opnd 9 1 : BitVec 1) = 1#1 ∧ (s.opnd 1 64 : BitVec 64).toNat % 2 ^ 20 < spadSize) ∧
    (let s := atCycle 240000000000#64 s0
     s.life.snapAt + 240000000000 ≤ now s ∧ currentRec s.life = none) ∧
    (let s := atCycle 4000000#64 s0
     s.life.sampleAt + 4000000 ≤ now s) ∧
    ((withInput [1#8] s0).opnd 0 1 : BitVec 1) = 1#1 ∧
    ((withInput [1#8] s0).input ≠ [] ∧ s0.input = [] ∧ s0.dist.gens = []) ∧
    (let g : GenReq := ⟨0, [], 4, 0#32, 0, 0#32, [], [0#2048], [], 6#12, 0, [], 0#2⟩
     let s := { s0 with dist := { s0.dist with gens := [g] } }
     s.input = [] ∧ ∀ g, g ∈ s.dist.gens → g.waiting = [] ∧ g.phase = 0#2) := by
  refine ⟨?_, ?_, ?_, ?_, ?_, ?_, ?_, ?_, ?_, ?_, ?_, ?_, ?_⟩ <;> decide +kernel

/-! ## Links -/

/-- The bytes of a number, least significant first, give the number again. -/
theorem leNat_bytes (m : Nat) : ∀ n : Nat, leNat ((List.range m).map fun k => BitVec.ofNat 8 (n / 256 ^ k)) = n % 256 ^ m := by
  induction m with
  | zero => intro n; simp [leNat, Nat.mod_one]
  | succ m ih =>
    intro n
    have h := ih (n / 256)
    have e : (fun k => BitVec.ofNat 8 (n / 256 ^ (k + 1))) = fun k => BitVec.ofNat 8 (n / 256 / 256 ^ k) := by
      funext k
      rw [Nat.div_div_eq_div_mul, Nat.pow_succ, Nat.mul_comm]
    rw [List.range_succ_eq_map, List.map_cons, List.map_map]
    simp only [leNat, Function.comp_def, e, h, Nat.pow_zero, Nat.div_one, BitVec.toNat_ofNat]
    rw [Nat.pow_succ 256 m, Nat.mul_comm (256 ^ m) 256, Nat.mod_mul]

/-- What the outside presents when a flit arrives at port `p`. -/
def flitIn (p : Byte) (f : BitVec 2048) (s : State) : State :=
  withInput (p :: (List.range 256).map fun k => BitVec.ofNat 8 (f.toNat / 256 ^ k)) s
theorem flit_in (p : Byte) (f : BitVec 2048) (s : State) : (flitIn p f s).opnd 1 2048 = f := by
  have e : (256 : Nat) ^ 256 = 2 ^ 2048 := by decide +kernel
  have h : (((flitIn p f s).input.drop 1).take ((2048 + 7) / 8)) = (List.range 256).map fun k => BitVec.ofNat 8 (f.toNat / 256 ^ k) := by
    simp only [flitIn, withInput, List.drop_succ_cons, List.drop_zero]
    exact List.take_of_length_le (by simp)
  rw [State.opnd, h, leNat_bytes, e, Nat.mod_eq_of_lt f.isLt]
  exact BitVec.eq_of_toNat_eq (by rw [BitVec.toNat_ofNat]; exact Nat.mod_eq_of_lt f.isLt)
/-- The halves of two bit vectors in one. -/
theorem low_part {w v : Nat} (a : BitVec w) (b : BitVec v) : (a ++ b).extractLsb' 0 v = b := by
  apply BitVec.eq_of_getElem_eq
  intro i h
  simp [BitVec.getElem_extractLsb', BitVec.getLsbD_append, h]
theorem high_part {w v : Nat} (a : BitVec w) (b : BitVec v) : (a ++ b).extractLsb' v w = a := by
  apply BitVec.eq_of_getElem_eq
  intro i h
  simp [BitVec.getElem_extractLsb', BitVec.getLsbD_append, h]
theorem low_bits {w v n : Nat} (h : n ≤ v) (a : BitVec w) (b : BitVec v) : (a ++ b).extractLsb' 0 n = b.extractLsb' 0 n := by
  apply BitVec.eq_of_getElem_eq
  intro i hi
  have : i < v := Nat.lt_of_lt_of_le hi h
  simp [BitVec.getElem_extractLsb', BitVec.getLsbD_append, this]
/-- A sealed flit is right, and with one more in its CRC it is wrong. -/
theorem flit_sealed (low : BitVec 1984) : flitOk (sealFlit low) = true := by
  refine decide_eq_true ?_
  exact (high_part (Config.crc64 low) low).trans (congrArg Config.crc64 (low_part (Config.crc64 low) low).symm)
def badFlit (low : BitVec 1984) : BitVec 2048 := (Config.crc64 low + 1#64) ++ low
theorem flit_broken (low : BitVec 1984) : flitOk (badFlit low) = false := by
  refine decide_eq_false fun h => ?_
  have h1 : Config.crc64 low + 1#64 = Config.crc64 low :=
    (high_part (Config.crc64 low + 1#64) low).symm.trans (h.trans (congrArg Config.crc64 (low_part (Config.crc64 low + 1#64) low)))
  have h2 := congrArg BitVec.toNat h1
  simp at h2
  omega
/-- What port 17 makes of that input. -/
def at17 (z : ZPort) : State := setZp s0 17 z

/-- A flit that it keeps, resent so often. -/
def kept (n : Nat) : KeptFlit := ⟨0#12, 0#2048, n⟩

theorem witness_LinkPorts :
    (∀ low, let s := flitIn 17#8 (sealFlit low) (at17 ZPort.empty)
      flitOk (s.opnd 1 2048) = true ∧ s.opnd 1 2048 = sealFlit low ∧ bits (sealFlit low) 0 12 = bits low 0 12) ∧
    (let s := flitIn 17#8 (badFlit 0#1984) (at17 ZPort.empty)
     (s.opnd 0 5 : BitVec 5).toNat = 17 ∧ flitOk (s.opnd 1 2048) = false) ∧
    ((bits (0#1984) 0 12 : BitVec 12) = (getZp (at17 ZPort.empty) 17).expect ∧
      (bits (1#1984) 0 12 : BitVec 12) ≠ (getZp (at17 ZPort.empty) 17).expect) ∧
    (let s := withInput [17#8, 1#8] (at17 { ZPort.empty with retry := [kept 16] })
     (s.opnd 0 5 : BitVec 5).toNat = 17 ∧ (s.opnd 2 2 : BitVec 2) = 0#2 ∧ (getZp s 17).down = false ∧
      (∃ x, x ∈ (getZp s 17).retry ∧ 16 ≤ x.resent) ∧ (s.opnd 1 1 : BitVec 1) = 1#1) ∧
    (let s := withInput [17#8, 0#8] (at17 { ZPort.empty with retry := [kept 16], fails := 2 })
     (getZp s 17).down = false ∧ (s.opnd 2 2 : BitVec 2) = 0#2 ∧ (∃ x, x ∈ (getZp s 17).retry ∧ 16 ≤ x.resent) ∧ (s.opnd 1 1 : BitVec 1) = 0#1 ∧
      2 ≤ (getZp s 17).fails) ∧
    (let s := atCycle 40000#64 (withInput [17#8, 1#8] (at17 { ZPort.empty with retry := [kept 0] }))
     (getZp s 17).down = false ∧ (s.opnd 2 2 : BitVec 2) = 0#2 ∧ (getZp s 17).retry ≠ [] ∧ (getZp s 17).ackAt + 40000 ≤ now s) ∧
    (let s := withInput [17#8] (at17 { ZPort.empty with retry := [kept 15] })
     (s.opnd 2 2 : BitVec 2) = 0#2 ∧ (∀ x, x ∈ (getZp s 17).retry → x.resent < 16) ∧ now s < (getZp s 17).ackAt + 40000) ∧
    (((withInput [3#8, 0#8, 1#8] s0).opnd 2 2 : BitVec 2) = 1#2 ∧ ((withInput [3#8, 0#8, 2#8] s0).opnd 2 2 : BitVec 2) = 2#2 ∧
      ((withInput [3#8, 0#8, 2#8] s0).opnd 0 5 : BitVec 5).toNat < 18) := by
  refine ⟨fun low => ⟨?_, flit_in _ _ _, ?_⟩, ⟨?_, ?_⟩, ?_, ?_, ?_, ?_, ?_, ?_⟩
  · rw [flit_in]
    exact flit_sealed low
  · exact low_bits (by decide) (Config.crc64 low) low
  · decide +kernel
  · rw [flit_in]
    exact flit_broken 0#1984
  · decide +kernel
  · refine ⟨?_, ?_, ?_, ⟨kept 16, ?_, ?_⟩, ?_⟩ <;> decide +kernel
  · refine ⟨?_, ?_, ⟨kept 16, ?_, ?_⟩, ?_, ?_⟩ <;> decide +kernel
  · decide +kernel
  · decide +kernel
  · decide +kernel

/-- Three nodes of a route, a reservation of one slot for tenant 5 at node 7, and a request of a stash's write-back. -/
def hub7 : Hub := { Hub.empty with zroute := [(7, 1#18)], nearRes := [(5 * 4096 + 7, 1)], nearFree := [(5 * 4096 + 7, 1)] }
def remote7 : Remote := ⟨0, .writeBack 1, 5#16, 7#12, 1#3, 0, 1, 0, 0#2048, 0#256, false, 0#64, 0#4, none, false, false⟩
def withRemote (r : Remote) (s : State) : State := { s with hub := hub7, links := { s.links with remotes := [r] } }
/-- A reply that a port owes and that waits for that request. -/
def owed : ReplyEnt := ⟨1#8, 0, 0, 0#32, 0#32, 0xFFFF#16, 0#6, false, [⟨0#512, 0#16, false⟩], [], 0, [0], [], false, []⟩

theorem witness_RemoteRequests :
    (let s := withRemote remote7 s0
     let who := issuer s 0x1FFF#13 0#3
     firstWaiting s who = some remote7 ∧ peerOut s 5#16 7#12 = false ∧ slotsAhead s who remote7.pair < freeSlots s remote7.pair ∧
      issuedNow s who = false ∧ linkRoom s 7#12 = true ∧ remote7.who = .writeBack 1 ∧ remote7.behind s = false) ∧
    (let r := { remote7 with who := .port 6#12 0#3, kind := 0#3 }
     let q := { remote7 with idx := 1, issued := some 0 }
     let s := { s0 with hub := { hub7 with nearFree := [] }, links := { s0.links with remotes := [r, q] } }
     let who := issuer s 6#13 0#3
     firstWaiting s who = some r ∧ peerOut s r.tenant r.node = false ∧ issuedNow s who = false ∧ linkRoom s r.node = true ∧ r.behind s = false ∧
      freeSlots s r.pair ≤ slotsAhead s who r.pair ∧ takenAfter s who r.pair = some q) ∧
    (let q := { remote7 with idx := 1, who := .port 6#12 0#3, kind := 0#3 }
     let s := { s0 with hub := hub7, links := { s0.links with remotes := [remote7, q] } }
     firstWaiting s (issuer s 6#13 0#3) = some q ∧ peerOut s q.tenant q.node = false ∧ q.behind s = true) ∧
    (let s := withRemote remote7 s0
     let s := { s with links := { s.links with lost := [(7, true)] } }
     firstWaiting s (issuer s 0x1FFF#13 0#3) = some remote7 ∧ peerOut s 5#16 7#12 = true ∧ remote7.who = .writeBack 1) ∧
    (let r := { remote7 with issued := some 0 }
     let s := withRemote r s0
     (s.links.remotes.find? fun r => decide (r.idx % 65536 = (s.opnd 0 16 : BitVec 16).toNat) && r.issued.isSome) = some r ∧
      (s.opnd 2 2 : BitVec 2) = 0#2 ∧ ((withInput [0#8, 0#8, 1#8] s).opnd 2 2 : BitVec 2) ≠ 0#2 ∧ r.credited = false) ∧
    (let s := withInput [1#8] (withRemote remote7 s0)
     (s.opnd 0 16 : BitVec 16).toNat = 1 ∧ remote7.issued = none) ∧
    (let s := { withRemote remote7 s0 with links := { s0.links with late := [(0, remote7.pair)] } }
     (∀ x, x ∈ s.links.remotes → x.idx % 65536 = (s.opnd 0 16 : BitVec 16).toNat → x.issued = none) ∧
      (s.links.late.find? fun x => decide (x.1 % 65536 = (s.opnd 0 16 : BitVec 16).toNat)) = some (0, remote7.pair)) ∧
    (let r := { remote7 with issued := some 0 }
     now (withRemote r s0) < 0 + (withRemote r s0).hub.rtimeoutUs.toNat * 4000 ∧
      0 + (withRemote r s0).hub.rtimeoutUs.toNat * 4000 ≤ now (atCycle 4000000#64 (withRemote r s0))) ∧
    (let r := { remote7 with issued := some 0, who := .port 6#12 0#3 }
     let s := atCycle 4000000#64 (withRemote r (setPort s0 loc0 { Port.empty with replies := [owed] }))
     (s.links.remotes.find? fun r => decide (r.idx % 65536 = (s.opnd 0 16 : BitVec 16).toNat)) = some r ∧ r.who = .port 6#12 0#3 ∧
      (getPort s ⟨6#12, 0#3⟩).replies = [owed] ∧ owed.remote = [0] ∧ nodeOf s 6#12 0 = some node0) ∧
    (let s := withInput [7#8] (withRemote remote7 s0)
     (s.opnd 0 12 : BitVec 12) = 7#12 ∧ s.links.remotes = [remote7] ∧ remote7.who = .writeBack 1) ∧
    (let s := { s0 with hub := { Hub.empty with zroute := [(0, 1#18)] }
                        links := { s0.links with zports := vset s0.links.zports 0 { ZPort.empty with retry := List.replicate 511 (kept 0) } } }
     Table.get false s.links.lost (farReq s).peer.toNat = false ∧ answerRoom s (farReq s).peer = false) ∧
    (Table.get false s0.links.lost (farReq s0).peer.toNat = false ∧ answerRoom s0 (farReq s0).peer = true ∧ farRefuses s0 (farReq s0) = true) ∧
    (let s := { s0 with hub := { Hub.empty with farSlots := [(0, 64)] } }
     Table.get false s.links.lost (farReq s).peer.toNat = false ∧ answerRoom s (farReq s).peer = true ∧ farRefuses s (farReq s) = false ∧ (farReq s).kind = 0#3) ∧
    (let s := withInput [0#8, 0#8, 0#8, 0#8, 1#8] { s0 with hub := { Hub.empty with farSlots := [(0, 64)] } }
     Table.get false s.links.lost (farReq s).peer.toNat = false ∧ answerRoom s (farReq s).peer = true ∧ farRefuses s (farReq s) = false ∧ (farReq s).kind = 1#3 ∧
      moduleCut s ((farReq s).addr / 64 * 64) = false) := by
  refine ⟨?_, ?_, ?_, ?_, ?_, ?_, ?_, ?_, ?_, ?_, ?_, ?_, ?_, ?_⟩ <;> decide +kernel

/-! ## The host's registers and the firmware interface -/

/-- Register input: a function, and a value from byte 2 on. -/
def regIn (fn : Byte) (v : List Byte) (s : State) : State := withInput (fn :: 0#8 :: v) s
/-- Plain-write input: a function, an offset and 8 bytes. -/
def writeIn (fn : Byte) (off : BitVec 16) (v : List Byte) (s : State) : State :=
  withInput ([fn, 0#8, bits off 0 8, bits off 8 8, 8#8, 0#8] ++ v) s
/-- Policy input: an offset and 8 bytes. -/
def policyIn (off : BitVec 16) (v : List Byte) (s : State) : State :=
  withInput ([bits off 0 8, bits off 8 8, 8#8, 0#8] ++ v) s
/-- The machine with an open PF, at node 0, whose FWARG words begin with two given ones. -/
def sFw (a b : BitVec 64) : State :=
  let args := vset (vset Hub.empty.fwarg 0 a) 1 b
  { s0 with hub := { Hub.empty with pfOpen := true, fwarg := args } }

/-- POLICY writes MARKLIM, and the reserved bits of its word stay 0 (R169). -/
theorem test_policy_marklim :
    (match exec .policy (policyIn 0x4010#16 [0#8, 0#8, 0x28#8, 0#8, 1#8, 0#8, 0#8, 0xFF#8] (sOpen Fn.empty)) with
     | .next t => (bits (getFn t 1#10).policy 144 16, bits (getFn t 1#10).policy 160 32)
     | _ => (0#16, 0#32)) = (40#16, 0xFF000001#32) := by decide +kernel
/-- WATCHDOG with an exponent of 31 gives RESULT 2 and leaves it (R186). -/
theorem test_watchdog_range :
    (match exec .watchdog (sFw 31#64 0#64) with
     | .next t => (t.hub.fwResult, t.hub.watchLg)
     | _ => (0#8, 0#5)) = (2#8, 24#5) := by decide +kernel

theorem witness_HostRegisters :
    (let s := regIn 1#8 [] (sOpen Fn.empty)
     windowOpen s (regFn s) = true ∧ (afterHalf (getFn s (regFn s))).invBusy = false ∧ regFn s ≠ 0#10) ∧
    (let s := regIn 1#8 [] (sOpen { Fn.empty with invBusy := true })
     windowOpen s (regFn s) = true ∧ (afterHalf (getFn s (regFn s))).invBusy = true) ∧
    windowOpen (regIn 1#8 [] s0) (regFn (regIn 1#8 [] s0)) = false ∧
    windowOpen (sOpen Fn.empty) 0#10 = true ∧
    (getFn (regIn 1#8 [] (sOpen Fn.empty)) 1#10).invBusy = false ∧
    (let s := regIn 1#8 [] (sOpen { Fn.empty with invBusy := true })
     let f := getFn s (regFn s)
     f.invBusy = true ∧ accessPending s (bits f.policy 48 16) (f.inv.1.toNat * 4096) (f.inv.2 * 4096) = false) ∧
    ([0x4000, 0x4008, 0x7FF8].all fun off =>
      let s := policyIn (BitVec.ofNat 16 off) [] (sOpen Fn.empty)
      windowOpen s 0#10 && decide ((s.opnd 0 16 : BitVec 16).toNat = off) && decide ((s.opnd 2 16 : BitVec 16) = 8#16) &&
        !(getFn s (BitVec.ofNat 10 ((off - 0x4000) / 32 + 1))).tdispRun) = true ∧
    (let s := policyIn 0x4000#16 [] (sOpen { Fn.empty with tdispRun := true })
     (getFn s (BitVec.ofNat 10 ((0x4000 - 0x4000) / 32 + 1))).tdispRun = true) ∧
    ([0x400, 0x408, 0x410, 0x418].all fun off =>
      let s := writeIn 1#8 (BitVec.ofNat 16 off) [] (sOpen Fn.empty)
      windowOpen s (regFn s) && decide (regFn s = 1#10) && decide ((s.opnd 2 16 : BitVec 16).toNat = off) &&
        decide ((s.opnd 4 16 : BitVec 16).toNat = 8)) = true ∧
    ([0, 31].all fun k =>
      let s := writeIn 0#8 (BitVec.ofNat 16 (0x9100 + 8 * k)) [] (sOpen Fn.empty)
      windowOpen s (regFn s) && decide (regFn s = 0#10) && decide ((s.opnd 2 16 : BitVec 16).toNat = 0x9100 + 8 * k)) = true ∧
    (let s := regIn 1#8 [] s0
     1 ≤ (regFn s).toNat ∧ (regFn s).toNat ≤ 512) := by
  refine ⟨?_, ?_, ?_, ?_, ?_, ?_, ?_, ?_, ?_, ?_, ?_⟩ <;> decide +kernel

/-- The firmware interface is open. -/
theorem fw_open (a b : BitVec 64) : FwOpen (sFw a b) := ⟨rfl, rfl, rfl⟩
/-- The debugger stands on instance 1. -/
def sDbg (a : BitVec 64) : State := { sFw a 0#64 with hub := { (sFw a 0#64).hub with dbg := some 1 } }

/-- The firmware interface with argument words 0 and 9. -/
def sFw9 (a n : BitVec 64) : State := { sFw a 0#64 with hub := { (sFw a 0#64).hub with fwarg := vset (sFw a 0#64).hub.fwarg 9 n } }

/-- The commands' arguments out of range, and the lengths at which LIFEREAD and ATTEST find room or none. -/
theorem witness_FirmwareRanges :
    (FwOpen (sFw 4#64 0#64) ∧ 4 ≤ fwNat (sFw 4#64 0#64) 0 ∧ FwOpen (sFw 0#64 (1#64 <<< 56)) ∧ 2 ^ 56 ≤ fwNat (sFw 0#64 (1#64 <<< 56)) 1) ∧
    (FwOpen (sFw (1#64 <<< 48) 0#64) ∧ bits (fwArg (sFw (1#64 <<< 48) 0#64) 0) 48 16 ≠ 0#16 ∧
      FwOpen (sFw 0#64 65536#64) ∧ 65536 ≤ fwNat (sFw 0#64 65536#64) 1) ∧
    (FwOpen (sDbg 8#64) ∧ dbgInst (sDbg 8#64) = some inst0 ∧ (dbgElem (fwArg (sDbg 8#64) 0)).all (fun e => !inst0.elems.contains e) = true ∧
      bits (fwArg (sDbg 8#64) 0) 0 12 ≠ 0xFFF#12) ∧
    (FwOpen (sDbg 0x1FFF#64) ∧ bits (fwArg (sDbg 0x1FFF#64) 0) 0 12 = 0xFFF#12 ∧ bits (fwArg (sDbg 0x1FFF#64) 0) 12 52 ≠ 0#52) ∧
    (FwOpen (sFw 0xFFF#64 0#64) ∧ dbgInst (sFw 0xFFF#64 0#64) = none) ∧
    (FwOpen (sFw 0#64 0#64) ∧ currentRec (sFw 0#64 0#64).life = none) ∧
    (let s := sFw9 0#64 1048576#64
     FwOpen s ∧ (attestReport s 0#512).length ≤ fwNat s 9) ∧
    (let s := sFw9 0#64 3308#64
     FwOpen s ∧ fwNat s 9 < (attestReport s 0#512).length) := by
  refine ⟨⟨fw_open _ _, ?_, fw_open _ _, ?_⟩, ⟨fw_open _ _, ?_, fw_open _ _, ?_⟩, ⟨⟨rfl, rfl, rfl⟩, ?_⟩, ⟨⟨rfl, rfl, rfl⟩, ?_⟩,
    ⟨fw_open _ _, ?_⟩, ⟨fw_open _ _, ?_⟩, ⟨⟨rfl, rfl, rfl⟩, ?_⟩, ⟨⟨rfl, rfl, rfl⟩, ?_⟩⟩
  all_goals decide +kernel

theorem witness_FirmwareCommands :
    (windowOpen s0 0#10 = false ∧
      (let s := { sFw 0#64 0#64 with hub := { (sFw 0#64 0#64).hub with fwBusy := true } }
       windowOpen s 0#10 = true ∧ s.hub.fwBusy = true) ∧
      (let s := withInput [1#8, 0#8, 0#8, 0#8, 1#8] (sFw 0#64 0#64)
       windowOpen s 0#10 = true ∧ s.hub.fwBusy = false ∧ fwTop s ≠ 0#32)) ∧
    (FwOpen (sFw 0#64 0#64) ∧ ((sFw 0#64 0#64).opnd 0 16 : BitVec 16) = 0#16 ∧
      0x14#16 < ((withInput [0x15#8] (sFw 0#64 0#64)).opnd 0 16 : BitVec 16)) ∧
    (FwOpen (sFw 20#64 0#64) ∧ fwNat (sFw 20#64 0#64) 0 = 20 ∧ FwOpen (sFw 30#64 0#64) ∧ fwNat (sFw 30#64 0#64) 0 = 30 ∧
      fwNat (sFw 31#64 0#64) 0 = 31 ∧ FwOpen (sFw 1000#64 0#64) ∧ fwNat (sFw 1000#64 0#64) 0 = 1000) ∧
    (FwOpen (sFw 1#64 0#64) ∧ fwNat (sFw 1#64 0#64) 0 = 1 ∧ fwNat (sFw 1#64 0#64) 1 = 0) ∧
    (FwOpen (sFw 0#64 0#64) ∧ ctxEntryOk (sFw 0#64 0#64) 0 0#256 = true ∧ fwArg (sFw 0#64 0#64) 4 ++ fwArg (sFw 0#64 0#64) 3 ++
        fwArg (sFw 0#64 0#64) 2 ++ fwArg (sFw 0#64 0#64) 1 = 0#256 ∧ (getFn (sFw 0#64 0#64) 0#10).tdispRun = false ∧
      ctxEntryOk (sFw 0#64 0#64) 0 (1#256 <<< 255) = false) ∧
    (fwFn (sFw 0#64 0#64) = 0 ∧ fwFn (withInput [1#8, 0#8, 0#8, 2#8] (sFw 0#64 0#64)) = 512 ∧
      fwFn (withInput [1#8, 0#8, 1#8, 2#8] (sFw 0#64 0#64)) = 513 ∧
      (getFn { sFw 0#64 0#64 with fns := [(0, { Fn.empty with tdispRun := true })] } 0#10).tdispRun = true) ∧
    (fwNat (sFw 3#64 0#64) 0 = 3 ∧ fwNat (sFw 3#64 0#64) 1 < 2 ^ 56 ∧ fwNat (sFw 3#64 0#64) 2 = 0 ∧ bits (fwArg (sFw 3#64 0#64) 3) 18 46 = 0#46) ∧
    (dbgTarget (sFw 0x500000000#64 0#64) = some 1 ∧ dbgInst (sFw 0x500000000#64 0#64) = none ∧
      bits (fwArg (sFw 0x500000000#64 0#64) 0) 48 16 = 0#16 ∧ dbgTarget (sFw 0#64 0#64) = none ∧
      dbgTarget (sDbg 0x500000000#64) = some 1 ∧ dbgInst (sDbg 0x500000000#64) = some inst0) ∧
    (FwOpen (sDbg 6#64) ∧ dbgInst (sDbg 6#64) = some inst0 ∧ dbgElem (fwArg (sDbg 6#64) 0) = some 25 ∧ 25 ∈ inst0.elems ∧
      bits (fwArg (sDbg 6#64) 0) 0 12 ≠ 0xFFF#12) ∧
    (FwOpen (sDbg 0xFFF#64) ∧ dbgInst (sDbg 0xFFF#64) = some inst0 ∧ fwArg (sDbg 0xFFF#64) 0 = 0xFFF#64) ∧
    (let r : LifeRec := ⟨1, 0#64, Counts.empty, []⟩
     let s := { sFw 0#64 1952#64 with life := { s0.life with a := some r } }
     FwOpen s ∧ currentRec s.life = some r ∧ (r.bytes ++ publicKeyBytes).length ≤ fwNat s 1) := by
  refine ⟨?_, ⟨fw_open _ _, ?_⟩, ⟨fw_open _ _, ?_, fw_open _ _, ?_, ?_, fw_open _ _, ?_⟩, ⟨fw_open _ _, ?_⟩, ⟨fw_open _ _, ?_⟩, ?_, ?_, ?_,
    ⟨⟨rfl, rfl, rfl⟩, ?_⟩, ⟨⟨rfl, rfl, rfl⟩, ?_⟩, ⟨⟨rfl, rfl, rfl⟩, rfl, ?_⟩⟩
  all_goals decide +kernel

/-! ## The machine -/

/-- The machine whose AG 0 at site 6 stands at AEND 5 (R330), with its move at the front of the agenda. -/
def sStep (w : BitVec 64) : State := { putFrame (withAg id s0) 6#12 3 0 0 (w.setWidth 256) with agenda := [.ag 6#12 0#1] }
/-- The word of AEND 5. -/
def wordAend : BitVec 64 := 0b000010_101#9 ++ 0#55

/-- The step of that AG takes its word and moves on (R331). -/
theorem test_step_ag :
    (match step (sStep wordAend) with
     | .next t => (t.agenda.length, decide ((getAg t ag0).pc = 1#5))
     | _ => (9, false)) = (0, true) := by decide +kernel

theorem witness_StepRunsDecoded :
    s0.agenda = [] ∧
    ({ s0 with agenda := [.tick] } : State).agenda = [.tick] ∧
    (let t : State := { sStep wordAend with agenda := [], input := [] }
     moveInput (.ag 6#12 0#1) = [] ∧ moveRecord t (.ag 6#12 0#1) = some (agRecord ag0 wordAend) ∧
      decode (agRecord ag0 wordAend) = .ok (.aend ag0 5#3) ∧ wf (.aend ag0 5#3) = true) ∧
    (let t : State := { sStep (0b000010_110#9 ++ 0#55) with agenda := [], input := [] }
     moveRecord t (.ag 6#12 0#1) = some (agRecord ag0 (0b000010_110#9 ++ 0#55)) ∧
      decode (agRecord ag0 (0b000010_110#9 ++ 0#55)) = .ok (.aend ag0 6#3) ∧ wf (.aend ag0 6#3) = false) ∧
    (let t : State := { sStep 0#64 with agenda := [], input := [] }
     (moveRecord t (.ag 6#12 0#1)).isSome = true ∧ decode (agRecord ag0 0xFC00000000000000#64) = .error .reservedOpcode) ∧
    moveRecord s0 (.engine 7) = none := by
  refine ⟨?_, ?_, ⟨?_, ?_, except_of_test _ _ ?_, ?_⟩, ⟨?_, except_of_test _ _ ?_, ?_⟩, ⟨?_, except_of_test _ _ ?_⟩, ?_⟩ <;> decide +kernel

theorem witness_RoundTrip :
    wf (.aend ag0 5#3) = true ∧ (agRecord ag0 wordAend).head? ≠ some 7#8 ∧ decode (agRecord ag0 wordAend) = .ok (.aend ag0 5#3) :=
  ⟨by decide +kernel, by decide +kernel, except_of_test _ _ (by decide +kernel)⟩

theorem witness_StepKeepsInvariant :
    Memory.wf s0.store = true ∧ s0.hyps.parent = [] ∧ (match step (sStep wordAend) with
      | .next _ => true
      | _ => false) = true := by decide +kernel

end Sys2Proof.Tests
end

section
/-! The state after reset (R25, R50, R161): what its reads give, and the statements about it. -/

namespace Sys2Proof.Machine

open Sys2Proof

/-- Only id 0 is live after reset (R161). -/
theorem hypParent_reset (ctx : BitVec 8) (h : BitVec 6) : hypParent State.reset ctx h = if h = 0#6 then some 0#6 else none := rfl

/-- Every die stands after reset as an empty one (R50). -/
theorem getDie_reset (d : BitVec 2) : getDie State.reset d = Die.empty := by
  simp [getDie, State.reset]

/-- Every function stands after reset as an empty one (R184). -/
theorem getFn_reset (f : BitVec 10) : getFn State.reset f = Fn.empty := rfl

/-- Settles O56: storage is empty after reset, and no id other than 0 has a parent. -/
theorem resetKeepsInvariant : Obligations.ResetKeepsInvariant := by
  refine ⟨reset_wf, fun ctx h p hne hp => ?_⟩
  rw [hypParent_reset, if_neg hne] at hp
  cases hp

/-- Settles O55: the tables are empty after reset, so each read gives the reset value of its element. -/
theorem resetState : Obligations.ResetState := by
  refine ⟨rfl, rfl, rfl, rfl, rfl, rfl, rfl, rfl, rfl, rfl, fun site task => ⟨?_, rfl⟩, fun loc => ⟨rfl, rfl, rfl, rfl⟩,
    fun d => ?_, fun f => ?_, fun ctx h => ?_⟩
  · show (Vector.replicate 8 Task.empty)[task.toNat]'_ = _
    simp
  · rw [getDie_reset]
    refine ⟨rfl, rfl, rfl, rfl, rfl, rfl, rfl, fun j hj => ?_⟩
    simp [vget, hj, Die.empty]
  · rw [getFn_reset]
    decide
  · rw [hypLive, hypParent_reset]
    by_cases e : h = 0#6 <;> simp [e]

end Sys2Proof.Machine
end

section
/-! Resolving a hypothesis writes data: what such writes leave alone (R79, R101, R111, R163). -/

namespace Sys2Proof.Machine

open Sys2Proof

/-- Nothing but data has changed: stashes and channels, storage, hypotheses, the requests to peers, and the work in progress of the
engines and of what is saved. -/
def DataOnly (s t : State) : Prop :=
  t = { s with fab := t.fab, store := t.store, hyps := t.hyps, links := t.links
               dist := { s.dist with jobs := t.dist.jobs, arrived := t.dist.arrived, saves := t.dist.saves } }

theorem DataOnly.refl (s : State) : DataOnly s s := rfl

theorem DataOnly.trans {s t u : State} (h : DataOnly s t) (k : DataOnly t u) : DataOnly s u := by
  unfold DataOnly at *
  rw [k, h]

/-- Steps that change data only make a run that changes data only. -/
theorem DataOnly.foldl {α : Type} {f : State → α → State} (h : ∀ s x, DataOnly s (f s x)) (l : List α) (s : State) :
    DataOnly s (l.foldl f s) := by
  induction l generalizing s with
  | nil => rfl
  | cons x l ih => exact (h s x).trans (ih _)

/-- Two changes of data only make a choice between them one. -/
theorem DataOnly.ite {s t u : State} {c : Prop} [Decidable c] (ht : DataOnly s t) (hu : DataOnly s u) : DataOnly s (if c then t else u) := by
  split <;> assumption

/-! ## Writes to a tier -/

theorem writeHome_dataOnly (s : State) (h : Nat) (m : BitVec 64) (b : Block) (d : Option (BitVec 16)) (p : Bool) :
    DataOnly s (writeHome s h m b d p) := by
  unfold DataOnly
  rw [writeHome_frame]

theorem tierWrite_dataOnly (s : State) (who : Requester) (tn : BitVec 16) (h : Nat) (m : BitVec 64) (b : Block) (d : Option (BitVec 16))
    (p : Bool) : DataOnly s (tierWrite s who tn h m b d p) := by
  unfold tierWrite
  split
  · rfl
  · split
    · rfl
    · exact writeHome_dataOnly ..

theorem writeDesc_dataOnly (s : State) (h : Nat) (d : Option (BitVec 16)) : DataOnly s (writeDesc s h d) := by
  unfold writeDesc
  split
  · split <;> rfl
  · rfl

theorem writeBack_dataOnly (s : State) (site : Site) (l : Line) (m : BitVec 64) : DataOnly s (writeBack s site l m) :=
  tierWrite_dataOnly ..

/-! ## Overlays, timestamps and unreleased versions -/

theorem setSegs_dataOnly (s : State) (ctx : BitVec 8) (n : Nat) : DataOnly s (setSegs s ctx n) := rfl

theorem takeSegs_dataOnly (s : State) (ctx : BitVec 8) : DataOnly s (takeSegs s ctx) := by
  unfold takeSegs
  generalize ovlSegs (ovlUsed s ctx) = need
  exact .ite (setSegs_dataOnly ..) (.refl _)

theorem freeSegs_dataOnly (s : State) (ctx : BitVec 8) : DataOnly s (freeSegs s ctx) :=
  .ite (setSegs_dataOnly ..) (.refl _)

theorem ovlPut_dataOnly (s : State) (o : Ovl) : DataOnly s (ovlPut s o) :=
  DataOnly.trans (t := { s with hyps := _ }) rfl (takeSegs_dataOnly _ _)

theorem raiseTs_dataOnly (s : State) (p : Party) (ts : Nat) : DataOnly s (raiseTs s p ts) := by
  unfold raiseTs
  split <;> rfl

theorem addPend_dataOnly (s : State) (x : Pend) : DataOnly s (addPend s x) := by
  unfold addPend
  split <;> rfl

theorem keepDesc_dataOnly (s : State) (skip : Option Site) (h : Nat) (d : Option (BitVec 16)) : DataOnly s (keepDesc s skip h d) := by
  unfold keepDesc
  split
  · rfl
  · split
    · exact writeDesc_dataOnly ..
    · rfl

theorem mapLines_dataOnly (s : State) (skip : Option Site) (f : Site → Line → Option Line) : DataOnly s (mapLines s skip f) := rfl
theorem ovlTake_dataOnly (s : State) (h : Nat) (ctx : BitVec 8) (tag : BitVec 6) (m : BitVec 64) (d : Option (BitVec 16)) :
    DataOnly s (ovlTake s h ctx tag m d) := rfl
theorem mapPend_dataOnly (s : State) (sel : Pend → Bool) (f : Pend → Pend) : DataOnly s (mapPend s sel f) := rfl

theorem supersede_dataOnly (s : State) (p : Party) (h : Nat) (ctx : BitVec 8) (tag : BitVec 6) (sc : BitVec 3) (m : BitVec 64)
    (d : Option (BitVec 16)) : DataOnly s (supersede s p h ctx tag sc m d) := by
  unfold supersede
  refine DataOnly.trans (DataOnly.trans (DataOnly.trans (DataOnly.ite (keepDesc_dataOnly ..) (.refl _)) (mapLines_dataOnly ..))
    (DataOnly.ite (ovlTake_dataOnly ..) (.refl _))) (mapPend_dataOnly ..)

/-! ## Lines and stores -/

theorem putLine_dataOnly (s : State) (site : Site) (l : Line) : DataOnly s (putLine s site l) := rfl

theorem evict_dataOnly (s : State) (site : Site) (l : Line) : DataOnly s (evict s site l) :=
  DataOnly.trans (t := dropLine s site l) rfl (DataOnly.ite (writeBack_dataOnly ..) (ovlPut_dataOnly ..))

theorem install_dataOnly (s : State) (site : Site) (l : Line) : DataOnly s (install s site l) := by
  unfold install
  refine DataOnly.trans (DataOnly.ite (.refl _) ?_) (putLine_dataOnly ..)
  split
  · exact evict_dataOnly ..
  · rfl

theorem storeZero_dataOnly (s : State) (p : Party) (site : Site) (h va : Nat) (hint sc : BitVec 3) (m : BitVec 64) (b : Block)
    (d : Option (BitVec 16)) (psn : Bool) : DataOnly s (storeZero s p site h va hint sc m b d psn) := by
  unfold storeZero
  refine (supersede_dataOnly s p h 0#8 0#6 sc m d).trans ?_
  generalize supersede s p h 0#8 0#6 sc m d = u
  simp only
  have last : ∀ v, DataOnly v (if scopeNarrow sc = true then addPend v (p.version h va 0#8 0#6 sc m b d psn)
      else if (hintAlloc hint || homeIsPeer h) = true then v else writeHome v h m b d psn) := fun v =>
    .ite (addPend_dataOnly ..) (.ite (.refl _) (writeHome_dataOnly ..))
  refine DataOnly.trans (DataOnly.trans ?_ (raiseTs_dataOnly ..)) (last _)
  cases lineForStore u site h with
  | none => exact .ite (install_dataOnly ..) (.refl _)
  | some l => exact (writeBack_dataOnly ..).trans (putLine_dataOnly ..)

theorem engStore_dataOnly (s : State) (p : Party) (who : Requester) (tn : BitVec 16) (home va : Nat) (ctx : BitVec 8) (h : BitVec 6)
    (sc : BitVec 3) (m : BitVec 64) (b : Block) (d : Option (BitVec 16)) (psn : Bool) :
    DataOnly s (engStore s p who tn home va ctx h sc m b d psn) := by
  unfold engStore
  refine .ite (.refl _) (DataOnly.trans (DataOnly.trans ((supersede_dataOnly ..).trans (raiseTs_dataOnly ..))
    (.ite (addPend_dataOnly ..) (.refl _))) (.ite (.ite (.refl _) (tierWrite_dataOnly ..)) (ovlPut_dataOnly ..)))

/-! ## Refuting a hypothesis -/

theorem refuteRecords_dataOnly (dead : BitVec 6 → Bool) (s : State) (k : Nat) : DataOnly s (refuteRecords dead s k) := by
  unfold refuteRecords
  refine DataOnly.foldl (fun u t => ?_) _ _
  split
  · rfl
  · exact storeZero_dataOnly ..

theorem refuteSaved_dataOnly (dead : BitVec 6 → Bool) (ctx : BitVec 8) (who : Requester) (s : State) (v : Save) :
    DataOnly s (refuteSaved dead ctx who s v) := by
  unfold refuteSaved
  split
  · rfl
  · refine .ite (.refl _) (DataOnly.foldl (fun u x => DataOnly.foldl (fun w t => ?_) _ _) _ _)
    split
    · rfl
    · exact engStore_dataOnly ..

theorem setParents_dataOnly (s : State) (ctx : BitVec 8) (ids : List (BitVec 6)) (f : BitVec 6 → Option (BitVec 6)) :
    DataOnly s (setParents s ctx ids f) :=
  DataOnly.foldl (f := fun s h => { s with hyps := { s.hyps with parent := Table.set none s.hyps.parent (hypKey ctx h) (f h) } })
    (fun _ _ => rfl) ids s

theorem noteRecords_dataOnly (s : State) (ctx : BitVec 8) (hs : List (BitVec 6)) (p : Option (BitVec 6)) :
    DataOnly s (noteRecords s ctx hs p) := rfl
theorem dropBodies_dataOnly (s : State) (sel : SteBody → Bool) : DataOnly s (dropBodies s sel) := rfl
theorem refuteData_dataOnly (s : State) (ctx : BitVec 8) (dead : BitVec 6 → Bool) : DataOnly s (refuteData s ctx dead) := rfl
theorem restampAll_dataOnly (s : State) (ctx : BitVec 8) (f : Restamp) (anc : BitVec 6) : DataOnly s (restampAll s ctx f anc) := rfl

theorem refuteHyp_dataOnly (who : Requester) (s : State) (ctx : BitVec 8) (h p : BitVec 6) : DataOnly s (refuteHyp who s ctx h p) := by
  unfold refuteHyp
  refine (DataOnly.foldl (refuteRecords_dataOnly (hypUnder s ctx h)) (ctxOps s ctx) s).trans
    ((DataOnly.foldl (refuteSaved_dataOnly (hypUnder s ctx h) ctx who) s.dist.saves _).trans ?_)
  refine DataOnly.trans ?_ ((freeSegs_dataOnly ..).trans (DataOnly.trans (restampAll_dataOnly ..) (setParents_dataOnly ..)))
  exact DataOnly.trans (noteRecords_dataOnly ..) (DataOnly.trans (dropBodies_dataOnly ..) (refuteData_dataOnly ..))

end Sys2Proof.Machine
end

section
/-! The loss of a die (R394 to R396): what the loss of a node's work leaves alone, and what each function and node comes to. -/

namespace Sys2Proof.Machine

open Sys2Proof Sys2Proof.Claims

/-! ## Withdrawn records -/

/-- A die that may have lost pending faults, and nothing else. -/
def Withdrawn (a b : Die) : Prop :=
  b = { a with ring := b.ring, fhead := b.fhead, pend := b.pend, escalq := b.escalq, discards := b.discards } ∧
  b.ring ⊆ a.ring ∧ b.pend ⊆ a.pend ∧ b.escalq ⊆ a.escalq

theorem Withdrawn.refl (a : Die) : Withdrawn a a := ⟨rfl, List.Subset.refl _, List.Subset.refl _, List.Subset.refl _⟩

theorem Withdrawn.trans {a b c : Die} (h : Withdrawn a b) (k : Withdrawn b c) : Withdrawn a c := by
  obtain ⟨h0, h1, h2, h3⟩ := h
  obtain ⟨k0, k1, k2, k3⟩ := k
  exact ⟨by rw [k0, h0], List.Subset.trans k1 h1, List.Subset.trans k2 h2, List.Subset.trans k3 h3⟩

theorem getDie_withdrawFaults (s : State) (mine : Nat → Bool) (d : BitVec 2) : Withdrawn (getDie s d) (getDie (withdrawFaults s mine) d) := by
  simp only [getDie, withdrawFaults, Vector.getElem_map]
  exact ⟨rfl, List.filter_sublist.subset, List.filter_sublist.subset, List.filter_sublist.subset⟩

/-! ## The frame of a node that loses a die -/

/-- The work of some nodes has ended: data, nodes, their regions and pending faults may have changed. -/
def WorkLost (s t : State) : Prop :=
  t = { s with fab := t.fab, store := t.store, hyps := t.hyps, links := t.links, dies := t.dies
               dist := { s.dist with nodes := t.dist.nodes, insts := t.dist.insts, jobs := t.dist.jobs, arrived := t.dist.arrived
                                     saves := t.dist.saves } } ∧
  ∀ d, Withdrawn (getDie s d) (getDie t d)

theorem WorkLost.refl (s : State) : WorkLost s s := ⟨rfl, fun _ => .refl _⟩

theorem WorkLost.trans {s t u : State} (h : WorkLost s t) (k : WorkLost t u) : WorkLost s u := by
  obtain ⟨h0, h1⟩ := h
  obtain ⟨k0, k1⟩ := k
  exact ⟨by rw [k0, h0], fun d => (h1 d).trans (k1 d)⟩

theorem WorkLost.foldl {α : Type} {f : State → α → State} (h : ∀ s x, WorkLost s (f s x)) (l : List α) (s : State) :
    WorkLost s (l.foldl f s) := by
  induction l generalizing s with
  | nil => exact .refl s
  | cons x l ih => exact (h s x).trans (ih _)

theorem DataOnly.getDie {s t : State} (h : DataOnly s t) (d : BitVec 2) : getDie t d = Machine.getDie s d := by
  unfold Machine.getDie
  rw [h]

theorem DataOnly.workLost {s t : State} (h : DataOnly s t) : WorkLost s t := by
  refine ⟨?_, fun d => ?_⟩
  · unfold DataOnly at h
    rw [h]
  · rw [h.getDie d]
    exact .refl _

theorem modNode_workLost (s : State) (id : Nat) (f : Node → Node) : WorkLost s (modNode s id f) := ⟨rfl, fun _ => .refl _⟩

theorem withdrawFaults_workLost (s : State) (mine : Nat → Bool) : WorkLost s (withdrawFaults s mine) :=
  ⟨rfl, getDie_withdrawFaults s mine⟩

theorem setInsts_workLost (s : State) (is : List Inst) : WorkLost s { s with dist := { s.dist with insts := is } } := ⟨rfl, fun _ => .refl _⟩

theorem abortNode_workLost (s : State) (id : Nat) (e : BitVec 16) : WorkLost s (abortNode s id e) := by
  unfold abortNode
  split
  · exact .refl _
  · exact (modNode_workLost ..).trans ((setInsts_workLost ..).trans (withdrawFaults_workLost ..))

theorem loseInsts_workLost (s : State) (n : Node) (sel : Inst → Bool) : WorkLost s (loseInsts s n sel) := by
  unfold loseInsts
  exact (withdrawFaults_workLost ..).trans ((setInsts_workLost ..).trans (modNode_workLost ..))

/-- The reissue of a node refutes its hypothesis, which stays live for it (R396). -/
def rehyp (s : State) (n : Node) : State :=
  match hypParent s n.hctx n.hyp with
  | some p => setParents (refuteHyp (.writeBack 0) s n.hctx n.hyp p) n.hctx [n.hyp] fun _ => some p
  | none => s

theorem rehyp_dataOnly (s : State) (n : Node) : DataOnly s (rehyp s n) := by
  unfold rehyp
  split
  · exact (refuteHyp_dataOnly ..).trans (setParents_dataOnly ..)
  · exact .refl _

/-- A node loses a die in one of three ways: it ends, or what the die held of it is given again, or all of it is. -/
theorem nodeLosesDie_cases (s : State) (d : BitVec 2) (n : Node) :
    (reissuable n = false → nodeLosesDie s d n = abortNode s n.id 0x400#16) ∧
    (reissuable n = true → ∃ f sel, (∀ m, Node.id (f m) = m.id) ∧
      (nodeLosesDie s d n = modNode (loseInsts s n sel) n.id f ∨ nodeLosesDie s d n = modNode (rehyp (loseInsts s n sel) n) n.id f)) := by
  unfold nodeLosesDie
  refine ⟨fun hr => ?_, fun hr => ?_⟩ <;> simp only [hr]
  · rfl
  · by_cases hh : n.hyp = 0#6
    · refine ⟨_, _, ?_, .inl ((if_neg (by decide)).trans (if_pos hh))⟩
      exact fun _ => rfl
    · refine ⟨_, fun _ => true, ?_, .inr ((if_neg (by decide)).trans (if_neg hh))⟩
      exact fun _ => rfl

theorem nodeLosesDie_workLost (s : State) (d : BitVec 2) (n : Node) : WorkLost s (nodeLosesDie s d n) := by
  obtain ⟨hn, hr⟩ := nodeLosesDie_cases s d n
  cases e : reissuable n with
  | false =>
    rw [hn e]
    exact abortNode_workLost ..
  | true =>
    obtain ⟨f, sel, _, h | h⟩ := hr e <;> rw [h]
    · exact (loseInsts_workLost ..).trans (modNode_workLost ..)
    · exact (loseInsts_workLost ..).trans ((rehyp_dataOnly ..).workLost.trans (modNode_workLost ..))

/-! ## The nodes that end -/

/-- Every node of a number was there before, as it is. -/
def NodesOf (k : Nat) (s t : State) : Prop := ∀ m, m ∈ t.dist.nodes → m.id = k → m ∈ s.dist.nodes

theorem modNode_nodesOf {k id : Nat} (h : id ≠ k) (s : State) {f : Node → Node} (hf : ∀ n, (f n).id = n.id) : NodesOf k s (modNode s id f) := by
  intro m hm hk
  obtain ⟨n, hn, rfl⟩ := List.mem_map.1 hm
  by_cases e : n.id = id
  · simp only [e, decide_true, if_true, hf] at hk
    exact absurd hk h
  · simpa [e] using hn

theorem abortNode_nodesOf {k id : Nat} (h : id ≠ k) (s : State) (e : BitVec 16) : NodesOf k s (abortNode s id e) := by
  unfold abortNode
  split
  · exact fun _ hm _ => hm
  · exact modNode_nodesOf h s fun _ => rfl

theorem nodeLosesDie_nodesOf {k : Nat} {n : Node} (h : n.id ≠ k) (s : State) (d : BitVec 2) : NodesOf k s (nodeLosesDie s d n) := by
  obtain ⟨hn, hr⟩ := nodeLosesDie_cases s d n
  cases e : reissuable n with
  | false =>
    rw [hn e]
    exact abortNode_nodesOf h s _
  | true =>
    obtain ⟨f, sel, hf, ht⟩ := hr e
    have lose : NodesOf k s (loseInsts s n sel) := modNode_nodesOf h _ fun _ => rfl
    rcases ht with ht | ht <;> rw [ht] <;> intro m hm hk
    · exact lose m (modNode_nodesOf h _ hf m hm hk) hk
    · have hm := modNode_nodesOf h _ hf m hm hk
      have hd := rehyp_dataOnly (loseInsts s n sel) n
      unfold DataOnly at hd
      rw [hd] at hm
      exact lose m hm hk

/-- Every node of a number is aborting, with DIE_LOST and ABORTED in ERR (R383, R396). -/
def EndedByLoss (k : Nat) (s : State) : Prop := ∀ m, m ∈ s.dist.nodes → m.id = k → m.aborting = true ∧ m.err &&& 0x401#16 = 0x401#16

/-- ERR shows DIE_LOST and ABORTED once an abort has set them (R383). -/
theorem abort_err_bits (x : BitVec 16) : (x ||| 0x400#16 ||| 1#16) &&& 0x401#16 = 0x401#16 := by
  have e : x ||| 0x400#16 ||| 1#16 = x ||| 0x401#16 := by rw [BitVec.or_assoc]; rfl
  rw [e]
  ext i hi
  rw [BitVec.getElem_and, BitVec.getElem_or]
  exact Bool.and_eq_right_iff_imp.2 fun h => by rw [h, Bool.or_true]

theorem abortNode_ends (s : State) (k : Nat) : EndedByLoss k (abortNode s k 0x400#16) := by
  unfold abortNode findNode
  intro m hm hk
  split at hm
  · rename_i hnone
    exact absurd hk (by simpa using List.find?_eq_none.1 hnone m hm)
  · obtain ⟨n, hn, rfl⟩ := List.mem_map.1 hm
    by_cases e : n.id = k
    · simp only [e, decide_true, if_true]
      exact ⟨trivial, abort_err_bits _⟩
    · simp only [e, decide_false] at hk
      exact absurd hk e

/-- A node that cannot be reissued has ended once every node with work on the die has lost it. -/
theorem nodesLoseDie_ends {ns : List Node} {n : Node} (hn : n ∈ ns) (hu : ∀ m, m ∈ ns → m.id = n.id → m = n) (hr : reissuable n = false)
    (d : BitVec 2) (s : State) : EndedByLoss n.id (ns.foldl (fun s m => nodeLosesDie s d m) s) := by
  obtain ⟨before, after, rfl⟩ := List.append_of_mem hn
  have ends : ∀ u, EndedByLoss n.id (nodeLosesDie u d n) := fun u => by
    rw [(nodeLosesDie_cases u d n).1 hr]
    exact abortNode_ends u n.id
  rw [List.foldl_append, List.foldl_cons]
  refine List.foldlRecOn (motive := EndedByLoss n.id) after _ (ends _) fun u hu' m hm => ?_
  by_cases e : m.id = n.id
  · rw [hu m (by simp [hm]) e]
    exact ends u
  · exact fun x hx hk => hu' x (nodeLosesDie_nodesOf e u d x hx hk) hk

/-! ## Events of functions -/

theorem msix_raiseMsix (s : State) (f g : BitVec 10) :
    vget 0 (getFn (raiseMsix s f 2) g).msix 2 = vget 0 (getFn s g).msix 2 + if f = g then 1 else 0 := by
  unfold raiseMsix
  by_cases e : f = g
  · subst e
    simp
  · rw [getFn_setFn_other _ _ _ _ e]
    simp [e]

/-- An event of several functions changes nothing but the functions. -/
theorem raiseAll_frame (fs : List (BitVec 10)) (s : State) (v : Nat) :
    fs.foldl (fun s f => raiseMsix s f v) s = { s with fns := (fs.foldl (fun s f => raiseMsix s f v) s).fns } := by
  induction fs generalizing s with
  | nil => rfl
  | cons f fs ih =>
    rw [List.foldl_cons, ih]
    rfl

/-- Each function takes as many events as the list names it. -/
theorem msix_raiseAll (fs : List (BitVec 10)) (s : State) (g : BitVec 10) :
    vget 0 (getFn (fs.foldl (fun s f => raiseMsix s f 2) s) g).msix 2 = vget 0 (getFn s g).msix 2 + fs.count g := by
  induction fs generalizing s with
  | nil => rfl
  | cons f fs ih =>
    rw [List.foldl_cons, ih, msix_raiseMsix, List.count_cons]
    simp only [beq_iff_eq]
    omega

/-- A list without its repetitions names an element of it once. -/
theorem count_eraseDups {α : Type} [BEq α] [LawfulBEq α] {a : α} {l : List α} (h : a ∈ l) : l.eraseDups.count a = 1 := by
  induction hl : l.length using Nat.strongRecOn generalizing l with
  | ind n ih =>
    cases l with
    | nil => cases h
    | cons b l =>
      rw [List.eraseDups_cons, List.count_cons]
      by_cases e : a = b
      · subst e
        have : a ∉ (l.filter fun x => !x == a).eraseDups := by simp [List.mem_eraseDups]
        simp [List.count_eq_zero.2 this]
      · have hm : a ∈ l.filter fun x => !x == b := by simpa [e] using h
        have hlt : (l.filter fun x => !x == b).length < n := by
          have := List.length_filter_le (fun x => !x == b) l
          simp only [List.length_cons] at hl
          omega
        rw [ih _ hlt hm rfl]
        simp [Ne.symm e]

/-! ## The lowest live die -/

/-- With a live die there is a lowest one (R395). -/
theorem lowestLive_spec {s : State} {x : BitVec 2} (hx : (getDie s x).live = true) :
    ∃ m, lowestLive s = some m ∧ (getDie s m).live = true ∧ ∀ y, y < m → (getDie s y).live = false := by
  have all : ∀ y : BitVec 2, y ∈ [0, 1, 2, 3].map fun k => (BitVec.ofNat 2 k : BitVec 2) := by decide
  have rising : ([0, 1, 2, 3].map fun k => (BitVec.ofNat 2 k : BitVec 2)).Pairwise (· < ·) := by decide
  have hsome : (lowestLive s).isSome = true := List.find?_isSome.2 ⟨x, all x, hx⟩
  obtain ⟨m, hm⟩ := Option.isSome_iff_exists.1 hsome
  refine ⟨m, hm, ?_, fun y hy => ?_⟩
  · exact List.find?_some (p := fun d => (getDie s d).live) hm
  · obtain ⟨_, before, after, hl, hb⟩ := List.find?_eq_some_iff_append.1 hm
    rw [hl, List.pairwise_append, List.pairwise_cons] at rising
    obtain ⟨_, ⟨above, _⟩, _⟩ := rising
    have hy' := all y
    rw [hl, List.mem_append, List.mem_cons] at hy'
    rcases hy' with h | rfl | h
    · simpa using hb y h
    · exact absurd hy (BitVec.lt_irrefl _)
    · exact absurd (above y h) (BitVec.not_lt.2 (BitVec.le_of_lt hy))

end Sys2Proof.Machine
end

section
/-! DIE_LOST (R394 to R396): the parts of its effect, and what the machine comes to. -/

namespace Sys2Proof.Machine

open Sys2Proof Sys2Proof.Claims

/-! ## The parts of DIE_LOST -/

/-- The nodes that lose a region with a die. -/
def lostNodes (s : State) (die : BitVec 2) : List Node :=
  s.dist.nodes.filter fun n => decide (n.st = .pool) && !n.aborting && (dieInsts s die).any fun i => decide (i.node = n.id)

/-- The functions that take vector 2 for the loss of a die: the PF, and every one with work on it. -/
def lostFns (s : State) (die : BitVec 2) : List (BitVec 10) :=
  (0#10 :: (s.dist.nodes.filter fun n => (dieInsts s die).any fun i => decide (i.node = n.id)).map (fun n => n.sub) ++
    (s.dist.jobs.filter (jobOnDie die)).filterMap fun j => (jobNode s j).map fun n => n.sub).eraseDups

/-- The die is fenced, and its nodes have lost it. -/
def nodesLost (s : State) (die : BitVec 2) : State :=
  (lostNodes s die).foldl (fun s n => nodeLosesDie s die n) (dropStash (fenceDie s die) die)

/-- The bridges of a die fail where the input says so. -/
def cutBridges (s : State) (die : BitVec 2) : State :=
  if (s.opnd 0 1 : BitVec 1) = 1#1 then raiseMsix (setDie s die { getDie s die with cut := true }) 0#10 2 else s

/-- What a die loss leaves. -/
def dieGone (s : State) (die : BitVec 2) : State :=
  (lostFns s die).foldl (fun s f => raiseMsix s f 2) (cutBridges (nodesLost s die) die)

theorem exec_dieLost {s : State} {die : BitVec 2} (hl : (getDie s die).live = true) (hb : (getDie s die).beatAt + 120000 ≤ now s) :
    exec (.dieLost die) s = .next (dieGone s die) :=
  if_pos ⟨hl, hb⟩

/-- A die after its fencing. -/
def fenced (x : Die) : Die :=
  { x with live := false, fenced := true, ring := [], fhead := x.ftail, pend := [], repairs := [], escalq := [], walks := [], failed := [] }

theorem getDie_fenceDie (s : State) (d y : BitVec 2) : getDie (fenceDie s d) y = if y = d then fenced (getDie s d) else getDie s y := by
  have e : getDie (fenceDie s d) y = getDie (setDie s d (fenced (getDie s d))) y := rfl
  rw [e]
  split
  · subst y
    exact getDie_setDie_self ..
  · exact getDie_setDie_other _ _ _ _ (Ne.symm ‹_›)

/-- The lowest live die is master when the old one is lost (R395). -/
theorem fenceDie_master (s : State) (d : BitVec 2) :
    (fenceDie s d).dist.master = if s.dist.master = d then (lowestLive (fenceDie s d)).getD d else s.dist.master := rfl

theorem nodesLost_workLost (s : State) (die : BitVec 2) : WorkLost (dropStash (fenceDie s die) die) (nodesLost s die) :=
  WorkLost.foldl (fun s n => nodeLosesDie_workLost s die n) _ _

/-- Only the die's mark and the PF's events change where its bridges fail. -/
theorem cutBridges_frame (s : State) (die : BitVec 2) :
    cutBridges s die = { s with dies := (cutBridges s die).dies, fns := (cutBridges s die).fns } := by
  unfold cutBridges
  split <;> rfl

theorem getDie_cutBridges (s : State) (die y : BitVec 2) :
    getDie (cutBridges s die) y =
      if y = die ∧ (s.opnd 0 1 : BitVec 1) = 1#1 then { getDie s die with cut := true } else getDie s y := by
  unfold cutBridges
  by_cases h : (s.opnd 0 1 : BitVec 1) = 1#1
  · rw [if_pos h]
    have e : getDie (raiseMsix (setDie s die { getDie s die with cut := true }) 0#10 2) y =
      getDie (setDie s die { getDie s die with cut := true }) y := rfl
    rw [e]
    by_cases hy : y = die
    · subst y
      simp [h]
    · rw [getDie_setDie_other _ _ _ _ (Ne.symm hy)]
      simp [hy]
  · simp [h]

theorem msix_cutBridges (s : State) (die : BitVec 2) (g : BitVec 10) :
    vget 0 (getFn (cutBridges s die) g).msix 2 =
      vget 0 (getFn s g).msix 2 + if (s.opnd 0 1 : BitVec 1) = 1#1 ∧ g = 0#10 then 1 else 0 := by
  unfold cutBridges
  by_cases h : (s.opnd 0 1 : BitVec 1) = 1#1
  · have e : getFn (setDie s die { getDie s die with cut := true }) g = getFn s g := rfl
    rw [if_pos h, msix_raiseMsix, e]
    by_cases hg : g = 0#10
    · simp [h, hg]
    · simp [hg, Ne.symm hg]
  · simp [h]

/-! ## What the loss of a die comes to -/

theorem getDie_dieGone (s : State) (die y : BitVec 2) : getDie (dieGone s die) y = getDie (cutBridges (nodesLost s die) die) y := by
  unfold dieGone getDie
  rw [raiseAll_frame]

/-! The loss of a node's work leaves the events, the counts, the master and the input as they stand after the fencing. -/

theorem nodesLost_fns (s : State) (die : BitVec 2) : (nodesLost s die).fns = s.fns := by
  rw [(nodesLost_workLost s die).1]
  rfl
theorem nodesLost_life (s : State) (die : BitVec 2) : (nodesLost s die).life = (fenceDie s die).life := by
  rw [(nodesLost_workLost s die).1]
  rfl
theorem nodesLost_input (s : State) (die : BitVec 2) : (nodesLost s die).input = s.input := by
  rw [(nodesLost_workLost s die).1]
  rfl
theorem nodesLost_master (s : State) (die : BitVec 2) : (nodesLost s die).dist.master = (fenceDie s die).dist.master := by
  rw [(nodesLost_workLost s die).1]
  rfl

theorem opnd_nodesLost (s : State) (die : BitVec 2) (off n : Nat) : (nodesLost s die).opnd off n = s.opnd off n := by
  rw [State.opnd, nodesLost_input, State.opnd]

theorem getFn_nodesLost (s : State) (die : BitVec 2) (f : BitVec 10) : getFn (nodesLost s die) f = getFn s f := by
  rw [getFn, nodesLost_fns, getFn]

/-- What stands outside the dies and the functions once the nodes have lost the die stays. -/
theorem dieGone_frame (s : State) (die : BitVec 2) :
    dieGone s die = { nodesLost s die with dies := (dieGone s die).dies, fns := (dieGone s die).fns } := by
  unfold dieGone
  rw [raiseAll_frame, cutBridges_frame]

/-- A function named in the losses takes vector 2 once, and the PF once more where the bridges fail. -/
theorem msix_dieGone {s : State} {die : BitVec 2} {g : BitVec 10} (h : g ∈ lostFns s die) :
    vget 0 (getFn (dieGone s die) g).msix 2 =
      vget 0 (getFn s g).msix 2 + if (s.opnd 0 1 : BitVec 1) = 1#1 ∧ g = 0#10 then 2 else 1 := by
  have once : (lostFns s die).count g = 1 := count_eraseDups (List.mem_eraseDups.1 h)
  rw [dieGone, msix_raiseAll, msix_cutBridges, opnd_nodesLost, getFn_nodesLost, once]
  split <;> omega

/-- Only the liveness of the lost die changes. -/
theorem live_dieGone (s : State) (die y : BitVec 2) : (getDie (dieGone s die) y).live = (getDie (fenceDie s die) y).live := by
  obtain ⟨_, h⟩ := nodesLost_workLost s die
  have hw : ∀ y, (getDie (nodesLost s die) y).live = (getDie (fenceDie s die) y).live := fun y => by
    rw [(h y).1]
    rfl
  rw [getDie_dieGone, getDie_cutBridges]
  split
  · rename_i hc
    rw [hc.1]
    exact hw die
  · exact hw y

/-- The lost die is fenced, with nothing pending. -/
theorem lostDie_dieGone (s : State) (die : BitVec 2) : let d := getDie (dieGone s die) die
    d.live = false ∧ d.fenced = true ∧ d.ring = [] ∧ d.pend = [] ∧ d.repairs = [] ∧ d.escalq = [] ∧
    ((s.opnd 0 1 : BitVec 1) = 1#1 → d.cut = true) := by
  obtain ⟨h, hr, hp, he⟩ := (nodesLost_workLost s die).2 die
  have e : getDie (dropStash (fenceDie s die) die) die = fenced (getDie s die) := (getDie_fenceDie s die die).trans (if_pos rfl)
  rw [e] at h hr hp he
  have hd : getDie (nodesLost s die) die = { getDie (nodesLost s die) die with
      live := false, fenced := true, ring := [], pend := [], repairs := [], escalq := [] } := by
    rw [h, List.subset_nil.1 hr, List.subset_nil.1 hp, List.subset_nil.1 he]
    rfl
  rw [getDie_dieGone, getDie_cutBridges, opnd_nodesLost]
  split
  · rw [hd]
    exact ⟨rfl, rfl, rfl, rfl, rfl, rfl, fun _ => rfl⟩
  · rename_i hc
    rw [hd]
    exact ⟨rfl, rfl, rfl, rfl, rfl, rfl, fun h => absurd ⟨rfl, h⟩ hc⟩

/-- The lowest live die is master after the loss of the master (R395). -/
theorem master_dieGone {s : State} {die : BitVec 2} (hm : s.dist.master = die) {x : BitVec 2} (hx : x ≠ die) (hl : (getDie s x).live = true) :
    (getDie (dieGone s die) (dieGone s die).dist.master).live = true ∧
    ∀ y, y < (dieGone s die).dist.master → (getDie (dieGone s die) y).live = false := by
  have hx' : (getDie (fenceDie s die) x).live = true := by rw [getDie_fenceDie, if_neg hx, hl]
  obtain ⟨m, h1, h2, h3⟩ := lowestLive_spec hx'
  have e : (dieGone s die).dist.master = m := by
    rw [dieGone_frame]
    show (nodesLost s die).dist.master = m
    rw [nodesLost_master, fenceDie_master, if_pos hm, h1]
    rfl
  simp only [e, live_dieGone]
  exact ⟨h2, h3⟩

/-- A master that is not lost stays. -/
theorem master_dieGone_other {s : State} {die : BitVec 2} (hm : s.dist.master ≠ die) : (dieGone s die).dist.master = s.dist.master := by
  rw [dieGone_frame]
  show (nodesLost s die).dist.master = _
  rw [nodesLost_master, fenceDie_master, if_neg hm]

/-- The fencing is counted (R430). -/
theorem fencedCount_dieGone (s : State) (die : BitVec 2) : (dieGone s die).life.live.fenced = s.life.live.fenced + 1 := by
  rw [dieGone_frame]
  show (nodesLost s die).life.live.fenced = _
  rw [nodesLost_life]
  rfl

/-- The PF is named in every loss. -/
theorem pf_mem_lostFns (s : State) (die : BitVec 2) : 0#10 ∈ lostFns s die := List.mem_eraseDups.2 (by simp)

section

variable {s : State} {die : BitVec 2} {n : Node} {i : Inst}

/-- A region of the node stands on the lost die. -/
theorem lost_of_inst (hi : i ∈ s.dist.insts) (hin : i.node = n.id) (he : i.st ≠ .ended) (ho : instOnDie i die = true) :
    (dieInsts s die).any (fun i => decide (i.node = n.id)) = true :=
  List.any_eq_true.2 ⟨i, by simp [dieInsts, hi, he, ho], by simp [hin]⟩

/-- So its function is named in the loss. -/
theorem sub_mem_lostFns (hn : n ∈ s.dist.nodes) (h : (dieInsts s die).any (fun i => decide (i.node = n.id)) = true) :
    n.sub ∈ lostFns s die := by
  refine List.mem_eraseDups.2 (List.mem_append.2 (.inl (List.mem_cons.2 (.inr ?_))))
  exact List.mem_map.2 ⟨n, List.mem_filter.2 ⟨hn, h⟩, rfl⟩

/-- And, when it cannot be reissued, it has ended. -/
theorem dieGone_ends (hn : n ∈ s.dist.nodes) (hu : ∀ m, m ∈ s.dist.nodes → m.id = n.id → m = n) (hst : n.st = .pool)
    (hab : n.aborting = false) (h : (dieInsts s die).any (fun i => decide (i.node = n.id)) = true) (hr : bitAt n.lrec 257 = false) :
    EndedByLoss n.id (dieGone s die) := by
  have hmem : n ∈ lostNodes s die := List.mem_filter.2 ⟨hn, by simp [hst, hab, h]⟩
  rw [dieGone_frame]
  exact nodesLoseDie_ends hmem (fun m hm => hu m (List.mem_filter.1 hm).1) hr die (dropStash (fenceDie s die) die)

end

end Sys2Proof.Machine
end

section
/-! The management core (R24, R25, R403, R428 to R430): counts and samples, records and snapshots, the boot chain. -/

namespace Sys2Proof.Machine

open Sys2Proof Sys2Proof.Laws

/-! ## Counts (R430) -/

/-- A count that goes up by one, and the others as they are. -/
theorem get_bump (t : Table Nat) (k j : Nat) : Table.get 0 (bump t k) j = Table.get 0 t j + if j = k then 1 else 0 := by
  unfold bump
  split
  · subst j
    exact get_set_self _ _ _ _
  · exact get_set_other _ _ _ ‹_›

theorem thermalBin_le (t : Int) : thermalBin t ≤ 15 := by
  unfold thermalBin
  split
  · omega
  · exact Nat.min_le_right _ _

theorem droopBin_le (d : Nat) : droopBin d ≤ 15 := Nat.min_le_right _ _

/-- One sample for each die: the dies' bins are apart, so each of the four goes up by one. -/
theorem get_bump_dies (t : Table Nat) (b : Nat → Nat) (hb : ∀ d, b d ≤ 15) (k : Nat) :
    Table.get 0 (bump (bump (bump (bump t (16 * 0 + b 0)) (16 * 1 + b 1)) (16 * 2 + b 2)) (16 * 3 + b 3)) k =
      Table.get 0 t k + if k = 16 * 0 + b 0 ∨ k = 16 * 1 + b 1 ∨ k = 16 * 2 + b 2 ∨ k = 16 * 3 + b 3 then 1 else 0 := by
  have h0 := hb 0
  have h1 := hb 1
  have h2 := hb 2
  have h3 := hb 3
  simp only [get_bump]
  by_cases e0 : k = 16 * 0 + b 0
  · rw [if_pos e0, if_neg (by omega), if_neg (by omega), if_neg (by omega), if_pos (.inl e0)]
  by_cases e1 : k = 16 * 1 + b 1
  · rw [if_neg e0, if_pos e1, if_neg (by omega), if_neg (by omega), if_pos (.inr (.inl e1))]
  by_cases e2 : k = 16 * 2 + b 2
  · rw [if_neg e0, if_neg e1, if_pos e2, if_neg (by omega), if_pos (.inr (.inr (.inl e2)))]
  by_cases e3 : k = 16 * 3 + b 3
  · rw [if_neg e0, if_neg e1, if_neg e2, if_pos e3, if_pos (.inr (.inr (.inr e3)))]
  rw [if_neg e0, if_neg e1, if_neg e2, if_neg e3, if_neg (by omega)]

/-! ## Records and snapshots (R428, R429) -/

@[simp] theorem length_leBytes (v n : Nat) : (leBytes v n).length = n := by simp [leBytes]

@[simp] theorem length_countBytes (t : Table Nat) (n w : Nat) : (countBytes t n w).length = n * (w / 8) := by
  have each : ∀ l : List Nat, (l.flatMap fun k => leBytes (satNat w (Table.get 0 t k)) (w / 8)).length = l.length * (w / 8) := fun l => by
    induction l with
    | nil => rw [List.flatMap_nil, List.length_nil, List.length_nil, Nat.zero_mul]
    | cons k l ih => rw [List.flatMap_cons, List.length_append, ih, length_leBytes, List.length_cons, Nat.succ_mul, Nat.add_comm]
  rw [countBytes, each, List.length_range]

theorem length_recordBody (c : Counts) : (recordBody c).length = 34208 := by simp [recordBody]

theorem length_recordHeader (part : BitVec 256) (seq poh : Nat) (cycles : BitVec 64) : (recordHeader part seq poh cycles).length = 64 := by
  simp [recordHeader]

theorem length_identitySignature (text : List Byte) : (identitySignature text).length = 3309 := by simp [identitySignature]

/-- A record has a header, a body and a signature. -/
theorem length_newRecord (s : State) : (newRecord s).bytes.length = 37581 := by
  simp only [newRecord, List.length_append, length_recordBody, length_recordHeader, length_identitySignature]

/-- Its number follows that of the current record. -/
theorem newRecord_seq (s : State) :
    (∀ c, currentRec s.life = some c → (newRecord s).seq = c.seq + 1) ∧ (currentRec s.life = none → (newRecord s).seq = 1) := by
  constructor
  · intro c h
    simp only [newRecord, h]
  · intro h
    simp only [newRecord, h]

/-- The lifetime records after a snapshot. -/
def Life.put (l : Life) (r : LifeRec) (at0 : Nat) : Life :=
  if currentIsA l then { l with b := some r, lastB := true, snapAt := at0 } else { l with a := some r, lastB := false, snapAt := at0 }

theorem exec_snapshot {s : State} (h : s.life.snapAt + 240000000000 ≤ now s) :
    exec .snapshot s = .next { s with life := s.life.put (newRecord s) (now s) } :=
  if_pos h

theorem put_snapAt (l : Life) (r : LifeRec) (at0 : Nat) : (l.put r at0).snapAt = at0 := by
  unfold Life.put
  split <;> rfl

/-- The current record stands in slot A, or slot B says which it is. -/
theorem currentRec_slot (l : Life) :
    (currentIsA l = true → currentRec l = l.a ∧ l.a.isSome = true) ∧ (currentIsA l = false → currentRec l = l.b) := by
  unfold currentIsA currentRec
  cases l.a with
  | none => cases l.b <;> simp
  | some x =>
    cases l.b with
    | none => simp
    | some y =>
      by_cases h : x.seq < y.seq
      · exact ⟨fun e => absurd h (Nat.not_lt.2 (of_decide_eq_true e)), fun _ => if_pos h⟩
      · exact ⟨fun _ => ⟨if_neg h, rfl⟩, fun e => absurd (Nat.not_lt.1 h) (of_decide_eq_false e)⟩

/-- A record with a higher number than the current one is current once it is written, and the other slot keeps the one before. -/
theorem currentRec_put (l : Life) (r : LifeRec) (at0 : Nat) (h : ∀ c, currentRec l = some c → c.seq < r.seq) :
    currentRec (l.put r at0) = some r ∧ ∀ c, currentRec l = some c → (l.put r at0).a = some c ∨ (l.put r at0).b = some c := by
  unfold Life.put
  cases hA : currentIsA l with
  | true =>
    obtain ⟨hc, ha⟩ := (currentRec_slot l).1 hA
    obtain ⟨x, hx⟩ := Option.isSome_iff_exists.1 ha
    have := h x (hc.trans hx)
    rw [hc]
    exact ⟨by simp [currentRec, hx, this], fun c hc => .inl hc⟩
  | false =>
    have hc := (currentRec_slot l).2 hA
    rw [hc] at h ⊢
    refine ⟨?_, fun c hc => .inr hc⟩
    cases hb : l.b with
    | none => simp [currentRec]
    | some y =>
      have := h y hb
      simp [currentRec, Nat.not_lt.2 (Nat.le_of_lt this)]

/-- The records after a loss of power, which voids the slot that was being written (R428). -/
def Life.void (l : Life) : Life := if currentIsA l then { l with b := none } else { l with a := none }

/-- The slot being written is not that of the current record. -/
theorem currentRec_void (l : Life) : currentRec l.void = currentRec l := by
  unfold Life.void
  cases hA : currentIsA l with
  | true =>
    obtain ⟨hc, ha⟩ := (currentRec_slot l).1 hA
    obtain ⟨x, hx⟩ := Option.isSome_iff_exists.1 ha
    rw [hc, hx]
    simp [currentRec]
  | false =>
    rw [(currentRec_slot l).2 hA]
    simp [currentRec]

/-! ## The boot chain (R25) -/

/-- What the boot chain verifies stands in the input and in non-volatile memory. -/
theorem bootGood_congr {s t : State} (hi : t.input = s.input) (hn : t.hub.nv = s.hub.nv) (k : Nat) : bootGood t k = bootGood s k := by
  have hf : ∀ j, bootFirm t j = bootFirm s j := fun j => by simp only [bootFirm, hi]
  simp only [bootGood, bootDigest, hn, hf]

theorem bootNew_congr {s t : State} (hi : t.input = s.input) (hn : t.hub.nv = s.hub.nv) : bootNew t = bootNew s := by
  have hf : ∀ j, bootFirm t j = bootFirm s j := fun j => by simp only [bootFirm, hi]
  simp only [bootNew, hn, hf]

/-- The state once the management firmware runs. -/
def booted0 (s : State) : State := loadCores (measure s (bootDigest s 0)) 16 17 (bootFirm s 0).image
/-- The state once the configuration record is applied. -/
def booted1 (s : State) : State := modHub (measure (booted0 s) (bootDigest (booted0 s) 1)) fun h => { h with conf := h.nv }
/-- The state once the control cores run. -/
def booted2 (s : State) : State := bringUp (loadCores (measure (booted1 s) (bootDigest (booted1 s) 2)) 0 16 (bootFirm (booted1 s) 1).image)

@[simp] theorem modHub_input (s : State) (f : Hub → Hub) : (modHub s f).input = s.input := rfl
@[simp] theorem modHub_dist (s : State) (f : Hub → Hub) : (modHub s f).dist = s.dist := rfl
@[simp] theorem modHub_dies (s : State) (f : Hub → Hub) : (modHub s f).dies = s.dies := rfl
@[simp] theorem modHub_cycle (s : State) (f : Hub → Hub) : (modHub s f).cycle = s.cycle := rfl
@[simp] theorem modHub_hub (s : State) (f : Hub → Hub) : (modHub s f).hub = f s.hub := rfl
@[simp] theorem measure_input (s : State) (d : BitVec 256) : (measure s d).input = s.input := rfl
@[simp] theorem measure_nv (s : State) (d : BitVec 256) : (measure s d).hub.nv = s.hub.nv := rfl

@[simp] theorem measure_dist (s : State) (d : BitVec 256) : (measure s d).dist = s.dist := rfl
@[simp] theorem measure_dies (s : State) (d : BitVec 256) : (measure s d).dies = s.dies := rfl
@[simp] theorem measure_cycle (s : State) (d : BitVec 256) : (measure s d).cycle = s.cycle := rfl
@[simp] theorem measure_conf (s : State) (d : BitVec 256) : (measure s d).hub.conf = s.hub.conf := rfl
@[simp] theorem bringUp_dist (s : State) : (bringUp s).dist = { s.dist with master := 0#2 } := rfl
@[simp] theorem bringUp_hub (s : State) : (bringUp s).hub = s.hub := rfl
@[simp] theorem bringUp_dies (s : State) :
    (bringUp s).dies = s.dies.map fun d => { d with live := true, fenced := false, beatAt := now s, cut := false } := rfl

/-- The control cores and the management core as given. -/
def setCores (s : State) (v : Vector CtlCore 17) : State := { s with hub := { s.hub with cores := v } }

/-- The cores of a range with a firmware image, the others as they are. -/
def loadedCores (s : State) (lo hi : Nat) (im : List Byte) : Vector CtlCore 17 := Vector.ofFn fun i =>
  if lo ≤ i.val ∧ i.val < hi then loadTcm im (vget CtlCore.empty s.hub.cores i.val) else vget CtlCore.empty s.hub.cores i.val

theorem loadCores_eq (s : State) (lo hi : Nat) (im : List Byte) : loadCores s lo hi im = setCores s (loadedCores s lo hi im) := by
  rw [loadCores, modHub, setCores, loadedCores]

@[simp] theorem setCores_input (s : State) (v : Vector CtlCore 17) : (setCores s v).input = s.input := rfl
@[simp] theorem setCores_nv (s : State) (v : Vector CtlCore 17) : (setCores s v).hub.nv = s.hub.nv := rfl
@[simp] theorem setCores_dist (s : State) (v : Vector CtlCore 17) : (setCores s v).dist = s.dist := rfl
@[simp] theorem setCores_dies (s : State) (v : Vector CtlCore 17) : (setCores s v).dies = s.dies := rfl
@[simp] theorem setCores_cycle (s : State) (v : Vector CtlCore 17) : (setCores s v).cycle = s.cycle := rfl
@[simp] theorem setCores_conf (s : State) (v : Vector CtlCore 17) : (setCores s v).hub.conf = s.hub.conf := rfl

theorem booted0_input (s : State) : (booted0 s).input = s.input := by rw [booted0, loadCores_eq, setCores_input, measure_input]
theorem booted0_nv (s : State) : (booted0 s).hub.nv = s.hub.nv := by rw [booted0, loadCores_eq, setCores_nv, measure_nv]
theorem booted1_input (s : State) : (booted1 s).input = s.input := by rw [booted1, modHub_input, measure_input, booted0_input]
theorem booted1_nv (s : State) : (booted1 s).hub.nv = s.hub.nv := by rw [booted1, modHub_hub, measure_nv, booted0_nv]

/-- The chain goes as far as its stages are good. -/
theorem bootChain_eq (s : State) :
    bootChain s =
      if bootGood s 0 = true then
        if bootGood s 1 = true then if bootNew s = true ∧ bootGood s 2 = true then booted2 s else booted1 s else booted0 s
      else s := by
  rw [← bootGood_congr (booted0_input s) (booted0_nv s) 1, ← bootGood_congr (booted1_input s) (booted1_nv s) 2,
    ← bootNew_congr (booted1_input s) (booted1_nv s)]
  have h : bootChain s = if (!bootGood s 0) = true then s else if (!bootGood (booted0 s) 1) = true then booted0 s
      else if (!bootNew (booted1 s) || !bootGood (booted1 s) 2) = true then booted1 s else booted2 s := rfl
  rw [h]
  cases bootGood s 0 <;> cases bootGood (booted0 s) 1 <;> cases bootNew (booted1 s) <;> cases bootGood (booted1 s) 2 <;> rfl

/-- Every stage of the boot chain is good, and no firmware is too old (R25). -/
def boots (s : State) : Bool := bootGood s 0 && bootGood s 1 && bootNew s && bootGood s 2

/-- A good chain reaches its end, any other one stops at a stage before it. -/
theorem bootChain_cases (s : State) :
    (boots s = true → bootChain s = booted2 s) ∧
    (boots s = false → bootChain s = s ∨ bootChain s = booted0 s ∨ bootChain s = booted1 s) := by
  rw [bootChain_eq]
  unfold boots
  cases bootGood s 0 <;> cases bootGood s 1 <;> cases bootNew s <;> cases bootGood s 2 <;> simp

/-- Nothing but what the boot chain sets up has changed: the master, the dies, the record applied, the cores and the measurements. -/
def BootOnly (s t : State) : Prop :=
  t = { s with dist := { s.dist with master := t.dist.master }, dies := t.dies
               hub := { s.hub with conf := t.hub.conf, cores := t.hub.cores, measured := t.hub.measured } }

theorem BootOnly.trans {s t u : State} (h : BootOnly s t) (k : BootOnly t u) : BootOnly s u := by
  unfold BootOnly at *
  rw [k, h]

theorem setCores_bootOnly (s : State) (v : Vector CtlCore 17) : BootOnly s (setCores s v) := rfl
theorem loadCores_bootOnly (s : State) (lo hi : Nat) (im : List Byte) : BootOnly s (loadCores s lo hi im) := by
  rw [loadCores_eq]
  exact setCores_bootOnly ..
theorem measure_bootOnly (s : State) (d : BitVec 256) : BootOnly s (measure s d) := rfl
theorem applyConf_bootOnly (s : State) : BootOnly s (modHub s fun h => { h with conf := h.nv }) := rfl
theorem bringUp_bootOnly (s : State) : BootOnly s (bringUp s) := rfl

theorem booted0_bootOnly (s : State) : BootOnly s (booted0 s) := (measure_bootOnly ..).trans (loadCores_bootOnly ..)
theorem booted1_bootOnly (s : State) : BootOnly s (booted1 s) :=
  (booted0_bootOnly s).trans ((measure_bootOnly ..).trans (applyConf_bootOnly ..))
theorem booted2_bootOnly (s : State) : BootOnly s (booted2 s) :=
  (booted1_bootOnly s).trans ((measure_bootOnly ..).trans ((loadCores_bootOnly ..).trans (bringUp_bootOnly ..)))

theorem bootChain_bootOnly (s : State) : BootOnly s (bootChain s) := by
  obtain ⟨hg, hb⟩ := bootChain_cases s
  cases h : boots s with
  | true =>
    rw [hg h]
    exact booted2_bootOnly s
  | false =>
    rcases hb h with h | h | h <;> rw [h]
    · rfl
    · exact booted0_bootOnly s
    · exact booted1_bootOnly s

/-- The cores that load an image run, and the others do as they did. -/
theorem coresRun_loadCores (s : State) (lo hi : Nat) (im : List Byte) (d : BitVec 2) :
    coresRun (loadCores s lo hi im) d = if lo ≤ 4 * d.toNat ∧ 4 * d.toNat < hi then true else coresRun s d := by
  have hd : 4 * d.toNat < 17 := by omega
  rw [loadCores_eq, coresRun, setCores, loadedCores, vget, dif_pos hd, Vector.getElem_ofFn]
  simp only
  split <;> rfl

theorem coresRun_measure (s : State) (x : BitVec 256) (d : BitVec 2) : coresRun (measure s x) d = coresRun s d := rfl
theorem coresRun_applyConf (s : State) (d : BitVec 2) : coresRun (modHub s fun h => { h with conf := h.nv }) d = coresRun s d := rfl
theorem coresRun_bringUp (s : State) (d : BitVec 2) : coresRun (bringUp s) d = coresRun s d := rfl

theorem coresRun_booted0 (s : State) (d : BitVec 2) : coresRun (booted0 s) d = coresRun s d := by
  rw [booted0, coresRun_loadCores, if_neg (by omega), coresRun_measure]

theorem coresRun_booted1 (s : State) (d : BitVec 2) : coresRun (booted1 s) d = coresRun s d := by
  rw [booted1, coresRun_applyConf, coresRun_measure, coresRun_booted0]

theorem coresRun_booted2 (s : State) (d : BitVec 2) : coresRun (booted2 s) d = true := by
  rw [booted2, coresRun_bringUp, coresRun_loadCores, if_pos (by omega)]

/-- A chain that stops before its end starts no control core, applies no die and takes no master. -/
theorem bootChain_stopped {s : State} (h : boots s = false) :
    (bootChain s).dist = s.dist ∧ (bootChain s).dies = s.dies ∧ ∀ d, coresRun (bootChain s) d = coresRun s d := by
  rcases (bootChain_cases s).2 h with h | h | h <;> rw [h]
  · exact ⟨rfl, rfl, fun _ => rfl⟩
  · exact ⟨by simp [loadCores_eq, booted0], by simp [loadCores_eq, booted0], coresRun_booted0 s⟩
  · exact ⟨by simp [loadCores_eq, booted1, booted0], by simp [loadCores_eq, booted1, booted0], coresRun_booted1 s⟩

/-- A good chain applies the record and starts every core; the dies come up, die 0 is master. -/
theorem bootChain_done {s : State} (h : boots s = true) :
    (bootChain s).dist = { s.dist with master := 0#2 } ∧ (bootChain s).hub.conf = s.hub.nv ∧ (∀ d, coresRun (bootChain s) d = true) ∧
    (bootChain s).dies = s.dies.map fun d => { d with live := true, fenced := false, beatAt := now s, cut := false } := by
  rw [(bootChain_cases s).1 h]
  refine ⟨?_, ?_, coresRun_booted2 s, ?_⟩
  · simp [loadCores_eq, booted2, booted1, booted0]
  · simp [loadCores_eq, booted2, booted1, booted0]
  · simp [loadCores_eq, booted2, booted1, booted0, now]

/-! ## Package reset and loss of power (R25, R428) -/

/-- A reset leaves the input and the record in non-volatile memory, so it boots as the state before would. -/
theorem boots_afterReset (s : State) : boots (afterReset s) = boots s := by
  have hi : (afterReset s).input = s.input := rfl
  have hn : (afterReset s).hub.nv = s.hub.nv := rfl
  unfold boots
  rw [bootGood_congr hi hn, bootGood_congr hi hn, bootGood_congr hi hn, bootNew_congr hi hn]

theorem coresRun_afterReset (s : State) (d : BitVec 2) : coresRun (afterReset s) d = false := by
  have hd : 4 * d.toNat < 17 := by omega
  simp only [coresRun, afterReset, State.reset, Hub.empty]
  rw [vget, dif_pos hd, Vector.getElem_replicate]
  rfl

/-- After a reset the dies and the distributors stand as `State.reset` has them, with a good chain or without. -/
theorem bootChain_afterReset (s : State) :
    (bootChain (afterReset s)).dist = State.reset.dist ∧ (bootChain (afterReset s)).dies = State.reset.dies := by
  cases h : boots (afterReset s) with
  | false =>
    obtain ⟨h1, h2, _⟩ := bootChain_stopped h
    exact ⟨h1, h2⟩
  | true =>
    obtain ⟨h1, _, _, h2⟩ := bootChain_done h
    refine ⟨h1, h2.trans ?_⟩
    show (Vector.replicate 4 Die.empty).map _ = Vector.replicate 4 Die.empty
    rw [Vector.map_replicate]
    rfl

/-- What the boot chain after a reset leaves as the reset has it. -/
theorem bootChain_afterReset_keeps (s : State) : let t := bootChain (afterReset s)
    t.fab = State.reset.fab ∧ t.hyps = State.reset.hyps ∧ t.fns = [] ∧ t.links = State.reset.links ∧ t.cycle = 0#64 ∧
    t.store = (afterReset s).store ∧ t.life = (afterReset s).life ∧ t.hub.nv = s.hub.nv ∧ t.hub.pfOpen = false := by
  intro t
  have h : BootOnly (afterReset s) t := bootChain_bootOnly (afterReset s)
  unfold BootOnly at h
  rw [h]
  exact ⟨rfl, rfl, rfl, rfl, rfl, rfl, rfl, rfl, rfl⟩

/-- The record in force and the control cores after a reset, by its boot chain. -/
theorem bootChain_afterReset_boots (s : State) :
    (boots s = true → (bootChain (afterReset s)).hub.conf = s.hub.nv ∧ ∀ d, coresRun (bootChain (afterReset s)) d = true) ∧
    (boots s = false → ∀ d, coresRun (bootChain (afterReset s)) d = false) := by
  rw [← boots_afterReset]
  refine ⟨fun h => ?_, fun h d => ?_⟩
  · obtain ⟨_, hc, hr, _⟩ := bootChain_done h
    exact ⟨hc, hr⟩
  · obtain ⟨_, _, hr⟩ := bootChain_stopped h
    rw [hr, coresRun_afterReset]

/-- A loss of power leaves the current record, host memory and the record in non-volatile memory (R428). -/
theorem exec_powerLoss (s : State) :
    ∃ t, exec .powerLoss s = .next t ∧ currentRec t.life = currentRec s.life ∧ t.store.mem = [] ∧ t.store.host = s.store.host ∧
      t.fab = State.reset.fab ∧ t.dist = State.reset.dist ∧ t.hub = { Hub.empty with nv := s.hub.nv } := by
  refine ⟨_, rfl, ?_, rfl, rfl, rfl, rfl, rfl⟩
  show currentRec (if (s.opnd 0 1 : BitVec 1) = 1#1 then s.life.void else s.life) = _
  split
  · exact currentRec_void s.life
  · rfl

end Sys2Proof.Machine
end

section
/-! The statement about the dies and the management core (R24, R25, R50, R167, R394 to R396, R403, R428 to R430). -/

namespace Sys2Proof.Machine

open Sys2Proof Sys2Proof.Claims Sys2Proof.Laws

/-- A write of a die changes that die alone. -/
theorem setDie_dieIs (s : State) (die : BitVec 2) (d : Die) : DieIs die s (setDie s die d) d :=
  ⟨rfl, getDie_setDie_self .., fun _ hx => getDie_setDie_other _ _ _ _ (Ne.symm hx)⟩

theorem completes_heartbeat {s : State} {die : BitVec 2} (hl : (getDie s die).live = true) (hb : (getDie s die).beatAt + 40000 ≤ now s) :
    Completes (.heartbeat die) s fun t => DieIs die s t { getDie s die with beatAt := now s } :=
  ⟨_, if_pos ⟨hl, hb⟩, setDie_dieIs ..⟩

theorem completes_dieRejoin {s : State} (h : (getDie s (s.opnd 0 2)).fenced = true) :
    Completes .dieRejoin s fun t => DieIs (s.opnd 0 2) s t
      { getDie s (s.opnd 0 2) with live := true, fenced := false, beatAt := now s, cut := false } :=
  ⟨_, if_pos h, setDie_dieIs ..⟩

/-! ## Memory errors (R403, R430) -/

/-- An error is counted, and one that cannot be corrected marks its block. -/
theorem exec_eccError (s : State) :
    let a := (s.opnd 1 64 : BitVec 64).toNat
    let unc := decide ((s.opnd 9 1 : BitVec 1) = 1#1)
    let u := { s with life := { s.life with live := countEcc s.life.live (s.opnd 0 2) a unc } }
    exec .eccError s = .next (if unc then poisonBlock u (s.opnd 0 2) a else u) := rfl

theorem exec_eccError_corrected {s : State} (h : (s.opnd 9 1 : BitVec 1) = 0#1) :
    exec .eccError s =
      .next { s with life := { s.life with live := countEcc s.life.live (s.opnd 0 2) (s.opnd 1 64 : BitVec 64).toNat false } } := by
  rw [exec_eccError]
  simp [h]

theorem exec_eccError_uncorrected {s : State} (h : (s.opnd 9 1 : BitVec 1) = 1#1) :
    exec .eccError s =
      .next (poisonBlock { s with life := { s.life with live := countEcc s.life.live (s.opnd 0 2) (s.opnd 1 64 : BitVec 64).toNat true } }
        (s.opnd 0 2) (s.opnd 1 64 : BitVec 64).toNat) := by
  rw [exec_eccError]
  simp [h]

/-- The mark of a module block, and of no other. -/
theorem memPoisoned_poisonBlock {s : State} {a : Nat} (ha : a < moduleTop) :
    memPoisoned (poisonBlock s 0#2 a) a = true ∧ (∀ b, b / 64 ≠ a / 64 → memPoisoned (poisonBlock s 0#2 a) b = memPoisoned s b) ∧
    MemSame s (poisonBlock s 0#2 a) := by
  have e : poisonBlock s 0#2 a = { s with store := { s.store with memPsn := Table.set false s.store.memPsn (a / 64) true } } := if_pos ha
  rw [e]
  unfold memPoisoned
  exact ⟨get_set_self false s.store.memPsn _ true, fun b hb => get_set_other false s.store.memPsn true hb,
    fun _ => rfl, fun _ => rfl, fun _ _ => rfl⟩

/-- The mark of a scratchpad block. -/
theorem spadPoisoned_poisonBlock {s : State} {a : Nat} (ha : a % 2 ^ 20 < spadSize) :
    poisonBlock s 1#2 a = setSpadPoison s (BitVec.ofNat 12 (a / 2 ^ 20)) (a % 2 ^ 20) true ∧
    spadPoisoned (poisonBlock s 1#2 a) (BitVec.ofNat 12 (a / 2 ^ 20)) (a % 2 ^ 20) = true := by
  have e : poisonBlock s 1#2 a = setSpadPoison s (BitVec.ofNat 12 (a / 2 ^ 20)) (a % 2 ^ 20) true := if_pos ha
  rw [e]
  exact ⟨rfl, get_set_self false s.store.spadPsn _ true⟩

/-! ## The generation loop (R167) -/

/-- Records that the sequencer submits stand last in the submissions, in their order, at priority 7. -/
theorem foldl_seqSubmit (rs : List (BitVec 2048)) (s : State) :
    rs.foldl seqSubmit s =
      { s with dist := { s.dist with subq := s.dist.subq ++ rs.map fun r => ⟨0#10, true, false, setBits r 264 7#3⟩ } } := by
  induction rs generalizing s with
  | nil => simp
  | cons r rs ih =>
    rw [List.foldl_cons, ih]
    simp [seqSubmit]

/-- With every request between iterations, all their records go out. -/
theorem exec_generation_submits {s : State} (hi : s.input = []) (hg : ∀ g, g ∈ s.dist.gens → g.waiting = [] ∧ g.phase = 0#2) :
    let recs := s.dist.gens.flatMap fun g => g.recs
    exec .generationIteration s = .next (recs.foldl seqSubmit
      { s with dist := { s.dist with gens := s.dist.gens.map fun g => { g with phase := 1#2, waiting := syncWaits s recs } } }) := by
  have h1 : (s.dist.gens.any fun g => !g.waiting.all fun w => w.met s) = false := by
    rw [List.any_eq_false]
    intro g h
    simp [(hg g h).1]
  have h2 : ∀ p : BitVec 2, p ≠ 0#2 → (s.dist.gens.any fun g => decide (g.phase = p)) = false := by
    intro p hp
    rw [List.any_eq_false]
    intro g h
    simp [(hg g h).2, Ne.symm hp]
  show execGenerationIteration s = _
  unfold execGenerationIteration
  simp [hi, h1, h2 2#2 (by decide), h2 1#2 (by decide)]

/-! ## Samples -/

/-- One sample of every die (R430). -/
theorem exec_environmentSample {s : State} (h : s.life.sampleAt + 4000000 ≤ now s) :
    let hot (d : Nat) : Nat := thermalBin (s.opnd (2 * d) 16 : BitVec 16).toInt
    let low (d : Nat) : Nat := droopBin (s.opnd (8 + 2 * d) 16 : BitVec 16).toNat
    let c := s.life.live
    exec .environmentSample s = .next { s with life := { s.life with
      live := { c with
        thermal := bump (bump (bump (bump c.thermal (16 * 0 + hot 0)) (16 * 1 + hot 1)) (16 * 2 + hot 2)) (16 * 3 + hot 3)
        droop := bump (bump (bump (bump c.droop (16 * 0 + low 0)) (16 * 1 + low 1)) (16 * 2 + low 2)) (16 * 3 + low 3) }
      sampleAt := now s } } :=
  if_pos h

/-! ## The whole -/

/-- Settles O50. A lost die is fenced before its nodes lose it, and neither the end of a node's work nor the refutation of its hypothesis
touches a function, a count or a live die; the other clauses follow from what each event does to its own part. -/
theorem diesAndManagement : Obligations.DiesAndManagement := by
  refine ⟨fun die s => completes_heartbeat, fun die s hl hb => ⟨dieGone s die, exec_dieLost hl hb, ?_⟩, fun s => completes_dieRejoin,
    fun s => ⟨?_, ?_, ?_, ?_⟩, fun s h => ⟨_, exec_snapshot h, ?_⟩, fun s h => ⟨_, exec_environmentSample h, rfl, ?_, ?_, rfl⟩,
    fun s => ⟨?_, ?_⟩, fun s => ⟨_, rfl, ?_⟩, fun s => ?_,
    fun s => ⟨fun h => if_pos h, fun hi hg => ⟨_, exec_generation_submits hi hg, ?_⟩⟩⟩
  · obtain ⟨h1, h2, h3, h4, h5, h6, h7⟩ := lostDie_dieGone s die
    refine ⟨h1, h2, h3, h4, h5, h6, h7, ?_, fencedCount_dieGone s die, master_dieGone_other, fun hm x => master_dieGone hm, ?_⟩
    · rw [msix_dieGone (pf_mem_lostFns s die)]
      simp
    · intro n i hn hu hst hab hi hin he ho
      have hlost := lost_of_inst hi hin he ho
      exact ⟨msix_dieGone (sub_mem_lostFns hn hlost), dieGone_ends hn hu hst hab hlost⟩
  · intro hs hc
    refine ⟨_, exec_eccError_corrected hc, ?_, rfl⟩
    rw [hs]
    rfl
  · intro hs hc
    refine ⟨_, exec_eccError_corrected hc, ?_, rfl⟩
    exact if_neg hs
  · intro hs hc ha
    refine ⟨_, exec_eccError_uncorrected hc, ?_⟩
    rw [hs]
    exact memPoisoned_poisonBlock ha
  · intro hs hc ha
    refine ⟨_, exec_eccError_uncorrected hc, ?_⟩
    rw [hs]
    obtain ⟨h1, h2⟩ := spadPoisoned_poisonBlock
      (s := { s with life := { s.life with live := countEcc s.life.live 1#2 (s.opnd 1 64 : BitVec 64).toNat true } }) ha
    refine ⟨h2, ?_, ?_⟩
    · rw [h1]
      rfl
    · rw [h1]
      exact ⟨fun _ => rfl, fun _ => rfl, fun _ _ => rfl⟩
  · obtain ⟨hseq, hfirst⟩ := newRecord_seq s
    obtain ⟨h1, h2⟩ := currentRec_put s.life (newRecord s) (now s) fun c hc => by rw [hseq c hc]; omega
    exact ⟨newRecord s, h1, length_newRecord s, put_snapAt .., fun c hc => ⟨hseq c hc, h2 c hc⟩, hfirst, rfl⟩
  · exact get_bump_dies s.life.live.thermal (fun d => thermalBin (s.opnd (2 * d) 16 : BitVec 16).toInt) fun _ => thermalBin_le _
  · exact get_bump_dies s.life.live.droop (fun d => droopBin (s.opnd (8 + 2 * d) 16 : BitVec 16).toNat) fun _ => droopBin_le _
  · intro h
    show Host.Outcome.next (if (readRecord s.input).good = true then _ else _) = _
    rw [if_pos h]
  · intro h
    show Host.Outcome.next (if (readRecord s.input).good = true then _ else _) = _
    rw [if_neg (by simp [h])]
  · obtain ⟨hdist, hdies⟩ := bootChain_afterReset s
    obtain ⟨hfab, hhyps, hfns, hlinks, hcycle, hstore, hlife, hnv, hopen⟩ := bootChain_afterReset_keeps s
    refine ⟨hfab, hdist, hhyps, hdies, hfns, hlinks, hcycle, ?_, fun a => ?_, ?_, ?_, hnv, hopen, ?_, bootChain_afterReset_boots s⟩
    · rw [hstore]
      rfl
    · unfold memByte hostByte
      rw [hstore]
      exact ⟨rfl, rfl⟩
    all_goals rw [hlife]; rfl
  · obtain ⟨t, ht, hrec, hmem, hhost, hfab, hdist, hhub⟩ := exec_powerLoss s
    refine ⟨t, ht, fun a => ?_, hrec, hfab, hdist, ?_, ?_⟩
    · unfold memByte hostByte
      rw [hmem, hhost]
      exact ⟨rfl, rfl⟩
    · rw [hhub]
      rfl
    · rw [hhub]
  · rw [foldl_seqSubmit]
    exact ⟨rfl, rfl, rfl⟩

end Sys2Proof.Machine
end

section
/-! The firmware interface (R186, R187): the outcomes of a command, and the statement about each. -/

namespace Sys2Proof.Machine

open Sys2Proof Sys2Proof.Claims Sys2Proof.Laws

/-! ## The commands' instructions -/

theorem exec_faultring (s : State) : exec .faultring s = execFaultring s := rfl
theorem exec_pasid (s : State) : exec .pasid s = execPasid s := rfl
theorem exec_watchdog (s : State) : exec .watchdog s = execWatchdog s := rfl
theorem exec_dbgattach (s : State) : exec .dbgattach s = execDbgattach s := rfl
theorem exec_dbghalt (s : State) : exec .dbghalt s = execDbghalt s := rfl
theorem exec_dbgresume (s : State) : exec .dbgresume s = execDbgresume s := rfl
theorem exec_dbgdetach (s : State) : exec .dbgdetach s = execDbgdetach s := rfl
theorem exec_watchset (s : State) : exec .watchset s = execWatchset s := rfl
theorem exec_rebuild (s : State) : exec .rebuild s = execRebuild s := rfl
theorem exec_liferead (s : State) : exec .liferead s = execLiferead s := rfl
theorem exec_attest (s : State) : exec .attest s = execAttest s := rfl
theorem exec_atstimeout (s : State) : exec .atstimeout s = execAtstimeout s := rfl
theorem exec_nodeid (s : State) : exec .nodeid s = execNodeid s := rfl
theorem exec_route (s : State) : exec .route s = execRoute s := rfl
theorem exec_slots (s : State) : exec .slots s = execSlots s := rfl
theorem exec_rtimeout (s : State) : exec .rtimeout s = execRtimeout s := rfl
theorem exec_t2pool (s : State) : exec .t2pool s = execT2pool s := rfl
theorem exec_ovlres (s : State) : exec .ovlres s = execOvlres s := rfl
theorem exec_ctxset (s : State) : exec .ctxset s = execCtxset s := rfl
theorem exec_ctxread (s : State) : exec .ctxread s = execCtxread s := rfl

/-! ## A command and its outcomes -/

/-- A command with a reserved bit gives RESULT 2. -/
theorem fwRun_reserved (s : State) (act : State → FwOut) (h : windowOpen s 0#10 = true) (hb : s.hub.fwBusy = false) (ht : fwTop s ≠ 0#32) :
    fwRun s act = .next { breakHalf s 0#10 with hub := { s.hub with fwResult := 2#8, fwBusy := true } } := by
  have h1 : (breakHalf s 0#10).hub = s.hub := by rw [breakHalf_frame]
  have h2 : fwTop (breakHalf s 0#10) ≠ 0#32 := by rw [breakHalf_frame]; exact ht
  rw [fwRun, windowWrite_open _ _ _ h]
  simp [h1, h2, hb]

/-- The outcomes that every command of R186 has in common: a closed window, a busy interface, a reserved bit. -/
theorem fwRun_discards {i : Instr} {s : State} {act : State → FwOut} (hi : exec i s = fwRun s act) :
    (windowOpen s 0#10 = false → exec i s = .next s) ∧
    (windowOpen s 0#10 = true → s.hub.fwBusy = true → Completes i s fun t =>
      t = { breakHalf s 0#10 with hub := { s.hub with fwResult := 3#8 } }) ∧
    (windowOpen s 0#10 = true → s.hub.fwBusy = false → fwTop s ≠ 0#32 → Completes i s fun t => FwHub s t s.hub 2#8) :=
  ⟨fun h => hi.trans (windowWrite_closed _ _ _ h), fun h hb => ⟨_, hi.trans (fwRun_busy s act h hb), rfl⟩,
    fun h hb ht => ⟨_, hi.trans (fwRun_reserved s act h hb ht), rfl⟩⟩

/-- Each of the commands is a write to FWCMD. -/
theorem exec_fwCommands : ∀ i, i ∈ fwCommands → ∀ s, ∃ act, exec i s = fwRun s act := by
  simp only [fwCommands, List.forall_mem_cons, List.not_mem_nil, false_imp_iff, implies_true, and_true]
  exact ⟨fun s => ⟨_, exec_faultring s⟩,
    fun s => ⟨_, exec_pasid s⟩,
    fun s => ⟨_, exec_watchdog s⟩,
    fun s => ⟨_, exec_dbgattach s⟩,
    fun s => ⟨_, exec_dbghalt s⟩,
    fun s => ⟨_, exec_dbgresume s⟩,
    fun s => ⟨_, exec_dbgdetach s⟩,
    fun s => ⟨_, exec_watchset s⟩,
    fun s => ⟨_, exec_rebuild s⟩,
    fun s => ⟨_, exec_liferead s⟩,
    fun s => ⟨_, exec_attest s⟩,
    fun s => ⟨_, exec_atstimeout s⟩,
    fun s => ⟨_, exec_nodeid s⟩,
    fun s => ⟨_, exec_route s⟩,
    fun s => ⟨_, exec_slots s⟩,
    fun s => ⟨_, exec_rtimeout s⟩,
    fun s => ⟨_, exec_t2pool s⟩,
    fun s => ⟨_, exec_ovlres s⟩,
    fun s => ⟨_, exec_ctxset s⟩,
    fun s => ⟨_, exec_ctxread s⟩⟩

section

variable {i : Instr} {s : State} {act : State → FwOut}

/-- A command that is refused gives its RESULT and changes nothing else. -/
theorem fwRun_refuses {r : BitVec 8} (hi : exec i s = fwRun s act) (ho : FwOpen s) (ha : act (breakHalf s 0#10) = .error r) :
    Completes i s fun t => FwHub s t s.hub r := by
  obtain ⟨h, hb, ht⟩ := ho
  refine ⟨_, hi.trans (fwRun_does s act h hb ht), ?_⟩
  rw [ha]
  rfl

/-- A command that is taken leaves its state with RESULT 0. -/
theorem fwRun_takes {u : State} (hi : exec i s = fwRun s act) (ho : FwOpen s) (ha : act (breakHalf s 0#10) = .ok u) :
    exec i s = .next { u with hub := { u.hub with fwResult := 0#8, fwBusy := true } } := by
  obtain ⟨h, hb, ht⟩ := ho
  rw [hi, fwRun_does s act h hb ht, ha]

/-- One that sets the hub. -/
theorem fwRun_sets {f : Hub → Hub} (hi : exec i s = fwRun s act) (ho : FwOpen s)
    (ha : act (breakHalf s 0#10) = .ok (modHub (breakHalf s 0#10) f)) : Completes i s fun t => FwHub s t (f s.hub) 0#8 := by
  refine ⟨_, fwRun_takes hi ho ha, ?_⟩
  have h1 : (breakHalf s 0#10).hub = s.hub := by rw [breakHalf_frame]
  simp only [FwHub, modHub, h1]

end

/-! ## What a dropped half leaves -/

@[simp] theorem breakHalf_hub (s : State) (fn : BitVec 10) : (breakHalf s fn).hub = s.hub := by rw [breakHalf_frame]
@[simp] theorem breakHalf_dist (s : State) (fn : BitVec 10) : (breakHalf s fn).dist = s.dist := by rw [breakHalf_frame]
@[simp] theorem breakHalf_dies (s : State) (fn : BitVec 10) : (breakHalf s fn).dies = s.dies := by rw [breakHalf_frame]
@[simp] theorem breakHalf_life (s : State) (fn : BitVec 10) : (breakHalf s fn).life = s.life := by rw [breakHalf_frame]
@[simp] theorem breakHalf_store (s : State) (fn : BitVec 10) : (breakHalf s fn).store = s.store := by rw [breakHalf_frame]
@[simp] theorem breakHalf_input (s : State) (fn : BitVec 10) : (breakHalf s fn).input = s.input := by rw [breakHalf_frame]

@[simp] theorem fwArg_breakHalf (s : State) (fn : BitVec 10) (i : Nat) : fwArg (breakHalf s fn) i = fwArg s i := by simp [fwArg]
@[simp] theorem fwNat_breakHalf (s : State) (fn : BitVec 10) (i : Nat) : fwNat (breakHalf s fn) i = fwNat s i := by simp [fwNat]
@[simp] theorem fwFn_breakHalf (s : State) (fn : BitVec 10) : fwFn (breakHalf s fn) = fwFn s := by simp [fwFn, State.opnd]

/-- A dropped half changes nothing of a function but its half and BADW. -/
theorem getFn_breakHalf (s : State) (fn f : BitVec 10) :
    getFn (breakHalf s fn) f = { getFn s f with half := (getFn (breakHalf s fn) f).half, badw := (getFn (breakHalf s fn) f).badw } := by
  unfold breakHalf
  simp only
  split
  · by_cases e : fn = f
    · subst e
      rw [getFn_setFn_self]
    · rw [getFn_setFn_other _ _ _ _ e]
  · rfl

@[simp] theorem tdispRun_breakHalf (s : State) (fn f : BitVec 10) : (getFn (breakHalf s fn) f).tdispRun = (getFn s f).tdispRun := by
  rw [getFn_breakHalf]
@[simp] theorem policy_breakHalf (s : State) (fn f : BitVec 10) : (getFn (breakHalf s fn) f).policy = (getFn s f).policy := by
  rw [getFn_breakHalf]

/-! ## Settings of the hub -/

/-- A command for the package takes its effect on the hub where its arguments are in range, and gives RESULT 2 where not. -/
theorem fwAll_sets {i : Instr} {ok : State → Prop} {check : State → Bool} {f : State → Hub → Hub}
    (hi : ∀ s, exec i s = fwRun s fun s => fwAll (check s) (modHub s (f s)))
    (hc : ∀ s, check (breakHalf s 0#10) = true ↔ ok s) (hf : ∀ s, f (breakHalf s 0#10) s.hub = f s s.hub) :
    FwSets i ok fun s => f s s.hub := by
  intro s ho
  refine ⟨fun h => ?_, fun h => ?_⟩
  · have := fwRun_sets (f := f (breakHalf s 0#10)) (hi s) ho (if_pos ((hc s).2 h))
    rwa [hf] at this
  · exact fwRun_refuses (hi s) ho (if_neg fun hk => h ((hc s).1 hk))

theorem watchdog_sets : FwSets .watchdog (fun s => 20 ≤ fwNat s 0 ∧ fwNat s 0 ≤ 30) fun s => { s.hub with watchLg := bits (fwArg s 0) 0 5 } :=
  fwAll_sets exec_watchdog (by simp) (by simp)

theorem atstimeout_sets : FwSets .atstimeout (fun s => 1 ≤ fwNat s 0 ∧ fwNat s 0 ≤ 64) fun s => { s.hub with atsMs := bits (fwArg s 0) 0 7 } :=
  fwAll_sets exec_atstimeout (by simp) (by simp)

theorem nodeid_sets : FwSets .nodeid (fun s => 1 ≤ fwNat s 0 ∧ fwNat s 0 ≤ 4095) fun s => { s.hub with nodeId := bits (fwArg s 0) 0 12 } :=
  fwAll_sets exec_nodeid (by simp) (by simp)

theorem route_sets : FwSets .route (fun s => 1 ≤ fwNat s 0 ∧ fwNat s 0 ≤ 4095 ∧ fwNat s 1 < 2 ^ 18) fun s =>
    { s.hub with zroute := Table.set 0#18 s.hub.zroute (fwNat s 0) (bits (fwArg s 1) 0 18) } :=
  fwAll_sets exec_route (by simp [and_assoc]) (by simp)

theorem slots_sets : FwSets .slots (fun s => bits (fwArg s 0) 28 36 = 0#36 ∧ fwNat s 1 ≤ 64) fun s =>
    { s.hub with farSlots := Table.set 0 s.hub.farSlots (pairKey (bits (fwArg s 0) 0 16) (bits (fwArg s 0) 16 12)) (fwNat s 1) } :=
  fwAll_sets exec_slots (by simp) (by simp)

theorem rtimeout_sets : FwSets .rtimeout (fun s => 100 ≤ fwNat s 0 ∧ fwNat s 0 ≤ 100000) fun s =>
    { s.hub with rtimeoutUs := bits (fwArg s 0) 0 17 } :=
  fwAll_sets exec_rtimeout (by simp) (by simp)

theorem t2pool_sets : FwSets .t2pool (fun s => fwNat s 0 % 2097152 = 0) fun s => { s.hub with t2base := fwArg s 0, t2size := fwArg s 1 } :=
  fwAll_sets exec_t2pool (by simp) (by simp)

theorem ctxread_sets : FwSets .ctxread (fun s => fwNat s 0 < 256) fun s =>
    let e := Table.get 0#256 s.hub.ctxs (fwNat s 0)
    { s.hub with fwarg := vset (vset (vset (vset s.hub.fwarg 0 (bits e 0 64)) 1 (bits e 64 64)) 2 (bits e 128 64)) 3 (bits e 192 64) } :=
  fwAll_sets exec_ctxread (by simp) (by simp)

end Sys2Proof.Machine
end

section
/-! Firmware commands of functions, dies and the debugger, and those that write host memory (R186, R187, R392). -/

namespace Sys2Proof.Machine

open Sys2Proof Sys2Proof.Claims Sys2Proof.Laws

/-! ## Host memory of the PF -/

theorem hostGet_breakHalf_pf (s : State) (fn : BitVec 10) (a n : Nat) : hostGet (breakHalf s fn) 0#10 a n = hostGet s 0#10 a n := by
  simp [hostGet, hostXlate, hostByte]

theorem rebuild_sets : FwSets .rebuild (fun s => fwNat s 1 < 65536) fun s =>
    let r : BitVec 2048 := if fwNat s 0 = 0 then 0#2048 else BitVec.ofNat 2048 (hostGet s 0#10 (fwNat s 0) 256)
    { s.hub with rebuild := Table.set 0#2048 s.hub.rebuild (fwNat s 1) r } :=
  fwAll_sets exec_rebuild (by simp) (by simp [hostGet_breakHalf_pf])

/-! ## Settings of a function -/

theorem fwFor_ok {s : State} {least : Nat} {ok : Bool} (act : BitVec 10 → State) (h1 : least ≤ fwFn s) (h2 : fwFn s ≤ 512) (hc : ok = true)
    (hr : (getFn s (BitVec.ofNat 10 (fwFn s))).tdispRun = false) : fwFor s least ok act = .ok (act (BitVec.ofNat 10 (fwFn s))) := by
  simp [fwFor, Nat.not_lt.2 h1, Nat.not_lt.2 h2, hc, hr]

theorem fwFor_run {s : State} {least : Nat} {ok : Bool} (act : BitVec 10 → State) (h1 : least ≤ fwFn s) (h2 : fwFn s ≤ 512) (hc : ok = true)
    (hr : (getFn s (BitVec.ofNat 10 (fwFn s))).tdispRun = true) : fwFor s least ok act = .error 4#8 := by
  simp [fwFor, Nat.not_lt.2 h1, Nat.not_lt.2 h2, hc, hr]

theorem fwFor_range {s : State} {least : Nat} {ok : Bool} (act : BitVec 10 → State) (h : fwFn s < least ∨ 512 < fwFn s ∨ ok = false) :
    fwFor s least ok act = .error 2#8 :=
  if_pos (by simpa using h)

/-- A command for a function takes its effect where its arguments are in range, unless the function runs. -/
theorem fwFor_sets {i : Instr} {least : Nat} {ok : State → Prop} {check : State → Bool} {f : State → Fn → Fn}
    (hi : ∀ s, exec i s = fwRun s fun s => fwFor s least (check s) fun fn => modFn s fn (f s))
    (hc : ∀ s, check (breakHalf s 0#10) = true ↔ ok s) (hf : ∀ s, f (breakHalf s 0#10) = f s) : FwSetsFn i least ok f := by
  intro s ho
  have hfn := fwFn_breakHalf s 0#10
  refine ⟨fun h1 h2 h3 h4 => ?_, fun h1 h2 h3 h4 => ?_, fun h => ?_⟩
  · refine ⟨_, fwRun_takes (hi s) ho (fwFor_ok _ (by rwa [hfn]) (by rwa [hfn]) ((hc s).2 h3) (by rwa [hfn, tdispRun_breakHalf])), ?_⟩
    rw [hf, hfn]
    refine ⟨?_, getFn_setFn_self .., fun x hx => getFn_setFn_other _ _ _ _ (Ne.symm hx)⟩
    simp only [modFn, setFn, breakHalf_hub]
  · exact fwRun_refuses (hi s) ho (fwFor_run _ (by rwa [hfn]) (by rwa [hfn]) ((hc s).2 h3) (by rwa [hfn, tdispRun_breakHalf]))
  · refine fwRun_refuses (hi s) ho (fwFor_range _ ?_)
    rw [hfn, ← Bool.not_eq_true, hc]
    exact h

theorem faultring_sets : FwSetsFn .faultring 0
    (fun s => bits (fwArg s 0) 0 12 = 0#12 ∧ bits (fwArg s 1) 9 55 = 0#55 ∧ bits (fwArg s 1) 4 4 = 0#4 ∧ (bits (fwArg s 1) 0 4).toNat ≤ 8)
    fun s f => { f with ringBase := fwArg s 0, ringLg := bits (fwArg s 1) 0 4, ringEn := bitAt (fwArg s 1) 8 } :=
  fwFor_sets exec_faultring (by simp [and_assoc]) (by simp)

theorem pasid_sets : FwSetsFn .pasid 1 (fun s => fwNat s 0 < 1048576) fun s f => { f with pasid := bits (fwArg s 0) 0 20 } :=
  fwFor_sets exec_pasid (by simp) (by simp)

theorem ovlres_sets : FwSetsFn .ovlres 0 (fun s => fwNat s 0 % 67108864 = 0 ∧ fwNat s 0 + fwNat s 1 * 67108864 ≤ moduleTop)
    fun s f => { f with ovlBase := fwNat s 0, ovlSize := fwNat s 1 } :=
  fwFor_sets exec_ovlres (by simp) (by simp)

/-! ## Contexts (R187) -/

theorem ctxEntryOk_breakHalf (s : State) (fn : BitVec 10) (c : Nat) (e : BitVec 256) : ctxEntryOk (breakHalf s fn) c e = ctxEntryOk s c e := by
  simp [ctxEntryOk]

/-- The context that CTXSET names, and the entry that it brings. -/
def ctxNew (s : State) : BitVec 256 := fwArg s 4 ++ fwArg s 3 ++ fwArg s 2 ++ fwArg s 1

/-- The owner of the context's entry, old or new, is in the TDISP state RUN. -/
def ctxRuns (s : State) : Bool :=
  (getFn s (bits (Table.get 0#256 s.hub.ctxs (fwNat s 0)) 0 10)).tdispRun || (getFn s (bits (ctxNew s) 0 10)).tdispRun

theorem exec_ctxset_outcome (s : State) : exec .ctxset s = fwRun s fun s =>
    if 256 ≤ fwNat s 0 ∨ !ctxEntryOk s (fwNat s 0) (ctxNew s) then .error 2#8
    else if (getFn s (bits (Table.get 0#256 s.hub.ctxs (fwNat s 0)) 0 10)).tdispRun ∨ (getFn s (bits (ctxNew s) 0 10)).tdispRun then .error 4#8
    else .ok (modHub s fun h => { h with ctxs := Table.set 0#256 h.ctxs (fwNat s 0) (ctxNew s) }) := rfl

theorem ctxNew_breakHalf (s : State) (fn : BitVec 10) : ctxNew (breakHalf s fn) = ctxNew s := by simp [ctxNew]

theorem ctxset_sets {s : State} (ho : FwOpen s) :
    (fwNat s 0 < 256 → ctxEntryOk s (fwNat s 0) (ctxNew s) = true → ctxRuns s = false → Completes .ctxset s fun t =>
      FwHub s t { s.hub with ctxs := Table.set 0#256 s.hub.ctxs (fwNat s 0) (ctxNew s) } 0#8) ∧
    (fwNat s 0 < 256 → ctxEntryOk s (fwNat s 0) (ctxNew s) = true → ctxRuns s = true → Completes .ctxset s fun t => FwHub s t s.hub 4#8) ∧
    (256 ≤ fwNat s 0 ∨ ctxEntryOk s (fwNat s 0) (ctxNew s) = false → Completes .ctxset s fun t => FwHub s t s.hub 2#8) := by
  have hi := exec_ctxset_outcome s
  refine ⟨fun hc he hr => ?_, fun hc he hr => ?_, fun h => fwRun_refuses hi ho ?_⟩
  · have h := fwRun_sets (f := fun h => { h with ctxs := Table.set 0#256 h.ctxs (fwNat s 0) (ctxNew s) }) hi ho ?_
    · exact h
    · simp only [ctxRuns, Bool.or_eq_false_iff] at hr
      simp [ctxEntryOk_breakHalf, ctxNew_breakHalf, Nat.not_le.2 hc, he, hr]
  · refine fwRun_refuses hi ho ?_
    simp only [ctxRuns, Bool.or_eq_true] at hr
    simp [ctxEntryOk_breakHalf, ctxNew_breakHalf, Nat.not_le.2 hc, he, hr]
  · exact if_pos (by simpa [ctxEntryOk_breakHalf, ctxNew_breakHalf] using h)

/-! ## Watch entries (R374) -/

/-- The watch entry that WATCHSET brings. -/
def watchNew (s : State) : Watch := ⟨bits (fwArg s 1) 0 56, bits (fwArg s 2) 0 32, bits (fwArg s 3) 0 16, bits (fwArg s 3) 16 2⟩

/-- The arguments of WATCHSET are in range. -/
def watchOk (s : State) : Prop :=
  fwNat s 0 < 4 ∧ fwNat s 1 < 2 ^ 56 ∧ fwNat s 2 < 2 ^ 32 ∧ bits (fwArg s 3) 18 46 = 0#46 ∧ (bits (fwArg s 3) 16 2 ≠ 0#2 ∨ fwNat s 2 = 0)

/-- WATCHSET writes the entry of every die. -/
theorem watchset_sets {s : State} (ho : FwOpen s) :
    (watchOk s → exec .watchset s = .next { breakHalf s 0#10 with
      dies := s.dies.map fun d => { d with watch := vset d.watch (fwNat s 0) (watchNew s) }
      hub := { s.hub with fwResult := 0#8, fwBusy := true } }) ∧
    (¬ watchOk s → Completes .watchset s fun t => FwHub s t s.hub 2#8) := by
  refine ⟨fun h => ?_, fun h => fwRun_refuses (exec_watchset s) ho (if_neg fun hk => h ?_)⟩
  · rw [fwRun_takes (exec_watchset s) ho (if_pos (by simpa [watchOk, and_assoc] using h))]
    simp [watchNew]
  · simpa [watchOk, and_assoc] using hk

/-- A change of every die, as a die shows it. -/
theorem getDie_map {s t : State} {f : Die → Die} (h : t.dies = s.dies.map f) (d : BitVec 2) : getDie t d = f (getDie s d) := by
  simp only [getDie, h, Vector.getElem_map]

end Sys2Proof.Machine
end

section
/-! The debugger's halts (R392): one element, and every element of a region. -/

namespace Sys2Proof.Machine

open Sys2Proof Sys2Proof.Claims Sys2Proof.Laws

/-! ## Halts -/

/-- After a write to a table an entry is the one written, or as it was. -/
theorem get_set_or {α : Type} [DecidableEq α] (d : α) (t : Table α) (k j : Nat) (v : α) :
    Table.get d (Table.set d t k v) j = v ∨ Table.get d (Table.set d t k v) j = Table.get d t j := by
  by_cases h : j = k
  · subst h
    exact .inl (get_set_self d t j v)
  · exact .inr (get_set_other d t v h)

/-- Every element has the halt flag given, or stands as it did. -/
def HaltsOnly (h : Bool) (s t : State) : Prop :=
  (∀ loc, (getAg t loc).halted = h ∨ getAg t loc = getAg s loc) ∧
  (∀ x, (getCe t x).halted = h ∨ getCe t x = getCe s x) ∧ (∀ x, (getMt t x).halted = h ∨ getMt t x = getMt s x) ∧
  (∀ x, (getMx t x).halted = h ∨ getMx t x = getMx s x) ∧ (∀ x, (getSte t x).halted = h ∨ getSte t x = getSte s x) ∧
  (∀ x, (getHpu t x).halted = h ∨ getHpu t x = getHpu s x) ∧ (∀ x, (getCp t x).halted = h ∨ getCp t x = getCp s x)

theorem HaltsOnly.refl (h : Bool) (s : State) : HaltsOnly h s s :=
  ⟨fun _ => .inr rfl, fun _ => .inr rfl, fun _ => .inr rfl, fun _ => .inr rfl, fun _ => .inr rfl, fun _ => .inr rfl, fun _ => .inr rfl⟩

theorem setHalt_haltsOnly (s : State) (e : Nat) (h : Bool) : HaltsOnly h s (setHalt s e h) := by
  have same := HaltsOnly.refl h s
  obtain ⟨ag, ce, mt, mx, ste, hpu, cp⟩ := same
  simp only [setHalt]
  split
  · exact ⟨fun _ => (get_set_or ..).imp_left fun e => by rw [getAg, setAg, e], ce, mt, mx, ste, hpu, cp⟩
  · split
    · exact ⟨ag, fun _ => (get_set_or ..).imp_left fun e => by rw [getCe, setCe, e], mt, mx, ste, hpu, cp⟩
    · exact ⟨ag, ce, fun _ => (get_set_or ..).imp_left fun e => by rw [getMt, setMt, e], mx, ste, hpu, cp⟩
    · exact ⟨ag, ce, mt, fun _ => (get_set_or ..).imp_left fun e => by rw [getMx, setMx, e], ste, hpu, cp⟩
    · exact ⟨ag, ce, mt, mx, fun _ => (get_set_or ..).imp_left fun e => by rw [getSte, setSte, e], hpu, cp⟩
    · exact ⟨ag, ce, mt, mx, ste, fun _ => (get_set_or ..).imp_left fun e => by rw [getHpu, setHpu, e], cp⟩
    · exact ⟨ag, ce, mt, mx, ste, hpu, fun _ => (get_set_or ..).imp_left fun e => by rw [getCp, setCp, e]⟩
    · exact ⟨ag, ce, mt, mx, ste, hpu, cp⟩

/-- An element that is halted, or resumed, stays so while others are. -/
theorem halted_keeps {s t : State} {e : Nat} {h : Bool} (hs : Halted s e h) (ht : HaltsOnly h s t) : Halted t e h := by
  obtain ⟨ag, ce, mt, mx, ste, hpu, cp⟩ := ht
  obtain ⟨hag, hsite⟩ := hs
  refine ⟨fun loc he => (ag loc).elim id fun g => g ▸ hag loc he, fun site he => ?_⟩
  obtain ⟨hce, hmt, hmx, hste, hhpu, hcp⟩ := hsite site he
  exact ⟨fun k => (ce site).elim id fun g => g ▸ hce k, fun k => (mt site).elim id fun g => g ▸ hmt k,
    fun k => (mx site).elim id fun g => g ▸ hmx k, fun k => (ste site).elim id fun g => g ▸ hste k,
    fun k => (hpu site).elim id fun g => g ▸ hhpu k, fun k => (cp site).elim id fun g => g ▸ hcp k⟩

/-- The element named has the flag given. -/
theorem setHalt_halted (s : State) (e : Nat) (h : Bool) : Halted (setHalt s e h) e h := by
  refine ⟨fun loc he => ?_, fun site he => ?_⟩
  · have hsub : loc.sub.toNat < 2 := loc.sub.isLt
    have hsite : BitVec.ofNat 12 (e / 4) = loc.site := by
      have : e / 4 = loc.site.toNat := by omega
      rw [this, BitVec.ofNat_toNat, BitVec.setWidth_eq]
    have hs : BitVec.ofNat 1 (e % 4 - 1) = loc.sub := by
      have : e % 4 - 1 = loc.sub.toNat := by omega
      rw [this, BitVec.ofNat_toNat, BitVec.setWidth_eq]
    have hm : e % 4 ≠ 0 := by omega
    simp only [setHalt, hm, ne_eq, not_false_eq_true, if_true, hsite, hs, getAg_setAg_self]
  · have hsite : BitVec.ofNat 12 (e / 4) = site := by
      have : e / 4 = site.toNat := by omega
      rw [this, BitVec.ofNat_toNat, BitVec.setWidth_eq]
    have hm : e % 4 = 0 := by omega
    simp only [setHalt, hm, ne_eq, not_true_eq_false, if_false, hsite]
    refine ⟨?_, ?_, ?_, ?_, ?_, ?_⟩ <;> intro hk <;> simp only [hk]
    · rw [getCe_setCe_self]
    · rw [getMt_setMt_self]
    · rw [getMx_setMx_self]
    · rw [getSte_setSte_self]
    · rw [getHpu_setHpu_self]
    · rw [getCp_setCp_self]

/-- Only elements change. -/
theorem setHalt_frame (s : State) (e : Nat) (h : Bool) : setHalt s e h = { s with fab := (setHalt s e h).fab } := by
  simp only [setHalt]
  split
  · rfl
  · split <;> rfl

/-! ## Resuming a region -/

theorem resumeAll_none (s : State) : resumeAll s none = s := rfl

/-- Every element of the region runs again, and only elements change. -/
theorem resumeAll_some (s : State) (i : Inst) :
    (∀ e, e ∈ i.elems → Halted (resumeAll s (some i)) e false) ∧ resumeAll s (some i) = { s with fab := (resumeAll s (some i)).fab } := by
  show (∀ e, e ∈ i.elems → Halted (i.elems.foldl (fun s e => setHalt s e false) s) e false) ∧
    i.elems.foldl (fun s e => setHalt s e false) s = { s with fab := (i.elems.foldl (fun s e => setHalt s e false) s).fab }
  generalize i.elems = es
  induction es generalizing s with
  | nil => exact ⟨fun _ h => absurd h List.not_mem_nil, rfl⟩
  | cons x es ih =>
    obtain ⟨h1, h2⟩ := ih (setHalt s x false)
    rw [List.foldl_cons]
    refine ⟨fun e he => ?_, ?_⟩
    · rcases List.mem_cons.1 he with rfl | he
      · refine List.foldlRecOn (motive := fun t => Halted t e false) es _ (setHalt_halted s e false) fun t ht y _ => ?_
        exact halted_keeps ht (setHalt_haltsOnly t y false)
      · exact h1 e he
    · rw [h2, setHalt_frame]

end Sys2Proof.Machine
end

section
/-! The debugger's commands, LIFEREAD and ATTEST (R26, R186, R392, R431), and the statement about the firmware commands. -/

namespace Sys2Proof.Machine

open Sys2Proof Sys2Proof.Claims Sys2Proof.Laws

/-! ## The debugger's commands -/

@[simp] theorem dbgTarget_breakHalf (s : State) (fn : BitVec 10) : dbgTarget (breakHalf s fn) = dbgTarget s := by simp [dbgTarget]
@[simp] theorem findInst_breakHalf (s : State) (fn : BitVec 10) (id : Nat) : findInst (breakHalf s fn) id = findInst s id := by simp [findInst]
@[simp] theorem dbgInst_breakHalf (s : State) (fn : BitVec 10) : dbgInst (breakHalf s fn) = dbgInst s := by simp [dbgInst]

section

variable {s : State} (ho : FwOpen s)

include ho

/-- DBGATTACH names the region of a node in place, where none is attached. -/
theorem dbgattach_does :
    (bits (fwArg s 0) 48 16 = 0#16 → fwNat s 1 < 65536 →
      (∀ i, dbgTarget s = some i → dbgInst s = none → Completes .dbgattach s fun t => FwHub s t { s.hub with dbg := some i } 0#8) ∧
      (∀ i, dbgTarget s = some i → dbgInst s ≠ none → Completes .dbgattach s fun t => FwHub s t s.hub 5#8) ∧
      (dbgTarget s = none → Completes .dbgattach s fun t => FwHub s t s.hub 2#8)) ∧
    (bits (fwArg s 0) 48 16 ≠ 0#16 ∨ 65536 ≤ fwNat s 1 → Completes .dbgattach s fun t => FwHub s t s.hub 2#8) := by
  have hi := exec_dbgattach s
  refine ⟨fun hb hn => ⟨fun i ht hd => ?_, fun i ht hd => ?_, fun ht => ?_⟩, fun h => ?_⟩
  · refine fwRun_sets (f := fun h => { h with dbg := some i }) hi ho ?_
    simp [ht, hd, hb, Nat.not_le.2 hn]
  · refine fwRun_refuses hi ho ?_
    simp [ht, hb, Nat.not_le.2 hn, Option.isSome_iff_ne_none.2 hd]
  · exact fwRun_refuses hi ho (by simp [ht])
  · refine fwRun_refuses hi ho ?_
    cases ht : dbgTarget s with
    | none => simp [ht]
    | some i =>
      simp only [dbgTarget_breakHalf, ht, fwArg_breakHalf, fwNat_breakHalf]
      exact if_pos h

end

/-- The debugger acts on an element of the attached region, and on nothing else. -/
theorem dbgOn_does (s : State) (h : Bool) :
    (∀ i e, dbgInst s = some i → dbgElem (fwArg s 0) = some e → e ∈ i.elems → dbgOn s h = .ok (setHalt s e h)) ∧
    ((∀ i e, dbgInst s = some i → dbgElem (fwArg s 0) = some e → e ∉ i.elems) → dbgOn s h = .error 2#8) := by
  unfold dbgOn
  refine ⟨fun i e hi he hm => ?_, fun hno => ?_⟩
  · simp only [hi, he]
    exact if_pos (List.contains_iff_mem.2 hm)
  · split
    · rename_i i e hi he
      exact if_neg fun hm => hno i e hi he (List.contains_iff_mem.1 hm)
    · rfl

/-- Only elements have changed, and RESULT is 0. -/
theorem fab_only {s t : State} {h : Hub} (ht : t = { breakHalf s 0#10 with fab := t.fab, hub := h }) : t.hub = h ∧ MemSame s t := by
  rw [ht]
  refine ⟨rfl, fun a => ?_, fun a => ?_, fun site a => ?_⟩
  · simp [memByte]
  · simp [hostByte]
  · simp [spadByte]

section

variable {i : Instr} {s : State} {act : State → FwOut} {h : Bool}

/-- A command that acts on one element. -/
theorem halts_element (hi : exec i s = fwRun s act) (ha : act (breakHalf s 0#10) = dbgOn (breakHalf s 0#10) h) (ho : FwOpen s) {r : Inst} {e : Nat}
    (hr : dbgInst s = some r) (he : dbgElem (fwArg s 0) = some e) (hm : e ∈ r.elems) :
    Completes i s fun t => Halted t e h ∧ t.hub = { s.hub with fwResult := 0#8, fwBusy := true } ∧ MemSame s t := by
  have hok := ha.trans ((dbgOn_does (breakHalf s 0#10) h).1 r e (by simpa using hr) (by simpa using he) hm)
  refine ⟨_, fwRun_takes hi ho hok, setHalt_halted (breakHalf s 0#10) e h, fab_only ?_⟩
  rw [setHalt_frame, breakHalf_hub]

/-- A command that names no element of the region. -/
theorem halts_none (hi : exec i s = fwRun s act) (ha : act (breakHalf s 0#10) = dbgOn (breakHalf s 0#10) h) (ho : FwOpen s)
    (hno : ∀ r e, dbgInst s = some r → dbgElem (fwArg s 0) = some e → e ∉ r.elems) : Completes i s fun t => FwHub s t s.hub 2#8 := by
  refine fwRun_refuses hi ho (ha.trans ((dbgOn_does (breakHalf s 0#10) h).2 ?_))
  simpa using hno

end

/-- DBGRESUME of one element acts as DBGHALT does. -/
theorem dbgresume_element {s : State} (h : bits (fwArg s 0) 0 12 ≠ 0xFFF#12) :
    ∃ act, exec .dbgresume s = fwRun s act ∧ act (breakHalf s 0#10) = dbgOn (breakHalf s 0#10) false :=
  ⟨_, exec_dbgresume s, if_neg (by simpa using h)⟩

/-- DBGRESUME of all, without a region or with more than the site named. -/
theorem dbgresume_refuses {s : State} (ho : FwOpen s) (hs : bits (fwArg s 0) 0 12 = 0xFFF#12)
    (h : dbgInst s = none ∨ bits (fwArg s 0) 12 52 ≠ 0#52) : Completes .dbgresume s fun t => FwHub s t s.hub 2#8 := by
  refine fwRun_refuses (exec_dbgresume s) ho ((if_pos (by simpa using hs)).trans (if_neg ?_))
  rcases h with h | h <;> simp [h]

/-- DBGRESUME of site 0xFFF resumes the region. -/
theorem dbgresume_all {s : State} {i : Inst} (ho : FwOpen s) (hr : dbgInst s = some i) (ha : fwArg s 0 = 0xFFF#64) :
    Completes .dbgresume s fun t =>
      (∀ e, e ∈ i.elems → e < 16384 → Halted t e false) ∧ t.hub = { s.hub with fwResult := 0#8, fwBusy := true } := by
  obtain ⟨hh, hf⟩ := resumeAll_some (breakHalf s 0#10) i
  have hok : (exec .dbgresume s) = _ := fwRun_takes (u := resumeAll (breakHalf s 0#10) (some i)) (exec_dbgresume s) ho (by
    simp [ha, hr, bits, fwAll])
  refine ⟨_, hok, fun e he _ => hh e he, ?_⟩
  show { (resumeAll (breakHalf s 0#10) (some i)).hub with fwResult := 0#8, fwBusy := true } = _
  rw [hf, breakHalf_hub]

/-- DBGDETACH without a region only detaches. -/
theorem dbgdetach_none {s : State} (ho : FwOpen s) (hr : dbgInst s = none) :
    Completes .dbgdetach s fun t => FwHub s t { s.hub with dbg := none } 0#8 := by
  refine fwRun_sets (f := fun h => { h with dbg := none }) (exec_dbgdetach s) ho ?_
  rw [dbgInst_breakHalf, hr, resumeAll_none]

/-- DBGDETACH resumes the region first. -/
theorem dbgdetach_some {s : State} {i : Inst} (ho : FwOpen s) (hr : dbgInst s = some i) :
    Completes .dbgdetach s fun t =>
      (∀ e, e ∈ i.elems → e < 16384 → Halted t e false) ∧ t.hub = { s.hub with dbg := none, fwResult := 0#8, fwBusy := true } := by
  obtain ⟨hh, hf⟩ := resumeAll_some (breakHalf s 0#10) i
  have hok : (exec .dbgdetach s) = _ := fwRun_takes (u := modHub (resumeAll (breakHalf s 0#10) (some i)) fun h => { h with dbg := none })
    (exec_dbgdetach s) ho (by rw [dbgInst_breakHalf, hr])
  refine ⟨_, hok, fun e he _ => hh e he, ?_⟩
  show { (resumeAll (breakHalf s 0#10) (some i)).hub with dbg := none, fwResult := 0#8, fwBusy := true } = _
  rw [hf, breakHalf_hub]

/-! ## Reports in host memory -/

/-- Only host memory changes. -/
theorem hostBytes_frame (bs : List Byte) (s : State) (a : Nat) :
    hostBytes s a bs = { s with store := { s.store with host := (hostBytes s a bs).store.host } } := by
  induction bs generalizing s a with
  | nil => rfl
  | cons b bs ih =>
    rw [hostBytes, ih]
    rfl

/-- The bytes below stay. -/
theorem hostByte_hostBytes_below (bs : List Byte) (s : State) {a x : Nat} (h : x < a) : hostByte (hostBytes s a bs) x = hostByte s x := by
  induction bs generalizing s a with
  | nil => rfl
  | cons b bs ih => rw [hostBytes, ih _ (by omega), hostByte_setHostByte_other _ _ (by omega)]

/-- Each byte stands at its place. -/
theorem hostByte_hostBytes (bs : List Byte) (s : State) (a k : Nat) (b : Byte) (h : bs[k]? = some b) : hostByte (hostBytes s a bs) (a + k) = b := by
  induction bs generalizing s a k with
  | nil => simp at h
  | cons c bs ih =>
    rw [hostBytes]
    cases k with
    | zero =>
      rw [hostByte_hostBytes_below _ _ (by omega), Nat.add_zero, hostByte_setHostByte]
      simpa using h
    | succ k =>
      have := ih (setHostByte s a c) (a + 1) k (by simpa using h)
      rwa [show a + 1 + k = a + (k + 1) by omega] at this

/-- A command that writes a report where the host has room for it, and gives RESULT 2 where not. -/
theorem report_does {i : Instr} {s : State} {act : State → FwOut} {out : List Byte} {a n : Nat} (hi : exec i s = fwRun s act)
    (ha : act (breakHalf s 0#10) = fwAll (decide (out.length ≤ n)) (hostBytes (breakHalf s 0#10) a out)) (ho : FwOpen s) :
    (out.length ≤ n → Completes i s fun t => (∀ k b, out[k]? = some b → hostByte t (a + k) = b) ∧
      t.hub = { s.hub with fwResult := 0#8, fwBusy := true } ∧ ∀ x, memByte t x = memByte s x) ∧
    (n < out.length → Completes i s fun t => FwHub s t s.hub 2#8) := by
  refine ⟨fun h => ⟨_, fwRun_takes hi ho (ha.trans (if_pos (by simpa using h))), ?_, ?_, fun x => ?_⟩, fun h =>
    fwRun_refuses hi ho (ha.trans (if_neg (by simpa using h)))⟩
  · exact fun k b hk => hostByte_hostBytes out (breakHalf s 0#10) a k b hk
  · show { (hostBytes (breakHalf s 0#10) a out).hub with fwResult := 0#8, fwBusy := true } = _
    rw [hostBytes_frame, breakHalf_hub]
  · show memByte (hostBytes (breakHalf s 0#10) a out) x = _
    unfold memByte
    rw [hostBytes_frame, breakHalf_store]

/-- LIFEREAD writes the current record and the public key. -/
theorem liferead_does {s : State} {r : LifeRec} (ho : FwOpen s) (hr : currentRec s.life = some r) : let out := r.bytes ++ publicKeyBytes
    (out.length ≤ fwNat s 1 → Completes .liferead s fun t => (∀ k b, out[k]? = some b → hostByte t (fwNat s 0 + k) = b) ∧
      t.hub = { s.hub with fwResult := 0#8, fwBusy := true } ∧ ∀ a, memByte t a = memByte s a) ∧
    (fwNat s 1 < out.length → Completes .liferead s fun t => FwHub s t s.hub 2#8) := by
  refine report_does (exec_liferead s) ?_ ho
  simp only [breakHalf_life, hr, fwNat_breakHalf]

/-- Without a record there is nothing to read. -/
theorem liferead_none {s : State} (ho : FwOpen s) (hr : currentRec s.life = none) : Completes .liferead s fun t => FwHub s t s.hub 2#8 := by
  refine fwRun_refuses (exec_liferead s) ho ?_
  simp only [breakHalf_life, hr]

theorem attestReport_breakHalf (s : State) (fn : BitVec 10) (nonce : BitVec 512) : attestReport (breakHalf s fn) nonce = attestReport s nonce := by
  simp only [attestReport, reportText, breakHalf_hub]

/-- The nonce that ATTEST takes. -/
def attestNonce (s : State) : BitVec 512 :=
  fwArg s 7 ++ fwArg s 6 ++ fwArg s 5 ++ fwArg s 4 ++ fwArg s 3 ++ fwArg s 2 ++ fwArg s 1 ++ fwArg s 0

/-- ATTEST writes a signed report over its nonce. -/
theorem attest_does {s : State} (ho : FwOpen s) : let out := attestReport s (attestNonce s)
    (out.length ≤ fwNat s 9 → Completes .attest s fun t => (∀ k b, out[k]? = some b → hostByte t (fwNat s 8 + k) = b) ∧
      t.hub = { s.hub with fwResult := 0#8, fwBusy := true } ∧ ∀ a, memByte t a = memByte s a) ∧
    (fwNat s 9 < out.length → Completes .attest s fun t => FwHub s t s.hub 2#8) := by
  refine report_does (exec_attest s) ?_ ho
  have hn : attestNonce (breakHalf s 0#10) = attestNonce s := by simp only [attestNonce, fwArg_breakHalf]
  show fwAll (decide ((attestReport (breakHalf s 0#10) (attestNonce (breakHalf s 0#10))).length ≤ fwNat (breakHalf s 0#10) 9))
    (hostBytes (breakHalf s 0#10) (fwNat (breakHalf s 0#10) 8) (attestReport (breakHalf s 0#10) (attestNonce (breakHalf s 0#10)))) = _
  rw [hn, attestReport_breakHalf, fwNat_breakHalf, fwNat_breakHalf]

/-! ## The whole -/

/-- Every code that no command has gives RESULT 1. -/
theorem fwcmdReservedCode_refuses {s : State} (ho : FwOpen s) (h : (s.opnd 0 16 : BitVec 16) = 0#16 ∨ 0x14#16 < (s.opnd 0 16 : BitVec 16)) :
    Completes .fwcmdReservedCode s fun t => FwHub s t s.hub 1#8 := by
  have hcode : ¬ (1 ≤ (s.opnd 0 16 : BitVec 16).toNat ∧ (s.opnd 0 16 : BitVec 16).toNat ≤ 0x14) := by
    rcases h with h | h
    · simp [h]
    · have : 0x14 < (s.opnd 0 16 : BitVec 16).toNat := h
      omega
  exact fwRun_refuses (act := fun _ => .error 1#8) (if_neg hcode) ho rfl

/-- Settles O54. Each command is a write to FWCMD with an action, which is taken or refused by its arguments; the effect of each action is
its own lemma, by the part of the machine that it sets. -/
theorem firmwareCommands : Obligations.FirmwareCommands := by
  refine ⟨fun i hi s => ?_, fun s ho => fwcmdReservedCode_refuses ho, watchdog_sets, atstimeout_sets, nodeid_sets, route_sets,
    slots_sets, rtimeout_sets, t2pool_sets, rebuild_sets, ctxread_sets, fun s ho => ctxset_sets ho, faultring_sets, pasid_sets,
    ovlres_sets, fun s ho h1 h2 h3 h4 h5 => ?_, fun s ho h => ?_, fun s ho => (dbgattach_does ho).1, fun s ho => (dbgattach_does ho).2,
    fun s ho hno => ⟨?_, fun hs => ?_⟩,
    fun s ho => dbgresume_refuses ho, fun s ho => dbgdetach_none ho, fun s i e ho hr he hm => ⟨?_, fun hs => ?_⟩,
    fun s i ho hr => ⟨dbgresume_all ho hr, dbgdetach_some ho hr⟩, fun s r ho hr => (liferead_does ho hr).1, fun s ho h => ?_, fun s ho => ?_⟩
  · obtain ⟨act, h⟩ := exec_fwCommands i hi s
    exact fwRun_discards h
  · refine ⟨_, (watchset_sets ho).1 ⟨h1, h2, h3, h4, h5⟩, rfl, fun d j hj => ?_⟩
    rw [getDie_map (s := s) rfl]
    split
    · rename_i e
      rw [e]
      exact vget_vset_self _ _ _ _ h1
    · exact vget_vset_other _ _ _ _ _ (Ne.symm ‹_›)
  · refine (watchset_sets ho).2 fun ⟨h1, h2, h3, h4, h5⟩ => ?_
    rcases h with h | h | h | h | ⟨h, h'⟩
    · omega
    · omega
    · omega
    · exact h h4
    · exact h5.elim (fun k => k h) h'
  · exact halts_none (exec_dbghalt s) rfl ho hno
  · obtain ⟨act, hi, ha⟩ := dbgresume_element hs
    exact halts_none hi ha ho hno
  · exact halts_element (exec_dbghalt s) rfl ho hr he hm
  · obtain ⟨act, hi, ha⟩ := dbgresume_element hs
    exact halts_element hi ha ho hr he hm
  · cases hr : currentRec s.life with
    | none => exact liferead_none ho hr
    | some r => exact (liferead_does ho hr).2 (h r hr)
  · obtain ⟨hfits, hlong⟩ := attest_does ho
    rcases Nat.lt_or_ge (fwNat s 9) (attestReport s (attestNonce s)).length with h | h
    · obtain ⟨t, ht, hp⟩ := hlong h
      exact ⟨t, ht, fun h' => absurd h (Nat.not_lt.2 h'), fun _ => hp⟩
    · obtain ⟨t, ht, hp⟩ := hfits h
      exact ⟨t, ht, fun _ => hp, fun h' => absurd h' (Nat.not_lt.2 h)⟩

end Sys2Proof.Machine
end

section
/-! SIGNAL, CMD and FORK (R66, R293, R294, R297): what SIGNAL makes of its task, what the command port takes, and the statement about
them. -/

namespace Sys2Proof.Claims

open Sys2Proof Sys2Proof.Machine

/-! ## SIGNAL (R297) -/

/-- A task after a SIGNAL of a control word on an output: the output carries the word, and EOS ends a logit kernel's row (R166, R422). -/
def signalled (k : Task) (o : Nat) (w : Word) : Task :=
  { k with
    fire := { k.fire with outs := vset k.fire.outs o { vget OutLatch.empty k.fire.outs o with sig := some w } }
    rowAt := if w = cEOS then none else k.rowAt
    rowOut := if w = cEOS ∧ !k.rowAborted then k.rowAt else k.rowOut
    rowAborted := k.rowAborted && decide (w ≠ cEOS)
    rowTaken := k.rowTaken && decide (w ≠ cEOS) }

/-- Only outputs and the marks of a row change. -/
theorem signalled_frame (k : Task) (o : Nat) (w : Word) :
    signalled k o w = { k with
      fire := { k.fire with outs := (signalled k o w).fire.outs }
      rowAt := (signalled k o w).rowAt
      rowOut := (signalled k o w).rowOut
      rowAborted := (signalled k o w).rowAborted
      rowTaken := (signalled k o w).rowTaken } := rfl

/-- A word other than EOS leaves the row as it is. -/
theorem signalled_row_other (k : Task) (o : Nat) {w : Word} (h : w ≠ cEOS) :
    (signalled k o w).rowAt = k.rowAt ∧ (signalled k o w).rowOut = k.rowOut ∧
      (signalled k o w).rowAborted = k.rowAborted ∧ (signalled k o w).rowTaken = k.rowTaken := by
  simp [signalled, h]

/-- EOS ends the row: it is on its way to the sampler, unless it has aborted. -/
theorem signalled_row_eos (k : Task) (o : Nat) :
    (signalled k o cEOS).rowAt = none ∧ (signalled k o cEOS).rowOut = (if k.rowAborted = true then k.rowOut else k.rowAt) ∧
      (signalled k o cEOS).rowAborted = false ∧ (signalled k o cEOS).rowTaken = false := by
  refine ⟨by simp [signalled], ?_, by simp [signalled], by simp [signalled]⟩
  cases h : k.rowAborted <;> simp [signalled, h]

/-- The named output, one of five, carries the word beside what it held, and every other output is as it was. -/
theorem signalled_outs (k : Task) {o : Nat} (w : Word) (ho : o < 5) (j : Nat) :
    vget OutLatch.empty (signalled k o w).fire.outs j =
      if j = o then { vget OutLatch.empty k.fire.outs j with sig := some w } else vget OutLatch.empty k.fire.outs j := by
  split
  · subst j
    exact vget_vset_self _ _ _ _ ho
  · exact vget_vset_other _ _ _ _ _ (Ne.symm ‹_›)

/-- A SIGNAL that its frame receiver accepts names one of the outputs vo0 to vo3 and so0 (R293). -/
theorem signal_out {st : Stage} (h : wf (Instr.signal st) = true) : 1 ≤ st.out.toNat ∧ st.out.toNat ≤ 5 := by
  simp only [wf, stageOk, opLimitsOk, Bool.and_eq_true, Bool.or_eq_true, decide_eq_true_eq] at h
  obtain ⟨-, h | ⟨⟨-, ⟨-, hlo⟩, hhi⟩, -⟩⟩ := h
  · exact absurd h (by decide)
  · exact ⟨hlo, hhi⟩

/-- SIGNAL with lane 0 active puts its word on the output that OUT names. -/
theorem exec_signal {st : Stage} {s : State} (h : bitAt (stageAct s st) 0 = true) :
    exec (.signal st) s = .next (setTask s st.site st.task
      (signalled (getTask s st.site st.task) (st.out.toNat - 1) (signalWord (ctlB s st).toNat (ctlA s st)))) :=
  if_pos h

/-! ## The command port (R294) -/

/-- CMD with lane 0 active appends its entry while the command port has room. -/
theorem exec_cmd {st : Stage} {s : State} (h : bitAt (stageAct s st) 0 = true) (hr : (getCe s st.site).cmdq.length < 4) :
    exec (.cmd st) s = .next (inject (pushCmd s st.site
      (.cmd st.task (bits (stageA s st) 0 128) (ctlC s st) (ccOf (ctlB s st)) (getTask s st.site st.task).hyp false))
      (ownerOf s st.site 0)) :=
  if_pos (by simp [ctlActive, cmdRoom, h, hr])

/-- FORK with lane 0 active appends its entry while the command port has room. -/
theorem exec_fork {st : Stage} {s : State} (h : bitAt (stageAct s st) 0 = true) (hr : (getCe s st.site).cmdq.length < 4) :
    exec (.fork st) s = .next (inject (pushCmd s st.site
      (.fork st.task (bits (ctlA s st) 0 16) (ccOf (ctlB s st)) (getTask s st.site st.task).hyp false))
      (ownerOf s st.site 0)) :=
  if_pos (by simp [ctlActive, cmdRoom, h, hr])

/-! ## The whole -/

/-- Settles O17. SIGNAL writes one task, whose fields `signalled` gives; CMD and FORK append to the command port. -/
theorem signalAndCommands : Obligations.SignalAndCommands := by
  refine ⟨fun st s hwf hact => ?_, fun st s _ hact hroom => exec_cmd hact hroom, fun st s _ hact hroom => exec_fork hact hroom⟩
  obtain ⟨hlo, hhi⟩ := signal_out hwf
  refine ⟨_, exec_signal hact, setTask_only _ _ _ _, ?_⟩
  rw [getTask_setTask_self]
  refine ⟨signalled_frame _ _ _, signalled_row_other _ _, fun hw => ?_, fun o _ => ?_⟩
  · rw [show signalWord (ctlB s st).toNat (ctlA s st) = cEOS from hw]
    exact signalled_row_eos _ _
  · have hiff : o = st.out.toNat - 1 ↔ o + 1 = st.out.toNat := by omega
    simp only [signalled_outs _ _ (show st.out.toNat - 1 < 5 by omega), hiff]
    rfl

end Sys2Proof.Claims
end

section
/-! What a port's step and its replies leave of a memory tile (R97, R312, R327, R391): its lines, and the channels and storage around it. -/

namespace Sys2Proof.Machine

open Sys2Proof Sys2Proof.Claims

/-- Storage that is the same reads the same. -/
theorem memSame_of_store {s t : State} (h : t.store = s.store) : MemSame s t := by
  refine ⟨fun a => ?_, fun a => ?_, fun x a => ?_⟩
  · simp only [memByte, h]
  · simp only [hostByte, h]
  · simp only [spadByte, h]

/-- Equal tables of tiles give equal tiles. -/
theorem getMt_of_mts {s t : State} (h : t.fab.mts = s.fab.mts) (site : Site) : getMt t site = getMt s site := by simp only [getMt, h]

/-- Equal tables of tiles give equal ports. -/
theorem getPort_of_mts {s t : State} (h : t.fab.mts = s.fab.mts) (loc : PortAt) : getPort t loc = getPort s loc := by
  simp only [getPort, getMt_of_mts h]

/-- The lines of a tile's stash. -/
def tileLines (s : State) (site : Site) : List Line := (getMt s site).lines

theorem tileLines_of_mts {s t : State} (h : t.fab.mts = s.fab.mts) (site : Site) : tileLines t site = tileLines s site := by
  simp only [tileLines, getMt_of_mts h]

/-! ## Replies and the end of a request leave the lines -/

@[simp] theorem tileLines_setPort (s : State) (loc : PortAt) (p : Port) : tileLines (setPort s loc p) loc.site = tileLines s loc.site := by
  simp [tileLines, setPort]

@[simp] theorem tileLines_putReply (s : State) (loc : PortAt) (e : ReplyEnt) : tileLines (putReply s loc e) loc.site = tileLines s loc.site := by
  unfold putReply
  split
  · exact tileLines_setPort ..
  · rfl

@[simp] theorem tileLines_replyLands (s : State) (loc : PortAt) (opc : BitVec 8) (d : PortDesc) (r : PReq) (toks : List Token) (hit : Bool) :
    tileLines (replyLands s loc opc d r toks hit) loc.site = tileLines s loc.site := by
  unfold replyLands
  split
  · exact tileLines_putReply ..
  · rfl

@[simp] theorem tileLines_replyRemote (s : State) (loc : PortAt) (opc : BitVec 8) (r : PReq) (home blocks bytes : Nat) (dat : List Token)
    (idx : List Nat) : tileLines (replyRemote s loc opc r home blocks bytes dat idx) loc.site = tileLines s loc.site :=
  tileLines_setPort ..

@[simp] theorem tileLines_freeEntry (s : State) (loc : PortAt) : tileLines (freeEntry s loc) loc.site = tileLines s loc.site :=
  tileLines_setPort ..

/-- A port's turn in the cycle is marked without a change to the lines (R77). -/
theorem tileLines_granted (s : State) (site : Site) (n : Nat) (p : BitVec 3) :
    tileLines (setMt s site { getMt s site with grantNext := n, grantPort := p }) site = tileLines s site := by
  simp [tileLines]

theorem tileLines_putReplies (ts : List Token) (s : State) (loc : PortAt) :
    tileLines (ts.foldl (fun s t => putReply s loc (ctlEntry s loc t)) s) loc.site = tileLines s loc.site := by
  induction ts generalizing s with
  | nil => rfl
  | cons t ts ih => rw [List.foldl_cons, ih, tileLines_putReply]

@[simp] theorem tileLines_progress (s : State) (i : Option Inst) (site : Site) : tileLines (progress s i) site = tileLines s site :=
  tileLines_of_mts (by rw [progress_fab]) site

/-- A request's end touches no line. -/
theorem tileLines_portDone (s : State) (loc : PortAt) (d : PortDesc) : tileLines (portDone s loc d) loc.site = tileLines s loc.site := by
  unfold portDone
  simp only [tileLines_progress, tileLines_putReplies, tileLines_granted, tileLines_setPort]
  split
  · rfl
  · exact tileLines_freeEntry ..

/-! ## A served request (R312, R317) -/

/-- A port that serves a request performs it, where it does not wait, and ends it. -/
theorem portRun_served {opc : BitVec 8} {loc : PortAt} {d : PortDesc} {s u w : State} {r : PReq} {perf : PReq → State → State × Bool}
    (h : Serves opc loc d s u r) (hp : perf r u = (w, true)) : portRun opc loc d perf s = .next (portDone w loc d) := by
  obtain ⟨hrun, hlow, hgather, hroom⟩ := h
  have howed : (owesReply u loc opc d && !portRoom u loc) = false := by
    cases ho : owesReply u loc opc d
    · rfl
    · simp [hroom ho]
  simp [portRun, hrun, hlow, hgather, howed, hp]

/-- An aligned, unrefuted request of no row, whose blocks all translate, is performed on its translations. -/
theorem portGlobal_performs {opc : BitVec 8} {loc : PortAt} {d : PortDesc} {n : Nat} {r : PReq} {s v : State} {ts : List Trans}
    (hact : r.act = 0#2) (href : r.refuted = false) (halign : r.va % (if d.wid then 64 else 4) = 0)
    (hx : portXlates s loc r (portNeedsW opc) r.va n = (v, .ok ts)) (k : State → List Trans → State × Bool) :
    portGlobal opc loc d n false r k s = k v ts := by
  cases ts <;> simp [portGlobal, hact, href, halign, hx]

end Sys2Proof.Machine
end

section
/-! STFL and STINV (R326): which lines they reach, and what becomes of them. -/

namespace Sys2Proof.Machine

open Sys2Proof Sys2Proof.Claims

/-! ## One line -/

/-- A line that has been written back whole. -/
def flushedLine (x : Line) : Line := { x with dirty := 0#64, descSet := x.descSet && homeIsPeer x.home }

theorem same_self (l : Line) : l.same l = true := by simp [Line.same]

/-- Lines of the same address and tag agree in both. -/
theorem same_tag_home {l x : Line} (h : l.same x = true) : l.tag = x.tag ∧ l.home = x.home := by
  simp only [Line.same, Bool.and_eq_true, decide_eq_true_eq] at h
  obtain ⟨⟨hhome, htag⟩, -⟩ := h
  exact ⟨htag, hhome⟩

theorem flushed_flushed (x : Line) : flushedLine (flushedLine x) = flushedLine x := by simp [flushedLine]

/-- A write-back changes no tile. -/
theorem mts_writeBack (s : State) (site : Site) (l : Line) (m : BitVec 64) : (writeBack s site l m).fab.mts = s.fab.mts := by
  unfold writeBack tierWrite
  split
  · rfl
  · split
    · rfl
    · rw [writeHome_frame]

/-- A write to a peer changes no tile. -/
theorem tileLines_remoteWrite (s : State) (who : Requester) (tn : BitVec 16) (h : Nat) (m : BitVec 64) (b : Block) (d : Option (BitVec 16))
    (p : Bool) (site : Site) : tileLines (remoteWrite s who tn h m b d p) site = tileLines s site := rfl

theorem tileLines_writeBack (s : State) (site : Site) (l : Line) (m : BitVec 64) : tileLines (writeBack s site l m) site = tileLines s site :=
  tileLines_of_mts (mts_writeBack ..) _

/-- What the flush of one untagged line does to those of its address: with `inv` they go, else they are clean. -/
def flushSame (inv : Bool) (l : Line) (xs : List Line) : List Line :=
  if inv then xs.filter fun x => !l.same x else mapWhere l.same flushedLine xs

/-- The flush of a tagged line does nothing. -/
theorem flushLine_tagged {l : Line} (h : l.tag ≠ 0#6) (loc : PortAt) (inv : Bool) (s : State) : flushLine loc inv l s = (s, 0, []) := if_pos h

/-- The flush of an untagged line, be it written back here or at a peer, leaves its address without a line, or with a clean one. -/
theorem flushLine_untagged {l : Line} (h : l.tag = 0#6) (loc : PortAt) (inv : Bool) (s : State) :
    tileLines (flushLine loc inv l s).1 loc.site = flushSame inv l (tileLines s loc.site) := by
  have hdrop (u : State) : tileLines (dropLine u loc.site l) loc.site = (tileLines u loc.site).filter fun x => !l.same x := by
    simp [tileLines, dropLine]
  have hclean (u : State) : tileLines (setMt u loc.site { getMt u loc.site with lines := mapWhere l.same flushedLine (getMt u loc.site).lines })
      loc.site = mapWhere l.same flushedLine (tileLines u loc.site) := by
    simp [tileLines]
  unfold flushLine
  rw [if_neg (fun k => k h)]
  cases inv <;> dsimp only <;> split
  · exact (tileLines_remoteWrite ..).trans (hclean s)
  · exact (hclean _).trans (congrArg _ (tileLines_writeBack ..))
  · exact (tileLines_remoteWrite ..).trans (hdrop s)
  · exact (hdrop _).trans (congrArg _ (tileLines_writeBack ..))

/-! ## The lines of a request -/

/-- Some untagged line of a list stands for the address and tag of a line. -/
def covers (ls : List Line) (x : Line) : Bool := ls.any fun l => decide (l.tag = 0#6) && l.same x

/-- What a flush of some lines leaves: without the covered lines, or with them clean. -/
def flushCovered (inv : Bool) (ls xs : List Line) : List Line :=
  if inv then xs.filter fun x => !covers ls x else mapWhere (covers ls) flushedLine xs

theorem flushCovered_nil (inv : Bool) (xs : List Line) : flushCovered inv [] xs = xs := by
  cases inv <;> simp [flushCovered, covers, mapWhere]

theorem covers_cons_tagged {l : Line} (h : l.tag ≠ 0#6) (ls : List Line) : covers (l :: ls) = covers ls := by
  funext x
  simp [covers, h]

theorem covers_cons_untagged {l : Line} (h : l.tag = 0#6) (ls : List Line) (x : Line) : covers (l :: ls) x = (l.same x || covers ls x) := by
  simp [covers, h]

/-- Lines flushed one after the other are flushed together. -/
theorem flushCovered_cons {l : Line} (h : l.tag = 0#6) (inv : Bool) (ls xs : List Line) :
    flushCovered inv ls (flushSame inv l xs) = flushCovered inv (l :: ls) xs := by
  cases inv with
  | true =>
    simp only [flushCovered, flushSame, if_true, List.filter_filter, covers_cons_untagged h, Bool.not_or, Bool.and_comm]
  | false =>
    simp only [flushCovered, flushSame, Bool.false_eq_true, if_false, mapWhere, List.map_map]
    refine List.map_congr_left fun x _ => ?_
    have hk : covers ls (flushedLine x) = covers ls x := rfl
    cases hs : l.same x <;> cases hc : covers ls x <;> simp [covers_cons_untagged h, hs, hc, hk, flushed_flushed]

/-- One flush after the other (R366). -/
def flushStep (loc : PortAt) (inv : Bool) (x : State × Nat × List Nat) (l : Line) : State × Nat × List Nat :=
  let y := flushLine loc inv l x.1
  (y.1, x.2.1 + y.2.1, x.2.2 ++ y.2.2)

theorem tileLines_flushes (loc : PortAt) (inv : Bool) (ls : List Line) (x : State × Nat × List Nat) :
    tileLines (ls.foldl (flushStep loc inv) x).1 loc.site = flushCovered inv ls (tileLines x.1 loc.site) := by
  induction ls generalizing x with
  | nil => exact (flushCovered_nil ..).symm
  | cons l ls ih =>
    rw [List.foldl_cons, ih]
    by_cases h : l.tag = 0#6
    · rw [← flushCovered_cons h, ← flushLine_untagged h]
      rfl
    · simp only [flushStep, flushLine_tagged h, flushCovered, covers_cons_tagged h]

theorem mem_lineInsert (l x : Line) (ls : List Line) : x ∈ lineInsert l ls ↔ x = l ∨ x ∈ ls := by
  induction ls with
  | nil => simp [lineInsert]
  | cons y ls ih =>
    unfold lineInsert
    split
    · simp
    · simp only [List.mem_cons, ih]
      exact or_left_comm

/-- Sorting loses no line and makes none. -/
theorem mem_lineSort (x : Line) (ls : List Line) : x ∈ lineSort ls ↔ x ∈ ls := by
  induction ls with
  | nil => rfl
  | cons l ls ih => simp only [lineSort, List.foldr_cons, mem_lineInsert, List.mem_cons] at ih ⊢; rw [ih]

theorem covers_lineSort (ls : List Line) : covers (lineSort ls) = covers ls := by
  funext x
  rw [Bool.eq_iff_iff]
  simp only [covers, List.any_eq_true, mem_lineSort]

/-- STFL or STINV of some lines: the covered lines of the tile are clean, or gone. -/
theorem perfFlush_does (opc : BitVec 8) (loc : PortAt) (d : PortDesc) (r : PReq) (ls : List Line) (s : State) :
    ∃ w, perfFlush opc loc d r ls s = (w, true) ∧
      tileLines w loc.site = flushCovered (decide (opc = 0x18#8)) ls (tileLines s loc.site) := by
  have hf : tileLines ((lineSort ls).foldl (flushStep loc (decide (opc = 0x18#8))) (s, 0, [])).1 loc.site =
      flushCovered (decide (opc = 0x18#8)) ls (tileLines s loc.site) := by
    rw [tileLines_flushes, flushCovered, covers_lineSort, flushCovered]
  unfold perfFlush
  dsimp only
  split
  · exact ⟨_, rfl, (tileLines_replyLands ..).trans hf⟩
  · exact ⟨_, rfl, (tileLines_replyRemote ..).trans hf⟩

/-- The lines of a tile cover its untagged ones. -/
theorem covers_tile {ls : List Line} {x : Line} (hx : x ∈ ls) : covers ls x = decide (x.tag = 0#6) := by
  rw [Bool.eq_iff_iff, covers, List.any_eq_true, decide_eq_true_iff]
  constructor
  · rintro ⟨l, -, hl⟩
    obtain ⟨htag, hsame⟩ := Bool.and_eq_true_iff.1 hl
    exact (same_tag_home hsame).1 ▸ of_decide_eq_true htag
  · exact fun h => ⟨x, hx, by simp [h, same_self]⟩

/-- The lines of some blocks cover the untagged ones of these blocks. -/
theorem covers_linesOf {s : State} {loc : PortAt} {homes : List Nat} {x : Line} (hx : x ∈ tileLines s loc.site) :
    covers (linesOf s loc homes) x = (decide (x.tag = 0#6) && homes.contains x.home) := by
  rw [Bool.eq_iff_iff, covers, List.any_eq_true]
  constructor
  · rintro ⟨l, hl, hc⟩
    obtain ⟨-, hkeep⟩ := List.mem_filter.1 hl
    obtain ⟨htag, hhome⟩ := same_tag_home (Bool.and_eq_true_iff.1 hc).2
    rwa [htag, hhome] at hkeep
  · intro h
    exact ⟨x, List.mem_filter.2 ⟨hx, h⟩, by simp [(Bool.and_eq_true_iff.1 h).1, same_self]⟩

/-- A line that STFL leaves stood there before, and is clean where it was covered. -/
theorem mem_flushCovered {ls xs : List Line} {x : Line} (hx : x ∈ flushCovered false ls xs) :
    ∃ y, y ∈ xs ∧ y.tag = x.tag ∧ y.home = x.home ∧ (covers ls y = true → x.dirty = 0#64) := by
  obtain ⟨y, hy, rfl⟩ := List.mem_map.1 (show x ∈ mapWhere (covers ls) flushedLine xs from hx)
  by_cases h : covers ls y = true
  · rw [if_pos h]
    exact ⟨y, hy, rfl, rfl, fun _ => rfl⟩
  · rw [if_neg h]
    exact ⟨y, hy, rfl, rfl, fun hc => absurd hc h⟩

/-- What the flush of a line does not change is the same in all lines that STFL leaves. -/
theorem map_flushCovered {α : Type} (f : Line → α) (hf : ∀ x, f (flushedLine x) = f x) (ls xs : List Line) :
    (flushCovered false ls xs).map f = xs.map f := by
  show (mapWhere (covers ls) flushedLine xs).map f = xs.map f
  rw [mapWhere, List.map_map]
  refine List.map_congr_left fun x _ => ?_
  by_cases h : covers ls x = true <;> simp [h, hf]

end Sys2Proof.Machine
end

section
/-! The statement about STFL, STINV, PREF, replies and control tokens (R61, R97, R314, R326, R327). -/

namespace Sys2Proof.Machine

open Sys2Proof Sys2Proof.Claims

/-! ## STFL, STINV and PREF (R326) -/

/-- A served STFL or STINV whose operation flushes some lines of its tile ends with them clean, or gone. -/
theorem completes_flush {opc : BitVec 8} {i : Instr} {loc : PortAt} {d : PortDesc} {s u v : State} {r : PReq} {ls : List Line}
    {perf : PReq → State → State × Bool} (hs : Serves opc loc d s u r) (hi : exec i s = portRun opc loc d perf s)
    (hp : perf r u = perfFlush opc loc d r ls v) :
    Completes i s fun t => tileLines t loc.site = flushCovered (decide (opc = 0x18#8)) ls (tileLines v loc.site) := by
  obtain ⟨w, hw, hl⟩ := perfFlush_does opc loc d r ls v
  exact ⟨_, hi.trans (portRun_served hs (hp.trans hw)), (tileLines_portDone ..).trans hl⟩

/-- A condition on a next state follows from a stronger one. -/
theorem completes_mono {i : Instr} {s : State} {P Q : State → Prop} (h : Completes i s P) (hPQ : ∀ t, P t → Q t) : Completes i s Q := by
  obtain ⟨t, ht, hP⟩ := h
  exact ⟨t, ht, hPQ t hP⟩

section

variable {loc : PortAt} {d : PortDesc} {s u : State} {r : PReq}

/-- An operation with ALL flushes the lines of its tile (R326). -/
theorem perfFlushAll_performs (hact : r.act = 0#2) (href : r.refuted = false) (opc : BitVec 8) :
    perfFlushAll opc loc d r u = perfFlush opc loc d r (tileLines u loc.site) u := by
  simp [perfFlushAll, hact, href, tileLines]

/-- STFL with ALL. -/
theorem stfl_all (hall : d.all = true) (hact : r.act = 0#2) (href : r.refuted = false) (hs : Serves 0x17#8 loc d s u r) :
    Completes (.stfl loc d) s fun t => tileLines t loc.site = flushCovered false (tileLines u loc.site) (tileLines u loc.site) :=
  completes_flush hs rfl ((if_pos hall).trans (perfFlushAll_performs hact href _))

/-- STINV with ALL. -/
theorem stinv_all (hall : d.all = true) (hact : r.act = 0#2) (href : r.refuted = false) (hs : Serves 0x18#8 loc d s u r) :
    Completes (.stinv loc d) s fun t => tileLines t loc.site = flushCovered true (tileLines u loc.site) (tileLines u loc.site) :=
  completes_flush hs rfl ((if_pos hall).trans (perfFlushAll_performs hact href _))

variable {v : State} {ts : List Trans}

/-- PREF over blocks of this package installs them all at once. -/
theorem perfPref_near (hnear : ∀ h, h ∈ ts.map homeKey → homeIsPeer h = false) :
    perfPref loc d r v ts =
      let x := prefRow loc d r r.va (ts.map homeKey) v
      (replyLands x.1 loc 0x16#8 d r [scalarTok (BitVec.ofNat 32 x.2) r.hyp r.refuted false]
        ((ts.map homeKey).all fun h => !prefAbsent v loc r h), true) := by
  have htake : (ts.map homeKey).takeWhile (fun h => !homeIsPeer h) = ts.map homeKey := by
    rw [← List.append_nil (ts.map homeKey), List.takeWhile_append_of_pos fun h hh => by rw [hnear h hh, Bool.not_false], List.takeWhile_nil]
  simp only [perfPref, htake, List.drop_length, List.takeWhile_nil, List.isEmpty_nil, List.length_nil, Nat.add_zero, prefRow, if_true]

variable (hact : r.act = 0#2) (href : r.refuted = false) (halign : r.va % (if d.wid then 64 else 4) = 0)
  (hx : portXlates u loc r false r.va d.rows = (v, .ok ts))

include hact href halign hx

/-- STFL of the blocks named. -/
theorem stfl_blocks (hall : d.all = false) (hs : Serves 0x17#8 loc d s u r) :
    Completes (.stfl loc d) s fun t =>
      tileLines t loc.site = flushCovered false (linesOf v loc (ts.map homeKey)) (tileLines v loc.site) :=
  completes_flush hs rfl ((if_neg (by simp [hall])).trans (portGlobal_performs hact href halign hx _))

/-- STINV of the blocks named. -/
theorem stinv_blocks (hall : d.all = false) (hs : Serves 0x18#8 loc d s u r) :
    Completes (.stinv loc d) s fun t =>
      tileLines t loc.site = flushCovered true (linesOf v loc (ts.map homeKey)) (tileLines v loc.site) :=
  completes_flush hs rfl ((if_neg (by simp [hall])).trans (portGlobal_performs hact href halign hx _))

/-- PREF under a hint that allocates. -/
theorem exec_pref_near (hs : Serves 0x16#8 loc d s u r) (hhint : hintAlloc d.hint = true)
    (hnear : ∀ h, h ∈ ts.map homeKey → homeIsPeer h = false) :
    let x := prefRow loc d r r.va (ts.map homeKey) v
    exec (.pref loc d) s = .next (portDone (replyLands x.1 loc 0x16#8 d r [scalarTok (BitVec.ofNat 32 x.2) r.hyp r.refuted false]
      ((ts.map homeKey).all fun h => !prefAbsent v loc r h)) loc d) :=
  portRun_served hs ((if_pos hhint).trans ((portGlobal_performs hact href halign hx _).trans (perfPref_near hnear)))

end

/-- PREF under a hint that does not allocate (R326). -/
theorem exec_pref_none {loc : PortAt} {d : PortDesc} {s u : State} {r : PReq} (hs : Serves 0x16#8 loc d s u r) (hhint : hintAlloc d.hint = false) :
    exec (.pref loc d) s = .next (portDone (ackNow u loc 0x16#8 d r 0) loc d) :=
  portRun_served hs (if_neg (by simp [hhint]))

/-! ## Replies (R79, R97) -/

/-- An output changes no tile. -/
theorem mts_sendOut (s : State) (site : Site) (i : Option Inst) (lp vc : Nat) (t : Token) : (sendOut s site i lp vc t).fab.mts = s.fab.mts := by
  rw [sendOut_frame]

/-- A port's state says nothing of who owns an element. -/
theorem ownerOf_setPort (s : State) (loc : PortAt) (p : Port) (site : Site) (sub : Nat) :
    ownerOf (setPort s loc p) site sub = ownerOf s site sub := rfl

/-- The first token of the oldest reply that is owed leaves, once that reply has landed and its channel can take one (R97). -/
theorem exec_replySend {loc : PortAt} {s : State} {e : ReplyEnt} {tok : Token} {more : List Token}
    (hfind : (getPort s loc).replies.find? (fun e => !e.silent s loc) = some e) (htoks : e.toks = tok :: more) (hland : e.landed = true)
    (hafter : e.after = []) (hrun : regionRuns (ownerOf s loc.site 0) = true) (hhalt : (getMt s loc.site).halted = false)
    (hdie : dieStops s loc.site = false) (hready : sendReady s loc.site (portReply s loc).1 (portReply s loc).2 = true) :
    exec (.replySend loc.site loc.port) s =
      .next (sendOut (setPort s loc { getPort s loc with replies := dropReplyTok s loc (getPort s loc).replies }) loc.site
        (ownerOf s loc.site 0) (portReply s loc).1 (portReply s loc).2 tok) := by
  show execReplySend loc.site loc.port s = _
  simp [execReplySend, hfind, htoks, hland, hafter, hrun, hhalt, hdie, hready, ownerOf_setPort]

/-- REPLY_SEND. -/
theorem completes_replySend {loc : PortAt} {s : State} {tok : Token} {p : Port} {i : Option Inst} {lp vc : Nat}
    (ht : exec (.replySend loc.site loc.port) s = .next (sendOut (setPort s loc p) loc.site i lp vc tok)) :
    Completes (.replySend loc.site loc.port) s fun t =>
      (getBuf t (inKey loc.site lp vc)).q = (getBuf s (inKey loc.site lp vc)).q ++ [(tok, localAt s loc.site lp + 1)] ∧
      getPort t loc = p ∧ MemSame s t := by
  refine ⟨_, ht, ?_, ?_, memSame_of_store (by rw [sendOut_frame]; rfl)⟩
  · rw [getBuf_sendOut, if_pos rfl]
    rfl
  · rw [getPort_of_mts (mts_sendOut ..), getPort_setPort_self]

/-- The first entry that meets a test, behind entries that do not, is changed. -/
theorem mapFirst_append {α : Type} {c : α → Bool} (f : α → α) {before : List α} {e : α} (behind : List α) (hb : ∀ x, x ∈ before → c x = false)
    (he : c e = true) : mapFirst c f (before ++ e :: behind) = before ++ f e :: behind := by
  induction before with
  | nil => exact if_pos he
  | cons x xs ih =>
    have hx : c x = false := hb x List.mem_cons_self
    simp [mapFirst, hx, ih fun y hy => hb y (List.mem_cons_of_mem _ hy)]

/-- MEMORY_REPLY lands the oldest access that awaits memory (R79). -/
theorem exec_memoryReply {loc : PortAt} {s : State} {before : List ReplyEnt} {e : ReplyEnt} {behind : List ReplyEnt}
    (hq : (getPort s loc).replies = before ++ e :: behind) (hb : ∀ x, x ∈ before → x.landed = true ∨ x.remote ≠ []) (hland : e.landed = false)
    (hrem : e.remote = []) :
    exec (.memoryReply loc.site loc.port) s =
      .next (setPort s loc { getPort s loc with replies := before ++ { e with landed := true } :: behind }) := by
  have hm : mapFirst (fun e : ReplyEnt => !e.landed && e.remote.isEmpty) (fun e => { e with landed := true }) (getPort s loc).replies =
      before ++ { e with landed := true } :: behind := by
    rw [hq]
    refine mapFirst_append _ _ (fun x hx => ?_) (by simp [hland, hrem])
    rcases hb x hx with h | h <;> simp [h]
  show Host.Outcome.next (setPort s loc { getPort s loc with replies := mapFirst _ _ (getPort s loc).replies }) = _
  rw [hm]

/-! ## Control tokens (R327) -/

theorem markPsn_fab (s : State) (n : Option Node) (t : Option Token) : (markPsn s n t).fab = s.fab := by
  cases t with
  | none => rfl
  | some t => cases n <;> cases h : t.psn <;> simp [markPsn, h, setErr, modNode]

theorem markPsn_store (s : State) (n : Option Node) (t : Option Token) : (markPsn s n t).store = s.store := by
  cases t with
  | none => rfl
  | some t => cases n <;> cases h : t.psn <;> simp [markPsn, h, setErr, modNode]

/-- A dequeue that may mark its node's record changes one channel, and nothing else of fabric and storage. -/
theorem popBuf_markPsn (s : State) (n : Option Node) (t : Option Token) (k : Nat) :
    (getBuf (popBuf (markPsn s n t) k) k).q = (getBuf s k).q.tail ∧ (popBuf (markPsn s n t) k).store = s.store ∧
      (popBuf (markPsn s n t) k).fab.frames = s.fab.frames ∧ (popBuf (markPsn s n t) k).fab.mts = s.fab.mts := by
  refine ⟨?_, markPsn_store .., (congrArg Fabric.frames (markPsn_fab s n t) :),
    (congrArg Fabric.mts (markPsn_fab s n t) :)⟩
  rw [getBuf_popBuf, if_pos rfl]
  simp only [Buf.pop, getBuf, markPsn_fab]

/-- A dequeue at a port takes its input's head, and owes a FREED notice under FRD; frames and storage are as they were. -/
theorem popPort_does (s : State) (loc : PortAt) :
    (getBuf (popPort s loc) (endKey loc.site loc.port.toNat)).q = (getBuf s (endKey loc.site loc.port.toNat)).q.tail ∧
    (popPort s loc).store = s.store ∧ (popPort s loc).fab.frames = s.fab.frames ∧
    ∃ ns, getPort (popPort s loc) loc = { getPort s loc with notices := ns } := by
  obtain ⟨hbuf, hstore, hframes, hmts⟩ := popBuf_markPsn s (nodeOf s loc.site 0) (headAt s (endKey loc.site loc.port.toNat))
    (endKey loc.site loc.port.toNat)
  unfold popPort
  dsimp only
  split
  · refine ⟨hbuf, hstore, hframes, ?_⟩
    rw [getPort_setPort_self, getPort_of_mts hmts]
    exact ⟨_, rfl⟩
  · exact ⟨hbuf, hstore, hframes, _, getPort_of_mts hmts loc⟩

/-- A control token passed on leaves storage and every channel alone. -/
theorem passCtl_frame (s : State) (loc : PortAt) (t : Token) :
    (passCtl s loc t).store = s.store ∧ ∀ k, getBuf (passCtl s loc t) k = getBuf s k := by
  unfold passCtl putReply
  split
  · exact ⟨rfl, fun _ => rfl⟩
  · split
    · split <;> exact ⟨rfl, fun _ => rfl⟩
    · exact ⟨rfl, fun _ => rfl⟩

/-- A port without a reply channel discards a control token. -/
theorem passCtl_unused {s : State} {loc : PortAt} (h : portRused s loc = false) (t : Token) : passCtl s loc t = s := by
  simp [passCtl, h]

/-- With no token of a request taken, a control token stands behind the replies owed. -/
theorem passCtl_behind {s : State} {loc : PortAt} (h : portRused s loc = true) (hpart : (getPort s loc).part = []) (t : Token) :
    (getPort (passCtl s loc t) loc).replies = (getPort s loc).replies ++ [ctlEntry s loc t] := by
  simp [passCtl, putReply, h, hpart]

/-- Behind the tokens of a request at hand, a control token waits for that request. -/
theorem passCtl_held {s : State} {loc : PortAt} (h : portRused s loc = true) (hpart : (getPort s loc).part ≠ []) (t : Token) :
    (getPort (passCtl s loc t) loc).held = (getPort s loc).held ++ [t] := by
  simp [passCtl, h, hpart]

/-- PORT_CONTROL_TOKEN takes a control token at the head of the port's input (R327). -/
theorem exec_portControlToken {loc : PortAt} {s : State} {tok : Token} (hrun : portMayRun s loc = true)
    (hhead : headToTake s (endKey loc.site loc.port.toNat) = some tok) (hctrl : tok.ctrl = true) (hmark : tok.isMarkOrSwitch = false) :
    exec (.portControlToken loc.site loc.port) s = .next (passCtl (popPort s loc) loc tok) := by
  show execPortControlToken loc.site loc.port s = _
  simp [execPortControlToken, hrun, hhead, hctrl, hmark]

/-- PORT_CONTROL_TOKEN, by the reply channel and the request at hand. -/
theorem completes_portControlToken {loc : PortAt} {s : State} {tok : Token} (hrun : portMayRun s loc = true)
    (hhead : headToTake s (endKey loc.site loc.port.toNat) = some tok) (hctrl : tok.ctrl = true) (hmark : tok.isMarkOrSwitch = false) :
    Completes (.portControlToken loc.site loc.port) s fun t =>
      (getBuf t (endKey loc.site loc.port.toNat)).q = (getBuf s (endKey loc.site loc.port.toNat)).q.tail ∧ MemSame s t ∧
      (portRused s loc = false → (getPort t loc).replies = (getPort s loc).replies) ∧
      (portRused s loc = true → (getPort s loc).part = [] →
        ∃ e, (getPort t loc).replies = (getPort s loc).replies ++ [e] ∧ e.toks = [tok] ∧ e.landed = true) ∧
      (portRused s loc = true → (getPort s loc).part ≠ [] → (getPort t loc).held = (getPort s loc).held ++ [tok]) := by
  obtain ⟨hbuf, hstore, hframes, ns, hport⟩ := popPort_does s loc
  obtain ⟨hstore', hbuf'⟩ := passCtl_frame (popPort s loc) loc tok
  have hused : portRused (popPort s loc) loc = portRused s loc := by simp only [portRused, portBinding, frame, hframes]
  have hreplies : (getPort (popPort s loc) loc).replies = (getPort s loc).replies := by rw [hport]
  have hpart : (getPort (popPort s loc) loc).part = (getPort s loc).part := by rw [hport]
  have hheld : (getPort (popPort s loc) loc).held = (getPort s loc).held := by rw [hport]
  refine ⟨_, exec_portControlToken hrun hhead hctrl hmark, (congrArg Buf.q (hbuf' _)).trans hbuf, memSame_of_store (hstore'.trans hstore),
    fun h => ?_, fun h hp => ⟨_, (passCtl_behind (hused.trans h) (hpart.trans hp) tok).trans (by rw [hreplies]), rfl, rfl⟩, fun h hp => ?_⟩
  · rw [passCtl_unused (hused.trans h), hreplies]
  · rw [passCtl_held (hused.trans h) (hpart ▸ hp), hheld]

/-! ## The whole -/

/-- Settles O35. STFL and STINV are flushes of the lines that the request covers; every other clause is one step of its port. -/
theorem flushAndReplies : Obligations.FlushAndReplies := by
  refine ⟨fun loc d s u r hall hact href => ⟨fun hs => ?_, fun hs => ?_⟩,
    fun loc d s u v r ts hall hact href halign hx => ⟨fun hs => ?_, fun hs => ?_, exec_pref_near hact href halign hx⟩,
    fun loc d s u r => exec_pref_none,
    fun loc s e tok more hfind htoks hland hafter hrun hhalt hdie hready =>
      completes_replySend (exec_replySend hfind htoks hland hafter hrun hhalt hdie hready),
    fun loc s tok => completes_portControlToken, fun loc s before e behind => exec_memoryReply⟩
  · refine completes_mono (stfl_all hall hact href hs) fun t ht => ⟨fun l (hl : l ∈ tileLines t loc.site) htag => ?_, ?_⟩
    · obtain ⟨y, hy, htag', -, hclean⟩ := mem_flushCovered (ht ▸ hl)
      exact hclean ((covers_tile hy).trans (decide_eq_true (htag'.trans htag)))
    · exact (congrArg _ ht).trans (map_flushCovered _ (fun _ => rfl) _ _)
  · refine completes_mono (stinv_all hall hact href hs) fun t ht => ht.trans (List.filter_congr fun x hx => ?_)
    rw [covers_tile hx, decide_not]
  · refine completes_mono (stfl_blocks hact href halign hx hall hs) fun t ht l (hl : l ∈ tileLines t loc.site) htag hhome => ?_
    obtain ⟨y, hy, htag', hhome', hclean⟩ := mem_flushCovered (ht ▸ hl)
    refine hclean ((covers_linesOf hy).trans ?_)
    simp only [htag', htag, hhome', decide_true, Bool.true_and]
    exact List.contains_iff_mem.2 hhome
  · refine completes_mono (stinv_blocks hact href halign hx hall hs) fun t ht => ht.trans (List.filter_congr fun x hx => ?_)
    rw [covers_linesOf hx]

end Sys2Proof.Machine
end

section
/-! What the storage operations of a region change (R78, R79, R102, R105, R111): stashes, storage, overlays and requests to peers, and
which regions still have unreleased versions afterwards. -/

namespace Sys2Proof.Machine

open Sys2Proof

/-- Nothing but the stashes, storage, the overlays and caches under hypotheses, and the requests to peers has changed: every
hypothesis has its parent. -/
def MemoryOnly (s t : State) : Prop :=
  t = { s with fab := { s.fab with mts := t.fab.mts }, store := t.store, hyps := { t.hyps with parent := s.hyps.parent }, links := t.links }

theorem MemoryOnly.refl (s : State) : MemoryOnly s s := rfl

theorem MemoryOnly.trans {s t u : State} (h : MemoryOnly s t) (k : MemoryOnly t u) : MemoryOnly s u := by
  unfold MemoryOnly at *
  rw [k, h]

theorem MemoryOnly.ite {s t u : State} {c : Prop} [Decidable c] (ht : MemoryOnly s t) (hu : MemoryOnly s u) :
    MemoryOnly s (if c then t else u) := by
  split <;> assumption

theorem MemoryOnly.foldl {α : Type} {f : State → α → State} (h : ∀ s x, MemoryOnly s (f s x)) (l : List α) (s : State) :
    MemoryOnly s (l.foldl f s) := by
  induction l generalizing s with
  | nil => rfl
  | cons x l ih => exact (h s x).trans (ih _)

theorem MemoryOnly.fab {s t : State} (h : MemoryOnly s t) : t.fab = { s.fab with mts := t.fab.mts } := by
  unfold MemoryOnly at h
  rw [h]

theorem MemoryOnly.dist {s t : State} (h : MemoryOnly s t) : t.dist = s.dist := by
  unfold MemoryOnly at h
  rw [h]

theorem MemoryOnly.parent {s t : State} (h : MemoryOnly s t) : t.hyps.parent = s.hyps.parent := by
  unfold MemoryOnly at h
  rw [h]

theorem MemoryOnly.ces {s t : State} (h : MemoryOnly s t) : t.fab.ces = s.fab.ces := by rw [h.fab]

/-- Storage alone has changed, and every unreleased version that is left is one of a region that had one before. -/
def Settling (s t : State) : Prop := MemoryOnly s t ∧ ∀ x, x ∈ t.store.pend → ∃ y, y ∈ s.store.pend ∧ y.inst = x.inst

theorem Settling.of_pend {s t : State} (h : MemoryOnly s t) (hp : t.store.pend = s.store.pend) : Settling s t :=
  ⟨h, fun x hx => ⟨x, hp ▸ hx, rfl⟩⟩

theorem Settling.refl (s : State) : Settling s s := .of_pend rfl rfl

theorem Settling.trans {s t u : State} (h : Settling s t) (k : Settling t u) : Settling s u := by
  refine ⟨h.1.trans k.1, fun x hx => ?_⟩
  obtain ⟨y, hy, hyx⟩ := k.2 x hx
  obtain ⟨z, hz, hzy⟩ := h.2 y hy
  exact ⟨z, hz, hzy.trans hyx⟩

theorem Settling.ite {s t u : State} {c : Prop} [Decidable c] (ht : Settling s t) (hu : Settling s u) : Settling s (if c then t else u) := by
  split <;> assumption

theorem Settling.foldl {α : Type} {f : State → α → State} (h : ∀ s x, Settling s (f s x)) (l : List α) (s : State) :
    Settling s (l.foldl f s) := by
  induction l generalizing s with
  | nil => exact .refl s
  | cons x l ih => exact (h s x).trans (ih _)

/-! ## Writes to a tier -/

theorem writeHome_settling (s : State) (h : Nat) (m : BitVec 64) (b : Block) (d : Option (BitVec 16)) (p : Bool) :
    Settling s (writeHome s h m b d p) := by
  rw [writeHome_frame]
  exact .of_pend rfl rfl

theorem remoteWrite_settling (s : State) (who : Requester) (tn : BitVec 16) (h : Nat) (m : BitVec 64) (b : Block) (d : Option (BitVec 16))
    (p : Bool) : Settling s (remoteWrite s who tn h m b d p) := .of_pend rfl rfl

theorem tierWrite_settling (s : State) (who : Requester) (tn : BitVec 16) (h : Nat) (m : BitVec 64) (b : Block) (d : Option (BitVec 16))
    (p : Bool) : Settling s (tierWrite s who tn h m b d p) :=
  .ite (.refl _) (.ite (remoteWrite_settling ..) (writeHome_settling ..))

theorem writeDesc_settling (s : State) (h : Nat) (d : Option (BitVec 16)) : Settling s (writeDesc s h d) := by
  cases d with
  | none => exact .refl _
  | some d => exact .ite (.of_pend rfl rfl) (.refl _)

theorem writeBack_settling (s : State) (site : Site) (l : Line) (m : BitVec 64) : Settling s (writeBack s site l m) :=
  tierWrite_settling ..

/-! ## Overlays, timestamps and unreleased versions -/

theorem setSegs_settling (s : State) (ctx : BitVec 8) (n : Nat) : Settling s (setSegs s ctx n) := .of_pend rfl rfl

theorem takeSegs_settling (s : State) (ctx : BitVec 8) : Settling s (takeSegs s ctx) := by
  unfold takeSegs
  generalize ovlSegs (ovlUsed s ctx) = need
  exact .ite (setSegs_settling ..) (.refl _)

theorem freeSegs_settling (s : State) (ctx : BitVec 8) : Settling s (freeSegs s ctx) := .ite (setSegs_settling ..) (.refl _)

theorem setOvl_settling (s : State) (os : List Ovl) : Settling s { s with hyps := { s.hyps with ovl := os } } := .of_pend rfl rfl

theorem ovlPut_settling (s : State) (o : Ovl) : Settling s (ovlPut s o) := (setOvl_settling s _).trans (takeSegs_settling ..)

theorem ovlTake_settling (s : State) (h : Nat) (ctx : BitVec 8) (tag : BitVec 6) (m : BitVec 64) (d : Option (BitVec 16)) :
    Settling s (ovlTake s h ctx tag m d) := .of_pend rfl rfl

theorem mapLines_settling (s : State) (skip : Option Site) (f : Site → Line → Option Line) : Settling s (mapLines s skip f) := .of_pend rfl rfl

theorem raiseTs_settling (s : State) (p : Party) (ts : Nat) : Settling s (raiseTs s p ts) := by
  unfold raiseTs
  split <;> exact .of_pend rfl rfl

theorem keepDesc_settling (s : State) (skip : Option Site) (h : Nat) (d : Option (BitVec 16)) : Settling s (keepDesc s skip h d) := by
  unfold keepDesc
  split
  · exact .refl _
  · split
    · exact writeDesc_settling ..
    · exact .refl _

/-- A change that leaves each version with its region adds no region. -/
theorem mapPend_settling (s : State) (sel : Pend → Bool) {f : Pend → Pend} (hf : ∀ x, (f x).inst = x.inst) : Settling s (mapPend s sel f) := by
  refine ⟨rfl, fun x hx => ?_⟩
  obtain ⟨y, hy, rfl⟩ := List.mem_map.1 (List.mem_filter.1 hx).1
  refine ⟨y, hy, ?_⟩
  split
  · exact (hf y).symm
  · rfl

theorem addPend_memoryOnly (s : State) (x : Pend) : MemoryOnly s (addPend s x) := .ite rfl (.refl _)

theorem Pend.trim_inst (x : Pend) (p : Party) (sc : BitVec 3) (m : BitVec 64) (d : Option (BitVec 16)) : (x.trim p sc m d).inst = x.inst := by
  unfold Pend.trim
  split
  · rfl
  · split <;> rfl

theorem supersede_settling (s : State) (p : Party) (h : Nat) (ctx : BitVec 8) (tag : BitVec 6) (sc : BitVec 3) (m : BitVec 64)
    (d : Option (BitVec 16)) : Settling s (supersede s p h ctx tag sc m d) :=
  ((Settling.ite (keepDesc_settling ..) (.refl _)).trans (mapLines_settling ..)).trans
    ((Settling.ite (ovlTake_settling ..) (.refl _)).trans (mapPend_settling _ _ fun x => x.trim_inst ..))

/-! ## Lines and stores -/

theorem putLine_settling (s : State) (site : Site) (l : Line) : Settling s (putLine s site l) := .of_pend rfl rfl
theorem dropLine_settling (s : State) (site : Site) (l : Line) : Settling s (dropLine s site l) := .of_pend rfl rfl

theorem evict_settling (s : State) (site : Site) (l : Line) : Settling s (evict s site l) :=
  (dropLine_settling s site l).trans (.ite (writeBack_settling ..) (ovlPut_settling ..))

theorem install_settling (s : State) (site : Site) (l : Line) : Settling s (install s site l) := by
  unfold install
  refine Settling.trans (Settling.ite (.refl _) ?_) (putLine_settling ..)
  split
  · exact evict_settling ..
  · exact .refl _

theorem storeZero_memoryOnly (s : State) (p : Party) (site : Site) (h va : Nat) (hint sc : BitVec 3) (m : BitVec 64) (b : Block)
    (d : Option (BitVec 16)) (psn : Bool) : MemoryOnly s (storeZero s p site h va hint sc m b d psn) := by
  unfold storeZero
  refine (supersede_settling s p h 0#8 0#6 sc m d).1.trans ?_
  generalize supersede s p h 0#8 0#6 sc m d = u
  have last : ∀ v, MemoryOnly v (if scopeNarrow sc = true then addPend v (p.version h va 0#8 0#6 sc m b d psn)
      else if (hintAlloc hint || homeIsPeer h) = true then v else writeHome v h m b d psn) := fun v =>
    .ite (addPend_memoryOnly ..) (.ite (.refl _) (writeHome_settling ..).1)
  refine MemoryOnly.trans (MemoryOnly.trans ?_ (raiseTs_settling ..).1) (last _)
  cases lineForStore u site h with
  | none => exact .ite (install_settling ..).1 (.refl _)
  | some l => exact ((writeBack_settling ..).trans (putLine_settling ..)).1

theorem engStore_memoryOnly (s : State) (p : Party) (who : Requester) (tn : BitVec 16) (home va : Nat) (ctx : BitVec 8) (h : BitVec 6)
    (sc : BitVec 3) (m : BitVec 64) (b : Block) (d : Option (BitVec 16)) (psn : Bool) :
    MemoryOnly s (engStore s p who tn home va ctx h sc m b d psn) :=
  .ite (.refl _) ((MemoryOnly.trans ((supersede_settling ..).trans (raiseTs_settling ..)).1 (.ite (addPend_memoryOnly ..) (.refl _))).trans
    (.ite (.ite (.refl _) (tierWrite_settling ..).1) (ovlPut_settling ..).1))

/-! ## Release (R79, R102, R105) -/

theorem hideDie_settling (s : State) (x : Pend) : Settling s (hideDie s x) := by
  unfold hideDie
  split
  · refine mapPend_settling _ _ fun y => ?_
    split <;> rfl
  · exact .refl _

theorem passDie_settling (s : State) (x : Pend) : Settling s (passDie s x) := mapPend_settling _ _ fun _ => rfl

theorem enterDie_memoryOnly (s : State) (x : Pend) : MemoryOnly s (enterDie s x) := (hideDie_settling ..).1.trans (addPend_memoryOnly ..)

/-- A version that takes its place in the device's order leaves no version of a new region. -/
theorem enterDevice_settling (s : State) (who : Requester) (tn : BitVec 16) (x : Pend) : Settling s (enterDevice s who tn x) := by
  have hbefore : Settling s (passDie (hideDie s x) x) := (hideDie_settling ..).trans (passDie_settling ..)
  unfold enterDevice
  by_cases htag : x.tag = 0#6
  · simp only [htag, if_true]
    exact ((hbefore.trans (keepDesc_settling ..)).trans (mapLines_settling ..)).trans ((tierWrite_settling ..).trans (writeDesc_settling ..))
  · simp only [htag, if_false]
    exact (((hbefore.trans (mapLines_settling ..)).trans (setOvl_settling ..)).trans (ovlTake_settling ..)).trans
      (.ite (.refl _) (ovlPut_settling ..))

/-- What a release leaves of the versions: each is one that it has not selected, or of the region of such a one. -/
theorem releasePend_settling (s : State) (sel : Pend → Bool) (who : Requester) (tn : BitVec 16) {sc : BitVec 3} (hsc : scopeNarrow sc = false) :
    Settling { s with store := { s.store with pend := s.store.pend.filter fun x => !sel x } } (releasePend s sel who tn sc) := by
  simp only [releasePend, hsc, Bool.not_false, Bool.or_true, Bool.and_true, Bool.false_eq_true, if_false]
  exact .foldl (fun _ _ => enterDevice_settling ..) _ _

theorem releasePend_memoryOnly (s : State) (sel : Pend → Bool) (who : Requester) (tn : BitVec 16) (sc : BitVec 3) :
    MemoryOnly s (releasePend s sel who tn sc) :=
  MemoryOnly.trans (t := { s with store := _ }) rfl
    (.foldl (fun _ _ => .ite (enterDie_memoryOnly ..) (enterDevice_settling ..).1) _ _)

theorem releaseLine_settling (s : State) (site : Site) (l : Line) : Settling s (releaseLine s site l) :=
  .ite (.refl _) ((writeBack_settling ..).trans (.of_pend rfl rfl))

theorem releaseTile_settling (s : State) (site : Site) : Settling s (releaseTile s site) :=
  .foldl (fun _ _ => releaseLine_settling ..) _ _

theorem releaseRegion_memoryOnly (s : State) (i : Inst) (sc : BitVec 3) : MemoryOnly s (releaseRegion s i sc) :=
  .ite (.refl _) ((releasePend_memoryOnly ..).trans (Settling.foldl (fun _ _ => releaseTile_settling ..) _ _).1)

/-- A release at device scope or wider leaves no unreleased version of its region (R102). -/
theorem releaseRegion_pend (s : State) (i : Inst) {sc : BitVec 3} (hsc : scopeNarrow sc = false) {x : Pend}
    (hx : x ∈ (releaseRegion s i sc).store.pend) : x.inst ≠ some i.id := by
  have hreg : sc ≠ scopeRegion := by
    rintro rfl
    exact absurd hsc (by decide)
  rw [releaseRegion, if_neg hreg] at hx
  obtain ⟨y, hy, hyx⟩ := ((releasePend_settling s (fun x => decide (x.inst = some i.id)) (.writeBack i.id) (tenantOf (findNode s i.node))
    hsc).trans (.foldl releaseTile_settling (instMts i) _)).2 x hx
  have := (List.mem_filter.1 hy).2
  rw [← hyx]
  simpa using this

/-! ## Acquire (R105) -/

theorem acquireRegion_settling (s : State) (i : Inst) : Settling s (acquireRegion s i) :=
  Settling.trans (t := staleReads s i) (.of_pend rfl rfl)
    (.foldl (fun _ _ => .foldl (fun _ _ => .ite (evict_settling ..) (.refl _)) _ _) _ _)

end Sys2Proof.Machine
end

section
/-! FENCE, FENCE_COMPLETE and BRK (R105, R108, R300, R392), and the statement about them. -/

namespace Sys2Proof.Machine

open Sys2Proof Sys2Proof.Claims

/-! ## The acquire of a tile (R105) -/

/-- A line that an acquire invalidates: an untagged one with data of tenant or system scope that is not read-only. -/
def Line.stale (l : Line) : Bool := l.wide && !l.ro && decide (l.tag = 0#6)

theorem Line.stale_tag {l : Line} (h : l.stale = true) : l.tag = 0#6 := by
  simp only [Line.stale, Bool.and_eq_true, decide_eq_true_eq] at h
  exact h.2

/-- The acquire of one line. -/
def acquireLine (site : Site) (s : State) (l : Line) : State := if l.stale then evict s site l else s

/-- The acquire of a tile's lines. -/
def acquireTile (s : State) (site : Site) : State := (tileLines s site).foldl (acquireLine site) s

/-- An acquire takes the tiles of its region one after the other. -/
theorem acquireRegion_tiles (s : State) (i : Inst) : acquireRegion s i = (instMts i).foldl acquireTile (staleReads s i) := rfl

/-- An untagged line that is evicted leaves its tile, with those of its address, and no other tile loses or gains a line. -/
theorem tileLines_evict {l : Line} (h : l.tag = 0#6) (s : State) (site y : Site) :
    tileLines (evict s site l) y = if y = site then (tileLines s site).filter (fun x => !l.same x) else tileLines s y := by
  have hdrop : tileLines (evict s site l) y = tileLines (dropLine s site l) y := by
    rw [evict, if_pos h]
    exact tileLines_of_mts (mts_writeBack ..) y
  rw [hdrop]
  split
  · subst y
    simp [tileLines, dropLine]
  · rename_i hy
    simp only [tileLines, dropLine, getMt_setMt_other _ _ _ _ (Ne.symm hy)]

theorem tileLines_acquireLine (site : Site) (s : State) (l : Line) (y : Site) : tileLines (acquireLine site s l) y ⊆ tileLines s y := by
  unfold acquireLine
  split
  · rename_i h
    rw [tileLines_evict (Line.stale_tag h)]
    split
    · subst y
      exact List.filter_sublist.subset
    · exact fun _ h => h
  · exact fun _ h => h

/-- Steps that give no tile a line make a run that gives none. -/
theorem tileLines_foldl {α : Type} {f : State → α → State} (hf : ∀ s x y, tileLines (f s x) y ⊆ tileLines s y) (xs : List α) (s : State)
    (y : Site) : tileLines (xs.foldl f s) y ⊆ tileLines s y := by
  induction xs generalizing s with
  | nil => exact fun _ h => h
  | cons x xs ih => exact fun _ h => hf s x y (ih _ h)

/-- The lines of a list that an acquire invalidates have left their tile once it has taken them all. -/
theorem acquireLines_gone (site : Site) {l : Line} (hl : l.stale = true)
    (ls : List Line) (s : State) (hmem : l ∈ ls) : l ∉ tileLines (ls.foldl (acquireLine site) s) site := by
  induction ls generalizing s with
  | nil => exact absurd hmem List.not_mem_nil
  | cons x ls ih =>
    intro hin
    obtain rfl | hmem := List.mem_cons.1 hmem
    · have hstep := tileLines_foldl (tileLines_acquireLine site) ls _ site hin
      rw [acquireLine, if_pos hl, tileLines_evict (Line.stale_tag hl), if_pos rfl] at hstep
      simpa [same_self] using (List.mem_filter.1 hstep).2
    · exact ih _ hmem hin

theorem tileLines_acquireTile (s : State) (site y : Site) : tileLines (acquireTile s site) y ⊆ tileLines s y :=
  tileLines_foldl (tileLines_acquireLine site) ..

theorem acquireTile_fresh {s : State} {site : Site} {l : Line} (h : l ∈ tileLines (acquireTile s site) site) : l.stale = false :=
  Bool.eq_false_iff.2 fun hl => acquireLines_gone site hl _ s (tileLines_acquireTile s site site h) h

/-- An acquire leaves no line to invalidate in the tiles of its region. -/
theorem acquireTiles_fresh {site : Site} {l : Line} (sites : List Site) (s : State) (hmem : site ∈ sites)
    (hin : l ∈ tileLines (sites.foldl acquireTile s) site) : l.stale = false := by
  induction sites generalizing s with
  | nil => exact absurd hmem List.not_mem_nil
  | cons x sites ih =>
    obtain rfl | hmem := List.mem_cons.1 hmem
    · exact acquireTile_fresh (tileLines_foldl tileLines_acquireTile sites _ site hin)
    · exact ih _ hmem hin

/-! ## FENCE (R300) -/

theorem setEstat_some_estat {s : State} {i j : Inst} {b : Word} (hj : j ∈ (setEstat s (some i) b).dist.insts) (hid : j.id = i.id) (k : Nat)
    (hb : bitAt b k = true) : bitAt j.estat k = true := by
  obtain ⟨x, -, rfl⟩ := List.mem_map.1 hj
  dsimp only at hid ⊢
  split at hid
  · rw [if_pos ‹_›]
    simp [hb]
  · rename_i hx
    exact absurd (decide_eq_true hid) hx

/-- The clamp of a level leaves stashes, storage and tasks as the release and the acquire have left them. -/
theorem fenceRegion_memory (s : State) (i : Inst) (n : Node) (lvl : BitVec 3) :
    (fenceRegion s i n lvl).fab = (acquireRegion (releaseRegion s i (n.scope lvl)) i).fab ∧
      (fenceRegion s i n lvl).store = (acquireRegion (releaseRegion s i (n.scope lvl)) i).store := by
  unfold fenceRegion
  dsimp only
  split <;> exact ⟨rfl, rfl⟩

theorem fenceRegion_ces (s : State) (i : Inst) (n : Node) (lvl : BitVec 3) : (fenceRegion s i n lvl).fab.ces = s.fab.ces := by
  rw [(fenceRegion_memory ..).1]
  exact ((releaseRegion_memoryOnly ..).trans (acquireRegion_settling ..).1).ces

/-- A FENCE of device scope or wider leaves its region no unreleased version (R102, R105). -/
theorem fenceRegion_pend {s : State} {i : Inst} {n : Node} {lvl : BitVec 3} (h : 2 ≤ (n.scope lvl).toNat) {x : Pend}
    (hx : x ∈ (fenceRegion s i n lvl).store.pend) : x.inst ≠ some i.id := by
  have hnarrow : scopeNarrow (n.scope lvl) = false := decide_eq_false (Nat.not_lt.2 h)
  rw [(fenceRegion_memory ..).2] at hx
  obtain ⟨y, hy, hyx⟩ := (acquireRegion_settling ..).2 x hx
  exact hyx ▸ releaseRegion_pend s i hnarrow hy

/-- A FENCE leaves the tiles of its region no line that an acquire invalidates (R105). -/
theorem fenceRegion_fresh {s : State} {i : Inst} {n : Node} {lvl : BitVec 3} {site : Site} (hsite : site ∈ instMts i) {l : Line}
    (hl : l ∈ tileLines (fenceRegion s i n lvl) site) : l.stale = false := by
  rw [tileLines_of_mts (congrArg Fabric.mts (fenceRegion_memory ..).1), acquireRegion_tiles] at hl
  exact acquireTiles_fresh _ _ hsite hl

/-- A clamped level sets SCOPECLAMP (R108). -/
theorem fenceRegion_clamps {s : State} {i : Inst} {n : Node} {lvl : BitVec 3} (h : n.clamps lvl = true) {j : Inst}
    (hj : j ∈ (fenceRegion s i n lvl).dist.insts) (hid : j.id = i.id) : bitAt j.estat 0 = true := by
  simp only [fenceRegion, h, if_true] at hj
  exact setEstat_some_estat hj hid 0 (by decide)

/-- FENCE with lane 0 active releases and acquires for the region of its task, which it marks. -/
theorem exec_fence {st : Stage} {s : State} (h : bitAt (stageAct s st) 0 = true) :
    ∃ u, exec (.fence st) s = .next (setTask u st.site st.task { getTask u st.site st.task with fence := true }) ∧ u.fab.ces = s.fab.ces ∧
      ∀ i n, ownerOf s st.site 0 = some i → findNode s i.node = some n → u = fenceRegion s i n (bits (ctlA s st) 0 3) := by
  refine ⟨_, if_pos h, ?_, fun i n hi hn => ?_⟩
  · split
    · exact fenceRegion_ces ..
    · rfl
  · simp only [nodeOf, hi, hn]

/-- Equal tables of CEs give equal tasks. -/
theorem getTask_of_ces {s t : State} (h : t.fab.ces = s.fab.ces) (site : Site) (task : BitVec 3) : getTask t site task = getTask s site task := by
  simp only [getTask, getCe, h]

theorem getTask_setTask_other (s : State) {site site' : Site} {task task' : BitVec 3} (k : Task) (h : site' ≠ site ∨ task' ≠ task) :
    getTask (setTask s site task k) site' task' = getTask s site' task' := by
  by_cases hsite : site' = site
  · subst hsite
    exact getTask_setTask_task _ _ _ _ _ (Ne.symm (h.resolve_left fun hne => hne rfl))
  · exact getTask_setTask_site _ _ _ _ _ _ (Ne.symm hsite)

/-! ## FENCE_COMPLETE and BRK (R300, R304, R392) -/

/-- A task whose mark is set goes on once the writes of its release have arrived. -/
theorem exec_fenceComplete {site : Site} {task : BitVec 3} {s : State} (hf : (getTask s site task).fence = true)
    (hr : releasePending s site = false) :
    exec (.fenceComplete site task) s = .next (setTask s site task { getTask s site task with fence := false }) :=
  if_pos (by simp [hf, hr])

/-- BRK with lane 0 active halts the CE where the debugger is attached to its region. -/
theorem exec_brk {st : Stage} {s : State} {i : Inst} (h : bitAt (stageAct s st) 0 = true) (hi : ownerOf s st.site 0 = some i) :
    exec (.brk st) s = if s.hub.dbg = some i.id then .next (setCe s st.site { getCe s st.site with halted := true }) else .next s := by
  show execBrk st s = _
  simp [execBrk, hi, ctlActive, h]

theorem setCe_only (s : State) (site : Site) (c : Ce) : OnlyCe site s (setCe s site c) :=
  ⟨rfl, fun _ hx => getCe_setCe_other _ _ _ _ (Ne.symm hx), memSame_of_store rfl⟩

/-- Settles O19. The mark and the CE are one write each; what a FENCE does to its region is the release's and the acquire's. -/
theorem fenceAndBreak : Obligations.FenceAndBreak := by
  refine ⟨fun st s _ hact => ?_, fun site task s hf hr => ⟨_, exec_fenceComplete hf hr, setTask_only .., getTask_setTask_self ..⟩,
    fun st s i _ hact hi => ⟨fun hdbg => ?_, fun hdbg => ?_⟩⟩
  · obtain ⟨u, hexec, hces, hu⟩ := exec_fence hact
    refine ⟨_, hexec, ?_, fun site task hne => ?_, fun i n hi hn => ?_⟩
    · rw [getTask_setTask_self, getTask_of_ces hces]
    · rw [getTask_setTask_other _ _ hne, getTask_of_ces hces]
    · obtain rfl := hu i n hi hn
      refine ⟨fun hsc x hx => fenceRegion_pend hsc hx, fun site hsite l hl htag hro => ?_, fun hc j hj hid => fenceRegion_clamps hc hj hid⟩
      have hfresh := fenceRegion_fresh hsite (l := l) hl
      simpa [Line.stale, htag, hro] using hfresh
  · exact ⟨_, (exec_brk hact hi).trans (if_pos hdbg), setCe_only .., getCe_setCe_self ..⟩
  · exact (exec_brk hact hi).trans (if_neg hdbg)

end Sys2Proof.Machine
end

section
/-! The hypothesis table, its restamps and resolutions (R111, R161, R163, R164, R409, R410): what a read gives after each. -/

namespace Sys2Proof.Machine

open Sys2Proof Sys2Proof.Claims Sys2Proof.Laws

/-! ## Tables -/

/-- What holds of the default and of every entry holds of what a read gives. -/
theorem get_of_all {α : Type} {P : α → Prop} {d : α} {t : Table α} (hd : P d) (h : ∀ e, e ∈ t → P e.2) (k : Nat) :
    P (Table.get d t k) := by
  induction t with
  | nil => exact hd
  | cons e t ih =>
    simp only [Table.get]
    split
    · exact h e List.mem_cons_self
    · exact ih fun x hx => h x (List.mem_cons_of_mem _ hx)

/-- A change of the entries of a table takes them one after the other; one that comes to the default goes. -/
theorem mapAt_cons {α : Type} [DecidableEq α] (d : α) (sel : Nat → Bool) (f : α → α) (e : Nat × α) (t : Table α) :
    Table.mapAt d sel f (e :: t) =
      if (if sel e.1 then f e.2 else e.2) = d then Table.mapAt d sel f t
      else (e.1, if sel e.1 then f e.2 else e.2) :: Table.mapAt d sel f t := by
  have hpair : (if sel e.1 then (e.1, f e.2) else e) = (e.1, if sel e.1 then f e.2 else e.2) := by split <;> rfl
  simp only [Table.mapAt, List.map_cons, List.filter_cons, hpair, decide_eq_true_eq, ne_eq, ite_not]

/-- A change of the entries that a test selects is a change of what their reads give, where the default stays itself. -/
theorem get_mapAt {α : Type} [DecidableEq α] {d : α} {sel : Nat → Bool} {f : α → α} (hd : f d = d) {t : Table α} (lo : Nat)
    (h : Table.sortedFrom lo t = true) (k : Nat) :
    Table.get d (Table.mapAt d sel f t) k = if sel k then f (Table.get d t k) else Table.get d t k := by
  have hdflt : (if sel k then f d else d) = d := by
    split
    · exact hd
    · rfl
  induction t generalizing lo with
  | nil => exact hdflt.symm
  | cons e t ih =>
    simp only [Table.sortedFrom, Bool.and_eq_true, decide_eq_true_eq] at h
    have hrest := ih (e.1 + 1) h.2
    rw [mapAt_cons]
    by_cases hk : e.1 = k
    · subst hk
      have hnone : Table.get d t e.1 = d := get_below d t _ _ h.2 (by omega)
      rw [hnone, hdflt] at hrest
      simp only [Table.get, if_true]
      generalize (if sel e.1 then f e.2 else e.2) = v
      split
      · rw [hrest, ‹v = d›]
      · simp only [Table.get, if_true]
    · generalize (if sel e.1 then f e.2 else e.2) = v
      simp only [Table.get, if_neg hk]
      split
      · exact hrest
      · simp only [Table.get, if_neg hk, hrest]

/-- What holds of every entry, and of each that a change makes of one, holds of every entry after the change. -/
theorem mapAt_all {α : Type} [DecidableEq α] {P : α → Prop} {d : α} {sel : Nat → Bool} {f : α → α} (hf : ∀ a, P a → P (f a))
    {t : Table α} (h : ∀ e, e ∈ t → P e.2) : ∀ e, e ∈ Table.mapAt d sel f t → P e.2 := by
  intro e he
  obtain ⟨x, hx, rfl⟩ := List.mem_map.1 (List.mem_filter.1 he).1
  split
  · exact hf _ (h x hx)
  · exact h x hx

/-! ## Parents (R161) -/

theorem hypParent_of_parent {s t : State} (h : t.hyps.parent = s.hyps.parent) (ctx : BitVec 8) (x : BitVec 6) :
    hypParent t ctx x = hypParent s ctx x := by
  simp only [hypParent, h]

/-- Different ids of a context, and ids of different contexts, have different keys. -/
theorem hypKey_inj {ctx ctx' : BitVec 8} {x x' : BitVec 6} (h : hypKey ctx x = hypKey ctx' x') : ctx = ctx' ∧ x = x' := by
  simp only [hypKey] at h
  have := x.isLt
  have := x'.isLt
  exact ⟨BitVec.eq_of_toNat_eq (by omega), BitVec.eq_of_toNat_eq (by omega)⟩

theorem setParents_cons (s : State) (ctx : BitVec 8) (a : BitVec 6) (ids : List (BitVec 6)) (f : BitVec 6 → Option (BitVec 6)) :
    setParents s ctx (a :: ids) f =
      setParents { s with hyps := { s.hyps with parent := Table.set none s.hyps.parent (hypKey ctx a) (f a) } } ctx ids f := rfl

/-- The entries of a context's table are all that a write of them changes. -/
theorem setParents_frame (s : State) (ctx : BitVec 8) (ids : List (BitVec 6)) (f : BitVec 6 → Option (BitVec 6)) :
    setParents s ctx ids f = { s with hyps := { s.hyps with parent := (setParents s ctx ids f).hyps.parent } } := by
  induction ids generalizing s with
  | nil => rfl
  | cons a ids ih =>
    rw [setParents_cons, ih]

/-- A write of some entries gives each of their ids its new parent, and leaves every other id. -/
theorem hypParent_setParents (s : State) (ctx : BitVec 8) (ids : List (BitVec 6)) (f : BitVec 6 → Option (BitVec 6)) (y : BitVec 8) {x : BitVec 6}
    (hx : x ≠ 0#6) : hypParent (setParents s ctx ids f) y x = if y = ctx ∧ x ∈ ids then f x else hypParent s y x := by
  induction ids generalizing s with
  | nil => simp [setParents]
  | cons a ids ih =>
    rw [setParents_cons, ih]
    by_cases hin : y = ctx ∧ x ∈ ids
    · rw [if_pos hin, if_pos ⟨hin.1, List.mem_cons_of_mem _ hin.2⟩]
    · rw [if_neg hin]
      simp only [hypParent, if_neg hx]
      by_cases hkey : y = ctx ∧ x = a
      · obtain ⟨rfl, rfl⟩ := hkey
        rw [get_set_self, if_pos ⟨rfl, List.mem_cons_self⟩]
      · have hne : hypKey y x ≠ hypKey ctx a := fun e => hkey (hypKey_inj e)
        rw [get_set_other _ _ _ hne, if_neg fun h => (List.mem_cons.1 h.2).elim (fun e => hkey ⟨h.1, e⟩) fun e => hin ⟨h.1, e⟩]

/-- The live ids of a context, 0 aside. -/
theorem mem_liveIds {s : State} {ctx : BitVec 8} {x : BitVec 6} : x ∈ liveIds s ctx ↔ x ≠ 0#6 ∧ hypLive s ctx x = true := by
  have hx : ∃ i, i < 64 ∧ BitVec.ofNat 6 i = x := ⟨x.toNat, x.isLt, by simp⟩
  simp [liveIds, hx]

/-- A write of the entries of the live ids by a function that leaves dead ids dead gives every id what the function says. -/
theorem hypParent_setLive {s s0 : State} {ctx : BitVec 8} {f : BitVec 6 → Option (BitVec 6)} (hp : s.hyps.parent = s0.hyps.parent)
    (hf : ∀ x, hypParent s0 ctx x = none → f x = none) {x : BitVec 6} (hx : x ≠ 0#6) :
    hypParent (setParents s ctx (liveIds s0 ctx) f) ctx x = f x := by
  rw [hypParent_setParents _ _ _ _ _ hx, hypParent_of_parent hp]
  by_cases hl : hypLive s0 ctx x = true
  · rw [if_pos ⟨rfl, mem_liveIds.2 ⟨hx, hl⟩⟩]
  · have hnone : hypParent s0 ctx x = none := by simpa [hypLive] using hl
    rw [if_neg fun h => hl (mem_liveIds.1 h.2).2, hnone, hf x hnone]

/-- A write of entries of one context leaves the others. -/
theorem hypParent_setParents_other (s : State) {ctx y : BitVec 8} (ids : List (BitVec 6)) (f : BitVec 6 → Option (BitVec 6)) (x : BitVec 6)
    (hy : y ≠ ctx) : hypParent (setParents s ctx ids f) y x = hypParent s y x := by
  by_cases hx : x = 0#6
  · simp [hypParent, hx]
  · rw [hypParent_setParents _ _ _ _ _ hx, if_neg fun h => hy h.1]

/-- Id 0 is under no other id: its chain is empty (R111). -/
theorem hypUnder_zero (s : State) (ctx : BitVec 8) (h : BitVec 6) : hypUnder s ctx h 0#6 = false := rfl

/-! ## Tasks (R163, R164, R410) -/

/-- Every CE, its owner, and every region and node are as before. -/
structure TasksKept (s t : State) : Prop where
  ces : t.fab.ces = s.fab.ces
  owner : t.fab.owner = s.fab.owner
  insts : t.dist.insts = s.dist.insts
  nodes : t.dist.nodes = s.dist.nodes

theorem TasksKept.refl (s : State) : TasksKept s s := ⟨rfl, rfl, rfl, rfl⟩

theorem TasksKept.trans {s t u : State} (h : TasksKept s t) (k : TasksKept t u) : TasksKept s u :=
  ⟨k.ces.trans h.ces, k.owner.trans h.owner, k.insts.trans h.insts, k.nodes.trans h.nodes⟩

theorem MemoryOnly.tasksKept {s t : State} (h : MemoryOnly s t) : TasksKept s t :=
  ⟨h.ces, by rw [h.fab], by rw [h.dist], by rw [h.dist]⟩

theorem setParents_tasksKept (s : State) (ctx : BitVec 8) (ids : List (BitVec 6)) (f : BitVec 6 → Option (BitVec 6)) :
    TasksKept s (setParents s ctx ids f) := by
  rw [setParents_frame]
  exact ⟨rfl, rfl, rfl, rfl⟩

theorem noteRecords_tasksKept (s : State) (ctx : BitVec 8) (hs : List (BitVec 6)) (p : Option (BitVec 6)) :
    TasksKept s (noteRecords s ctx hs p) := ⟨rfl, rfl, rfl, rfl⟩

theorem dropBodies_tasksKept (s : State) (sel : SteBody → Bool) : TasksKept s (dropBodies s sel) := ⟨rfl, rfl, rfl, rfl⟩
theorem refuteData_tasksKept (s : State) (ctx : BitVec 8) (dead : BitVec 6 → Bool) : TasksKept s (refuteData s ctx dead) := ⟨rfl, rfl, rfl, rfl⟩

theorem ownOfCtx_of_tasksKept {s t : State} (h : TasksKept s t) (ctx : BitVec 8) (site sub : Nat) :
    ownOfCtx t ctx site sub = ownOfCtx s ctx site sub := by
  have hfind : findInst t = findInst s := funext fun n => by simp only [findInst, h.insts]
  have hnode : findNode t = findNode s := funext fun n => by simp only [findNode, h.nodes]
  have hinst : instOfCtx t ctx = instOfCtx s ctx := funext fun i => by rw [instOfCtx, instOfCtx, hnode]
  have howner : ownerOf t = ownerOf s := funext fun x => funext fun k => by rw [ownerOf, ownerOf, h.owner, hfind]
  rw [ownOfCtx, ownOfCtx, howner, hinst]

/-- A restamp that keeps id 0 keeps an empty CE. -/
theorem restamp_empty {f : Restamp} (hf : f 0#6 false = (0#6, false)) (anc : BitVec 6) : Ce.empty.restamp f anc = Ce.empty := by
  have htask : Task.empty.restamp f anc = Task.empty := by
    simp [Task.restamp, Task.empty, hf]
  simp [Ce.restamp, Ce.empty, htask]

/-- The tasks of a context's regions after a restamp. -/
theorem getTask_restampAll {s : State} {ctx : BitVec 8} {f : Restamp} {anc : BitVec 6} (hf : f 0#6 false = (0#6, false))
    (hwf : Table.wf Ce.empty s.fab.ces = true) {site : Site} (hown : ownOfCtx s ctx site.toNat 0 = true) (task : BitVec 3) :
    getTask (restampAll s ctx f anc) site task = (getTask s site task).restamp f anc := by
  have hce : getCe (restampAll s ctx f anc) site = (getCe s site).restamp f anc :=
    (get_mapAt (sel := fun k => ownOfCtx s ctx k 0) (restamp_empty hf anc) 0 (wf_sorted hwf) site.toNat).trans (if_pos hown)
  simp [getTask, hce, Ce.restamp]

end Sys2Proof.Machine
end

section
/-! CONFIRM and REFUTE of an id (R112, R163, R164, R409, R410): what becomes of the hypothesis table, the stashes, the overlays and the
tasks. -/

namespace Sys2Proof.Machine

open Sys2Proof Sys2Proof.Claims Sys2Proof.Laws

/-! ## What a resolution does to data (R112, R163) -/

theorem confirmPend_settling (s : State) (mine : Nat → Bool) (home : Nat) (ctx : BitVec 8) (p : BitVec 6) (m : BitVec 64) :
    Settling s (confirmPend s mine home ctx p m) :=
  mapPend_settling _ _ fun x => by
    split <;> rfl

theorem confirmHeld_memoryOnly (mine : Nat → Bool) (p : BitVec 6) (s : State) (x : Pend) : MemoryOnly s (confirmHeld mine p s x) :=
  MemoryOnly.trans (mapPend_settling _ _ fun y => by
    split
    · rfl
    · split
      · split <;> rfl
      · rfl).1 (addPend_memoryOnly ..)

theorem confirmLine_settling (s : State) (mine : Nat → Bool) (site : Site) (p : BitVec 6) (l : Line) :
    Settling s (confirmLine s mine site p l) := by
  unfold confirmLine
  extract_lets dev s1 s2 control at0 s3
  have h3 : Settling s s3 := ((dropLine_settling s site l).trans (confirmPend_settling ..)).trans (.ite (.refl _) (supersede_settling ..))
  split
  · refine .ite (h3.trans (putLine_settling ..)) ((h3.trans ?_).trans (putLine_settling ..))
    exact .ite (writeBack_settling ..) (.ite (.refl _) (ovlPut_settling ..))
  · exact h3.trans (putLine_settling ..)

theorem confirmOvl_settling (s : State) (mine : Nat → Bool) (who : Requester) (tn : BitVec 16) (p : BitVec 6) (o : Ovl) :
    Settling s (confirmOvl s mine who tn p o) :=
  ((confirmPend_settling ..).trans (.ite (.refl _) (supersede_settling ..))).trans (.ite (tierWrite_settling ..) (ovlPut_settling ..))

theorem confirmData_memoryOnly (s : State) (mine : Nat → Bool) (who : Requester) (tn : BitVec 16) (ctx : BitVec 8) (h p : BitVec 6) :
    MemoryOnly s (confirmData s mine who tn ctx h p) := by
  unfold confirmData
  extract_lets held left os rest store hyps s1 s2 ls s3
  have h1 : MemoryOnly s s1 := rfl
  have h2 : MemoryOnly s1 s2 := .foldl (fun _ _ => (confirmOvl_settling ..).1) _ _
  have h3 : MemoryOnly s2 s3 := .foldl (fun _ _ => (confirmLine_settling ..).1) _ _
  exact ((h1.trans h2).trans h3).trans (.foldl (confirmHeld_memoryOnly mine p) _ _)

theorem refuteRecords_memoryOnly (dead : BitVec 6 → Bool) (s : State) (k : Nat) : MemoryOnly s (refuteRecords dead s k) := by
  refine .foldl (fun u t => ?_) _ _
  split
  · rfl
  · exact storeZero_memoryOnly ..

theorem refuteSaved_memoryOnly (dead : BitVec 6 → Bool) (ctx : BitVec 8) (who : Requester) (s : State) (v : Save) :
    MemoryOnly s (refuteSaved dead ctx who s v) := by
  unfold refuteSaved
  split
  · rfl
  · refine .ite (.refl _) (.foldl (fun u x => .foldl (fun w t => ?_) _ _) _ _)
    split
    · rfl
    · exact engStore_memoryOnly ..

/-- The marks that a refute sets in the records of a context's queues, saved or not. -/
theorem refuteQueues_memoryOnly (s : State) (ctx : BitVec 8) (dead : BitVec 6 → Bool) (who : Requester) (vs : List Save) :
    MemoryOnly s (vs.foldl (refuteSaved dead ctx who) ((ctxOps s ctx).foldl (refuteRecords dead) s)) :=
  (MemoryOnly.foldl (refuteRecords_memoryOnly dead) _ _).trans (.foldl (refuteSaved_memoryOnly dead ctx who) _ _)

/-- A tile holds no line of the ids of a context that a test names. -/
def Mt.without (m : Mt) (ctx : BitVec 8) (dead : BitVec 6 → Bool) : Prop :=
  ∀ l, l ∈ m.lines → l.ctx = ctx → l.tag ≠ 0#6 → dead l.tag = false

/-- Tiles without such lines have none after a restamp. -/
theorem restampAll_without {s : State} {ctx : BitVec 8} {dead : BitVec 6 → Bool} (h : ∀ e, e ∈ s.fab.mts → e.2.without ctx dead)
    (f : Restamp) (anc : BitVec 6) (site : Site) : (getMt (restampAll s ctx f anc) site).without ctx dead :=
  get_of_all (P := fun m : Mt => m.without ctx dead) (fun _ hl => absurd hl List.not_mem_nil)
    (mapAt_all (P := fun m : Mt => m.without ctx dead) (sel := fun k => ownOfCtx s ctx k 0) (f := fun m => m.restamp f) (fun _ hm => hm) h) _

/-- No line of a dead id is left in any tile (R163). -/
theorem refuteData_lines {s : State} {ctx : BitVec 8} {dead : BitVec 6 → Bool} :
    ∀ e, e ∈ (refuteData s ctx dead).fab.mts → e.2.without ctx dead := by
  intro e he l hl hctx htag
  obtain ⟨x, -, rfl⟩ := List.mem_map.1 (List.mem_filter.1 he).1
  rw [if_neg (by simp)] at hl
  obtain ⟨y, -, hy⟩ := List.mem_filterMap.1 hl
  dsimp only at hy
  split at hy
  · cases hy
  · rename_i hkept
    cases hy
    exact Bool.eq_false_iff.2 fun hdead => hkept ⟨htag, hctx, hdead⟩

/-- No overlay entry of a dead id is left (R163). -/
theorem refuteData_ovl {s : State} {ctx : BitVec 8} {dead : BitVec 6 → Bool} {o : Ovl} (ho : o ∈ (refuteData s ctx dead).hyps.ovl)
    (hctx : o.ctx = ctx) : dead o.tag = false := by
  have := (List.mem_filter.1 ho).2
  simpa [hctx] using this

theorem freeSegs_fab (s : State) (ctx : BitVec 8) : (freeSegs s ctx).fab = s.fab := by
  unfold freeSegs
  split <;> rfl

theorem freeSegs_ovl (s : State) (ctx : BitVec 8) : (freeSegs s ctx).hyps.ovl = s.hyps.ovl := by
  unfold freeSegs
  split <;> rfl

/-! ## CONFIRM (R163) -/

/-- The parent of an id once `h` has been folded into `p`. -/
def foldedParent (s : State) (ctx : BitVec 8) (h p x : BitVec 6) : Option (BitVec 6) :=
  if x = h then none else if hypParent s ctx x = some h then some p else hypParent s ctx x

/-- A confirm before it writes the hypothesis table: the data of `h` is its parent's. -/
def confirming (who : Requester) (s : State) (ctx : BitVec 8) (h p : BitVec 6) : State :=
  freeSegs (confirmData s (idOfCtx s ctx) who (ctxTenant s ctx) ctx h p) ctx

theorem confirming_memoryOnly (who : Requester) (s : State) (ctx : BitVec 8) (h p : BitVec 6) : MemoryOnly s (confirming who s ctx h p) :=
  (confirmData_memoryOnly ..).trans (freeSegs_settling ..).1

/-- The id of a stamp once `h` has been folded into `p`. -/
def foldedStamp (h p : BitVec 6) : Restamp := fun id refuted => if !refuted ∧ id = h then (p, false) else (id, refuted)

theorem confirmHyp_eq (who : Requester) (s : State) (ctx : BitVec 8) (h p : BitVec 6) :
    ∃ sel, confirmHyp who s ctx h p =
      restampAll (dropBodies (noteRecords (setParents (confirming who s ctx h p) ctx (liveIds s ctx) (foldedParent s ctx h p)) ctx [h] (some p))
        sel) ctx (foldedStamp h p) p := ⟨_, rfl⟩

theorem confirmHyp_table (who : Requester) (s : State) (ctx : BitVec 8) (h p : BitVec 6) :
    (confirmHyp who s ctx h p).hyps.parent =
      (setParents (confirming who s ctx h p) ctx (liveIds s ctx) (foldedParent s ctx h p)).hyps.parent := by
  obtain ⟨sel, heq⟩ := confirmHyp_eq who s ctx h p
  rw [heq]
  rfl

/-- A confirmed id is dead, its children are its parent's, and every other id of its context has the parent it had. -/
theorem confirmHyp_parent (who : Requester) (s : State) (ctx : BitVec 8) {h p x : BitVec 6} (hx : x ≠ 0#6) :
    hypParent (confirmHyp who s ctx h p) ctx x =
      if x = h then none else if hypParent s ctx x = some h then some p else hypParent s ctx x := by
  rw [hypParent_of_parent (confirmHyp_table ..),
    hypParent_setLive (confirming_memoryOnly ..).parent (fun x hnone => by simp [foldedParent, hnone]) hx, foldedParent]

theorem confirmHyp_parent_other (who : Requester) (s : State) {ctx y : BitVec 8} (h p x : BitVec 6) (hy : y ≠ ctx) :
    hypParent (confirmHyp who s ctx h p) y x = hypParent s y x := by
  rw [hypParent_of_parent (confirmHyp_table ..), hypParent_setParents_other _ _ _ _ hy, hypParent_of_parent (confirming_memoryOnly ..).parent]

/-- The tasks of a confirmed id go on under its parent (R163, R410). -/
theorem confirmHyp_hyp (who : Requester) {s : State} {ctx : BitVec 8} {h : BitVec 6} (p : BitVec 6) (hh : h ≠ 0#6)
    (hwf : Table.wf Ce.empty s.fab.ces = true) {site : Site} (hown : ownOfCtx s ctx site.toNat 0 = true) (task : BitVec 3) :
    (getTask (confirmHyp who s ctx h p) site task).hyp = if (getTask s site task).hyp = h then p else (getTask s site task).hyp := by
  obtain ⟨sel, heq⟩ := confirmHyp_eq who s ctx h p
  have hkept := (confirming_memoryOnly who s ctx h p).tasksKept.trans
    ((setParents_tasksKept _ ctx (liveIds s ctx) (foldedParent s ctx h p)).trans
      ((noteRecords_tasksKept _ ctx [h] (some p)).trans (dropBodies_tasksKept _ sel)))
  have hstamp : foldedStamp h p 0#6 false = (0#6, false) := if_neg fun e => hh e.2.symm
  rw [heq, getTask_restampAll hstamp (hkept.ces.symm ▸ hwf) ((ownOfCtx_of_tasksKept hkept ..).trans hown), getTask_of_ces hkept.ces]
  by_cases hid : (getTask s site task).hyp = h <;> simp [Task.restamp, foldedStamp, hid]

/-! ## REFUTE (R163, R164) -/

/-- A refute before it writes the hypothesis table, from where its marks in the queues have left the machine: records noted, cached bodies,
lines, overlay entries and unreleased versions of dead ids gone, everything restamped. -/
def refuting (v : State) (ctx : BitVec 8) (ids : List (BitVec 6)) (dead : BitVec 6 → Bool) (p : BitVec 6) : State :=
  restampAll (freeSegs (refuteData (dropBodies (noteRecords v ctx ids none) fun b =>
    decide (b.ctx = ctx) && decide (b.hyp ≠ 0#6) && dead b.hyp) ctx dead) ctx) ctx (fun id refuted => (id, refuted || dead id)) p

theorem refuteHyp_eq (who : Requester) (s : State) (ctx : BitVec 8) (h p : BitVec 6) :
    ∃ v, MemoryOnly s v ∧ refuteHyp who s ctx h p =
      setParents (refuting v ctx ((liveIds s ctx).filter (hypUnder s ctx h)) (hypUnder s ctx h) p) ctx (liveIds s ctx)
        fun x => if hypUnder s ctx h x then none else hypParent s ctx x :=
  ⟨_, refuteQueues_memoryOnly s ctx (hypUnder s ctx h) who s.dist.saves, rfl⟩

section

variable (v : State) (ctx : BitVec 8) (ids : List (BitVec 6)) (dead : BitVec 6 → Bool) (p : BitVec 6)

theorem refuting_parent : (refuting v ctx ids dead p).hyps.parent = v.hyps.parent := (freeSegs_settling ..).1.parent

/-- No tile holds a line of a dead id (R163). -/
theorem refuting_lines (site : Site) : (getMt (refuting v ctx ids dead p) site).without ctx dead := by
  refine restampAll_without ?_ _ p site
  rw [freeSegs_fab]
  exact refuteData_lines

theorem refuting_ovl {o : Ovl} (ho : o ∈ (refuting v ctx ids dead p).hyps.ovl) (hctx : o.ctx = ctx) : dead o.tag = false :=
  refuteData_ovl (freeSegs_ovl _ ctx ▸ ho) hctx

/-- A running task of a dead id is orphaned under the resolution's nearest surviving ancestor (R164). -/
theorem refuting_task (hzero : dead 0#6 = false) (hwf : Table.wf Ce.empty v.fab.ces = true) {site : Site}
    (hown : ownOfCtx v ctx site.toNat 0 = true) {task : BitVec 3} (hdead : dead (getTask v site task).hyp = true)
    (hrun : (getTask v site task).st = .running) :
    (getTask (refuting v ctx ids dead p) site task).orphaned = true ∧ (getTask (refuting v ctx ids dead p) site task).hyp = p := by
  have hkept := (noteRecords_tasksKept v ctx ids none).trans ((dropBodies_tasksKept _ fun b =>
    decide (b.ctx = ctx) && decide (b.hyp ≠ 0#6) && dead b.hyp).trans ((refuteData_tasksKept _ ctx dead).trans
      (freeSegs_settling _ ctx).1.tasksKept))
  have hstamp : ((fun id refuted => (id, refuted || dead id)) : Restamp) 0#6 false = (0#6, false) := by simp [hzero]
  rw [refuting, getTask_restampAll hstamp (hkept.ces.symm ▸ hwf) ((ownOfCtx_of_tasksKept hkept ..).trans hown), getTask_of_ces hkept.ces]
  simp [Task.restamp, hdead, hrun]

end

theorem refuteHyp_parent (who : Requester) (s : State) (ctx : BitVec 8) (h p : BitVec 6) {x : BitVec 6} (hx : x ≠ 0#6) :
    hypParent (refuteHyp who s ctx h p) ctx x = if hypUnder s ctx h x then none else hypParent s ctx x := by
  obtain ⟨v, hv, heq⟩ := refuteHyp_eq who s ctx h p
  rw [heq, hypParent_setLive ((refuting_parent ..).trans hv.parent) (fun x hnone => by simp [hnone]) hx]

theorem refuteHyp_parent_other (who : Requester) (s : State) {ctx y : BitVec 8} (h p x : BitVec 6) (hy : y ≠ ctx) :
    hypParent (refuteHyp who s ctx h p) y x = hypParent s y x := by
  obtain ⟨v, hv, heq⟩ := refuteHyp_eq who s ctx h p
  rw [heq, hypParent_setParents_other _ _ _ _ hy, hypParent_of_parent ((refuting_parent ..).trans hv.parent)]

theorem refuteHyp_lines (who : Requester) (s : State) (ctx : BitVec 8) (h p : BitVec 6) {site : Site} {l : Line}
    (hl : l ∈ tileLines (refuteHyp who s ctx h p) site) (hctx : l.ctx = ctx) (htag : l.tag ≠ 0#6) : hypUnder s ctx h l.tag = false := by
  obtain ⟨v, -, heq⟩ := refuteHyp_eq who s ctx h p
  rw [heq, setParents_frame] at hl
  exact refuting_lines v ctx _ _ p site l hl hctx htag

theorem refuteHyp_ovl (who : Requester) (s : State) (ctx : BitVec 8) (h p : BitVec 6) {o : Ovl}
    (ho : o ∈ (refuteHyp who s ctx h p).hyps.ovl) (hctx : o.ctx = ctx) : hypUnder s ctx h o.tag = false := by
  obtain ⟨v, -, heq⟩ := refuteHyp_eq who s ctx h p
  rw [heq, setParents_frame] at ho
  exact refuting_ovl v ctx _ _ p ho hctx

theorem refuteHyp_task (who : Requester) {s : State} {ctx : BitVec 8} {h : BitVec 6} (p : BitVec 6)
    (hwf : Table.wf Ce.empty s.fab.ces = true) {site : Site} (hown : ownOfCtx s ctx site.toNat 0 = true) {task : BitVec 3}
    (hdead : hypUnder s ctx h (getTask s site task).hyp = true) (hrun : (getTask s site task).st = .running) :
    (getTask (refuteHyp who s ctx h p) site task).orphaned = true ∧ (getTask (refuteHyp who s ctx h p) site task).hyp = p := by
  obtain ⟨v, hv, heq⟩ := refuteHyp_eq who s ctx h p
  rw [heq, getTask_of_ces (setParents_tasksKept ..).ces]
  rw [← getTask_of_ces hv.ces] at hdead hrun
  exact refuting_task v ctx _ _ p (hypUnder_zero ..) (hv.ces.symm ▸ hwf) ((ownOfCtx_of_tasksKept hv.tasksKept ..).trans hown) hdead hrun

end Sys2Proof.Machine
end

section
/-! The commands of the hypothesis controller and overlays that are full (R161, R163, R164, R361, R408), and the statement about them. -/

namespace Sys2Proof.Machine

open Sys2Proof Sys2Proof.Claims Sys2Proof.Laws

/-! ## A command and its job (R338) -/

/-- A command at which its job stands carries on. -/
theorem engRun_atCommand {opc : BitVec 8} {eng : EngId} {c : Cmd} {s : State} {j : Job} (h : AtCommand s eng opc c j)
    (tokens : State → Job → Nat) (body : Job → State → State) : engRun opc eng c tokens body s = .next (body j s) := by
  obtain ⟨hjob, hmay, hdead, hacted, hfresh⟩ := h
  cases hf : j.run.fresh with
  | false => simp [engRun, engStep, hjob, hmay, hdead, hacted, hf]
  | true =>
    obtain ⟨href, habort, hplace⟩ := hfresh hf
    simp [engRun, engStep, hjob, hmay, hdead, hacted, hf, href, habort, hplace]

/-- A changed job is what the change makes of a job of its number. -/
theorem mem_modJob {s : State} {id : Nat} {f : Job → Job} {k : Job} (hk : k ∈ (modJob s id f).dist.jobs) (hf : ∀ j, (f j).id = j.id)
    (hid : k.id = id) : ∃ j, j ∈ s.dist.jobs ∧ k = f j := by
  obtain ⟨j, hj, rfl⟩ := List.mem_map.1 hk
  refine ⟨j, hj, if_pos ?_⟩
  dsimp only at hid
  split at hid
  · exact decide_eq_true ((hf j).symm.trans hid)
  · exact decide_eq_true hid

/-- Bits that are set read as set. -/
theorem orBits_and_self (x b : BitVec 16) : (x ||| b) &&& b = b := by
  ext i
  rw [BitVec.getElem_and, BitVec.getElem_or]
  cases b[i] <;> simp

/-- A change that makes the effect of a job's command makes it, in a machine with as many jobs as before. -/
theorem modJob_jobActed {s v : State} (hv : v.dist.jobs.length = s.dist.jobs.length) {j : Job} {b : BitVec 16} {out : List Token} {f : Job → Job}
    (hid : ∀ k, (f k).id = k.id) (hf : ∀ k, (f k).run.acted = true ∧ (f k).run.outq = out ∧ (f k).status &&& b = b) :
    JobActed s (modJob v j.id f) j b out := by
  refine ⟨(List.length_map ..).trans hv, fun k hk hkid => ?_⟩
  obtain ⟨x, -, rfl⟩ := mem_modJob hk hid hkid
  exact hf x

theorem actDone_jobActed {s v : State} (hv : v.dist.jobs.length = s.dist.jobs.length) (j : Job) (b : BitVec 16) (out : List Token) :
    JobActed s (actDone v j b out) j b out :=
  modJob_jobActed hv (fun _ => rfl) fun k => ⟨rfl, rfl, orBits_and_self k.status b⟩

/-! ## HYPNEW (R161) -/

/-- The id that HYPNEW names is dead and above the live parent that it names. -/
def HypNewOk (s : State) (ctx : BitVec 8) (parent child : BitVec 6) : Prop :=
  parent < child ∧ hypLive s ctx child = false ∧ hypLive s ctx parent = true

theorem hypNewBody_ok {c : BitVec 88} {j : Job} {s : State} (h : HypNewOk s (jobCtx s j) (bits c 8 6) (bits c 0 6)) :
    hypNewBody c j s = actDone (setParents s (jobCtx s j) [bits c 0 6] fun _ => some (bits c 8 6)) j 0#16 [] := by
  obtain ⟨hlt, hdead, hlive⟩ := h
  exact if_pos ⟨hlt, by simp [hdead], hlive⟩

theorem hypNewBody_bad {c : BitVec 88} {j : Job} {s : State} (h : ¬ HypNewOk s (jobCtx s j) (bits c 8 6) (bits c 0 6)) :
    hypNewBody c j s = actDone s j stTopology [] :=
  if_neg fun ⟨hlt, hdead, hlive⟩ => h ⟨hlt, by simpa using hdead, hlive⟩

/-- HYPNEW makes its child live under its parent and changes no other id, or sets TOPOLOGY and changes none. -/
theorem hypnew_does {eng : EngId} {c : Cmd} {s : State} {j : Job} (h : AtCommand s eng 0x50#8 c j) :
    let ctx := ctxOf (jobNode s j)
    let parent : BitVec 6 := bits c.ops 8 6
    let child : BitVec 6 := bits c.ops 0 6
    Completes (.hypnew eng c) s fun t =>
      (HypNewOk s ctx parent child → hypParent t ctx child = some parent ∧ JobActed s t j 0#16 []) ∧
      (¬ HypNewOk s ctx parent child → t.hyps = s.hyps ∧ JobActed s t j 16#16 []) ∧
      (∀ x y, x ≠ ctx ∨ y ≠ child → hypParent t x y = hypParent s x y) ∧ MemSame s t := by
  intro ctx parent child
  refine ⟨_, engRun_atCommand h (fun _ _ => 0) (hypNewBody c.ops), ?_⟩
  by_cases hok : HypNewOk s ctx parent child
  · have hchild : child ≠ 0#6 := fun e => by
      have := hok.1
      rw [e] at this
      exact absurd this (by simp)
    rw [hypNewBody_ok hok]
    have hframe := setParents_frame s ctx [child] fun _ => some parent
    refine ⟨fun _ => ⟨?_, actDone_jobActed (congrArg (fun v => v.dist.jobs.length) hframe) ..⟩, fun hn => absurd hok hn,
      fun x y hne => ?_, memSame_of_store (congrArg State.store hframe :)⟩
    · exact (hypParent_setParents _ _ _ _ _ hchild).trans (if_pos ⟨rfl, List.mem_singleton_self _⟩)
    · by_cases hy : y = 0#6
      · simp [hypParent, hy]
      · exact (hypParent_setParents _ _ _ _ _ hy).trans (if_neg fun hin => hne.elim (fun e => e hin.1) fun e => e (List.mem_singleton.1 hin.2))
  · rw [hypNewBody_bad hok]
    exact ⟨fun hy => absurd hy hok, fun _ => ⟨rfl, actDone_jobActed rfl ..⟩, fun _ _ _ => rfl, memSame_of_store rfl⟩

/-! ## CONFIRM and REFUTE (R163, R361) -/

/-- The end of a step that has resolved an id, which its job notes, from the state that the resolution has made. -/
def resolvedOnce (u : State) (id : Nat) : State :=
  match findJob u id with
  | some j => resolved u j
  | none => u

theorem hypResBody_live {act : State → BitVec 8 → BitVec 6 → BitVec 6 → State} {c : BitVec 88} {j : Job} {s : State} {p : BitVec 6}
    (hi : j.run.i ≠ 1) (hh : (bits c 0 6 : BitVec 6) ≠ 0#6) (hp : hypParent s (jobCtx s j) (bits c 0 6) = some p) :
    hypResBody act c j s = resolvedOnce (modRun (act s (jobCtx s j) (bits c 0 6) p) j.id fun r => { r with i := 1 }) j.id := by
  simp only [hypResBody, if_neg hi, if_neg hh, hp, resolvedOnce] <;> rfl

theorem hypResBody_bad {act : State → BitVec 8 → BitVec 6 → BitVec 6 → State} {c : BitVec 88} {j : Job} {s : State} (hi : j.run.i ≠ 1)
    (h : (bits c 0 6 : BitVec 6) = 0#6 ∨ hypParent s (jobCtx s j) (bits c 0 6) = none) :
    hypResBody act c j s = killCommand s j stBad true 0 := by
  by_cases hh : (bits c 0 6 : BitVec 6) = 0#6
  · simp only [hypResBody, if_neg hi, if_pos hh]
  · simp only [hypResBody, if_neg hi, if_neg hh, h.resolve_left hh]

/-- A resolution whose write-backs have all arrived makes its command's effect. -/
theorem resolved_done {s : State} {j : Job} (h : ∀ r, r ∈ s.links.remotes → r.who ≠ .resolve j.id) : resolved s j = actDone s j 0#16 [] := by
  refine if_neg ?_
  simpa using h

theorem hypResBody_resolved {act : State → BitVec 8 → BitVec 6 → BitVec 6 → State} {c : BitVec 88} {j : Job} {s : State} (hi : j.run.i = 1)
    (h : ∀ r, r ∈ s.links.remotes → r.who ≠ .resolve j.id) : hypResBody act c j s = actDone s j 0#16 [] :=
  (if_pos hi).trans (resolved_done h)

/-- The end of a resolution changes nothing but its job. -/
theorem resolvedOnce_frame (u : State) (id : Nat) :
    resolvedOnce u id = { u with dist := { u.dist with jobs := (resolvedOnce u id).dist.jobs } } := by
  unfold resolvedOnce
  split
  · unfold resolved
    split <;> rfl
  · rfl

/-- A resolution's table, overlays and elements are those that it has made when its job has noted it. -/
theorem resolvedOnce_noted (v : State) (id : Nat) (f : CmdRun → CmdRun) :
    (resolvedOnce (modRun v id f) id).hyps = v.hyps ∧ (resolvedOnce (modRun v id f) id).fab = v.fab := by
  rw [resolvedOnce_frame]
  exact ⟨rfl, rfl⟩

/-- Where no write-back of the resolution is on its way, its job has made its effect. -/
theorem resolvedOnce_acted {u : State} {id : Nat} (h : ∀ r, r ∈ (resolvedOnce u id).links.remotes → r.who ≠ .resolve id) {k : Job}
    (hk : k ∈ (resolvedOnce u id).dist.jobs) (hid : k.id = id) : k.run.acted = true := by
  have hlinks : (resolvedOnce u id).links = u.links := by rw [resolvedOnce_frame]
  rw [hlinks] at h
  unfold resolvedOnce at hk
  split at hk
  · rename_i j hj
    have hjid : j.id = id := of_decide_eq_true (List.find?_some hj :)
    subst hjid
    rw [resolved_done h] at hk
    exact ((actDone_jobActed rfl j 0#16 []).2 k hk hid).1
  · rename_i hnone
    exact absurd (decide_eq_true hid) (List.find?_eq_none.1 hnone k hk)

section

variable {eng : EngId} {c : Cmd} {s : State} {j : Job}

theorem exec_confirm (h : AtCommand s eng 0x51#8 c j) :
    exec (.confirm eng c) s = .next (hypResBody (confirmHyp (.resolve j.id)) c.ops j s) :=
  engRun_atCommand h (fun _ _ => 0) fun j s => hypResBody (confirmHyp (.resolve j.id)) c.ops j s

theorem exec_refute (h : AtCommand s eng 0x51#8 c j) :
    exec (.refute eng c) s = .next (hypResBody (refuteHyp (.resolve j.id)) c.ops j s) :=
  engRun_atCommand h (fun _ _ => 0) fun j s => hypResBody (refuteHyp (.resolve j.id)) c.ops j s

/-- CONFIRM of a live id folds it into its parent (R163). -/
theorem confirm_does (h : AtCommand s eng 0x51#8 c j) {p : BitVec 6} (hi : j.run.i ≠ 1) (hh : (bits c.ops 0 6 : BitVec 6) ≠ 0#6)
    (hp : hypParent s (jobCtx s j) (bits c.ops 0 6) = some p) :
    let ctx := jobCtx s j
    let h : BitVec 6 := bits c.ops 0 6
    Completes (.confirm eng c) s fun t =>
      hypParent t ctx h = none ∧
      (∀ x, x ≠ h → x ≠ 0#6 → hypParent t ctx x = (if hypParent s ctx x = some h then some p else hypParent s ctx x)) ∧
      (∀ y x, y ≠ ctx → hypParent t y x = hypParent s y x) ∧
      (Table.wf Ce.empty s.fab.ces = true → ∀ site task, ownOfCtx s ctx site.toNat 0 = true →
        (getTask t site task).hyp = (if (getTask s site task).hyp = h then p else (getTask s site task).hyp)) ∧
      ((∀ r, r ∈ t.links.remotes → r.who ≠ .resolve j.id) → ∀ k, k ∈ t.dist.jobs → k.id = j.id → k.run.acted = true) := by
  intro ctx h'
  obtain ⟨hhyps, hfab⟩ := resolvedOnce_noted (confirmHyp (.resolve j.id) s ctx h' p) j.id fun r => { r with i := 1 }
  have hparent := hypParent_of_parent (congrArg Hyps.parent hhyps)
  refine ⟨_, (exec_confirm h).trans (congrArg _ (hypResBody_live hi hh hp)), ?_, fun x hx hx0 => ?_, fun y x hy => ?_, fun hwf site task hown => ?_,
    fun hr k hk hid => resolvedOnce_acted hr hk hid⟩
  · rw [hparent, confirmHyp_parent _ _ _ hh, if_pos rfl]
  · rw [hparent, confirmHyp_parent _ _ _ hx0, if_neg hx]
  · rw [hparent, confirmHyp_parent_other _ _ _ _ _ hy]
  · rw [getTask_of_ces (congrArg Fabric.ces hfab), confirmHyp_hyp _ p hh hwf hown]

/-- REFUTE of a live id kills it with its descendants (R163, R164). -/
theorem refute_does (h : AtCommand s eng 0x51#8 c j) {p : BitVec 6} (hi : j.run.i ≠ 1) (hh : (bits c.ops 0 6 : BitVec 6) ≠ 0#6)
    (hp : hypParent s (jobCtx s j) (bits c.ops 0 6) = some p) :
    let ctx := jobCtx s j
    let h : BitVec 6 := bits c.ops 0 6
    Completes (.refute eng c) s fun t =>
      (∀ x, x ≠ 0#6 → hypParent t ctx x = (if hypUnder s ctx h x then none else hypParent s ctx x)) ∧
      (∀ y x, y ≠ ctx → hypParent t y x = hypParent s y x) ∧
      (∀ site l, l ∈ (getMt t site).lines → l.ctx = ctx → l.tag ≠ 0#6 → hypUnder s ctx h l.tag = false) ∧
      (∀ o, o ∈ t.hyps.ovl → o.ctx = ctx → hypUnder s ctx h o.tag = false) ∧
      (Table.wf Ce.empty s.fab.ces = true → ∀ site task, ownOfCtx s ctx site.toNat 0 = true →
        hypUnder s ctx h (getTask s site task).hyp = true → (getTask s site task).st = .running →
        (getTask t site task).orphaned = true ∧ (getTask t site task).hyp = p) ∧
      ((∀ r, r ∈ t.links.remotes → r.who ≠ .resolve j.id) → ∀ k, k ∈ t.dist.jobs → k.id = j.id → k.run.acted = true) := by
  intro ctx h'
  obtain ⟨hhyps, hfab⟩ := resolvedOnce_noted (refuteHyp (.resolve j.id) s ctx h' p) j.id fun r => { r with i := 1 }
  have hparent := hypParent_of_parent (congrArg Hyps.parent hhyps)
  have htask := getTask_of_ces (congrArg Fabric.ces hfab)
  refine ⟨_, (exec_refute h).trans (congrArg _ (hypResBody_live hi hh hp)), fun x hx => ?_, fun y x hy => ?_, fun site l hl hctx htag => ?_,
    fun o ho hctx => ?_, fun hwf site task hown hdead hrun => ?_, fun hr k hk hid => resolvedOnce_acted hr hk hid⟩
  · rw [hparent, refuteHyp_parent _ _ _ _ _ hx]
  · rw [hparent, refuteHyp_parent_other _ _ _ _ _ hy]
  · rw [getMt_of_mts (congrArg Fabric.mts hfab)] at hl
    exact refuteHyp_lines _ _ _ _ p hl hctx htag
  · exact refuteHyp_ovl _ _ _ _ p (hhyps ▸ ho) hctx
  · rw [htask]
    exact refuteHyp_task _ p hwf hown hdead hrun

end

/-! ## HYPQRY (R361) -/

/-- Work goes on from where its first part has left it, or breaks off with it. -/
theorem work_bind {α β : Type} (x : WorkM α) (f : α → WorkM β) (w : Work) :
    (x >>= f).run.run w = match x.run.run w with
      | (.ok a, v) => (f a).run.run v
      | (.error e, v) => (.error e, v) := by
  show (match x w with
      | (a, v) => (ExceptT.bindCont f a : StateM Work (Except WorkEnd β)) v) = match x w with
      | (.ok a, v) => f a v
      | (.error e, v) => (.error e, v)
  rcases x w with ⟨e | a, v⟩ <;> rfl

theorem work_get (w : Work) : (get : WorkM Work).run.run w = (.ok w, w) := rfl
theorem work_set (w v : Work) : (set v : WorkM PUnit).run.run w = (.ok ⟨⟩, v) := rfl
theorem work_pure {α : Type} (a : α) (w : Work) : (pure a : WorkM α).run.run w = (.ok a, w) := rfl
/-- Work that sends nothing ends where it has come to. -/
theorem work_silent {x : WorkM Unit} {w v : Work} (h : x.run.run w = (.ok (), v)) :
    (x >>= fun _ => pure ([] : List Token)).run.run w = (.ok [], v) := by
  rw [work_bind, h]
  exact work_pure ..

theorem work_seen (va : Nat) (needW : Bool) (w : Work) :
    (wSeen va needW).run.run w = (.ok (), { w with seen := (va, needW) :: w.seen }) := rfl

/-- A write whose page translates to memory of this package, and which needs no overlay entry, is made at once. -/
theorem wWrite_runs {w : Work} {va : Nat} {u : State} {x : Trans} (href : w.job.refuted = false) (hx : jobXlate w.s w.job va true = (u, .ok x))
    (hty : x.ty ≠ 2#2) (hovl : engOvlWaits u (ctxOf (jobNode u w.job)) w.hyp (homeKey x) = false) (m : BitVec 64) (b : Block)
    (d : Option (BitVec 16)) :
    (wWrite va m b d).run.run w = (.ok (), { w with
      seen := (va, true) :: w.seen
      s := engStore u (jobParty u w.job) (.job w.job.id) (jobTenant u w.job) (homeKey x) va (ctxOf (jobNode u w.job)) w.hyp scopeDevice m b d
        false }) := by
  simp only [wWrite, work_bind, work_get, href, Bool.false_eq_true, if_false, work_seen, hx, if_neg hty, hovl, work_set]

/-- Work that comes to its end with its descriptor unchanged makes its command's effect. -/
theorem runWork_ok {w0 w : Work} {act : WorkM (List Token)} {out : List Token} (h : act.run.run w0 = (.ok out, w)) (hdesc : w.desc = w0.desc)
    (mark : Option Nat → WorkM Unit) : runWork w0 mark act = workDone w.s w.job w.status w.flags false out := by
  simp only [runWork, wFlush, work_bind, work_get, work_pure, h, hdesc, if_true]

/-- Work without flags counts no bad descriptor (R414): its end is a change of its job. -/
theorem workDone_noFlags (s : State) (j : Job) (b : BitVec 16) (ends : Bool) (out : List Token) :
    workDone s j b fNone ends out = modJob s j.id fun k =>
      { k with status := k.status ||| b ||| stFlags fNone, run := { k.run with acted := true, ends := ends, outq := out } } := by
  rw [workDone, wCounted, if_neg (by decide)]

/-- Work of one write, without a descriptor and under hypothesis 0. -/
theorem runWork_write {s u : State} {j : Job} {va : Nat} {x : Trans} (href : j.refuted = false) (hx : jobXlate s j va true = (u, .ok x))
    (hty : x.ty ≠ 2#2) (m : BitVec 64) (b : Block) (mark : Option Nat → WorkM Unit) :
    runWork (newWork s j va 0#1024 0#6) mark (wWrite va m b none >>= fun _ => pure []) =
      workDone (engStore u (jobParty u j) (.job j.id) (jobTenant u j) (homeKey x) va (ctxOf (jobNode u j)) 0#6 scopeDevice m b none false)
        j 0#16 fNone false [] :=
  runWork_ok (work_silent (wWrite_runs (w := newWork s j va 0#1024 0#6) href hx hty rfl m b none)) rfl mark

/-- Byte `i` of HYPQRY's table names id `i` (R361). -/
theorem hypTable_byte (s : State) (ctx : BitVec 8) {i : Nat} (hi : i < 64) :
    blockByte (hypTable s ctx) i = match hypParent s ctx (BitVec.ofNat 6 i) with
      | some p => 2#2 ++ p
      | none => 0#8 :=
  blockByte_ofBytes _ hi

/-- HYPQRY writes its context's table at device scope under hypothesis 0. -/
theorem hypqry_does {eng : EngId} {c : Cmd} {s u : State} {j : Job} {x : Trans} (h : AtCommand s eng 0x52#8 c j)
    (halign : (bits c.ops 0 56).toNat % 64 = 0) (href : j.refuted = false) (hx : jobXlate s j (bits c.ops 0 56).toNat true = (u, .ok x))
    (hty : x.ty ≠ 2#2) :
    Completes (.hypqry eng c) s fun t =>
      JobActed u t j 0#16 [] ∧
      t.store = (engStore u (jobParty u j) (.job j.id) (jobTenant u j) (homeKey x) (bits c.ops 0 56).toNat (ctxOf (jobNode u j)) 0#6 2#3
        (BitVec.allOnes 64) (hypTable s (jobCtx s j)) none false).store := by
  have hbody : hypQryBody c.ops j s = _ :=
    (if_neg fun hne => hne halign).trans (runWork_write href hx hty (BitVec.allOnes 64) (hypTable s (jobCtx s j)) fun _ => pure ())
  rw [workDone_noFlags] at hbody
  refine ⟨_, (engRun_atCommand h (fun _ _ => 0) (hypQryBody c.ops)).trans (congrArg _ hbody), ?_, rfl⟩
  exact modJob_jobActed (congrArg (fun d : Dist => d.jobs.length) (engStore_memoryOnly ..).dist) (fun _ => rfl)
    fun k => ⟨rfl, rfl, BitVec.and_zero⟩

/-! ## Overlays that are full (R408) -/

/-- No store of a context has been held back in this cycle. -/
theorem ovlWaiter_none {s : State} {ctx : BitVec 8} (h : ∀ w, w ∈ s.hyps.waits → w.1 = ctx → w.2.2 ≠ now s) : ovlWaiter s ctx = none := by
  rw [ovlWaiter, List.find?_eq_none.2, Option.map_none]
  intro w hw
  simpa using h w hw

/-- A context's stores that have been held back are served. -/
def waitsServed (s : State) (ctx : BitVec 8) : State :=
  { s with hyps := { s.hyps with waits := s.hyps.waits.filter fun w => decide (w.1 ≠ ctx) } }

/-- A context's overlay may double: it is below its limit, and its owner's reserve has the segments. -/
def ovlGrows (s : State) (ctx : BitVec 8) : Bool :=
  decide ((bits (ctxEntry s ctx) 152 8 : BitVec 8).toNat < (bits (ctxEntry s ctx) 160 8 : BitVec 8).toNat) &&
    !noReserve s ctx (2 ^ ((bits (ctxEntry s ctx) 152 8 : BitVec 8).toNat + 1))

/-- The doubled overlay of a context, with the segments that it takes. -/
def ovlDoubled (s : State) (ctx : BitVec 8) : State :=
  let size := (bits (ctxEntry s ctx) 152 8 : BitVec 8).toNat
  setSegs { s with hub := { s.hub with ctxs := Table.set 0#256 s.hub.ctxs ctx.toNat (setBits (ctxEntry s ctx) 152 (BitVec.ofNat 8 (size + 1))) } }
    ctx (2 ^ (size + 1))

theorem enlargeOvl_served (s : State) (ctx : BitVec 8) :
    enlargeOvl (waitsServed s ctx) ctx = if ovlGrows s ctx then some (ovlDoubled (waitsServed s ctx) ctx) else none := by
  refine ite_of_iff _ _ ?_
  rw [ovlGrows, Bool.and_eq_true, decide_eq_true_eq, Bool.not_eq_true']
  exact Iff.rfl

theorem ctxEntry_ovlDoubled (s : State) (ctx x : BitVec 8) :
    ctxEntry (ovlDoubled s ctx) x =
      if x = ctx then setBits (ctxEntry s ctx) 152 (BitVec.ofNat 8 ((bits (ctxEntry s ctx) 152 8 : BitVec 8).toNat + 1)) else ctxEntry s x := by
  split
  · subst x
    exact get_set_self ..
  · exact get_set_other _ _ _ fun e => ‹x ≠ ctx› (BitVec.eq_of_toNat_eq e)

theorem segsOf_ovlDoubled (s : State) (ctx x : BitVec 8) :
    segsOf (ovlDoubled s ctx) x = if x = ctx then 2 ^ ((bits (ctxEntry s ctx) 152 8 : BitVec 8).toNat + 1) else segsOf s x := by
  split
  · subst x
    exact get_set_self ..
  · exact get_set_other _ _ _ fun e => ‹x ≠ ctx› (BitVec.eq_of_toNat_eq e)

section

variable {s : State} {ctx : BitVec 8}

theorem exec_overlayEnlarge_none (h : ovlWaiter s ctx = none) : exec (.overlayEnlarge ctx) s = .next s := by
  show execOverlayEnlarge ctx s = _
  simp only [execOverlayEnlarge, h]

/-- A store that waits has its context's overlay doubled where that may grow. -/
theorem exec_overlayEnlarge_grows {h : BitVec 6} (hw : ovlWaiter s ctx = some h) (hg : ovlGrows s ctx = true) :
    exec (.overlayEnlarge ctx) s = .next (ovlDoubled (waitsServed s ctx) ctx) := by
  have hlarge := (enlargeOvl_served s ctx).trans (if_pos hg)
  rw [waitsServed] at hlarge
  show execOverlayEnlarge ctx s = _
  simp only [execOverlayEnlarge, hw, hlarge, waitsServed]

/-- A store that waits has its hypothesis refuted where its context's overlay may not grow. -/
theorem exec_overlayEnlarge_refutes {h p : BitVec 6} (hw : ovlWaiter s ctx = some h) (hg : ovlGrows s ctx = false)
    (hp : hypParent s ctx h = some p) :
    exec (.overlayEnlarge ctx) s = .next (refuteHyp (.writeBack 0) (waitsServed s ctx) ctx h p) := by
  have hlarge := (enlargeOvl_served s ctx).trans (if_neg (by simp [hg]))
  rw [waitsServed] at hlarge
  show execOverlayEnlarge ctx s = _
  simp only [execOverlayEnlarge, hw, hlarge, hp, waitsServed]

end

/-- Settles O41: each command is one step of its job, and its effect is that of the hypothesis table's write, the resolution, the store of
HYPQRY, or the overlay's growth. -/
theorem hypothesisCommands : Obligations.HypothesisCommands := by
  refine ⟨fun eng c s j hat => hypnew_does hat, fun eng c s j hat => ⟨fun hi hr => ?_, fun p hi hh hp => ?_, fun hi hbad => ?_⟩,
    fun eng c s u j x hat halign href hx hty => ?_, fun ctx s => ⟨fun hnone => ?_, fun h hw => ⟨fun hg => ?_, fun p hg hp => ?_⟩⟩⟩
  · exact ⟨⟨_, (exec_confirm hat).trans (congrArg _ (hypResBody_resolved hi hr)), actDone_jobActed rfl .., rfl⟩,
      ⟨_, (exec_refute hat).trans (congrArg _ (hypResBody_resolved hi hr)), actDone_jobActed rfl .., rfl⟩⟩
  · exact ⟨confirm_does hat hi hh hp, refute_does hat hi hh hp⟩
  · exact ⟨(exec_confirm hat).trans (congrArg _ (hypResBody_bad hi hbad)), (exec_refute hat).trans (congrArg _ (hypResBody_bad hi hbad))⟩
  · exact ⟨_, fun i hi => hypTable_byte s _ hi, hypqry_does hat halign href hx hty⟩
  · exact exec_overlayEnlarge_none (ovlWaiter_none hnone)
  · exact ⟨_, exec_overlayEnlarge_grows hw hg, (ctxEntry_ovlDoubled ..).trans (if_pos rfl), (segsOf_ovlDoubled ..).trans (if_pos rfl),
      fun x hne => (segsOf_ovlDoubled ..).trans (if_neg hne), rfl, fun x hne => (ctxEntry_ovlDoubled ..).trans (if_neg hne)⟩
  · exact exec_overlayEnlarge_refutes hw hg hp

end Sys2Proof.Machine
end

section
/-! The stages whose lanes compute each by itself, step their generators or see each other (R249 to R253, R273 to R287): one lemma for
each of the three ways to run, and the statements about them. -/

namespace Sys2Proof.Claims

open Sys2Proof Sys2Proof.Machine

/-! ## Lanes (R250, R251) -/

/-- The instruction runs an operation on the operands of each lane, in a slot of a stage. -/
def RunsLanes (e : LaneOp) : Prop :=
  ∀ (st : Stage) (s : State), (∃ n, wf (e.1 st) = stageOk n st) ∧ exec (e.1 st) s = runLane st (e.2 s st) s

/-- Operations that run on each lane complete with their results in the active lanes. -/
theorem laneOps_of_runsLanes {ops : List LaneOp} (h : ∀ e, e ∈ ops → RunsLanes e) : LaneOps ops := by
  intro e he st s hwf
  obtain ⟨⟨n, hn⟩, hexec⟩ := h e he st s
  exact completes_lane (stageOk_slot (hn.symm.trans hwf)) hexec fun _ _ _ => rfl

/-- What the lanes hold is a matter of the sixteen values and flags alone. -/
theorem StageWrites.congr {st : Stage} {s t : State} {m : BitVec 16} {val val' : Nat → Word} {flg flg' : Nat → Bool}
    (h : StageWrites st s t m val flg) (hval : ∀ l, l < 16 → val l = val' l) (hflg : ∀ l, l < 16 → flg l = flg' l) :
    StageWrites st s t m val' flg' := by
  intro l hl
  rw [← hval l hl, ← hflg l hl]
  exact h l hl

/-- What OUT does is a matter of the sixteen values alone. -/
theorem StageOut.congr {st : Stage} {s t : State} {m : BitVec 16} {val val' : Nat → Word} (h : StageOut st s t m val)
    (hval : ∀ l, l < 16 → val l = val' l) : StageOut st s t m val' := by
  obtain ⟨houts, hacc⟩ := h
  refine ⟨fun o ho => ?_, fun j hj l hl => hval l hl ▸ hacc j hj l hl⟩
  have hout := houts o ho
  split at hout
  · obtain ⟨hlanes, hscalar⟩ := hout
    rw [if_pos ‹_›]
    exact ⟨fun l hl h4 => hval l hl ▸ hlanes l hl h4, hscalar⟩
  · rw [if_neg ‹_›]
    exact hout

/-- AFLAGS takes the OR of the active lanes' bits. -/
theorem stageFlags_of_orFlags {st : Stage} {s t : State} {fl : Nat → Flags}
    (h : (getTask t st.site st.task).aflags = (getTask s st.site st.task).aflags ||| orFlags (stageAct s st) fl 16) :
    StageFlags st s t fl := by
  intro i
  rw [h, bitAt_or, orFlags_bit]

/-- Settles O9: each of the operations runs on its lanes. -/
theorem halfAndNarrow : Obligations.HalfAndNarrow := by
  refine laneOps_of_runsLanes fun e he => ?_
  simp only [List.mem_cons, List.not_mem_nil, or_false] at he
  rcases he with rfl | rfl | rfl | rfl | rfl | rfl | rfl | rfl | rfl | rfl | rfl | rfl | rfl | rfl | rfl
  all_goals exact fun st s => ⟨⟨_, rfl⟩, rfl⟩

/-! ## Generators (R126, R276) -/

/-- A stage that computes each lane and may step its generator. -/
theorem runGen_does (st : Stage) (s : State) (f : Word → Word → Word → Word → LaneRes × Word) (h : st.slot.toNat < 6) :
    let r (l : Nat) : LaneRes × Word :=
      f (lane (getTask s st.site st.task).gen l) (lane (stageA s st) l) (lane (stageB s st) l) (lane (stageC s st) l)
    ∃ t, runGen st f s = .next t ∧
      StageFrame st s t ∧ StageWrites st s t (stageAct s st) (fun l => (r l).1.val) (fun l => (r l).1.flg) ∧
      StageFlags st s t (fun l => (r l).1.fl) ∧ StageOut st s t (stageAct s st) (fun l => (r l).1.val) ∧
      ∀ l, l < 16 → lane (getTask t st.site st.task).gen l =
        (if bitAt (stageAct s st) l then (r l).2 else lane (getTask s st.site st.task).gen l) := by
  intro r
  obtain ⟨hframe, hwrites, hflags, hgen, hout⟩ := putStage_does st s
    (genStage (stageAct s st) (stageA s st) (stageB s st) (stageC s st) (getTask s st.site st.task).gen f) h
  have hval : ∀ l, l < 16 → lane (ofLanes fun l => (r l).1.val) l = (r l).1.val := lane_ofLanes _
  refine ⟨_, rfl, hframe, hwrites.congr hval (bitAt_ofMask _), stageFlags_of_orFlags hflags, (hout rfl).congr hval, fun l hl => ?_⟩
  rw [hgen]
  exact lane_ofLanes _ l hl

/-- A quantisation without stochastic rounding leaves its generator (R276). -/
theorem nqOp_gen {w : Nat} {mod : BitVec 3} (h : bitAt mod 2 = false) (fmts : BitVec 128) (g a b c : Word) :
    (nqOp w mod fmts g a b c).2 = g := by
  simp only [nqOp, h, Bool.false_eq_true, if_false]
  split <;> rfl

/-- A quantisation into elements of `w` bits completes with its codes. -/
theorem completes_quantise {i : Instr} {st : Stage} {s : State} {w : Nat} (hs : st.slot.toNat < 6)
    (hx : exec i s = runGen st (fun g a b c => nqOp w st.mod (ceFmts s st.site) g a b c) s) :
    let r (l : Nat) : LaneRes × Word :=
      nqOp w st.mod (ceFmts s st.site) (lane (getTask s st.site st.task).gen l) (lane (stageA s st) l) (lane (stageB s st) l)
        (lane (stageC s st) l)
    Completes i s fun t =>
      StageFrame st s t ∧ StageWrites st s t (stageAct s st) (fun l => (r l).1.val) (fun l => (r l).1.flg) ∧
      StageFlags st s t (fun l => (r l).1.fl) ∧ StageOut st s t (stageAct s st) (fun l => (r l).1.val) ∧
      ∀ l, l < 16 → lane (getTask t st.site st.task).gen l =
        (if bitAt (stageAct s st) l && bitAt st.mod 2 then (r l).2 else lane (getTask s st.site st.task).gen l) := by
  intro r
  obtain ⟨t, hexec, hframe, hwrites, hflags, hout, hgen⟩ := runGen_does st s _ hs
  refine ⟨t, hx.trans hexec, hframe, hwrites, hflags, hout, fun l hl => (hgen l hl).trans ?_⟩
  cases hmod : bitAt st.mod 2 with
  | true => rw [Bool.and_true]
  | false => rw [nqOp_gen hmod, ite_self, Bool.and_false, if_neg Bool.false_ne_true]

/-- Settles O10: both widths are one quantisation, and without MOD[2] what it leaves of a generator is the generator. -/
theorem quantise : Obligations.Quantise := by
  intro e he st s hwf
  simp only [List.mem_cons, List.not_mem_nil, or_false] at he
  rcases he with rfl | rfl
  · exact completes_quantise (stageOk_slot hwf) rfl
  · exact completes_quantise (stageOk_slot hwf) rfl

/-! ## Lanes that see each other (R281 to R287) -/

/-- An operation over all lanes, by the instruction that names it. -/
abbrev CrossOp := (Stage → Instr) × (BitVec 16 → Block → Block → Block → XRes)

/-- The instruction runs an operation over all lanes of its operands, in a slot of a stage. -/
def RunsAcross (e : CrossOp) : Prop :=
  ∀ (st : Stage) (s : State), (∃ n, wf (e.1 st) = stageOk n st) ∧ exec (e.1 st) s = runCross st e.2 s

/-- A stage that lets its lanes see each other. -/
theorem completes_cross {e : CrossOp} (h : RunsAcross e) {st : Stage} {s : State} (hwf : wf (e.1 st) = true) :
    let r := e.2 (stageAct s st) (stageA s st) (stageB s st) (stageC s st)
    Completes (e.1 st) s fun t =>
      StageFrame st s t ∧ StageWrites st s t (stageAct s st) (lane r.val) (bitAt r.flg) ∧
      (getTask t st.site st.task).aflags = (getTask s st.site st.task).aflags ||| r.fl ∧
      (getTask t st.site st.task).gen = (getTask s st.site st.task).gen ∧
      StageOut st s t (stageAct s st) (lane r.val) := by
  intro r
  obtain ⟨⟨n, hn⟩, hexec⟩ := h st s
  obtain ⟨hframe, hwrites, hflags, hgen, hout⟩ := putStage_does st s
    (crossStage (stageAct s st) (getTask s st.site st.task).gen r) (stageOk_slot (hn.symm.trans hwf))
  exact ⟨_, hexec, hframe, hwrites, hflags, hgen, hout rfl⟩

/-- An operation runs over all lanes by any of its equal descriptions. -/
theorem RunsAcross.congr {op : Stage → Instr} {f g : BitVec 16 → Block → Block → Block → XRes} (h : RunsAcross (op, f))
    (hfg : ∀ act a b c, f act a b c = g act a b c) : RunsAcross (op, g) := by
  have heq : f = g := funext fun act => funext fun a => funext fun b => funext fun c => hfg act a b c
  exact heq ▸ h

/-- A rotation by a count is one by the count's rest modulo 16 (R282). -/
theorem xLrot_eq (a b : Block) : xLrot a b = xNz (fun l => lane a ((l + (lane b 0).toNat) % 16)) fNone := by
  simp only [xLrot, Nat.add_mod_mod]

/-- The running sum of the active lanes is the sum of the list of what the lanes contribute (R284, R285). -/
theorem sumActive_eq_sum (act : BitVec 16) (a : Block) (n : Nat) :
    sumActive act a n = ((List.range n).map fun l => if bitAt act l then lane a l else 0#32).sum := by
  induction n with
  | zero => rfl
  | succ n ih => simp [sumActive, ih, activeOr0, List.range_succ]

/-- LROT runs as the rotation by its whole count. -/
theorem lrot_runsAcross : RunsAcross (.lrot, fun _ a b _ => xNz (fun l => lane a ((l + (lane b 0).toNat) % 16)) fNone) :=
  RunsAcross.congr (f := fun _ a b _ => xLrot a b) (fun _ _ => ⟨⟨_, rfl⟩, rfl⟩) fun _ a b _ => xLrot_eq a b

/-- RSUMI runs as the sum of a list. -/
theorem rsumi_runsAcross : RunsAcross (.rsumi, fun act a _ _ =>
    xNz (fun _ => ((List.range 16).map fun l => if bitAt act l then lane a l else 0#32).sum) fNone) :=
  RunsAcross.congr (f := fun act a _ _ => xRsumi act a) (fun _ _ => ⟨⟨_, rfl⟩, rfl⟩) fun act a _ _ => by
    rw [xRsumi, sumActive_eq_sum]

/-- SCANI runs as the sums of the list's beginnings. -/
theorem scani_runsAcross : RunsAcross (.scani, fun act a _ _ =>
    xFp (fun l => ((List.range (l + 1)).map fun l => if bitAt act l then lane a l else 0#32).sum) fNone) :=
  RunsAcross.congr (f := fun act a _ _ => xScani act a) (fun _ _ => ⟨⟨_, rfl⟩, rfl⟩) fun act a _ _ => by
    simp only [xScani, sumActive_eq_sum]

/-- Settles O12: each of the operations runs over its lanes, where a rotation takes its count modulo 16 and the integer sums are sums of
lists. -/
theorem crossLane : Obligations.CrossLane := by
  intro e he st s hwf
  refine completes_cross ?_ hwf
  simp only [List.mem_cons, List.not_mem_nil, or_false] at he
  rcases he with rfl | rfl | rfl | rfl | rfl | rfl | rfl | rfl | rfl | rfl
  case inr.inl => exact lrot_runsAcross
  case inr.inr.inr.inl => exact rsumi_runsAcross
  case inr.inr.inr.inr.inl => exact scani_runsAcross
  all_goals exact fun _ _ => ⟨⟨_, rfl⟩, rfl⟩

end Sys2Proof.Claims
end

section
/-! The matrix tile (R343 to R348): its accumulators and weights after a write, the token that a command takes, each of its commands, and
the statement about them. -/

namespace Sys2Proof.Machine

open Sys2Proof Sys2Proof.Claims Sys2Proof.Laws

/-! ## Accumulators and weights (R344 to R348) -/

/-- Keeping the keys that pass a test leaves what they hold, and the default elsewhere. -/
theorem get_filterKeys {α : Type} (d : α) (p : Nat → Bool) (t : Table α) (k : Nat) :
    Table.get d (t.filter fun e => p e.1) k = if p k then Table.get d t k else d := by
  induction t with
  | nil => exact (ite_self d).symm
  | cons e t ih =>
    rw [List.filter_cons]
    by_cases hk : e.1 = k
    · cases hp : p k with
      | true => simp [hk, hp, Table.get]
      | false => simpa [hk, hp] using ih
    · split <;> simp [Table.get, hk, ih]

/-- Writing `n` keys from `b` on gives each its value, and leaves every other key. -/
theorem get_setRange {α : Type} [DecidableEq α] (d : α) (t : Table α) {key : Nat → Nat} {b : Nat} (hkey : ∀ i, key i = b + i) (n : Nat)
    (f : Nat → α) (k : Nat) :
    Table.get d ((List.range n).foldl (fun t i => Table.set d t (key i) (f i)) t) k =
      if b ≤ k ∧ k < b + n then f (k - b) else Table.get d t k := by
  induction n with
  | zero => exact (if_neg (by omega)).symm
  | succ n ih =>
    rw [List.range_succ, List.foldl_append, List.foldl_cons, List.foldl_nil, hkey]
    by_cases hk : k = b + n
    · subst hk
      rw [get_set_self, if_pos (by omega), Nat.add_sub_cancel_left]
    · have hiff : (b ≤ k ∧ k < b + (n + 1)) ↔ (b ≤ k ∧ k < b + n) := by omega
      rw [get_set_other _ _ _ hk, ih]
      simp only [hiff]

/-- The keys of a row are those of its 64 columns. -/
theorem accKey_mem_row {y r y' r' n : Nat} (hr : r < 64) (hr' : r' < 64) (hn : n < 64) :
    (accKey y r 0 ≤ accKey y' r' n ∧ accKey y' r' n < accKey y r 0 + 64) ↔ y' = y ∧ r' = r := by
  simp only [accKey]
  omega

/-- The elements of a slot's first rows, cleared (R347, R348). -/
theorem accAt_clearRows (m : Mx) {slot rows y r n : Nat} (hrows : rows ≤ 64) (hr : r < 64) (hn : n < 64) :
    accAt (clearRows m slot rows) y r n = if y = slot ∧ r < rows then 0#32 else accAt m y r n := by
  have hiff : (accKey slot 0 0 ≤ accKey y r n ∧ accKey y r n < accKey slot rows 0) ↔ y = slot ∧ r < rows := by
    simp only [accKey]
    omega
  refine (get_filterKeys 0#32 (fun k => !(decide (accKey slot 0 0 ≤ k) && decide (k < accKey slot rows 0))) m.acc (accKey y r n)).trans ?_
  simp only [accAt, Bool.not_eq_true', ← Bool.decide_and, decide_eq_false_iff_not, hiff, ite_not]

/-- What one slice makes of an element of a row: the exact sum of it and the products of the A block's elements and its column's, rounded
once (R129). -/
def rowElem (fmts : BitVec 128) (kind : Nat) (sp : Bool) (slot row base : Nat) (a : BlkVal) (m : Mx) (n : Nat) : Word :=
  (dotRound rne (((List.range (kindK kind)).map fun k => kindElem fmts kind a.data a.desc k).zip (column fmts kind sp m base n))
    (v32 (accAt m slot row n))).1

/-- A row of a slice changes the 64 elements of its row, and leaves the others (R346). -/
theorem accAt_mulRow (fmts : BitVec 128) (kind : Nat) (sp : Bool) (slot base : Nat) (a : BlkVal) (m : Mx) {row y r n : Nat}
    (hrow : row < 64) (hr : r < 64) (hn : n < 64) :
    accAt (mulRow fmts kind sp false slot row base a m) y r n =
      if y = slot ∧ r = row then rowElem fmts kind sp slot row base a m n else accAt m y r n := by
  have hkey : ∀ i, accKey slot row i = accKey slot row 0 + i := fun _ => by simp only [accKey, Nat.add_zero]
  refine (get_setRange 0#32 m.acc hkey 64 (rowElem fmts kind sp slot row base a m) (accKey y r n)).trans ?_
  simp only [accKey_mem_row hrow hr hn]
  split
  · rename_i h
    obtain ⟨rfl, rfl⟩ := h
    rw [hkey n, Nat.add_sub_cancel_left]
  · rfl

/-- A block of the weight buffer after a write of one (R344). -/
theorem weight_set (m : Mx) (i k : Nat) (b : Block) (desc : BitVec 16) (hyps : Table (BitVec 6)) :
    weight { m with wdat := Table.set 0#512 m.wdat i b, wdesc := Table.set 0x00FF#16 m.wdesc i desc, whyp := hyps } k =
      if k = i then (b, desc) else weight m k := by
  split
  · subst k
    exact Prod.ext (get_set_self ..) (get_set_self ..)
  · exact Prod.ext (get_set_other _ _ _ ‹_›) (get_set_other _ _ _ ‹_›)

/-! ## The start of a command (R343) -/

/-- Of no jobs alone is none the first. -/
theorem earliest_none {js : List Job} (h : earliest js = none) : js = [] := by
  cases js with
  | nil => rfl
  | cons x xs =>
    rw [earliest] at h
    split at h
    · cases h
    · split at h <;> cases h

/-- The job whose command arrived first is one of the list, and none of the list arrived before it. -/
theorem earliest_some {js : List Job} {j : Job} (h : earliest js = some j) : j ∈ js ∧ ∀ k, k ∈ js → j.run.arr ≤ k.run.arr := by
  induction js generalizing j with
  | nil => cases h
  | cons x xs ih =>
    rw [earliest] at h
    cases hxs : earliest xs with
    | none =>
      rw [hxs] at h
      cases h
      simp [earliest_none hxs]
    | some k =>
      obtain ⟨hmem, hmin⟩ := ih hxs
      rw [hxs] at h
      dsimp only at h
      simp only [List.mem_cons, forall_eq_or_imp]
      split at h
      · cases h
        exact ⟨.inr hmem, Nat.le_of_lt ‹_›, hmin⟩
      · cases h
        exact ⟨.inl rfl, Nat.le_refl _, fun y hy => Nat.le_trans (Nat.le_of_not_lt ‹_›) (hmin y hy)⟩

/-- Where the array is free, the startable command that arrived first starts. -/
theorem exec_mxCommandStart {site : Site} {s : State} {j : Job} (hstart : (getMx s site).startNext ≤ now s)
    (hfree : ((mxRunning s (site.setWidth 13)).any fun j => mxIsMul (jobWord s j)) = false)
    (hj : earliest (mxStartable s (site.setWidth 13)) = some j) :
    exec (.mxCommandStart site) s = .next (modRun (setMx s site { getMx s site with startNext := now s + 1 }) j.id fun r =>
      { r with started := true, at0 := now s }) := by
  refine (if_neg ?_).trans ?_
  · simpa [hfree] using hstart
  · simp only [hj]
    rfl

/-! ## A step of a command (R337, R342) -/

/-- Every job of a number has made its command's effect. -/
def Acted (t : State) (id : Nat) : Prop := ∀ k, k ∈ t.dist.jobs → k.id = id → k.run.acted = true

theorem actDone_acted (s : State) (j : Job) (b : BitVec 16) (out : List Token) : Acted (actDone s j b out) j.id :=
  fun k hk hid => ((actDone_jobActed rfl j b out).2 k hk hid).1

/-- A change of a job's MX gives it what the change makes of it. -/
theorem getMx_modMx (s : State) (j : Job) (f : Mx → Mx) : getMx (modMx s j f) (engSite j.eng) = f (getMx s (engSite j.eng)) :=
  getMx_setMx_self ..

theorem getMx_of_fab {s t : State} (h : t.fab = s.fab) (site : Site) : getMx t site = getMx s site := by simp only [getMx, h]
theorem getBuf_of_fab {s t : State} (h : t.fab = s.fab) (k : Nat) : getBuf t k = getBuf s k := by simp only [getBuf, h]

/-- A slot command that completes advances its slot's version and no other (R343). -/
theorem mxComplete_does (s : State) (j : Job) (slot : Nat) :
    getMx (mxComplete s j slot) (engSite j.eng) =
      { getMx s (engSite j.eng) with ver := vset (getMx s (engSite j.eng)).ver slot (vget 0#16 (getMx s (engSite j.eng)).ver slot + 1#16) } ∧
    Acted (mxComplete s j slot) j.id :=
  ⟨getMx_modMx s j fun m => { m with ver := vset m.ver slot (vget 0#16 m.ver slot + 1#16) }, actDone_acted _ _ _ _⟩

/-- A node after a change that keeps the nodes' numbers. -/
theorem findNode_modNode (s : State) (id : Nat) {f : Node → Node} (hf : ∀ n, (f n).id = n.id) (i : Nat) :
    findNode (modNode s id f) i = (findNode s i).map fun n => if decide (n.id = id) then f n else n := by
  have hid : ((fun n : Node => decide (n.id = i)) ∘ fun n => if decide (n.id = id) then f n else n) = fun n => decide (n.id = i) := by
    funext n
    simp only [Function.comp]
    split
    · rw [hf]
    · rfl
  simp only [findNode, modNode, mapWhere, List.find?_map, hid]

/-- A change of a node that keeps its number and its launch record leaves the format registers of every job's node. -/
theorem fmtsOf_modNode (s : State) (id : Nat) {f : Node → Node} (hid : ∀ n, (f n).id = n.id) (hrec : ∀ n, (f n).lrec = n.lrec) (j : Job) :
    fmtsOf (jobNode (modNode s id f) j) = fmtsOf (jobNode s j) := by
  have hinst : jobInst (modNode s id f) j = jobInst s j := rfl
  unfold jobNode
  rw [hinst]
  cases jobInst s j with
  | none => rfl
  | some i =>
    dsimp only
    rw [findNode_modNode s id hid]
    cases findNode s i.node with
    | none => rfl
    | some n =>
      simp only [Option.map_some, fmtsOf, Node.fld]
      split
      · rw [hrec]
      · rfl

/-- A poisoned token marks the record of a node, and no launch record (R382). -/
theorem fmtsOf_markPsn (s : State) (n : Option Node) (t : Option Token) (j : Job) :
    fmtsOf (jobNode (markPsn s n t) j) = fmtsOf (jobNode s j) := by
  cases t with
  | none => rfl
  | some t =>
    simp only [markPsn]
    split
    · cases n with
      | none => rfl
      | some n => exact fmtsOf_modNode s n.id (f := fun n => { n with err := n.err ||| 16#16 }) (fun _ => rfl) (fun _ => rfl) j
    · rfl

section

variable (s : State) (j : Job)

/-- A token taken from the data input is its head. -/
theorem getBuf_popData : (getBuf (popData s j) (endKey (engSite j.eng) 1)).q = (getBuf s (endKey (engSite j.eng) 1)).q.tail :=
  (popBuf_markPsn ..).1

theorem getMx_popData (site : Site) : getMx (popData s j) site = getMx s site := by
  show Table.get Mx.empty (markPsn s _ _).fab.mxs site.toNat = _
  rw [markPsn_fab, getMx]

theorem fmtsOf_popData : fmtsOf (jobNode (popData s j) j) = fmtsOf (jobNode s j) :=
  fmtsOf_markPsn ..

end

section

variable {eng : EngId} {c : Cmd} {s : State} {j : Job}

/-! ## MXVER and MXZERO (R348) -/

theorem exec_mxver (h : AtCommand s eng 0x15#8 c j) (hs : j.run.started = true) :
    exec (.mxver eng c) s = .next (actDone (modMx s j fun m => { m with ver := vset m.ver (mxSlot c.ops) (mxVer c.ops) }) j 0#16 []) := by
  rw [show exec (.mxver eng c) s = execMxver eng c s from rfl, execMxver, engRun_atCommand h, hs]
  rfl

theorem exec_mxzero (h : AtCommand s eng 0x14#8 c j) (hs : j.run.started = true) :
    exec (.mxzero eng c) s = .next (mxComplete (modMx s j fun m => clearRows m (mxSlot c.ops) 64) j (mxSlot c.ops)) := by
  rw [show exec (.mxzero eng c) s = execMxzero eng c s from rfl, execMxzero, engRun_atCommand h, hs]
  rfl

/-- MXZERO clears its slot and advances its version. -/
theorem mxzero_does (h : AtCommand s eng 0x14#8 c j) (hs : j.run.started = true) :
    let m := getMx s (engSite j.eng)
    Completes (.mxzero eng c) s fun t =>
      (∀ x r n, x < 8 → r < 64 → n < 64 → accAt (getMx t (engSite j.eng)) x r n = (if x = mxSlot c.ops then 0#32 else accAt m x r n)) ∧
      (getMx t (engSite j.eng)).ver = vset m.ver (mxSlot c.ops) (vget 0#16 m.ver (mxSlot c.ops) + 1#16) ∧ Acted t j.id := by
  intro m
  obtain ⟨hmx, hacted⟩ := mxComplete_does (modMx s j fun m => clearRows m (mxSlot c.ops) 64) j (mxSlot c.ops)
  rw [getMx_modMx] at hmx
  refine ⟨_, exec_mxzero h hs, fun x r n _ hr hn => ?_, congrArg Mx.ver hmx, hacted⟩
  have hacc := accAt_clearRows m (slot := mxSlot c.ops) (y := x) (Nat.le_refl 64) hr hn
  simp only [hr, and_true] at hacc
  rw [hmx]
  exact hacc

/-! ## MXLDB (R344) -/

/-- The state after a block has been stored: the buffer's two halves, and no channel. -/
theorem loadWeight_does (href : j.refuted = false) (i : Nat) (b : BlkVal) :
    (∀ k, weight (getMx (loadWeight s j i b) (engSite j.eng)) k =
      if k = i then (if b.psn then (0#512, 0x00FF#16) else (b.data, b.desc)) else weight (getMx s (engSite j.eng)) k) ∧
    (getMx (loadWeight s j i b) (engSite j.eng)).acc = (getMx s (engSite j.eng)).acc ∧
    ∀ k, getBuf (loadWeight s j i b) k = getBuf s k := by
  have hfab : (loadWeight s j i b).fab = (modMx s j fun m =>
      { m with
        wdat := Table.set 0#512 m.wdat i (if b.psn then 0#512 else b.data)
        wdesc := Table.set 0x00FF#16 m.wdesc i (if b.psn then 0x00FF#16 else b.desc)
        whyp := Table.set 0#6 m.whyp i j.hyp }).fab := by
    unfold loadWeight
    rw [href]
    cases b.psn <;> rfl
  rw [getMx_of_fab hfab, getMx_modMx]
  refine ⟨fun k => ?_, rfl, fun k => getBuf_of_fab hfab k⟩
  rw [weight_set]
  cases b.psn <;> rfl

theorem exec_mxldb (h : AtCommand s eng 0x10#8 c j) : exec (.mxldb eng c) s = .next (mxldbStep c j s) :=
  engRun_atCommand h (fun _ _ => if bitAt c.ops 61 then (bits c.ops 62 13).toNat + 1 else 0) (mxldbStep c)

/-- MXLDB with DIN stores the next data token's block (R344). -/
theorem mxldbStep_data {tok : Token} (hs : j.run.started = true) (hw : j.run.awaits = []) (hdin : bitAt c.ops 61 = true)
    (hi : j.run.i < (bits c.ops 62 13).toNat + 1) (hturn : dataTurn s j = true) (hhead : dataHead s j = some tok) (hctrl : tok.ctrl = false) :
    mxldbStep c j s = loadWeight (popData s j) j ((bits c.ops 75 13).toNat + j.run.i) tok.block := by
  simp [mxldbStep, takeData, hs, hw, hdin, Nat.not_le.2 hi, hturn, hhead, hctrl]

theorem mxldb_does {tok : Token} (h : AtCommand s eng 0x10#8 c j) (hs : j.run.started = true) (hw : j.run.awaits = [])
    (href : j.refuted = false) (hdin : bitAt c.ops 61 = true) (hi : j.run.i < (bits c.ops 62 13).toNat + 1) (hturn : dataTurn s j = true)
    (hhead : dataHead s j = some tok) (hctrl : tok.ctrl = false) :
    let m := getMx s (engSite j.eng)
    let at0 := (bits c.ops 75 13).toNat + j.run.i
    Completes (.mxldb eng c) s fun t =>
      weight (getMx t (engSite j.eng)) at0 = (if tok.psn then (0#512, 0x00FF#16) else (tok.block.data, tok.block.desc)) ∧
      (∀ i, i ≠ at0 → weight (getMx t (engSite j.eng)) i = weight m i) ∧ (getMx t (engSite j.eng)).acc = m.acc ∧
      (getBuf t (endKey (engSite j.eng) 1)).q = (getBuf s (endKey (engSite j.eng) 1)).q.tail := by
  intro m at0
  obtain ⟨hweight, hacc, hbuf⟩ := loadWeight_does (s := popData s j) href at0 tok.block
  rw [getMx_popData] at hweight hacc
  refine ⟨_, (exec_mxldb h).trans (congrArg _ (mxldbStep_data hs hw hdin hi hturn hhead hctrl)),
    (hweight at0).trans (if_pos rfl), fun i hne => (hweight i).trans (if_neg hne), hacc, ?_⟩
  rw [hbuf, getBuf_popData]

/-! ## MXMUL and MXMULO (R345, R346) -/

/-- Both multiplies carry on alike once they have started. -/
theorem exec_mul {op : EngId → Cmd → Instr} {opc : BitVec 8} (hop : (op = .mxmul ∧ opc = 0x11#8) ∨ (op = .mxmulo ∧ opc = 0x12#8))
    (h : AtCommand s eng opc c j) : exec (op eng c) s = .next (mulStep c j s) := by
  rcases hop with ⟨rfl, rfl⟩ | ⟨rfl, rfl⟩
  · exact engRun_atCommand h (fun _ _ => mulTokens c) (mulStep c)
  · exact engRun_atCommand h (fun _ _ => mulTokens c) (mulStep c)

theorem mulStep_data {tok : Token} (hs : j.run.started = true) (hi : j.run.i < (mulArgs c.ops).slices) (hturn : dataTurn s j = true)
    (hhead : dataHead s j = some tok) (hctrl : tok.ctrl = false) : mulStep c j s = mulToken (mulArgs c.ops) tok j (popData s j) := by
  simp [mulStep, hs, Nat.not_le.2 hi, hturn, hhead, hctrl, Token.isCode, Token.code]

theorem mulStep_done (hs : j.run.started = true) (hi : (mulArgs c.ops).slices ≤ j.run.i) :
    mulStep c j s = mxComplete s j (mulArgs c.ops).slot := by
  simp [mulStep, hs, hi]

/-- An A token with a good descriptor, of a tile with good descriptors, is one row of its slice, and changes no channel. -/
theorem mulToken_fab {x : MulArgs} {tok : Token} (hdesc : kindDesc x.kind tok.block.desc = true)
    (htile : tileBad x.kind x.sp (getMx s (engSite j.eng)) (x.base + j.run.i * mxTileBlocks x.sp (BitVec.ofNat 2 x.kind)) = false) :
    (mulToken x tok j s).fab = (setMx s (engSite j.eng) (mulRow (fmtsOf (jobNode s j)) x.kind x.sp false x.slot j.run.j
      (x.base + j.run.i * mxTileBlocks x.sp (BitVec.ofNat 2 x.kind)) tok.block (getMx s (engSite j.eng)))).fab := by
  simp only [mulToken, hdesc, htile, Bool.not_true, Bool.or_self, Bool.false_eq_true, if_false]
  split <;> split <;> rfl

theorem mul_does {op : EngId → Cmd → Instr} {opc : BitVec 8} {tok : Token}
    (hop : (op = .mxmul ∧ opc = 0x11#8) ∨ (op = .mxmulo ∧ opc = 0x12#8)) (h : AtCommand s eng opc c j) (hs : j.run.started = true)
    (hi : j.run.i < (mulArgs c.ops).slices) (hj : j.run.j < 64) (hturn : dataTurn s j = true) (hhead : dataHead s j = some tok)
    (hctrl : tok.ctrl = false) :
    let m := getMx s (engSite j.eng)
    let x := mulArgs c.ops
    let base := x.base + j.run.i * mxTileBlocks x.sp (BitVec.ofNat 2 x.kind)
    let fmts := fmtsOf (jobNode s j)
    let as := (List.range (kindK x.kind)).map fun k => kindElem fmts x.kind tok.block.data tok.block.desc k
    kindDesc x.kind tok.block.desc = true → tileBad x.kind x.sp m base = false →
    Completes (op eng c) s fun t =>
      (∀ y r n, y < 8 → r < 64 → n < 64 → accAt (getMx t (engSite j.eng)) y r n =
        (if y = x.slot ∧ r = j.run.j then
          (dotRound rne (as.zip (column fmts x.kind x.sp m base n)) (v32 (accAt m x.slot r n))).1 else accAt m y r n)) ∧
      (getMx t (engSite j.eng)).ver = m.ver ∧
      (getBuf t (endKey (engSite j.eng) 1)).q = (getBuf s (endKey (engSite j.eng) 1)).q.tail := by
  intro m x base fmts as hdesc htile
  have hfab := mulToken_fab (s := popData s j) (j := j) hdesc (by rw [getMx_popData]; exact htile)
  rw [getMx_popData, fmtsOf_popData] at hfab
  have hmx := getMx_of_fab hfab (engSite j.eng)
  rw [getMx_setMx_self] at hmx
  refine ⟨_, (exec_mul hop h).trans (congrArg _ (mulStep_data hs hi hturn hhead hctrl)), fun y r n _ hr hn => ?_, ?_, ?_⟩
  · rw [hmx, accAt_mulRow _ _ _ _ _ _ _ hj hr hn]
    split
    · rename_i hyr
      rw [hyr.2]
      rfl
    · rfl
  · rw [hmx]
    rfl
  · rw [getBuf_of_fab hfab, getBuf_setMx, getBuf_popData]

/-! ## MXDRN (R347) -/

theorem exec_mxdrn (h : AtCommand s eng 0x13#8 c j) : exec (.mxdrn eng c) s = .next (mxdrnStep c j s) :=
  engRun_atCommand h (fun _ _ => 0) (mxdrnStep c)

/-- A token for an out channel that can take one goes there. -/
theorem engSend_ready (hout : bitAt (engBinding s (engSite j.eng)) 34 = true)
    (hready : sendReady s (engSite j.eng) 8 (bits (engBinding s (engSite j.eng)) 16 4).toNat = true) (tok : Token) :
    engSend s j tok = some (sendOut s (engSite j.eng) (jobInst s j) 8 (bits (engBinding s (engSite j.eng)) 16 4).toNat tok) := by
  simp [engSend, hout, hready]

theorem mxdrnStep_sends {u : State} (hs : j.run.started = true) (hi : j.run.i < drainCount c.ops)
    (hsend : engSend s j (vectorTok (drainToken (fmtsOf (jobNode s j)) c.ops (getMx s (engSite j.eng)) j.run.i).1 0xFFFF#16
      (drainToken (fmtsOf (jobNode s j)) c.ops (getMx s (engSite j.eng)) j.run.i).2 j.hyp j.refuted false) = some u) :
    mxdrnStep c j s = modRun u j.id fun r => { r with i := r.i + 1 } := by
  simp [mxdrnStep, hs, Nat.not_le.2 hi, hsend]

/-- After its last token a drain clears its rows under CLR, and its slot's version advances. -/
theorem mxdrnStep_done (hs : j.run.started = true) (hi : drainCount c.ops ≤ j.run.i) :
    ∃ u, getMx u (engSite j.eng) =
        (if bitAt c.ops 58 then clearRows (getMx s (engSite j.eng)) (mxSlot c.ops) ((bits c.ops 43 6).toNat + 1)
          else getMx s (engSite j.eng)) ∧
      mxdrnStep c j s = mxComplete u j (mxSlot c.ops) := by
  refine ⟨if bitAt c.ops 58 then modMx s j fun m => clearRows m (mxSlot c.ops) ((bits c.ops 43 6).toNat + 1) else s, ?_, ?_⟩
  · split
    · exact getMx_modMx ..
    · rfl
  · simp [mxdrnStep, hs, hi]

/-- MXDRN sends its next token into its out channel, and leaves the tile (R347). -/
theorem mxdrn_sends (h : AtCommand s eng 0x13#8 c j) (hs : j.run.started = true) (hi : j.run.i < drainCount c.ops)
    (hout : bitAt (engBinding s (engSite j.eng)) 34 = true)
    (hready : sendReady s (engSite j.eng) 8 (bits (engBinding s (engSite j.eng)) 16 4).toNat = true) :
    let key := inKey (engSite j.eng) 8 (bits (engBinding s (engSite j.eng)) 16 4).toNat
    let x := drainToken (fmtsOf (jobNode s j)) c.ops (getMx s (engSite j.eng)) j.run.i
    Completes (.mxdrn eng c) s fun t =>
      (getBuf t key).q = (getBuf s key).q ++ [(vectorTok x.1 0xFFFF#16 x.2 j.hyp j.refuted false, localAt s (engSite j.eng) 8 + 1)] ∧
      getMx t (engSite j.eng) = getMx s (engSite j.eng) := by
  intro key x
  refine ⟨_, (exec_mxdrn h).trans (congrArg _ (mxdrnStep_sends hs hi (engSend_ready hout hready _))), ?_, ?_⟩
  · show (getBuf (sendOut s (engSite j.eng) (jobInst s j) 8 _ _) key).q = _
    rw [getBuf_sendOut, if_pos rfl]
    rfl
  · show getMx (sendOut s (engSite j.eng) (jobInst s j) 8 _ _) _ = _
    rw [sendOut_frame]
    rfl

/-- MXDRN ends with its rows cleared under CLR and its slot's version advanced (R347). -/
theorem mxdrn_ends (h : AtCommand s eng 0x13#8 c j) (hs : j.run.started = true) (hi : drainCount c.ops ≤ j.run.i) :
    let m := getMx s (engSite j.eng)
    Completes (.mxdrn eng c) s fun t =>
      (∀ y r n, y < 8 → r < 64 → n < 64 → accAt (getMx t (engSite j.eng)) y r n =
        (if y = mxSlot c.ops ∧ bitAt c.ops 58 = true ∧ r < (bits c.ops 43 6).toNat + 1 then 0#32 else accAt m y r n)) ∧
      (getMx t (engSite j.eng)).ver = vset m.ver (mxSlot c.ops) (vget 0#16 m.ver (mxSlot c.ops) + 1#16) ∧ Acted t j.id := by
  intro m
  obtain ⟨u, hu, hstep⟩ := mxdrnStep_done (s := s) hs hi
  obtain ⟨hmx, hacted⟩ := mxComplete_does u j (mxSlot c.ops)
  have hrows : (bits c.ops 43 6 : BitVec 6).toNat + 1 ≤ 64 := (bits c.ops 43 6 : BitVec 6).isLt
  refine ⟨_, (exec_mxdrn h).trans (congrArg _ hstep), fun y r n _ hr hn => ?_, ?_, hacted⟩
  · have hacc : accAt (getMx (mxComplete u j (mxSlot c.ops)) (engSite j.eng)) y r n = accAt (getMx u (engSite j.eng)) y r n := by
      rw [hmx]
      rfl
    rw [hacc, hu]
    cases bitAt c.ops 58 with
    | true => simpa using accAt_clearRows m (slot := mxSlot c.ops) (y := y) hrows hr hn
    | false => simp [m]
  · have hver : (getMx u (engSite j.eng)).ver = m.ver := by
      rw [hu]
      split <;> rfl
    rw [hmx, hver]

end

/-- Settles O37: each command is taken from its job's state (`AtCommand`) to its step, and the step to what it leaves of the tile, the
channel and the job. -/
theorem matrixCommands : Obligations.MatrixCommands := by
  refine ⟨fun site s j hstart hfree hj => ?_, fun eng c s j hs => ⟨fun h => ?_, fun h => mxzero_does h hs, ?_, ?_, fun h => ⟨?_, ?_⟩⟩⟩
  · obtain ⟨hmem, hmin⟩ := earliest_some hj
    refine ⟨_, exec_mxCommandStart hstart hfree hj, hmem, hmin, getMx_setMx_self .., ?_⟩
    simp [modRun, modJob, mapWhere]
  · exact ⟨_, exec_mxver h hs, getMx_modMx s j fun m => { m with ver := vset m.ver (mxSlot c.ops) (mxVer c.ops) }, actDone_acted _ _ _ _⟩
  · exact fun tok h hw href hdin hi hturn hhead hctrl => mxldb_does h hs hw href hdin hi hturn hhead hctrl
  · intro op opc tok hop h
    refine ⟨fun hi hj hturn hhead hctrl hdesc htile => mul_does hop h hs hi hj hturn hhead hctrl hdesc htile, fun hi => ?_⟩
    exact ⟨_, (exec_mul hop h).trans (congrArg _ (mulStep_done hs hi)), mxComplete_does s j (mulArgs c.ops).slot⟩
  · exact fun hi hout hready => mxdrn_sends h hs hi hout hready
  · exact fun hi => mxdrn_ends h hs hi

end Sys2Proof.Machine
end
